-- ==== Sys2Proof/Word.lean ====
section
/-!
DEFINITION. The word types of the block: bytes, the 32- and 64-bit words of registers, packets and fabric addresses.
-/

namespace Sys2Proof

/-- One byte of memory, of a packet or of a message. -/
abbrev Byte := BitVec 8

/-- A 32-bit register or binary32 encoding. -/
abbrev W32 := BitVec 32

/-- A 64-bit register, CC register or fabric address (R176). -/
abbrev W64 := BitVec 64

end Sys2Proof
end

