-- ==== Sys2Proof/Syntax.lean ====
section
/-!
DEFINITION. The commands and events of the block: one constructor for every row of the opcode table, with the row's
operands. A packet command's row names the command in flight by its number; its parameters are those of its packet.
-/

namespace Sys2Proof

/-- A pin of a stack channel found failed at training (R214). -/
structure PinAt where
  stack : Nat
  channel : Nat
  pin : Nat
deriving DecidableEq, Repr

/-- How a CXL port trained at start-up (R486): up or not, at the PCIe 6.0 rate or not, its capacity in GiB. -/
structure FarTrain where
  up : Bool
  rate6 : Bool
  capacity : Nat
deriving DecidableEq, Repr

/-- One island's measured state (R69): millivolts, M beats/s, degrees C. -/
structure Reading where
  mv : Nat
  rate : Nat
  temp : Nat
deriving DecidableEq, Repr

/-- A doorbell write (R31): the queue, whether it is REPLY_HEAD, and the value. -/
structure Bell where
  queue : Nat
  replyHead : Bool
  value : Nat
deriving DecidableEq, Repr

/-- The unit whose handshake hangs (R393 class 9, R502): an island, the die-to-die bridge, or an SSQ. -/
inductive HangUnit where
  | island (n : Nat)
  | bridge
  | ssq (stack : Nat)
deriving DecidableEq, Repr

/-- What a HAIL flit carries (R367). -/
structure Hail where
  serial : W64
  port : Nat
  node : BitVec 16
  chain : List Byte
  ephemeral : Nat
  signature : List Byte
deriving DecidableEq, Repr

/-- One link entry of an advertisement or of the fabric map (R377). -/
structure LinkEntry where
  port : Nat
  peerSerial : W64
  peerPort : Nat
  peerNode : BitVec 16
  state : Nat
deriving DecidableEq, Repr

/-- A neighbour advertisement (R377, R385): the origin, its node ID, its number, its PPS lock and its links. -/
structure Advert where
  serial : W64
  node : BitVec 16
  number : W32
  ppsLock : Bool
  links : List LinkEntry
deriving DecidableEq, Repr

/-- One page of a shipment (R336): its layer and head as a pair number, its page number, its entry's positions, whether
it is sealed and its digest, its bytes. -/
structure ShipPage where
  pair : Nat
  page : Nat
  present : Nat
  sealed : Bool
  digest : Nat
  poisoned : Bool
  bytes : List Byte
deriving DecidableEq, Repr

/-- What SHIP-KV brings to its destination (R335, R336): who sent it and under which partition number, the source's
command number, the destination request, the source table's layers, heads, format and geometry, its pages with U and
next position, and the clocks of the source record. -/
structure Shipment where
  node : Nat
  part : Nat
  cmd : Nat
  request : Nat
  layers : Nat
  heads : Nat
  format : Nat
  geometry : Nat
  used : Nat
  next : Nat
  state : Nat
  feedBack : Bool
  turnStart : Nat
  lastToken : Nat
  firstTarget : Nat
  betweenTarget : Nat
  pages : List ShipPage
deriving DecidableEq, Repr

/-- The two ends of a shipment's completion (R337): at the destination every page has arrived; at the source the
destination's reply has, with its status and detail. -/
inductive ShipEvent where
  | arrived (x : Shipment)
  | replied (cmd status detail : Nat)
deriving DecidableEq, Repr

/-- The commands and events of the block, in the opcode table's order. -/
inductive Instr where
  /-- SQ_TAIL_WRITE (R28): Host writes a new submission tail to a queue's doorbell, which exposes the packets up to it. -/
  | sqTailWrite (fn queue value : Nat) (stores : List (Nat × Byte))
  /-- REPLY_HEAD_WRITE (R30): Host writes a new reply head, which frees reply slots and may let the module resume taking packets. -/
  | replyHeadWrite (fn queue value : Nat)
  /-- PACKET_TAKE (R35): The Lockkeeper picks the next queue by arbitration, reserves a reply slot, takes one packet and judges it under the checking order and the replay window. -/
  | packetTake (ok : Bool)
  /-- COMMAND_START (R38): A taken command starts once its queue order, fence and job residency conditions hold. -/
  | commandStart (cmd : Nat)
  /-- COMMAND_COMPLETE (R195): A command's effects are complete, so its reply and shadow update are written and the retired sequence advances. -/
  | commandComplete (cmd : Nat) (ok : Bool)
  /-- DUPLICATE_REPLY (R51): A duplicate packet bound to a still-running original gets its DUPLICATE reply immediately after the original's reply. -/
  | duplicateReply (queue : Nat) (ok : Bool)
  /-- COMMAND_TIMEOUT (R39): A command's counted time reaches its queue timeout: it ends with TIMEOUT, or with a job fault when it is running a tile program. -/
  | commandTimeout (cmd : Nat)
  /-- COMMAND_RETRY (R397): A RETRY or REPAIR fault charged to a RETRIABLE command stops it, resets its units, re-executes it and replies DONE_RETRIED. -/
  | commandRetry (cmd cls : Nat)
  /-- ADMIN_QUEUE_ENABLE (R34): Setting QUEUE.ADMIN_CFG.ENABLE checks the configuration and starts the admin queue with restarted indices and window. -/
  | adminQueueEnable (value : W32)
  /-- ADMIN_QUEUE_DISABLE (R34): Clearing ENABLE stops the admin queue from taking packets. -/
  | adminQueueDisable (value : W32)
  /-- ADMIN_QUEUE_DRAINED (R34): The admin queue's commands in flight and their duplicate replies are done, so ACTIVE goes to 0 and any pending ENABLE takes effect. -/
  | adminQueueDrained
  /-- QUEUE_CREATE (R26): Creates queue 1-255 for a partition with its rings, shadow, timeout and an empty replay window. -/
  | queueCreate (cmd : Nat)
  /-- QUEUE_DELETE (R507): Stops a queue, waits for its commands in flight, writes their replies, withdraws the doorbell page and frees the number. -/
  | queueDelete (cmd : Nat)
  /-- PARTITION_OPEN (R341): Opens a partition of a given shape bound to a virtual function, optionally confidential. -/
  | partitionOpen (cmd : Nat)
  /-- PARTITION_CLOSE (R342): Closes a partition: tenant-switch scrub, frees customers and slots, clears the pool, destroys far keys and unbinds the VF. -/
  | partitionClose (cmd : Nat)
  /-- JOB_OPEN (R343): Makes a job resident in the queue's partition with its save area, slice and save method. -/
  | jobOpen (cmd : Nat)
  /-- JOB_CLOSE (R346): Waits for the job's started commands, then unloads its programs, closes its requests and discards its save. -/
  | jobClose (cmd : Nat)
  /-- JOB_SLICE (R346): Sets the job's slice length from its next activation. -/
  | jobSlice (cmd : Nat)
  /-- MEM_COPY (R175): Copies bytes from source to destination in increasing address order. -/
  | memCopy (cmd : Nat)
  /-- MEM_FILL (R175): Fills a destination range with a repeated 4-byte pattern. -/
  | memFill (cmd : Nat)
  /-- COPY_TENSOR (R155): Runs one layout copy operation between tensor descriptors on the IOD copy engine. -/
  | copyTensor (cmd : Nat)
  /-- SCRUB_RANGE (R221): Scrubs a memory range and writes a summary before its reply. -/
  | scrubRange (cmd : Nat)
  /-- SET_KV_BOUNDARY (R207): Sets a PIM stack's KV boundary, zeroing every page that changes side. -/
  | setKvBoundary (cmd : Nat)
  /-- CHECKBIT_WRITE (R219): Writes one 80-bit word with the given check bits, to test the checker. -/
  | checkbitWrite (cmd : Nat)
  /-- LOAD_PROGRAM (R143): Reads a program image, digests it and installs its code on the selected tiles for the job. -/
  | loadProgram (cmd : Nat)
  /-- LAUNCH (R144): Initialises the selected tiles and starts a loaded program on them, optionally in twin mode. -/
  | launch (cmd : Nat)
  /-- UNLOAD_PROGRAM (R147): Frees a program's instruction memory on every tile it was installed on. -/
  | unloadProgram (cmd : Nat)
  /-- SET_FORMAT_SLOT (R97): Loads one custom format slot, 12-15, of the issuing partition. -/
  | setFormatSlot (cmd : Nat)
  /-- CUSTOMER_SET (R319): Claims or updates a customer's rate, burst and grace. -/
  | customerSet (cmd : Nat)
  /-- REQUEST_OPEN (R312): Creates a LISTENING request with a prefix set applied, or adopts a surviving page table. -/
  | requestOpen (cmd : Nat)
  /-- REQUEST_CLOSE (R313): Waits for steps that include the request, drops its page owners, discards its chunks and frees it. -/
  | requestClose (cmd : Nat)
  /-- SUBMIT_CHUNK (R314): Queues an input chunk on a request; a turn-end chunk moves the request to TURN_END. -/
  | submitChunk (cmd : Nat)
  /-- STEP_PLAN (R324): Refills customers, detects flag falls, orders ready requests by slack and writes a step manifest within the beat budget. -/
  | stepPlan (cmd : Nat)
  /-- STEP_RUN (R329): Waits for ordered commands, reserves positions and pins pages, then launches the step program over the latest manifest. -/
  | stepRun (cmd : Nat)
  /-- STEP_RUN_SETTLE (R332): After the step program finishes, dequeues chunks, charges customers, updates clocks and states, seals pages and releases pins. -/
  | stepRunSettle (cmd : Nat)
  /-- FORK_SEQUENCE (R286): Shares every page of a source request's table into a new request's table. -/
  | forkSequence (cmd : Nat)
  /-- EDIT_PAGES (R291): Checks, then applies, a list of SET and CLEAR edits to a request's page table. -/
  | editPages (cmd : Nat)
  /-- EVICT (R294): Evicts the lowest-scoring unprotected live positions of each layer and head down to the target. -/
  | evict (cmd : Nat)
  /-- COMPACT (R295): Repacks the live positions of unshared pages into fresh pages and frees the old ones. -/
  | compact (cmd : Nat)
  /-- PREFIX_LOOKUP (R297): Matches a hash list against the prefix tree and attaches the matched page groups as shared entries. -/
  | prefixLookup (cmd : Nat)
  /-- PREFIX_INSERT (R298): Creates prefix tree nodes with page groups for qualifying blocks of the recorded hash list. -/
  | prefixInsert (cmd : Nat)
  /-- LOAD_PREFIX_SET (R301): Installs a learned prefix set from a page group, sealing its pages read-only. -/
  | loadPrefixSet (cmd : Nat)
  /-- PROMOTE (R304): Reads demoted pages back from the far store, checks digests and makes their entries valid. -/
  | promote (cmd : Nat)
  /-- DEMOTE (R303): Moves unshared pages of a range to the far page store and marks their entries demoted. -/
  | demote (cmd : Nat)
  /-- SHIP_KV (R335): Ships a request's valid pages and clocks to a request on another node as barges. -/
  | shipKv (cmd : Nat)
  /-- SHIP_KV_DEST_COMPLETE (R337): The destination, once every page has arrived and been verified, fills the table and record and replies to the source. -/
  | shipKvDestComplete (event : ShipEvent)
  /-- ADOPT_PAGES (R306): Verifies the digests of an adopted table's pages and drops each pair's pages from the first one that fails. -/
  | adoptPages (cmd : Nat)
  /-- REGISTER_WEIGHTS (R409): Digests a weight range, checks it against the digest block and records a registration. -/
  | registerWeights (cmd : Nat)
  /-- UNREGISTER_WEIGHTS (R414): Removes a weight registration and its digest from the attestation report. -/
  | unregisterWeights (cmd : Nat)
  /-- VERIFY_WEIGHTS (R414): Recomputes every page digest of a registration and repairs the mismatched pages from the backing copy. -/
  | verifyWeights (cmd : Nat)
  /-- WEIGHT_PAGE_REPAIR (R411): A poisoned read of a backed weight page fetches, checks and reinstalls the page, then retries the affected commands. -/
  | weightPageRepair (handle page : Nat) (answers : Bool)
  /-- NEIGHBOUR_READ (R377): Writes the fabric map as 32-byte link entries to a destination. -/
  | neighbourRead (cmd : Nat)
  /-- SET_NODE_ID (R375): Assigns this module's node ID and announces it in HAIL and advertisements. -/
  | setNodeId (cmd : Nat)
  /-- ROUTE_WRITE (R378): Writes entries of the group or member routing table. -/
  | routeWrite (cmd : Nat)
  /-- LINK_STATE (R391): Writes a port's 64-byte link state record. -/
  | linkState (cmd : Nat)
  /-- LINK_REKEY (R370): Rekeys a link by a fresh ECDH exchange on the towpath. -/
  | linkRekey (cmd : Nat)
  /-- FABRIC_FENCE (R194): Completes when every remote write of the queue's earlier commands is visible. -/
  | fabricFence (cmd : Nat)
  /-- SET_CAP (R449): Sets the module power cap, 900-1,900 W. -/
  | setCap (cmd : Nat)
  /-- SET_PROFILE (R450): Selects the power share profile. -/
  | setProfile (cmd : Nat)
  /-- LEND_POOL (R462): Joins or leaves a power lending pool. -/
  | lendPool (cmd : Nat)
  /-- SLEEP (R463): Writes its reply and enters retention. -/
  | sleep (cmd : Nat)
  /-- POWER_READ (R461): Writes the 128-byte power record and returns the energy counter. -/
  | powerRead (cmd : Nat)
  /-- ATTEST_REPORT (R439): Writes a COSE_Sign1 attestation report signed with the alias key. -/
  | attestReport (cmd : Nat)
  /-- SCRUB_STATUS (R445): Returns the estimated ns remaining in a partition's tenant switch. -/
  | scrubStatus (cmd : Nat)
  /-- IDENT_READ (R477): Writes 512 bytes of the IDENT block to a destination. -/
  | identRead (cmd : Nat)
  /-- FAULT_LOG (R420): Writes a CBOR sequence of kept or collected fault records. -/
  | faultLog (cmd : Nat)
  /-- FAULT_RESPONSE_LOAD (R418): Replaces fault response table entries for the classes named. -/
  | faultResponseLoad (cmd : Nat)
  /-- GUARD_BAND_LOAD (R405): Replaces the partition's guard-band table. -/
  | guardBandLoad (cmd : Nat)
  /-- TRAFFIC_GEN (R227): Writes, reads back and raw-compares bursts on one channel, then rewrites them as zeros. -/
  | trafficGen (cmd : Nat)
  /-- SCRUB_LAP (R223): Runs one full scrub lap and writes a 1,088-byte report. -/
  | scrubLap (cmd : Nat)
  /-- BUNDLE_ISSUE (R113): The CC issues one bundle, running its slots and pushing its engine instructions, then its IDLE beats pass. -/
  | bundleIssue (tile : Nat)
  /-- CC_RESULT_LAND (R70): A CC operation's result lands in its register when its beat latency expires, higher slot winning. -/
  | ccResultLand (tile : Nat)
  /-- READ_CACHE_FILL (R71): A missed global read-cache line arrives and the frozen CC pipeline resumes. -/
  | readCacheFill (tile : Nat)
  /-- ASET (R126): Sets an address register's base and strides and resets its indices. -/
  | aset (tile engine : Nat)
  /-- AWRAP (R126): Sets an address register's wraps and resets its indices. -/
  | awrap (tile engine : Nat)
  /-- SEED (R126): Reseeds the engine's LFSR. -/
  | seed (tile engine : Nat)
  /-- DGSET (R126): Sets a DX global base register G0-G3. -/
  | dgset (tile : Nat)
  /-- MWLOAD (R131): Loads one native tile into an MX weight buffer. -/
  | mwload (tile : Nat)
  /-- MMA (R131): Multiplies an activation row by a weight buffer into accumulators. -/
  | mma (tile : Nat)
  /-- MDRAIN (R131): Converts accumulators to a destination format, optionally clearing them. -/
  | mdrain (tile : Nat)
  /-- VADD (R132): VX elementwise s + t. -/
  | vadd (tile : Nat)
  /-- VSUB (R132): VX elementwise s - t. -/
  | vsub (tile : Nat)
  /-- VMUL (R132): VX elementwise s × t. -/
  | vmul (tile : Nat)
  /-- VFMA (R132): VX fused s × t + d. -/
  | vfma (tile : Nat)
  /-- VMAX (R132): VX elementwise maximum. -/
  | vmax (tile : Nat)
  /-- VMIN (R132): VX elementwise minimum. -/
  | vmin (tile : Nat)
  /-- VSCALE (R132): VX s × a + b with immediate a and b. -/
  | vscale (tile : Nat)
  /-- VCVT (R132): VX format conversion. -/
  | vcvt (tile : Nat)
  /-- VMULB (R132): VX multiply by the first element at AT. -/
  | vmulb (tile : Nat)
  /-- VSUBB (R132): VX subtract the first element at AT. -/
  | vsubb (tile : Nat)
  /-- VREDSUM (R133): VX pairwise-tree sum of 64 elements. -/
  | vredsum (tile : Nat)
  /-- VREDMAX (R133): VX pairwise-tree maximum of 64 elements. -/
  | vredmax (tile : Nat)
  /-- SEXP (R134): SX exp(s × p). -/
  | sexp (tile : Nat)
  /-- SLOG (R134): SX log(s × p). -/
  | slog (tile : Nat)
  /-- SRSQRT (R134): SX rsqrt(s × p). -/
  | srsqrt (tile : Nat)
  /-- SRCP (R134): SX reciprocal of s × p. -/
  | srcp (tile : Nat)
  /-- SIDX (R134): SX integer index arithmetic modulo 2^32. -/
  | sidx (tile : Nat)
  /-- DCOPY (R135): DX copies bytes, optionally with a release on the last repeat. -/
  | dcopy (tile : Nat)
  /-- DLAYOUT (R171): DX runs one layout copy per repeat from a copy block. -/
  | dlayout (tile : Nat)
  /-- DFLAGSET (R135): DX writes an 8-byte flag to a global address as a release. -/
  | dflagset (tile : Nat)
  /-- DFLAGWAIT (R135): DX starts waiting for a global flag word to reach a value. -/
  | dflagwait (tile : Nat)
  /-- DFLAGWAIT_SATISFIED (R193): The awaited flag value is observed: the wait acquires and drops read-cache lines and staging buffers. -/
  | dflagwaitSatisfied (tile : Nat)
  /-- DFENCE (R194): DX waits until every earlier remote write of the DX is visible. -/
  | dfence (tile : Nat)
  /-- DDESC (R245): DX sends attention or flight descriptors to an SSQ and reserves space for their outputs. -/
  | ddesc (tile : Nat)
  /-- TWIN_MATCH_TIMEOUT (R407): A leaving write stays unmatched for 100 µs, so the pair has a mismatch and stops. -/
  | twinMatchTimeout (tile : Nat)
  /-- ENGINE_INSTRUCTION_COMPLETE (R139): An engine instruction completes and releases its scoreboard entries. -/
  | engineInstructionComplete (tile engine : Nat)
  /-- TILE_FINISH (R145): A tile has halted with every push and remote access answered; the last such tile completes the LAUNCH. -/
  | tileFinish (tile : Nat)
  /-- JOB_FAULT (R358): An illegal instruction, access violation or program timeout ends every job and starts the clean restart. -/
  | jobFault
  /-- RESTART_STOP_DONE (R358): Every tile has stopped, so the retain phase puts the stacks in self-refresh. -/
  | restartStopDone
  /-- RESTART_RETAIN_DONE (R358): Stacks are in self-refresh, so the compute dies are reset and repowered. -/
  | restartRetainDone
  /-- RESTART_RESET_DONE (R358): Dies and helpers are reinitialised, so the stacks leave self-refresh. -/
  | restartResetDone
  /-- RESTART_REPORT (R359): Memory has resumed, so JOB_LOST replies are written, the RESTART cause is raised and queues resume. -/
  | restartReport
  /-- SLICE_END (R348): An active job's slice expires: a new slice begins, or no further command of the job starts. -/
  | sliceEnd (part : Nat)
  /-- JOB_SWITCH (R352): Once the outgoing job's commands complete, saves, zeroes, restores and activates the next job. -/
  | jobSwitch (part : Nat)
  /-- RUN_START (R249): An SSQ starts a run on an idle bank with a free compute-active slot and reserved merge space, loading queries. -/
  | runStart (stack bank : Nat)
  /-- ATTN_SCORE (R258): Flight that writes attention logits for a page. -/
  | attnScore (stack bank : Nat)
  /-- ATTN_FULL (R252): Flight that computes an attention partial over a page, optionally updating score words. -/
  | attnFull (stack bank : Nat)
  /-- SCORE_DECAY (R259): Flight that multiplies valid score words by a decay. -/
  | scoreDecay (stack bank : Nat)
  /-- GEMV (R259): In-bank matrix-vector product flight. -/
  | gemv (stack bank : Nat)
  /-- AXPY (R259): In-bank y = a·x + y flight. -/
  | axpy (stack bank : Nat)
  /-- REDUCE (R259): In-bank sum, largest magnitude or sum-of-squares flight. -/
  | reduce (stack bank : Nat)
  /-- PAGE_COPY (R259): Flight that copies a page within a stack. -/
  | pageCopy (stack bank : Nat)
  /-- ROW_ZERO (R259): Flight that writes all-zero codewords across rows. -/
  | rowZero (stack bank : Nat)
  /-- PAGE_DIGEST (R259): Flight that writes the CRC-64 of a page's data bytes. -/
  | pageDigest (stack bank : Nat)
  /-- LOCK (R262): A pound ends: the lock takes owed refreshes, flushes merge entries, serves waiting accesses and starts the next pound. -/
  | lock (stack bank : Nat)
  /-- MERGE_GROUP_RESULT (R255): A group's run partials are merged in repeat order, finished if FINAL, and written at AD. -/
  | mergeGroupResult (stack : Nat)
  /-- REFRESH_DUE (R225): A bank's tREFI elapses and it owes a refresh, taken first when it owes 4. -/
  | refreshDue (stack bank : Nat)
  /-- MERGE_BUFFER_FLUSH (R217): A merge-buffer entry reaches 2 µs of age and is read-modified-written to the array. -/
  | mergeBufferFlush (stack channel : Nat)
  /-- STACK_ROW_CHANGE (R240): A stack's base-die temperature crosses a row threshold, changing the timing rule row in force. -/
  | stackRowChange (stack temp : Nat)
  /-- REFRESH_RATE_CHANGE (R224): A base die crosses 85 °C or 83 °C, switching tREFI. -/
  | refreshRateChange (stack temp : Nat)
  /-- IDLE_SCRUB_LAP_END (R222): The idle scrubber completes a lap and writes STACK.LAP_US. -/
  | idleScrubLapEnd (laps : List Nat)
  /-- UNIT_HANG (R393): A handshake stays open for 100 µs, raising UNIT_HANG. -/
  | unitHang (unit : HangUnit) (cmd : Option Nat)
  /-- FAULT_RECORD_EXPORT (R421): A fault record with EXPORT set is sent on the towpath to the collector. -/
  | faultRecordExport
  /-- FAULT_RECORD_RECEIVE (R421): A received fault record is kept in the collected store. -/
  | faultRecordReceive (record : List Byte)
  /-- TENANT_SWITCH_CLEAR_DONE (R442): The on-die clear ends, so the memory phase and link rekeys start. -/
  | tenantSwitchClearDone (part : Nat)
  /-- TENANT_SWITCH_MEMORY_DONE (R445): Every stack of the shape is zeroed, so the switch ends and SCRUB_DONE is set. -/
  | tenantSwitchMemoryDone (part : Nat)
  /-- FAR_LINK_DOWN (R235): A CXL link goes down: accesses in flight end as waits and one retrain is attempted. -/
  | farLinkDown (port : Nat)
  /-- FAR_LINK_RETRAIN_DONE (R235): The far-tier retrain completes, or fails and leaves the port down with FAR_LINK_DOWN set. -/
  | farLinkRetrainDone (port : Nat) (up rate6 : Bool)
  /-- PORT_TRAINED (R362): A Fyant port finishes training on all four lanes and starts HAIL. -/
  | portTrained (port roundTrip : Nat)
  /-- HAIL_RECEIVE (R367): A HAIL flit is verified and link keys are derived, or the port stays down with IDENT_FAIL. -/
  | hailReceive (port : Nat) (hail : Hail)
  /-- FLIT_TRANSMIT (R371): The output arbiter picks the next flit by channel priority and credit and sends it. -/
  | flitTransmit (port : Nat)
  /-- FLIT_RECEIVE (R364): A flit is checked by CRC and tag, delivered or discarded with a negative acknowledgement, and its acknowledgements and credits are applied. -/
  | flitReceive (port : Nat) (flit : List Byte) (fec : Nat)
  /-- PORT_RETRAIN_DONE (R365): An in-service retrain ends: replay continues, or the port goes down. -/
  | portRetrainDone (port : Nat) (up : Bool)
  /-- PORT_SILENCE_TIMEOUT (R365): The peer stays silent for 1 ms, so the port goes down and its unacknowledged flits are discarded. -/
  | portSilenceTimeout (port : Nat)
  /-- REKEY_MESSAGE_RECEIVE (R370): A towpath rekey message advances the ECDH exchange and the switch of key epoch. -/
  | rekeyMessageReceive (port : Nat) (peerKey : Nat)
  /-- WRITE (R382): A remote write message arrives, is admitted or refused, and is applied and acknowledged. -/
  | write (port : Nat)
  /-- READ (R382): A remote read message arrives, is admitted or refused, and is answered with read data. -/
  | read (port : Nat)
  /-- READ_DATA (R372): Read data returns to the source agent. -/
  | readData (port : Nat)
  /-- WRITE_ACKNOWLEDGEMENT (R373): A write acknowledgement returns to the source, advancing fences and tile finish. -/
  | writeAcknowledgement (port : Nat)
  /-- REFUSAL (R383): A refusal arrives and is raised as an access violation or an address error. -/
  | refusal (port : Nat)
  /-- ADMISSION_QUERY (R183): A command's admission query is checked against the admission entries for its whole range. -/
  | admissionQuery (port : Nat)
  /-- ADMISSION_ANSWER (R183): The destination's admission decision reaches the waiting command. -/
  | admissionAnswer (port : Nat)
  /-- BARGE (R379): A barge message arrives and is placed by its address. -/
  | barge (port : Nat)
  /-- UNROUTABLE (R380): An unroutable response arrives and is treated as a refusal. -/
  | unroutable (port : Nat)
  /-- MESSAGE_FORWARD (R378): A transit module routes a message by its tables, or drops it with an unroutable response. -/
  | messageForward (port channel : Nat)
  /-- NEIGHBOUR_ADVERTISEMENT_SEND (R377): The 10 ms timer, or a link or node change, broadcasts a link advertisement. -/
  | neighbourAdvertisementSend
  /-- NEIGHBOUR_ADVERTISEMENT_RECEIVE (R377): An advertisement updates the fabric map and is forwarded once; a duplicate node ID sets NODE_DUP. -/
  | neighbourAdvertisementReceive (port : Nat) (advert : Advert)
  /-- MAP_ENTRY_EXPIRE (R377): An origin's map entries are dropped 100 ms after its last advertisement. -/
  | mapEntryExpire (origin : W64)
  /-- TIME_EXCHANGE_TICK (R386): Every 1 ms a module sends a stamped time request to its time parent. -/
  | timeExchangeTick
  /-- TIME_REQUEST_RECEIVE (R386): The parent stamps a time request and returns a stamped reply. -/
  | timeRequestReceive (port : Nat) (t1 : W64)
  /-- TIME_REPLY_RECEIVE (R386): The reply yields the offset, which is reported and slewed under R79. -/
  | timeReplyReceive (t1 t2 t3 : W64)
  /-- PPS_EDGE (R81): A PPS_IN edge is recorded in TIME.PPS_LAST and updates PPS_LOCK. -/
  | ppsEdge
  /-- LEND_TICK (R388): At each 1 ms tick a pool member sends SLACK to the coordinator. -/
  | lendTick (wait : Nat)
  /-- SLACK (R388): The coordinator collects SLACK and sends TAKE once every SLACK has arrived. -/
  | slack (node tick wait cap : Nat)
  /-- TAKE_TIMEOUT (R388): 200 µs after the tick, the coordinator sends TAKE without waiting for further SLACK. -/
  | takeTimeout
  /-- TAKE (R388): A member lowers its cap by 10 W and replies TAKEN. -/
  | take (tick : Nat)
  /-- TAKEN (R388): The coordinator sends GIVE to the member with the least wait. -/
  | taken (node tick : Nat)
  /-- GIVE (R388): A member's cap rises by the watts received. -/
  | give (tick watts : Nat)
  /-- RENEW (R389): A member records its net watts lent or received and restarts its lapse timers. -/
  | renew (tick : Nat) (net : Int)
  /-- RENEW_TIMEOUT (R388): At 500 µs with no transfer, the coordinator sends RENEW. -/
  | renewTimeout
  /-- LEND_RECEIVED_LAPSE (R389): Received watts lapse 5 ms after the last RENEW. -/
  | lendReceivedLapse
  /-- LEND_RETURN (R389): Lent watts return 10 ms after the last RENEW. -/
  | lendReturn
  /-- CAP_LOOP_STEP (R452): Every 100 µs the cap loop sets the MX duty from compute power and share. -/
  | capLoopStep (compute stack io module : Nat)
  /-- STACK_ROW_STEP (R453): Every 1 ms or 10 ms the PMU raises or lowers the stack row from stack power. -/
  | stackRowStep (avg : Nat) (tenMs stayedLow : Bool)
  /-- CURRENT_LIMIT_STEP (R454): Every 10 µs of overcurrent the duty is halved; after release the limiter raises its duty. -/
  | currentLimitStep (avg sample : Nat) (released : Bool)
  /-- DROOP_TRIP (R455): An island sags 30 mV below setpoint, closing its die's MX gate within 20 ns. -/
  | droopTrip (island mv : Nat)
  /-- DROOP_RELEASE (R455): After 2 µs within 15 mV, the gate reopens at 8/64 per µs. -/
  | droopRelease (die : Nat)
  /-- THERMAL_LIMIT_STEP (R456): Every 100 µs the thermal limiter adjusts a hot die's duty and, after 10 ms, its island voltages. -/
  | thermalLimitStep (readings : List Reading)
  /-- THERMAL_TRIP (R457): A junction reaches its trip point: THERM_N goes low and the module is held at minimum. -/
  | thermalTrip (stackSensor : Bool) (temp : Nat)
  /-- THERMAL_TRIP_RELEASE (R457): Every sensor falls 5 °C below its trip point and the trip releases. -/
  | thermalTripRelease (dieTemp stackTemp : Nat)
  /-- CAP_ALERT_ASSERT (R458): CAP_ALERT_N goes low: duty is preset and the external cap comes into force. -/
  | capAlertAssert
  /-- CAP_ALERT_RELEASE (R458): CAP_ALERT_N goes high and the cap in force returns. -/
  | capAlertRelease
  /-- WAKE (R464): A doorbell write or a POWER.CTRL.WAKE write starts the wake from retention. -/
  | wake (bell : Option Bell)
  /-- WAKE_POWER_DONE (R464): Domains are powered and the stacks begin leaving self-refresh. -/
  | wakePowerDone
  /-- WAKE_MEMORY_DONE (R464): Stacks are out of self-refresh and the links retrain. -/
  | wakeMemoryDone
  /-- WAKE_PORTS_DONE (R464): Links have retrained and the resume phase starts. -/
  | wakePortsDone (lost : List Nat)
  /-- WAKE_RESUME_DONE (R464): Queues resume with the recorded doorbells and WOKE is set. -/
  | wakeResumeDone
  /-- IRQ_HOLDOFF_EXPIRE (R470): A function's hold-off ends and its message is sent if it is still pending. -/
  | irqHoldoffExpire (fn : Nat)
  /-- IRQ_UNMASK (R470): An MSI-X unmask sends a held message if the function is still pending. -/
  | irqUnmask (fn : Nat)
  /-- IRQ_LEAF_CLEAR (R469): A W1C write clears leaf cause bits. -/
  | irqLeafClear (fn group leaf : Nat) (value : W32)
  /-- IRQ_EOI (R470): A write to IRQ.EOI re-arms a fired function. -/
  | irqEoi (fn : Nat)
  /-- KV_POOL_HI_WRITE (R272): A write of SERVE.KV_POOL_HI checks the pool descriptor and accepts or rejects it. -/
  | kvPoolHiWrite (fn part : Nat) (value : W32)
  /-- KV_POOL_RELEASE (R273): Writing SERVE.KV_CTRL.RELEASE releases the partition's KV pool. -/
  | kvPoolRelease (fn part : Nat) (value : W32)
  /-- FAR_PART_WRITE (R232): A write of FAR.PART_BASE or FAR.PART_SIZE is applied, or ignored with FAR_CFG_ERR. -/
  | farPartWrite (fn offset : Nat) (value : W32)
  /-- POWER_CFG_WRITE (R465): A write of POWER.EXT_CAP or POWER.VCORE is range-checked and applied, or ignored with CFG_ERR. -/
  | powerCfgWrite (fn offset : Nat) (value : W32)
  /-- SERVE_COST_WRITE (R322): A planning register write, with a write of 0 to a per-position cost ignored. -/
  | serveCostWrite (fn offset : Nat) (value : W32)
  /-- BAR2_BASE_WRITE (R476): A BAR2 window base write, with an invalid base ignored and ADDR_ERR set. -/
  | bar2BaseWrite (fn offset : Nat) (value : W32)
  /-- REGISTER_WRITE (R8): A write to any register without behaviour of its own. -/
  | registerWrite (fn offset : Nat) (value : W32)
  /-- BAR2_READ (R476): A host read through the BAR2 window, with address errors under R184. -/
  | bar2Read (fn offset length : Nat)
  /-- BAR2_WRITE (R476): A host write through the BAR2 window, with address errors under R184. -/
  | bar2Write (fn offset : Nat) (data : List Byte)
  /-- TIME_NOW_READ (R82): A read of TIME.NOW_LO latches TIME.NOW_HI. -/
  | timeNowRead (fn : Nat)
  /-- PPS_LAST_READ (R82): A read of TIME.PPS_LAST_LO latches TIME.PPS_LAST_HI. -/
  | ppsLastRead (fn : Nat)
  /-- ENERGY_READ (R460): A read of POWER.ENERGY_LO latches POWER.ENERGY_HI. -/
  | energyRead (fn : Nat)
  /-- THROTTLE_READ (R465): A read of POWER.THROTTLE_LO latches the high half. -/
  | throttleRead (fn reason : Nat)
  /-- TILE_BEATS_READ (R478): A read of TILE.BEATS_LO latches TILE.BEATS_HI. -/
  | tileBeatsRead (fn tile : Nat)
  /-- BOOT_LOG_READ (R489): A read of IDENT.BOOT_LOG_LO latches the high half. -/
  | bootLogRead (fn phase : Nat)
  /-- STACK_CORR_COUNT_READ (R229): Reads and clears STACK.CORR_COUNT. -/
  | stackCorrCountRead (fn stack : Nat)
  /-- STACK_UNCORR_COUNT_READ (R229): Reads and clears STACK.UNCORR_COUNT. -/
  | stackUncorrCountRead (fn stack : Nat)
  /-- STACK_RUNS_READ (R269): Reads and clears STACK.RUNS, except during the lockout. -/
  | stackRunsRead (fn stack : Nat)
  /-- STACK_LOCK_WAIT_MAX_READ (R269): Reads and clears STACK.LOCK_WAIT_MAX, except during the lockout. -/
  | stackLockWaitMaxRead (fn stack : Nat)
  /-- FAR_POISON_COUNT_READ (R234): Reads and clears FAR.POISON_COUNT. -/
  | farPoisonCountRead (fn : Nat)
  /-- FYANT_CRC_RETRY_READ (R390): Reads and clears FYANT.CRC_RETRY. -/
  | fyantCrcRetryRead (fn port : Nat)
  /-- FYANT_FEC_CORR_READ (R390): Reads and clears FYANT.FEC_CORR. -/
  | fyantFecCorrRead (fn port : Nat)
  /-- FYANT_RETRAINS_READ (R390): Reads and clears FYANT.RETRAINS. -/
  | fyantRetrainsRead (fn port : Nat)
  /-- FYANT_TAG_FAIL_READ (R390): Reads and clears FYANT.TAG_FAIL. -/
  | fyantTagFailRead (fn port : Nat)
  /-- SERVE_FLAG_FALLS_READ (R338): Reads and clears SERVE.FLAG_FALLS. -/
  | serveFlagFallsRead (fn : Nat)
  /-- SERVE_DEFERRALS_READ (R338): Reads and clears SERVE.DEFERRALS. -/
  | serveDeferralsRead (fn : Nat)
  /-- KV_WALK_SKIPS_READ (R272): Reads and clears SERVE.KV_WALK_SKIPS. -/
  | kvWalkSkipsRead (fn part : Nat)
  /-- KV_COW_READ (R272): Reads and clears SERVE.KV_COW. -/
  | kvCowRead (fn part : Nat)
  /-- FAULT_RETRIES_READ (R422): Reads and clears FAULT.RETRIES. -/
  | faultRetriesRead (fn : Nat)
  /-- FAULT_REPAIRS_READ (R422): Reads and clears FAULT.REPAIRS. -/
  | faultRepairsRead (fn : Nat)
  /-- FAULT_REPAIR_FAILS_READ (R422): Reads and clears FAULT.REPAIR_FAILS. -/
  | faultRepairFailsRead (fn : Nat)
  /-- FAULT_PLAUSIBILITY_READ (R422): Reads and clears FAULT.PLAUSIBILITY. -/
  | faultPlausibilityRead (fn : Nat)
  /-- SLUICE_FAIL_READ (R446): Reads and clears SECURITY.SLUICE_FAIL. -/
  | sluiceFailRead (fn part : Nat)
  /-- GET_VERSION (R429): SPDM GET_VERSION request on a function's DOE mailbox. -/
  | getVersion (fn : Nat)
  /-- GET_CAPABILITIES (R429): SPDM GET_CAPABILITIES request. -/
  | getCapabilities (fn : Nat)
  /-- NEGOTIATE_ALGORITHMS (R429): SPDM NEGOTIATE_ALGORITHMS request. -/
  | negotiateAlgorithms (fn : Nat)
  /-- GET_DIGESTS (R429): SPDM GET_DIGESTS request. -/
  | getDigests (fn : Nat)
  /-- GET_CERTIFICATE (R429): SPDM GET_CERTIFICATE request for slot 0. -/
  | getCertificate (fn slot : Nat)
  /-- CHALLENGE (R429): SPDM CHALLENGE request. -/
  | challenge (fn slot : Nat) (nonce : List Byte)
  /-- GET_MEASUREMENTS (R429): SPDM GET_MEASUREMENTS request. -/
  | getMeasurements (fn index : Nat)
  /-- KEY_EXCHANGE (R430): SPDM KEY_EXCHANGE opens a session, or returns Busy if one exists. -/
  | keyExchange (fn peerKey : Nat)
  /-- FINISH (R429): SPDM FINISH request. -/
  | finish (fn : Nat) (verify : List Byte)
  /-- KEY_UPDATE (R429): SPDM KEY_UPDATE request. -/
  | keyUpdate (fn : Nat)
  /-- HEARTBEAT (R429): SPDM HEARTBEAT request. -/
  | heartbeat (fn : Nat)
  /-- HEARTBEAT_LAPSE (R430): An SPDM session's heartbeat lapses, ending the session and destroying its Sluice keys. -/
  | heartbeatLapse (fn : Nat)
  /-- END_SESSION (R430): SPDM END_SESSION ends the session and destroys its secrets and Sluice keys. -/
  | endSession (fn : Nat)
  /-- SLUICE_BIND (R431): Secured vendor request that derives Sluice keys and binds a bounce region. -/
  | sluiceBind (fn : Nat) (address : W64) (frames : Nat)
  /-- VSB18_APPLY (R481): VSB18 enters tolerance: device time starts at 0 and phase 0 begins. -/
  | vsb18Apply
  /-- BOOT_STANDBY_DONE (R481): ROM is running and phase 1 starts. -/
  | bootStandbyDone
  /-- BOOT_FLASH_DONE (R483): Images are chosen and verified and keys derived, then PWR_EN goes high, or the module halts with an error. -/
  | bootFlashDone
  /-- VIN_PG_RISE (R481): VIN_PG goes high and phase 2 powers the dies. -/
  | vinPgRise
  /-- VIN_PG_TIMEOUT (R482): VIN_PG stays low for 100 ms after PWR_EN, so the module halts with error 3. -/
  | vinPgTimeout
  /-- BOOT_POWER_DONE (R481): Dies are powered and stack training starts. -/
  | bootPowerDone
  /-- BOOT_STACKS_DONE (R485): Stacks are trained or failed, the record is updated and link training starts. -/
  | bootStacksDone (failedPins : List PinAt)
  /-- BOOT_LINKS_DONE (R486): Links are up or 250 ms have passed; device time is set once and the first scrub lap starts. -/
  | bootLinksDone (correction : Option Int) (far0 far1 : FarTrain)
  /-- BOOT_SCRUB_DONE (R487): The first lap completes, BOOT_LAP is written and READY is set. -/
  | bootScrubDone (laps : List Nat)
  /-- MOD_RST_N (R490): Module reset ends everything and restarts at phase 0 when the pin rises. -/
  | modRstN (held : Nat)
  /-- VIN_PG_FALL (R491): VIN_PG falls while PWR_EN is high and is handled as a module reset. -/
  | vinPgFall
  /-- PERST_N (R492): PCIe fundamental reset closes every job and partition and deletes every queue after READY. -/
  | perstN
  /-- FUNCTION_LEVEL_RESET (R493): A VF reset closes its partition's jobs and queues and ends its SPDM session; a PF reset acts as PERST_N. -/
  | functionLevelReset (fn : Nat)
  /-- SMB_STATUS (R495): SMBus read of start-up and status bits. -/
  | smbStatus
  /-- SMB_POWER (R495): SMBus read of module power. -/
  | smbPower
  /-- SMB_CAP (R495): SMBus read of the cap in force. -/
  | smbCap
  /-- SMB_VIN_CURRENT (R495): SMBus read of VIN18 current. -/
  | smbVinCurrent
  /-- SMB_DIE_TEMP (R495): SMBus read of the hottest compute-die junction. -/
  | smbDieTemp
  /-- SMB_STACK_TEMP (R495): SMBus read of the hottest stack base die. -/
  | smbStackTemp
  /-- SMB_ENERGY (R495): SMBus read of the energy counter. -/
  | smbEnergy
  /-- SMB_THROTTLE (R495): SMBus read of the active throttle reasons. -/
  | smbThrottle
  /-- SMB_SERIAL (R495): SMBus read of the fused serial number. -/
  | smbSerial
  /-- SMB_FAULTS (R495): SMBus read of the next fault record number. -/
  | smbFaults
  /-- SMB_FLASH_ADDR (R495): Sets the flash byte address. -/
  | smbFlashAddr (address : W32)
  /-- SMB_FLASH_DATA (R496): Programs flash bytes in a permitted image, or is refused. -/
  | smbFlashData (data : List Byte)
  /-- SMB_FLASH_ERASE (R496): Erases 64 KiB flash sectors in a permitted image, or is refused. -/
  | smbFlashErase (sectors : Nat)
  /-- SMB_FLASH_READ (R496): Reads flash bytes and advances the address. -/
  | smbFlashRead (count : Nat)
  /-- SMB_FLASH_STATUS (R495): Reads flash BUSY and REFUSED, clearing REFUSED. -/
  | smbFlashStatus
  /-- FLASH_OPERATION_DONE (R495): A flash program or erase finishes and BUSY clears. -/
  | flashOperationDone
  /-- MON_CHARACTER_RECEIVE (R497): The monitor receives a UART character, echoing, deleting or ending the line. -/
  | monCharacterReceive (ch : Byte)
  /-- MON_PEEK (R499): Monitor reads 4 or 8 bytes. -/
  | monPeek
  /-- MON_POKE (R499): Monitor writes 4 or 8 bytes and sets WRITE. -/
  | monPoke
  /-- MON_DUMP (R499): Monitor prints up to 65,536 bytes. -/
  | monDump
  /-- MON_TGEN (R499): Monitor runs TRAFFIC-GEN and prints results. -/
  | monTgen
  /-- MON_LAP (R499): Monitor runs SCRUB-LAP and prints summaries. -/
  | monLap
  /-- MON_LINK (R499): Monitor prints LINK-STATE records. -/
  | monLink
  /-- MON_FAULTS (R499): Monitor prints the latest fault records. -/
  | monFaults
  /-- MON_ISLAND (R499): Monitor prints island status. -/
  | monIsland
  /-- MON_BOOT (R499): Monitor prints IDENT.BOOT and the phase-end times. -/
  | monBoot
  /-- MON_QUIT (R500): Ends the monitor session. -/
  | monQuit
  /-- MON_SESSION_TIMEOUT (R500): The monitor session ends after 60 s with no line. -/
  | monSessionTimeout
  /-- VSB18_REMOVE (R420): VSB18 leaves tolerance, losing device time, fault records, the first-layer secret and all management-domain state. -/
  | vsb18Remove
  /-- REFERENCE_CLOCK_EDGE (R77): A rising edge of the 100 MHz reference clock advances device time by 10, or by 9 or 11 while a slew under R79 is in progress. -/
  | referenceClockEdge
  /-- PPS_LOCK_LAPSE (R82): No PPS edge arrives within 1 s ± 1 µs of the last one, so TIME.STATUS.PPS_LOCK clears, which can change the fabric time reference. -/
  | ppsLockLapse
  /-- MOD_RST_N_RELEASE (R490): MOD_RST_N rises after a reset and the module restarts at phase 0. -/
  | modRstNRelease
  /-- PERST_N_RELEASE (R492): PERST_N rises and the module serves the PCIe link again. -/
  | perstNRelease
  /-- DOE_DISCOVERY (R429): A DOE Discovery data object arrives on a function's mailbox and is answered with the supported data object types. -/
  | doeDiscovery (fn index : Nat)
  /-- QUEUE_RING_TIMEOUT (R505): A read of a submission slot, or a write of a reply or shadow, to host memory is not accepted within the queue's timeout, so the queue stops. -/
  | queueRingTimeout (queue : Nat)
deriving DecidableEq, Repr

end Sys2Proof
end

