-- ==== Sys2Proof/WellFormed.lean ====
section
/-!
DEFINITION. Which commands name units that the architecture numbers: functions 0 to 4, queues 0 to 255, partitions 0 to
3, tiles 0 to 511, engines 0 to 3, stacks 0 to 15, the 8,192 banks of a stack (channel times 256 plus bank), ports 0 to
15 (CXL ports 0 and 1). A command that is not well formed names hardware that no module has.
-/

namespace Sys2Proof

/-- A unit whose handshake can hang (R393, R502). -/
def HangUnit.wf : HangUnit → Bool
  | .island n => decide (n < 24)
  | .bridge => true
  | .ssq k => decide (k < 16)

/-- Whether a command names only units of the architecture. -/
def Instr.wf : Instr → Bool
  | .sqTailWrite fn queue _ _ => decide (fn < 5) && decide (queue < 256)
  | .replyHeadWrite fn queue _ => decide (fn < 5) && decide (queue < 256)
  | .packetTake _ => true
  | .commandStart _ => true
  | .commandComplete _ _ => true
  | .duplicateReply queue _ => decide (queue < 256)
  | .commandTimeout _ => true
  | .commandRetry _ _ => true
  | .adminQueueEnable _ => true
  | .adminQueueDisable _ => true
  | .adminQueueDrained => true
  | .queueCreate _ => true
  | .queueDelete _ => true
  | .partitionOpen _ => true
  | .partitionClose _ => true
  | .jobOpen _ => true
  | .jobClose _ => true
  | .jobSlice _ => true
  | .memCopy _ => true
  | .memFill _ => true
  | .copyTensor _ => true
  | .scrubRange _ => true
  | .setKvBoundary _ => true
  | .checkbitWrite _ => true
  | .loadProgram _ => true
  | .launch _ => true
  | .unloadProgram _ => true
  | .setFormatSlot _ => true
  | .customerSet _ => true
  | .requestOpen _ => true
  | .requestClose _ => true
  | .submitChunk _ => true
  | .stepPlan _ => true
  | .stepRun _ => true
  | .stepRunSettle _ => true
  | .forkSequence _ => true
  | .editPages _ => true
  | .evict _ => true
  | .compact _ => true
  | .prefixLookup _ => true
  | .prefixInsert _ => true
  | .loadPrefixSet _ => true
  | .promote _ => true
  | .demote _ => true
  | .shipKv _ => true
  | .shipKvDestComplete _ => true
  | .adoptPages _ => true
  | .registerWeights _ => true
  | .unregisterWeights _ => true
  | .verifyWeights _ => true
  | .weightPageRepair _ _ _ => true
  | .neighbourRead _ => true
  | .setNodeId _ => true
  | .routeWrite _ => true
  | .linkState _ => true
  | .linkRekey _ => true
  | .fabricFence _ => true
  | .setCap _ => true
  | .setProfile _ => true
  | .lendPool _ => true
  | .sleep _ => true
  | .powerRead _ => true
  | .attestReport _ => true
  | .scrubStatus _ => true
  | .identRead _ => true
  | .faultLog _ => true
  | .faultResponseLoad _ => true
  | .guardBandLoad _ => true
  | .trafficGen _ => true
  | .scrubLap _ => true
  | .bundleIssue tile => decide (tile < 512)
  | .ccResultLand tile => decide (tile < 512)
  | .readCacheFill tile => decide (tile < 512)
  | .aset tile engine => decide (tile < 512) && decide (engine < 4)
  | .awrap tile engine => decide (tile < 512) && decide (engine < 4)
  | .seed tile engine => decide (tile < 512) && decide (engine < 4)
  | .dgset tile => decide (tile < 512)
  | .mwload tile => decide (tile < 512)
  | .mma tile => decide (tile < 512)
  | .mdrain tile => decide (tile < 512)
  | .vadd tile => decide (tile < 512)
  | .vsub tile => decide (tile < 512)
  | .vmul tile => decide (tile < 512)
  | .vfma tile => decide (tile < 512)
  | .vmax tile => decide (tile < 512)
  | .vmin tile => decide (tile < 512)
  | .vscale tile => decide (tile < 512)
  | .vcvt tile => decide (tile < 512)
  | .vmulb tile => decide (tile < 512)
  | .vsubb tile => decide (tile < 512)
  | .vredsum tile => decide (tile < 512)
  | .vredmax tile => decide (tile < 512)
  | .sexp tile => decide (tile < 512)
  | .slog tile => decide (tile < 512)
  | .srsqrt tile => decide (tile < 512)
  | .srcp tile => decide (tile < 512)
  | .sidx tile => decide (tile < 512)
  | .dcopy tile => decide (tile < 512)
  | .dlayout tile => decide (tile < 512)
  | .dflagset tile => decide (tile < 512)
  | .dflagwait tile => decide (tile < 512)
  | .dflagwaitSatisfied tile => decide (tile < 512)
  | .dfence tile => decide (tile < 512)
  | .ddesc tile => decide (tile < 512)
  | .twinMatchTimeout tile => decide (tile < 512)
  | .engineInstructionComplete tile engine => decide (tile < 512) && decide (engine < 4)
  | .tileFinish tile => decide (tile < 512)
  | .jobFault => true
  | .restartStopDone => true
  | .restartRetainDone => true
  | .restartResetDone => true
  | .restartReport => true
  | .sliceEnd part => decide (part < 4)
  | .jobSwitch part => decide (part < 4)
  | .runStart stack bank => decide (stack < 16) && decide (bank < 8192)
  | .attnScore stack bank => decide (stack < 16) && decide (bank < 8192)
  | .attnFull stack bank => decide (stack < 16) && decide (bank < 8192)
  | .scoreDecay stack bank => decide (stack < 16) && decide (bank < 8192)
  | .gemv stack bank => decide (stack < 16) && decide (bank < 8192)
  | .axpy stack bank => decide (stack < 16) && decide (bank < 8192)
  | .reduce stack bank => decide (stack < 16) && decide (bank < 8192)
  | .pageCopy stack bank => decide (stack < 16) && decide (bank < 8192)
  | .rowZero stack bank => decide (stack < 16) && decide (bank < 8192)
  | .pageDigest stack bank => decide (stack < 16) && decide (bank < 8192)
  | .lock stack bank => decide (stack < 16) && decide (bank < 8192)
  | .mergeGroupResult stack => decide (stack < 16)
  | .refreshDue stack bank => decide (stack < 16) && decide (bank < 8192)
  | .mergeBufferFlush stack channel => decide (stack < 16) && decide (channel < 32)
  | .stackRowChange stack _ => decide (stack < 16)
  | .refreshRateChange stack _ => decide (stack < 16)
  | .idleScrubLapEnd _ => true
  | .unitHang unit _ => unit.wf
  | .faultRecordExport => true
  | .faultRecordReceive _ => true
  | .tenantSwitchClearDone part => decide (part < 4)
  | .tenantSwitchMemoryDone part => decide (part < 4)
  | .farLinkDown port => decide (port < 2)
  | .farLinkRetrainDone port _ _ => decide (port < 2)
  | .portTrained port _ => decide (port < 16)
  | .hailReceive port _ => decide (port < 16)
  | .flitTransmit port => decide (port < 16)
  | .flitReceive port _ _ => decide (port < 16)
  | .portRetrainDone port _ => decide (port < 16)
  | .portSilenceTimeout port => decide (port < 16)
  | .rekeyMessageReceive port _ => decide (port < 16)
  | .write port => decide (port < 16)
  | .read port => decide (port < 16)
  | .readData port => decide (port < 16)
  | .writeAcknowledgement port => decide (port < 16)
  | .refusal port => decide (port < 16)
  | .admissionQuery port => decide (port < 16)
  | .admissionAnswer port => decide (port < 16)
  | .barge port => decide (port < 16)
  | .unroutable port => decide (port < 16)
  | .messageForward port channel => decide (port < 16) && decide (channel < 4)
  | .neighbourAdvertisementSend => true
  | .neighbourAdvertisementReceive port _ => decide (port < 16)
  | .mapEntryExpire _ => true
  | .timeExchangeTick => true
  | .timeRequestReceive port _ => decide (port < 16)
  | .timeReplyReceive _ _ _ => true
  | .ppsEdge => true
  | .lendTick _ => true
  | .slack node _ _ _ => decide (node < 65536)
  | .takeTimeout => true
  | .take _ => true
  | .taken node _ => decide (node < 65536)
  | .give _ _ => true
  | .renew _ _ => true
  | .renewTimeout => true
  | .lendReceivedLapse => true
  | .lendReturn => true
  | .capLoopStep _ _ _ _ => true
  | .stackRowStep _ _ _ => true
  | .currentLimitStep _ _ _ => true
  | .droopTrip island _ => decide (island < 24)
  | .droopRelease die => decide (die < 2)
  | .thermalLimitStep _ => true
  | .thermalTrip _ _ => true
  | .thermalTripRelease _ _ => true
  | .capAlertAssert => true
  | .capAlertRelease => true
  | .wake _ => true
  | .wakePowerDone => true
  | .wakeMemoryDone => true
  | .wakePortsDone _ => true
  | .wakeResumeDone => true
  | .irqHoldoffExpire fn => decide (fn < 5)
  | .irqUnmask fn => decide (fn < 5)
  | .irqLeafClear fn group leaf _ => decide (fn < 5) && decide (group < 8) && decide (leaf < 9)
  | .irqEoi fn => decide (fn < 5)
  | .kvPoolHiWrite fn part _ => decide (fn < 5) && decide (part < 4)
  | .kvPoolRelease fn part _ => decide (fn < 5) && decide (part < 4)
  | .farPartWrite fn offset _ => decide (fn < 5) && decide (offset < 2 ^ 24)
  | .powerCfgWrite fn offset _ => decide (fn < 5) && decide (offset < 2 ^ 24)
  | .serveCostWrite fn offset _ => decide (fn < 5) && decide (offset < 2 ^ 24)
  | .bar2BaseWrite fn offset _ => decide (fn < 5) && decide (offset < 2 ^ 24)
  | .registerWrite fn offset _ => decide (fn < 5) && decide (offset < 2 ^ 24)
  | .bar2Read fn offset _ => decide (fn < 5) && decide (offset < 2 ^ 39)
  | .bar2Write fn offset _ => decide (fn < 5) && decide (offset < 2 ^ 39)
  | .timeNowRead fn => decide (fn < 5)
  | .ppsLastRead fn => decide (fn < 5)
  | .energyRead fn => decide (fn < 5)
  | .throttleRead fn reason => decide (fn < 5) && decide (reason < 6)
  | .tileBeatsRead fn tile => decide (fn < 5) && decide (tile < 512)
  | .bootLogRead fn phase => decide (fn < 5) && decide (phase < 7)
  | .stackCorrCountRead fn stack => decide (fn < 5) && decide (stack < 16)
  | .stackUncorrCountRead fn stack => decide (fn < 5) && decide (stack < 16)
  | .stackRunsRead fn stack => decide (fn < 5) && decide (stack < 16)
  | .stackLockWaitMaxRead fn stack => decide (fn < 5) && decide (stack < 16)
  | .farPoisonCountRead fn => decide (fn < 5)
  | .fyantCrcRetryRead fn port => decide (fn < 5) && decide (port < 16)
  | .fyantFecCorrRead fn port => decide (fn < 5) && decide (port < 16)
  | .fyantRetrainsRead fn port => decide (fn < 5) && decide (port < 16)
  | .fyantTagFailRead fn port => decide (fn < 5) && decide (port < 16)
  | .serveFlagFallsRead fn => decide (fn < 5)
  | .serveDeferralsRead fn => decide (fn < 5)
  | .kvWalkSkipsRead fn part => decide (fn < 5) && decide (part < 4)
  | .kvCowRead fn part => decide (fn < 5) && decide (part < 4)
  | .faultRetriesRead fn => decide (fn < 5)
  | .faultRepairsRead fn => decide (fn < 5)
  | .faultRepairFailsRead fn => decide (fn < 5)
  | .faultPlausibilityRead fn => decide (fn < 5)
  | .sluiceFailRead fn part => decide (fn < 5) && decide (part < 4)
  | .getVersion fn => decide (fn < 5)
  | .getCapabilities fn => decide (fn < 5)
  | .negotiateAlgorithms fn => decide (fn < 5)
  | .getDigests fn => decide (fn < 5)
  | .getCertificate fn _ => decide (fn < 5)
  | .challenge fn _ _ => decide (fn < 5)
  | .getMeasurements fn _ => decide (fn < 5)
  | .keyExchange fn _ => decide (fn < 5)
  | .finish fn _ => decide (fn < 5)
  | .keyUpdate fn => decide (fn < 5)
  | .heartbeat fn => decide (fn < 5)
  | .heartbeatLapse fn => decide (fn < 5)
  | .endSession fn => decide (fn < 5)
  | .sluiceBind fn _ _ => decide (fn < 5)
  | .vsb18Apply => true
  | .bootStandbyDone => true
  | .bootFlashDone => true
  | .vinPgRise => true
  | .vinPgTimeout => true
  | .bootPowerDone => true
  | .bootStacksDone _ => true
  | .bootLinksDone _ _ _ => true
  | .bootScrubDone _ => true
  | .modRstN _ => true
  | .vinPgFall => true
  | .perstN => true
  | .functionLevelReset fn => decide (fn < 5)
  | .smbStatus => true
  | .smbPower => true
  | .smbCap => true
  | .smbVinCurrent => true
  | .smbDieTemp => true
  | .smbStackTemp => true
  | .smbEnergy => true
  | .smbThrottle => true
  | .smbSerial => true
  | .smbFaults => true
  | .smbFlashAddr _ => true
  | .smbFlashData _ => true
  | .smbFlashErase _ => true
  | .smbFlashRead _ => true
  | .smbFlashStatus => true
  | .flashOperationDone => true
  | .monCharacterReceive _ => true
  | .monPeek => true
  | .monPoke => true
  | .monDump => true
  | .monTgen => true
  | .monLap => true
  | .monLink => true
  | .monFaults => true
  | .monIsland => true
  | .monBoot => true
  | .monQuit => true
  | .monSessionTimeout => true
  | .vsb18Remove => true
  | .referenceClockEdge => true
  | .ppsLockLapse => true
  | .modRstNRelease => true
  | .perstNRelease => true
  | .doeDiscovery fn _ => decide (fn < 5)
  | .queueRingTimeout queue => decide (queue < 256)

end Sys2Proof
end

