-- ==== Sys2Proof/Config.lean ====
section
/-!
DEFINITION. What the spec leaves open or names without giving: the free values, each an opaque constant about which
nothing can be proved, and the cryptographic functions of the standards the spec cites. No value here is chosen.
-/

namespace Sys2Proof.Config

/-- UNVERIFIED (log 1). The data bits of a poisoned word, which R211 leaves undefined: by device time, home key, and
stored byte. -/
opaque poisonByte : Nat → Nat → Byte → Byte

/-- UNVERIFIED (log 1). A far-tier byte that no write of the partition's present opening has reached (R233): by key
pair number and module far address. -/
opaque farByte : Nat → Nat → Byte

/-- UNVERIFIED (log 1). A named destination byte after a TIMEOUT (R57): by the free counter. -/
opaque timeoutByte : Nat → Byte

/-- UNVERIFIED (log 1). Whether the host answers the read of an extended block in its memory before the queue's timeout
(R44, R505), by the free counter. -/
opaque hostAnswers : Nat → Bool
/-- UNVERIFIED (log 1). Which lanes of a port are trained when a retrain has failed (R365, R390), by the free counter. -/
opaque lanesTrained : Nat → BitVec 4
/-- UNVERIFIED (log 1). How much a command that ends with TIMEOUT had completed (R57, R414): by the free counter. -/
opaque timeoutDone : Nat → Nat

/-- UNVERIFIED (log 1). Whether a run takes a cached query block whose key matches, or fetches it anew (R247). -/
opaque useCachedQuery : Nat → Bool

/-- UNVERIFIED (log 1). Whether a MOD_RST_N pulse of 1 to 10 microseconds resets the module (R490). -/
opaque shortPulseResets : Nat → Bool

/-- UNVERIFIED (log 1). Which of the binary32 values inside its error bound an SX result is (R110): a number that
picks among the permitted neighbours of the exact value, by operand. -/
opaque expPick : W32 → Nat
opaque logPick : W32 → Nat
opaque rsqrtPick : W32 → Nat
opaque recipPick : W32 → Nat

/-- UNVERIFIED (log 1). SHA-384 of a byte string (named by R142, R408, R419, R427, R483; not given by the spec). -/
opaque sha384 : List Byte → BitVec 384

/-- UNVERIFIED (log 1). HMAC-SHA-384 of a key over a byte string (R427). -/
opaque hmac384 : List Byte → List Byte → BitVec 384

/-- UNVERIFIED (log 1). The ECC P-384 private key that the root of trust derives from a secret (R427). -/
opaque eccKey : BitVec 384 → BitVec 384

/-- UNVERIFIED (log 1). Whether a training record passes its CRC-64 check, and the record of a training that found these
pins failed (R215, R485): the spec gives the record no layout. -/
opaque recordGood : List Byte → Bool
opaque trainRecord : List (Nat × Nat × Nat) → List Byte

/-- The SHA-384 of the mask ROM (R427, R439), which the spec does not give. -/
opaque romDigest : BitVec 384

/-- UNVERIFIED (log 1). The mask ROM's words, which the spec does not give (R484). -/
opaque maskRom : Nat → BitVec 32

/-- UNVERIFIED (log 1). Whether an image's signature verifies under the Haldyen firmware key (R483): bytes signed,
signature. -/
opaque imageSigned : List Byte → List Byte → Bool

/-- UNVERIFIED (log 1). Whether a peer's certificate chain and signed ephemeral key verify (R367): chain, key,
signature. -/
opaque peerVerified : List Byte → Nat → List Byte → Bool

/-- UNVERIFIED (log 1). This module's ephemeral ECDH key for a link session or rekey, by port and session time (R367). -/
opaque ephemeral : Nat → Nat → Nat

/-- UNVERIFIED (log 1). The key and salt of one direction of a link (R368): own ephemeral, peer ephemeral, sender's
serial, receiver's serial. -/
opaque linkKey : Nat → Nat → W64 → W64 → Nat
opaque linkSalt : Nat → Nat → W64 → W64 → W32

/-- UNVERIFIED (log 1). The signature that a device identity key makes (R367, R427). -/
opaque identitySign : BitVec 384 → List Byte → List Byte

/-- UNVERIFIED (log 1). The flits that a port's receive buffer holds on a virtual channel, which it gives its peer as
credit at link-up (R371). -/
opaque bufferFlits : Nat → Nat

/-- UNVERIFIED (log 1). Byte i of the AES-256-GCM key stream of a key and nonce (R368, R432). -/
opaque gcmStream : Nat → Nat → Nat → Byte

/-- UNVERIFIED (log 1). The 16-byte AES-256-GCM tag of a key, nonce, additional data and ciphertext. -/
opaque gcmTag : Nat → Nat → List Byte → List Byte → BitVec 128

/-- UNVERIFIED (log 1). An SPDM session's secret from the peer's exchange data and the session number (R430). -/
opaque sessionSecret : Nat → Nat → Nat

/-- UNVERIFIED (log 1). HKDF-Expand with SHA-384 (R431): a secret, the label, the bytes wanted. -/
opaque hkdfExpand : Nat → List Byte → Nat → List Byte

/-- UNVERIFIED (log 1). The body of an SPDM response (SPDM 1.3, not given): function, request code, arguments, time. -/
opaque spdmBody : Nat → Nat → List Byte → Nat → List Byte

/-- UNVERIFIED (log 1). Whether a FINISH message verifies (SPDM 1.3): session secret, verify data. -/
opaque finishVerified : Nat → List Byte → Bool

/-- UNVERIFIED (log 1). How long after the last heartbeat an SPDM session lapses, in ns (R430). -/
opaque heartbeatNs : Nat

/-- UNVERIFIED (log 1). The Haldyen root certificate that the mask ROM holds (R428). -/
opaque rootCert : List Byte

/-- UNVERIFIED (log 1). The ES384 signature of a payload under an alias key (R439). -/
opaque aliasSign : BitVec 384 → List Byte → List Byte

/-- UNVERIFIED (log 1). What the alias certificate says (R427, R428): the alias key, and the digests of the patch table and of
the firmware in its TcbInfo extension; and the certificate of such a text and its signature. -/
opaque aliasText : BitVec 384 → BitVec 384 → BitVec 384 → List Byte
opaque certificate : List Byte → List Byte → List Byte

/-- UNVERIFIED (log 1). Word of the traffic generator's pseudo-random pattern (R227): pattern code, burst, beat. -/
opaque trafficWord : Nat → Nat → Nat → BitVec 80

/-- UNVERIFIED (log 1). Burst place of a burst number under the pseudo-random address mode (R227): channel, burst. -/
opaque trafficPlace : Nat → Nat → Nat

/-- UNVERIFIED (log 1). Which error a pin makes on a raw readback (R227): by stack, channel, burst, beat. -/
opaque rawError : Nat → Nat → Nat → Nat → BitVec 80

/-- UNVERIFIED (log 1). What a flight leaves in a register and an accumulator of its bank unit (R236): the spec gives a
flight's effect and not its sequence (R243). By the free counter and the register. -/
opaque unitReg : Nat → Nat → BitVec 256
opaque unitAcc : Nat → Nat → W32

/-- UNVERIFIED (log 1). The name and the microcode place and length of a flight table entry, and the SSQ microcode, as the
firmware image carries them (R242, R243): image bytes, entry number. -/
opaque flightName : List Byte → Nat → W32
opaque flightCode : List Byte → Nat → W32 × W32
opaque microcode : List Byte → List Byte

/-- UNVERIFIED (log 1). Where a byte-parity error of an internal path is found (R396, R502), by the free counter. -/
opaque parityAt : Nat → Nat × Nat × Nat

/-- UNVERIFIED (log 1). How many words beside the first the transfer of a parity error carried (R396), likewise. -/
opaque parityWords : Nat → Nat

/-- UNVERIFIED (log 1). Which words those are (R396), likewise. -/
opaque parityPlace : Nat → Nat

/-- UNVERIFIED (log 1). Which unit's state held the word of an MCP_STATE fault (R393, R502), likewise. -/
opaque helperUnit : Nat → Nat
/-- UNVERIFIED (log 1). The walk routine's bytes, which firmware places from instruction-memory byte 0xF000 on and the
spec does not give (R287). -/
opaque walkByte : Nat → Byte

/-- UNVERIFIED (log 1). Beats the walk routine takes (R287), by entries read. -/
opaque walkBeats : Nat → Nat

/-- UNVERIFIED (log 1). What the walk routine leaves in a register or byte that it clobbers (R287): by the free
counter and the register or byte number. -/
opaque walkLeaves : Nat → Nat → W64

/-- UNVERIFIED (log 1). Which line of a full read cache a fill replaces (R111, R121), by the free counter. -/
opaque cacheVictim : Nat → Nat

/-- UNVERIFIED (log 1). The local address at its destination that a SHIP-KV barge carries (R336): by the free counter. -/
opaque shipAddress : Nat → W64

/-- UNVERIFIED (log 1). The correction of device time that a PPS-disciplined module starts at an edge (R81), by how far
the edge came from 1 s after the one before. -/
opaque ppsSlew : Int → Int

/-- UNVERIFIED (log 1). The IOD core supply in mV and the hottest IOD sensor in degrees C (R502), by device time. -/
opaque iodSupply : Nat → Nat
opaque iodTemp : Nat → Nat

end Sys2Proof.Config
end

