-- ==== Sys2Proof/Machine/State.lean ====
section
/-!
DEFINITION. The state of the block as plain data: every register, table, queue, memory and mode the spec gives it, each
with its reset value, and the reasons a step may stop.
-/

namespace Sys2Proof.Machine

/-- A table by number, canonical: keys strictly rising, no entry equal to the value an unlisted key has. -/
abbrev Tab (α : Type) := List (Nat × α)

/-- Bytes by address in the same canonical form (R178, R204). -/
abbrev Memory := List Host.Cell

/-! ## Identity, start-up, pins, device time -/

/-- The grade of R2. -/
inductive Grade where
  | a
  | b
deriving DecidableEq, Repr

/-- Fused values (R477, R419, R427, R446, R483). -/
structure Fuse where
  grade : Grade := .a
  revision : BitVec 8 := 0
  fuseWord : W32 := 0
  serial : W64 := 0
  fusedOff : List Nat := []
  cxlPorts : BitVec 2 := 3
  debugFused : Bool := false
  minSecurity : Nat := 0
  secret : BitVec 256 := 0
deriving DecidableEq, Repr

/-- Start-up state (R481-R493). -/
structure Boot where
  vsb : Bool := true
  phase : Nat := 0
  error : Nat := 0
  slotB : Bool := false
  patchB : Bool := false
  fullTrain : Bool := false
  timeSet : Bool := false
  ready : Bool := false
  bootTime : W32 := 0
  bootLap : W32 := 0
  log : Tab W64 := []
  logHi : Tab W32 := []
  halted : Bool := false
  pwrEnAt : Nat := 0
  vinPgAt : Nat := 0
  inReset : Bool := false
  pciDown : Bool := false
  draining : Bool := false
  firstSecret : Option (BitVec 384) := none
  cdi : Option (BitVec 384) := none
  identityKey : Option (BitVec 384) := none
  aliasKey : Option (BitVec 384) := none
  firmwareDigest : BitVec 384 := 0
  patchDigest : BitVec 384 := 0
deriving DecidableEq, Repr

/-- The levels of the sideband pins (R479). -/
structure Pins where
  irqN : Bool := true
  pwrEn : Bool := false
  vinPg : Bool := false
  thermN : Bool := true
  capAlertN : Bool := true
  modRstN : Bool := true
  perstN : Bool := true
deriving DecidableEq, Repr

/-- The TIME block and the slew of R79; `asked` says that the latest request to the time parent has had no reply. -/
structure Time where
  now : W64 := 0
  nowHi : W32 := 0
  synced : Bool := false
  ppsLock : Bool := false
  offset : BitVec 16 := 0
  ppsLast : W64 := 0
  ppsLastHi : W32 := 0
  ppsSeen : Bool := false
  slewLeft : Int := 0
  sinceSlew : Nat := 1000
  asked : Bool := false
deriving DecidableEq, Repr

/-! ## Interrupt tree -/

/-- One function's delivery state (R470). -/
structure IrqFn where
  enable : BitVec 8 := 0
  holdoff : BitVec 16 := 0
  fired : Bool := false
  due : Option Nat := none
  masked : Bool := true
  held : Bool := false
  sent : Nat := 0
deriving DecidableEq, Repr

/-- One leaf register and its enable (R467). -/
structure Leaf where
  cause : W32 := 0
  enable : W32 := 0
deriving DecidableEq, Repr

/-- The interrupt tree (R466, R467): the nine QUEUE leaves, then one leaf for each other group. -/
structure Irq where
  queue : Vector Leaf 9 :=
    #v[⟨0, 0xFFFFFFFF⟩, ⟨0, 0xFFFFFFFF⟩, ⟨0, 0xFFFFFFFF⟩, ⟨0, 0xFFFFFFFF⟩, ⟨0, 0xFFFFFFFF⟩, ⟨0, 0xFFFFFFFF⟩,
       ⟨0, 0xFFFFFFFF⟩, ⟨0, 0xFFFFFFFF⟩, ⟨0, 7⟩]
  fault : Leaf := ⟨0, 7⟩
  serve : Leaf := ⟨0, 1⟩
  power : Leaf := ⟨0, 15⟩
  fabric : Leaf := ⟨0, 7⟩
  memory : Leaf := ⟨0, 15⟩
  security : Leaf := ⟨0, 7⟩
  monitor : Leaf := ⟨0, 3⟩
  fns : Vector IrqFn 5 := #v[{}, {}, {}, {}, {}]
deriving DecidableEq, Repr

/-! ## Queues and commands -/

/-- A reply (R54). -/
structure Reply where
  seq : W32 := 0
  opcode : BitVec 16 := 0
  status : BitVec 8 := 0
  detail : BitVec 8 := 0
  start : W64 := 0
  stop : W64 := 0
  result : W64 := 0
deriving DecidableEq, Repr

/-- A duplicate bound to a running original (R51): the original, the packet's place in ring order, and the original's
reply once it has been written. -/
structure Dup where
  orig : Nat
  pos : Nat
  interrupt : Bool := false
  reply : Option Reply := none
deriving DecidableEq, Repr

/-- A packet taken and not yet retired, in ring order (the shadow's retired sequence, R27). -/
structure Taken where
  pos : Nat
  seq : W32
  done : Bool
deriving DecidableEq, Repr

/-- A submission queue with its reply ring and replay window (R25-R53). -/
structure Queue where
  part : Nat := 0xFF
  sizeLog2 : Nat := 0
  timeout : Nat := 100000000
  sqBase : W64 := 0
  replyBase : W64 := 0
  shadow : W64 := 0
  sqHead : Nat := 0
  sqTail : Nat := 0
  replyHead : Nat := 0
  replyTail : Nat := 0
  retired : W32 := 0
  active : Bool := false
  stopped : Bool := false
  deleting : Bool := false
  newest : Option W32 := none
  window : List (W32 × Option Reply) := []
  order : List Taken := []
  dups : List Dup := []
deriving DecidableEq, Repr

/-- The life of a command in flight (R36-R39). -/
inductive CmdPhase where
  | taken
  | started
  | ended
deriving DecidableEq, Repr

/-- One status that applies to a command that ran (R56). -/
structure Mark where
  status : Nat
  detail : Nat
  result : Nat
deriving DecidableEq, Repr

/-- A loaded custom format slot (R97). -/
structure Slot where
  width : Nat
  exponent : Nat
  bias : Int
  block : Nat
  scale : Nat
deriving DecidableEq, Repr

/-- A guard-band entry (R404). -/
structure Guard where
  start : Nat
  length : Nat
  checks : BitVec 8
  bound : W32
  norm : W32
  tag : W64
deriving DecidableEq, Repr

/-- A command in flight: its packet (R40), what it read at its start (R43), its clocks and its outcome so far; `kept` says
that the replay window records it, `due` the fault class whose re-execution is due, `tainted` the poisoned bytes among
those fetched from another node, `blocks` the control data that came from another node or from registers, `asking` the
control data that another node is asked for and `ctl` how far that has come, `slots` and `guards` the custom format slots
and guard bands that a LAUNCH or STEP-RUN took at its start (R99, R405), `spoil` says that its named destinations are
undefined at its end (R57, R235), `parity` the first and the number of the words that its next transfer carries in error
(R396). -/
structure Cmd where
  id : Nat := 0
  queue : Nat := 0
  seq : W32 := 0
  opcode : Nat := 0
  flags : BitVec 8 := 0
  part : Nat := 0xFF
  units8 : Nat := 0
  job : Nat := 0
  params : List Byte := []
  ext : Bool := false
  phase : CmdPhase := .taken
  start : Nat := 0
  stop : Nat := 0
  order : Nat := 0
  waited : Nat := 0
  waitSince : Option Nat := none
  rejected : Bool := false
  marks : List Mark := []
  corrected : Nat := 0
  poisoned : Nat := 0
  poisonClass : Nat := 0
  clipped : Nat := 0
  empty : Nat := 0
  progress : Nat := 0
  retried : Option Nat := none
  tiles : List Nat := []
  admitted : Option Bool := none
  awaiting : List Nat := []
  fetched : Memory := []
  tainted : List Nat := []
  blocks : List (W64 × List (Byte × Bool)) := []
  asking : Option (W64 × Nat) := none
  ctl : Nat := 0
  slots : Option (Tab Slot) := none
  guards : Option (List Guard) := none
  touched : Bool := false
  kept : Bool := true
  blockRead : Bool := false
  spoil : Bool := false
  parity : Option (Nat × Nat) := none
  due : Option Nat := none
deriving DecidableEq, Repr

/-- The admin queue registers of R33, whether ENABLE was cleared since ACTIVE last went to 1, and whether a setting of ENABLE
waits for ACTIVE to go to 0 (R34). -/
structure Admin where
  sqLo : W32 := 0
  sqHi : W32 := 0
  replyLo : W32 := 0
  replyHi : W32 := 0
  shadowLo : W32 := 0
  shadowHi : W32 := 0
  cfg : W32 := 0
  halting : Bool := false
  enablePending : Bool := false
deriving DecidableEq, Repr

/-- What a function has issued behind an access of its own that waits at a bank (R188, R190, R196): a BAR2 write or read of
a fabric address, or a doorbell write. -/
inductive Post where
  | write (address : W64) (data : List Byte)
  | read (address : W64) (length : Nat)
  | bell (bell : Bell)
deriving DecidableEq, Repr

/-- The Lockkeeper's front end: admin registers, queues, commands in flight, the BAR2 windows (R476), what each function
has issued behind a waiting access and how many pieces of that access still wait, and what the last host read returned. -/
structure Front where
  admin : Admin := {}
  queues : Tab Queue := []
  cmds : List Cmd := []
  last : Nat := 0
  nextCmd : Nat := 0
  started : Nat := 0
  bar2Base : Vector W64 5 := #v[0xFFFF000000000000, 0xFFFF000000000000, 0xFFFF000000000000, 0xFFFF000000000000,
    0xFFFF000000000000]
  bar2Part : Nat := 0
  bar2Size : Nat := 34
  bells : List Bell := []
  posts : Vector (List Post) 5 := #v[[], [], [], [], []]
  hostWaits : Vector Nat 5 := #v[0, 0, 0, 0, 0]
  readData : W32 := 0
  readBytes : List Byte := []
deriving DecidableEq, Repr

/-! ## Partitions, jobs, programs -/

/-- The phase of a partition's tenant switch (R441). -/
inductive Switch where
  | none
  | clear
  | memory
deriving DecidableEq, Repr

/-- A partition (R339-R348) with its custom slots, guard bands and tenant switch. -/
structure Part where
  isOpen : Bool := false
  shape : Nat := 0
  index : Nat := 0
  vf : Nat := 0
  confidential : Bool := false
  opening : Nat := 0
  slots : Tab Slot := []
  guards : List Guard := []
  switch : Switch := .none
  switchCmd : Option Nat := none
  switchFrom : Nat := 0
  memoryFrom : Nat := 0
  closing : Bool := false
  resetting : Bool := false
  active : Option Nat := none
  activatedAt : Nat := 0
  sliceOver : Bool := false
deriving DecidableEq, Repr

/-- A resident job (R343). -/
structure Job where
  handle : Nat
  part : Nat
  save : W64
  slice : Nat
  nextSlice : Nat
  liveRange : Bool
  held : Tab (BitVec 224) := []
  saved : Bool := false
deriving DecidableEq, Repr

/-- A loaded program (R142, R143). -/
structure Program where
  handle : Nat
  job : Nat
  part : Nat
  tiles : List Nat
  code : List Byte
  data : List Byte
  entry : Nat
  slotMask : W32
  digest : BitVec 384
deriving DecidableEq, Repr

/-- Jobs and programs, and the next handles. -/
structure Jobs where
  jobs : List Job := []
  nextJob : Nat := 1
  programs : List Program := []
  nextProgram : Nat := 1
deriving DecidableEq, Repr

/-! ## Tiles -/

/-- An address register (R126). -/
structure AReg where
  base : Int := 0
  s0 : Int := 0
  s1 : Int := 0
  s2 : Int := 0
  w0 : Nat := 1
  w1 : Nat := 1
  w2 : Nat := 1
  i0 : Nat := 0
  i1 : Nat := 0
  i2 : Nat := 0
deriving DecidableEq, Repr

/-- A scoreboard region (R137): bytes lo to hi, exclusive, before it is rounded outward to 64. -/
structure Region where
  lo : Nat
  hi : Nat
  write : Bool
deriving DecidableEq, Repr

/-- A queued engine instruction (R123-R125): its number in issue order, its 128 bits, repeats done, its regions, the
answers it waits for, what remote reads brought and which of it is poisoned, the control data that came from other nodes
and what is being asked for, whether its present repeat has been sent and how far a layout copy's reads have come, whether
all is done, and for a walk's DDESC (R288) its descriptors with their output addresses. -/
structure Entry where
  id : Nat
  word : BitVec 128
  beat : Nat := 0
  done : Nat := 0
  regions : List Region := []
  awaiting : List Nat := []
  fetched : Memory := []
  tainted : List Nat := []
  blocks : List (W64 × List (Byte × Bool)) := []
  asking : Option (W64 × Nat) := none
  sent : Bool := false
  stage : Nat := 0
  finished : Bool := false
  walk : List (List Byte × Nat) := []
deriving DecidableEq, Repr

/-- One engine of a tile (R111); for MX also the beats left of the latest MWLOAD and its buffer (R131). -/
structure Engine where
  queue : List Entry := []
  aregs : Tab AReg := []
  lfsr : W32 := 1
  beats : Nat := 0
  load : Nat := 0
  loading : Nat := 0
deriving DecidableEq, Repr

/-- A pending CC result (R70): the beat it lands, its slot number, its register and value. -/
structure Landing where
  beat : Nat
  slot : Nat
  reg : Nat
  value : W64
deriving DecidableEq, Repr

/-- An MX weight buffer (R131): loaded or not, its format and K, and the bytes of its tile. -/
structure Weights where
  loaded : Bool := false
  format : Nat := 0
  k : Nat := 0
  bytes : List (Byte × Bool) := []
deriving DecidableEq, Repr

/-- A global load that waits for its line (R71): its operation, register, address and the beat its bundle issued in. -/
structure Pending where
  op : Nat
  beat : Nat
  reg : Nat
  address : W64
deriving DecidableEq, Repr

/-- A walk in progress (R287-R289): its call registers c4 to c13, its place, the groups it emitted, the entries it
skipped, where the next group's partials go, the descriptors and stack of the group it is building, and the entry it has
read and not yet put into a group. -/
structure Walk where
  call : List W64
  place : Nat := 0
  groups : Nat := 0
  skipped : Nat := 0
  out : Nat := 0
  stack : Nat := 0
  group : List (List Byte) := []
  entry : Option Nat := none
deriving DecidableEq, Repr

/-- A leaving write of a twin pair that waits for its match (R406): the engine entry and repeat it belongs to, whether
it is a release, for a descriptor its SSQ's stack, its address (a descriptor's output address stands apart, and is not
compared), its bytes, and when it was issued. -/
structure Leaving where
  entry : Nat
  rep : Nat
  release : Bool
  desc : Option Nat
  address : W64
  out : Nat
  data : List (Byte × Bool)
  since : Nat
deriving DecidableEq, Repr

/-- One tile (R111). Scratchpad and accumulators stand in the module's memories. -/
structure Tile where
  program : Option Nat := none
  imem : Memory := []
  codeWords : Nat := 0
  priv : Memory := []
  cache : List (Nat × List (Byte × Bool)) := []
  miss : Option Pending := none
  walk : Option Walk := none
  regs : Tab W64 := []
  landing : List Landing := []
  pc : Nat := 0
  halted : Bool := true
  running : Bool := false
  cmd : Option Nat := none
  beats : Nat := 0
  mx : Engine := {}
  vx : Engine := {}
  sx : Engine := {}
  dx : Engine := {}
  gbase : Tab W64 := []
  wbuf0 : Weights := {}
  wbuf1 : Weights := {}
  nextEntry : Nat := 0
  held : BitVec 224 := 0
  dirty : BitVec 224 := 0
  twin : Option Nat := none
  first : Bool := true
  leaving : List Leaving := []
  slots : Tab Slot := []
  guards : List Guard := []
  beatsHi : W32 := 0
deriving DecidableEq, Repr

/-! ## Memories -/

/-- Every addressed store: the stack arrays by home key, scratchpads and accumulators by tile key, their check-bit
marks by word, host memory as the module sees it, the far tier by module far address with the key pair each line was
written under (R233) and its poisoned lines (R234). -/
structure Store where
  stack : Memory := []
  tile : Memory := []
  stackMark : Tab (BitVec 16) := []
  tileMark : Tab (BitVec 16) := []
  host : Memory := []
  far : Memory := []
  farLine : Tab Nat := []
  farPoison : List Nat := []
deriving DecidableEq, Repr

/-! ## Stacks -/

/-- STACK.LANE of one channel (R229). -/
structure Lane where
  spare0 : Nat := 0xFF
  spare1 : Nat := 0xFF
  lost : Nat := 0xFF
  weak : Nat := 0
deriving DecidableEq, Repr

/-- Who makes an access that may wait at a bank (R262, R263): a command, an engine entry of a tile, a tile's CC, the
message at the front of a channel of a Fyant port, a queue's rings, the monitor, a function's BAR2. -/
inductive Agent where
  | command (id : Nat)
  | engine (tile entry : Nat)
  | core (tile : Nat)
  | port (port channel : Nat)
  | rings (queue : Nat)
  | monitor
  | host (fn : Nat)
deriving DecidableEq, Repr

/-- An access waiting at a bank for a lock (R262, R263). A host access stands with its bytes for a write, or its length
and its place among the bytes of its read; any other is made again by its agent, while the lock that serves it lasts. -/
structure Waiting where
  who : Agent
  key : Nat
  write : Bool := false
  data : List Byte := []
  place : Nat := 0
  length : Nat := 0
  since : Nat
deriving DecidableEq, Repr

/-- A bank unit (R236): its row latch of 512 bits, its operand buffer of 4 KiB, of which the bytes beyond the list are 0, its
registers and accumulators. -/
structure BankUnit where
  latch : List (Byte × Bool) := List.replicate 64 (0, false)
  operand : List (Byte × Bool) := []
  regs : Vector (BitVec 256) 16 := Vector.replicate 16 0
  acc : Vector W32 64 := Vector.replicate 64 0
deriving DecidableEq, Repr

/-- Where a descriptor's output goes: a tile, the engine entry that sent it, its output address. -/
structure Dest where
  tile : Nat
  entry : Nat
  out : Nat
deriving DecidableEq, Repr

/-- A descriptor in an SSQ queue (R245, R249): its 64 bytes, its destinations (two in twin mode, R406), the repeat that
sent it, its merge group's and run's numbers, and for the first of a run the query block that the run uses (R247). -/
structure Desc where
  bytes : List Byte
  dests : List Dest
  rep : Nat
  group : Nat
  run : Nat
  block : List (Byte × Bool) := []
deriving DecidableEq, Repr

/-- One slot's running attention state (R252). -/
structure Partial where
  slot : Nat
  m : W32
  l : W32
  count : Nat
  acc : List W32
  poisoned : Bool := false
deriving DecidableEq, Repr

/-- A run on a bank (R248, R249, R261): its descriptors left, the page image read so far in the present flight, its
pound number and its partials; it waits for its group's next descriptor. Its queries stand in its bank unit's operand
buffer. -/
structure Run where
  number : Nat
  group : Nat
  descs : List Desc
  pound : Nat := 0
  inPound : Bool := false
  waits : Bool := false
  image : List (Byte × Bool) := []
  partials : List Partial := []
deriving DecidableEq, Repr

/-- One bank (R225, R236, R262): refreshes owed, its run, the accesses waiting for a lock in arrival order, those that the
lock under way is still to serve, whether a PAGE-COPY of another bank occupies it and is in a pound, its bank unit. -/
structure Bank where
  owed : Nat := 0
  run : Option Run := none
  waiting : List Waiting := []
  served : List Waiting := []
  unit : BankUnit := {}
  taken : Bool := false
  held : Bool := false
deriving DecidableEq, Repr

/-- A merge group in progress (R248, R255): its runs in order and their results by run number, its last descriptor so
far, whether that is its last of all, and the merge space of each run. -/
structure Group where
  number : Nat
  closed : Bool
  runs : List Nat
  results : List (Nat × List Partial) := []
  last : Desc
  space : Nat
deriving DecidableEq, Repr

/-- A flight table entry (R243): its name, flags, banks, pound columns, format mask and microcode. -/
structure FlightEntry where
  name : W32 := 0
  flags : BitVec 8 := 0
  banks : Nat := 0
  columns : Nat := 0
  formats : W32 := 0
  codeAt : W32 := 0
  codeBytes : W32 := 0
deriving DecidableEq, Repr

/-- A merge-buffer entry of a channel (R216): its 64-byte line's key and the bytes it holds. -/
structure Merge where
  line : Nat
  bytes : Memory
  since : Nat
deriving DecidableEq, Repr

/-- One stack (R229, R240, R249, R269); `pinHits` holds the corrected errors of the last millisecond by pin (channel × 80 +
pin) and time, `weakPins` the pins counted (R215). -/
structure Stack where
  trained : Bool := false
  degraded : Bool := false
  failed : Bool := false
  hot : Bool := false
  temp : Nat := 0
  boundary : Nat := 384
  corr : W32 := 0
  uncorr : W32 := 0
  lapUs : W32 := 0
  lanes : Tab Lane := []
  pinHits : List (Nat × Nat) := []
  weakPins : List Nat := []
  selfRefresh : Bool := false
  rowTemp : Nat := 0
  rowPmu : Nat := 0
  runs : W32 := 0
  lockWait : W32 := 0
  queue : List Desc := []
  nextRun : Nat := 0
  groups : List Group := []
  queries : List (W64 × Nat × List (Byte × Bool)) := []
  banks : Tab Bank := []
  scrubLeft : Nat := 0
  merges : List Merge := []
deriving DecidableEq, Repr

/-! ## Far tier, serving, KV -/

/-- The FAR block (R235). -/
structure Far where
  up0 : Bool := false
  up1 : Bool := false
  fast0 : Bool := false
  fast1 : Bool := false
  retraining0 : Bool := false
  retraining1 : Bool := false
  interleave : Bool := false
  cap0 : Nat := 0
  cap1 : Nat := 0
  poisonCount : W32 := 0
  base : Tab Nat := []
  size : Tab Nat := []
  kept0 : Bool := false
  kept1 : Bool := false
deriving DecidableEq, Repr

/-- A queued input chunk (R314). -/
structure Chunk where
  positions : Nat
  offset : Nat := 0
  input : W64
  submitted : Nat
  turnEnd : Bool
deriving DecidableEq, Repr

/-- The states of a request (R310); FREE requests are not listed. -/
inductive ReqState where
  | listening
  | turnEnd
  | answering
deriving DecidableEq, Repr

/-- A request record (R311) with its chunk queue. -/
structure Request where
  customer : Nat
  state : ReqState := .listening
  feedBack : Bool := false
  inStep : Bool := false
  deferred : Bool := false
  fell : Bool := false
  adopting : Bool := false
  part : Nat
  job : Nat
  chunks : List Chunk := []
  prefixSet : Nat := 0xFFFF
  firstTarget : Nat
  betweenTarget : Nat
  table : Nat
  turnStart : Nat := 0
  lastToken : Nat := 0
  firstFalls : Nat := 0
  betweenFalls : Nat := 0
  consumed : W64 := 0
  produced : W64 := 0
deriving DecidableEq, Repr

/-- A customer record (R319); level in units of 1/65,536 token. -/
structure Customer where
  rate : Nat
  burst : Nat
  grace : Nat
  part : Nat
  deferrals : Nat := 0
  level : Int
  lastRefill : Nat
deriving DecidableEq, Repr

/-- One entry of a manifest as the SVE keeps it (R327, R330). -/
structure PlanEntry where
  request : Nat
  input : Nat
  feedBack : Bool
  output : Bool
  turnEnd : Bool
  notRun : Bool := false
  chunkOffset : Nat
  source : W64
  slack : Int
  freed : Bool := false
  first : Nat := 0
deriving DecidableEq, Repr

/-- A manifest (R326): where it lies, whether a STEP-RUN has taken it and which, the records of the pages pinned, and
the records of the pages that became full. -/
structure Manifest where
  address : W64
  number : Nat
  time : Nat
  beats : Nat
  budget : Nat
  deferred : Nat
  entries : List PlanEntry
  used : Bool := false
  cmd : Nat := 0
  pinned : List Nat := []
  filled : List Nat := []
deriving DecidableEq, Repr

/-- What the firmware keeps of an accepted pool descriptor (R270). -/
structure PoolDesc where
  format : Nat := 0
  geometry : Nat := 0
  layers : Nat := 0
  heads : Nat := 0
  records : Nat := 0
  count : Nat := 0
  decay : Nat := 0
  tree : Nat := 0
  nodes : Nat := 0
  far : Nat := 0
  farBytes : Nat := 0
  groups : Nat := 0
  groupBytes : Nat := 0
deriving DecidableEq, Repr

/-- An installed prefix set (R301): its positions, its pages per layer and head, its entries in the order of R277. -/
structure PrefixSet where
  positions : Nat
  pages : Nat
  entries : List Nat
deriving DecidableEq, Repr

/-- A partition's KV pool registers and what the firmware tracks of an accepted pool (R272, R273): pages in use (as stack
× 8,192 banks × 512 + page index), those of them that a further record names, once for each, pieces of the page-group
store in use, slots of the far store in use, and the installed prefix sets. -/
structure Pool where
  lo : W32 := 0
  hi : W32 := 0
  accepted : Bool := false
  rejected : Bool := false
  walkSkips : W32 := 0
  cow : W32 := 0
  desc : PoolDesc := {}
  used : List Nat := []
  again : List Nat := []
  pieces : List Nat := []
  slots : List Nat := []
  sets : Tab PrefixSet := []
deriving DecidableEq, Repr

/-- The planning registers of a partition (R322). -/
structure Planning where
  base : W32 := 0
  decode : W32 := 1
  prefill : W32 := 1
  horizon : BitVec 16 := 0
deriving DecidableEq, Repr

/-- The SERVE block (R309-R338, R272). -/
structure Serve where
  flagIrq : Bool := false
  fallsFirst : BitVec 16 := 0
  fallsBetween : BitVec 16 := 0
  deferrals : W32 := 0
  recordSel : Vector W32 5 := #v[0, 0, 0, 0, 0]
  planning : Tab Planning := []
  requests : Tab Request := []
  customers : Tab Customer := []
  manifests : Tab Manifest := []
  running : Tab Manifest := []
  planNumbers : Tab Nat := []
  pools : Tab Pool := []
deriving DecidableEq, Repr

/-! ## Fabric -/

/-- The state a port reports (R377, R390). -/
inductive PortState where
  | down
  | training
  | hailing
  | up
  | refused
deriving DecidableEq, Repr

/-- Keys, count and epoch bit of one direction of a link session (R368, R370). -/
structure LinkKey where
  key : Nat := 0
  salt : W32 := 0
  count : Nat := 0
  epoch : Bool := false
deriving DecidableEq, Repr

/-- A message queued on a channel of a port: its node, what is left of its bytes, whether a flit of it has gone, whether it is
this module's own, and for which partition. -/
structure Queued where
  dest : Nat
  bytes : List Byte
  begun : Bool := false
  own : Bool := false
  owner : Option Nat := none
deriving DecidableEq, Repr

/-- An unacknowledged flit (R364): its sequence number and bytes, the partition whose data it carries, and the same flit with
its data zero, which a tenant switch leaves of it. -/
structure Replayed where
  seq : BitVec 16
  flit : List Byte
  owner : Option Nat := none
  blank : List Byte := []
deriving DecidableEq, Repr

/-- One Fyant port (R362-R371, R390, R391); `lanes` has a bit per trained
lane, `heard` is when the port last received a flit, `sent` holds the flits it last put on the wire, `hailDue` says
that its HAIL waits for the end of a tenant switch. -/
structure Port where
  state : PortState := .down
  lanes : BitVec 4 := 0
  heard : Nat := 0
  retraining : Bool := false
  epoch : Nat := 0
  peerSerial : W64 := 0
  peerNode : BitVec 16 := 0
  peerPort : BitVec 8 := 0
  crcRetry : W32 := 0
  fecCorr : W32 := 0
  retrains : W32 := 0
  tagFail : W32 := 0
  roundTrip : Nat := 0
  upSince : Nat := 0
  keyedAt : Nat := 0
  resent : W32 := 0
  fecTotal : W64 := 0
  txSeq : BitVec 16 := 0
  rxNext : BitVec 16 := 0
  nak : Bool := false
  retries : Nat := 0
  replay : List Replayed := []
  resend : List (List Byte) := []
  tx : LinkKey := {}
  rx : LinkKey := {}
  nextTx : Option LinkKey := none
  nextRx : Option LinkKey := none
  rekeyCmd : Option Nat := none
  rekeying : Bool := false
  awaitKey : Bool := false
  ephemeral : Nat := 0
  sinceTowpath : Nat := 64
  bulkRun : Nat := 3
  credit : Vector Nat 4 := #v[0, 0, 0, 0]
  owed : Vector Nat 4 := #v[0, 0, 0, 0]
  txq : Vector (List Queued) 4 := #v[[], [], [], []]
  rxq : Vector (List Byte) 4 := #v[[], [], [], []]
  sent : List (List Byte) := []
  kept : Bool := false
  hailDue : Bool := false
deriving DecidableEq, Repr

/-- What an outstanding remote access asks for (R372). -/
inductive RemoteKind where
  | write
  | read
  | query
  | barge
deriving DecidableEq, Repr

/-- An outstanding remote access of this module (R373, R383): its tag, node, kind and range; the command it serves and
its queue, and for a DX access the tile and the engine entry that made it. -/
structure Remote where
  tag : Nat
  node : Nat
  kind : RemoteKind
  cmd : Option Nat
  queue : Nat
  tile : Option Nat
  entry : Nat
  address : W64
  length : Nat
deriving DecidableEq, Repr

/-- A fabric map entry (R377) with its origin's advertisement. -/
structure MapEntry where
  serial : W64
  node : BitVec 16
  number : W32
  arrived : Nat
  ppsLock : Bool
  link : LinkEntry
deriving DecidableEq, Repr

/-- A positive admission answer that this module gave a command of another node (R183, R383): the source's node,
partition and agent, the range, whether it is for writing, the local partition, and the tag slot of the command. -/
structure Grant where
  node : Nat
  part : Nat
  agent : Nat
  address : W64
  length : Nat
  write : Bool
  place : Nat
  slot : Nat
deriving DecidableEq, Repr

/-- The fabric-wide state of the FFU (R374-R391); `held` keeps the module's own towpath messages that wait for a
whole-module tenant switch (R444), each with where it goes. -/
structure Fabric where
  node : Option (BitVec 16) := none
  dup : Bool := false
  ports : Tab Port := []
  map : List MapEntry := []
  origins : List (W64 × W32 × Nat) := []
  advNumber : W32 := 0
  group : Tab (List Nat) := []
  member : Tab (List Nat) := []
  admission : Tab W32 := []
  dropped : BitVec 11 := 0
  nextTag : Nat := 0
  remote : List Remote := []
  grants : List Grant := []
  held : List (Nat × List Byte) := []
deriving DecidableEq, Repr

/-! ## Faults, restart, weights -/

/-- A fault signature record (R419): `exported` says that it has been sent to the collector or is not to be sent (R421),
`guardTag` is the tag of the guard-band entry of a failed check (R404). -/
structure Record where
  number : Nat
  cls : Nat
  loc : Nat × Nat × Nat
  mv : Nat
  temp : Nat
  rate : Nat
  part : Nat
  job : Nat
  opcode : Nat
  tag : W32
  time : Nat
  action : Nat
  outcome : Nat
  count : Nat
  cmd : Option Nat := none
  exported : Bool := false
  guardTag : Option W64 := none
deriving DecidableEq, Repr

/-- A fault response entry (R416). -/
structure Response where
  action : Nat
  irq : Bool
  exportIt : Bool
  escalation : Nat
  threshold : Nat
  window : Nat
deriving DecidableEq, Repr

/-- The phases of the clean restart (R358). -/
inductive Restart where
  | none
  | stop
  | retain
  | reset
  | resume
deriving DecidableEq, Repr

/-- The FAULT block and the clean restart (R416-R422, R358). -/
structure Faults where
  next : Nat := 0
  records : List Record := []
  wrapped : Bool := false
  collected : List (List Byte) := []
  collectedNext : Nat := 0
  collectorOn : Bool := false
  collectorNode : BitVec 16 := 0xFFFF
  retries : W32 := 0
  repairs : W32 := 0
  repairFails : W32 := 0
  plausibility : W32 := 0
  tags : Tab W32 := []
  responses : Tab Response := []
  occurred : List (Nat × Nat) := []
  jobFault : Option (Nat × Nat × Nat) := none
  jobFaultCmd : Option Nat := none
  restart : Restart := .none
  repairing : List (Nat × Nat × Option Nat) := []
deriving DecidableEq, Repr

/-- A weight registration (R408, R409). -/
structure Registration where
  handle : Nat
  part : Nat
  address : W64
  bytes : Nat
  digests : W64
  backing : W64
  top : BitVec 384
deriving DecidableEq, Repr

/-! ## Security -/

/-- A function's SPDM session and mailbox (R429, R430). -/
structure Spdm where
  versioned : Bool := false
  capable : Bool := false
  negotiated : Bool := false
  session : Option Nat := none
  secret : Nat := 0
  established : Bool := false
  keyUpdates : Nat := 0
  lastHeard : Nat := 0
  mailbox : List Byte := []
deriving DecidableEq, Repr

/-- A partition's bounce region (R431, R436). -/
structure Bounce where
  address : W64 := 0
  frames : Nat := 0
  secret : Nat := 0
  live : Bool := false
  inCount : Tab Nat := []
  outCount : Tab Nat := []
  fails : W32 := 0
deriving DecidableEq, Repr

/-- SPDM sessions, bounce regions, the monitor lockout (R425). -/
structure Security where
  spdm : Vector Spdm 5 := #v[{}, {}, {}, {}, {}]
  bounce : Tab Bounce := []
  nextSession : Nat := 0
  lockout : Bool := false
deriving DecidableEq, Repr

/-! ## Power -/

/-- An island (R68, R69, R455, R456): its setpoint, from which value and since when its voltage slews there, and its measured
state. -/
structure Island where
  setMv : Nat := 0
  fromMv : Nat := 0
  since : Nat := 0
  mv : Nat := 0
  rate : Nat := 0
  temp : Nat := 0
deriving DecidableEq, Repr

/-- Sleep and wake (R463, R464). -/
inductive Sleep where
  | awake
  | asleep
  | power
  | memory
  | ports
  | resume
deriving DecidableEq, Repr

/-- Power lending (R388, R389, R462): the pool and its members, this member's watts, the SLACKs of the tick as (node,
wait, cap), the ticks of the latest SLACKs, every member's net watts as RENEW gives them, the transfer that a TAKE has begun,
when this member last lent, and the time of the tick that one of its tiles waited in DFLAGWAIT, in ns. -/
structure Lend where
  pool : Option Nat := none
  members : List Nat := []
  received : Nat := 0
  lent : Nat := 0
  lastRenew : Nat := 0
  tick : Nat := 0
  slacks : List (Nat × Nat × Nat) := []
  recent : List (Nat × Nat) := []
  nets : Tab Int := []
  took : Bool := false
  moved : Bool := false
  transfer : Option (Nat × Nat) := none
  lentAt : Nat := 0
  barrier : Nat := 0
deriving DecidableEq, Repr

/-- The PMU (R447-R465). Duties are in 64ths, `energy` in nJ, `throttle` in ns; `capSet` is the SET-CAP value in effect
since the last loop step, `vCeil` what the thermal limiter has lowered each die's tile islands to. `power` is the module power
of the last 100 µs, `powers` the last ten such readings (compute, stack, I/O, module), `mean`, `compute`, `stack` and `io` their
1 ms averages; `rowLow` is since when the stack power has stayed low, `calmSince` since when the current has, `releasedAt` when
the current limiter last released, `steady` since when a die's islands have kept within 15 mV. -/
structure Pmu where
  setCap : Nat := 1900
  capSet : Nat := 1900
  profile : Nat := 0
  extDuty : Nat := 16
  extWatts : Nat := 900
  vset : Nat := 720
  vfloor : Nat := 600
  dutyCap : Nat := 64
  dutyTherm : Vector Nat 2 := #v[64, 64]
  dutyCur : Vector Nat 2 := #v[64, 64]
  lowSince : Vector (Option Nat) 2 := #v[none, none]
  fullSince : Vector (Option Nat) 2 := #v[none, none]
  vCeil : Vector Nat 2 := #v[800, 800]
  gateClosed : Vector Bool 2 := #v[false, false]
  reopenedAt : Vector (Option Nat) 2 := #v[none, none]
  row : Nat := 0
  islands : Tab Island := []
  power : Nat := 0
  powers : List (Nat × Nat × Nat × Nat) := []
  mean : Nat := 0
  compute : Nat := 0
  stack : Nat := 0
  io : Nat := 0
  current : Nat := 0
  currentAvg : Nat := 0
  rowLow : Option Nat := none
  calmSince : Option Nat := none
  releasedAt : Nat := 0
  steady : Vector (Option Nat) 2 := #v[none, none]
  energy : Nat := 0
  energyHi : W32 := 0
  throttle : Vector Nat 6 := #v[0, 0, 0, 0, 0, 0]
  throttleHi : Vector W32 6 := #v[0, 0, 0, 0, 0, 0]
  trip : Bool := false
  sleep : Sleep := .awake
  lend : Lend := {}
deriving DecidableEq, Repr

/-! ## SMBus, flash, monitor -/

/-- The QSPI flash and the SMBus flash commands (R483, R495, R496). `bytes` holds each byte's complement, so that an
unlisted byte is an erased one; `work` is the operation under way (address, sectors to erase, bytes to program), `out` what
the last SMBus read returned. -/
structure Flash where
  bytes : Memory := []
  address : Nat := 0
  busy : Bool := false
  refused : Bool := false
  work : Option (Nat × Nat × List Byte) := none
  out : List Byte := []
deriving DecidableEq, Repr

/-- A parsed monitor command (R499). -/
inductive MonCmd where
  | peek (address : W64) (size : Nat)
  | poke (address : W64) (value : W64) (size : Nat)
  | dump (address : W64) (count : Nat)
  | tgen (stack channel pattern mode rate count : Nat)
  | lap
  | link (port : Option Nat)
  | faults (n : Nat)
  | island (n : Option Nat)
  | boot
  | quit
deriving DecidableEq, Repr

/-- The Plaorn monitor (R497-R501): the line so far, the command waiting to run, and what it has sent. -/
structure Monitor where
  line : List Byte := []
  session : Bool := false
  lastLine : Nat := 0
  todo : Option MonCmd := none
  since : Nat := 0
  out : List Byte := []
deriving DecidableEq, Repr

/-! ## The whole -/

/-- The block's state: the queue of waiting commands, and every piece of state of the spec by component. -/
structure State where
  pending : List Instr := []
  fuse : Fuse := {}
  boot : Boot := {}
  pins : Pins := {}
  time : Time := {}
  irq : Irq := {}
  front : Front := {}
  parts : Tab Part := []
  jobs : Jobs := {}
  tiles : Tab Tile := []
  store : Store := {}
  dram : Tab Stack := []
  far : Far := {}
  serve : Serve := {}
  fabric : Fabric := {}
  faults : Faults := {}
  weights : List Registration := []
  security : Security := {}
  pmu : Pmu := {}
  flash : Flash := {}
  mon : Monitor := {}
  flights : Tab FlightEntry := []
  microcode : Memory := []
  free : Nat := 0
deriving DecidableEq, Repr

/-- Why a step faults. Raised by any meaning whose operand names a unit the architecture numbers nowhere (a tile of 512
or more, a stack of 16 or more, a port of 16 or more, a partition of 4 or more, a function of 5 or more): no hardware
could make the event. Safe: the model stops where no hardware is. -/
inductive Fault where
  | noSuchUnit
deriving DecidableEq, Repr

/-- Why a step is refused. -/
inductive Refusal where
  /-- A command whose meaning has not been written; raised only by the dispatch. Safe: nothing is claimed of it. -/
  | notModelled (mnemonic : String)
deriving DecidableEq, Repr

/-- The outcome of one step of this machine. -/
abbrev Out := Host.Outcome State Fault Refusal

/-- The block at the start of phase 0 with VSB18 just applied (R481): every register at its printed reset value, every
other field as the assumption log names it, no command waiting. -/
def State.reset : State := {}

end Sys2Proof.Machine
end

