-- ==== Sys2Proof/Machine/Tab.lean ====
section
/-!
DEFINITION. Tables and byte strings: reading and writing a table by number in its canonical form, byte ranges of a
memory, little-endian numbers (02: all multi-byte fields are little-endian), saturation, insertion sort.
-/

namespace Sys2Proof.Machine

variable {α : Type}

/-- The value of key `k`: what is listed, or the value `d` of an unlisted key. -/
def tabGet (d : α) : Tab α → Nat → α
  | [], _ => d
  | (j, v) :: t, k => if j = k then v else tabGet d t k

/-- Write `v` at `k`, keeping the canonical form. -/
def tabSet [DecidableEq α] (d : α) : Tab α → Nat → α → Tab α
  | [], k, v => if v = d then [] else [(k, v)]
  | (j, w) :: t, k, v =>
    if k < j then (if v = d then (j, w) :: t else (k, v) :: (j, w) :: t)
    else if k = j then (if v = d then t else (k, v) :: t)
    else (j, w) :: tabSet d t k v

/-- Whether `k` is listed. -/
def tabHas : Tab α → Nat → Bool
  | [], _ => false
  | (j, _) :: t, k => j = k || tabHas t k

/-- The listed value of `k`. -/
def tabFind : Tab α → Nat → Option α
  | [], _ => none
  | (j, v) :: t, k => if j = k then some v else tabFind t k

/-- Put `v` at `k` in a table whose every listed key counts (no unlisted value). -/
def tabPut : Tab α → Nat → α → Tab α
  | [], k, v => [(k, v)]
  | (j, w) :: t, k, v =>
    if k < j then (k, v) :: (j, w) :: t else if k = j then (k, v) :: t else (j, w) :: tabPut t k v

/-- Take `k` out. -/
def tabDel (t : Tab α) (k : Nat) : Tab α := t.filter fun p => p.1 != k

/-- The canonical form: keys strictly rising, no value equal to the unlisted one. -/
def tabWf [DecidableEq α] (d : α) : Tab α → Bool
  | [] => true
  | (j, v) :: t => v != d && t.all (fun p => j < p.1) && tabWf d t

/-! ## Byte memories -/

/-- The byte at an address; an unlisted byte reads as zero (log 6). -/
def memGet (m : Memory) (a : Nat) : Byte := tabGet 0 m a

/-- Write one byte. -/
def memSet (m : Memory) (a : Nat) (b : Byte) : Memory := tabSet 0 m a b

/-- What a memory lists of the bytes `a` to `a + n - 1`. -/
def memPart (m : Memory) (a n : Nat) : Memory := m.filter fun p => a ≤ p.1 && p.1 < a + n

/-- The `n` bytes from `a` up, 64 at a time (`c` times). -/
def memChunks (m : Memory) : Nat → Nat → Nat → List Byte
  | 0, _, _ => []
  | c + 1, a, n =>
    let k := min 64 n
    let w := memPart m a k
    (List.range k).map (fun i => memGet w (a + i)) ++ memChunks m c (a + k) (n - k)

/-- `n` bytes from `a` up. -/
def memRead (m : Memory) (a n : Nat) : List Byte := memChunks (memPart m a n) ((n + 63) / 64) a n

/-- What a memory lists of the bytes `bs` from `a` up. -/
def memCells : Nat → List Byte → Memory
  | _, [] => []
  | a, b :: bs => if b = 0 then memCells (a + 1) bs else (a, b) :: memCells (a + 1) bs

/-- Bytes written from `a` up. -/
def memWrite (m : Memory) (a : Nat) (bs : List Byte) : Memory :=
  (m.filter fun p => p.1 < a) ++ memCells a bs ++ m.filter fun p => a + bs.length ≤ p.1

/-- Bytes `a` to `a + n - 1` made zero. -/
def memClear (m : Memory) (a n : Nat) : Memory := m.filter fun p => !(a ≤ p.1 && p.1 < a + n)

/-- The canonical form of a memory (keys rising, no listed zero). -/
def Memory.wf (m : Memory) : Bool := tabWf 0 m

/-! ## Numbers in bytes -/

/-- A little-endian number. -/
def leNat : List Byte → Nat
  | [] => 0
  | b :: bs => b.toNat + 256 * leNat bs

/-- The `n` low bytes of `v`, lowest first. -/
def toLe : Nat → Nat → List Byte
  | 0, _ => []
  | n + 1, v => BitVec.ofNat 8 v :: toLe n (v / 256)

/-- The `n`-byte number at byte `a` of a byte string. -/
def field (bs : List Byte) (a n : Nat) : Nat := leNat ((bs.drop a).take n)

/-- `n` zero bytes. -/
def zeros (n : Nat) : List Byte := List.replicate n 0

/-- Whether bytes `a` to `b - 1` are all zero. -/
def zeroIn (bs : List Byte) (a b : Nat) : Bool := ((bs.drop a).take (b - a)).all (· == 0)

/-- A signed two's-complement reading of the low `w` bits of `v`. -/
def signed (w v : Nat) : Int := if v % 2 ^ w ≥ 2 ^ (w - 1) then (v % 2 ^ w : Int) - 2 ^ w else (v % 2 ^ w : Nat)

/-- Bits `hi` to `lo` of a number. -/
def bits (v hi lo : Nat) : Nat := v / 2 ^ lo % 2 ^ (hi + 1 - lo)

/-- Bit `k` of a number. -/
def bit (v k : Nat) : Bool := v / 2 ^ k % 2 = 1

/-- A Bool as a 0 or 1 placed at bit `k`. -/
def flag (b : Bool) (k : Nat) : Nat := if b then 2 ^ k else 0

/-- Saturating addition in a register of `w` bits. -/
def satAdd {w : Nat} (r : BitVec w) (n : Nat) : BitVec w := BitVec.ofNat w (min (r.toNat + n) (2 ^ w - 1))

/-! ## Lists -/

/-- Insert before the first element that is not before it. -/
def insertBy (before : α → α → Bool) (x : α) : List α → List α
  | [] => [x]
  | y :: ys => if before y x then y :: insertBy before x ys else x :: y :: ys

/-- Stable insertion sort. -/
def sortBy (before : α → α → Bool) : List α → List α
  | [] => []
  | x :: xs => insertBy (fun a b => before a b) x (sortBy before xs)

/-- Insert a number in a strictly rising list. -/
def addNum (x : Nat) : List Nat → List Nat
  | [] => [x]
  | y :: ys => if x < y then x :: y :: ys else if x = y then y :: ys else y :: addNum x ys

/-- Change the elements that satisfy `p`. -/
def updWhere (p : α → Bool) (f : α → α) (l : List α) : List α := l.map fun x => if p x then f x else x

/-- The first element that satisfies `p` with its place. -/
def findAt (p : α → Bool) : List α → Nat → Option (Nat × α)
  | [], _ => none
  | x :: xs, n => if p x then some (n, x) else findAt p xs (n + 1)

end Sys2Proof.Machine
end

