-- ==== Sys2Proof/Machine/Code.lean ====
section
/-!
DEFINITION. The 80-bit word code (08 R208-R212) and CRC-64 (09 R259, 13 R363). A stored word is its data bytes and a
mark: its 16 stored check bits [79:64] XOR the check bits of its data with poison 0. The code is linear, so the mark
alone decides the decoder's outcome, and a clean unpoisoned word has mark 0.
-/

namespace Sys2Proof.Machine

/-- g(x) = m1(x) m3(x) with m1 = x^7 + x^3 + 1 and m3 = x^7 + x^3 + x^2 + x + 1, the minimal polynomial of the cube of
m1's root (R209). -/
def genPoly : Nat := 0x4377

/-- Multiply a remainder by x modulo g. -/
def stepPoly (r : Nat) : Nat := if r * 2 ≥ 2 ^ 14 then (r * 2) ^^^ genPoly else r * 2

/-- x^k mod g. -/
def polyAt : Nat → Nat
  | 0 => 1
  | k + 1 => stepPoly (polyAt k)

/-- The polynomial coefficient that codeword bit `p` is: check bit k at x^k, data bit j at x^(14 + j), poison at x^78;
the parity bit has none (R209). -/
def bitPoly (p : Nat) : Nat :=
  if p < 64 then polyAt (14 + p) else if p < 78 then polyAt (p - 64) else if p = 79 then polyAt 78 else 0

/-- Column `p` of the parity-check matrix: the BCH remainder in bits 13-0 and the overall parity in bit 14. -/
def column (p : Nat) : Nat := bitPoly p + 2 ^ 14

/-- XOR of the columns of the set bits among the first `n` bits of `w`. -/
def syndromeOf (w : Nat) : Nat → Nat
  | 0 => 0
  | n + 1 => if bit w n then syndromeOf w n ^^^ column n else syndromeOf w n

/-- The check bits [79:64] of a codeword: poison, parity, c13-c0 (R208). -/
def checkOf (data : W64) (poison : Bool) : BitVec 16 :=
  let info := data.toNat + flag poison 79
  let c := syndromeOf info 80 % 2 ^ 14
  let rest := 2 ^ 64 * c + info
  BitVec.ofNat 16 (c + flag (syndromeOf rest 80 ≥ 2 ^ 14) 14 + flag poison 15)

/-- The mark of a word whose codeword carries poison. -/
def poisonMark : BitVec 16 := checkOf 0 true

/-- What a read of one word delivers (R210): bits to flip in its data, poison, whether it was corrected or found
uncorrectable, and the bits in error of a corrected word. -/
structure Decoded where
  flip : Nat
  poison : Bool
  corrected : Bool
  bad : Bool
  pins : List Nat := []
deriving DecidableEq, Repr

/-- The first one or two of the codeword bits `0 … n - 1` whose columns add up to `syn`. -/
def findOne (syn : Nat) : Nat → Option Nat
  | 0 => none
  | n + 1 => if column n = syn then some n else findOne syn n

def findTwo (syn : Nat) : Nat → Option (Nat × Nat)
  | 0 => none
  | n + 1 =>
    match findOne (syn ^^^ column n) n with
    | some m => some (n, m)
    | none => findTwo syn n

/-- Decode a mark (R210, R211). -/
def decodeMark (m : BitVec 16) : Decoded :=
  if m = 0 then ⟨0, false, false, false, []⟩
  else
    let raw := 2 ^ 64 * m.toNat
    let syn := syndromeOf raw 80
    let out (e : Nat) (ps : List Nat) : Decoded := ⟨e % 2 ^ 64, bit (raw ^^^ e) 79, true, false, ps⟩
    if syn = 0 then ⟨0, bit raw 79, false, false, []⟩
    else
      match findOne syn 80 with
      | some p => out (2 ^ p) [p]
      | none =>
        match findTwo syn 80 with
        | some (p, q) => out (2 ^ p + 2 ^ q) [p, q]
        | none => ⟨0, true, false, true, []⟩

/-! ## CRC-64 with the ECMA-182 polynomial, initial value 0, no reflection, no final XOR -/

def crcPoly : Nat := 0x42F0E1EBA9EA3693

/-- One bit step. -/
def crcBit (c : Nat) : Nat := if c ≥ 2 ^ 63 then (c * 2 % 2 ^ 64) ^^^ crcPoly else c * 2

def crcByte (c : Nat) (b : Byte) : Nat :=
  crcBit (crcBit (crcBit (crcBit (crcBit (crcBit (crcBit (crcBit (c ^^^ (2 ^ 56 * b.toNat)))))))))

/-- The CRC-64 of a byte string. -/
def crc64 (bs : List Byte) : Nat := bs.foldl crcByte 0

end Sys2Proof.Machine
end

