-- ==== Sys2Proof/Machine/Flags.lean ====
section
/-!
DEFINITION. The interrupt tree (17 R466-R473): which leaf bit an event sets, what a function sees, when it is pending,
how its delivery is armed, due, fired.
-/

namespace Sys2Proof.Machine

/-- Device time as a number of nanoseconds (R77). -/
def now (s : State) : Nat := s.time.now.toNat

/-- The queue of a number; an unlisted queue does not exist. -/
def queueAt (s : State) (q : Nat) : Queue := tabGet {} s.front.queues q

def portAt (s : State) (p : Nat) : Port := tabGet {} s.fabric.ports p

def setQueue (s : State) (q : Nat) (x : Queue) : State :=
  { s with front := { s.front with queues := tabPut s.front.queues q x } }

def partAt (s : State) (p : Nat) : Part := tabGet {} s.parts p

/-- The open partition that a virtual function is bound to (R341). -/
def partOfFn (s : State) (fn : Nat) : Option Nat :=
  (s.parts.find? fun p => p.2.isOpen && p.2.vf = fn).map (·.1)

/-- Whether function `fn` owns queue `q`: the physical function every queue, a virtual function its partition's. -/
def ownsQueue (s : State) (fn q : Nat) : Bool :=
  fn = 0 || (q ≠ 0 && tabHas s.front.queues q && partOfFn s fn = some (queueAt s q).part)

/-- The leaf causes of R466. -/
inductive Cause where
  | reply (queue : Nat)
  | doorbellRange | adminCfg | ringErr
  | record | restart | repairFail
  | flagFall
  | cfgErr | thermTrip | extCap | woke
  | nodeDup | portDown | portUp
  | addrErr | farCfg | degraded | farDown
  | linkAuth | sluiceAuth | scrubDone
  | attach | monWrite
deriving DecidableEq, Repr

/-- The queue bits (32 k to 32 k + 31) that a function sees in IRQ.QUEUE_REPLY k (R472). -/
def replyMask (s : State) (fn k : Nat) : W32 :=
  if fn = 0 then 0xFFFFFFFF
  else BitVec.ofNat 32 (((List.range 32).filter fun b => ownsQueue s fn (32 * k + b)).foldl (fun a b => a + 2 ^ b) 0)

/-- A leaf's enabled causes. -/
def Leaf.live (l : Leaf) : W32 := l.cause &&& l.enable

/-- IRQ.QUEUE_CAUSE in a function's view (R467, R472). -/
def queueCause (s : State) (fn : Nat) : W32 :=
  let reply := (List.range 8).foldl
    (fun a k => a + (if (s.irq.queue[k]?.getD ⟨0, 0⟩).live &&& replyMask s fn k = 0 then 0 else 2 ^ k)) 0
  BitVec.ofNat 32 (reply + if fn = 0 && (s.irq.queue[8]).live ≠ 0 then 2 ^ 8 else 0)

/-- The single leaf of groups 1 to 7. -/
def groupLeaf (i : Irq) : Nat → Leaf
  | 1 => i.fault
  | 2 => i.serve
  | 3 => i.power
  | 4 => i.fabric
  | 5 => i.memory
  | 6 => i.security
  | 7 => i.monitor
  | _ => ⟨0, 0⟩

/-- Replace the single leaf of groups 1 to 7. -/
def setGroupLeaf (i : Irq) (g : Nat) (l : Leaf) : Irq :=
  match g with
  | 1 => { i with fault := l }
  | 2 => { i with serve := l }
  | 3 => { i with power := l }
  | 4 => { i with fabric := l }
  | 5 => { i with memory := l }
  | 6 => { i with security := l }
  | 7 => { i with monitor := l }
  | _ => i

/-- IRQ.SUMMARY in a function's view: a virtual function has bit 0 only (R467, R472). -/
def irqSummary (s : State) (fn : Nat) : BitVec 8 :=
  let q := if queueCause s fn = 0 then 0 else 1
  let rest := if fn = 0 then
      ((List.range 7).filter fun g => (groupLeaf s.irq (g + 1)).live ≠ 0).foldl (fun a g => a + 2 ^ (g + 1)) 0
    else 0
  BitVec.ofNat 8 (q + rest)

def irqFn (s : State) (fn : Nat) : IrqFn := s.irq.fns[fn]?.getD {}

def setIrqFn (s : State) (fn : Nat) (f : IrqFn) : State :=
  { s with irq := { s.irq with fns := s.irq.fns.setIfInBounds fn f } }

/-- A function is pending while its enabled summary is non-zero (R468). -/
def irqPending (s : State) (fn : Nat) : Bool := irqSummary s fn &&& (irqFn s fn).enable ≠ 0

/-- An armed function with no hold-off running that is pending starts one (R470). -/
def armFn (s : State) (fn : Nat) : State :=
  let f := irqFn s fn
  if !f.fired && f.due = none && irqPending s fn then
    setIrqFn s fn { f with due := some (now s + 1000 * f.holdoff.toNat) }
  else s

/-- After any change of a leaf, an enable or a view: start hold-offs, and let IRQ_N go high when the physical function
is no longer pending (R470, R471). -/
def irqSettle (s : State) : State :=
  let s := (List.range 5).foldl armFn s
  if irqPending s 0 then s else { s with pins := { s.pins with irqN := true } }

/-- Set bit `b` of leaf `k` of group `g` (R468: whatever its enable). -/
def setLeafBit (g k b : Nat) (s : State) : State :=
  let put (l : Leaf) : Leaf := { l with cause := l.cause ||| BitVec.ofNat 32 (2 ^ b) }
  let irq := if g = 0 then { s.irq with queue := s.irq.queue.setIfInBounds k (put (s.irq.queue[k]?.getD ⟨0, 0⟩)) }
    else setGroupLeaf s.irq g (put (groupLeaf s.irq g))
  irqSettle { s with irq := irq }

/-- Where R466 puts each cause: group, leaf register, bit. -/
def Cause.place : Cause → Nat × Nat × Nat
  | .reply q => (0, q / 32, q % 32)
  | .doorbellRange => (0, 8, 0)
  | .adminCfg => (0, 8, 1)
  | .ringErr => (0, 8, 2)
  | .record => (1, 0, 0)
  | .restart => (1, 0, 1)
  | .repairFail => (1, 0, 2)
  | .flagFall => (2, 0, 0)
  | .cfgErr => (3, 0, 0)
  | .thermTrip => (3, 0, 1)
  | .extCap => (3, 0, 2)
  | .woke => (3, 0, 3)
  | .nodeDup => (4, 0, 0)
  | .portDown => (4, 0, 1)
  | .portUp => (4, 0, 2)
  | .addrErr => (5, 0, 0)
  | .farCfg => (5, 0, 1)
  | .degraded => (5, 0, 2)
  | .farDown => (5, 0, 3)
  | .linkAuth => (6, 0, 0)
  | .sluiceAuth => (6, 0, 1)
  | .scrubDone => (6, 0, 2)
  | .attach => (7, 0, 0)
  | .monWrite => (7, 0, 1)

/-- An event sets its leaf bit (R466). While the lockout of R425 is in force no MONITOR cause is set. -/
def raise (c : Cause) (s : State) : State :=
  let p := c.place
  if p.1 = 7 && s.security.lockout then s else setLeafBit p.1 p.2.1 p.2.2 s

/-- The bits of leaf `k` of group `g` that function `fn` may clear or see (R472). -/
def leafMask (s : State) (fn g k : Nat) : W32 :=
  if fn = 0 then 0xFFFFFFFF else if g = 0 && k < 8 then replyMask s fn k else 0

/-- A W1C write of leaf `k` of group `g` (R469, R472). -/
def clearLeaf (fn g k : Nat) (v : W32) (s : State) : State :=
  let keep := ~~~ (v &&& leafMask s fn g k)
  let cut (l : Leaf) : Leaf := { l with cause := l.cause &&& keep }
  let irq := if g = 0 then { s.irq with queue := s.irq.queue.setIfInBounds k (cut (s.irq.queue[k]?.getD ⟨0, 0⟩)) }
    else if k = 0 then setGroupLeaf s.irq g (cut (groupLeaf s.irq g)) else s.irq
  irqSettle { s with irq := irq }

/-- A function's due message (R470, R471): not pending, nothing is sent and it stays armed; pending, it is fired, its
message sent or held while masked, and IRQ_N follows the physical function. -/
def fallDue (fn : Nat) (s : State) : State :=
  let f := irqFn s fn
  if irqPending s fn then
    let f' := { f with due := none, fired := true, held := f.masked, sent := if f.masked then f.sent else f.sent + 1 }
    let s := setIrqFn s fn f'
    if fn = 0 then { s with pins := { s.pins with irqN := false } } else s
  else setIrqFn s fn { f with due := none }

/-- IRQ_HOLDOFF_EXPIRE (R470): it happens only when a hold-off runs and its time has come. -/
def holdoffExpire (fn : Nat) (s : State) : State :=
  match (irqFn s fn).due with
  | some t => if t ≤ now s then fallDue fn s else s
  | none => s

/-- IRQ_UNMASK (R470): a held message is sent if the function is still pending. -/
def unmaskFn (fn : Nat) (s : State) : State :=
  let f := irqFn s fn
  setIrqFn s fn { f with masked := false, held := false,
                         sent := if f.held && irqPending s fn then f.sent + 1 else f.sent }

/-- IRQ_EOI (R470): re-arms a fired function, and starts a new hold-off from the write if it is pending. -/
def eoi (fn : Nat) (s : State) : State :=
  let f := irqFn s fn
  if f.fired then armFn (setIrqFn s fn { f with fired := false }) fn else s

/-- The wake from retention starts with its power phase. -/
def startWake (s : State) : State :=
  if s.pmu.sleep = .asleep then { s with pmu := { s.pmu with sleep := .power } } else s

end Sys2Proof.Machine
end

