-- ==== Sys2Proof/Machine/FaultOps.lean ====
section
/-!
DEFINITION. Fault records, the fault response table and what a detected fault does (14 R393-R421, R502), and CBOR
(RFC 8949 core deterministic encoding) as R419 and R439 use it.
-/

namespace Sys2Proof.Machine

/-! ## CBOR -/

/-- The head of a CBOR item of major type `m` and argument `v`, in its shortest form. -/
def cborHead (m v : Nat) : List Byte :=
  let be (n v : Nat) : List Byte := (toLe n v).reverse
  if v < 24 then [BitVec.ofNat 8 (m * 32 + v)]
  else if v < 2 ^ 8 then BitVec.ofNat 8 (m * 32 + 24) :: be 1 v
  else if v < 2 ^ 16 then BitVec.ofNat 8 (m * 32 + 25) :: be 2 v
  else if v < 2 ^ 32 then BitVec.ofNat 8 (m * 32 + 26) :: be 4 v
  else BitVec.ofNat 8 (m * 32 + 27) :: be 8 v

def cborUint (v : Nat) : List Byte := cborHead 0 v
def cborInt (v : Int) : List Byte := if v < 0 then cborHead 1 (-1 - v).toNat else cborHead 0 v.toNat
def cborBytes (bs : List Byte) : List Byte := cborHead 2 bs.length ++ bs
def cborArray (items : List (List Byte)) : List Byte := cborHead 4 items.length ++ items.flatten
def cborMap (items : List (Nat × List Byte)) : List Byte :=
  cborHead 5 items.length ++ (items.map fun p => cborUint p.1 ++ p.2).flatten

/-- A digest as bytes, highest first. -/
def digestBytes (d : BitVec 384) : List Byte := (toLe 48 d.toNat).reverse

/-! ## Where a fault is -/

/-- The island of a tile (01, R68): half a board each. -/
def tileIsland (t : Nat) : Nat := 12 * (t / 256) + 2 * (t % 256 / 64) + (if t % 64 / 8 < 4 then 0 else 1)

/-- The island of a record's location, none for kinds 2, 3 and 5 (R419, R502). -/
def locIsland (l : Nat × Nat × Nat) : Option Nat :=
  match l.1 with
  | 0 => some (tileIsland l.2.1)
  | 1 | 7 => some (12 * (l.2.1 / 32 / 8) + 11)
  | 4 => some l.2.1
  | 6 => some (12 * (l.2.1 / 8) + 11)
  | _ => none

/-- The stack whose base die gives the temperature, for kinds 1, 6 and 7. -/
def locStack (l : Nat × Nat × Nat) : Option Nat :=
  match l.1 with
  | 1 | 7 => some (l.2.1 / 32)
  | 6 => some l.2.1
  | _ => none

def stackAt (s : State) (n : Nat) : Stack := tabGet {} s.dram n

def setStack (s : State) (n : Nat) (k : Stack) : State := { s with dram := tabSet {} s.dram n k }

def islandAt (s : State) (n : Nat) : Island := tabGet {} s.pmu.islands n

def cmdAt (s : State) (id : Nat) : Option Cmd := s.front.cmds.find? (·.id == id)

/-- Change a command in flight. -/
def updCmd (id : Nat) (f : Cmd → Cmd) (s : State) : State :=
  { s with front := { s.front with cmds := updWhere (·.id == id) f s.front.cmds } }

/-- A command that a fault may still re-execute (R397, R398). -/
def Cmd.retriable (c : Cmd) : Bool := c.flags.getLsbD 0 && c.retried = none && c.due = none

/-! ## The response table -/

/-- Actions: 0 LOG, 1 RETRY, 2 REPAIR, 3 RESTART. The default of each class (R393). -/
def defaultAction : Nat → Nat
  | 2 | 7 | 9 => 1
  | 3 => 2
  | 11 | 13 => 3
  | _ => 0

/-- The actions R393 permits for a class. -/
def permitted (cls action : Nat) : Bool :=
  match cls with
  | 1 | 5 | 6 | 10 | 12 => action == 0
  | 2 | 7 | 9 => action == 0 || action == 1 || action == 3
  | 3 => action == 2 || action == 3
  | 4 => action == 0 || action == 3
  | 8 => action == 0 || action == 1
  | 11 | 13 => action == 3
  | _ => false

/-- The entry of a class at READY (R416). -/
def defaultResponse (cls : Nat) : Response :=
  ⟨defaultAction cls, cls = 6 || cls = 11 || cls = 12 || cls = 13, true, defaultAction cls, 0, 1000⟩

def responseOf (s : State) (cls : Nat) : Response := (tabFind s.faults.responses cls).getD (defaultResponse cls)

/-- The action in force: the escalation while the class has met its threshold in its window (R417). -/
def actionOf (s : State) (cls : Nat) : Nat :=
  let r := responseOf s cls
  let seen := (s.faults.occurred.filter fun o => o.1 = cls && now s < o.2 + 1000000 * r.window).length
  if r.threshold ≠ 0 && r.threshold ≤ seen then r.escalation else r.action

/-- The status a class gives when it is not recovered (R393): status and detail. -/
def classStatus : Nat → Nat × Nat
  | 1 => (0x01, 0)
  | 2 => (0x30, 2)
  | 3 => (0x30, 3)
  | 4 => (0x30, 4)
  | 6 | 9 | 12 => (0x32, 0)
  | 7 => (0x31, 5)
  | 8 => (0x31, 0)
  | 11 | 13 => (0x3F, 0)
  | _ => (0, 0)

/-! ## The clean restart begins -/

/-- A RESTART action or job fault starts the stop phase (R358); a second one during a restart changes nothing. -/
def beginRestart (s : State) : State :=
  if s.faults.restart = .none then { s with faults := { s.faults with restart := .stop } } else s

/-! ## Records -/

/-- Keep a record, the latest 4,096 (R420). -/
def keepRecord (r : Record) (f : Faults) : Faults :=
  let all := f.records ++ [r]
  if all.length > 4096 then { f with records := all.drop 1, wrapped := true, next := f.next + 1 }
  else { f with records := all, next := f.next + 1 }

/-- Whether a record takes in a further fault: same class and location, within 1 ms (R419). -/
def mergesWith (t cls : Nat) (loc : Nat × Nat × Nat) (r : Record) : Bool :=
  r.cls = cls && r.loc = loc && t ≤ r.time + 1000000

/-- `n` faults of class `cls` at `loc` charged to `cmd` (R395, R419): the occurrences are counted (R417), merged or
recorded, with the record to be exported where ENABLE and the class's EXPORT stand now (R421); RECORD is raised where the
class's entry says so (R416), a RETRY action makes the command's re-execution due (R397), and a RESTART action starts the
clean restart (R417). -/
def report (cls : Nat) (loc : Nat × Nat × Nat) (cmd : Option Nat) (n : Nat) (s : State) : State :=
  if n = 0 then s else
  let s := { s with faults := { s.faults with occurred := s.faults.occurred ++ List.replicate n (cls, now s) } }
  let act := actionOf s cls
  let c := cmd.bind (cmdAt s)
  let isl := locIsland loc
  let part := match c with | some c => c.part | none => 0xFF
  let fresh : Record :=
    { number := s.faults.next, cls := cls, loc := loc,
      mv := match isl with | some i => (islandAt s i).mv | none => Config.iodSupply (now s),
      temp := match locStack loc with
        | some k => (stackAt s k).temp
        | none => match isl with | some i => (islandAt s i).temp | none => Config.iodTemp (now s),
      rate := match isl with | some i => (islandAt s i).rate | none => 0,
      part := part, job := (c.map (·.job)).getD 0, opcode := (c.map (·.opcode)).getD 0,
      tag := if c.isSome then tabGet 0 s.faults.tags part else 0,
      time := now s, action := act, outcome := 0, count := n, cmd := cmd,
      exported := !(s.faults.collectorOn && (responseOf s cls).exportIt) }
  let f := if s.faults.records.any (mergesWith (now s) cls loc) then
      { s.faults with
        records := updWhere (mergesWith (now s) cls loc) (fun r => { r with count := r.count + n }) s.faults.records }
    else keepRecord fresh s.faults
  let s := { s with faults := f }
  let s := if (responseOf s cls).irq then raise .record s else s
  let s := match cmd with
    | some c => if act = 1 then updCmd c (fun x => if x.retriable then { x with due := some cls } else x) s else s
    | none => s
  if act = 3 then beginRestart s else s

/-- The CBOR map of a record (R419). A guard-band entry's tag, which R404 has the record carry and R419 gives no key, stands
under key 15 (DESIGN CHOICE, log 68). -/
def recordBytes (s : State) (r : Record) : List Byte :=
  let loc := cborArray [cborUint r.loc.1, cborUint r.loc.2.1, cborUint r.loc.2.2]
  let sig := (digestBytes (Config.sha384 (cborArray [cborUint r.cls, loc, cborUint r.outcome]))).take 16
  cborMap
    ([(1, cborUint r.number), (2, cborBytes sig), (3, cborUint r.cls), (4, loc), (5, cborUint r.mv),
     (6, cborInt r.temp), (7, cborUint r.rate),
     (8, cborArray [cborUint r.part, cborUint r.job, cborUint r.opcode, cborUint r.tag.toNat]),
     (9, cborUint r.time), (10, cborUint s.fuse.serial.toNat),
     (11, cborUint ((s.fabric.node.getD 0xFFFF).toNat)), (12, cborUint r.action), (13, cborUint r.outcome),
     (14, cborUint r.count)] ++ r.guardTag.toList.map fun t => (15, cborUint t.toNat))

end Sys2Proof.Machine
end

