-- ==== Sys2Proof/Machine/Address.lean ====
section
/-!
DEFINITION. What is present on a grade, what a partition holds (12 R339, R340), the fabric address and what it reaches
(07 R176-R186), the interleave (R179, R206), the far range (08 R231, R232).
-/

namespace Sys2Proof.Machine

/-! ## What is present -/

/-- R2, R13: the 32 tiles of compute die `d` that a grade B module has off: those its fuses name, and where they name
fewer, the highest-numbered others (DESIGN CHOICE, log 58). -/
def dieOff (s : State) (d : Nat) : List Nat :=
  let all := (List.range 256).map fun t => 256 * d + 255 - t
  ((all.filter s.fuse.fusedOff.contains) ++ all.filter fun t => !s.fuse.fusedOff.contains t).take 32

/-- R2, R12, R13: a tile of the module that is not fused off; grade A has all 512. -/
def tilePresent (s : State) (t : Nat) : Bool :=
  t < 512 && (s.fuse.grade = .a || !(dieOff s (t / 256)).contains t)

/-- R204: the PIM-enabled stacks of the grade. -/
def pimOf (g : Grade) (k : Nat) : Bool :=
  match g with
  | .a => k < 6 || (8 ≤ k && k < 14)
  | .b => k < 4 || (8 ≤ k && k < 12)

def pimStack (s : State) (k : Nat) : Bool := pimOf s.fuse.grade k

/-- R204: bytes of a bank of a stack. -/
def bankBytes (k : Nat) : Nat := if k = 6 || k = 7 || k = 14 || k = 15 then 0x800000 else 0x600000

/-- R22: the Fyant ports of the grade. -/
def portPresent (s : State) (p : Nat) : Bool :=
  p < 16 && (s.fuse.grade = .a || !(p = 6 || p = 7 || p = 14 || p = 15))

/-- R477 IDENT.PRESENT_STACKS low half: a stack in service. -/
def stackInService (s : State) (k : Nat) : Bool := k < 16 && !(stackAt s k).failed

/-! ## Partition shapes (R339) -/

def shapeNumber (shape index : Nat) : Nat :=
  match shape with
  | 0 => 0
  | 1 => 2 * index
  | _ => index

/-- The stacks of a shape in increasing number: the interleave group of R179. -/
def shapeStacks (shape index : Nat) : List Nat :=
  match shape with
  | 0 => List.range 16
  | 1 => (List.range 8).map (· + 8 * index)
  | _ =>
    match index with
    | 0 => [0, 1, 2, 6]
    | 1 => [3, 4, 5, 7]
    | 2 => [8, 9, 10, 14]
    | _ => [11, 12, 13, 15]

/-- First tile and tile count of a shape. -/
def shapeTiles (shape index : Nat) : Nat × Nat :=
  match shape with
  | 0 => (0, 512)
  | 1 => (256 * index, 256)
  | _ => (128 * index, 128)

def partStacks (s : State) (p : Nat) : List Nat := shapeStacks (partAt s p).shape (partAt s p).index

def tileInPart (s : State) (p t : Nat) : Bool :=
  let r := shapeTiles (partAt s p).shape (partAt s p).index
  (partAt s p).isOpen && r.1 ≤ t && t < r.1 + r.2

/-- The present tiles of a partition (R340). -/
def partTiles (s : State) (p : Nat) : List Nat :=
  let r := shapeTiles (partAt s p).shape (partAt s p).index
  ((List.range r.2).map (· + r.1)).filter (tilePresent s)

/-- The open partition that holds a tile. -/
def tilePart (s : State) (t : Nat) : Option Nat := (List.range 4).find? fun p => tileInPart s p t

/-! ## The interleaved view -/

/-- R206: units of 4 KiB below a stack's KV boundary. -/
def unitsBelow (s : State) (k : Nat) : Nat :=
  if pimStack s k then 8192 * (4 * (stackAt s k).boundary) else 8192 * (bankBytes k / 4096)

/-- Bytes of a group's interleaved view. -/
def viewBytes (s : State) (group : List Nat) : Nat := 4096 * (group.map (unitsBelow s)).sum

/-- R179 without its row-by-row loop: from row `row`, the members stay the same up to the least boundary above it, so
whole bands of rows are passed at once. Answers the stack and its unit. -/
def bandOf (units : List (Nat × Nat)) : Nat → Nat → Nat → Option (Nat × Nat)
  | 0, _, _ => none
  | fuel + 1, row, unit =>
    let members := units.filter fun u => u.2 > row
    match members with
    | [] => none
    | m :: ms =>
      let next := ms.foldl (fun a u => min a u.2) m.2
      let n := ms.length + 1
      if unit < n * (next - row) then
        ((m :: ms)[unit % n]?).map fun u => (u.1, row + unit / n)
      else bandOf units fuel next (unit - n * (next - row))

/-- The stack and unit in its view of a 4 KiB unit of the view (R179). -/
def interleave (s : State) (group : List Nat) (unit : Nat) : Option (Nat × Nat) :=
  bandOf (group.map fun k => (k, unitsBelow s k)) (group.length + 1) 0 unit

/-- The home key of a stack byte: stack, channel, bank, byte in bank. -/
def stackKey (k ch bank byte : Nat) : Nat := 2 ^ 23 * ((256 * (k * 32 + ch) + bank)) + byte

/-- R206: where unit `u` of a stack's view begins. -/
def unitKey (k u : Nat) : Nat := stackKey k (u % 32) (u / 32 % 256) (4096 * (u / 8192))

/-- The offset in a group's interleaved view of a stack byte, the inverse of R179 and R206; none at or above the
stack's boundary. -/
def viewOffset (s : State) (group : List Nat) (key : Nat) : Option Nat :=
  let k := key / 2 ^ 23 / 2 ^ 13
  let byte := key % 2 ^ 23
  let row := 8192 * (byte / 4096) + key / 2 ^ 23 % 256 * 32 + key / 2 ^ 23 / 256 % 32
  if unitsBelow s k ≤ row || !group.contains k then none
  else
    let before := (group.map fun j => min row (unitsBelow s j)).sum
    let ahead := (group.filter fun j => j < k && row < unitsBelow s j).length
    some (4096 * (before + ahead) + byte % 4096)

/-! ## Addresses -/

/-- Where a byte lives. -/
inductive Home where
  | stack (key : Nat)
  | tile (key : Nat)
  | far (mfa : Nat) (key : Nat)
  | host (address : Nat)
  | frame (part frame byte : Nat)
deriving DecidableEq, Repr

/-- Who makes an access (R185). -/
inductive Who where
  | cc | dx | lockkeeper | sve | host
deriving DecidableEq, Repr

/-- The three kinds of address error of R184. -/
inductive AddrErr where
  | param
  | absent (unit : Nat)
  | denied
deriving DecidableEq, Repr

/-- What an address range reaches: pieces on this module, a register, or another node. -/
inductive Place where
  | near (pieces : List (Home × Nat))
  | reg (offset : Nat)
  | remote (node : Nat)
deriving DecidableEq, Repr

def nodeOf (a : W64) : Nat := a.toNat / 2 ^ 48
def spaceOf (a : W64) : Nat := a.toNat / 2 ^ 44 % 16
def offsetOf (a : W64) : Nat := a.toNat % 2 ^ 44

/-- A fabric address of this module. -/
def mkAddr (space offset : Nat) : W64 := BitVec.ofNat 64 (0xFFFF * 2 ^ 48 + 2 ^ 44 * space + offset)

/-- R177: the address names this module. -/
def isLocal (s : State) (a : W64) : Bool :=
  nodeOf a = 0xFFFF || (match s.fabric.node with | some n => nodeOf a = n.toNat | none => false)

/-- Cut a range at multiples of `step`: pieces of place `home`. -/
def cutAt (step : Nat) (home : Nat → Home) : Nat → Nat → Nat → List (Home × Nat)
  | 0, _, _ => []
  | fuel + 1, a, n =>
    if n = 0 then [] else
    let k := min n (step - a % step)
    (home a, k) :: cutAt step home fuel (a + k) (n - k)

/-- GiB. -/
def gib : Nat := 2 ^ 30

/-- R2, R231: bytes of the served far range, at most 16 TiB, and the port of a module far address. -/
def farServed (s : State) : Nat :=
  min (2 ^ 44)
    (if s.far.interleave then gib * (2 * min s.far.cap0 s.far.cap1) else gib * (s.far.cap0 + s.far.cap1))

def farPort (s : State) (mfa : Nat) : Nat :=
  if s.far.interleave then mfa / 4096 % 2 else if mfa < gib * s.far.cap0 then 0 else 1

/-- The number of a partition's present far-tier key pair (R233): one for each opening. -/
def farKey (s : State) (p : Nat) : Nat := 4 * (partAt s p).opening + p + 1

/-- A bounce frame carries 4,032 bytes (R432). -/
def frameBytes : Nat := 4032

/-- What `n` bytes at `a` reach for an access of `who` in partition `part` (R176-R186). The kinds of error are tested
in the order of R48: reserved forms, then absent units, then permissions. -/
def resolve (s : State) (who : Who) (part : Option Nat) (a : W64) (n : Nat) : Except AddrErr Place :=
  let off := offsetOf a
  let sp := spaceOf a
  if sp ≥ 6 then .error .param
  else if nodeOf a = 0xFFFE then .error .param
  else if !isLocal s a then
    if s.fabric.node = none || !(who = .dx || who = .lockkeeper) || sp = 3 || sp = 4 then .error .denied
    else .ok (.remote (nodeOf a))
  else
    match sp with
    | 4 =>
      if off ≥ 2 ^ 24 || !(n = 4 || n = 8) || off % n ≠ 0 then .error .param
      else if who = .lockkeeper then .ok (.reg off) else .error .denied
    | 1 =>
      let t := off / 2 ^ 22
      let b := off % 2 ^ 22
      if off ≥ 2 ^ 31 || b + n > 0x380000 then .error .param
      else if !tilePresent s t then .error (.absent t)
      else match part with
        | some p =>
          if !tileInPart s p t || (who = .host && (partAt s p).confidential) then .error .denied
          else .ok (.near [(.tile off, n)])
        | none => .error .denied
    | 5 =>
      let k := off / 2 ^ 38
      let byte := off % 2 ^ 25
      if off ≥ 2 ^ 42 || byte + n > 0x600000 then .error .param
      else if !pimStack s k || (stackAt s k).failed then .error (.absent k)
      else match part with
        | some p =>
          if !(partAt s p).isOpen || !(partStacks s p).contains k || byte < 16384 * (stackAt s k).boundary
              || (who = .host && (partAt s p).confidential) then .error .denied
          else .ok (.near [(.stack (stackKey k (off / 2 ^ 33 % 32) (off / 2 ^ 25 % 256) byte), n)])
        | none => .error .denied
    | 0 =>
      match part with
      | some p =>
        if !(partAt s p).isOpen || off + n > viewBytes s (partStacks s p)
            || (who = .host && (partAt s p).confidential) then .error .denied
        else .ok (.near (cutAt 4096 (fun o =>
          match interleave s (partStacks s p) (o / 4096) with
          | some (k, u) => .stack (unitKey k u + o % 4096)
          | none => .host 0) (n / 4096 + 2) off n))
      | none => .error .denied
    | 2 =>
      match part with
      | some p =>
        let base := gib * tabGet 0 s.far.base p
        if who = .host || who = .sve then .error .denied
        else if !(partAt s p).isOpen || off + n > gib * tabGet 0 s.far.size p || base + off + n > farServed s then
          .error .denied
        else .ok (.near (cutAt 64 (fun o => .far (base + o) (farKey s p)) (n / 64 + 2) off n))
      | none => .error .denied
    | _ =>
      if who = .host || off + n > 2 ^ 44 then .error .denied
      else match part with
        | some p =>
          if (partAt s p).confidential then
            if off + n > frameBytes * (tabGet ({} : Bounce) s.security.bounce p).frames then .error .denied
            else .ok (.near (cutAt frameBytes (fun o => .frame p (o / frameBytes) (o % frameBytes))
              (n / frameBytes + 2) off n))
          else .ok (.near [(.host off, n)])
        | none => .ok (.near [(.host off, n)])

end Sys2Proof.Machine
end

