-- ==== Sys2Proof/Machine/Ops.lean ====
section
/-!
DEFINITION. The named operations over memory: reading and writing stack, tile, far, host and bounce-frame bytes with the
word code, poison, the merge buffers and the counters (07, 08 R208-R218, R233, R234, 15 R432-R437).
-/

namespace Sys2Proof.Machine

/-- A byte with its poison (R211). -/
abbrev PByte := Byte × Bool

/-- What a read delivered: bytes with poison, words corrected, words poisoned, for each fault its class, location and
count, and the home keys of poisoned words of registered weights with a backing copy (R411). -/
structure Got where
  data : List PByte := []
  corrected : Nat := 0
  poisoned : Nat := 0
  notes : List (Nat × (Nat × Nat × Nat) × Nat) := []
  weights : List Nat := []
deriving DecidableEq, Repr

def Got.bytes (g : Got) : List Byte := g.data.map (·.1)

def Got.append (g h : Got) : Got :=
  { data := g.data ++ h.data, corrected := g.corrected + h.corrected, poisoned := g.poisoned + h.poisoned,
    notes := g.notes ++ h.notes, weights := g.weights ++ h.weights }

/-- Bytes without poison. -/
def clean (bs : List Byte) : List PByte := bs.map fun b => (b, false)

/-! ## Words with check bits -/

/-- The marks of the words of bytes `a` to `a + n - 1`, decoded. -/
def marksIn (marks : Tab (BitVec 16)) (a n : Nat) : List Decoded :=
  (marks.filter fun m => a / 8 ≤ m.1 && m.1 < (a + n + 7) / 8).map fun m => decodeMark m.2

/-- Words of a range that read corrected, and that read poisoned (R210). -/
def correctedIn (marks : Tab (BitVec 16)) (a n : Nat) : Nat := ((marksIn marks a n).filter (·.corrected)).length

def poisonedIn (marks : Tab (BitVec 16)) (a n : Nat) : Nat := ((marksIn marks a n).filter (·.poison)).length

/-- One byte as its word decodes (R210, R211). -/
def wordByte (t : Nat) (m : Memory) (marks : Tab (BitVec 16)) (a : Nat) : PByte :=
  let d := decodeMark (tabGet 0 marks (a / 8))
  let b := memGet m a
  if d.poison then (Config.poisonByte t a b, true) else (b ^^^ BitVec.ofNat 8 (d.flip / 256 ^ (a % 8)), false)

/-- `n` bytes of a coded memory as a consumer decodes them. -/
def codedBytes (t : Nat) (m : Memory) (marks : Tab (BitVec 16)) (a n : Nat) : List PByte :=
  if marksIn marks a n = [] then clean (memRead m a n) else (List.range n).map fun i => wordByte t m marks (a + i)

/-- Write the bytes of one word's part: a word touched by a poisoned byte, or only partly written when it read
poisoned, is written with poison 1; a partly written word is first corrected (R211, R218). -/
def putWord (m : Memory) (marks : Tab (BitVec 16)) (a : Nat) (bs : List PByte) : Memory × Tab (BitVec 16) :=
  let w := a / 8
  let d := decodeMark (tabGet 0 marks w)
  let whole := bs.length = 8
  let bad := bs.any (·.2) || (d.poison && !whole)
  let m := if whole || d.flip = 0 then m else
    memWrite m (8 * w) ((List.range 8).map fun i => memGet m (8 * w + i) ^^^ BitVec.ofNat 8 (d.flip / 256 ^ i))
  (memWrite m a (bs.map (·.1)), tabSet 0 marks w (if bad then poisonMark else 0))

/-- The marks of whole words written from word `w` up: a word with a poisoned byte is written with poison 1. -/
def wholeMarks (w : Nat) (bs : List PByte) : Tab (BitVec 16) :=
  if bs.any (·.2) then
    ((List.range (bs.length / 8)).filter fun i => ((bs.drop (8 * i)).take 8).any (·.2)).map fun i => (w + i, poisonMark)
  else []

/-- Write whole words to a coded memory. -/
def putWhole (m : Memory) (marks : Tab (BitVec 16)) (a : Nat) (bs : List PByte) : Memory × Tab (BitVec 16) :=
  (memWrite m a (bs.map (·.1)),
   (marks.filter fun x => x.1 < a / 8) ++ wholeMarks (a / 8) bs ++ marks.filter fun x => a / 8 + bs.length / 8 ≤ x.1)

/-- The part of a write at `a` before its first whole word, its whole words, and what is left. -/
def cutWords {α : Type} (a : Nat) (bs : List α) : List α × List α × List α :=
  let k := min ((8 - a % 8) % 8) bs.length
  let n := (bs.length - k) / 8 * 8
  (bs.take k, (bs.drop k).take n, bs.drop (k + n))

/-- Write bytes to a coded memory. -/
def putCoded (m : Memory) (marks : Tab (BitVec 16)) (a : Nat) (bs : List PByte) : Memory × Tab (BitVec 16) :=
  let c := cutWords a bs
  let r := if c.1 = [] then (m, marks) else putWord m marks a c.1
  let r := if c.2.1 = [] then r else putWhole r.1 r.2 (a + c.1.length) c.2.1
  if c.2.2 = [] then r else putWord r.1 r.2 (a + c.1.length + c.2.1.length) c.2.2

/-! ## Stacks -/

def keyStack (key : Nat) : Nat := key / 2 ^ 23 / 2 ^ 13
def keyChannel (key : Nat) : Nat := key / 2 ^ 23 / 256 % 32
def keyBank (key : Nat) : Nat := key / 2 ^ 23 % 256

/-- The location of a stack byte in a fault record (R419 kind 1). -/
def stackLoc (key : Nat) : Nat × Nat × Nat := (1, keyStack key * 32 + keyChannel key, keyBank key)

/-- The lost logical pin of the channel of a stack byte; 0xFF for none (R214). -/
def lostPin (s : State) (key : Nat) : Nat := (tabGet ({} : Lane) (stackAt s (keyStack key)).lanes (keyChannel key)).lost

/-- A word as its channel's pins carry it: bit `lost` reads as 0, which is an error where it was 1. -/
def senseWord (lost : Nat) (p : Memory × Tab (BitVec 16)) (w : Nat) : Memory × Tab (BitVec 16) :=
  let mark := tabGet 0 p.2 w
  if lost < 64 then
    let a := 8 * w + lost / 8
    let b := memGet p.1 a
    if b.getLsbD (lost % 8) then
      (memSet p.1 a (b ^^^ BitVec.ofNat 8 (2 ^ (lost % 8))),
       tabSet 0 p.2 w (mark ^^^ checkOf (BitVec.ofNat 64 (2 ^ lost)) false))
    else p
  else if lost < 80 then
    let check := mark ^^^ checkOf (BitVec.ofNat 64 (leNat (memRead p.1 (8 * w) 8))) false
    if check.getLsbD (lost - 64) then (p.1, tabSet 0 p.2 w (mark ^^^ BitVec.ofNat 16 (2 ^ (lost - 64)))) else p
  else p

/-- Whole lines of a range as a degraded stack delivers them. A word that is not listed is zero, and so unharmed. -/
def sense (key n : Nat) (s : State) : State :=
  if !(stackAt s (keyStack key)).degraded then s
  else
    let inside (w : Nat) : Bool := key / 64 * 8 ≤ w && w < (key + n + 63) / 64 * 8
    let words := (s.store.stack.map (fun (p : Host.Cell) => p.1 / 8) ++ s.store.stackMark.map (fun p => p.1)).filter inside
    let r := words.eraseDups.foldl (fun p w => senseWord (lostPin s (8 * w)) p w) (s.store.stack, s.store.stackMark)
    { s with store := { s.store with stack := r.1, stackMark := r.2 } }

/-- Count corrected and uncorrectable words of a read in the stack's RC registers (R212, R229). -/
def countStack (key corr bad : Nat) (s : State) : State :=
  if corr = 0 && bad = 0 then s else
  let k := keyStack key
  let st := stackAt s k
  setStack s k { st with corr := satAdd st.corr corr, uncorr := satAdd st.uncorr bad }

/-- The physical pin that carries a logical pin (R214): spare 0 is pin 80, spare 1 pin 81. -/
def Lane.physical (l : Lane) (pin : Nat) : Nat := if l.spare0 = pin then 80 else if l.spare1 = pin then 81 else pin

/-- One corrected error of a pin: with more than 16 in 1 ms the pin is counted, once, and recorded as class 10 at its
physical pin (R215, R393, R502). -/
def notePin (s : State) (e : Nat × Nat) : State :=
  let k := keyStack e.1
  let ch := keyChannel e.1
  let pin := ch * 80 + e.2
  let st := stackAt s k
  let hits := (st.pinHits.filter fun h => now s < h.2 + 1000000) ++ [(pin, now s)]
  if (hits.filter (·.1 == pin)).length ≤ 16 || st.weakPins.contains pin then setStack s k { st with pinHits := hits }
  else
    let lane := tabGet ({} : Lane) st.lanes ch
    report 10 (7, k * 32 + ch, lane.physical e.2) none 1 (setStack s k { st with
      pinHits := hits, weakPins := st.weakPins ++ [pin], lanes := tabSet {} st.lanes ch { lane with weak := lane.weak + 1 } })

/-- The pins in error of the words of a range. -/
def pinsIn (marks : Tab (BitVec 16)) (a n : Nat) : List (Nat × Nat) :=
  (marks.filter fun m => a / 8 ≤ m.1 && m.1 < (a + n + 7) / 8).flatMap fun m =>
    (decodeMark m.2).pins.map fun p => (8 * m.1, p)

/-- The registration with a backing copy whose range holds a stack word, and the word's weight page (R408). -/
def weightPage (s : State) (key : Nat) : Option (Registration × Nat) :=
  s.weights.findSome? fun w =>
    if w.backing = 0 then none else
    match viewOffset s (partStacks s w.part) key with
    | some o =>
      if offsetOf w.address ≤ o && o < offsetOf w.address + w.bytes then some (w, (o - offsetOf w.address) / 65536) else none
    | none => none

/-- The class of a poisoned stack word: 3 in a registered weight range with a backing copy, else 4 (R393). -/
def homeClass (s : State) (key : Nat) : Nat := if (weightPage s key).isSome then 3 else 4

/-- The word that a partial write is merged with is read (R210, R218): what it decodes to is counted and recorded, and
charged to no command (DEDUCED, log 59). -/
def mergeRead (w : Nat) (s : State) : State :=
  let key := 8 * w
  let s := sense key 1 s
  let d := decodeMark (tabGet 0 s.store.stackMark w)
  if !d.corrected && !d.poison then s else
  let s := countStack key (if d.corrected then 1 else 0) (if d.bad then 1 else 0) s
  let s := (d.pins.map fun p => (key, p)).foldl notePin s
  let s := if d.corrected then report 1 (stackLoc key) none 1 s else s
  if d.poison then report (homeClass s key) (stackLoc key) none 1 s else s

/-- The words that `n` bytes at `a` cover in part. -/
def partWords (a n : Nat) : List Nat :=
  (if a % 8 ≠ 0 || n < 8 then [a / 8] else [])
    ++ if (a + n) % 8 ≠ 0 && (a + n) / 8 ≠ a / 8 then [(a + n) / 8] else []

/-- Write stack bytes to the array. -/
def putArray (key : Nat) (bs : List PByte) (s : State) : State :=
  let s := sense key bs.length s
  let r := putCoded s.store.stack s.store.stackMark key bs
  { s with store := { s.store with stack := r.1, stackMark := r.2 } }

/-- Flush one merge-buffer entry (R217, R218): each partly written word is merged in the array. -/
def flushEntry (e : Merge) (s : State) : State :=
  (List.range 8).foldl (fun s w =>
    let mine := e.bytes.filter fun p => p.1 / 8 = e.line / 8 + w
    if mine.length = 8 then putArray (e.line + 8 * w) (mine.map fun p => (p.2, false)) s
    else if mine = [] then s
    else mine.foldl (fun s p => putArray p.1 [(p.2, false)] s) (mergeRead (e.line / 8 + w) s)) s

/-- Flush the entries that satisfy `p`, oldest first. -/
def flushWhere (k : Nat) (p : Merge → Bool) (s : State) : State :=
  let st := stackAt s k
  let hit := st.merges.filter p
  if hit = [] then s else
  hit.foldl (fun s e => flushEntry e s) (setStack s k { st with merges := st.merges.filter fun e => !p e })

/-- Flush the lines that a range touches: a read of a line reaches the array only after its flush (R217). -/
def flushRange (key n : Nat) (s : State) : State :=
  flushWhere (keyStack key) (fun e => key / 64 * 64 ≤ e.line && e.line < key + n) s

/-- A narrow write enters its channel's merge buffer; with 32 entries held the oldest goes first (R216, R217). -/
def narrow (key : Nat) (bs : List Byte) (s : State) : State :=
  let k := keyStack key
  let line := key / 64 * 64
  let st := stackAt s k
  if st.merges.any (·.line == line) then
    let join (e : Merge) : Merge := { e with bytes := (bs.zipIdx key).foldl (fun m p => tabPut m p.2 p.1) e.bytes }
    setStack s k { st with merges := updWhere (·.line == line) join st.merges }
  else
    let s := match st.merges.filter (fun e => keyChannel e.line = keyChannel key) with
      | es => if es.length ≥ 32 then
          match es with
          | e :: _ => flushWhere k (fun x => x.line = e.line) s
          | [] => s
        else s
    let st := stackAt s k
    setStack s k { st with merges := st.merges ++
      [⟨line, (bs.zipIdx key).foldl (fun m p => tabPut m p.2 p.1) [], now s⟩] }

/-- Write a part of one word: it enters the merge buffer, but for a poisoned byte, which the buffer cannot hold. -/
def putPart (key : Nat) (bs : List PByte) (s : State) : State :=
  if bs = [] then s
  else if bs.any (·.2) then putArray key bs (mergeRead (key / 8) (flushRange key 8 s))
  else narrow key (bs.map (·.1)) s

/-- A stack write: whole words go to the array, a part of a word to the merge buffer (R213, R216). A whole word whose line
stands in the merge buffer has that entry flushed first, so that the later write prevails; R217 lists no write among what
flushes (DESIGN CHOICE, log 70). -/
def putStack (key : Nat) (bs : List PByte) (s : State) : State :=
  let c := cutWords key bs
  let s := putPart key c.1 s
  let a := key + c.1.length
  let s := if c.2.1 = [] then s else putArray a c.2.1 (flushRange a c.2.1.length s)
  putPart (a + c.2.1.length) c.2.2 s

/-- The home keys of the poisoned words of a range. -/
def poisonKeys (marks : Tab (BitVec 16)) (a n : Nat) : List Nat :=
  (marks.filter fun m => a / 8 ≤ m.1 && m.1 < (a + n + 7) / 8 && (decodeMark m.2).poison).map fun m => 8 * m.1

/-- A read of stack bytes (R210-R212): whole lines deliver every word of what is fetched. R212 speaks of corrected words
alone: an uncorrectable word of a fetched line outside the range asked for is neither counted nor reported (DESIGN CHOICE,
log 70). -/
def getStack (line : Bool) (key n : Nat) (s : State) : Got × State :=
  let s := sense key n (flushRange key n s)
  let marks := s.store.stackMark
  let a := if line then key / 64 * 64 else key
  let len := if line then (key + n + 63) / 64 * 64 - a else n
  let c := correctedIn marks a len
  let p := poisonedIn marks key n
  let bad := ((marksIn marks key n).filter (·.bad)).length
  let weak := (poisonKeys marks key n).filter fun k => homeClass s k = 3
  (⟨codedBytes (now s) s.store.stack marks key n, c, p,
     (if c = 0 then [] else [(1, stackLoc key, c)]) ++ (if weak = [] then [] else [(3, stackLoc key, weak.length)])
       ++ (if weak.length = p then [] else [(4, stackLoc key, p - weak.length)]), weak⟩,
   (pinsIn marks a len).foldl notePin (countStack key c bad s))

/-! ## Tiles -/

def tileAt (s : State) (t : Nat) : Tile := tabGet {} s.tiles t

def setTile (s : State) (t : Nat) (x : Tile) : State := { s with tiles := tabSet {} s.tiles t x }

/-- Blocks of 16 KiB that a range of a tile's window touches, as a map (R351). -/
def blockMap (off n : Nat) : BitVec 224 :=
  ((List.range 224).filter fun b => off < 16384 * (b + 1) && 16384 * b < off + n).foldl
    (fun m b => m ||| (1#224 <<< b)) 0

def tileLoc (key : Nat) : Nat × Nat × Nat := (0, key / 2 ^ 22, 5)

/-- The word of a tile that a partial write is merged with is read, as `mergeRead` has it of a stack. -/
def tileMergeRead (s : State) (w : Nat) : State :=
  let d := decodeMark (tabGet 0 s.store.tileMark w)
  let s := if d.corrected then report 1 (tileLoc (8 * w)) none 1 s else s
  if d.poison then report 4 (tileLoc (8 * w)) none 1 s else s

/-- The blocks that a write touches stand in the tile's held and dirty maps (R351). -/
def noteBlocks (key n : Nat) (s : State) : State :=
  let x := tileAt s (key / 2 ^ 22)
  let b := blockMap (key % 2 ^ 22) n
  setTile s (key / 2 ^ 22) { x with held := x.held ||| b, dirty := x.dirty ||| b }

/-- A write to a tile's scratchpad or accumulators sets its held and dirty maps (R351); a narrow write merges in place
under the poison rule of R218. -/
def putTile (key : Nat) (bs : List PByte) (s : State) : State :=
  if bs = [] then s else
  let s := (partWords key bs.length).foldl tileMergeRead s
  let r := putCoded s.store.tile s.store.tileMark key bs
  noteBlocks key bs.length { s with store := { s.store with tile := r.1, tileMark := r.2 } }

def getTile (line : Bool) (key n : Nat) (s : State) : Got :=
  let marks := s.store.tileMark
  let a := if line then key / 64 * 64 else key
  let len := if line then (key + n + 63) / 64 * 64 - a else n
  let c := correctedIn marks a len
  let p := poisonedIn marks key n
  ⟨codedBytes (now s) s.store.tile marks key n, c, p,
    (if c = 0 then [] else [(1, tileLoc key, c)]) ++ (if p = 0 then [] else [(4, tileLoc key, p)]), []⟩

/-! ## Far tier (R233, R234) -/

/-- The 64 bytes of a far line read under a key pair: bytes no write of that opening reached are unrelated. -/
def farLineBytes (s : State) (line key : Nat) : List Byte :=
  if tabGet 0 s.store.farLine line = key then memRead s.store.far (64 * line) 64
  else (List.range 64).map fun i => Config.farByte key (64 * line + i)

def getFar (mfa key n : Nat) (s : State) : Got × State :=
  let line := mfa / 64
  let bad := s.store.farPoison.contains line
  let bs := ((farLineBytes s line key).drop (mfa % 64)).take n
  if bad then
    (⟨bs.map fun b => (Config.poisonByte (now s) mfa b, true), 0, (mfa + n + 7) / 8 - mfa / 8,
      [(4, (3, farPort s mfa, 0), (mfa + n + 7) / 8 - mfa / 8)], []⟩,
     { s with far := { s.far with poisonCount := satAdd s.far.poisonCount 1 } })
  else (⟨clean bs, 0, 0, [], []⟩, s)

/-- A write of one line's part: read, merged, written whole, and counted where the device returned the line poisoned; a
line with a poisoned word is written with CXL poison. -/
def putFar (mfa key : Nat) (bs : List PByte) (s : State) : State :=
  let line := mfa / 64
  let at0 := mfa % 64
  let old := farLineBytes s line key
  let new := old.take at0 ++ bs.map (·.1) ++ old.drop (at0 + bs.length)
  let merged := s.store.farPoison.contains line && bs.length < 64
  let bad := bs.any (·.2) || merged
  let s := if merged then
      report 4 (3, farPort s mfa, 0) none 8 { s with far := { s.far with poisonCount := satAdd s.far.poisonCount 1 } }
    else s
  { s with store := { s.store with
      far := memWrite s.store.far (64 * line) new, farLine := tabSet 0 s.store.farLine line key,
      farPoison := if bad then addNum line s.store.farPoison else s.store.farPoison.filter (· != line) } }

/-! ## Host memory and Sluice (R211, R432-R437) -/

/-- Whether byte `i` lies in an aligned word that a poisoned byte of the range shares. -/
def poisonedWord (a : Nat) (bs : List PByte) (i : Nat) : Bool :=
  (bs.zipIdx a).any fun q => q.2 / 8 = (a + i) / 8 && q.1.2

/-- A word that goes to the host poisoned carries 0xFF in its 8 bytes (R211). -/
def hostBytes (a : Nat) (bs : List PByte) : List Byte :=
  if bs.any (·.2) then (bs.zipIdx 0).map fun p => if poisonedWord a bs p.2 then 0xFF else p.1.1 else bs.map (·.1)

def putHost (a : Nat) (bs : List PByte) (s : State) : State :=
  { s with store := { s.store with host := memWrite s.store.host a (hostBytes a bs) } }

def bounceAt (s : State) (p : Nat) : Bounce := tabGet {} s.security.bounce p

def setBounce (s : State) (p : Nat) (b : Bounce) : State :=
  { s with security := { s.security with bounce := tabSet {} s.security.bounce p b } }

/-- The GCM nonce of a frame: frame index, then counter (R432). -/
def frameNonce (f c : Nat) : Nat := f + 2 ^ 32 * c

/-- The additional data of a frame: bytes 4,032-4,047, then the partition (R432). -/
def frameAad (raw : List Byte) (p : Nat) : List Byte := (raw.drop 4032).take 16 ++ [BitVec.ofNat 8 p]

/-- The 16 bytes of a GCM tag (R363, R432). -/
def gcmTagBytes (key nonce : Nat) (aad ct : List Byte) : List Byte := toLe 16 (Config.gcmTag key nonce aad ct).toNat

/-- A Sluice key: 32 bytes that HKDF-Expand gives from the session's export master secret under the label of its direction,
false host to module, true module to host (R431). -/
def sluiceKey (secret : Nat) (out : Bool) : Nat :=
  let label := if out then "carast sluice m2h" else "carast sluice h2m"
  leNat (Config.hkdfExpand secret (label.toList.map fun c => BitVec.ofNat 8 c.toNat) 32)

/-- Encrypt or decrypt a frame's 4,032 bytes: GCM is a key stream. -/
def frameText (key nonce : Nat) (bs : List Byte) : List Byte :=
  (bs.zipIdx 0).map fun p => p.1 ^^^ Config.gcmStream key nonce p.2

/-- Read and check a whole frame by the direction in its trailer (R434, R436): its plaintext, and the accepted counter. -/
def openFrame (s : State) (p f : Nat) : Option (List Byte × Bounce) :=
  let b := bounceAt s p
  let raw := memRead s.store.host (b.address.toNat + 4096 * f) 4096
  let c := field raw 4032 8
  let dir := field raw 4044 1
  let key := sluiceKey b.secret (dir = 1)
  let text := raw.take 4032
  if !b.live || field raw 4040 4 ≠ f || raw.drop 4080 ≠ gcmTagBytes key (frameNonce f c) (frameAad raw p) text then none
  else if dir = 0 then
    if tabGet 0 b.inCount f ≤ c then
      some (frameText key (frameNonce f c) text, { b with inCount := tabSet 0 b.inCount f c })
    else none
  else if dir = 1 && c = tabGet 0 b.outCount f then some (frameText key (frameNonce f c) text, b)
  else none

/-- Every Sluice failure is counted and sets SLUICE_AUTH (R437). -/
def sluiceFail (p : Nat) (s : State) : State :=
  let b := bounceAt s p
  raise .sluiceAuth (setBounce s p { b with fails := satAdd b.fails 1 })

def getFrame (p f byte n : Nat) (s : State) : Got × State :=
  match openFrame s p f with
  | some (text, b) => (⟨clean ((text.drop byte).take n), 0, 0, [], []⟩, setBounce s p b)
  | none =>
    let words := (byte + n + 7) / 8 - byte / 8
    (⟨(List.range n).map fun i => (Config.poisonByte (now s) i 0, true), 0, words, [(4, (5, 6, 0), words)], []⟩,
     sluiceFail p s)

/-- Write part of a frame (R435): verified, merged, written whole as direction 1 with the next counter; a failed
partial write is dropped (R437). -/
def putFrame (p f byte : Nat) (bs : List PByte) (s : State) : State :=
  let go (text : List Byte) (b : Bounce) (s : State) : State :=
    let c := tabGet 0 b.outCount f + 1
    let new := text.take byte ++ hostBytes byte bs ++ text.drop (byte + bs.length)
    let key := sluiceKey b.secret true
    let ct := frameText key (frameNonce f c) new
    let trailer := toLe 8 c ++ toLe 4 f ++ [1, 0, 0, 0]
    let raw := ct ++ trailer ++ zeros 32 ++ gcmTagBytes key (frameNonce f c) (trailer ++ [BitVec.ofNat 8 p]) ct
    let s := setBounce s p { b with outCount := tabSet 0 b.outCount f c }
    { s with store := { s.store with host := memWrite s.store.host (b.address.toNat + 4096 * f) raw } }
  if (bounceAt s p).live && bs.length = 4032 then go (zeros 4032) (bounceAt s p) s
  else match openFrame s p f with
    | some (text, b) => go text b s
    | none => sluiceFail p s

/-! ## By home -/

/-- Read one piece. -/
def getHome (line : Bool) (h : Home) (n : Nat) (s : State) : Got × State :=
  match h with
  | .stack k => getStack line k n s
  | .tile k => (getTile line k n s, s)
  | .far m key => getFar m key n s
  | .host a => (⟨clean (memRead s.store.host a n), 0, 0, [], []⟩, s)
  | .frame p f b => getFrame p f b n s

/-- Write one piece. -/
def putHome (h : Home) (bs : List PByte) (s : State) : State :=
  match h with
  | .stack k => putStack k bs s
  | .tile k => putTile k bs s
  | .far m key => if bs = [] then s else putFar m key bs s
  | .host a => putHost a bs s
  | .frame p f b => if bs = [] then s else putFrame p f b bs s

/-- Read pieces in address order. -/
def getPieces (line : Bool) : List (Home × Nat) → State → Got × State
  | [], s => ({}, s)
  | (h, n) :: ps, s =>
    let r := getHome line h n s
    let q := getPieces line ps r.2
    (r.1.append q.1, q.2)

/-- Write pieces in address order. -/
def putPieces : List (Home × Nat) → List PByte → State → State
  | [], _, s => s
  | (h, n) :: ps, bs, s => putPieces ps (bs.drop n) (putHome h (bs.take n) s)

/-! ## Charging -/

/-- The highest fault class of the poisoned words of a read. -/
def Got.cls (g : Got) : Nat := (g.notes.filter fun n => n.1 = 3 || n.1 = 4).foldl (fun a n => max a n.1) 0

/-- Add a read's words to a command's counts (R57, R212). -/
def Cmd.count (g : Got) (x : Cmd) : Cmd :=
  { x with corrected := x.corrected + g.corrected, poisoned := x.poisoned + g.poisoned,
           poisonClass := max x.poisonClass g.cls }

/-- Poisoned words of registered weights are to be repaired while the class's action is REPAIR; a RETRIABLE command that
read them is then retried (R411, R412). -/
def noteRepairs (cmd : Option Nat) (keys : List Nat) (s : State) : State :=
  if actionOf s 3 ≠ 2 then s else
  keys.foldl (fun s k =>
    match weightPage s k with
    | some (w, p) =>
      let s := if s.faults.repairing.contains (w.handle, p, cmd) then s
        else { s with faults := { s.faults with repairing := s.faults.repairing ++ [(w.handle, p, cmd)] } }
      (match cmd with
      | some c => updCmd c (fun x => if x.retriable then { x with due := some 3 } else x) s
      | none => s)
    | none => s) s

/-- Record the faults of a read and add its words to the command's counts (R212, R395, R57). -/
def charge (cmd : Option Nat) (g : Got) (s : State) : State :=
  let s := g.notes.foldl (fun s n => report n.1 n.2.1 cmd n.2.2 s) s
  match cmd with
  | some c => if g.corrected = 0 && g.poisoned = 0 then s
      else noteRepairs cmd g.weights (updCmd c (Cmd.count g) s)
  | none => s

/-- One poisoned word of a place as a read finds it: its class and home (R393, R502), and its key where it can be repaired
(R411). -/
def poisonGot (s : State) (h : Home) : Got :=
  let one (loc : Nat × Nat × Nat) : Got := { poisoned := 1, notes := [(4, loc, 1)] }
  match h with
  | .stack key => if homeClass s key = 3 then { poisoned := 1, notes := [(3, stackLoc key, 1)], weights := [key] }
      else one (stackLoc key)
  | .tile key => one (tileLoc key)
  | .far m _ => one (3, farPort s m, 0)
  | .host _ | .frame _ _ _ => one (5, 6, 0)

/-- Read pieces and charge a command. -/
def readCharged (line : Bool) (cmd : Option Nat) (ps : List (Home × Nat)) (s : State) : Got × State :=
  let r := getPieces line ps s
  (r.1, charge cmd r.1 r.2)

/-- Read `n` bytes at a fabric address of this module, charging a command; `line` says that the reader fetches whole
lines (R212). -/
def fetch (line : Bool) (who : Who) (part cmd : Option Nat) (a : W64) (n : Nat) (s : State) :
    Except AddrErr (Got × State) :=
  match resolve s who part a n with
  | .error e => .error e
  | .ok (.near ps) => .ok (readCharged line cmd ps s)
  | .ok _ => .error .denied

/-- Write bytes at a fabric address of this module. -/
def store (who : Who) (part : Option Nat) (a : W64) (bs : List PByte) (s : State) : Except AddrErr State :=
  match resolve s who part a bs.length with
  | .error e => .error e
  | .ok (.near ps) => .ok (putPieces ps bs s)
  | .ok _ => .error .denied

/-- The pieces of a range of a partition's space 0; none where it does not lie there. -/
def viewPieces (part off n : Nat) (s : State) : List (Home × Nat) :=
  match resolve s .lockkeeper (some part) (mkAddr 0 off) n with
  | .ok (.near ps) => ps
  | _ => []

/-- Firmware reading its own structures, checked before: bytes with poison, zeros where nothing lies. What the read
counts and records is `firmRead`'s. -/
def peekData (part off n : Nat) (s : State) : List PByte :=
  match viewPieces part off n s with
  | [] => clean (zeros n)
  | ps => (getPieces false ps s).1.data

def peek (part : Nat) (off n : Nat) (s : State) : List Byte := (peekData part off n s).map (·.1)

/-- Charge a command with the ranges of its partition's space 0 that firmware reads for it: corrected words are counted,
poisoned ones recorded (R212, R393, R395). A command reads each range once (DESIGN CHOICE, log 60). -/
def firmRead (part : Nat) (cmd : Option Nat) (rs : List (Nat × Nat)) (s : State) : State :=
  rs.foldl (fun s r => (readCharged false cmd (viewPieces part r.1 r.2 s) s).2) s

/-- Firmware writing its own structures in a partition's space 0 (10: firmware is their only writer). -/
def pokeData (part : Nat) (off : Nat) (bs : List PByte) (s : State) : State :=
  putPieces (viewPieces part off bs.length s) bs s

def poke (part : Nat) (off : Nat) (bs : List Byte) (s : State) : State := pokeData part off (clean bs) s

/-- Firmware updating a structure: a word derived from a poisoned one is written poisoned (R211). -/
def amend (part : Nat) (off : Nat) (bs : List Byte) (s : State) : State :=
  pokeData part off (List.zipWith (fun b (o : PByte) => (b, o.2)) bs (peekData part off bs.length s)) s

/-- Read and write bytes of a bank (firmware, flights). -/
def bankRead (key n : Nat) (s : State) : List PByte := (getStack true key n s).1.data

def bankWrite (key : Nat) (bs : List PByte) (s : State) : State := putStack key bs s

/-- Zero a range of a stack: all-zero codewords (R209). -/
def zeroStack (key n : Nat) (s : State) : State :=
  let s := { s with store := { s.store with
    stack := memClear s.store.stack key n,
    stackMark := s.store.stackMark.filter fun m => !(key / 8 ≤ m.1 && m.1 < (key + n) / 8) } }
  let k := keyStack key
  let st := stackAt s k
  if st.merges.any (fun e => key ≤ e.line && e.line < key + n) then
    setStack s k { st with merges := st.merges.filter fun e => !(key ≤ e.line && e.line < key + n) } else s

/-- Zero a range of a tile's window: all-zero codewords. -/
def zeroTile (key n : Nat) (s : State) : State :=
  { s with store := { s.store with
    tile := memClear s.store.tile key n,
    tileMark := s.store.tileMark.filter fun m => !(key / 8 ≤ m.1 && m.1 < (key + n) / 8) } }

/-! ## Banks (R225, R236) -/

/-- A bank's number in its stack: channel × 256 + bank. -/
def bankNum (key : Nat) : Nat := key / 2 ^ 23 % 8192

def bankAt (s : State) (k b : Nat) : Bank := tabGet {} (stackAt s k).banks b

def setBank (s : State) (k b : Nat) (x : Bank) : State :=
  let st := stackAt s k
  setStack s k { st with banks := tabSet {} st.banks b x }

/-- A bank in the middle of a pound: an access that reaches it waits for the next lock. -/
def Bank.inPound (b : Bank) : Bool :=
  b.held || match b.run with
  | some r => r.inPound
  | none => false

/-! ## Scrubbing (R220) -/

/-- What a scrub of some words found: words decoded, corrected, uncorrectable, already poisoned, and the first word
that was uncorrectable. -/
structure Scrub where
  words : Nat := 0
  corrected : Nat := 0
  bad : Nat := 0
  poisoned : Nat := 0
  first : Option Nat := none
deriving DecidableEq, Repr

def Scrub.add (a b : Scrub) : Scrub :=
  ⟨a.words + b.words, a.corrected + b.corrected, a.bad + b.bad, a.poisoned + b.poisoned,
   match a.first with | some x => some x | none => b.first⟩

/-- The outcome of scrubbing `n` bytes at word-aligned `a`, in increasing address order. -/
def scrubOf (marks : Tab (BitVec 16)) (a n : Nat) : Scrub :=
  let ms := (marks.filter fun m => a / 8 ≤ m.1 && m.1 < (a + n) / 8).map fun m => (m.1, decodeMark m.2)
  ⟨n / 8, (ms.filter (·.2.corrected)).length, (ms.filter (·.2.bad)).length,
   (ms.filter fun m => m.2.poison && !m.2.bad).length, (ms.find? (·.2.bad)).map (·.1)⟩

/-- Write one word back: corrected, or with poison 1. -/
def scrubWord (p : Memory × Tab (BitVec 16)) (w : Nat) (mark : BitVec 16) : Memory × Tab (BitVec 16) :=
  let d := decodeMark mark
  (if d.flip = 0 then p.1 else
     memWrite p.1 (8 * w) ((List.range 8).map fun i => memGet p.1 (8 * w + i) ^^^ BitVec.ofNat 8 (d.flip / 256 ^ i)),
   tabSet 0 p.2 w (if d.poison then poisonMark else 0))

def scrubBytes (m : Memory) (marks : Tab (BitVec 16)) (a n : Nat) : Memory × Tab (BitVec 16) :=
  (marks.filter fun x => a / 8 ≤ x.1 && x.1 < (a + n) / 8).foldl (fun p x => scrubWord p x.1 x.2) (m, marks)

/-- The fault records of a scrub: one for each word corrected or found uncorrectable (R508), by class and location. -/
def scrubNotes (s : State) (marks : Tab (BitVec 16)) (a n : Nat) (loc : Nat → Nat × Nat × Nat) (stack : Bool) :
    List (Nat × (Nat × Nat × Nat) × Nat) :=
  (marks.filter fun m => a / 8 ≤ m.1 && m.1 < (a + n) / 8).flatMap fun m =>
    let d := decodeMark m.2
    (if d.corrected then [(1, loc (8 * m.1), 1)] else []) ++
    (if d.bad then [(if stack then homeClass s (8 * m.1) else 4, loc (8 * m.1), 1)] else [])

/-- Scrub stack bytes. A word that carries poison already yields no record (R508), and its weight page is repaired as that
of a word found uncorrectable (R411). -/
def scrubStack (cmd : Option Nat) (key n : Nat) (s : State) : Scrub × State :=
  let s := sense key n (flushRange key n s)
  let r := scrubOf s.store.stackMark key n
  let notes := scrubNotes s s.store.stackMark key n stackLoc true
  let q := scrubBytes s.store.stack s.store.stackMark key n
  let weak := ((s.store.stackMark.filter fun m => key / 8 ≤ m.1 && m.1 < (key + n) / 8 &&
    ((decodeMark m.2).bad || (decodeMark m.2).poison)).map fun m => 8 * m.1).filter fun k => homeClass s k = 3
  let pins := pinsIn s.store.stackMark key n
  let s := countStack key r.corrected r.bad { s with store := { s.store with stack := q.1, stackMark := q.2 } }
  let s := pins.foldl notePin s
  (r, noteRepairs none weak (notes.foldl (fun s x => report x.1 x.2.1 cmd x.2.2 s) s))

/-- Scrub bytes of a tile's window; a word written back sets its block in the tile's maps (R351). -/
def scrubTile (cmd : Option Nat) (key n : Nat) (s : State) : Scrub × State :=
  let r := scrubOf s.store.tileMark key n
  let notes := scrubNotes s s.store.tileMark key n tileLoc false
  let q := scrubBytes s.store.tile s.store.tileMark key n
  let back := (s.store.tileMark.filter fun m => key / 8 ≤ m.1 && m.1 < (key + n) / 8
    && ((decodeMark m.2).corrected || (decodeMark m.2).bad)).map (·.1)
  (r, notes.foldl (fun s x => report x.1 x.2.1 cmd x.2.2 s)
    (back.foldl (fun s w => noteBlocks (8 * w) 8 s) { s with store := { s.store with tile := q.1, tileMark := q.2 } }))

/-- Zero pages `lo` to `hi - 1` of every bank of a stack: all-zero codewords (R205, R207, R209). -/
def zeroPages (k lo hi : Nat) (s : State) : State :=
  let hit (a : Nat) : Bool := keyStack a = k && 16384 * lo ≤ a % 2 ^ 23 && a % 2 ^ 23 < 16384 * hi
  let st := stackAt s k
  setStack { s with store := { s.store with
      stack := s.store.stack.filter fun p => !hit p.1,
      stackMark := s.store.stackMark.filter fun m => !hit (8 * m.1) } } k
    { st with merges := st.merges.filter fun e => !hit e.line }

/-- A stack's row in force (R240). -/
def Stack.row (k : Stack) : Nat := max k.rowTemp k.rowPmu

/-- Whether any job is resident on the module, or in a partition. -/
def anyJob (s : State) : Bool := s.jobs.jobs ≠ []

def jobIn (s : State) (p : Nat) : Bool := s.jobs.jobs.any (·.part == p)

/-- The lockout of R425 is in force (R63). -/
def anyConfidential (s : State) : Bool := s.security.lockout

/-! ## Common shapes of a meaning -/

/-- A meaning about unit `n` of `limit`: out of the architecture's numbering it faults. -/
def onUnit (limit n : Nat) (s : State) (f : State → State) : Out := if n < limit then .next (f s) else .fault .noSuchUnit

/-- The module runs: VSB18 applied, not in reset, not halted, READY, awake, no clean restart. -/
def running (s : State) : Bool :=
  s.boot.vsb && !s.boot.inReset && s.boot.ready && s.pmu.sleep = .awake && s.faults.restart = .none

/-- An event of the running module; otherwise it does not happen. -/
def whenRunning (s : State) (f : State → State) : State := if running s then f s else s

end Sys2Proof.Machine
end

