-- ==== Sys2Proof/Machine/Access.lean ====
section
/-!
DEFINITION. Ordinary accesses at the banks (08 R226, 09 R262-R265): which must wait, which a lock serves and in what order;
what a function issues by BAR2 and its doorbells, in its order (07 R188, R190, R196).
-/

namespace Sys2Proof.Machine

/-! ## Who waits at a bank (R262, R263) -/

/-- Whether an agent still wants the access that waits for it. -/
def agentLives (s : State) : Agent → Bool
  | .command id => match cmdAt s id with | some c => c.phase ≠ .ended | none => false
  | .engine t id => (tileAt s t).dx.queue.any (·.id == id)
  | .core t => (tileAt s t).running
  | .port p vc => (portAt s p).rxq[vc]?.getD [] ≠ []
  | .rings q => tabHas s.front.queues q
  | .monitor => s.mon.todo.isSome
  | .host _ => true

/-- The accesses that the lock under way at a bank is still to serve, in arrival order. The lock lasts until each has acted:
no pound starts before (R262). -/
def lockOf (s : State) (k b : Nat) : List Waiting := (bankAt s k b).served.filter fun w => agentLives s w.who

/-- The accesses that wait at a bank for its next lock, in arrival order. -/
def waitingAt (s : State) (k b : Nat) : List Waiting := (bankAt s k b).waiting.filter fun w => agentLives s w.who

/-- A bank at which an agent's access must wait: in self-refresh (R226), in a pound, or with accesses ahead of it, unless it
is the first that the lock under way serves. -/
def bankBlocks (s : State) (who : Agent) (key : Nat) : Bool :=
  let k := keyStack key
  let b := bankNum key
  (stackAt s k).selfRefresh || (match lockOf s k b with
    | w :: _ => w.who ≠ who
    | [] => (bankAt s k b).inPound || waitingAt s k b ≠ [])

def portUp (s : State) (p : Nat) : Bool := if p = 0 then s.far.up0 else s.far.up1
def portRetrains (s : State) (p : Nat) : Bool := if p = 0 then s.far.retraining0 else s.far.retraining1

/-- What an access finds: it can go on, it waits, or its far link is down for good. -/
inductive Reach where
  | go
  | wait
  | dead
deriving DecidableEq, Repr

/-- What the access of an agent to one place finds. -/
def Home.reach (s : State) (who : Agent) : Home → Reach
  | .stack key => if bankBlocks s who key then .wait else .go
  | .far m _ => if portUp s (farPort s m) then .go else if portRetrains s (farPort s m) then .wait else .dead
  | _ => .go

/-- What an access to several pieces finds. -/
def reachOf (s : State) (who : Agent) (ps : List (Home × Nat)) : Reach :=
  if ps.any (fun p => p.1.reach s who = .dead) then .dead
  else if ps.any (fun p => p.1.reach s who = .wait) then .wait else .go

/-- The longest wait of an access for a lock; nothing is counted during the lockout (R269, R425). -/
def countWait (k dt : Nat) (s : State) : State :=
  let st := stackAt s k
  if s.security.lockout then s
  else setStack s k { st with lockWait := BitVec.ofNat 32 (max st.lockWait.toNat (min dt (2 ^ 32 - 1))) }

/-! ## Pieces of a host's access -/

/-- The partition a function's BAR2 accesses are interpreted in. -/
def bar2PartOf (fn : Nat) (s : State) : Option Nat := if fn = 0 then some s.front.bar2Part else partOfFn s fn

/-- A piece of a read takes its place among the bytes that the host gets; poisoned words go as 0xFF (R211). -/
def putRead (h : Home) (place : Nat) (bs : List PByte) (s : State) : State :=
  let a := match h with | .stack k | .tile k => k | _ => 0
  let old := s.front.readBytes
  { s with front := { s.front with readBytes := old.take place ++ hostBytes a bs ++ old.drop (place + bs.length) } }

/-- One piece of a host access is served. -/
def hostServe (h : Home) (write : Bool) (data : List Byte) (place n : Nat) (s : State) : State :=
  if write then putHome h (clean data) s
  else
    let r := readCharged false none [(h, n)] s
    putRead h place r.1.data r.2

def setHostWaits (fn n : Nat) (s : State) : State :=
  { s with front := { s.front with hostWaits := s.front.hostWaits.setIfInBounds fn n } }

def hostWaitsOf (fn : Nat) (s : State) : Nat := s.front.hostWaits[fn]?.getD 0

/-- One piece of a host access is served, or waits at its bank for a lock (R263). -/
def hostPiece (fn : Nat) (h : Home) (write : Bool) (data : List Byte) (place n : Nat) (s : State) : State :=
  match h with
  | .stack key =>
    if bankBlocks s (.host fn) key then
      let k := keyStack key
      let b := bankAt s k (bankNum key)
      setHostWaits fn (hostWaitsOf fn s + 1) (setBank s k (bankNum key)
        { b with waiting := b.waiting ++ [⟨.host fn, key, write, data, place, n, now s⟩] })
    else hostServe h write data place n s
  | _ => hostServe h write data place n s

/-- The pieces of a host access, from the byte at `place` on. -/
def hostPieces (fn : Nat) (write : Bool) (data : List Byte) : List (Home × Nat) → Nat → State → State
  | [], _, s => s
  | (h, n) :: ps, place, s =>
    hostPieces fn write data ps (place + n) (hostPiece fn h write ((data.drop place).take n) place n s)

/-- What a host access that has no answer reads: all ones. -/
def readOnes (n : Nat) (s : State) : State := { s with front := { s.front with readBytes := List.replicate n 0xFF } }

/-! ## Locks (R262, R263) -/

/-- No pound follows at a bank until something else happens: it has no run, its run waits for a descriptor, or its stack is
in row 4, where no pound starts (R241). -/
def bankFree (s : State) (k b : Nat) : Bool :=
  let x := bankAt s k b
  !x.inPound && !(stackAt s k).selfRefresh && ((stackAt s k).row = 4 || (match x.run with
    | some r => r.waits
    | none => !x.taken))

/-- The first `n` accesses that wait at a bank are those that its lock serves; what has lost its agent waits no more. -/
def serveBank (k b n : Nat) (s : State) : State :=
  let ws := waitingAt s k b
  let on := lockOf s k b ++ ws.take n
  (ws.take n).foldl (fun s w => countWait k (now s - w.since) s)
    (setBank s k b { bankAt s k b with waiting := ws.drop n, served := on })

/-- What a lock serves acts in arrival order: a function's access where it comes first, any other agent's when it makes it
again. A free bank then serves whatever has arrived since. -/
def settle (k b : Nat) : Nat → State → State
  | 0, s => s
  | fuel + 1, s =>
    match lockOf s k b with
    | w :: ws => (match w.who with
      | .host fn => settle k b fuel (hostServe (.stack w.key) w.write w.data w.place w.length
          (setHostWaits fn (hostWaitsOf fn s - 1) (setBank s k b { bankAt s k b with served := ws })))
      | _ => s)
    | [] =>
      if waitingAt s k b = [] || !bankFree s k b then s
      else settle k b fuel (serveBank k b (waitingAt s k b).length s)

/-- A bank's accesses as far as they can act now. -/
def settleBank (k b : Nat) (s : State) : State :=
  settle k b ((bankAt s k b).served.length + (bankAt s k b).waiting.length + 2) s

/-! ## Doorbells (R28-R32) -/

/-- Entries of a queue's rings. -/
def Queue.size (q : Queue) : Nat := 2 ^ q.sizeLog2

/-- A queue that takes doorbell writes: it exists, and the admin queue is active. -/
def bellsLive (s : State) (q : Nat) : Bool := tabHas s.front.queues q && (q ≠ 0 || (queueAt s 0).active)

/-- A doorbell write takes effect. -/
def applyBell (b : Bell) (s : State) : State :=
  let q := queueAt s b.queue
  if !bellsLive s b.queue then s
  else if q.size ≤ b.value then raise .doorbellRange s
  else setQueue s b.queue (if b.replyHead then { q with replyHead := b.value } else { q with sqTail := b.value })

/-- A doorbell write of the awake module; recorded in retention, which it ends (R464). -/
def takeBell (b : Bell) (s : State) : State :=
  if s.pmu.sleep = .awake then applyBell b s
  else startWake { s with front := { s.front with bells := s.front.bells ++ [b] } }

/-! ## The order of a function's accesses (R188, R190, R196) -/

/-- What a function has issued takes effect: an address error drops a write, reads as all ones, and sets ADDR_ERR. -/
def takePost (fn : Nat) (p : Post) (s : State) : State :=
  match p with
  | .write a data => match resolve s .host (bar2PartOf fn s) a data.length with
    | .ok (.near ps) => hostPieces fn true data ps 0 s
    | _ => raise .addrErr s
  | .read a n => match resolve s .host (bar2PartOf fn s) a n with
    | .ok (.near ps) => hostPieces fn false [] ps 0 (readOnes n s)
    | _ => readOnes n (raise .addrErr s)
  | .bell b => takeBell b s

def setPosts (fn : Nat) (ps : List Post) (s : State) : State :=
  { s with front := { s.front with posts := s.front.posts.setIfInBounds fn ps } }

/-- A function issues an access or a doorbell write: it takes effect behind what the function has issued before. -/
def issue (fn : Nat) (p : Post) (s : State) : State :=
  let ps := s.front.posts[fn]?.getD []
  if hostWaitsOf fn s = 0 && ps = [] then takePost fn p s else setPosts fn (ps ++ [p]) s

/-- What a function has issued behind a wait that is over takes effect, until something of it has to wait. -/
def drainPosts (fn : Nat) : Nat → State → State
  | 0, s => s
  | fuel + 1, s =>
    if hostWaitsOf fn s ≠ 0 then s else
    match s.front.posts[fn]?.getD [] with
    | [] => s
    | p :: ps => drainPosts fn fuel (takePost fn p (setPosts fn ps s))

def drainAll (s : State) : State := (List.range 5).foldl (fun s fn => drainPosts fn (s.front.posts[fn]?.getD []).length s) s

/-! ## An agent's access to several pieces -/

/-- The banks of some pieces, by a key in each. -/
def bankKeys (ps : List (Home × Nat)) : List Nat := ps.filterMap fun p => match p.1 with
  | .stack key => some key
  | _ => none

/-- An agent's access arrives at a bank: behind what waits there, or as what its lock serves. -/
def arrive (who : Agent) (key : Nat) (s : State) : State :=
  let k := keyStack key
  let b := bankNum key
  let x := bankAt s k b
  let w : Waiting := { who := who, key := key, since := now s }
  if x.waiting.any (·.who == who) || x.served.any (·.who == who) then s
  else if bankBlocks s who key then setBank s k b { x with waiting := x.waiting ++ [w] }
  else setBank s k b { x with served := [w] }

/-- An agent's access at a bank acts: it needs the lock's service no more. -/
def pass (who : Agent) (key : Nat) (s : State) : State :=
  let k := keyStack key
  let b := bankNum key
  let x := bankAt s k b
  if x.served.any (·.who == who) then
    settleBank k b (setBank s k b { x with served := x.served.filter (·.who != who) })
  else s

/-- One access for all its pieces. While a bank holds it up it stands at all its banks, so that of two accesses one comes first
everywhere; once nothing holds it up it acts, and what it kept back goes on. -/
def noteWaits (who : Agent) (ps : List (Home × Nat)) (s : State) : State :=
  let keys := bankKeys ps
  if reachOf s who ps = .go then
    if keys.any (fun key => (bankAt s (keyStack key) (bankNum key)).served.any (·.who == who)) then
      drainAll (keys.foldl (fun s key => pass who key s) s)
    else s
  else if keys.any (bankBlocks s who) then keys.foldl (fun s key => arrive who key s) s
  else s

/-- The stacks leave self-refresh: what waited at free banks is served (R226). -/
def serveAll (s : State) : State :=
  let banks := s.dram.flatMap fun k => (k.2.banks.filter fun b => b.2.waiting ≠ []).map fun b => (k.1, b.1)
  drainAll (banks.foldl (fun s x => settleBank x.1 x.2 s) s)

end Sys2Proof.Machine
end

