-- ==== Sys2Proof/Machine/Values.lean ====
section
/-!
DEFINITION. What the registers show (17 R466-R478 and every block's own table): the values they are made of, the value of
each BAR0 register in a function's view, and what a read clears or latches.
-/

namespace Sys2Proof.Machine

/-! ## Ports, requests, customers -/

def setPort (s : State) (p : Nat) (x : Port) : State :=
  { s with fabric := { s.fabric with ports := tabSet {} s.fabric.ports p x } }

/-- This module's node ID as messages carry it. -/
def ownNode (s : State) : Nat := match s.fabric.node with | some n => n.toNat | none => 0xFFFF

def requestAt (s : State) (r : Nat) : Option Request := tabFind s.serve.requests r

def customerAt (s : State) (n : Nat) : Option Customer := tabFind s.serve.customers n

/-- The module serves the registers beyond start-up and retention (R463, R488). -/
def serving (s : State) : Bool := s.boot.vsb && !s.boot.inReset && s.boot.ready && s.pmu.sleep = .awake

/-! ## The pool -/

def poolAt (s : State) (p : Nat) : Pool := tabGet {} s.serve.pools p

def setPool (s : State) (p : Nat) (x : Pool) : State :=
  { s with serve := { s.serve with pools := tabSet {} s.serve.pools p x } }

/-- Positions per page, head dimension, and 16 KiB units of the page class, of a geometry byte (R245). -/
def geoP (g : Nat) : Nat := 32 * 2 ^ (g % 4)
def geoD (g : Nat) : Nat := 64 * 2 ^ (g / 8 % 4)
def geoUnits (g : Nat) : Nat := if bit g 2 then 2 else 1

/-- Bytes of one position's vector (R274). -/
def vecBytes (format d : Nat) : Nat := if format = 0x0B then d / 32 * 28 else if format = 0x0A then d / 32 * 20 else 2 * d

/-- R271: format, head dimension and positions per page fit the page class. -/
def geoFits (format g : Nat) : Bool :=
  (format = 0 || format = 1 || format = 0x0A || format = 0x0B) && g < 32 && g % 4 ≠ 3 && g / 8 % 4 ≠ 3 &&
  64 + geoP g * (2 * vecBytes format (geoD g) + 8) ≤ 16384 * geoUnits g

namespace PoolDesc

def P (d : PoolDesc) : Nat := geoP d.geometry
def D (d : PoolDesc) : Nat := geoD d.geometry
def units (d : PoolDesc) : Nat := geoUnits d.geometry
def E (d : PoolDesc) : Nat := vecBytes d.format d.D
def pageBytes (d : PoolDesc) : Nat := 16384 * d.units
/-- Bytes of a page group of `c` pages a pair, rounded up to 64 (R300). -/
def groupSize (d : PoolDesc) (c : Nat) : Nat := (d.layers * d.heads * c * 8 + 63) / 64 * 64

end PoolDesc

/-- Pairs of a layer and a KV head; pair l × H + h. -/
def pairs (d : PoolDesc) : Nat := d.layers * d.heads

/-- The offsets of the score words and of the position IDs in a page (R274). -/
def scoreOff (format g : Nat) : Nat := 64 + 2 * geoP g * vecBytes format (geoD g)
def idOff (format g : Nat) : Nat := scoreOff format g + 4 * geoP g

/-- Pages of a bank that the KV region holds: page indices from the boundary to 383 in steps of the page class. -/
def bankPages (s : State) (d : PoolDesc) (k : Nat) : List Nat :=
  let lo := ((stackAt s k).boundary + d.units - 1) / d.units * d.units
  (List.range ((384 - lo) / d.units)).map fun i => lo + i * d.units

/-- Free pages of a bank, and of a stack. -/
def freeInBank (s : State) (p k b : Nat) : Nat :=
  (bankPages s (poolAt s p).desc k).length - ((poolAt s p).used.filter fun u => u / 512 = 8192 * k + b).length

def freeInStack (s : State) (p k : Nat) : Nat :=
  8192 * (bankPages s (poolAt s p).desc k).length
    - ((poolAt s p).used.filter fun u => u / 512 / 8192 = k).length

/-- Free pages of the partition's KV region (R272). -/
def kvFree (s : State) (p : Nat) : Nat :=
  if (poolAt s p).accepted then
    (((partStacks s p).filter fun k => pimStack s k && !(stackAt s k).failed).map (freeInStack s p)).sum
  else 0

/-! ## The cap in force (R449) -/

/-- Compute-active banks of a stack's row, and of each channel (R239). -/
def rowBudget (row : Nat) : Nat :=
  match row with
  | 0 | 1 => 2048
  | 2 => 1024
  | 3 => 512
  | _ => 0

/-- Net watts by lending: positive when received. -/
def Lend.net (l : Lend) : Int := (l.received : Int) - l.lent

/-- The lowest of the lent SET-CAP value, the external cap while CAP_ALERT_N is low, and 1,900 W. A SET-CAP value lowered while
watts are lent takes the cap no lower than the 900 W of R462 (DESIGN CHOICE, log 62). -/
def capInForce (s : State) : Nat :=
  let own := min (max 900 ((s.pmu.capSet : Int) + s.pmu.lend.net).toNat) 1900
  if s.pins.capAlertN then own else min own s.pmu.extWatts

/-- The shares of R450 in percent: compute dies, stacks, I/O. -/
def shares (profile : Nat) : Nat × Nat × Nat := if profile = 1 then (50, 38, 12) else (60, 28, 12)

/-! ## Duties (R451) -/

/-- A compute die is powered: from phase 3 on, but not in retention (R463). -/
def diesPowered (s : State) : Bool := s.boot.vsb && 3 ≤ s.boot.phase && s.pmu.sleep ≠ .asleep && s.pmu.sleep ≠ .power

/-- The duty in force on a die, in 64ths. -/
def duty (s : State) (die : Nat) : Nat :=
  if s.pmu.trip then 1
  else min s.pmu.dutyCap (min (s.pmu.dutyTherm[die]?.getD 64) (s.pmu.dutyCur[die]?.getD 64))

/-- How far a die's gate is open, in 64ths: closed by a droop, or reopening at 8/64 each microsecond (R455). -/
def gateOpen (s : State) (die : Nat) : Nat :=
  if s.pmu.gateClosed[die]?.getD false then 0
  else match s.pmu.reopenedAt[die]?.getD none with
    | some t => min (duty s die) (8 * ((now s - t) / 1000))
    | none => duty s die

/-- Whether throttle reason `r` is accruing (R459). -/
def throttled (s : State) : Nat → Bool
  | 0 => s.pmu.dutyCap < 64 || (s.dram.any fun k => k.2.rowTemp < s.pmu.row)
  | 1 => s.pmu.trip || s.pmu.dutyTherm.toList.any (· < 64) || s.dram.any fun k => 0 < k.2.rowTemp
  | 2 => (List.range 2).any fun d => gateOpen s d < duty s d
  | 3 => s.pmu.dutyCur.toList.any (· < 64)
  | 4 => s.pmu.lend.net < 0 && capInForce s < s.pmu.setCap
  | 5 => !s.pins.capAlertN
  | _ => false

/-- POWER.STATUS bits 29-24. -/
def activeBits (s : State) : Nat := ((List.range 6).map fun r => flag (throttled s r) r).sum

def powerFlags (s : State) : Nat := flag s.pmu.trip 7 + flag (s.pmu.sleep ≠ .awake) 6 + activeBits s

/-- POWER.STATUS (R465). The duty fields read 0 while the dies are unpowered. -/
def powerStatus (s : State) : Nat :=
  2 ^ 24 * powerFlags s + (if diesPowered s then 2 ^ 16 * (duty s 1 - 1) + 2 ^ 8 * (duty s 0 - 1) else 0) + s.pmu.profile

/-- A throttle count in microseconds, and energy in microjoules, as 64-bit registers. -/
def throttleUs (s : State) (r : Nat) : Nat := (s.pmu.throttle[r]?.getD 0) / 1000 % 2 ^ 64
def energyUj (s : State) : Nat := s.pmu.energy / 1000 % 2 ^ 64

/-! ## The time reference (R385) -/

/-- The numbered modules of the fabric map and this one, with whether each is PPS-locked. -/
def numbered (s : State) : List (Nat × Bool) :=
  (match s.fabric.node with | some n => [(n.toNat, s.time.ppsLock)] | none => [])
    ++ (s.fabric.map.filter (·.node != 0xFFFF)).map fun m => (m.node.toNat, m.ppsLock)

/-- The time reference: the lowest node among the locked ones, or of all when none is locked. -/
def timeReference (s : State) : Option Nat :=
  let all := numbered s
  let locked := all.filter (·.2)
  ((if locked = [] then all else locked).map (·.1)).min?

/-- This module is the time reference. -/
def isReference (s : State) : Bool := s.fabric.node.isSome && timeReference s = some (ownNode s)

/-! ## Port status (R390) -/

/-- FYANT.STATUS of a port. -/
def portStatus (p : Nat) (s : State) : Nat :=
  let x := portAt s p
  flag (x.state = .up) 31 + flag (x.state = .training || x.retraining) 30 + flag (x.state = .refused) 29
    + 2 ^ 24 * x.lanes.toNat + 2 ^ 16 * (x.epoch % 256)

/-! ## Who is served -/

/-- The PCIe host domain answers (R488, R490, R492). -/
def hostUp (s : State) : Bool := s.boot.vsb && !s.boot.inReset && !s.boot.pciDown

/-- The blocks that BAR0 serves in retention (R463): IDENT, IRQ, TIME, POWER, FAULT, SECURITY. -/
def standbyBlock (off : Nat) : Bool := off < 0x2000 || (0x4000 ≤ off && off < 0x8000)

/-- Whether BAR0 serves an offset now; elsewhere it reads all ones and drops writes (R463, R488). -/
def offServed (off : Nat) (s : State) : Bool :=
  if s.boot.ready then s.pmu.sleep = .awake || standbyBlock off
  else standbyBlock off || (0x2000 ≤ off && off ≤ 0x201B)

/-- Registers of the IDENT block (R477, R489). -/
def stackUp (s : State) (k : Nat) : Bool := 4 ≤ s.boot.phase && stackInService s k

def maskOf (n : Nat) (p : Nat → Bool) : Nat := ((List.range n).map fun b => flag (p b) b).sum

def identValue (off : Nat) (s : State) : Nat :=
  let b := s.boot
  match off with
  | 0x000 => 0x4C16 * 2 ^ 16 + (match s.fuse.grade with | .a => 0 | .b => 256) + s.fuse.revision.toNat
  | 0x004 => s.fuse.fuseWord.toNat
  | 0x008 => s.fuse.serial.toNat % 2 ^ 32
  | 0x00C => s.fuse.serial.toNat / 2 ^ 32
  | 0x010 => flag b.ready 31
  | 0x014 => 2 ^ 28 * b.phase + 2 ^ 24 * b.error + flag b.slotB 23 + flag b.patchB 22 + flag b.fullTrain 21
      + flag b.timeSet 20
  | 0x018 => b.bootTime.toNat
  | 0x01C => b.bootLap.toNat
  | 0x140 => 2 ^ 16 * maskOf 16 (fun k => stackUp s k && pimStack s k) + maskOf 16 (stackUp s)
  | 0x144 => 2 ^ 16 * s.fuse.cxlPorts.toNat + maskOf 16 (portPresent s)
  | _ =>
    if 0x020 ≤ off && off < 0x058 then
      if off % 8 = 0 then (tabGet 0 b.log ((off - 0x20) / 8)).toNat % 2 ^ 32 else (tabGet 0 b.logHi ((off - 0x20) / 8)).toNat
    else if 0x100 ≤ off && off < 0x140 then maskOf 32 fun i => tilePresent s (32 * ((off - 0x100) / 4) + i)
    else 0

/-! ## IRQ (R467, R472) -/

/-- Leaf register `k` of group `g`, and how many leaf registers a group has. -/
def leafAt (i : Irq) (g k : Nat) : Leaf := if g = 0 then i.queue[k]?.getD ⟨0, 0⟩ else if k = 0 then groupLeaf i g else ⟨0, 0⟩

def irqValue (fn off : Nat) (s : State) : Nat :=
  let f := irqFn s fn
  match off with
  | 0x1000 => (irqSummary s fn).toNat
  | 0x1004 => f.enable.toNat
  | 0x1008 => f.holdoff.toNat
  | 0x1010 => flag f.fired 31 + flag (fn = 0 && !s.pins.irqN) 30
  | _ =>
    if off < 0x1100 || 0x1900 ≤ off then 0 else
    let g := (off - 0x1100) / 0x100
    let r := off % 0x100
    if r = 0 then
      (if g = 0 then (queueCause s fn).toNat else if fn = 0 then flag ((groupLeaf s.irq g).live ≠ 0) 0 else 0)
    else if r < 0x10 then 0
    else
      let l := leafAt s.irq g ((r - 0x10) / 8)
      ((if (r - 0x10) % 8 = 0 then l.cause else l.enable) &&& leafMask s fn g ((r - 0x10) / 8)).toNat

/-! ## QUEUE, TIME, POWER, FAULT, SECURITY -/

def queueValue (fn off : Nat) (s : State) : Nat :=
  let a := s.front.admin
  let base := (s.front.bar2Base[fn]?.getD 0).toNat
  if 0x2200 ≤ off && off < 0x2220 then
    maskOf 32 fun b =>
      let q := 32 * ((off - 0x2200) / 4) + b
      (queueAt s q).stopped && ownsQueue s fn q
  else if off = 0x2100 then base % 2 ^ 32
  else if off = 0x2104 then base / 2 ^ 32
  else if fn ≠ 0 then 0
  else match off with
    | 0x2000 => a.sqLo.toNat
    | 0x2004 => a.sqHi.toNat
    | 0x2008 => a.replyLo.toNat
    | 0x200C => a.replyHi.toNat
    | 0x2010 => a.shadowLo.toNat
    | 0x2014 => a.shadowHi.toNat
    | 0x2018 => a.cfg.toNat + flag (queueAt s 0).active 30
    | 0x2108 => s.front.bar2Part
    | _ => 0

def timeValue (off : Nat) (s : State) : Nat :=
  match off with
  | 0x4000 => now s % 2 ^ 32
  | 0x4004 => s.time.nowHi.toNat
  | 0x4008 => flag s.time.synced 31 + flag s.time.ppsLock 30 + flag (s.time.slewLeft ≠ 0) 29 + s.time.offset.toNat
  | 0x4010 => s.time.ppsLast.toNat % 2 ^ 32
  | 0x4014 => s.time.ppsLastHi.toNat
  | _ => 0

/-- POWER.ISLAND_STAT (R69): VOLTAGE_MV and RATE_MBPS read 0 while unpowered, and for a tile island whose tiles are all
fused off. TEMP_C reads 0 then too: R69 says nothing of it (DESIGN CHOICE, log 61). -/
def islandValue (n : Nat) (s : State) : Nat :=
  let x := islandAt s n
  let anyTile := n % 12 ≥ 8 || (List.range 512).any fun t => tileIsland t = n && tilePresent s t
  if diesPowered s && anyTile then 2 ^ 20 * (x.mv % 4096) + 2 ^ 8 * (x.rate % 4096) + min x.temp 255 else 0

def powerValue (off : Nat) (s : State) : Nat :=
  match off with
  | 0x5000 => powerStatus s
  | 0x5004 => 2 ^ 16 * s.pmu.setCap + capInForce s
  | 0x5008 => 2 ^ 16 * s.pmu.extDuty + s.pmu.extWatts
  | 0x500C => 2 ^ 16 * s.pmu.vset + s.pmu.vfloor
  | 0x5010 => energyUj s % 2 ^ 32
  | 0x5014 => s.pmu.energyHi.toNat
  | _ =>
    if 0x5020 ≤ off && off < 0x5050 then
      if off % 8 = 0 then throttleUs s ((off - 0x5020) / 8) % 2 ^ 32
      else (s.pmu.throttleHi[(off - 0x5020) / 8]?.getD 0).toNat
    else if 0x5100 ≤ off && off < 0x5160 then islandValue ((off - 0x5100) / 4) s
    else 0

/-- FAULT (R422): a virtual function sees the tag of its partition only. -/
def faultValue (fn off : Nat) (s : State) : Nat :=
  let f := s.faults
  if 0x6040 ≤ off && off < 0x6050 then
    let n := (off - 0x6040) / 4
    if fn = 0 || partOfFn s fn = some n then (tabGet 0 f.tags n).toNat else 0
  else if fn ≠ 0 then 0
  else match off with
    | 0x6000 => flag (f.restart ≠ .none) 31 + flag f.wrapped 30 + f.records.length
    | 0x6004 => f.next % 2 ^ 32
    | 0x6008 => flag f.collectorOn 31 + f.collectorNode.toNat
    | 0x600C => f.retries.toNat
    | 0x6010 => f.repairs.toNat
    | 0x6014 => f.repairFails.toNat
    | 0x6018 => f.plausibility.toNat
    | _ => 0

def securityValue (off : Nat) (s : State) : Nat :=
  if off = 0x7000 then
    flag s.security.lockout 31 + flag s.fuse.debugFused 30
      + 2 ^ 26 * maskOf 4 (fun n => (partAt s n).switch ≠ .none)
      + 2 ^ 22 * maskOf 4 (fun n => ((partAt s n).isOpen || (partAt s n).closing) && (partAt s n).confidential)
      + 2 ^ 18 * maskOf 4 (fun n => (bounceAt s n).live)
  else if 0x7010 ≤ off && off < 0x7020 then (bounceAt s ((off - 0x7010) / 4)).fails.toNat
  else if 0x7020 ≤ off && off < 0x7030 then
    (if (bounceAt s ((off - 0x7020) / 4)).live then (bounceAt s ((off - 0x7020) / 4)).frames else 0)
  else if 0x7040 ≤ off && off < 0x7060 then
    let b := bounceAt s ((off - 0x7040) / 8)
    let a := if b.live then b.address.toNat else 0
    if off % 8 = 0 then a % 2 ^ 32 else a / 2 ^ 32
  else 0

/-! ## SERVE (R311, R319, R322, R338, R272) -/

def ReqState.code : ReqState → Nat
  | .listening => 1
  | .turnEnd => 2
  | .answering => 3

/-- The 64 bytes of a request record (R311). -/
def Request.bytes (r : Request) : List Byte :=
  toLe 2 r.customer ++ toLe 1 r.state.code
    ++ toLe 1 (flag r.feedBack 0 + flag r.inStep 1 + flag r.deferred 2 + flag r.fell 3 + flag r.adopting 4)
    ++ toLe 1 r.part ++ toLe 1 r.chunks.length ++ toLe 2 r.prefixSet ++ toLe 4 r.firstTarget ++ toLe 4 r.betweenTarget
    ++ toLe 8 r.table ++ toLe 8 r.turnStart ++ toLe 8 r.lastToken
    ++ toLe 4 ((r.chunks.map fun x => x.positions - x.offset).sum) ++ toLe 2 r.firstFalls ++ toLe 2 r.betweenFalls
    ++ toLe 8 r.consumed.toNat ++ toLe 8 r.produced.toNat

/-- The 32 bytes of a customer record (R319). -/
def Customer.bytes (x : Customer) : List Byte :=
  toLe 4 x.rate ++ toLe 4 x.burst ++ toLe 4 x.grace ++ toLe 1 x.part ++ [1] ++ toLe 2 x.deferrals
    ++ toLe 8 (x.level % 2 ^ 64).toNat ++ toLe 8 x.lastRefill

/-- Whether a function may read a record of partition `p`; requests of a confidential partition are hidden from all
others (R338, R425). -/
def mayRead (fn p : Nat) (request : Bool) (s : State) : Bool :=
  partOfFn s fn = some p || (fn = 0 && !(request && ((partAt s p).isOpen || (partAt s p).closing) && (partAt s p).confidential))

/-- SERVE.RECORD k of a function's selection. -/
def recordWord (fn k : Nat) (s : State) : Nat :=
  let sel := (s.serve.recordSel[fn]?.getD 0).toNat
  let n := sel % 2 ^ 16
  if sel ≥ 2 ^ 31 then
    match customerAt s n with
    | some x => if mayRead fn x.part false s then field x.bytes (4 * k) 4 else 0
    | none => 0
  else
    match requestAt s n with
    | some r => if mayRead fn r.part true s then field r.bytes (4 * k) 4 else 0
    | none => 0

/-- Whether a function sees the registers of partition `p`. -/
def seesPart (fn p : Nat) (s : State) : Bool := fn = 0 || partOfFn s fn = some p

def planningValue (off : Nat) (s : State) : Nat :=
  let pl := tabGet ({} : Planning) s.serve.planning ((off - 0x8100) / 16)
  match off % 16 with
  | 0 => pl.base.toNat
  | 4 => pl.decode.toNat
  | 8 => pl.prefill.toNat
  | _ => pl.horizon.toNat

def kvValue (off : Nat) (s : State) : Nat :=
  let n := (off - 0x8800) / 64
  let p := poolAt s n
  match off % 64 with
  | 0x00 => p.lo.toNat
  | 0x04 => p.hi.toNat
  | 0x08 => flag p.accepted 31 + flag p.rejected 30
  | 0x0C => kvFree s n
  | 0x10 => p.walkSkips.toNat
  | 0x14 => p.cow.toNat
  | _ => 0

def serveValue (fn off : Nat) (s : State) : Nat :=
  if 0x8040 ≤ off && off < 0x8080 then recordWord fn ((off - 0x8040) / 4) s
  else if 0x8100 ≤ off && off < 0x8140 then (if seesPart fn ((off - 0x8100) / 16) s then planningValue off s else 0)
  else if 0x8800 ≤ off && off < 0x8900 then (if seesPart fn ((off - 0x8800) / 64) s then kvValue off s else 0)
  else if off = 0x800C then (s.serve.recordSel[fn]?.getD 0).toNat
  else if fn ≠ 0 then 0
  else match off with
    | 0x8000 => flag s.serve.flagIrq 31
    | 0x8004 => 2 ^ 16 * s.serve.fallsFirst.toNat + s.serve.fallsBetween.toNat
    | 0x8008 => s.serve.deferrals.toNat
    | _ => 0

/-! ## STACK, FYANT, FAR, TILE -/

def laneValue (l : Lane) : Nat := 2 ^ 24 * l.spare0 + 2 ^ 16 * l.spare1 + 2 ^ 8 * l.lost + min l.weak 255

def activeBanks (k : Stack) : Nat := (k.banks.filter fun b => b.2.run.isSome || b.2.taken).length

/-- STACK.PIM_STAT (R269): its low bits read 0 during the lockout (R425). -/
def pimStat (s : State) (n : Nat) : Nat :=
  let k := stackAt s n
  2 ^ 29 * k.row + flag (k.rowTemp < k.rowPmu) 28
    + if s.security.lockout then 0 else 2 ^ 12 * min k.queue.length 4095 + activeBanks k

def stackValue (n r : Nat) (s : State) : Nat :=
  let k := stackAt s n
  let pim := pimStack s n
  match r with
  | 0x000 => flag k.trained 31 + flag (pim && 4 ≤ s.boot.phase) 30 + flag k.degraded 29 + flag k.failed 28 + flag k.hot 27
      + min k.temp 255
  | 0x004 => if pim then k.boundary else 0
  | 0x008 => k.corr.toNat
  | 0x00C => k.uncorr.toNat
  | 0x010 => k.lapUs.toNat
  | 0x020 => if pim then pimStat s n else 0
  | 0x024 => if pim && !s.security.lockout then k.runs.toNat else 0
  | 0x028 => if pim && !s.security.lockout then k.lockWait.toNat else 0
  | _ => if 0x100 ≤ r && r < 0x180 then laneValue (tabGet {} k.lanes ((r - 0x100) / 4)) else 0

/-- Registers of a FYANT page (R390): a port's own below 0x800, the fabric's above. -/
def fyantValue (p r : Nat) (s : State) : Nat :=
  let x := portAt s p
  let f := s.fabric
  if r < 0x800 then
    if !portPresent s p then 0 else
    match r with
    | 0x000 => portStatus p s
    | 0x004 => x.peerSerial.toNat % 2 ^ 32
    | 0x008 => x.peerSerial.toNat / 2 ^ 32
    | 0x00C => 2 ^ 16 * x.peerNode.toNat + x.peerPort.toNat
    | 0x010 => x.crcRetry.toNat
    | 0x014 => x.fecCorr.toNat
    | 0x018 => x.retrains.toNat
    | 0x01C => x.tagFail.toNat
    | _ => 0
  else match r with
    | 0x800 => flag f.dup 31 + (f.node.getD 0xFFFF).toNat
    | 0x804 => s.fuse.serial.toNat % 2 ^ 32
    | 0x808 => s.fuse.serial.toNat / 2 ^ 32
    | 0x80C => flag (isReference s) 31 + 2 ^ 20 * f.dropped.toNat + min f.map.length (2 ^ 20 - 1)
    | _ => if 0x900 ≤ r && r < 0xA00 then (tabGet 0 f.admission ((r - 0x900) / 4)).toNat else 0

def farValue (off : Nat) (s : State) : Nat :=
  let f := s.far
  match off with
  | 0x30000 => flag f.up0 31 + flag f.up1 30 + flag (f.up0 && f.fast0) 29 + flag (f.up1 && f.fast1) 28
  | 0x30004 => flag f.interleave 0
  | 0x30008 => f.cap0 % 2 ^ 15
  | 0x3000C => f.cap1 % 2 ^ 15
  | 0x30010 => f.poisonCount.toNat
  | _ =>
    if 0x30100 ≤ off && off < 0x30120 then
      tabGet 0 (if off % 8 = 0 then f.base else f.size) ((off - 0x30100) / 8)
    else 0

/-- A tile's beat count (R145): the largest of its CC's and engines'. -/
def Tile.count (x : Tile) : Nat :=
  max x.beats (max (max x.mx.beats x.vx.beats) (max x.sx.beats x.dx.beats))

/-- Scoreboard entries held (R137). -/
def Engine.held (e : Engine) : Nat := (e.queue.map fun x => x.regions.length).sum
def Tile.held' (x : Tile) : Nat := x.mx.held + x.vx.held + x.sx.held + x.dx.held

/-- The partition whose a tile is; a confidential one's it stays until its close completes (R423). -/
def tileOwner (s : State) (t : Nat) : Option Nat := (List.range 4).find? fun p =>
  let x := partAt s p
  let r := shapeTiles x.shape x.index
  (x.isOpen || (x.closing && x.confidential)) && r.1 ≤ t && t < r.1 + r.2

/-- Whether a tile's registers are hidden from a function (R475, R478). -/
def tileHidden (fn t : Nat) (s : State) : Bool :=
  match tileOwner s t with
  | some p => (fn ≠ 0 || (partAt s p).confidential) && !((partAt s p).vf = fn)
  | none => fn ≠ 0

def tileValue (fn t r : Nat) (s : State) : Nat :=
  let x := tileAt s t
  if tileHidden fn t s then
    (if r = 0 && (fn = 0 || (match tileOwner s t with | some p => (partAt s p).confidential | none => false)) then
      flag (tilePresent s t) 31 else 0)
  else match r with
    | 0x00 => flag (tilePresent s t) 31 + flag (s.jobs.programs.any fun p => p.tiles.contains t) 30 + flag x.running 29
        + flag (x.running && x.twin.isSome) 28 + 2 ^ 16 * min x.held' 64
    | 0x04 => x.count % 2 ^ 32
    | 0x08 => x.beatsHi.toNat
    | 0x0C => tileIsland t
    | _ => 0

/-! ## The whole map (R474, R475) -/

/-- The value of a served register in a function's view. -/
def regValue (fn off : Nat) (s : State) : Nat :=
  if off % 4 ≠ 0 then 0
  else if off < 0x1000 then identValue off s
  else if off < 0x2000 then irqValue fn off s
  else if off < 0x4000 then queueValue fn off s
  else if off < 0x5000 then timeValue off s
  else if off < 0x6000 then (if fn = 0 then powerValue off s else 0)
  else if off < 0x7000 then faultValue fn off s
  else if off < 0x8000 then (if fn = 0 then securityValue off s else 0)
  else if off < 0x9000 then serveValue fn off s
  else if off < 0x10000 then 0
  else if 0x40000 ≤ off && off < 0x60000 then tileValue fn ((off - 0x40000) / 256) (off % 256) s
  else if fn ≠ 0 then 0
  else if off < 0x20000 then stackValue ((off - 0x10000) / 4096) (off % 4096) s
  else if off < 0x30000 then fyantValue ((off - 0x20000) / 4096) (off % 4096) s
  else if off < 0x31000 then farValue off s
  else 0

/-! ## What a read does -/

/-- The latches of R82, R460, R465, R478, R489. -/
def latchAfter (fn off : Nat) (s : State) : State :=
  let hi (n : Nat) : W32 := BitVec.ofNat 32 (n / 2 ^ 32)
  if off = 0x4000 then { s with time := { s.time with nowHi := hi (now s) } }
  else if off = 0x4010 then { s with time := { s.time with ppsLastHi := hi s.time.ppsLast.toNat } }
  else if 0x020 ≤ off && off < 0x058 && off % 8 = 0 then
    let k := (off - 0x20) / 8
    { s with boot := { s.boot with logHi := tabSet 0 s.boot.logHi k (hi (tabGet 0 s.boot.log k).toNat) } }
  else if 0x40000 ≤ off && off < 0x60000 && off % 256 = 4 then
    let t := (off - 0x40000) / 256
    if tileHidden fn t s then s else setTile s t { tileAt s t with beatsHi := hi (tileAt s t).count }
  else if fn ≠ 0 then s
  else if off = 0x5010 then { s with pmu := { s.pmu with energyHi := hi (energyUj s) } }
  else if 0x5020 ≤ off && off < 0x5050 && off % 8 = 0 then
    let r := (off - 0x5020) / 8
    { s with pmu := { s.pmu with throttleHi := s.pmu.throttleHi.setIfInBounds r (hi (throttleUs s r)) } }
  else s

/-- The read-to-clear registers of a stack (R229, R269, R425). -/
def clearStack (n r : Nat) (s : State) : State :=
  let k := stackAt s n
  match r with
  | 0x008 => setStack s n { k with corr := 0 }
  | 0x00C => setStack s n { k with uncorr := 0 }
  | 0x024 => if s.security.lockout then s else setStack s n { k with runs := 0 }
  | 0x028 => if s.security.lockout then s else setStack s n { k with lockWait := 0 }
  | _ => s

/-- The read-to-clear registers of a port (R390). -/
def clearPort (p r : Nat) (s : State) : State :=
  let x := portAt s p
  match r with
  | 0x010 => setPort s p { x with crcRetry := 0 }
  | 0x014 => setPort s p { x with fecCorr := 0 }
  | 0x018 => setPort s p { x with retrains := 0 }
  | 0x01C => setPort s p { x with tagFail := 0 }
  | _ => s

/-- The read-to-clear registers of FAULT (R422). -/
def clearFault (off : Nat) (s : State) : State :=
  let f := s.faults
  match off with
  | 0x600C => { s with faults := { f with retries := 0 } }
  | 0x6010 => { s with faults := { f with repairs := 0 } }
  | 0x6014 => { s with faults := { f with repairFails := 0 } }
  | 0x6018 => { s with faults := { f with plausibility := 0 } }
  | _ => s

/-- The read-to-clear registers of SERVE and KV (R338, R272). -/
def clearServe (fn off : Nat) (s : State) : State :=
  if 0x8800 ≤ off && off < 0x8900 then
    let n := (off - 0x8800) / 64
    if !seesPart fn n s then s
    else if off % 64 = 0x10 then setPool s n { poolAt s n with walkSkips := 0 }
    else if off % 64 = 0x14 then setPool s n { poolAt s n with cow := 0 }
    else s
  else if fn ≠ 0 then s
  else if off = 0x8004 then { s with serve := { s.serve with fallsFirst := 0, fallsBetween := 0 } }
  else if off = 0x8008 then { s with serve := { s.serve with deferrals := 0 } }
  else s

/-- What a served read clears. -/
def clearAfter (fn off : Nat) (s : State) : State :=
  if 0x8000 ≤ off && off < 0x9000 then clearServe fn off s
  else if fn ≠ 0 then s
  else if 0x6000 ≤ off && off < 0x7000 then clearFault off s
  else if 0x7010 ≤ off && off < 0x7020 && off % 4 = 0 then
    setBounce s ((off - 0x7010) / 4) { bounceAt s ((off - 0x7010) / 4) with fails := 0 }
  else if 0x10000 ≤ off && off < 0x20000 then clearStack ((off - 0x10000) / 4096) (off % 4096) s
  else if 0x20000 ≤ off && off < 0x30000 then
    (if portPresent s ((off - 0x20000) / 4096) then clearPort ((off - 0x20000) / 4096) (off % 4096) s else s)
  else if off = 0x30010 then { s with far := { s.far with poisonCount := 0 } }
  else s

/-- A read of a register by a function's BAR0, or by the Lockkeeper as the physical function (log 24). -/
def regRead (fn off : Nat) (s : State) : W32 × State :=
  if offServed off s then
    (BitVec.ofNat 32 (regValue fn off s), if off % 4 = 0 then clearAfter fn off (latchAfter fn off s) else s)
  else (0xFFFFFFFF, s)

end Sys2Proof.Machine
end

