-- ==== Sys2Proof/Machine/Operands.lean ====
section
/-!
DEFINITION. The operands of a packet command: the opcode table with its parameters (02 R27, R41, R62, R345), the fields
of a packet, the checks of R48 steps 7 to 9 on them, control data (R504), and how a command's row ends (R55-R57).
-/

namespace Sys2Proof.Machine

/-! ## The opcode table -/

/-- One opcode: whether it is accepted only on queue 0, whether it must carry a job handle (R345), and its parameter
fields as (packet offset, size). -/
structure OpRow where
  op : Nat
  q0 : Bool
  job : Bool
  fields : List (Nat × Nat)
deriving DecidableEq, Repr

def opsJobs : List OpRow :=
  [⟨0x0101, true, false, [(16, 2), (18, 1), (19, 1), (20, 4), (24, 8), (32, 8), (40, 8)]⟩,
   ⟨0x0102, true, false, [(16, 2)]⟩, ⟨0x0103, true, false, [(16, 1), (17, 1), (18, 1), (19, 1)]⟩,
   ⟨0x0104, true, false, [(16, 1)]⟩, ⟨0x0105, false, false, [(16, 8), (24, 4), (28, 1)]⟩,
   ⟨0x0106, false, true, []⟩, ⟨0x0107, false, true, [(16, 4)]⟩]

def opsMemory : List OpRow :=
  [⟨0x0201, false, false, [(16, 8), (24, 8), (32, 8)]⟩, ⟨0x0202, false, false, [(16, 8), (24, 8), (32, 4)]⟩,
   ⟨0x0203, false, false, [(16, 8), (24, 8), (32, 1), (33, 1), (40, 8)]⟩,
   ⟨0x0204, false, false, [(16, 8), (24, 8), (32, 8)]⟩, ⟨0x0205, false, false, [(16, 1), (20, 4)]⟩,
   ⟨0x0206, false, false, [(16, 8), (24, 8), (32, 2)]⟩]

def opsPrograms : List OpRow :=
  [⟨0x0301, false, true, [(16, 8), (24, 4), (28, 2), (30, 2)]⟩,
   ⟨0x0302, false, true, [(16, 4), (20, 2), (22, 2), (24, 8), (32, 1)]⟩, ⟨0x0303, false, true, [(16, 4)]⟩,
   ⟨0x0304, false, false, [(16, 1), (17, 1), (18, 1), (19, 1), (20, 2), (22, 1)]⟩]

def opsServing : List OpRow :=
  [⟨0x0401, false, false, [(16, 2), (20, 4), (24, 4), (28, 4)]⟩,
   ⟨0x0402, false, true, [(16, 2), (18, 2), (20, 4), (24, 4), (28, 8), (36, 1)]⟩, ⟨0x0403, false, false, [(16, 4)]⟩,
   ⟨0x0404, false, false, [(16, 4), (20, 2), (22, 1), (24, 8)]⟩,
   ⟨0x0405, false, false, [(16, 8), (24, 4), (28, 2)]⟩, ⟨0x0406, false, true, [(16, 4), (24, 8)]⟩]

def opsPages : List OpRow :=
  [⟨0x0407, false, false, [(16, 4), (20, 4)]⟩, ⟨0x0408, false, false, [(16, 4), (24, 8), (32, 4)]⟩,
   ⟨0x0409, false, false, [(16, 4), (20, 4), (24, 2), (26, 2)]⟩, ⟨0x040A, false, false, [(16, 4)]⟩,
   ⟨0x040B, false, false, [(16, 4), (24, 8), (32, 4)]⟩, ⟨0x040C, false, false, [(16, 4), (20, 4), (24, 4)]⟩,
   ⟨0x040D, false, false, [(16, 2), (24, 8)]⟩, ⟨0x040E, false, false, [(16, 4), (20, 4), (24, 4)]⟩,
   ⟨0x040F, false, false, [(16, 4), (20, 4), (24, 4)]⟩, ⟨0x0410, false, false, [(16, 4), (20, 2), (24, 4)]⟩,
   ⟨0x0411, false, false, [(16, 4)]⟩]

def opsWeights : List OpRow :=
  [⟨0x0501, false, false, [(16, 8), (24, 8), (32, 8), (40, 8)]⟩, ⟨0x0502, false, false, [(16, 4)]⟩,
   ⟨0x0503, false, false, [(16, 4)]⟩]

def opsFabric : List OpRow :=
  [⟨0x0601, true, false, [(16, 8), (24, 4)]⟩, ⟨0x0602, true, false, [(16, 2)]⟩,
   ⟨0x0603, true, false, [(16, 1), (17, 1), (18, 2), (24, 8)]⟩, ⟨0x0604, true, false, [(16, 1), (24, 8)]⟩,
   ⟨0x0605, true, false, [(16, 1)]⟩, ⟨0x0606, false, false, []⟩]

def opsPower : List OpRow :=
  [⟨0x0701, true, false, [(16, 4)]⟩, ⟨0x0702, true, false, [(16, 1)]⟩,
   ⟨0x0703, true, false, [(16, 4), (20, 2), (24, 8)]⟩, ⟨0x0704, true, false, []⟩, ⟨0x0705, false, false, [(16, 8)]⟩]

def opsRest : List OpRow :=
  [⟨0x0801, false, false, [(16, 8), (24, 4), (32, 32)]⟩, ⟨0x0802, false, false, [(16, 1)]⟩,
   ⟨0x0901, false, false, [(16, 8)]⟩, ⟨0x0902, false, false, [(16, 8), (24, 4), (28, 4)]⟩,
   ⟨0x0903, true, false, [(16, 8), (24, 2)]⟩, ⟨0x0904, false, false, [(16, 8), (24, 4)]⟩,
   ⟨0x0905, true, false, [(16, 1), (17, 1), (18, 1), (19, 1), (20, 4), (24, 8), (32, 8)]⟩,
   ⟨0x0906, true, false, [(16, 8)]⟩]

/-- The opcodes of R62. -/
def opTable : List OpRow :=
  opsJobs ++ opsMemory ++ opsPrograms ++ opsServing ++ opsPages ++ opsWeights ++ opsFabric ++ opsPower ++ opsRest

def opRow (op : Nat) : Option OpRow := opTable.find? (·.op == op)

/-- The parameter length implied by the end of the last field, in 8-byte units (R41). -/
def OpRow.units (r : OpRow) : Nat := (r.fields.foldl (fun a f => max a (f.1 + f.2 - 16)) 0 + 7) / 8

/-- The packet offsets of an opcode's fabric addresses (R62); COPY-TENSOR's third descriptor is tested where it is used. -/
def addressFields (op : Nat) : List Nat :=
  match op with
  | 0x0105 | 0x0202 | 0x0206 | 0x0301 | 0x0405 | 0x0601 | 0x0705 | 0x0801 | 0x0901 | 0x0902 | 0x0903 | 0x0904 | 0x0906 => [16]
  | 0x0201 | 0x0203 => [16, 24]
  | 0x0204 => [16, 32]
  | 0x0302 | 0x0404 | 0x0406 | 0x0408 | 0x040B | 0x040D | 0x0603 | 0x0604 | 0x0703 => [24]
  | 0x0501 => [16, 32, 40]
  | 0x0905 => [32]
  | _ => []

/-- The packet offset of the first byte outside the fields that is not zero (R8, R41, R42). -/
def OpRow.stray (r : OpRow) (params : List Byte) : Option Nat :=
  ((params.zipIdx 16).find? fun b => b.1 ≠ 0 && !r.fields.any fun f => f.1 ≤ b.2 && b.2 < f.1 + f.2).map (·.2)

/-! ## The packet -/

def flagRetriable : Nat := 0
def flagFence : Nat := 1
def flagReply : Nat := 2
def flagInterrupt : Nat := 3
def flagExt : Nat := 4

def Cmd.flag (c : Cmd) (k : Nat) : Bool := c.flags.getLsbD k

/-- The `n`-byte number at packet byte `a`. -/
def Cmd.at (c : Cmd) (a n : Nat) : Nat := field c.params (a - 16) n

/-- The address at packet byte `a`. -/
def Cmd.addr (c : Cmd) (a : Nat) : W64 := BitVec.ofNat 64 (c.at a 8)

/-! ## Statuses -/

def Mark.badParam (off : Nat) : Mark := ⟨0x11, off, 0⟩
def Mark.notPermitted : Mark := ⟨0x14, 9, 0⟩
def Mark.busy : Mark := ⟨0x16, 0, 0⟩
def Mark.absent (n : Nat) : Mark := ⟨0x15, 0, n⟩
def Mark.done (r : Nat) : Mark := ⟨0, 0, r⟩
/-- R504: poisoned control data. -/
def Mark.poisoned (words : Nat) : Mark := ⟨0x30, 4, words⟩
def Mark.timeout (bytes : Nat) : Mark := ⟨0x32, 0, bytes⟩

/-- BAD_PARAM of a packet field, or 0xFF of a field of an extended block (R503). -/
def Cmd.bad (c : Cmd) (off : Nat) : Mark := .badParam (if c.ext then 0xFF else off)

/-! ## Checks: pure, with the control data they read written down -/

/-- Why a check does not go on: a status that rejects the command, another node's decision on a whole range or control data
that has still to come from there (R183), or control data that has to come from registers (R182). -/
inductive Stop where
  | status (m : Mark)
  | whole (a : W64) (n : Nat)
  | remote (a : W64) (n : Nat)
  | register (a : W64) (n : Nat)
deriving DecidableEq, Repr

/-- A check answers a value or why it stops, and lists the pieces of control data it read. -/
abbrev Chk (α : Type) := ExceptT Stop (StateM (List (Home × Nat))) α

/-- Reject with a status. -/
def fail {α : Type} (m : Mark) : Chk α := throw (.status m)

/-- Reject with a status unless a condition holds. -/
def need (p : Bool) (m : Mark) : Chk Unit := if p then pure () else fail m

/-- The partition that queue 0's addresses are read in: that of QUEUE.BAR2_PART; none for host addresses, and none while
that partition is confidential, whose data leaves only by its bounce buffers (R23, R182; log 14). -/
def adminPart (s : State) (a : W64) : Option Nat :=
  if spaceOf a = 3 || (partAt s s.front.bar2Part).confidential then none else some s.front.bar2Part

/-- The partition that a command's address is read in: its queue's, or queue 0's. -/
def Cmd.partFor (c : Cmd) (s : State) (a : W64) : Option Nat := if c.part = 0xFF then adminPart s a else some c.part

/-- What a command's range reaches (R184, R185: the Lockkeeper). -/
def Cmd.place (c : Cmd) (s : State) (a : W64) (n : Nat) : Except AddrErr Place := resolve s .lockkeeper (c.partFor s a) a n

/-- The status of an address error (R184). -/
def Cmd.addrMark (c : Cmd) (off : Nat) : AddrErr → Mark
  | .param => c.bad off
  | .absent u => .absent u
  | .denied => .notPermitted

/-- The address ranges a command names, in packet order: reserved forms first, then absent units, then permissions
(R48 steps 7 to 9). An address in space 0x1 needs a job handle (R345). -/
def Cmd.ranges (c : Cmd) (s : State) (rs : List (Nat × W64 × Nat)) : Except Mark Unit :=
  let es := rs.filterMap fun r => match c.place s r.2.1 r.2.2 with
    | .error e => some (r.1, e)
    | .ok _ => none
  match es.find? (·.2 == .param) with
  | some e => .error (c.bad e.1)
  | none =>
    if c.job = 0 && rs.any (fun r => spaceOf r.2.1 = 1) then .error (.badParam 12)
    else match es.find? (fun e => match e.2 with | .absent _ => true | _ => false) with
      | some e => .error (c.addrMark e.1 e.2)
      | none => if es = [] then .ok () else .error .notPermitted

def Cmd.checkRanges (c : Cmd) (s : State) (rs : List (Nat × W64 × Nat)) : Chk Unit := liftExcept (c.ranges s rs)
where
  liftExcept {α : Type} : Except Mark α → Chk α
    | .ok x => pure x
    | .error m => fail m

/-- The checks of ranges with a unit that must be present: reserved forms, then the unit, then permissions (R48). -/
def Cmd.rangesAnd (c : Cmd) (s : State) (unit : Nat) (present : Bool) (rs : List (Nat × W64 × Nat)) : Chk Unit :=
  match c.ranges s rs with
  | .error m => if m.status = 0x11 then fail m else if present then fail m else fail (.absent unit)
  | .ok _ => need present (.absent unit)

/-- R345: a command whose parameters or descriptors name space 0x1 carries a job handle. -/
def Cmd.jobless (c : Cmd) (a : W64) : Bool := c.job = 0 && spaceOf a = 1

/-- The aligned words of bytes at `a` that hold a poisoned byte. -/
def poisonedWords (a : Nat) (bs : List PByte) : Nat :=
  (((bs.zipIdx a).filter (·.1.2)).map fun p => p.2 / 8).eraseDups.length

/-- Control data that came from another node or from registers. -/
def Cmd.block (c : Cmd) (a : W64) (n : Nat) : Option (List PByte) :=
  (c.blocks.find? fun b => b.1 = a && b.2.length = n).map (·.2)

/-- Control data in hand: a poisoned word rejects the command (R504). -/
def controlBytes (a : W64) (bs : List PByte) : Chk (List Byte) :=
  if bs.any (·.2) then fail (.poisoned (poisonedWords a.toNat bs)) else pure (bs.map (·.1))

/-- Read control data at an address that the packet field at `off` gives (R504): here, from registers, or from another
node (R182, R183, R185). -/
def Cmd.control (c : Cmd) (s : State) (off : Nat) (a : W64) (n : Nat) : Chk (List Byte) := do
  match c.place s a n with
  | .error .param => fail (c.bad off)
  | _ => need (!c.jobless a) (.badParam 12)
  match c.place s a n with
  | .error e => fail (c.addrMark off e)
  | .ok (.near ps) => do
    modify (· ++ ps)
    let g := (getPieces false ps s).1
    if g.poisoned ≠ 0 then fail (.poisoned g.poisoned) else pure g.bytes
  | .ok (.remote _) =>
    if n = 0 then pure [] else
    match c.block a n with
    | some bs => controlBytes a bs
    | none => throw (.remote a n)
  | .ok (.reg _) => match c.block a n with
    | some bs => controlBytes a bs
    | none => throw (.register a n)

/-- A range of another node has its decision before any byte of it moves (R183). -/
def Cmd.admission (c : Cmd) (s : State) (a : W64) (n : Nat) : Chk Unit :=
  match c.place s a n with
  | .ok (.remote _) => if c.admitted = some true then pure () else throw (.whole a n)
  | _ => pure ()

/-! ## How a row ends -/

/-- A rejection: start and end are the time of the failing check (R55). -/
def rejectCmd (id : Nat) (m : Mark) (s : State) : State :=
  updCmd id (fun c => { c with phase := .ended, rejected := true, start := now s, stop := now s, marks := [m] }) s

/-- The command ends with these statuses; what it counted is added when its reply is made (R56). -/
def finishCmd (id : Nat) (ms : List Mark) (s : State) : State :=
  updCmd id (fun c => { c with phase := .ended, stop := now s, marks := c.marks ++ ms }) s

/-- It ends with DONE and a result word. -/
def doneCmd (id result : Nat) (s : State) : State := finishCmd id [.done result] s

/-- The command starts, or goes on, waiting for another command (R39). -/
def waitCmd (id : Nat) (s : State) : State :=
  updCmd id (fun c => { c with waitSince := some (c.waitSince.getD (now s)) }) s

/-- Its wait is over. -/
def resumeCmd (id : Nat) (s : State) : State :=
  updCmd id (fun c => match c.waitSince with
    | some t => { c with waitSince := none, waited := c.waited + (now s - t) }
    | none => c) s

/-- A packet command's row: it acts on a started command of its opcode while the module runs; else nothing happens. -/
def onCmd (op id : Nat) (s : State) (f : Cmd → State → State) : Out :=
  match cmdAt s id with
  | some c => if c.opcode = op && c.phase = .started && running s then .next (f c s) else .next s
  | none => .next s

/-! ## Data of a command -/

/-- The commands that the engine of R148 runs, which fetches whole lines (R212). -/
def Cmd.byLines (c : Cmd) : Bool := c.opcode = 0x0201 || c.opcode = 0x0202 || c.opcode = 0x0203

/-- The words of a transfer that a parity error was found in are poisoned (R396). -/
def Cmd.carried (c : Cmd) (a : W64) (bs : List PByte) : List PByte :=
  match c.parity with
  | none => bs
  | some (first, n) =>
    let words := (a.toNat % 8 + bs.length + 7) / 8
    (bs.zipIdx (a.toNat % 8)).map fun b =>
      (b.1.1, b.1.2 || ((b.2 / 8 + words - first % words) % words < n : Bool))

/-- The transfer has been made. -/
def carriedOver (c : Cmd) (s : State) : State :=
  if c.parity.isNone then s else updCmd c.id (fun x => { x with parity := none }) s

/-- Read data: its corrected and poisoned words are counted. An error cannot happen after the checks. -/
def Cmd.fetch (c : Cmd) (a : W64) (n : Nat) (s : State) : Got × State :=
  match Machine.fetch c.byLines .lockkeeper (c.partFor s a) (some c.id) a n s with
  | .ok r => ({ r.1 with data := c.carried a r.1.data }, carriedOver c r.2)
  | .error _ => ({}, s)

/-- Write data of this module's memories. -/
def Cmd.store (c : Cmd) (a : W64) (bs : List PByte) (s : State) : State :=
  match Machine.store .lockkeeper (c.partFor s a) a bs s with
  | .ok s => s
  | .error _ => s

/-! ## Gates -/

/-- A command ends with TIMEOUT at once: its named destinations are then undefined (R57, R235). -/
def timeoutNow (id : Nat) (s : State) : State := finishCmd id [.timeout 0] (updCmd id (fun c => { c with spoil := true }) s)

/-- Hold a command while a bank it reaches is in a pound or a far link retrains; end it with TIMEOUT at once where a
far link is down for good (R235). -/
def Cmd.gate (c : Cmd) (ps : List (Home × Nat)) (s : State) (go : State → State) : State :=
  match reachOf s (.command c.id) ps with
  | .go => go (noteWaits (.command c.id) ps s)
  | .wait => noteWaits (.command c.id) ps s
  | .dead => timeoutNow c.id s

/-- The pieces of a range on this module. -/
def Cmd.pieces (c : Cmd) (s : State) (a : W64) (n : Nat) : List (Home × Nat) :=
  match c.place s a n with
  | .ok (.near ps) => ps
  | _ => []

end Sys2Proof.Machine
end

