-- ==== Sys2Proof/Machine/Remote.lean ====
section
/-!
DEFINITION. Messages of the Fyant fabric (13 R371-R373, R378-R380): their header, the path they take, and the remote
writes, reads and admission queries that this module's Lockkeeper, DX engines and bulk mover send.
-/

namespace Sys2Proof.Machine

/-- The virtual channels. -/
def vcRequest : Nat := 0
def vcResponse : Nat := 1
def vcBulk : Nat := 2
def vcTowpath : Nat := 3

/-- A message: its header (R372) and its data, each byte with its poison (R211); and, for one of this module's own, the
partition that it serves, which it does not carry. -/
structure Msg where
  dest : Nat
  src : Nat
  part : Nat
  hops : Nat
  agent : Nat
  kind : Nat
  length : Nat
  tag : Nat
  addr : W64
  data : List PByte
  place : Option Nat := none
deriving DecidableEq, Repr

/-- Bytes of the poison map of `n` data bytes at `a`: a bit for each aligned word they touch. -/
def mapBytes (a n : Nat) : Nat := ((a + n + 7) / 8 - a / 8 + 7) / 8

/-- The poison map of data at `a`. -/
def poisonMap (a : Nat) (bs : List PByte) : List Byte :=
  toLe (mapBytes a bs.length) ((((bs.zipIdx a).filter (·.1.2)).map fun p => p.2 / 8 - a / 8).eraseDups.map (2 ^ ·)).sum

/-- Data at `a` with the poison of its map. -/
def tainted (a : Nat) (bs map : List Byte) : List PByte := (bs.zipIdx a).map fun p => (p.1, bit (leNat map) (p.2 / 8 - a / 8))

/-- The bytes of a message: the 24-byte header, its data, and where a word of them is poisoned, which bit 7 of the kind
says, the poison map (DESIGN CHOICE, log 16). -/
def Msg.bytes (m : Msg) : List Byte :=
  let bad := m.data.any (·.2)
  toLe 2 m.dest ++ toLe 2 m.src ++ toLe 1 m.part ++ toLe 1 m.hops ++ toLe 2 m.agent ++ toLe 1 (m.kind + flag bad 7)
    ++ toLe 3 m.length ++ toLe 4 m.tag ++ toLe 8 m.addr.toNat ++ m.data.map (·.1)
    ++ (if bad then poisonMap m.addr.toNat m.data else [])

/-- The kind that the model gives a towpath message, whose contents start with a code of its own (DESIGN CHOICE, log 23). -/
def kindTow : Nat := 16

/-- How many data bytes follow a header: a write, read data, a barge and a towpath message carry their length; an
admission query carries one byte that says whether it asks to write (log 15). -/
def dataBytes (kind length : Nat) : Nat :=
  if kind = 0 || kind = 2 || kind = 7 || kind = kindTow then length else if kind = 5 then 1 else 0

/-- The message at the front of a received byte stream, once it is whole, and the rest. -/
def takeMsg (bs : List Byte) : Option (Msg × List Byte) :=
  if bs.length < 24 then none else
  let kind := field bs 8 1 % 128
  let a := field bs 16 8
  let n := dataBytes kind (field bs 9 3)
  let k := if bit (field bs 8 1) 7 then mapBytes a n else 0
  if bs.length < 24 + n + k then none else
  some ({ dest := field bs 0 2, src := field bs 2 2, part := field bs 4 1, hops := field bs 5 1, agent := field bs 6 2,
          kind := kind, length := field bs 9 3, tag := field bs 12 4, addr := BitVec.ofNat 64 a,
          data := tainted a ((bs.drop 24).take n) ((bs.drop (24 + n)).take k) }, bs.drop (24 + n + k))

/-! ## The path of a message -/

/-- The up ports of the route set toward a node (R378, R380). -/
def routeSet (s : State) (dest : Nat) : List Nat :=
  let ps := if dest / 256 ≠ ownNode s / 256 then tabGet [] s.fabric.group (dest / 256)
    else tabGet [] s.fabric.member (dest % 256)
  ps.filter fun p => (portAt s p).state = .up

/-- The port whose bulk credit is largest. -/
def bulkiest (s : State) : List Nat → Option Nat
  | [] => none
  | p :: ps => match bulkiest s ps with
    | some q => if (portAt s q).credit[2] > (portAt s p).credit[2] then some q else some p
    | none => some p

/-- The port a message leaves by (R379). -/
def routePort (s : State) (m : Msg) : Option Nat :=
  let set := routeSet s m.dest
  if m.kind = 7 then bulkiest s set
  else if set = [] then none else set[(1021 * m.src + m.agent) % 65521 % set.length]?

/-- Cut a message into the data of flits, 224 bytes each. -/
def chunks (n : Nat) : Nat → List Byte → List (List Byte)
  | 0, _ => []
  | fuel + 1, bs => if bs = [] then [] else bs.take n :: chunks n fuel (bs.drop n)

/-- Queue a message on a channel of a port. -/
def putOut (p vc : Nat) (m : Msg) (s : State) : State :=
  let x := portAt s p
  setPort s p { x with txq := x.txq.setIfInBounds vc (x.txq[vc]?.getD [] ++
    [{ dest := m.dest, bytes := m.bytes, own := m.src = ownNode s, owner := m.place }]) }

/-- Send a message on its way; none where no port leads to its node. -/
def sendMsg (vc : Nat) (m : Msg) (s : State) : Option State := (routePort s m).map fun p => putOut p vc m s

/-- A tenant switch of the whole module runs (R444). -/
def wholeSwitch (s : State) : Bool := s.parts.any fun p => p.2.switch ≠ .none && p.2.shape = 0

/-- Where a towpath message of this module goes when it is not a node: every up port, or one port. -/
def everyPort : Nat := 0xFFFE
def onePort (p : Nat) : Nat := 0x10000 + p

/-- Count a dropped message (R380). -/
def countDrop (s : State) : State := { s with fabric := { s.fabric with dropped := satAdd s.fabric.dropped 1 } }

/-- A towpath message: a node's, a broadcast (0xFFFE), or one for the peer of a link (0xFFFF). -/
def towMsg (s : State) (dest : Nat) (bs : List Byte) : Msg :=
  { dest := min dest 0xFFFF, src := ownNode s, part := 0, hops := 32, agent := 512, kind := kindTow, length := bs.length,
    tag := 0, addr := 0, data := clean bs }

/-- Send a towpath message for a node by the first port that leads there; with none it is dropped and counted (R380). -/
def towOn (m : Msg) (s : State) : State :=
  match routeSet s m.dest with
  | p :: _ => putOut p vcTowpath m s
  | [] => countDrop s

/-- Put a towpath message on its way. -/
def towNow (dest : Nat) (bs : List Byte) (s : State) : State :=
  let up (p : Nat) : Bool := (portAt s p).state = .up
  let m := towMsg s dest bs
  if dest = everyPort then ((List.range 16).filter up).foldl (fun s p => putOut p vcTowpath m s) s
  else if dest ≥ 0x10000 then (if up (dest - 0x10000) then putOut (dest - 0x10000) vcTowpath m s else s)
  else towOn m s

/-- Send a towpath message of this module's own; it waits for the end of a whole-module tenant switch (R444). -/
def sendTow (dest : Nat) (bs : List Byte) (s : State) : State :=
  if wholeSwitch s then { s with fabric := { s.fabric with held := s.fabric.held ++ [(dest, bs)] } } else towNow dest bs s

/-- Send what has waited. -/
def releaseTow (s : State) : State :=
  s.fabric.held.foldl (fun s h => towNow h.1 h.2 s) { s with fabric := { s.fabric with held := [] } }

/-! ## Responses and drops -/

/-- The response to a message. -/
def Msg.reply (m : Msg) (kind length : Nat) (data : List PByte) (s : State) : Msg :=
  { dest := m.src, src := ownNode s, part := m.part, hops := 32, agent := m.agent, kind := kind, length := length,
    tag := m.tag, addr := m.addr, data := data, place := m.place }

/-- Send a response; one that no port can take is dropped and counted (R380). -/
def respond (m : Msg) (kind length : Nat) (data : List PByte) (s : State) : State :=
  match sendMsg vcResponse (m.reply kind length data s) s with
  | some s => s
  | none => countDrop s

/-- A message in transit is dropped: counted, and for a request or barge its source is told. -/
def dropTransit (vc : Nat) (m : Msg) (s : State) : State :=
  let s := countDrop s
  if vc = vcResponse || vc = vcTowpath then s else respond m 8 0 [] s

/-! ## What this module asks of others -/

/-- Who makes a remote access: a command's Lockkeeper, a DX entry, or the bulk mover of a command. -/
structure Asker where
  cmd : Option Nat
  queue : Nat
  part : Nat
  tile : Option Nat := none
  entry : Nat := 0
  mover : Bool := false
deriving DecidableEq, Repr

def Asker.agent (w : Asker) : Nat := match w.tile with | some t => t | none => if w.mover then 513 else 512

def Cmd.asker (c : Cmd) : Asker := { cmd := some c.id, queue := c.queue, part := c.part }

/-- An access violation or other job fault is noted; JOB_FAULT then acts on it (R136, R383). -/
def noteJobFault (loc : Nat × Nat × Nat) (cmd : Option Nat) (s : State) : State :=
  if s.faults.jobFault.isSome then s
  else { s with faults := { s.faults with jobFault := some loc, jobFaultCmd := cmd } }

/-- Change the engine entry of a DX. -/
def updEntry (t id : Nat) (f : Entry → Entry) (s : State) : State :=
  let x := tileAt s t
  setTile s t { x with dx := { x.dx with queue := updWhere (·.id == id) f x.dx.queue } }

/-- A remote access has been answered: it is no longer outstanding, and whoever waits for it waits no longer. -/
def settleRemote (tag : Nat) (s : State) : State :=
  match s.fabric.remote.find? (·.tag == tag) with
  | none => s
  | some r =>
    let s := { s with fabric := { s.fabric with remote := s.fabric.remote.eraseP (·.tag == tag) } }
    let s := match r.cmd with
      | some c => updCmd c (fun x => { x with awaiting := x.awaiting.erase tag }) s
      | none => s
    match r.tile with
    | some t => updEntry t r.entry (fun e => { e with awaiting := e.awaiting.erase tag }) s
    | none => s

/-- A remote access is refused or cannot be routed (R183, R380, R383): an address error of the command, or an access
violation of the DX instruction that made it. -/
def refuseRemote (tag : Nat) (s : State) : State :=
  match s.fabric.remote.find? (·.tag == tag) with
  | none => s
  | some r =>
    let s := settleRemote tag s
    match r.tile with
    | some t => noteJobFault (0, t, 3) r.cmd s
    | none => match r.cmd with
      | some c => updCmd c (fun x => { x with admitted := some false }) s
      | none => s

/-- The tag slot of a command: its messages carry it above a running number, so that their destination tells one
command's from another's (DESIGN CHOICE, log 29). -/
def tagSlot (tag : Nat) : Nat := tag / 2 ^ 24

/-- Make one remote access: it is outstanding from now on, and it is refused at once where no port leads to its node. -/
def ask (w : Asker) (kind : RemoteKind) (a : W64) (n : Nat) (data : List PByte) (s : State) : State :=
  let tag := 2 ^ 24 * (w.cmd.getD 0 % 256) + s.fabric.nextTag
  let r : Remote := { tag := tag, node := nodeOf a, kind := kind, cmd := w.cmd, queue := w.queue, tile := w.tile,
                      entry := w.entry, address := a, length := n }
  let s := { s with fabric := { s.fabric with nextTag := (s.fabric.nextTag + 1) % 2 ^ 24, remote := s.fabric.remote ++ [r] } }
  let s := match w.tile with
    | some t => if kind = .write then s else updEntry t w.entry (fun e => { e with awaiting := e.awaiting ++ [tag] }) s
    | none => match w.cmd with
      | some c => if kind = .write then s else updCmd c (fun x => { x with awaiting := x.awaiting ++ [tag] }) s
      | none => s
  let code := match kind with | .write => 0 | .read => 1 | .query => 5 | .barge => 7
  let vc := if kind = .barge then vcBulk else vcRequest
  let m : Msg := { dest := nodeOf a, src := ownNode s, part := w.part, hops := 32, agent := w.agent, kind := code,
                   length := n, tag := tag, addr := a, data := data, place := some w.part }
  match sendMsg vc m s with
  | some s => s
  | none => refuseRemote tag (countDrop s)

/-- Bytes of the next message of `n` bytes at `a`: all of at most 256 bytes, else up to a multiple of 256, so that no aligned
word is cut (R187, R372). -/
def messageLength (a n : Nat) : Nat := if n ≤ 256 then n else 256 - a % 256

/-- Write to another node in messages of at most 256 bytes, in address order. -/
def remoteWrite (w : Asker) : Nat → W64 → List PByte → State → State
  | 0, _, _, s => s
  | fuel + 1, a, bs, s =>
    if bs = [] then s
    else
      let k := messageLength a.toNat bs.length
      remoteWrite w fuel (a + BitVec.ofNat 64 k) (bs.drop k) (ask w .write a k (bs.take k) s)

/-- Read from another node in messages cut alike. -/
def remoteRead (w : Asker) : Nat → W64 → Nat → State → State
  | 0, _, _, s => s
  | fuel + 1, a, n, s =>
    if n = 0 then s
    else
      let k := messageLength a.toNat n
      remoteRead w fuel (a + BitVec.ofNat 64 k) (n - k) (ask w .read a k [] s)

/-- Messages that `n` bytes take at most. -/
def messages (n : Nat) : Nat := n / 256 + 2

/-- Ask a node for its decision on a whole range (R183), in queries that the length field can name. -/
def remoteQuery (w : Asker) (write : Bool) : Nat → W64 → Nat → State → State
  | 0, _, _, s => s
  | fuel + 1, a, n, s =>
    if n = 0 then s
    else
      let k := min n 0xFFFFFF
      remoteQuery w write fuel (a + BitVec.ofNat 64 k) (n - k) (ask w .query a k (clean [if write then 1 else 0]) s)

/-! ## A command with remote ranges (R183) -/

/-- The remote ranges among those a command names. -/
def Cmd.remotes (c : Cmd) (s : State) (rs : List (W64 × Nat × Bool)) : List (W64 × Nat × Bool) :=
  rs.filter fun r => r.2.1 ≠ 0 && (match c.place s r.1 r.2.1 with | .ok (.remote _) => true | _ => false)

/-- A command's tag slot is another's that has asked or asks for a decision: an answer holds for one command (R383), so the
later one waits until the slot is free (DESIGN CHOICE, log 29). -/
def slotBusy (s : State) (c : Cmd) : Bool :=
  s.front.cmds.any fun x => x.id ≠ c.id && x.id % 256 = c.id % 256 && x.phase ≠ .ended && (x.admitted.isSome || x.awaiting ≠ [])

/-- Carry a command's remote ranges through the destination's decision on each (R183), then go on. The first visit asks; a
refusal gives NOT_PERMITTED. -/
def Cmd.seekAdmission (c : Cmd) (rs : List (W64 × Nat × Bool)) (s : State) (go : State → State) : State :=
  let far := c.remotes s rs
  if far = [] then go s
  else match c.admitted with
    | some false => rejectCmd c.id .notPermitted s
    | none =>
      if c.awaiting ≠ [] || slotBusy s c then s
      else if c.progress = 0 then
        far.foldl (fun s r => remoteQuery c.asker r.2.2 (r.2.1 / 0xFFFFFF + 1) r.1 r.2.1 s)
          (updCmd c.id (fun x => { x with progress := 1 }) s)
      else updCmd c.id (fun x => { x with admitted := some true }) s
    | some true => go s

/-- Read admitted remote ranges as stage `k` of a command, then go on with what was read in `fetched`. -/
def Cmd.bring (c : Cmd) (k : Nat) (rs : List (W64 × Nat)) (s : State) (go : State → State) : State :=
  let far := c.remotes s (rs.map fun r => (r.1, r.2, false))
  if far = [] then go s
  else if c.awaiting ≠ [] then s
  else if c.progress ≤ k then
    far.foldl (fun s r => remoteRead c.asker (messages r.2.1) r.1 r.2.1 s)
      (updCmd c.id (fun x => { x with progress := k + 1 }) s)
  else go s

/-- A command's remote ranges: their decision, then the reads of those that it does not write. -/
def Cmd.remoteGate (c : Cmd) (rs : List (W64 × Nat × Bool)) (s : State) (go : State → State) : State :=
  c.seekAdmission rs s fun s => c.bring 1 ((rs.filter fun r => !r.2.2).map fun r => (r.1, r.2.1)) s go

/-- What remote reads brought of `n` bytes at `a`, with poison. -/
def fetchedData (m : Memory) (bad : List Nat) (a n : Nat) : List PByte :=
  ((memRead m a n).zipIdx a).map fun p => (p.1, bad.contains p.2)

/-- Write a command's output at a checked and admitted destination in memory, here or on another node. -/
def Cmd.put (c : Cmd) (a : W64) (bs : List PByte) (s : State) : State :=
  match c.place s a bs.length with
  | .ok (.remote _) => remoteWrite c.asker (messages bs.length) a bs s
  | _ => c.store a bs s

/-- Reach a destination of `n` bytes: another node's decision first, or the banks and links of this module. -/
def Cmd.reaching (c : Cmd) (a : W64) (n : Nat) (s : State) (go : State → State) : State :=
  c.remoteGate [(a, n, true)] s fun s => c.gate (c.pieces s a n) s go

/-! ## Checking a command -/

/-- Bring control data from another node (R183): its decision first, then the data. -/
def bringRemote (c : Cmd) (a : W64) (n : Nat) (s : State) : State :=
  match c.asking with
  | none => remoteQuery c.asker false (n / 0xFFFFFF + 1) a n
      (updCmd c.id (fun x => { x with asking := some (a, n), ctl := 1 }) s)
  | some r =>
    if c.awaiting ≠ [] then s
    else if c.ctl = 1 then
      remoteRead c.asker (messages r.2) r.1 r.2 (updCmd c.id (fun x => { x with ctl := 2 }) s)
    else updCmd c.id (fun x => { x with
      asking := none, ctl := 0, fetched := [], tainted := [],
      blocks := x.blocks ++ [(r.1, fetchedData x.fetched x.tainted r.1.toNat r.2)] }) s

/-- Ask another node for its decision on a whole range before any byte of it moves (R183). -/
def askWhole (c : Cmd) (a : W64) (n : Nat) (s : State) : State :=
  if c.awaiting ≠ [] || slotBusy s c then s
  else if c.progress = 0 then
    remoteQuery c.asker false (n / 0xFFFFFF + 1) a n (updCmd c.id (fun x => { x with progress := 1 }) s)
  else updCmd c.id (fun x => { x with admitted := some true }) s

/-- The bytes of one or two registers (R182). -/
def registerBytes (a : W64) (n : Nat) (s : State) : List Byte × State :=
  let lo := regRead 0 (offsetOf a) s
  let hi := if n = 8 then regRead 0 (offsetOf a + 4) lo.2 else (0, lo.2)
  ((toLe 4 lo.1.toNat ++ toLe 4 hi.1.toNat).take n, hi.2)

/-- Read registers as control data. -/
def bringRegister (c : Cmd) (a : W64) (n : Nat) (s : State) : State :=
  let r := registerBytes a n s
  updCmd c.id (fun x => { x with blocks := x.blocks ++ [(a, clean r.1)] }) r.2

/-- Read the pieces of control data that a check wrote down, once, so that their words are counted and recorded (R212). -/
def charged (c : Cmd) (ps : List (Home × Nat)) (s : State) : State :=
  if c.touched || ps = [] then s else
  updCmd c.id (fun x => { x with touched := true }) (readCharged false (some c.id) ps s).2

/-- What the read of a command's control data finds at banks and links; once read, it is not read again (R263, R235). -/
def Cmd.finds (c : Cmd) (ps : List (Home × Nat)) (s : State) : Reach :=
  if c.touched then .go else reachOf s (.command c.id) ps

/-- The read of a command's control data. -/
def touch (c : Cmd) (ps : List (Home × Nat)) (s : State) : State :=
  charged c ps (if c.touched then s else noteWaits (.command c.id) ps s)

/-- Check a command, then reject it, let it wait for control data, or go on with what the check found. -/
def judged {α : Type} (c : Cmd) (chk : Chk α) (s : State) (go : α → State → State) : State :=
  let r : Except Stop α × List (Home × Nat) := (ExceptT.run chk).run []
  match c.finds r.2 s with
  | .wait => noteWaits (.command c.id) r.2 s
  | .dead => timeoutNow c.id s
  | .go => match r.1 with
  | .error (.status m) => rejectCmd c.id m (touch c r.2 s)
  | .error (.whole a n) => if c.admitted = some false then rejectCmd c.id .notPermitted s else askWhole c a n s
  | .error (.remote a n) => if c.admitted = some false then rejectCmd c.id .notPermitted s else bringRemote c a n s
  | .error (.register a n) => bringRegister c a n s
  | .ok x => go x (touch c r.2 s)

end Sys2Proof.Machine
end

