-- ==== Sys2Proof/Machine/Power.lean ====
section
/-!
DEFINITION. Power, droop and thermal control (16 R447-R465): the cap and its shares, the limiters' duties, droop, trips,
throttle and energy accrual, POWER-READ, power lending (13 R388, R389).
-/

namespace Sys2Proof.Machine

/-- `dt` nanoseconds of the memory phases of tenant switches: each stack zeroes as many banks at once as its row allows, none in
row 4, and the module at most 8,192 in all, `used` of them already (R442). -/
def scrubTick (dt : Nat) : List Nat → Nat → State → State
  | [], _, s => s
  | k :: ks, used, s =>
    let st := stackAt s k
    let banks := min (rowBudget st.row) (8192 - used)
    if st.scrubLeft = 0 then scrubTick dt ks used s
    else scrubTick dt ks (used + banks) (setStack s k { st with scrubLeft := st.scrubLeft - banks * dt })

/-- A tile waits in DFLAGWAIT: it stands at the front of its DX and has begun to wait (R462). -/
def barrierWait (s : State) : Bool :=
  s.tiles.any fun t => (t.2.dx.queue.head?).any fun e => e.sent && bits e.word.toNat 127 120 = 0x13

/-- `dt` nanoseconds pass: every reason in effect accrues, energy is power times time, a pool member's barrier wait is
measured, the memory phases go on (R442, R459, R460, R462). -/
def accrue (dt : Nat) (s : State) : State :=
  let s := if s.dram.any fun k => k.2.scrubLeft ≠ 0 then scrubTick dt (List.range 16) 0 s else s
  { s with pmu := { s.pmu with
      throttle := Vector.ofFn fun r : Fin 6 => s.pmu.throttle[r] + (if throttled s r then dt else 0)
      energy := s.pmu.energy + s.pmu.power * dt
      lend := if s.pmu.lend.pool.isSome && barrierWait s then { s.pmu.lend with barrier := s.pmu.lend.barrier + dt }
        else s.pmu.lend } }

/-! ## Voltages -/

/-- The tile islands of a die (R68). -/
def dieTileIslands (die : Nat) : List Nat := (List.range 8).map (· + 12 * die)

/-- The setpoint of an island at time `t`: it slews at 1 mV/µs (R456). -/
def Island.setAt (x : Island) (t : Nat) : Nat :=
  let d := (t - x.since) / 1000
  if x.fromMv ≤ x.setMv then min x.setMv (x.fromMv + d) else max x.setMv (x.fromMv - d)

/-- An island's setpoint changes at time `t`. -/
def Island.toward (x : Island) (t v : Nat) : Island :=
  if x.setMv = v then x else { x with setMv := v, fromMv := x.setAt t, since := t }

def setIsland (s : State) (n : Nat) (x : Island) : State :=
  { s with pmu := { s.pmu with islands := tabSet {} s.pmu.islands n x } }

/-- Set the setpoints: VCORE.SET, less what the thermal limiter took from a die's tile islands; FLOOR while tripped. -/
def applyVoltage (s : State) : State :=
  let put (s : State) (n v : Nat) : State := setIsland s n ((islandAt s n).toward (now s) v)
  (List.range 24).foldl (fun s n =>
    put s n (if n % 12 < 8 then
        (if s.pmu.trip then s.pmu.vfloor else min s.pmu.vset (s.pmu.vCeil[n / 12]?.getD 800))
      else s.pmu.vset)) s

/-- The dies are powered: every island stands at VCORE.SET, what the thermal limiter had taken included (R464, R485). -/
def powerVoltage (s : State) : State :=
  (List.range 24).foldl (fun s n => setIsland s n { islandAt s n with
      setMv := s.pmu.vset, fromMv := s.pmu.vset, since := now s, mv := s.pmu.vset })
    { s with pmu := { s.pmu with vCeil := #v[800, 800], steady := #v[some (now s), some (now s)] } }

/-- The PMU works: VIN18 is up and the compute dies are powered. -/
def pmuOn (s : State) : Bool := s.boot.vsb && !s.boot.inReset && !s.boot.halted && diesPowered s

/-! ## Commands -/

def setCapChk (c : Cmd) : Chk Unit := need (900 ≤ c.at 16 4 && c.at 16 4 ≤ 1900) (c.bad 16)

def execSetCap (cmd : Nat) (s : State) : Out :=
  onCmd 0x0701 cmd s fun c s =>
    judged c (setCapChk c) s fun _ s => doneCmd c.id 0 { s with pmu := { s.pmu with setCap := c.at 16 4 } }

def setProfileChk (s : State) (c : Cmd) : Chk Unit := do
  need (c.at 16 1 ≤ 1) (c.bad 16)
  need (!anyJob s) .busy

def execSetProfile (cmd : Nat) (s : State) : Out :=
  onCmd 0x0702 cmd s fun c s =>
    judged c (setProfileChk s c) s fun _ s => doneCmd c.id 0 { s with pmu := { s.pmu with profile := c.at 16 1 } }

/-- R462: leaving a pool returns the watts at once. -/
def leavePool (s : State) : State := { s with pmu := { s.pmu with lend := {} } }

def lendChk (s : State) (c : Cmd) : Chk (List Nat) := do
  let n := c.at 20 2
  need (2 ≤ n && n ≤ 256) (c.bad 20)
  need (c.at 24 8 % 8 = 0) (c.bad 24)
  c.checkRanges s [(24, c.addr 24, 2 * n)]
  need s.fabric.node.isSome .notPermitted
  let bs ← c.control s 24 (c.addr 24) (2 * n)
  let nodes := (List.range n).map fun i => field bs (2 * i) 2
  need (nodes.contains (ownNode s)) (c.bad 24)
  need (match s.pmu.lend.pool with | some p => p = c.at 16 4 | none => true) .busy
  pure nodes

/-- A member of a pool presumes of every member that it sends its SLACKs, which only the coordinator sees; before its first
RENEW the terms of R389 count from its joining (log 62). -/
def joinPool (pool : Nat) (nodes : List Nat) (s : State) : State :=
  let t := now s / 1000000
  { s with pmu := { s.pmu with
      lend := { s.pmu.lend with pool := some pool, members := nodes, tick := t, recent := nodes.map fun n => (n, t),
                                lastRenew := now s } } }

def execLendPool (cmd : Nat) (s : State) : Out :=
  onCmd 0x0703 cmd s fun c s =>
    if c.at 20 2 = 0 then doneCmd c.id 0 (leavePool s) else
    judged c (lendChk s c) s fun nodes s =>
      doneCmd c.id 0 (joinPool (c.at 16 4) nodes s)

/-- Whether a tenant switch runs in any partition (R441). -/
def anySwitch (s : State) : Bool := s.parts.any fun p => p.2.switch ≠ .none

/-- A JOB-OPEN, PARTITION-OPEN or PARTITION-CLOSE has started: it may yet open a job or begin a tenant switch. -/
def opening (s : State) : Bool :=
  s.front.cmds.any fun x => [0x0103, 0x0104, 0x0105].contains x.opcode && x.phase = .started

/-- SLEEP: its reply is written, then COMMAND_COMPLETE puts the module in retention (R463). So that no job is resident and no
switch runs there, it waits for what has started to open one, and nothing starts before retention (log 74). -/
def execSleep (cmd : Nat) (s : State) : Out :=
  onCmd 0x0704 cmd s fun c s =>
    if opening s then waitCmd c.id s else
    judged c (need (!anyJob s && !anySwitch s) .busy) (resumeCmd c.id s) fun _ s => doneCmd c.id 0 s

/-- The record of R461. -/
def powerRecord (s : State) : List Byte :=
  toLe 8 (now s) ++ toLe 8 (energyUj s) ++ toLe 4 s.pmu.mean ++ toLe 4 (capInForce s) ++ toLe 4 s.pmu.setCap
    ++ toLe 4 (s.pmu.lend.net % 2 ^ 32).toNat ++ toLe 1 s.pmu.profile ++ toLe 1 (duty s 0) ++ toLe 1 (duty s 1)
    ++ toLe 1 (powerFlags s) ++ toLe 4 s.pmu.compute ++ toLe 4 s.pmu.stack ++ toLe 4 s.pmu.io
    ++ (List.range 6).flatMap (fun r => toLe 8 (throttleUs s r)) ++ zeros 32

def powerReadChk (s : State) (c : Cmd) : Chk Unit := do
  need (c.at 16 8 % 64 = 0) (c.bad 16)
  c.checkRanges s [(16, c.addr 16, 128)]

def execPowerRead (cmd : Nat) (s : State) : Out :=
  onCmd 0x0705 cmd s fun c s =>
    judged c (powerReadChk s c) s fun _ s => c.reaching (c.addr 16) 128 s fun s =>
      doneCmd c.id (energyUj s) (c.put (c.addr 16) (clean (powerRecord s)) s)

/-! ## The loops -/

/-- R452 in exact arithmetic: the cap loop's new duty from its present one, the compute power and the share in hundredths
of a watt. -/
def nextDuty (n p s100 : Nat) : Nat :=
  let t := if p = 0 then 64 else n * s100 / (100 * p)
  if t < n then max 1 t else min 64 (min (n + 4) t)

/-- The powers of the last 100 µs are measured, with the module power's bound in retention (R448, R461, R463). -/
def measure (compute stack io module : Nat) (s : State) : State :=
  let m := if s.pmu.sleep = .asleep then min module 95 else module
  let h := ((compute, stack, io, m) :: s.pmu.powers).take 10
  let mean (f : Nat × Nat × Nat × Nat → Nat) : Nat := (h.map f).sum / h.length
  { s with pmu := { s.pmu with power := m, powers := h, mean := mean (·.2.2.2), compute := mean (·.1), stack := mean (·.2.1),
                               io := mean (·.2.2.1) } }

/-- CAP_LOOP_STEP: the powers averaged over the last 100 µs; a SET-CAP value and a VCORE.SET take effect. -/
def capLoopStep (compute stack io module : Nat) (s : State) : State :=
  let s := measure compute stack io module s
  let s := { s with pmu := { s.pmu with capSet := s.pmu.setCap } }
  let cap := capInForce s
  let sh := shares s.pmu.profile
  applyVoltage { s with pmu := { s.pmu with
    dutyCap := nextDuty s.pmu.dutyCap compute (cap * sh.1 - (100 * io - cap * sh.2.2)) } }

def execCapLoopStep (compute stack io module : Nat) (s : State) : Out :=
  .next (if pmuOn s then capLoopStep compute stack io module s
    else if s.boot.vsb then measure compute stack io module s else s)

/-- Put every stack in the PMU's row, or in row 4 while tripped. -/
def applyRow (s : State) : State :=
  (List.range 16).foldl (fun s k =>
    setStack s k { stackAt s k with rowPmu := if s.pmu.trip then 4 else s.pmu.row }) s

/-- STACK_ROW_STEP (R453): `avg` is the stack power averaged over the last 1 ms, `tenMs` a 10 ms step, `stayedLow` that nothing
between the steps was higher. The row falls only where the averages themselves have stayed below 80 % of the share for 10 ms. -/
def stackRowStep (avg : Nat) (tenMs stayedLow : Bool) (s : State) : State :=
  let share := capInForce s * (shares s.pmu.profile).2.1
  let low := if 125 * avg < share then some (s.pmu.rowLow.getD (now s - 1000000)) else none
  let falls := tenMs && stayedLow && low.any fun t => t + 10000000 ≤ now s
  let row := if 100 * avg > share then min 4 (s.pmu.row + 1) else if falls then s.pmu.row - 1 else s.pmu.row
  applyRow { s with pmu := { s.pmu with row := row, rowLow := if falls then some (now s) else low } }

def execStackRowStep (avg : Nat) (tenMs stayedLow : Bool) (s : State) : Out :=
  .next (if pmuOn s then stackRowStep avg tenMs stayedLow s else s)

/-- The VIN18 current: the sample, its 1 ms average, and since when that has stayed below 1,050 A. -/
def measureCurrent (avg sample : Nat) (s : State) : State :=
  { s with pmu := { s.pmu with current := sample, currentAvg := avg,
                               calmSince := if avg < 1050 then some (s.pmu.calmSince.getD (now s)) else none } }

/-- The current limiter may raise its duty: 1 ms below 1,050 A, and 100 µs since it last did (R454). -/
def mayRelease (s : State) : Bool :=
  s.pmu.calmSince.any (fun t => t + 1000000 ≤ now s) && s.pmu.releasedAt + 100000 ≤ now s

/-- CURRENT_LIMIT_STEP (R454). -/
def currentLimitStep (avg sample : Nat) (released : Bool) (s : State) : State :=
  let s := measureCurrent avg sample s
  let cut := decide (avg > 1100 ∨ sample > 1200)
  let up := !cut && released && mayRelease s
  let new (d : Nat) : Nat :=
    if cut then max 1 (duty s d / 2)
    else if up then min 64 (s.pmu.dutyCur[d]?.getD 64 + 4) else s.pmu.dutyCur[d]?.getD 64
  { s with pmu := { s.pmu with dutyCur := #v[new 0, new 1], releasedAt := if up then now s else s.pmu.releasedAt } }

def execCurrentLimitStep (avg sample : Nat) (released : Bool) (s : State) : Out :=
  .next (if pmuOn s then currentLimitStep avg sample released s else if s.boot.vsb then measureCurrent avg sample s else s)

/-! ## Droop (R455) -/

/-- Every island of a die reads within 15 mV of its setpoint. -/
def dieSteady (s : State) (die : Nat) : Bool :=
  (List.range 12).all fun i =>
    let x := islandAt s (12 * die + i)
    x.mv ≤ x.setAt (now s) + 15 && x.setAt (now s) ≤ x.mv + 15

/-- Since when a die's islands have read so. -/
def noteSteady (die : Nat) (s : State) : State :=
  let since := if dieSteady s die then some ((s.pmu.steady[die]?.getD none).getD (now s)) else none
  { s with pmu := { s.pmu with steady := s.pmu.steady.setIfInBounds die since } }

/-- DROOP_TRIP: a detector's reading of its island; at least 30 mV below its setpoint it closes its die's gate. -/
def droopTrip (island mv : Nat) (s : State) : State :=
  let x := islandAt s island
  if !pmuOn s then s else
  let s := noteSteady (island / 12) (setIsland s island { x with mv := mv })
  if x.setAt (now s) < mv + 30 then s
  else
    { s with pmu := { s.pmu with gateClosed := s.pmu.gateClosed.setIfInBounds (island / 12) true,
                                 reopenedAt := s.pmu.reopenedAt.setIfInBounds (island / 12) none } }

def execDroopTrip (island mv : Nat) (s : State) : Out := onUnit 24 island s (droopTrip island mv)

/-- DROOP_RELEASE: the gate of a die whose islands have recovered for 2 µs reopens. -/
def droopRelease (die : Nat) (s : State) : State :=
  if !(s.pmu.gateClosed[die]?.getD false) || !((s.pmu.steady[die]?.getD none).any fun t => t + 2000 ≤ now s) then s
  else
    { s with pmu := { s.pmu with gateClosed := s.pmu.gateClosed.setIfInBounds die false,
                                 reopenedAt := s.pmu.reopenedAt.setIfInBounds die (some (now s)) } }

def execDroopRelease (die : Nat) (s : State) : Out := onUnit 2 die s (droopRelease die)

/-! ## Temperature (R456, R457) -/

/-- The voltages of the power curve table (R67). -/
def curvePoints : List Nat := [600, 640, 680, 720, 760, 800]

def pointBelow (v : Nat) : Nat := (curvePoints.filter (· < v)).foldl max 600
def pointAbove (v : Nat) : Nat := ((curvePoints.filter (v < ·)).foldl min 800)

/-- One die's part of a thermal step: its duty, then its tile islands' voltage after 10 ms at a low or full duty. -/
def thermalDie (s : State) (d : Nat) : State :=
  let hot := ((List.range 12).map fun i => (islandAt s (12 * d + i)).temp).foldl max 0
  let n := s.pmu.dutyTherm[d]?.getD 64
  let n := if hot > 100 then max 1 (n - 4) else if hot < 97 then min 64 (n + 4) else n
  let low := if n ≤ 16 then some ((s.pmu.lowSince[d]?.getD none).getD (now s)) else none
  let full := if n = 64 then some ((s.pmu.fullSince[d]?.getD none).getD (now s)) else none
  let due (t : Option Nat) : Bool := match t with | some t => t + 10000000 ≤ now s | none => false
  let v := min s.pmu.vset (s.pmu.vCeil[d]?.getD 800)
  let ceil := if due low then max s.pmu.vfloor (pointBelow v)
    else if due full then (if pointAbove v ≥ s.pmu.vset then 800 else pointAbove v)
    else s.pmu.vCeil[d]?.getD 800
  { s with pmu := { s.pmu with
      dutyTherm := s.pmu.dutyTherm.setIfInBounds d n,
      lowSince := s.pmu.lowSince.setIfInBounds d (if due low then some (now s) else low),
      fullSince := s.pmu.fullSince.setIfInBounds d (if due full then some (now s) else full),
      vCeil := s.pmu.vCeil.setIfInBounds d ceil } }

/-- THERMAL_LIMIT_STEP: the islands' readings (R69), then each die's limiter. -/
def thermalLimitStep (readings : List Reading) (s : State) : State :=
  let s := (readings.zipIdx 0).foldl (fun s r =>
    if r.2 < 24 then setIsland s r.2 { islandAt s r.2 with mv := r.1.mv, rate := r.1.rate, temp := r.1.temp } else s) s
  applyVoltage (thermalDie (thermalDie (noteSteady 1 (noteSteady 0 s)) 0) 1)

def execThermalLimitStep (readings : List Reading) (s : State) : Out :=
  .next (if pmuOn s then thermalLimitStep readings s else s)

/-- THERMAL_TRIP: at 110 °C of a compute die or 108 °C of a stack base die. -/
def thermalTrip (stackSensor : Bool) (temp : Nat) (s : State) : State :=
  if !s.boot.vsb || s.pmu.trip || temp < (if stackSensor then 108 else 110) then s
  else raise .thermTrip
    (applyVoltage (applyRow { s with pmu := { s.pmu with trip := true }, pins := { s.pins with thermN := false } }))

def execThermalTrip (stackSensor : Bool) (temp : Nat) (s : State) : Out := .next (thermalTrip stackSensor temp s)

/-- THERMAL_TRIP_RELEASE: every sensor is 5 °C below its trip point. -/
def thermalTripRelease (dieTemp stackTemp : Nat) (s : State) : State :=
  if !s.pmu.trip || dieTemp > 105 || stackTemp > 103 then s
  else applyVoltage (applyRow { s with pmu := { s.pmu with trip := false }, pins := { s.pins with thermN := true } })

def execThermalTripRelease (dieTemp stackTemp : Nat) (s : State) : Out := .next (thermalTripRelease dieTemp stackTemp s)

/-! ## The external cap (R458) -/

/-- CAP_ALERT_ASSERT: the preset duty, and the external cap comes into force. -/
def capAlertAssert (s : State) : State :=
  if !s.pins.capAlertN then s
  else
    let s := { s with pins := { s.pins with capAlertN := false } }
    if s.boot.vsb then raise .extCap { s with pmu := { s.pmu with dutyCap := s.pmu.extDuty } } else s

def execCapAlertAssert (s : State) : Out := .next (capAlertAssert s)

def execCapAlertRelease (s : State) : Out := .next { s with pins := { s.pins with capAlertN := true } }

/-! ## The POWER registers that are written (R465) -/

/-- BAR0 serves the POWER block before READY and in retention too (R463, R488). -/
def powerServed (s : State) : Bool := hostUp s

/-- POWER_CFG_WRITE: only the physical function; a field out of its range is ignored and sets CFG_ERR. -/
def powerCfgWrite (fn offset : Nat) (value : W32) (s : State) : State :=
  let v := value.toNat
  if fn ≠ 0 || !powerServed s then s
  else if offset = 0x5008 then
    let d := bits v 22 16
    let w := bits v 15 0
    if 1 ≤ d && d ≤ 64 && 900 ≤ w && w ≤ 1900 then { s with pmu := { s.pmu with extDuty := d, extWatts := w } }
    else raise .cfgErr s
  else if offset = 0x500C then
    let hi := bits v 31 16
    let lo := bits v 15 0
    if 600 ≤ lo && lo ≤ hi && hi ≤ 800 then { s with pmu := { s.pmu with vset := hi, vfloor := lo } } else raise .cfgErr s
  else s

def execPowerCfgWrite (fn offset : Nat) (value : W32) (s : State) : Out := onUnit 5 fn s (powerCfgWrite fn offset value)

/-! ## Lending (R388, R389, R462) -/

/-- A lending message on the towpath: its name's code, the pool, the tick and two values. The spec gives the contents,
not their layout (DESIGN CHOICE, log 23). -/
def lendMsg (s : State) (code tick a b : Nat) : List Byte :=
  toLe 4 code ++ toLe 4 (s.pmu.lend.pool.getD 0) ++ toLe 8 tick ++ toLe 4 a ++ toLe 4 b

/-- The coordinator: the lowest node that has sent SLACK in the last 3 ticks. -/
def coordinator (s : State) : Nat :=
  (s.pmu.lend.recent.filter fun r => s.pmu.lend.tick < r.2 + 3).foldl (fun a r => min a r.1) 0xFFFF

def setLend (s : State) (l : Lend) : State := { s with pmu := { s.pmu with lend := l } }

/-- The coordinator's message shows that it is at work. -/
def heardCoordinator (s : State) : State :=
  setLend s { s.pmu.lend with
    recent := updWhere (·.1 == coordinator s) (fun r => (r.1, s.pmu.lend.tick)) s.pmu.lend.recent }

/-- What a member holds of the others at tick `t`: each is presumed to have sent its SLACK, but for a coordinator that has
not been heard (DESIGN CHOICE, log 62); its own stands. -/
def atTick (t : Nat) (s : State) : List (Nat × Nat) :=
  let c := coordinator s
  ((s.pmu.lend.recent.filter fun r => r.1 ≠ ownNode s && t < r.2 + 4).map fun r => if r.1 = c then r else (r.1, t))
    ++ [(ownNode s, t)]

/-- Set this member's net watts. -/
def setNet (net : Int) (s : State) : State :=
  setLend s { s.pmu.lend with received := net.toNat, lent := (-net).toNat }

/-- What RENEW does at a member. -/
def renewed (net : Int) (s : State) : State :=
  let s := setNet net s
  setLend s { s.pmu.lend with lastRenew := now s }

/-- The nets of RENEW: a signed 32-bit word for each member, in the order of the pool's list, as one number. -/
def netsWord (l : Lend) : Nat :=
  ((l.members.zipIdx 0).map fun m => 2 ^ (32 * m.2) * (tabGet 0 l.nets m.1 % 2 ^ 32).toNat).sum

/-- The nets that such a number gives. -/
def netsOf (members : List Nat) (v : Int) : Tab Int :=
  (members.zipIdx 0).foldl (fun n m => tabSet 0 n m.1 (signed 32 (v / 2 ^ (32 * m.2) % 2 ^ 32).toNat)) []

/-- The coordinator sends RENEW to every member. -/
def sendRenew (s : State) : State :=
  s.pmu.lend.members.foldl (fun s m =>
    if m = ownNode s then renewed (tabGet 0 s.pmu.lend.nets m) s
    else sendTow m (lendMsg s 5 s.pmu.lend.tick 0 0 ++ toLe (4 * s.pmu.lend.members.length) (netsWord s.pmu.lend)) s)
    (setLend s { s.pmu.lend with moved := true })

/-- The SLACK that waits most, and the one that waits least; ties go to the lower node. -/
def mostSlack : List (Nat × Nat × Nat) → Option (Nat × Nat × Nat)
  | [] => none
  | x :: xs => match mostSlack xs with
    | some y => if y.2.1 > x.2.1 || (y.2.1 = x.2.1 && y.1 < x.1) then some y else some x
    | none => some x

def leastSlack : List (Nat × Nat × Nat) → Option (Nat × Nat × Nat)
  | [] => none
  | x :: xs => match leastSlack xs with
    | some y => if y.2.1 < x.2.1 || (y.2.1 = x.2.1 && y.1 < x.1) then some y else some x
    | none => some x

/-- The transfer of a tick: 10 W from the first node to the second, when neither limit is passed. -/
def transfer (l : Lend) : Option (Nat × Nat) :=
  match mostSlack l.slacks, leastSlack l.slacks with
  | some a, some b => if a.1 ≠ b.1 && 910 ≤ a.2.2 && b.2.2 + 10 ≤ 1900 then some (a.1, b.1) else none
  | _, _ => none

/-- GIVE is sent for the transfer that TAKE began: both nets are kept, then RENEW goes out. -/
def sendGive (s : State) : State :=
  match s.pmu.lend.transfer with
  | some (a, b) =>
    let n := s.pmu.lend.nets
    let n := tabSet 0 n a (tabGet 0 n a - 10)
    let n := tabSet 0 n b (tabGet 0 n b + 10)
    let s := setLend s { s.pmu.lend with nets := n }
    let s := if b = ownNode s then setNet (s.pmu.lend.net + 10) s
      else sendTow b (lendMsg s 4 s.pmu.lend.tick 10 0) s
    sendRenew s
  | none => s

/-- This member lends 10 W more. -/
def lendWatts (s : State) : State :=
  let s := setNet (s.pmu.lend.net - 10) s
  setLend s { s.pmu.lend with lentAt := now s }

/-- The coordinator sends TAKE, once a tick; its own TAKE is answered at once. -/
def sendTake (s : State) : State :=
  if s.pmu.lend.took then s else
  match transfer s.pmu.lend with
  | some (a, _) =>
    let s := setLend s { s.pmu.lend with took := true, transfer := transfer s.pmu.lend }
    if a = ownNode s then sendGive (lendWatts s)
    else sendTow a (lendMsg s 2 s.pmu.lend.tick 10 0) s
  | none => setLend s { s.pmu.lend with took := true }

/-- A SLACK reaches the coordinator. -/
def collectSlack (node tick wait cap : Nat) (s : State) : State :=
  let l := s.pmu.lend
  if tick ≠ l.tick || !l.members.contains node then s
  else
    let s := setLend s { l with
      slacks := (l.slacks.filter (·.1 != node)) ++ [(node, wait, cap)],
      recent := (l.recent.filter (·.1 != node)) ++ [(node, tick)] }
    if coordinator s = ownNode s && s.pmu.lend.slacks.length = s.pmu.lend.members.length then sendTake s else s

/-- LEND_TICK: a member's SLACK to the coordinator, with the barrier wait it has measured over the tick, in µs (R462). -/
def lendTick (s : State) : State :=
  let l := s.pmu.lend
  let t := now s / 1000000
  let wait := l.barrier / 1000
  if l.pool = none || t ≤ l.tick then s
  else
    let s := setLend s { l with tick := t, slacks := [], took := false, moved := false, transfer := none, barrier := 0,
                                recent := atTick t s }
    if coordinator s = ownNode s then collectSlack (ownNode s) t wait (capInForce s) s
    else sendTow (coordinator s) (lendMsg s 1 t wait (capInForce s)) s

/-- The row's operand is not used: the module measures its wait itself. -/
def execLendTick (_wait : Nat) (s : State) : Out := .next (whenRunning s lendTick)

def execSlack (node tick wait cap : Nat) (s : State) : Out :=
  .next (whenRunning s fun s => if s.pmu.lend.pool = none then s else collectSlack node tick wait cap s)

/-- TAKE_TIMEOUT: 200 µs after the tick. -/
def execTakeTimeout (s : State) : Out :=
  .next (whenRunning s fun s =>
    if s.pmu.lend.pool ≠ none && coordinator s = ownNode s && 1000000 * s.pmu.lend.tick + 200000 ≤ now s then sendTake s
    else s)

/-- TAKE: the member's cap goes down by 10 W, and it answers TAKEN. -/
def take (tick : Nat) (s : State) : State :=
  if s.pmu.lend.pool = none || tick ≠ s.pmu.lend.tick || (s.pmu.setCap : Int) + s.pmu.lend.net < 910 then s
  else
    let s := heardCoordinator (lendWatts s)
    sendTow (coordinator s) (lendMsg s 3 tick 0 0) s

def execTake (tick : Nat) (s : State) : Out := .next (whenRunning s (take tick))

/-- TAKEN: the coordinator sends GIVE, then RENEW. -/
def execTaken (node tick : Nat) (s : State) : Out :=
  .next (whenRunning s fun s =>
    if s.pmu.lend.pool ≠ none && tick = s.pmu.lend.tick && s.pmu.lend.took && !s.pmu.lend.moved
      && coordinator s = ownNode s && s.pmu.lend.transfer.map (·.1) = some node then sendGive s
    else s)

/-- GIVE: the member's cap goes up. -/
def execGive (tick watts : Nat) (s : State) : Out :=
  .next (whenRunning s fun s =>
    if s.pmu.lend.pool ≠ none && tick = s.pmu.lend.tick then
      heardCoordinator (setNet (s.pmu.lend.net + watts) s) else s)

/-- RENEW: `net` is the message's nets, every member's, as one number; a member keeps them all, so that a new coordinator
starts from them. -/
def execRenew (tick : Nat) (net : Int) (s : State) : Out :=
  .next (whenRunning s fun s =>
    if s.pmu.lend.pool ≠ none && tick = s.pmu.lend.tick then
      let nets := netsOf s.pmu.lend.members net
      heardCoordinator (renewed (tabGet 0 nets (ownNode s)) (setLend s { s.pmu.lend with nets := nets }))
    else s)

/-- RENEW_TIMEOUT: 500 µs after the tick with no transfer. -/
def execRenewTimeout (s : State) : Out :=
  .next (whenRunning s fun s =>
    if s.pmu.lend.pool ≠ none && coordinator s = ownNode s && !s.pmu.lend.moved
      && 1000000 * s.pmu.lend.tick + 500000 ≤ now s then sendRenew s
    else s)

/-- LEND_RECEIVED_LAPSE: 5 ms after the last RENEW. -/
def execLendReceivedLapse (s : State) : Out :=
  .next (if s.pmu.lend.received ≠ 0 && s.pmu.lend.lastRenew + 5000000 ≤ now s then
    setLend s { s.pmu.lend with received := 0 } else s)

/-- LEND_RETURN: 10 ms after the last RENEW; what a later TAKE lent stays lent for 10 ms, so that the matching raise has ended
(DESIGN CHOICE, log 62). -/
def execLendReturn (s : State) : Out :=
  .next (if s.pmu.lend.lent ≠ 0 && max s.pmu.lend.lastRenew s.pmu.lend.lentAt + 10000000 ≤ now s then
    setLend s { s.pmu.lend with lent := 0 } else s)

end Sys2Proof.Machine
end

