-- ==== Sys2Proof/Machine/Link.lean ====
section
/-!
DEFINITION. The Fyant links (13 R362-R371): training, HAIL, flits with their check codes, replay and credits, retrains,
rekeys, a port going down.
-/

namespace Sys2Proof.Machine

/-- The fabric unit runs: from phase 4 on, awake or waking past the stacks. -/
def linksOn (s : State) : Bool :=
  s.boot.vsb && !s.boot.inReset && !s.boot.halted && 4 ≤ s.boot.phase
    && (s.pmu.sleep = .awake || s.pmu.sleep = .ports || s.pmu.sleep = .resume)

/-- An event of a present port while the fabric unit runs. -/
def onPort (p : Nat) (s : State) (f : Port → State → State) : Out :=
  onUnit 16 p s fun s => if linksOn s && portPresent s p then f (portAt s p) s else s

/-! ## Flits (R363, R368) -/

/-- Byte 0: channel, kind and key epoch. -/
def flitType (vc kind : Nat) (epoch : Bool) : Nat := vc + 4 * kind + flag epoch 4

/-- Bytes 0 to 7. -/
def flitHead (vc kind : Nat) (epoch : Bool) (length : Nat) (seq ack : BitVec 16) (cvc credit : Nat) : List Byte :=
  toLe 1 (flitType vc kind epoch) ++ toLe 1 length ++ toLe 2 seq.toNat ++ toLe 2 ack.toNat ++ toLe 2 (2 ^ 14 * cvc + credit)

/-- The GCM nonce: the salt, then the 64-bit count. -/
def LinkKey.nonce (k : LinkKey) : Nat := k.salt.toNat + 2 ^ 32 * (k.count % 2 ^ 64)

/-- A sealed flit: header, 224 encrypted bytes, tag, CRC. -/
def sealFlit (k : LinkKey) (head data : List Byte) : List Byte :=
  let ct := frameText k.key k.nonce (data ++ zeros (224 - data.length))
  let body := head ++ ct ++ gcmTagBytes k.key k.nonce head ct
  body ++ toLe 8 (crc64 body)

/-- A HAIL flit goes in the clear and carries no tag. -/
def clearFlit (data : List Byte) : List Byte :=
  let body := flitHead 0 3 false data.length 0 0 0 0 ++ data ++ zeros (224 - data.length) ++ zeros 16
  body ++ toLe 8 (crc64 body)

/-! ## HAIL (R367) -/

/-- Bytes of a DER item at the head of a string. -/
def derLength (bs : List Byte) : Nat :=
  let b (i : Nat) : Nat := (bs[i]?.getD 0).toNat
  if b 1 < 128 then 2 + b 1
  else if b 1 = 0x81 then 3 + b 2
  else if b 1 = 0x82 then 4 + 256 * b 2 + b 3
  else 5 + 65536 * b 2 + 256 * b 3 + b 4

/-- Bytes of the flash. -/
def flashRead (s : State) (a n : Nat) : List Byte := (memRead s.flash.bytes a n).map fun b => b ^^^ 0xFF

/-- The device identity certificate and the Haldyen CA certificate, as they stand in flash (R483, R428). -/
def identityChain (s : State) : List Byte :=
  let area := flashRead s 0x1130000 65536
  let n := derLength area
  area.take (n + derLength (area.drop n))

/-- What a HAIL message carries. Its layout is the model's own (DESIGN CHOICE, log 36). -/
def hailBytes (p : Nat) (key : Nat) (s : State) : List Byte :=
  let chain := identityChain s
  let k := toLe 96 key
  toLe 8 s.fuse.serial.toNat ++ toLe 1 p ++ toLe 2 (ownNode s) ++ toLe 2 chain.length ++ chain ++ k
    ++ (Config.identitySign (s.boot.identityKey.getD 0) k).take 96

/-- Send HAIL on a port, in as many flits as it takes; it waits for the end of a whole-module tenant switch (R444). -/
def sendHail (p : Nat) (s : State) : State :=
  let x := portAt s p
  let bs := hailBytes p x.ephemeral s
  if wholeSwitch s then setPort s p { x with sent := [], hailDue := true }
  else setPort s p { x with sent := (chunks 224 (bs.length + 1) bs).map clearFlit, hailDue := false }

/-- What a tenant switch has kept back goes out (R444). -/
def releaseHeld (s : State) : State :=
  if wholeSwitch s then s else
  releaseTow (((List.range 16).filter fun p => (portAt s p).hailDue).foldl (fun s p => sendHail p s) s)

/-- PORT_TRAINED: all four lanes have trained, and HAIL goes out under a fresh ephemeral key (R362). -/
def execPortTrained (port roundTrip : Nat) (s : State) : Out :=
  onPort port s fun x s =>
    if x.state = .training || x.state = .down then
      sendHail port (setPort s port { x with state := .hailing, roundTrip := roundTrip, lanes := 15, heard := now s,
                                             ephemeral := Config.ephemeral port (now s) })
    else s

/-- The two keys of a link session or rekey, sending and receiving (R368). -/
def newKeys (own peer : Nat) (mine theirs : W64) (tx rx : Bool) : LinkKey × LinkKey :=
  ({ key := Config.linkKey own peer mine theirs, salt := Config.linkSalt own peer mine theirs, epoch := tx },
   { key := Config.linkKey own peer theirs mine, salt := Config.linkSalt own peer theirs mine, epoch := rx })

/-- The link session is established: keys, and the peer's credit to come. -/
def linkUp (p : Nat) (x : Port) (h : Hail) (s : State) : State :=
  let k := newKeys x.ephemeral h.ephemeral s.fuse.serial h.serial false false
  raise .portUp (setPort s p { x with
    state := .up, epoch := 0, peerSerial := h.serial, peerNode := h.node, peerPort := BitVec.ofNat 8 h.port,
    tx := k.1, rx := k.2, upSince := now s, keyedAt := now s, heard := now s, resent := 0, fecTotal := 0,
    owed := #v[Config.bufferFlits 0, Config.bufferFlits 1, Config.bufferFlits 2, Config.bufferFlits 3] })

/-- HAIL_RECEIVE: the peer's identity is verified. On an up port a HAIL announces a new node ID (R375). -/
def execHailReceive (port : Nat) (hail : Hail) (s : State) : Out :=
  onPort port s fun x s =>
    let good := Config.peerVerified hail.chain hail.ephemeral hail.signature
    match x.state with
    | .hailing => if good then linkUp port x hail s else setPort s port { x with state := .refused }
    | .up => if good && hail.serial = x.peerSerial then setPort s port { x with peerNode := hail.node, heard := now s }
      else s
    | _ => s

/-! ## Going down (R365, R366) -/

def portLoc (p : Nat) : Nat × Nat × Nat := (2, p, 0)

/-- The whole messages at the front of a received byte stream. -/
def wholeMsgs : Nat → List Byte → List Byte
  | 0, _ => []
  | fuel + 1, bs => match takeMsg bs with
    | some (_, rest) => bs.take (bs.length - rest.length) ++ wholeMsgs fuel rest
    | none => []

/-- A message that a port going down has not begun to send takes another port of its set; with none it is dropped as one
in transit or of this module's own is (R366, R380). -/
def reroute (vc : Nat) (q : Queued) (s : State) : State :=
  if q.begun then s else
  match takeMsg q.bytes with
  | none => s
  | some (m, _) =>
    if vc = vcTowpath then (if m.dest < 0xFFFE then towOn m s else s)
    else match sendMsg vc { m with place := q.owner } s with
      | some s => s
      | none => if m.src = ownNode s && vc ≠ vcResponse then refuseRemote m.tag (countDrop s) else dropTransit vc m s

/-- A port goes down: its session and its unacknowledged flits are gone, with the rest of a message that has been begun;
what it has received stays, what it has still to send goes by other ports; its counters stay (R365, R366, R381). -/
def goDown (p : Nat) (s : State) : State :=
  let x := portAt s p
  let s' := setPort s p { crcRetry := x.crcRetry, fecCorr := x.fecCorr, retrains := x.retrains, tagFail := x.tagFail,
                          rxq := x.rxq.map fun bs => wholeMsgs bs.length bs }
  let s' := (List.range 4).foldl (fun s vc => (x.txq[vc]?.getD []).foldl (fun s q => reroute vc q s) s) s'
  if x.state = .up then report 6 (portLoc p) none 1 (raise .portDown s') else s'

/-- PORT_SILENCE_TIMEOUT: nothing has come from the peer for 1 ms. -/
def execPortSilenceTimeout (port : Nat) (s : State) : Out :=
  onPort port s fun x s =>
    if ((x.state = .up && !x.retraining) || x.state = .hailing) && x.heard + 1000000 ≤ now s then goDown port s else s

/-- After 8 consecutive retries of a flit the port retrains. -/
def startRetrain (p : Nat) (s : State) : State :=
  let x := portAt s p
  report 5 (portLoc p) none 1
    (setPort s p { x with retraining := true, retries := 0, retrains := satAdd x.retrains 1 })

/-- PORT_RETRAIN_DONE: replay goes on with every unacknowledged flit, or the port goes down, with the lanes that trained,
which the row does not name (R362, R365). -/
def execPortRetrainDone (port : Nat) (up : Bool) (s : State) : Out :=
  onPort port s fun x s =>
    if !x.retraining then s
    else if up then setPort s port { x with retraining := false, heard := now s, resend := x.replay.map (·.flit) }
    else
      let s := goDown port s
      setPort { s with free := s.free + 1 } port { portAt s port with lanes := Config.lanesTrained s.free }

/-! ## Rekey (R370) -/

/-- The towpath message of a rekey: its code and the ephemeral key (log 23). -/
def rekeyMsg (key : Nat) : List Byte := toLe 4 6 ++ toLe 96 key

/-- Send a towpath message to the peer of a link. -/
def towPeer (p : Nat) (bs : List Byte) (s : State) : State := putOut p vcTowpath (towMsg s (onePort p) bs) s

/-- A port's own rekey message still waits to be sent: until it has gone, the port sends under the old key (R370). -/
def Port.owesKey (x : Port) : Bool := (x.txq[3]).any fun q => field q.bytes 24 4 = 6

/-- A fresh exchange starts on an up port, unless one is running. -/
def startRekey (p : Nat) (s : State) : State :=
  let x := portAt s p
  if x.state ≠ .up || x.rekeying then s
  else
    let e := Config.ephemeral p (now s)
    towPeer p (rekeyMsg e) (setPort s p { x with rekeying := true, awaitKey := true, ephemeral := e })

/-- Both directions have switched: the rekey is done, and so is the LINK-REKEY that asked for it. -/
def rekeySettle (p : Nat) (s : State) : State :=
  let x := portAt s p
  if !x.rekeying || x.awaitKey || x.nextTx.isSome || x.nextRx.isSome then s
  else
    let s' := setPort s p { x with rekeying := false, epoch := (x.epoch + 1) % 256, keyedAt := now s, rekeyCmd := none }
    match x.rekeyCmd with
    | some c => doneCmd c 0 s'
    | none => s'

/-- REKEY_MESSAGE_RECEIVE: the peer's key; a side that had not sent its own answers with it. -/
def execRekeyMessageReceive (port : Nat) (peerKey : Nat) (s : State) : Out :=
  onPort port s fun x s =>
    if x.state ≠ .up || (x.rekeying && !x.awaitKey) then s
    else
      let own := if x.rekeying then x.ephemeral else Config.ephemeral port (now s)
      let k := newKeys own peerKey s.fuse.serial x.peerSerial (!x.tx.epoch) (!x.rx.epoch)
      let y := { x with rekeying := true, awaitKey := false, ephemeral := own, nextTx := some k.1, nextRx := some k.2 }
      let s := setPort s port y
      if x.rekeying then s else towPeer port (rekeyMsg own) s

/-! ## Sending (R364, R371) -/

/-- The acknowledge field: the latest flit received in order, or with bit 15 inverted a negative acknowledgement
(DESIGN CHOICE, log 35). -/
def ackField (x : Port) : BitVec 16 := if x.nak then x.rxNext - 1 + 0x8000 else x.rxNext - 1

/-- The credit that the next flit returns: one channel's. -/
def creditOut (x : Port) : Nat × Nat :=
  match (List.range 4).find? fun v => 0 < x.owed[v]?.getD 0 with
  | some v => (v, min (x.owed[v]?.getD 0) 16383)
  | none => (0, 0)

/-- A channel has a flit and credit for it. -/
def Port.ready (x : Port) (vc : Nat) : Bool := x.txq[vc]?.getD [] ≠ [] && 0 < x.credit[vc]?.getD 0

/-- The output arbitration of R371. -/
def pickChannel (x : Port) : Option Nat :=
  if x.ready vcTowpath && 64 ≤ x.sinceTowpath then some vcTowpath
  else if x.ready vcResponse then some vcResponse
  else if x.ready vcRequest && (!x.ready vcBulk || 3 ≤ x.bulkRun) then some vcRequest
  else if x.ready vcBulk then some vcBulk
  else none

/-- The messages of the time exchange are stamped as they leave (R386): t1 in a request, t3 in a reply. -/
def stamped (q : Queued) (s : State) : List Byte :=
  if q.begun || field q.bytes 8 1 ≠ kindTow then q.bytes
  else if field q.bytes 24 4 = 7 then q.bytes.take 28 ++ toLe 8 (now s)
  else if field q.bytes 24 4 = 8 then q.bytes.take 44 ++ toLe 8 (now s)
  else q.bytes

/-- A channel's queue after a flit of the message at its front. -/
def afterFlit : List Queued → List Queued
  | [] => []
  | q :: qs => if q.bytes.length ≤ 224 then qs else { q with bytes := q.bytes.drop 224, begun := true } :: qs

/-- The data of the next flit of a channel. -/
def nextData (x : Port) (vc : Nat) (s : State) : List Byte :=
  match x.txq[vc]?.getD [] with
  | q :: _ => (stamped q s).take 224
  | [] => []

/-- A message that a tenant switch does not keep back (R444): one in transit, the rekey exchange, and while no switch of the
whole module runs any other of this module's that does not serve a partition in a switch. -/
def Queued.free (q : Queued) (s : State) : Bool :=
  !q.own || (field q.bytes 8 1 = kindTow && field q.bytes 24 4 = 6)
    || (!wholeSwitch s && !(q.owner.any fun p => (partAt s p).switch ≠ .none))

/-- A channel's queue as the port sends from it: the message that has been begun, else the first that may go. -/
def lined (s : State) (qs : List Queued) : List Queued :=
  match qs with
  | q :: _ => if q.begun then qs else qs.filter (·.free s)
  | [] => []

/-- The messages that a channel keeps back. -/
def keptBack (s : State) (qs : List Queued) : List Queued :=
  match qs with
  | q :: _ => if q.begun then [] else qs.filter fun q => !q.free s
  | [] => []

/-- A partition's data leave a port's buffers: its messages go, what is left of one that has been begun and its unacknowledged
flits are zeros (R441, R444). -/
def Port.clearOf (p : Nat) (x : Port) : Port :=
  let mine (o : Option Nat) : Bool := o = some p
  { x with
    txq := x.txq.map fun qs => (qs.filter fun q => !(q.own && mine q.owner && !q.begun)).map fun q =>
      if mine q.owner then { q with bytes := zeros q.bytes.length } else q
    resend := x.resend.map fun f => match x.replay.find? fun r => r.flit = f && mine r.owner with
      | some r => r.blank
      | none => f
    replay := x.replay.map fun r => if mine r.owner then { r with flit := r.blank } else r }

def clearPorts (p : Nat) (s : State) : State := (List.range 16).foldl (fun s n => setPort s n ((portAt s n).clearOf p)) s

/-- Send one new flit: data of a channel, or an idle flit. A pending key is taken into use with it. -/
def sendNew (p : Nat) (s : State) : State :=
  let all := (portAt s p).txq
  let x := { portAt s p with txq := all.map (lined s) }
  let vc := pickChannel x
  let k := if x.owesKey then x.tx else x.nextTx.getD x.tx
  let v := vc.getD 0
  let data := if vc.isSome then nextData x v s else []
  let cr := creditOut x
  let head := flitHead v (if vc.isSome then 0 else 1) k.epoch data.length x.txSeq (ackField x) cr.1 cr.2
  let flit := sealFlit k head data
  let owner := if vc.isSome then (x.txq[v]?.getD []).head?.bind (·.owner) else none
  let y := { x with
    tx := { k with count := k.count + 1 }, nextTx := if x.owesKey then x.nextTx else none, txSeq := x.txSeq + 1, nak := false,
    replay := x.replay ++ [Replayed.mk x.txSeq flit owner (if owner.isSome then sealFlit k head (zeros data.length) else [])],
    sent := [flit],
    owed := x.owed.setIfInBounds cr.1 (x.owed[cr.1]?.getD 0 - cr.2),
    sinceTowpath := if vc = some vcTowpath then 0 else min 64 (x.sinceTowpath + 1),
    bulkRun := if vc = some vcRequest then 0 else if vc = some vcBulk then min 3 (x.bulkRun + 1) else x.bulkRun }
  let y := if vc.isSome then { y with txq := y.txq.setIfInBounds v (afterFlit (y.txq[v]?.getD [])),
                                       credit := y.credit.setIfInBounds v (y.credit[v]?.getD 0 - 1) } else y
  let y := { y with txq := Vector.ofFn fun i : Fin 4 => y.txq[i] ++ keptBack s all[i] }
  let s := rekeySettle p (setPort s p y)
  if k.count + 1 = 2 ^ 40 then startRekey p s else s

/-- FLIT_TRANSMIT: an unacknowledged flit that is to be resent, else a new one while the replay buffer has room. -/
def execFlitTransmit (port : Nat) (s : State) : Out :=
  onPort port s fun x s =>
    if x.state ≠ .up || x.retraining then s
    else match x.resend with
      | f :: fs => setPort s port { x with resend := fs, sent := [f], crcRetry := satAdd x.crcRetry 1,
                                           resent := satAdd x.resent 1 }
      | [] => if x.replay.length < 1024 then sendNew port s else s

/-! ## Receiving (R364, R369) -/

/-- Apply the acknowledge field: what it acknowledges leaves the replay buffer; a negative one has the rest resent. -/
def applyAck (ack : BitVec 16) (x : Port) : Port :=
  let first := match x.replay with | r :: _ => r.seq | [] => x.txSeq
  let d := (ack - first + 1).toNat
  let e := (ack + 0x8000 - first + 1).toNat
  if d ≤ x.replay.length then
    { x with replay := x.replay.drop d, retries := if d = 0 then x.retries else 0 }
  else if e ≤ x.replay.length then
    { x with replay := x.replay.drop e, resend := (x.replay.drop e).map (·.flit),
             retries := if e = 0 then x.retries + 1 else 1 }
  else x

/-- What is kept of a towpath channel's bytes: messages for other nodes, which MESSAGE_FORWARD sends on (R378), and the part
of a message that has come. Those for this module arrive as rows of their own. -/
def keepTow (own : Nat) : Nat → List Byte → List Byte
  | 0, bs => bs
  | fuel + 1, bs => match takeMsg bs with
    | some (m, rest) =>
      (if m.dest ≠ own && m.dest < 0xFFFE then bs.take (bs.length - rest.length) else []) ++ keepTow own fuel rest
    | none => bs

/-- A flit in order with a good tag: its credit is taken, its data delivered, and the room it held given back. -/
def acceptFlit (own : Nat) (x : Port) (k : LinkKey) (flit : List Byte) : Port :=
  let t := field flit 0 1
  let vc := t % 4
  let cr := field flit 6 2
  let text := (frameText k.key k.nonce ((flit.drop 8).take 224)).take (field flit 1 1)
  let x := { x with
    rx := { k with count := k.count + 1 }
    nextRx := if k.epoch = x.rx.epoch then x.nextRx else none
    rxNext := x.rxNext + 1
    credit := x.credit.setIfInBounds (cr / 2 ^ 14) (x.credit[cr / 2 ^ 14]?.getD 0 + cr % 2 ^ 14) }
  if t / 4 % 4 ≠ 0 then x
  else
    let x := { x with owed := x.owed.setIfInBounds vc (x.owed[vc]?.getD 0 + 1) }
    let bs := x.rxq[vc]?.getD [] ++ text
    { x with rxq := x.rxq.setIfInBounds vc (if vc = vcTowpath then keepTow own bs.length bs else bs) }

/-- The key that a flit's epoch bit names. -/
def rxKey (x : Port) (epoch : Bool) : Option LinkKey :=
  if epoch = x.rx.epoch then some x.rx else x.nextRx

/-- A tag failure (R369). -/
def tagFailure (p : Nat) (s : State) : State :=
  let x := portAt s p
  goDown p (report 12 (portLoc p) none 1 (raise .linkAuth (setPort s p { x with tagFail := satAdd x.tagFail 1 })))

/-- The acknowledge field of a delivered flit: a ninth negative one of a flit, after its 8 retries, retrains the port. -/
def acknowledged (p : Nat) (flit : List Byte) (s : State) : State :=
  let x := applyAck (BitVec.ofNat 16 (field flit 4 2)) (portAt s p)
  if 9 ≤ x.retries then startRetrain p (setPort s p x) else setPort s p x

/-- A flit with a good CRC: one out of order is discarded, and so is what it acknowledges (R364). -/
def goodFlit (p : Nat) (flit : List Byte) (s : State) : State :=
  let x := portAt s p
  if BitVec.ofNat 16 (field flit 2 2) ≠ x.rxNext then s
  else
    match rxKey x (bit (field flit 0 1) 4) with
    | none => tagFailure p s
    | some k =>
      if (flit.drop 232).take 16 = gcmTagBytes k.key k.nonce (flit.take 8) ((flit.drop 8).take 224) then
        let s := acknowledged p flit s
        let s := rekeySettle p (setPort s p (acceptFlit (ownNode s) (portAt s p) k flit))
        if k.count + 1 = 2 ^ 40 then startRekey p s else s
      else tagFailure p s

/-- FLIT_RECEIVE: a flit of 256 bytes after FEC, with the codewords that FEC corrected. A HAIL flit is HAIL_RECEIVE's. -/
def execFlitReceive (port : Nat) (flit : List Byte) (fec : Nat) (s : State) : Out :=
  onPort port s fun x s =>
    if x.state ≠ .up || x.retraining || flit.length ≠ 256 then s
    else
      let x := { x with fecCorr := satAdd x.fecCorr fec, fecTotal := satAdd x.fecTotal fec, heard := now s }
      if field flit 248 8 ≠ crc64 (flit.take 248) then setPort s port { x with nak := true }
      else if field flit 0 1 / 4 % 4 = 3 then setPort s port x
      else goodFlit port flit (setPort s port x)

/-! ## Commands (R370, R391, R392) -/

/-- The 64-byte record of R391. -/
def linkRecord (p : Nat) (s : State) : List Byte :=
  let x := portAt s p
  toLe 4 (portStatus p s) ++ toLe 4 x.roundTrip ++ toLe 8 x.peerSerial.toNat ++ toLe 2 x.peerNode.toNat
    ++ toLe 1 x.peerPort.toNat ++ [0] ++ toLe 4 x.resent.toNat ++ toLe 8 x.fecTotal.toNat ++ toLe 8 x.tx.count
    ++ toLe 8 x.keyedAt ++ toLe 8 x.upSince ++ zeros 8

def linkStateChk (s : State) (c : Cmd) : Chk Unit := do
  let p := c.at 16 1
  need (p < 16) (c.bad 16)
  c.rangesAnd s p (portPresent s p) [(24, c.addr 24, 64)]

def execLinkState (cmd : Nat) (s : State) : Out :=
  onCmd 0x0604 cmd s fun c s =>
    judged c (linkStateChk s c) s fun _ s => c.reaching (c.addr 24) 64 s fun s =>
      doneCmd c.id 0 (c.put (c.addr 24) (clean (linkRecord (c.at 16 1) s)) s)

def linkRekeyChk (s : State) (c : Cmd) : Chk Unit := do
  let p := c.at 16 1
  need (p < 16) (c.bad 16)
  need (portPresent s p) (.absent p)
  need ((portAt s p).state = .up) .busy

/-- LINK-REKEY: it starts an exchange, or waits for one that runs to end before its own; rekeySettle completes it. -/
def execLinkRekey (cmd : Nat) (s : State) : Out :=
  onCmd 0x0605 cmd s fun c s =>
    let p := c.at 16 1
    if c.progress = 1 then s else
    judged c (linkRekeyChk s c) s fun _ s =>
      if (portAt s p).rekeying then s
      else
        let s := startRekey p (updCmd c.id (fun x => { x with progress := 1 }) s)
        setPort s p { portAt s p with rekeyCmd := some c.id }

end Sys2Proof.Machine
end

