-- ==== Sys2Proof/Machine/Numbers.lean ====
section
/-!
DEFINITION. Number formats and arithmetic (04): exact values, rounding (R100, R101), overflow and NaN (R104-R106), the
scalar, MX, MZ and custom formats (R83-R99), binary32 arithmetic (R106, R107, R109).
-/

namespace Sys2Proof.Machine

/-- A value: NaN, an infinity, or (-1)^neg × m × 2^e exactly. -/
inductive Fp where
  | nan
  | inf (neg : Bool)
  | fin (neg : Bool) (m : Nat) (e : Int)
deriving DecidableEq, Repr

/-- Rounding modes of R100. -/
inductive Rnd where
  | even
  | zero
  | stochastic
deriving DecidableEq, Repr

/-- How a conversion rounds and overflows: the mode, and whether INF replaces SAT (R104). -/
structure Mode where
  rnd : Rnd := .even
  inf : Bool := false
deriving DecidableEq, Repr

/-- R101: one step of the engine's Galois register. -/
def lfsrStep (s : W32) : W32 := if s.getLsbD 0 then (s >>> 1) ^^^ 0x80200003 else s >>> 1

/-- Drop `d` low bits of a magnitude under a mode; `s` is the stepped LFSR (R100, R101). -/
def dropBits (rnd : Rnd) (s : W32) (m d : Nat) : Nat :=
  let q := m / 2 ^ d
  let r := m % 2 ^ d
  match rnd with
  | .zero => q
  | .even => if r * 2 > 2 ^ d || (r * 2 = 2 ^ d && q % 2 = 1) then q + 1 else q
  | .stochastic =>
    let n := min d 24
    if r / 2 ^ (d - n) + s.toNat / 2 ^ (32 - n) ≥ 2 ^ n then q + 1 else q

/-- Round m × 2^e to at most `p` significant bits with last place no lower than 2^low: the magnitude and its place. -/
def roundPlace (rnd : Rnd) (s : W32) (p : Nat) (low : Int) (m : Nat) (e : Int) : Nat × Int :=
  let q := max ((Nat.log2 m : Int) + e - (p - 1)) low
  if e ≥ q then (m * 2 ^ (e - q).toNat, q) else (dropBits rnd s m (q - e).toNat, q)

/-! ## Floating-point element formats -/

/-- What the all-ones exponent means: IEEE infinity and NaN, E4M3's single NaN, or finite values only. -/
inductive Top where
  | ieee
  | e4m3
  | finite
deriving DecidableEq, Repr

/-- A float format: exponent bits, mantissa bits, bias, top (R86, R92, R98). -/
structure FloatFmt where
  ew : Nat
  mw : Nat
  bias : Int
  top : Top
deriving DecidableEq, Repr

def binary32 : FloatFmt := ⟨8, 23, 127, .ieee⟩
def binary16 : FloatFmt := ⟨5, 10, 15, .ieee⟩
def bfloat16 : FloatFmt := ⟨8, 7, 127, .ieee⟩

def FloatFmt.width (f : FloatFmt) : Nat := 1 + f.ew + f.mw

/-- The place of the last bit of a subnormal. -/
def FloatFmt.low (f : FloatFmt) : Int := 1 - f.bias - f.mw

/-- The largest finite exponent field and mantissa. -/
def FloatFmt.maxFields (f : FloatFmt) : Nat × Nat :=
  match f.top with
  | .ieee => (2 ^ f.ew - 2, 2 ^ f.mw - 1)
  | .e4m3 => (2 ^ f.ew - 1, 2 ^ f.mw - 2)
  | .finite => (2 ^ f.ew - 1, 2 ^ f.mw - 1)

/-- The largest finite magnitude, as m × 2^e. -/
def FloatFmt.maxNum (f : FloatFmt) : Nat × Int :=
  let x := f.maxFields
  if x.1 = 0 then (x.2, f.low) else (2 ^ f.mw + x.2, (x.1 : Int) - f.bias - f.mw)

/-- Decode an encoding (R86, R87, R92, R98: subnormals are read in every format). -/
def FloatFmt.dec (f : FloatFmt) (v : Nat) : Fp :=
  let neg := bit v (f.ew + f.mw)
  let x := v / 2 ^ f.mw % 2 ^ f.ew
  let m := v % 2 ^ f.mw
  if f.top = .ieee && x = 2 ^ f.ew - 1 then (if m = 0 then .inf neg else .nan)
  else if f.top = .e4m3 && x = 2 ^ f.ew - 1 && m = 2 ^ f.mw - 1 then .nan
  else if x = 0 then .fin neg m f.low
  else .fin neg (2 ^ f.mw + m) ((x : Int) - f.bias - f.mw)

/-- The canonical NaN of R86. -/
def FloatFmt.nan (f : FloatFmt) : Nat := (2 ^ f.ew - 1) * 2 ^ f.mw + 2 ^ (f.mw - 1)

/-- Whether m × 2^e exceeds n × 2^k. -/
def exceeds (m : Nat) (e : Int) (n : Nat) (k : Int) : Bool :=
  if e ≥ k then m * 2 ^ (e - k).toNat > n else m > n * 2 ^ (k - e).toNat

/-- The bits of a magnitude that fits the format exactly. -/
def FloatFmt.pack (f : FloatFmt) (m : Nat) (q : Int) : Nat :=
  if m = 0 then 0
  else
    let l := Nat.log2 m
    if (l : Int) + q < 1 - f.bias then m * 2 ^ (q - f.low).toNat
    else
      let x := ((l : Int) + q + f.bias).toNat
      let frac := if l ≤ f.mw then m * 2 ^ (f.mw - l) else m / 2 ^ (l - f.mw)
      x * 2 ^ f.mw + (frac - 2 ^ f.mw)

/-- The encoding of ± the largest finite value, and of ± infinity where the format has it. -/
def FloatFmt.maxEnc (f : FloatFmt) (neg : Bool) : Nat :=
  flag neg (f.ew + f.mw) + f.maxFields.1 * 2 ^ f.mw + f.maxFields.2

def FloatFmt.infEnc (f : FloatFmt) (neg : Bool) : Nat :=
  if f.top = .ieee then flag neg (f.ew + f.mw) + (2 ^ f.ew - 1) * 2 ^ f.mw else f.maxEnc neg

/-- Encode a value (R100, R104, R105); a NaN goes to the canonical NaN where the format has one. -/
def FloatFmt.enc (f : FloatFmt) (mode : Mode) (s : W32) : Fp → Nat
  | .nan => if f.top = .ieee then f.nan else 0
  | .inf neg => f.infEnc neg
  | .fin neg m e =>
    if m = 0 then flag neg (f.ew + f.mw)
    else
      let r := roundPlace mode.rnd s (f.mw + 1) f.low m e
      if exceeds r.1 r.2 f.maxNum.1 f.maxNum.2 then
        (if mode.inf && mode.rnd ≠ .zero then f.infEnc neg else f.maxEnc neg)
      else flag neg (f.ew + f.mw) + f.pack r.1 r.2

/-! ## binary32 arithmetic (R106) -/

def IEEE : Mode := { rnd := .even, inf := true }

def dec32 (v : W32) : Fp := binary32.dec v.toNat

/-- Round a value to binary32, to nearest even, overflowing to infinity (R106). -/
def r32 (x : Fp) : W32 := BitVec.ofNat 32 (binary32.enc IEEE 0 x)

def dec16 (v : Nat) : Fp := binary16.dec v

def Fp.isNan : Fp → Bool
  | .nan => true
  | _ => false

def Fp.isNeg : Fp → Bool
  | .nan => false
  | .inf n => n
  | .fin n _ _ => n

def Fp.neg : Fp → Fp
  | .nan => .nan
  | .inf n => .inf !n
  | .fin n m e => .fin (!n) m e

def Fp.abs : Fp → Fp
  | .nan => .nan
  | .inf _ => .inf false
  | .fin _ m e => .fin false m e

/-- The signed integer at place `q` of a finite value with e ≥ q. -/
def atPlace (neg : Bool) (m : Nat) (e q : Int) : Int :=
  let v : Int := (m * 2 ^ (e - q).toNat : Nat)
  if neg then -v else v

/-- Exact sum; a zero sum is -0 only when both addends are -0. -/
def Fp.add : Fp → Fp → Fp
  | .nan, _ => .nan
  | _, .nan => .nan
  | .inf a, .inf b => if a = b then .inf a else .nan
  | .inf a, _ => .inf a
  | _, .inf b => .inf b
  | .fin a m e, .fin b n k =>
    let q := min e k
    let v := atPlace a m e q + atPlace b n k q
    if v = 0 then .fin (a && b) 0 q else .fin (v < 0) v.natAbs q

/-- Exact product. -/
def Fp.mul : Fp → Fp → Fp
  | .nan, _ => .nan
  | _, .nan => .nan
  | .inf a, .inf b => .inf (a != b)
  | .inf a, .fin b n _ => if n = 0 then .nan else .inf (a != b)
  | .fin a m _, .inf b => if m = 0 then .nan else .inf (a != b)
  | .fin a m e, .fin b n k => .fin (a != b) (m * n) (e + k)

/-- Multiply by 2^k. -/
def Fp.scale (x : Fp) (k : Int) : Fp :=
  match x with
  | .fin n m e => .fin n m (e + k)
  | y => y

/-- a < b for values that are not NaN. -/
def Fp.lt (a b : Fp) : Bool :=
  match a, b with
  | .nan, _ => false
  | _, .nan => false
  | .inf x, .inf y => x && !y
  | .inf x, .fin _ _ _ => x
  | .fin _ _ _, .inf y => !y
  | .fin a m e, .fin b n k => let q := min e k; atPlace a m e q < atPlace b n k q

def add32 (a b : W32) : W32 := r32 ((dec32 a).add (dec32 b))
def sub32 (a b : W32) : W32 := r32 ((dec32 a).add (dec32 b).neg)
def mul32 (a b : W32) : W32 := r32 ((dec32 a).mul (dec32 b))
/-- a × b + c with one rounding (R109). -/
def fma32 (a b c : W32) : W32 := r32 (((dec32 a).mul (dec32 b)).add (dec32 c))

def nan32 : W32 := 0x7FC00000
def negInf32 : W32 := 0xFF800000
def one32 : W32 := 0x3F800000

/-- Maximum and minimum; a NaN operand gives NaN (R132). Of +0 and -0, which neither R106 nor R132 orders, the first
operand results (DESIGN CHOICE, log 61). -/
def max32 (a b : W32) : W32 :=
  if (dec32 a).isNan || (dec32 b).isNan then nan32 else if (dec32 a).lt (dec32 b) then b else a
def min32 (a b : W32) : W32 :=
  if (dec32 a).isNan || (dec32 b).isNan then nan32 else if (dec32 b).lt (dec32 a) then b else a

/-- The exact sum of products, rounded once (R107, R252's exact_dot before its r32). -/
def dot (xs ys : List Fp) : Fp := (List.zipWith Fp.mul xs ys).foldl Fp.add (.fin true 0 0)

/-- Pairwise tree reduction: each level combines elements 2j and 2j + 1 (R133). -/
def pairUp (f : W32 → W32 → W32) : List W32 → List W32
  | a :: b :: t => f a b :: pairUp f t
  | l => l

def treeReduce (f : W32 → W32 → W32) (xs : List W32) : W32 :=
  (pairUp f (pairUp f (pairUp f (pairUp f (pairUp f (pairUp f xs)))))).headD 0

/-! ## The formats of the table (R83-R85, R98) -/

/-- A format with its parameters. -/
inductive Fmt where
  | float (f : FloatFmt)
  | int (w : Nat)
  | mx (f : FloatFmt)
  | mxint8
  | mz (w : Nat)
  | custom (s : Slot)
deriving DecidableEq, Repr

def e4m3 : FloatFmt := ⟨4, 3, 7, .e4m3⟩
def e5m2 : FloatFmt := ⟨5, 2, 15, .ieee⟩
def e3m2 : FloatFmt := ⟨3, 2, 3, .finite⟩
def e2m3 : FloatFmt := ⟨2, 3, 1, .finite⟩
def e2m1 : FloatFmt := ⟨2, 1, 1, .finite⟩

/-- The format of a code, with the partition's custom slots (R83, R84, R99); none for a reserved code or an unloaded
slot. -/
def formatOf (slots : Tab Slot) (code : Nat) : Option Fmt :=
  match code with
  | 0 => some (.float binary16)
  | 1 => some (.float bfloat16)
  | 2 => some (.int 8)
  | 3 => some (.int 4)
  | 4 => some (.mx e4m3)
  | 5 => some (.mx e5m2)
  | 6 => some (.mx e3m2)
  | 7 => some (.mx e2m3)
  | 8 => some (.mx e2m1)
  | 9 => some .mxint8
  | 10 => some (.mz 4)
  | 11 => some (.mz 6)
  | 16 => some (.float binary32)
  | c => if 12 ≤ c && c ≤ 15 then (tabFind slots c).map .custom else none

/-- Element bits. -/
def Fmt.width : Fmt → Nat
  | .float f => f.width
  | .int w => w
  | .mx f => f.width
  | .mxint8 => 8
  | .mz w => w
  | .custom s => s.width

/-- Elements a block: 1 for a format without blocks. -/
def Fmt.block : Fmt → Nat
  | .float _ => 1
  | .int _ => 1
  | .custom s => if s.scale = 0 then 1 else s.block
  | _ => 32

/-- Bytes of one block's scale (R90, R98). -/
def Fmt.scaleBytes : Fmt → Nat
  | .mx _ => 1
  | .mxint8 => 1
  | .custom s => s.scale
  | _ => 0

/-- Stored in groups of 8 blocks (R90). -/
def Fmt.grouped (f : Fmt) : Bool := f.scaleBytes ≠ 0

def Fmt.isMz : Fmt → Bool
  | .mz _ => true
  | _ => false

/-- Bytes of a group, or of an MZ block (R90). -/
def Fmt.unitBytes (f : Fmt) : Nat :=
  match f with
  | .mz w => 4 + 4 * w
  | f => if f.grouped then 8 * f.scaleBytes + f.block * f.width else 0

/-- The element format of a custom float slot (R98): every code finite. -/
def Slot.float (s : Slot) : FloatFmt := ⟨s.exponent, s.width - 1 - s.exponent, s.bias, .finite⟩

/-- Number of `w` bits at bit `b` of a byte string (R89). -/
def bitsAt (bs : List Byte) (b w : Nat) : Nat := field bs (b / 8) ((b % 8 + w + 7) / 8) / 2 ^ (b % 8) % 2 ^ w

/-- The value of one element code, before any block scale. -/
def Fmt.elem (f : Fmt) (v : Nat) : Fp :=
  let int (w : Nat) (k : Int) : Fp := let i := signed w v; .fin (i < 0) i.natAbs k
  match f with
  | .float g => g.dec v
  | .int w => int w 0
  | .mx g => g.dec v
  | .mxint8 => int 8 (-6)
  | .mz w => int w (2 - w)
  | .custom s => if s.exponent = 0 then int s.width (-s.bias) else s.float.dec v

/-- The factor a block scale stands for: NaN for 0xFF, else a power of two, or a bfloat16 value (R92, R98). -/
def Fmt.scaleNum (f : Fmt) (v : Nat) : Fp :=
  match f with
  | .custom ⟨_, _, _, _, 2⟩ => bfloat16.dec v
  | _ => if v = 0xFF then .nan else .fin false 1 ((v : Int) - 127)

/-- Decode a block: scale and element area (R92, R95, R98). An MZ block's bytes are its header and elements. -/
def Fmt.decBlock (f : Fmt) (scale : Nat) (area : List Byte) : List Fp :=
  match f with
  | .mz w =>
    let e := field area 0 1
    if e = 0xFF then List.replicate 32 .nan
    else
      let k := field area 1 1 % 32
      (List.range 32).map fun i =>
        if i = k then binary16.dec (field area 2 2)
        else (f.elem (bitsAt area (32 + w * i) w)).scale ((e : Int) - 127)
  | _ => (List.range f.block).map fun i => (f.scaleNum scale).mul (f.elem (bitsAt area (f.width * i) f.width))

/-! ## Encoding -/

/-- The largest unbiased exponent of the element format (R93, R98). -/
def Fmt.emax : Fmt → Int
  | .mx g => if g.top = .ieee then 2 ^ g.ew - 2 - g.bias else 2 ^ g.ew - 1 - g.bias
  | .mxint8 => 0
  | .custom s => if s.exponent = 0 then (s.width : Int) - 2 - s.bias else 2 ^ s.exponent - 1 - s.bias
  | _ => 0

/-- floor(log2) of a finite non-zero magnitude. -/
def Fp.log2 : Fp → Int
  | .fin _ m e => (Nat.log2 m : Int) + e
  | _ => 0

def Fp.isZero : Fp → Bool
  | .fin _ m _ => m = 0
  | _ => false

def Fp.isFin : Fp → Bool
  | .fin _ _ _ => true
  | _ => false

/-- The largest magnitude of a list. -/
def largest (xs : List Fp) : Fp := xs.foldl (fun a x => if a.lt x.abs then x.abs else a) (.fin false 0 0)

def clampInt (v lo hi : Int) : Int := if v < lo then lo else if v > hi then hi else v

/-- Round a value to an integer (a magnitude rounded in the mode, then signed); infinities as a huge magnitude. -/
def roundInt (rnd : Rnd) (s : W32) : Fp → Int
  | .nan => 0
  | .inf neg => if neg then -(2 ^ 40) else 2 ^ 40
  | .fin neg m e =>
    let v := if e ≥ 0 then m * 2 ^ e.toNat else dropBits rnd s m (-e).toNat
    if neg then -(v : Int) else v

/-- Encode one element without its block scale. An integer saturates at its largest value with either sign, an MZ
significand at its range (R93, R96, R98, R104, R105). -/
def Fmt.encElem (f : Fmt) (mode : Mode) (s : W32) (x : Fp) : Nat :=
  let int (w : Nat) (k lo : Int) : Nat :=
    (clampInt (roundInt mode.rnd s (x.scale k)) lo (2 ^ (w - 1) - 1) % 2 ^ w).toNat
  match f with
  | .float g => g.enc mode s x
  | .int w => int w 0 (1 - 2 ^ (w - 1))
  | .mx g => g.enc mode s x
  | .mxint8 => int 8 6 (-127)
  | .mz w => int w (w - 2) (-(2 ^ (w - 1)))
  | .custom c => if c.exponent = 0 then int c.width c.bias (1 - 2 ^ (c.width - 1)) else c.float.enc mode s x

/-- The LFSR steps a block or element draws under stochastic rounding: the registers after each step (R101). -/
def draws (rnd : Rnd) (s : W32) : Nat → List W32
  | 0 => []
  | n + 1 => let s' := if rnd = .stochastic then lfsrStep s else s; s' :: draws rnd s' n

/-- Pack element codes of `w` bits, lowest first, into bytes (R89). -/
def packBits (w : Nat) (codes : List Nat) : List Byte :=
  toLe ((w * codes.length + 7) / 8) (codes.foldr (fun c acc => c + 2 ^ w * acc) 0)

/-- What encoding a block gives: its scale code and its bytes. -/
structure Block where
  scale : Nat
  area : List Byte
deriving DecidableEq, Repr

/-- The scale exponent of R93. -/
def Fmt.blockExp (f : Fmt) (xs : List Fp) : Int :=
  let m := largest (xs.filter Fp.isFin)
  if m.isZero then 0 else clampInt (m.log2 - f.emax + 127) 0 254

/-- R96, with the register that each position rounds with. -/
def mzEncode (w : Nat) (mode : Mode) (ss : List W32) (xs : List Fp) : Block :=
  if xs.any Fp.isNan then ⟨0, [0xFF, 0, 0x00, 0x7E] ++ zeros (4 * w)⟩
  else
    let big := largest xs
    let k := (xs.findIdx? fun x => x.abs.lt big = false).getD 0
    let rest := xs.zipIdx.filterMap fun p => if p.2 = k then none else some p.1
    let m := largest rest
    let e : Int := match m with
      | .inf _ => 254
      | m => if m.isZero then 0 else clampInt (m.log2 + 127) 0 254
    let outlier := binary16.enc mode (ss[k]?.getD 0) (xs[k]?.getD .nan)
    let q := (List.zipWith (fun x d => (x, d)) xs ss).zipIdx.map fun p =>
      if p.2 = k then 0 else (Fmt.mz w).encElem mode p.1.2 (p.1.1.scale (127 - e))
    ⟨0, [BitVec.ofInt 8 e, BitVec.ofNat 8 k] ++ toLe 2 outlier ++ packBits w q⟩

/-- Encode a block of values, with the register that each position rounds with (R93, R96, R98, R105). -/
def Fmt.encBlock (f : Fmt) (mode : Mode) (ss : List W32) (xs : List Fp) : Block :=
  match f with
  | .mz w => mzEncode w mode ss xs
  | _ =>
    let wide := f.scaleBytes = 2
    if xs.any Fp.isNan then ⟨if wide then 0x7FC0 else 0xFF, packBits f.width (xs.map fun _ => 0)⟩
    else
      let e := f.blockExp xs
      let code := if wide then bfloat16.enc {} 0 (.fin false 1 (e - 127)) else e.toNat
      ⟨code, packBits f.width (List.zipWith (fun x d => f.encElem mode d (x.scale (127 - e))) xs ss)⟩

/-- Encode elements of a format without blocks, packed. Elements of a custom format without a scale lie one after
another, lowest bit first, whatever their width: R89 and R98 say so of blocks only (DESIGN CHOICE, log 61). -/
def Fmt.encFlat (f : Fmt) (mode : Mode) (ss : List W32) (xs : List Fp) : List Byte :=
  packBits f.width (List.zipWith (fun x d => f.encElem mode d x) xs ss)

end Sys2Proof.Machine
end

