-- ==== Sys2Proof/Machine/Kv.lean ====
section
/-!
DEFINITION. KV pools, pages, page tables, page records (10 R270-R286): how firmware reads and writes them, allocates and
frees pages, copies on write, seals, demotes. Firmware is their only writer.
-/

namespace Sys2Proof.Machine

/-! ## Entries (R278) -/

def entValid (e : Nat) : Bool := bit e 63
def entRecord (e : Nat) : Nat := e % 2 ^ 29
def entPresent (e : Nat) : Nat := bits e 35 29
def entStack (e : Nat) : Nat := bits e 61 58
def entDemoted (e : Nat) : Bool := !entValid e && entRecord e ≠ 0
/-- An empty entry: Valid 0 and a record field of 0, whatever its other bits. -/
def entEmpty (e : Nat) : Bool := !entValid e && entRecord e = 0
/-- The page an entry names: stack, channel, bank and page index, as one number. -/
def entPage (e : Nat) : Nat := bits e 61 36
def entShared (e : Nat) : Nat := if bit e 62 then e else e + 2 ^ 62
def mkEntry (page present record : Nat) : Nat := 2 ^ 63 + 2 ^ 36 * page + 2 ^ 29 * present + record

/-- The home key of a page: stack, channel and bank above, page index in 16 KiB units. -/
def pageKey (page : Nat) : Nat := 2 ^ 23 * (page / 512) + 16384 * (page % 512)

/-! ## Records (R279) -/

/-- A page record. -/
structure Rec where
  owners : Nat := 0
  pins : Nat := 0
  flags : Nat := 0
  generation : Nat := 0
  digest : Nat := 0
  location : Nat := 0
deriving DecidableEq, Repr

def Rec.inUse (r : Rec) : Bool := bit r.flags 0
def Rec.sealed (r : Rec) : Bool := bit r.flags 1
def Rec.demoted (r : Rec) : Bool := bit r.flags 2

def getRec (p r : Nat) (s : State) : Rec :=
  let b := peek p ((poolAt s p).desc.records + 32 * r) 32 s
  ⟨field b 0 4, field b 4 2, field b 6 1, field b 8 4, field b 16 8, field b 24 8⟩

/-- Update a record: the word of its owners, pins and flags, and the digest or location where it changes. -/
def putRec (p r : Nat) (x : Rec) (s : State) : State :=
  let a := (poolAt s p).desc.records + 32 * r
  let o := getRec p r s
  let s := amend p a (toLe 4 x.owners ++ toLe 2 x.pins ++ toLe 1 x.flags ++ [0]) s
  let s := if x.digest = o.digest then s else poke p (a + 16) (toLe 8 x.digest) s
  if x.location = o.location then s else poke p (a + 24) (toLe 8 x.location) s

/-- A record given out: one owner, and the next generation (R279). -/
def freshRec (p r flags location : Nat) (s : State) : State :=
  let a := (poolAt s p).desc.records + 32 * r
  let s := amend p (a + 8) (toLe 4 (((getRec p r s).generation + 1) % 2 ^ 32) ++ zeros 4) s
  poke p (a + 16) (zeros 8 ++ toLe 8 location) (poke p a (toLe 4 1 ++ toLe 2 0 ++ toLe 1 flags ++ [0]) s)

/-- A record's digest, with whether its word reads poisoned. -/
def recDigest (p r : Nat) (s : State) : Nat × Bool :=
  let b := peekData p ((poolAt s p).desc.records + 32 * r + 16) 8 s
  (leNat (b.map (·.1)), b.any (·.2))

/-- Store a digest; one that comes from a poisoned word is written poisoned (R211). -/
def putDigest (p r : Nat) (v : Nat × Bool) (s : State) : State :=
  pokeData p ((poolAt s p).desc.records + 32 * r + 16) ((toLe 8 v.1).map fun b => (b, v.2)) s

/-- The first record of the table, from `r` on, that is not in use. -/
def freeRec (p : Nat) (s : State) : Nat → Nat → Option Nat
  | 0, _ => none
  | fuel + 1, r => if (getRec p r s).inUse then freeRec p s fuel (r + 1) else some r

/-- A record of this pool that is in use. -/
def recLive (p r : Nat) (s : State) : Bool := 0 < r && r < (poolAt s p).desc.count && (getRec p r s).inUse

/-! ## Pages -/

/-- Read a page of an entry with poison, and write a part of it. -/
def readPage (page off n : Nat) (s : State) : List PByte := bankRead (pageKey page + off) n s
def writePage (page off : Nat) (bs : List PByte) (s : State) : State := bankWrite (pageKey page + off) bs s

/-- The header's present mask. -/
def presentMask (page : Nat) (s : State) : Nat := leNat ((readPage page 0 16 s).map (·.1))

/-- Change the present mask: a word that reads poisoned stays poisoned. -/
def putMask (page m : Nat) (s : State) : State :=
  writePage page 0 (List.zipWith (fun b (o : PByte) => (b, o.2)) (toLe 16 m) (readPage page 0 16 s)) s

/-- The geometry and the format that bytes 16 and 17 of a page's header give. -/
def pageCodes (page : Nat) (s : State) : List PByte := readPage page 16 2 s

/-- A page's header gives no page of the pool's page class (R509). -/
def headerFails (d : PoolDesc) (codes : List PByte) : Bool :=
  let g := field (codes.map (·.1)) 0 1
  !(geoFits (field (codes.map (·.1)) 1 1) g && geoUnits g = geoUnits d.geometry)

/-- PAGE-DIGEST over a page's data bytes (R275), found by its header (R509), with whether the 8 bytes are poisoned: a byte
that it rests on reads poisoned, or the header fails. -/
def pageDigest (d : PoolDesc) (page : Nat) (s : State) : Nat × Bool :=
  let codes := pageCodes page s
  let g := field (codes.map (·.1)) 0 1
  let format := field (codes.map (·.1)) 1 1
  if headerFails d codes then (0, true) else
  let bs := readPage page 64 (2 * geoP g * vecBytes format (geoD g)) s ++ readPage page (idOff format g) (4 * geoP g) s
  (crc64 (bs.map (·.1)), (codes ++ bs).any (·.2))

/-- A flight met a header that fails: the command that ran it ends with POISONED, class DATA_POISON (R509). -/
def badHeaderOf (cmd : Option Nat) (key : Nat) (s : State) : State :=
  match cmd with
  | some c => updCmd c (fun x => { x with marks := x.marks ++ [⟨0x30, 4, x.poisoned⟩] }) (report 4 (stackLoc key) (some c) 1 s)
  | none => s

/-- A page whose digest is that of its record, neither from a poisoned word. -/
def digestHolds (p r page : Nat) (s : State) : Bool :=
  let v := pageDigest (poolAt s p).desc page s
  !v.2 && recDigest p r s = v

/-! ## What firmware reads for a command -/

/-- The pieces of records, and of a part of some pages. -/
def recPieces (p : Nat) (rs : List Nat) (s : State) : List (Home × Nat) :=
  rs.flatMap fun r => viewPieces p ((poolAt s p).desc.records + 32 * r) 32 s

def pagePieces (pages : List Nat) (off n : Nat) : List (Home × Nat) := pages.map fun g => (.stack (pageKey g + off), n)

/-- The pieces that PAGE-DIGEST reads of some pages. -/
def digestPieces (d : PoolDesc) (pages : List Nat) : List (Home × Nat) :=
  pagePieces pages 16 2 ++ pagePieces pages 64 (2 * d.P * d.E) ++ pagePieces pages (idOff d.format d.geometry) (4 * d.P)

/-- Firmware reads pieces for a command: it waits at their banks, then their words are counted and recorded (R212, R263,
R395; log 60). -/
def Cmd.reads (c : Cmd) (ps : List (Home × Nat)) (s : State) (go : State → State) : State :=
  c.gate ps s fun s => go (readCharged false (some c.id) ps s).2

/-- Firmware reads pieces whose poisoned words are no poisoned words of the command: their faults are recorded, its end does
not rest on them (R294, R308). -/
def Cmd.scans (c : Cmd) (ps : List (Home × Nat)) (s : State) (go : State → State) : State :=
  c.gate ps s fun s =>
    let r := getPieces false ps s
    go (charge (some c.id) { r.1 with poisoned := 0 } r.2)

/-- A flight that firmware would send to one of these pages waits while its stack is in row 4 (R241, R259). -/
def rowHeld (pages : List Nat) (s : State) : Bool := pages.any fun g => (stackAt s (g / 512 / 8192)).row = 4

/-- The header of a new page (R276). -/
def headerBytes (d : PoolDesc) (mask layer head rec generation : Nat) : List Byte :=
  toLe 16 mask ++ toLe 1 d.geometry ++ toLe 1 d.format ++ toLe 2 layer ++ toLe 1 head ++ zeros 3 ++ toLe 4 rec
    ++ toLe 4 generation ++ zeros 32

/-- The first number below `n` with the greatest value of `f`, when that value is not 0. -/
def argMax (f : Nat → Nat) : Nat → Option Nat
  | 0 => none
  | n + 1 => match argMax f n with
    | some k => if f k < f n then some n else some k
    | none => if 0 < f n then some n else none

/-- R284: the page for a pair, from its previous page and its pages so far. -/
def choosePage (s : State) (p mask : Nat) (prev : Option Nat) (mine : List Nat) : Option Nat :=
  let stack := match prev with
    | some q => if freeInStack s p (q / 512 / 8192) = 0 then none else some (q / 512 / 8192)
    | none => argMax (fun k => if bit mask k && pimStack s k && !(stackAt s k).failed && (partStacks s p).contains k
        then freeInStack s p k else 0) 16
  match stack with
  | none => none
  | some k =>
    let here := match prev with
      | some q =>
        if 0 < freeInBank s p k (q / 512 % 8192) && (mine.filter fun m => m / 512 = q / 512).length < 8 then
          some (q / 512 % 8192)
        else none
      | none => none
    let bank := match here with | some b => some b | none => argMax (freeInBank s p k) 8192
    match bank with
    | none => none
    | some b =>
      ((bankPages s (poolAt s p).desc k).find? fun i => !(poolAt s p).used.contains (512 * (8192 * k + b) + i)).map
        fun i => 512 * (8192 * k + b) + i

/-- A page is taken by a record, and given up by one. A page of a prefix set that is loaded again has one more record while a
request shares it by the old one, and it stays in use until the last of them is freed (R301). -/
def Pool.take (q : Pool) (page : Nat) : Pool :=
  if q.used.contains page then { q with again := page :: q.again } else { q with used := addNum page q.used }

def Pool.give (q : Pool) (page : Nat) : Pool :=
  if q.again.contains page then { q with again := q.again.erase page } else { q with used := q.used.filter (· != page) }

/-- Take a page and give it a fresh record with one owner (R279). -/
def takePage (p page flags : Nat) (s : State) : Option (Nat × State) :=
  (freeRec p s ((poolAt s p).desc.count - 1) 1).map fun r =>
    (r, freshRec p r (1 + flags) (mkEntry page 0 0)
      (setPool s p ((poolAt s p).take page)))

/-- Allocate a page for layer `l`, head `h` with an empty present mask. -/
def newPage (p mask l h : Nat) (prev : Option Nat) (mine : List Nat) (s : State) : Option (Nat × Nat × State) :=
  match choosePage s p mask prev mine with
  | none => none
  | some page => match takePage p page 0 s with
    | none => none
    | some (r, s) =>
      some (page, r, writePage page 0 (clean (headerBytes (poolAt s p).desc 0 l h r (getRec p r s).generation)) s)

/-- A page and its record are freed when owners and pins are both 0 (R280). -/
def freeIfUnused (p r : Nat) (s : State) : State :=
  let x := getRec p r s
  if x.inUse && x.owners = 0 && x.pins = 0 then
    let q := poolAt s p
    let s := setPool s p (if x.demoted then
        { q with slots := q.slots.filter (· != (x.location - q.desc.far) / q.desc.pageBytes) }
      else q.give (entPage x.location))
    putRec p r { x with flags := 0 } s
  else s

def addOwner (p r : Nat) (s : State) : State :=
  let x := getRec p r s
  putRec p r { x with owners := x.owners + 1 } s

def dropOwner (p r : Nat) (s : State) : State :=
  let x := getRec p r s
  if x.inUse then freeIfUnused p r (putRec p r { x with owners := x.owners - 1 } s) else s

/-- Pin a page; a record that is not one of the pool's in use has no pin count (R289, R293). -/
def pin (p r : Nat) (s : State) : State :=
  let x := getRec p r s
  if recLive p r s then putRec p r { x with pins := x.pins + 1 } s else s

def unpin (p r : Nat) (s : State) : State :=
  let x := getRec p r s
  if recLive p r s then freeIfUnused p r (putRec p r { x with pins := x.pins - 1 } s) else s

/-- Seal a page with its digest for a command (R281); one whose header fails gets a poisoned digest (R509). -/
def sealPage (cmd : Option Nat) (p r : Nat) (s : State) : State :=
  let d := (poolAt s p).desc
  let x := getRec p r s
  let page := entPage x.location
  let t := putDigest p r (pageDigest d page s) (putRec p r { x with flags := if x.sealed then x.flags else x.flags + 2 } s)
  if headerFails d (pageCodes page s) then badHeaderOf cmd (pageKey page) t else t

/-! ## The far page store (R303) -/

/-- The pieces of a range of the partition's far space. -/
def farPieces (p off n : Nat) (s : State) : List (Home × Nat) :=
  match resolve s .lockkeeper (some p) (mkAddr 2 off) n with
  | .ok (.near ps) => ps
  | _ => []

/-- Why a page cannot be had or moved: there is no place for it, a far link retrains, a far link is down for good, or the
page fails its digest or reads poisoned. -/
inductive Balk where
  | full
  | wait
  | dead
  | bad
deriving DecidableEq, Repr

/-- Reach pieces of the far tier, which no lock holds up whoever asks. -/
def farReach (ps : List (Home × Nat)) (s : State) : Except Balk Unit :=
  match reachOf s (.command 0) ps with
  | .go => .ok ()
  | .wait => .error .wait
  | .dead => .error .dead

/-- Move a record's page to a free slot of the far store and free the page. -/
def demoteRec (p r : Nat) (s : State) : Except Balk State := do
  let q := poolAt s p
  let d := q.desc
  let x := getRec p r s
  match (List.range (d.farBytes / d.pageBytes)).find? fun i => !q.slots.contains i with
  | none => .error .full
  | some i =>
    let ps := farPieces p (d.far + i * d.pageBytes) d.pageBytes s
    if ps = [] then .error .full
    farReach ps s
    let page := entPage x.location
    let s := putPieces ps (readPage page 0 d.pageBytes s) s
    let s := setPool s p ({ poolAt s p with slots := addNum i (poolAt s p).slots }.give page)
    .ok (putRec p r { x with flags := x.flags + 4, location := d.far + i * d.pageBytes } s)

/-- What a far page's bytes are digested over (R275, R509). -/
def dataBytesOf (body : List PByte) : List Byte :=
  let bs := body.map (·.1)
  let g := field bs 16 1
  let format := field bs 17 1
  (bs.drop 64).take (2 * geoP g * vecBytes format (geoD g)) ++ (bs.drop (idOff format g)).take (4 * geoP g)

/-- A sealed page's bytes do not have the digest of its record. -/
def digestFails (p r : Nat) (body : List PByte) (s : State) : Bool :=
  headerFails (poolAt s p).desc ((body.drop 16).take 2) || recDigest p r s ≠ (crc64 (dataBytesOf body), false)

/-- Read a demoted page back to a page of the KV region; a page that fails its digest or reads poisoned stays in the far
store (R304). -/
def promoteRec (p r mask : Nat) (prev : Option Nat) (mine : List Nat) (cmd : Option Nat) (s : State) :
    Except Balk Nat × State :=
  let d := (poolAt s p).desc
  let x := getRec p r s
  let ps := farPieces p x.location d.pageBytes s
  match farReach ps s with
  | .error b => (.error b, s)
  | .ok _ =>
    let got := readCharged true cmd ps s
    let body := got.1.data
    if body.any (·.2) || (x.sealed && digestFails p r body s) then (.error .bad, got.2)
    else match choosePage got.2 p mask prev mine with
    | none => (.error .full, got.2)
    | some page =>
      let s := writePage page 0 body got.2
      let q := (poolAt s p).take page
      let s := setPool s p { q with slots := q.slots.filter (· != (x.location - d.far) / d.pageBytes) }
      (.ok page, putRec p r { x with flags := x.flags - 4, location := mkEntry page 0 0 } s)

/-- A demoted entry: Valid 0, the record and the slots used kept (R303). -/
def demotedEntry (e : Nat) : Nat := 2 ^ 29 * entPresent e + entRecord e

/-! ## The prefix tree (R296) -/

/-- A node of the prefix tree. -/
structure Node where
  key : Nat := 0
  parent : Nat := 0
  child : Nat := 0
  sibling : Nat := 0
  group : Nat := 0
  lastUse : Nat := 0
  hits : Nat := 0
  flags : Nat := 0
deriving DecidableEq, Repr

def getNode (p i : Nat) (s : State) : Node :=
  let b := peek p ((poolAt s p).desc.tree + 64 * i) 64 s
  ⟨field b 0 8, field b 8 4, field b 12 4, field b 16 4, field b 24 8, field b 32 8, field b 40 4, field b 44 1⟩

/-- The 64 bytes of a node. -/
def Node.bytes (x : Node) : List Byte :=
  toLe 8 x.key ++ toLe 4 x.parent ++ toLe 4 x.child ++ toLe 4 x.sibling ++ zeros 4 ++ toLe 8 x.group
    ++ toLe 8 x.lastUse ++ toLe 4 x.hits ++ toLe 1 x.flags ++ zeros 19

/-- Update a node, and write a new or a freed one. -/
def putNode (p i : Nat) (x : Node) (s : State) : State := amend p ((poolAt s p).desc.tree + 64 * i) x.bytes s

def newNode (p i : Nat) (x : Node) (s : State) : State := poke p ((poolAt s p).desc.tree + 64 * i) x.bytes s

/-- Whether word `k` of a node reads poisoned; a word of another node that is made from it is then poisoned. -/
def nodeBad (p i k : Nat) (s : State) : Bool := (peekData p ((poolAt s p).desc.tree + 64 * i + 8 * k) 8 s).any (·.2)

def spoilNode (p i k : Nat) (bad : Bool) (s : State) : State :=
  let a := (poolAt s p).desc.tree + 64 * i + 8 * k
  if bad then pokeData p a ((peek p a 8 s).map fun b => (b, true)) s else s

/-- The pieces of some nodes. -/
def nodePieces (p : Nat) (is : List Nat) (s : State) : List (Home × Nat) :=
  is.flatMap fun i => viewPieces p ((poolAt s p).desc.tree + 64 * i) 64 s

/-- The root of a prefix set, 1,024 for requests without one. -/
def rootOf (set : Nat) : Nat := if set < 1024 then set else 1024

/-- Pages a block of 64 positions takes in one pair. -/
def PoolDesc.blockPages (d : PoolDesc) : Nat := 64 / d.P

/-- The entries of a node's page group (R296). -/
def groupEntries (p : Nat) (x : Node) (s : State) : List Nat :=
  let d := (poolAt s p).desc
  (List.range (pairs d * d.blockPages)).map fun i => leNat (peek p (x.group + 8 * i) 8 s)

/-- Whether the entry of place `i` of a group reads poisoned. -/
def groupBad (p : Nat) (x : Node) (i : Nat) (s : State) : Bool := (peekData p (x.group + 8 * i) 8 s).any (·.2)

/-- Write a new group; change the entries of a group. -/
def putGroup (p : Nat) (x : Node) (es : List Nat) (s : State) : State := poke p x.group (es.flatMap (toLe 8)) s

def amendGroup (p : Nat) (x : Node) (es : List Nat) (s : State) : State := amend p x.group (es.flatMap (toLe 8)) s

/-- Nodes in use above the roots that have no child: the leaves (R299). -/
def treeLeaves (p : Nat) (s : State) : List (Nat × Node) :=
  let n := (poolAt s p).desc.nodes
  (((List.range n).drop 1025).map fun i => (i, getNode p i s)).filter fun x =>
    bit x.2.flags 0 && x.2.child = 0

/-- The one used longest ago, the lowest number on a tie. -/
def oldestNode : List (Nat × Node) → Option (Nat × Node)
  | [] => none
  | x :: xs => match oldestNode xs with
    | some y => if y.2.lastUse < x.2.lastUse then some y else some x
    | none => some x

/-- Demote every page of a leaf's group. -/
def demoteGroup (p : Nat) : List Nat → State → Except Balk (List Nat × State)
  | [], s => .ok ([], s)
  | e :: es, s => do
    let r ← demoteGroup p es (← demoteRec p (entRecord e) s)
    .ok (demotedEntry e :: r.1, r.2)

/-- R305: demote the page group of the oldest leaf whose pages have no owner besides the tree. -/
def demoteLeaf (p : Nat) (s : State) : Except Balk State :=
  if (poolAt s p).desc.tree = 0 then .error .full else
  let leaves := (treeLeaves p s).filter fun x =>
    !bit x.2.flags 1 && (groupEntries p x.2 s).all fun e =>
      let r := getRec p (entRecord e) s
      r.owners = 1 && r.pins = 0
  match oldestNode leaves with
  | none => .error .full
  | some (i, x) => do
    let r ← demoteGroup p (groupEntries p x s) s
    .ok (putNode p i { x with flags := x.flags + 2 } (amendGroup p x r.1 r.2))

/-- A page under R282: when none is free, leaves of the prefix tree are demoted until one is (R305). -/
def newPageOrDemote (p mask l h : Nat) (prev : Option Nat) (mine : List Nat) : Nat → State → Except Balk (Nat × Nat × State)
  | 0, s => match newPage p mask l h prev mine s with | some r => .ok r | none => .error .full
  | fuel + 1, s =>
    match newPage p mask l h prev mine s with
    | some r => .ok r
    | none => do newPageOrDemote p mask l h prev mine fuel (← demoteLeaf p s)

/-! ## Page tables (R277) -/

/-- A request's page table: its partition, offset, and the header's fields. -/
structure PTab where
  part : Nat
  off : Nat
  cap : Nat
  used : Nat
  next : Nat
  mask : Nat
  set : Nat
  setPositions : Nat
  list : Nat
  listCount : Nat
deriving DecidableEq, Repr

def readTab (p off : Nat) (s : State) : PTab :=
  let b := peek p off 64 s
  ⟨p, off, field b 4 4, field b 8 4, field b 12 4, field b 16 2, field b 18 2, field b 20 4, field b 24 8, field b 32 4⟩

/-- Write back the fields that firmware maintains. -/
def PTab.write (t : PTab) (s : State) : State :=
  amend t.part (t.off + 8) (toLe 4 t.used ++ toLe 4 t.next ++ toLe 2 t.mask ++ toLe 2 t.set ++ toLe 4 t.setPositions
    ++ toLe 8 t.list ++ toLe 4 t.listCount) s

/-- Where the entry of pair number `pair` (l × H + h) and page `j` lies. -/
def PTab.entOff (t : PTab) (pair j : Nat) : Nat := t.off + 64 + 8 * (pair * t.cap + j)

def PTab.get (t : PTab) (pair j : Nat) (s : State) : Nat := leNat (peek t.part (t.entOff pair j) 8 s)

/-- Write an entry; change one, which stays poisoned if it reads so; write one made from a word that may be poisoned. -/
def PTab.put (t : PTab) (pair j e : Nat) (s : State) : State := poke t.part (t.entOff pair j) (toLe 8 e) s

def PTab.change (t : PTab) (pair j e : Nat) (s : State) : State := amend t.part (t.entOff pair j) (toLe 8 e) s

def PTab.putAs (t : PTab) (bad : Bool) (pair j e : Nat) (s : State) : State :=
  pokeData t.part (t.entOff pair j) ((toLe 8 e).map fun b => (b, bad)) s

def PTab.bad (t : PTab) (pair j : Nat) (s : State) : Bool := (peekData t.part (t.entOff pair j) 8 s).any (·.2)

/-- The entries 0 to U - 1 of a pair. -/
def PTab.row (t : PTab) (pair : Nat) (s : State) : List Nat := (List.range t.used).map fun j => t.get pair j s

/-- The pages that a pair's valid entries name, and the last of them below page number `j`. -/
def PTab.pages (t : PTab) (pair : Nat) (s : State) : List Nat := ((t.row pair s).filter entValid).map entPage

def PTab.prev (t : PTab) (pair j : Nat) (s : State) : Option Nat :=
  (((List.range j).map fun i => t.get pair i s).filter entValid).getLast?.map entPage

/-- The pieces of a table's entries in use. -/
def PTab.pieces (t : PTab) (s : State) : List (Home × Nat) :=
  (List.range (pairs (poolAt s t.part).desc)).flatMap fun q => viewPieces t.part (t.entOff q 0) (8 * t.used) s

/-- The distinct records that a table's entries name. -/
def tableRecords (t : PTab) (n : Nat) (s : State) : List Nat :=
  ((List.range n).flatMap fun q => (t.row q s).map entRecord).foldl (fun l r => if r = 0 then l else addNum r l) []

/-- The pages of all of a table's pairs. -/
def PTab.allPages (t : PTab) (s : State) : List Nat :=
  (List.range (pairs (poolAt s t.part).desc)).flatMap fun q => t.pages q s

/-- What firmware reads of a table: its entries in use and the records they name. -/
def PTab.reads (t : PTab) (s : State) : List (Home × Nat) :=
  t.pieces s ++ recPieces t.part (tableRecords t (pairs (poolAt s t.part).desc) s) s

/-- Bytes of a table of capacity `c`. -/
def tabBytes (d : PoolDesc) (c : Nat) : Nat := 64 + 8 * (pairs d * c)

/-- One more than the highest page number that holds a non-empty entry in any pair. -/
def PTab.highest (t : PTab) (d : PoolDesc) (s : State) : Nat → Nat
  | 0 => 0
  | j + 1 => if (List.range (pairs d)).any fun q => !entEmpty (t.get q j s) then j + 1 else t.highest d s j

/-! ## Appending (R282, R283) -/

/-- Copy a shared page on write: the copy is on the same stack, with its own record (R283). -/
def copyOnWrite (t : PTab) (pair j : Nat) (s : State) : Except Balk State := do
  let p := t.part
  let d := (poolAt s p).desc
  let e := t.get pair j s
  let old := getRec p (entRecord e) s
  let (page, r, s) ← newPageOrDemote p t.mask (pair / d.heads) (pair % d.heads) (some (entPage e)) (t.pages pair s) d.nodes s
  let body := readPage (entPage e) 0 d.pageBytes s
  let rec_ := getRec p r s
  let head := (body.take 16) ++ clean ((headerBytes d 0 (pair / d.heads) (pair % d.heads) r rec_.generation).drop 16)
  let s := writePage page 0 (head ++ body.drop 64) s
  let s := putDigest p r (recDigest p (entRecord e) s) (putRec p r { rec_ with flags := if old.sealed then 3 else 1 } s)
  let s := t.change pair j (mkEntry page (entPresent e) r) s
  let s := dropOwner p (entRecord e) s
  .ok (setPool s p { poolAt s p with cow := satAdd (poolAt s p).cow 1 })

/-- Whether a page may be written when slots are added: a sealed read-only page never is (R280). -/
def mustCopy (r : Rec) : Bool := r.owners > 1 || bit r.flags 3

/-- Allocate the pair's page number `j` with at most `k` slots used: how many, and its record when it is full. -/
def growPair (t : PTab) (pair k j : Nat) (s : State) : Except Balk (Nat × Option Nat × State) := do
  let p := t.part
  let d := (poolAt s p).desc
  if j ≥ t.cap then .error .full
  let mine := (((List.range j).map fun i => t.get pair i s).filter entValid).map entPage
  let (page, r, s) ← newPageOrDemote p t.mask (pair / d.heads) (pair % d.heads) mine.getLast? mine d.nodes s
  let n := min k d.P
  .ok (n, if n = d.P then some r else none, t.put pair j (mkEntry page (n - 1) r) s)

/-- Use free slots of the pair's page number `i`, whose entry is `e`. -/
def fillPair (t : PTab) (pair k i e : Nat) (s : State) : Except Balk (Nat × Option Nat × State) := do
  let p := t.part
  let d := (poolAt s p).desc
  let s ← if mustCopy (getRec p (entRecord e) s) then copyOnWrite t pair i s else .ok s
  let e := t.get pair i s
  let n := min k (d.P - 1 - entPresent e)
  .ok (n, if entPresent e + n + 1 = d.P then some (entRecord e) else none, t.change pair i (e + 2 ^ 29 * n) s)

/-- The pair's entry below number `j` has free slots. -/
def PTab.room (t : PTab) (pair j : Nat) (s : State) : Bool :=
  let e := t.get pair (j - 1) s
  j ≠ 0 && entValid e && entPresent e + 1 < (poolAt s t.part).desc.P

/-- Reserve `k` slots for a pair whose pages lie below number `j`: fill the last page's free slots, then allocate. The
answer is the next page number and the records of the pages that became full. -/
def reservePair (t : PTab) (pair : Nat) : Nat → Nat → Nat → List Nat → State → Except Balk (Nat × List Nat × State)
  | 0, _, _, _, _ => .error .full
  | fuel + 1, k, j, full, s =>
    if k = 0 then .ok (j, full, s) else
    match if t.room pair j s then fillPair t pair k (j - 1) (t.get pair (j - 1) s) s else growPair t pair k j s with
    | .error b => .error b
    | .ok (n, r, s') =>
      reservePair t pair fuel (k - n) (if t.room pair j s then j else j + 1) (full ++ r.toList) s'

/-- The number after the pair's highest non-empty entry below `j`. -/
def pairEnd (t : PTab) (pair : Nat) (s : State) : Nat → Nat
  | 0 => 0
  | j + 1 => if !entEmpty (t.get pair j s) then j + 1 else pairEnd t pair s j

/-- Reserve `k` positions in every pair numbered below `n` (R282). -/
def reserveAll (t : PTab) (k : Nat) : Nat → State → Except Balk (Nat × List Nat × State)
  | 0, s => .ok (t.used, [], s)
  | n + 1, s => do
    let (u, full, s) ← reserveAll t k n s
    let (j, full, s) ← reservePair t n (k + 2) k (pairEnd t n s t.used) full s
    .ok (max u j, full, s)

/-- The pages that reserving in a table copies first (R283). -/
def PTab.copies (t : PTab) (s : State) : List Nat :=
  (List.range (pairs (poolAt s t.part).desc)).filterMap fun q =>
    let j := pairEnd t q s t.used
    let e := t.get q (j - 1) s
    if t.room q j s && mustCopy (getRec t.part (entRecord e) s) then some (entPage e) else none

end Sys2Proof.Machine
end

