-- ==== Sys2Proof/Machine/KvCmds.lean ====
section
/-!
DEFINITION. The commands on page tables (10 R286, R291-R295, R303-R308): FORK-SEQUENCE, EDIT-PAGES, EVICT, COMPACT,
PROMOTE, DEMOTE, ADOPT-PAGES, and the waits of R292.
-/

namespace Sys2Proof.Machine

/-! ## Requests and waits -/

def setRequest (s : State) (r : Nat) (x : Request) : State :=
  { s with serve := { s.serve with requests := tabPut s.serve.requests r x } }

/-- The commands of R292, with REQUEST-CLOSE (R313) and SHIP-KV (R335). -/
def kvOpcodes : List Nat := [0x0403, 0x0407, 0x0408, 0x0409, 0x040A, 0x040B, 0x040E, 0x040F, 0x0410, 0x0411]

/-- The requests a command of R292 names. -/
def Cmd.names (c : Cmd) : List Nat := if c.opcode = 0x0407 then [c.at 16 4, c.at 20 4] else [c.at 16 4]

/-- Requests of a STEP-RUN that has started and not ended: those of the manifest it runs or is about to run. -/
def stepRequests (s : State) (c : Cmd) : List Nat :=
  match (s.serve.running.find? fun m => m.2.cmd == c.id) with
  | some m => m.2.entries.map (·.request)
  | none => match tabFind s.serve.manifests c.part with
    | some m => if m.address = c.addr 24 && !m.used then m.entries.map (·.request) else []
    | none => []

/-- A STEP-RUN that started before command `c` and includes one of the requests `rs` is not yet over (R292, R313). -/
def stepRunHolds (s : State) (c : Cmd) (rs : List Nat) : Bool :=
  s.front.cmds.any fun x => x.opcode = 0x0406 && x.phase = .started && x.order < c.order &&
    (stepRequests s x).any fun r => rs.contains r

/-- Hold a command of R292 until the STEP-RUNs before it are over. -/
def Cmd.afterSteps (c : Cmd) (s : State) (rs : List Nat) (go : State → State) : State :=
  if stepRunHolds s c rs then waitCmd c.id s else go (resumeCmd c.id s)

/-! ## Checks -/

/-- A page table whose offset is given: it lies in the partition, and its header agrees with the pool and keeps R277
(R308; where both fail, R56 has NOT_PERMITTED). -/
def tableChk (s : State) (c : Cmd) (off tabOff : Nat) : Chk PTab := do
  let d := (poolAt s c.part).desc
  let h ← c.control s off (mkAddr 0 tabOff) 64
  need ((resolve s .lockkeeper (some c.part) (mkAddr 0 tabOff) (tabBytes d (field h 4 4))).toBool) .notPermitted
  need (field h 0 2 = d.layers && field h 2 1 = d.heads && zeroIn h 3 4 && zeroIn h 36 64) (c.bad off)
  need (1 ≤ field h 4 4 && field h 4 4 ≤ 65535) (c.bad off)
  pure (readTab c.part tabOff s)

/-- An accepted pool (R272). -/
def poolChk (s : State) (c : Cmd) : Chk Unit := need (c.part < 4 && (poolAt s c.part).accepted) .notPermitted

/-- The request that the field at `off` names, of the command's partition; without an accepted pool R56 has NOT_PERMITTED
before the rest of R308. -/
def namedChk (s : State) (c : Cmd) (off : Nat) : Chk Request := do
  poolChk s c
  match requestAt s (c.at off 4) with
  | some r =>
    need (r.part = c.part) (c.bad off)
    pure r
  | none => fail (c.bad off)

/-- The named request with its page table. -/
def requestChk (s : State) (c : Cmd) (off : Nat) : Chk (Request × PTab) := do
  let r ← namedChk s c off
  let t ← tableChk s c off r.table
  pure (r, t)

/-- What a check comes to, without its command being rejected yet. -/
def attempt {α : Type} (x : Chk α) : Chk (Except Stop α) := ExceptT.lift (ExceptT.run x)

/-- Two checks of one command: where both fail, the numerically higher status stands (R56). -/
def bothChk {α β : Type} (x : Chk α) (y : Chk β) : Chk (α × β) := do
  match ← attempt x, ← attempt y with
  | .ok a, .ok b => pure (a, b)
  | .error (.status m), .error (.status n) => fail (if m.status < n.status then n else m)
  | .error e, _ => throw e
  | _, .error e => throw e

/-- A count of 0: with the request known the command ends DONE and reads nothing (R58, log 66). -/
def Cmd.whenZero (c : Cmd) (n : Nat) (s : State) (go : State) : State :=
  if n = 0 then judged c (namedChk s c 16) s fun _ s => doneCmd c.id 0 s else go

/-- A list that the field at `off` points to: nothing of an empty one is tested (R48, R58; log 13). -/
def Cmd.listChk (c : Cmd) (s : State) (off n : Nat) : Chk Unit :=
  if n = 0 then pure () else c.checkRanges s [(off, c.addr off, n)]

def Cmd.list (c : Cmd) (s : State) (off n : Nat) : Chk (List Byte) := if n = 0 then pure [] else c.control s off (c.addr off) n

/-! ## FORK-SEQUENCE (R286) -/

def forkChk (s : State) (c : Cmd) : Chk (PTab × PTab) := do
  let (a, b) ← bothChk (requestChk s c 16) (requestChk s c 20)
  let d := (poolAt s c.part).desc
  need (a.2.used ≤ b.2.cap) (c.bad 20)
  modify (· ++ viewPieces c.part (b.2.off + 64) (8 * (pairs d * b.2.cap)) s)
  need ((List.range (pairs d)).all fun q => (List.range b.2.cap).all fun j => entEmpty (b.2.get q j s)) (c.bad 20)
  pure (a.2, b.2)

/-- Copy a pair's entries as shared entries of both tables. -/
def forkPair (a b : PTab) (q : Nat) (s : State) : State :=
  (List.range a.used).foldl (fun s j =>
    let e := a.get q j s
    if entEmpty e then s
    else if entValid e then b.putAs (a.bad q j s) q j (entShared e) (a.change q j (entShared e) s)
    else b.putAs (a.bad q j s) q j e s) s

/-- FORK-SEQUENCE: every page gains one owner, counted once (R286). -/
def execForkSequence (cmd : Nat) (s : State) : Out :=
  onCmd 0x0407 cmd s fun c s => c.afterSteps s c.names fun s =>
    judged c (forkChk s c) s fun t s => c.reads (t.1.reads s) s fun s =>
      let n := pairs (poolAt s c.part).desc
      let rs := tableRecords t.1 n s
      let s := (List.range n).foldl (fun s q => forkPair t.1 t.2 q s) s
      let s := rs.foldl (fun s r => addOwner c.part r s) s
      let s := { t.2 with used := t.1.used, next := t.1.next, set := t.1.set, setPositions := t.1.setPositions }.write s
      doneCmd c.id rs.length s

/-! ## EDIT-PAGES (R291) -/

/-- One edit. -/
structure Edit where
  op : Nat
  head : Nat
  layer : Nat
  page : Nat
  entry : Nat
deriving DecidableEq, Repr

def readEdits (bs : List Byte) : List Edit :=
  (List.range (bs.length / 16)).map fun i =>
    ⟨field bs (16 * i) 1, field bs (16 * i + 1) 1, field bs (16 * i + 2) 2, field bs (16 * i + 4) 4,
     field bs (16 * i + 8) 8⟩

def Edit.fits (e : Edit) (p cap : Nat) (s : State) : Bool :=
  let d := (poolAt s p).desc
  e.head < d.heads && e.layer < d.layers && e.page < cap &&
  (if e.op = 0 then
    entValid e.entry && recLive p (entRecord e.entry) s &&
      (let r := getRec p (entRecord e.entry) s
       !r.demoted && entPage r.location = entPage e.entry)
   else e.op = 1 && e.entry = 0)

def editChk (s : State) (c : Cmd) : Chk (PTab × List Edit) := do
  need (c.at 24 8 % 8 = 0) (c.bad 24)
  c.listChk s 24 (16 * c.at 32 4)
  let r ← requestChk s c 16
  let bs ← c.list s 24 (16 * c.at 32 4)
  let es := readEdits bs
  need (es.all fun e => e.fits c.part r.2.cap s) (.badParam 0xFF)
  pure (r.2, es)

/-- Apply one edit, adjusting the owner counts. -/
def Edit.apply (t : PTab) (e : Edit) (s : State) : State :=
  let d := (poolAt s t.part).desc
  let q := e.layer * d.heads + e.head
  let old := t.get q e.page s
  let s := t.put q e.page e.entry s
  let s := if e.op = 0 then addOwner t.part (entRecord e.entry) s else s
  if entEmpty old then s else dropOwner t.part (entRecord old) s

/-- Set U to one more than the highest page number that holds a non-empty entry. -/
def PTab.fixUsed (t : PTab) (s : State) : State :=
  { t with used := t.highest (poolAt s t.part).desc s t.cap }.write s

def execEditPages (cmd : Nat) (s : State) : Out :=
  onCmd 0x0408 cmd s fun c s => c.afterSteps s c.names fun s =>
    c.whenZero (c.at 32 4) s <| judged c (editChk s c) s fun x s =>
      c.reads (x.1.reads s ++ recPieces c.part ((x.2.filter (·.op = 0)).map fun e => entRecord e.entry) s) s fun s =>
        doneCmd c.id x.2.length (x.1.fixUsed (x.2.foldl (fun s e => e.apply x.1 s) s))

/-! ## EVICT (R294) -/

/-- A live position: its page number, slot, position ID, score (none when NaN or poisoned), and whether its page may not
be written (R294, R280). -/
structure Live where
  page : Nat
  slot : Nat
  id : Nat
  score : Option W32
  shared : Bool
deriving DecidableEq, Repr

/-- The live positions of one page. -/
def livePositions (p j e : Nat) (s : State) : List Live :=
  let d := (poolAt s p).desc
  let page := entPage e
  let mask := presentMask page s
  let sc := readPage page (scoreOff d.format d.geometry) (4 * d.P) s
  let ids := readPage page (idOff d.format d.geometry) (4 * d.P) s
  let shared := mustCopy (getRec p (entRecord e) s)
  ((List.range d.P).filter (bit mask)).map fun i =>
    let w := (sc.drop (4 * i)).take 4
    let v := BitVec.ofNat 32 (leNat (w.map (·.1)))
    ⟨j, i, leNat (((ids.drop (4 * i)).take 4).map (·.1)), if w.any (·.2) || (dec32 v).isNan then none else some v,
     shared⟩

/-- The live positions of a pair's valid pages. -/
def pairLive (t : PTab) (q : Nat) (s : State) : List Live :=
  (List.range t.used).flatMap fun j =>
    let e := t.get q j s
    if entValid e then livePositions t.part j e s else []

/-- What reading the live positions of a table's pages reads: masks and position IDs, and score words. -/
def maskPieces (t : PTab) (s : State) : List (Home × Nat) :=
  let d := (poolAt s t.part).desc
  pagePieces (t.allPages s) 0 16 ++ pagePieces (t.allPages s) (idOff d.format d.geometry) (4 * d.P)

def scorePieces (t : PTab) (s : State) : List (Home × Nat) :=
  let d := (poolAt s t.part).desc
  pagePieces (t.allPages s) (scoreOff d.format d.geometry) (4 * d.P)

def scanPieces (t : PTab) (s : State) : List (Home × Nat) := maskPieces t s ++ scorePieces t s

/-- The eviction order: NaN or poisoned scores first, then the lowest score, then the lowest position ID. -/
def evictsBefore (a b : Live) : Bool :=
  match a.score, b.score with
  | none, none => a.id < b.id
  | none, some _ => true
  | some _, none => false
  | some x, some y => if (dec32 x).lt (dec32 y) then true else if (dec32 y).lt (dec32 x) then false else a.id < b.id

/-- The positions EVICT clears among those of a pair. -/
def evicted (live : List Live) (target sink recent : Nat) : List Live :=
  let byId := sortBy (fun a b => a.id < b.id) live
  let kept := byId.take sink ++ byId.drop (byId.length - min recent byId.length)
  let free := live.filter fun x => !x.shared && !kept.contains x
  (sortBy evictsBefore free).take (live.length - target)

/-- Clear the present bits of some positions of a pair. -/
def clearLive (t : PTab) (q : Nat) (xs : List Live) (s : State) : State :=
  xs.foldl (fun s x =>
    let page := entPage (t.get q x.page s)
    let m := presentMask page s
    putMask page (if bit m x.slot then m - 2 ^ x.slot else m) s) s

/-- EVICT. A poisoned score only makes its position the first to go, and the command ends DONE (R294, R308). -/
def execEvict (cmd : Nat) (s : State) : Out :=
  onCmd 0x0409 cmd s fun c s => c.afterSteps s c.names fun s =>
    judged c (requestChk s c 16) s fun r s =>
      c.reads (r.2.reads s ++ maskPieces r.2 s) s fun s => c.scans (scorePieces r.2 s) s fun s =>
      let n := pairs (poolAt s c.part).desc
      let out := (List.range n).map fun q => (q, evicted (pairLive r.2 q s) (c.at 20 4) (c.at 24 2) (c.at 26 2))
      let s := out.foldl (fun s x => clearLive r.2 x.1 x.2 s) s
      doneCmd c.id (out.map fun x => x.2.length).sum s

/-! ## COMPACT (R295) -/

/-- What a position carries: K, V, score word and position ID, with poison. -/
structure Carried where
  k : List PByte
  v : List PByte
  score : List PByte
  id : List PByte
deriving DecidableEq, Repr

def readSlot (d : PoolDesc) (page i : Nat) (s : State) : Carried :=
  ⟨readPage page (64 + d.E * i) d.E s, readPage page (64 + d.E * (d.P + i)) d.E s,
   readPage page (scoreOff d.format d.geometry + 4 * i) 4 s, readPage page (idOff d.format d.geometry + 4 * i) 4 s⟩

def writeSlot (d : PoolDesc) (page i : Nat) (x : Carried) (s : State) : State :=
  let s := writePage page (64 + d.E * i) x.k s
  let s := writePage page (64 + d.E * (d.P + i)) x.v s
  let s := writePage page (scoreOff d.format d.geometry + 4 * i) x.score s
  writePage page (idOff d.format d.geometry + 4 * i) x.id s

/-- Pack positions into fresh pages at the given page numbers, with `held` the pair's pages so far, the old ones
included, which are freed last; none when a page cannot be had. -/
def packPages (t : PTab) (q : Nat) (held : List Nat) : List Nat → List Carried → State → Option State
  | [], xs, s => if xs = [] then some s else none
  | j :: js, xs, s =>
    if xs = [] then some s else
    let p := t.part
    let d := (poolAt s p).desc
    match newPage p t.mask (q / d.heads) (q % d.heads) (t.prev q j s) held s with
    | none => none
    | some (page, r, s) =>
      let now := xs.take d.P
      let s := (now.zipIdx 0).foldl (fun s x => writeSlot d page x.2 x.1 s) s
      let s := putMask page (2 ^ now.length - 1) s
      let s := if now.length = d.P then sealPage none p r s else s
      packPages t q (page :: held) js (xs.drop d.P) (t.put q j (mkEntry page (now.length - 1) r) s)

/-- Repack one pair: the pages freed less the pages allocated, or none when no page is free. -/
def compactPair (t : PTab) (q : Nat) (s : State) : Option (Int × State) :=
  let p := t.part
  let d := (poolAt s p).desc
  let row := (t.row q s).zipIdx 0
  let mine := row.filter fun x => entValid x.1 && (getRec p (entRecord x.1) s).owners ≤ 1
  let live := sortBy (fun a b => a.id < b.id) (mine.flatMap fun x => livePositions p x.2 x.1 s)
  if (row.filter fun x => entValid x.1).all fun x =>
      entPresent x.1 + 1 = d.P && presentMask (entPage x.1) s = 2 ^ d.P - 1
  then some (0, s)
  else
    let xs := live.map fun x => readSlot d (entPage (t.get q x.page s)) x.slot s
    let kept := row.filter fun x => !entEmpty x.1 && !mine.contains x
    let numbers := (List.range t.used).filter fun j => !kept.any fun x => x.2 = j
    let s0 := mine.foldl (fun s x => t.put q x.2 0 s) s
    match packPages t q (t.pages q s) numbers xs s0 with
    | none => none
    | some s =>
      let s := mine.foldl (fun s x => dropOwner p (entRecord x.1) s) s
      some ((mine.length : Int) - ((xs.length + d.P - 1) / d.P : Nat), s)

/-- Repack the pairs numbered below `n`. -/
def compactAll (t : PTab) : Nat → State → Option (Int × State)
  | 0, s => some (0, s)
  | n + 1, s =>
    match compactAll t n s with
    | none => none
    | some (a, s) => (compactPair t n s).map fun r => (a + r.1, r.2)

/-- The live positions' K and V vectors. -/
def vectorPieces (t : PTab) (s : State) : List (Home × Nat) :=
  let d := (poolAt s t.part).desc
  (t.allPages s).flatMap fun g => ((List.range d.P).filter (bit (presentMask g s))).flatMap fun i =>
    [(.stack (pageKey g + 64 + d.E * i), d.E), (.stack (pageKey g + 64 + d.E * (d.P + i)), d.E)]

/-- The full pages that a repacked table has and the old one had not: those that are sealed. -/
def newlyFull (t : PTab) (s s' : State) : List Nat :=
  let d := (poolAt s t.part).desc
  let es := (List.range (pairs d)).flatMap fun q => (t.row q s').filter fun e => entValid e && entPresent e + 1 = d.P
  (es.map entPage).filter fun g => !(t.allPages s).contains g

/-- COMPACT. While a stack on which it seals a page is in row 4 it waits (R241). -/
def execCompact (cmd : Nat) (s : State) : Out :=
  onCmd 0x040A cmd s fun c s => c.afterSteps s c.names fun s =>
    judged c (requestChk s c 16) s fun r s =>
      match compactAll r.2 (pairs (poolAt s c.part).desc) s with
      | none => rejectCmd c.id .busy s
      | some z =>
        if rowHeld (newlyFull r.2 s z.2) s then s else
        c.reads (r.2.reads s ++ scanPieces r.2 s ++ vectorPieces r.2 s) s fun s =>
          match compactAll r.2 (pairs (poolAt s c.part).desc) s with
          | none => rejectCmd c.id .busy s
          | some (n, s) => doneCmd c.id n.toNat (r.2.fixUsed s)

/-! ## DEMOTE and PROMOTE (R303, R304) -/

/-- The (pair, page number) places of a range of pages, in the order of R277. -/
def rangePlaces (t : PTab) (n first count : Nat) : List (Nat × Nat) :=
  (List.range n).flatMap fun q => ((List.range t.used).filter fun j => first ≤ j && j < first + count).map fun j => (q, j)

/-- How far a command that moves pages has come: pages moved, pages that failed, and what stopped it. -/
structure Moved where
  count : Nat := 0
  failed : Nat := 0
  stop : Option Balk := none
deriving DecidableEq, Repr

/-- Move one page out; an entry that is shared, empty or demoted is left, and so is one that no slot can take. -/
def demoteOne (t : PTab) (x : Nat × Nat) (a : Moved × State) : Moved × State :=
  let e := t.get x.1 x.2 a.2
  if a.1.stop.isSome || !entValid e || (getRec t.part (entRecord e) a.2).owners > 1 then a
  else match demoteRec t.part (entRecord e) a.2 with
    | .ok s => ({ a.1 with count := a.1.count + 1 }, t.change x.1 x.2 (demotedEntry e) s)
    | .error .full => a
    | .error b => ({ a.1 with stop := some b }, a.2)

/-- How a command that moves pages ends: pages already moved stay moved when the far tier stops answering (R308, R235);
while a far link retrains, and with no page free, nothing of it has happened. Where a page failed before no page was free,
POISONED stands above BUSY (R56): the faults stay recorded. -/
def Cmd.moves (c : Cmd) (d : PoolDesc) (z : Moved × State) (s : State) : State :=
  match z.1.stop with
  | some .wait => s
  | some .full => if z.1.failed = 0 then rejectCmd c.id .busy s else
      finishCmd c.id [.busy, ⟨0x30, 4, z.1.failed⟩]
        { s with faults := z.2.faults, irq := z.2.irq, front := z.2.front, far := z.2.far }
  | some .dead => finishCmd c.id [.timeout (z.1.count * d.pageBytes)] z.2
  | _ => finishCmd c.id (.done z.1.count :: if z.1.failed = 0 then [] else [⟨0x30, 4, z.1.failed⟩]) z.2

def execDemote (cmd : Nat) (s : State) : Out :=
  onCmd 0x040F cmd s fun c s => c.afterSteps s c.names fun s =>
    c.whenZero (c.at 24 4) s <| judged c (requestChk s c 16) s fun r s =>
      let d := (poolAt s c.part).desc
      let ps := rangePlaces r.2 (pairs d) (c.at 20 4) (c.at 24 4)
      let pages := ((ps.map fun x => r.2.get x.1 x.2 s).filter entValid).map entPage
      c.reads (r.2.reads s ++ pagePieces pages 0 d.pageBytes) s fun s1 =>
        c.moves d (ps.foldl (fun a x => demoteOne r.2 x a) ({}, s1)) s

/-- Read one demoted page back; an entry whose page another table's promotion has brought back is rewritten as valid
(R304, R286). A page that fails its digest or reads poisoned is counted. -/
def promoteOne (t : PTab) (cmd : Nat) (x : Nat × Nat) (a : Moved × State) : Moved × State :=
  let p := t.part
  let s := a.2
  let e := t.get x.1 x.2 s
  let r := getRec p (entRecord e) s
  if a.1.stop.isSome || !entDemoted e then a
  else if !r.demoted then
    (if r.inUse then (a.1, t.change x.1 x.2 (mkEntry (entPage r.location) (entPresent e) (entRecord e)) s) else a)
  else match promoteRec p (entRecord e) t.mask (t.prev x.1 x.2 s) (t.pages x.1 s) (some cmd) s with
    | (.ok page, s) =>
      ({ a.1 with count := a.1.count + 1 }, t.change x.1 x.2 (mkEntry page (entPresent e) (entRecord e)) s)
    | (.error .bad, s) => ({ a.1 with failed := a.1.failed + 1 }, s)
    | (.error b, s) => ({ a.1 with stop := some b }, s)

def execPromote (cmd : Nat) (s : State) : Out :=
  onCmd 0x040E cmd s fun c s => c.afterSteps s c.names fun s =>
    c.whenZero (c.at 24 4) s <| judged c (requestChk s c 16) s fun r s =>
      let d := (poolAt s c.part).desc
      c.reads (r.2.reads s) s fun s1 =>
        c.moves d ((rangePlaces r.2 (pairs d) (c.at 20 4) (c.at 24 4)).foldl (fun a x => promoteOne r.2 c.id x a) ({}, s1)) s

/-! ## ADOPT-PAGES (R306) -/

def adoptChk (s : State) (c : Cmd) : Chk (Request × PTab) := do
  need (!(partAt s c.part).confidential) .notPermitted
  let r ← requestChk s c 16
  need r.1.adopting (c.bad 16)
  pure r

/-- Drop a pair's pages from number `j` on. -/
def dropFrom (t : PTab) (q j : Nat) (s : State) : State :=
  ((List.range t.used).filter (j ≤ ·)).foldl (fun s i =>
    let e := t.get q i s
    if entEmpty e then s else dropOwner t.part (entRecord e) (t.put q i 0 s)) s

/-- An entry, its record or its page's present mask reads poisoned. -/
def adoptBad (t : PTab) (q j : Nat) (s : State) : Bool :=
  let e := t.get q j s
  t.bad q j s || (peekData t.part ((poolAt s t.part).desc.records + 32 * entRecord e) 32 s).any (·.2)
    || (readPage (entPage e) 0 16 s).any (·.2)

/-- Verify a pair's pages from number `j` on: pages verified, pages that failed or read poisoned. -/
def adoptPair (t : PTab) (q : Nat) : Nat → Nat → State → Nat × Nat × State
  | 0, _, s => (0, 0, s)
  | fuel + 1, j, s =>
    if j ≥ t.used then (0, 0, s) else
    let e := t.get q j s
    if !entValid e then adoptPair t q fuel (j + 1) s else
    let r := getRec t.part (entRecord e) s
    if !recLive t.part (entRecord e) s || !r.sealed then (0, 0, dropFrom t q j s)
    else if adoptBad t q j s || !digestHolds t.part (entRecord e) (entPage e) s then (0, 1, dropFrom t q j s)
    else
      let z := adoptPair t q fuel (j + 1) s
      (z.1 + 1, z.2.1, z.2.2)

/-- One more than the highest position ID in what remains of a pair. -/
def pairNext (t : PTab) (q : Nat) (s : State) : Nat :=
  (pairLive t q s).foldl (fun a x => max a (x.id + 1)) 0

/-- ADOPT-PAGES; POISONED counts pages, not words (R308). While a stack that holds one of its pages is in row 4 it waits
(R241). -/
def execAdoptPages (cmd : Nat) (s : State) : Out :=
  onCmd 0x0411 cmd s fun c s => c.afterSteps s c.names fun s =>
    judged c (adoptChk s c) s fun r s =>
      let t := r.2
      let d := (poolAt s c.part).desc
      if rowHeld (t.allPages s) s then s else
      c.scans (t.reads s ++ pagePieces (t.allPages s) 0 16 ++ digestPieces d (t.allPages s)) s fun s =>
      let z := (List.range (pairs d)).foldl (fun (a : Nat × Nat × State) q =>
        let y := adoptPair t q (t.used + 1) 0 a.2.2
        (a.1 + y.1, a.2.1 + y.2.1, y.2.2)) (0, 0, s)
      let s := z.2.2
      let next := (List.range (pairs d)).foldl (fun a q => min a (pairNext t q s)) (2 ^ 32)
      let s := { t with used := t.highest d s t.used, next := if pairs d = 0 then 0 else next % 2 ^ 32 }.write s
      let s := setRequest s (c.at 16 4) { r.1 with adopting := false }
      finishCmd c.id (.done z.1 :: if z.2.1 = 0 then [] else [⟨0x30, 4, z.2.1⟩]) s

end Sys2Proof.Machine
end

