-- ==== Sys2Proof/Machine/Prefix.lean ====
section
/-!
DEFINITION. The prefix tree and learned prefix sets (10 R296-R302), and accepting and releasing a KV pool (R270-R273).
-/

namespace Sys2Proof.Machine

/-! ## Walking the tree -/

/-- The child of a node with a key, along the siblings. -/
def findChild (p key : Nat) (s : State) : Nat → Nat → Option Nat
  | 0, _ => none
  | fuel + 1, i =>
    if i = 0 then none
    else if (getNode p i s).key = key then some i
    else findChild p key s fuel (getNode p i s).sibling

/-- The nodes matched by a list of hashes from a node, in order. -/
def matchPath (p fuel : Nat) (s : State) : List Nat → Nat → List Nat
  | [], _ => []
  | h :: hs, i =>
    match findChild p h s fuel (getNode p i s).child with
    | some c => c :: matchPath p fuel s hs c
    | none => []

/-- The nodes that looking for a child visits, and those that matching a path visits. -/
def scanned (p key : Nat) (s : State) : Nat → Nat → List Nat
  | 0, _ => []
  | fuel + 1, i => if i = 0 then [] else
    if (getNode p i s).key = key then [i] else i :: scanned p key s fuel (getNode p i s).sibling

def pathScanned (p fuel : Nat) (s : State) : List Nat → Nat → List Nat
  | [], _ => []
  | h :: hs, i =>
    scanned p h s fuel (getNode p i s).child ++ (match findChild p h s fuel (getNode p i s).child with
      | some c => pathScanned p fuel s hs c
      | none => [])

/-- A list of 8-byte hashes. -/
def readHashes (bs : List Byte) : List Nat := (List.range (bs.length / 8)).map fun i => field bs (8 * i) 8

/-! ## PREFIX-LOOKUP (R297) -/

def lookupChk (s : State) (c : Cmd) : Chk (Request × PTab × List Nat) := do
  c.listChk s 24 (8 * c.at 32 4)
  let r ← requestChk s c 16
  let d := (poolAt s c.part).desc
  need (d.P ≠ 128 && d.tree ≠ 0) (c.bad 16)
  need (r.2.next = r.2.setPositions && r.2.setPositions % 64 = 0) (c.bad 16)
  let bs ← c.list s 24 (8 * c.at 32 4)
  pure (r.1, r.2, readHashes bs)

/-- Promote the pages of a demoted group, from place `q` on, for a table: each is placed as a page of its pair, after the
pair's page before it (R284, R305); `mine` are those promoted for the pair so far. A page that fails its digest stays
demoted (R304); what stopped it is answered last. -/
def promoteGroup (t : PTab) (cmd : Nat) : List Nat → List Nat → Nat → State → List Nat × Option Balk × State
  | [], _, _, s => ([], none, s)
  | e :: es, mine, q, s =>
    let b := (poolAt s t.part).desc.blockPages
    let next (e : Nat) (mine : List Nat) (stop : Option Balk) (s : State) : List Nat × Option Balk × State :=
      let z := promoteGroup t cmd es (if (q + 1) % b = 0 then [] else mine) (q + 1) s
      (e :: z.1, z.2.1.or stop, z.2.2)
    if entValid e then next e (mine ++ [entPage e]) none s else
    let prev := match mine.getLast? with | some g => some g | none => t.prev (q / b) t.used s
    match promoteRec t.part (entRecord e) t.mask prev (t.pages (q / b) s ++ mine) (some cmd) s with
    | (.ok page, s) => next (mkEntry page (entPresent e) (entRecord e)) (mine ++ [page]) none s
    | (.error .bad, s) => next e mine (some .bad) s
    | (.error b, s) => (e :: es, some b, s)

/-- A node was matched: its last use and its hits (R296). -/
def hitNode (p i : Nat) (s : State) : State :=
  let x := getNode p i s
  putNode p i { x with lastUse := now s, hits := min (x.hits + 1) (2 ^ 32 - 1) } s

/-- A node was passed through (R296). -/
def passNode (p i : Nat) (s : State) : State := putNode p i { getNode p i s with lastUse := now s } s

/-- Append one node's group to a table as shared entries, one owner a page; a demoted group is promoted first. It stops
where the group does not fit or cannot be had back. -/
def attachNode (cmd i : Nat) (t : PTab) (s : State) : Except Balk PTab × State :=
  let p := t.part
  let b := (poolAt s p).desc.blockPages
  let x := getNode p i s
  if t.used + b > t.cap then (.error .full, s) else
  let g := if bit x.flags 1 then promoteGroup t cmd (groupEntries p x s) [] 0 s else (groupEntries p x s, none, s)
  let s := if bit x.flags 1 then amendGroup p x g.1 g.2.2 else g.2.2
  match g.2.1 with
  | some e => (.error e, s)
  | none =>
    let s := if bit x.flags 1 then putNode p i { x with flags := x.flags - 2 } s else s
    let s := (g.1.zipIdx 0).foldl (fun s e =>
      addOwner p (entRecord e.1) (t.putAs (groupBad p x e.2 s) (e.2 / b) (t.used + e.2 % b) (entShared e.1) s)) s
    (.ok { t with used := t.used + b, next := t.next + 64 }, s)

/-- Attach the matched nodes in order: how many were attached, and what stopped it. -/
def attachAll (cmd : Nat) : List Nat → PTab → State → Nat × Option Balk × PTab × State
  | [], t, s => (0, none, t, s)
  | i :: is, t, s =>
    match attachNode cmd i t s with
    | (.error b, s) => (0, some b, t, s)
    | (.ok t, s) =>
      let z := attachAll cmd is t s
      (z.1 + 1, z.2)

/-- PREFIX-LOOKUP. The request's prefix set is the one its page table holds, which a fork or an adoption carries on (R286,
R306). While a far link it needs retrains it waits; with one down for good it ends TIMEOUT (R235). -/
def execPrefixLookup (cmd : Nat) (s : State) : Out :=
  onCmd 0x040B cmd s fun c s => c.afterSteps s c.names fun s =>
    c.whenZero (c.at 32 4) s <| judged c (lookupChk s c) s fun x s =>
      let p := c.part
      let d := (poolAt s p).desc
      let root := rootOf x.2.1.set
      let path := matchPath p d.nodes s x.2.2 root
      let es := path.flatMap fun i => groupEntries p (getNode p i s) s
      let groups := path.flatMap fun i => viewPieces p (getNode p i s).group (8 * (pairs d * d.blockPages)) s
      c.reads (nodePieces p (root :: pathScanned p d.nodes s x.2.2 root) s ++ groups
        ++ recPieces p (es.map entRecord) s) s fun s1 =>
        let z := attachAll c.id path x.2.1 (path.foldl (fun s i => hitNode p i s) (passNode p root s1))
        if z.2.1 = some .wait then s else
        let s := { z.2.2.1 with list := c.at 24 8, listCount := c.at 32 4 }.write z.2.2.2
        match z.2.1 with
        | some .dead => finishCmd c.id [.timeout (64 * z.1)] s
        | some .bad => finishCmd c.id [.done (64 * z.1), ⟨0x30, 4, 1⟩] s
        | _ => doneCmd c.id (64 * z.1) s

/-! ## Nodes and their groups (R298-R300) -/

/-- The node after which child `key` comes among a node's children, in increasing key order: none for the front. -/
def before (p key : Nat) (s : State) : Nat → Nat → Option Nat → Option Nat
  | 0, _, prev => prev
  | fuel + 1, i, prev =>
    if i = 0 then prev
    else if (getNode p i s).key < key then before p key s fuel (getNode p i s).sibling (some i) else prev

/-- Link a new node `i` under its parent in key order. -/
def linkNode (p i : Nat) (x : Node) (s : State) : State :=
  let par := getNode p x.parent s
  match before p x.key s (poolAt s p).desc.nodes par.child none with
  | some b =>
    let y := getNode p b s
    putNode p b { y with sibling := i } (spoilNode p i 2 (nodeBad p b 2 s) (newNode p i { x with sibling := y.sibling } s))
  | none =>
    putNode p x.parent { par with child := i }
      (spoilNode p i 2 (nodeBad p x.parent 1 s) (newNode p i { x with sibling := par.child } s))

/-- Take a node out of its parent's children. -/
def unlinkNode (p i : Nat) (s : State) : State :=
  let x := getNode p i s
  let par := getNode p x.parent s
  if par.child = i then
    spoilNode p x.parent 1 (nodeBad p i 2 s) (putNode p x.parent { par with child := x.sibling } s)
  else
    let n := (poolAt s p).desc.nodes
    match (List.range n).find? fun j => (getNode p j s).sibling = i && (getNode p j s).parent = x.parent && j ≠ 0 with
    | some j => spoilNode p j 2 (nodeBad p i 2 s) (putNode p j { getNode p j s with sibling := x.sibling } s)
    | none => s

/-- Free a node: its page owners are dropped and its group's space is freed (R299). -/
def freeNode (p i : Nat) (s : State) : State :=
  let x := getNode p i s
  let s := (groupEntries p x s).foldl (fun s e => dropOwner p (entRecord e) s) s
  let q := poolAt s p
  let s := setPool s p { q with pieces := q.pieces.filter (· != x.group) }
  newNode p i {} (unlinkNode p i s)

/-- Reuse the leaf used longest ago that is not on the path in hand. -/
def reuseLeaf (p : Nat) (path : List Nat) (s : State) : Option State :=
  (oldestNode ((treeLeaves p s).filter fun x => !path.contains x.1)).map fun x => freeNode p x.1 s

/-- A free node above the roots. -/
def freeNodeIndex (p : Nat) (s : State) : Option Nat :=
  ((List.range (poolAt s p).desc.nodes).drop 1025).find? fun i => !bit (getNode p i s).flags 0

/-- A free piece of the page-group store: pieces are of one size, so they stand at multiples of it. -/
def freePiece (p : Nat) (s : State) : Option Nat :=
  let d := (poolAt s p).desc
  let n := d.groupSize d.blockPages
  ((List.range (d.groupBytes / n)).map fun i => d.groups + i * n).find? fun a => !(poolAt s p).pieces.contains a

/-- A node and a piece, reusing leaves until both are free. -/
def takeNode (p : Nat) (path : List Nat) : Nat → State → Option (Nat × Nat × State)
  | 0, _ => none
  | fuel + 1, s =>
    match freeNodeIndex p s, freePiece p s with
    | some i, some a => some (i, a, s)
    | _, _ => match reuseLeaf p path s with
      | some s => takeNode p path fuel s
      | none => none

/-- Where block `b` of a table's hash list begins in each pair: its hashes name the positions after the prefix set's
(R297). -/
def PTab.blockAt (t : PTab) (b : Nat) (s : State) : Nat :=
  let d := (poolAt s t.part).desc
  t.setPositions / d.P + b * d.blockPages

/-- Whether block `b` qualifies: every one of its positions is live in sealed pages of every pair (R298). -/
def blockQualifies (t : PTab) (b : Nat) (s : State) : Bool :=
  let p := t.part
  let d := (poolAt s p).desc
  (List.range (pairs d)).all fun q => (List.range d.blockPages).all fun i =>
    let j := t.blockAt b s + i
    let e := t.get q j s
    j < t.used && entValid e && !t.bad q j s && (getRec p (entRecord e) s).sealed &&
      presentMask (entPage e) s = 2 ^ d.P - 1 && (livePositions p j e s).all fun x => x.id = j * d.P + x.slot

/-- The entries of block `b` in the order of a page group. -/
def blockEntries (t : PTab) (b : Nat) (s : State) : List Nat :=
  let d := (poolAt s t.part).desc
  (List.range (pairs d)).flatMap fun q => (List.range d.blockPages).map fun i => entShared (t.get q (t.blockAt b s + i) s)

/-- Walk on from node `i` through the hashes of blocks `b`, …: existing nodes are passed through, missing ones are
created; a hash of 0, which only roots have, names no block (R296). The answer counts nodes created. -/
def insertFrom (t : PTab) : List Nat → Nat → Nat → List Nat → State → Nat × State
  | [], _, _, _, s => (0, s)
  | h :: hs, b, i, path, s =>
    let p := t.part
    let n := (poolAt s p).desc.nodes
    if h = 0 then (0, s) else
    match findChild p h s n (getNode p i s).child with
    | some k => insertFrom t hs (b + 1) k (path ++ [k]) (passNode p k s)
    | none =>
      if !blockQualifies t b s then (0, s) else
      match takeNode p path (n + 1) s with
      | none => (0, s)
      | some (k, a, s) =>
        let es := blockEntries t b s
        let x : Node := { key := h, parent := i, group := a, lastUse := now s, flags := 1 }
        let s := setPool s p { poolAt s p with pieces := addNum a (poolAt s p).pieces }
        let s := es.foldl (fun s e => addOwner p (entRecord e) s) (putGroup p x es (linkNode p k x s))
        let z := insertFrom t hs (b + 1) k (path ++ [k]) s
        (z.1 + 1, z.2)

def insertChk (s : State) (c : Cmd) : Chk (Request × PTab × List Nat) := do
  let r ← requestChk s c 16
  let d := (poolAt s c.part).desc
  need (d.P ≠ 128 && d.tree ≠ 0 && r.2.listCount ≠ 0) (c.bad 16)
  do
    let n := min r.2.listCount (c.at 20 4 + c.at 24 4)
    let bs ← c.control s 16 (BitVec.ofNat 64 r.2.list) (8 * n)
    pure (r.1, r.2, readHashes bs)

/-- PREFIX-INSERT walks blocks 0 to first block + block count - 1 and creates a node for each not yet on the path. -/
def execPrefixInsert (cmd : Nat) (s : State) : Out :=
  onCmd 0x040C cmd s fun c s =>
    c.whenZero (c.at 24 4) s <| judged c (insertChk s c) s fun x s =>
      let p := c.part
      let root := rootOf x.2.1.set
      let seen := root :: pathScanned p (poolAt s p).desc.nodes s x.2.2 root
      c.reads (nodePieces p seen s ++ x.2.1.reads s ++ scanPieces x.2.1 s) s fun s =>
        let z := insertFrom x.2.1 x.2.2 0 root [root] (passNode p root s)
        doneCmd c.id z.1 z.2

/-! ## LOAD-PREFIX-SET (R301) -/

/-- Free every node below a root, leaves first. -/
def releaseTree (p root : Nat) : Nat → State → State
  | 0, s => s
  | fuel + 1, s =>
    let under := (treeLeaves p s).filter fun x => isUnder p root s (poolAt s p).desc.nodes x.1
    match under with
    | [] => s
    | x :: _ => releaseTree p root fuel (freeNode p x.1 s)
where
  /-- Whether a node's ancestors include the root. -/
  isUnder (p root : Nat) (s : State) : Nat → Nat → Bool
    | 0, _ => false
    | fuel + 1, i => let q := (getNode p i s).parent; q = root || (1024 < q && isUnder p root s fuel q)

def setChk (s : State) (c : Cmd) : Chk (PrefixSet × List Nat) := do
  need (c.at 16 2 ≤ 1023) (c.bad 16)
  need (c.at 24 8 % 8 = 0) (c.bad 24)
  c.checkRanges s [(24, c.addr 24, 64)]
  poolChk s c
  let d := (poolAt s c.part).desc
  let h ← c.control s 24 (c.addr 24) 64
  let n := field h 8 4
  c.checkRanges s [(24, c.addr 24, 64 + 8 * (pairs d * n))]
  need (field h 4 2 = d.layers && field h 6 1 = d.heads && zeroIn h 7 8 && zeroIn h 12 64
    && field h 0 4 ≤ n * d.P && n * d.P < field h 0 4 + d.P) (c.bad 24)
  let bs ← c.control s 24 (c.addr 24 + 64) (8 * (pairs d * n))
  let es := readHashes bs
  need (es.all fun e => entValid e && pimStack s (entStack e) && !(stackAt s (entStack e)).failed &&
    (partStacks s c.part).contains (entStack e) && (stackAt s (entStack e)).boundary ≤ bits e 44 36 &&
    bits e 44 36 + d.units ≤ 384 && bits e 44 36 % d.units = 0) (c.bad 24)
  pure (⟨field h 0 4, n, []⟩, es)

/-- Install the pages a group names: a record each, with one owner, read-only and sealed. -/
def installPages (cmd p : Nat) : List Nat → State → Option (List Nat × State)
  | [], s => some ([], s)
  | e :: es, s =>
    match takePage p (entPage e) 8 s with
    | none => none
    | some (r, s) =>
      let s := writePage (entPage e) 24 (clean (toLe 4 r ++ toLe 4 (getRec p r s).generation)) s
      let s := sealPage (some cmd) p r s
      (installPages cmd p es s).map fun z => (mkEntry (entPage e) (entPresent e) r :: z.1, z.2)

/-- The record of a set replaces an older one of the same number, whose pages then lose the set's owner and whose tree
below the root is released (R301). -/
def replaceSet (p set : Nat) (x : PrefixSet) (s : State) : State :=
  let old := tabFind (poolAt s p).sets set
  let s := setPool s p { poolAt s p with sets := tabPut (poolAt s p).sets set x }
  match old with
  | some o => releaseTree p set (poolAt s p).desc.nodes (o.entries.foldl (fun s e => dropOwner p (entRecord e) s) s)
  | none => s

/-- LOAD-PREFIX-SET. With no record left for a page it ends BUSY and nothing is installed (log 21). While a stack that
holds one of the pages is in row 4 it waits (R241). -/
def execLoadPrefixSet (cmd : Nat) (s : State) : Out :=
  onCmd 0x040D cmd s fun c s =>
    judged c (setChk s c) s fun x s =>
      let p := c.part
      match installPages c.id p x.2 s with
      | none => rejectCmd c.id .busy s
      | some _ =>
        if rowHeld (x.2.map entPage) s then s else
        c.reads (digestPieces (poolAt s p).desc (x.2.map entPage)) s fun s =>
          match installPages c.id p x.2 s with
          | none => rejectCmd c.id .busy s
          | some (es, s) => doneCmd c.id es.length (replaceSet p (c.at 16 2) { x.1 with entries := es } s)

/-! ## Accepting and releasing a pool (R270-R273) -/

def readPool (b : List Byte) : PoolDesc :=
  ⟨field b 0 1, field b 1 1, field b 2 2, field b 4 1, field b 8 8, field b 16 4, field b 24 8, field b 32 8,
   field b 40 4, field b 48 8, field b 56 8, field b 64 8, field b 72 8⟩

/-- A range of space 0x0 lies in the partition's interleaved view; a range of space 0x2 in its far range. -/
def inView (s : State) (p space off n : Nat) : Bool :=
  off + n ≤ 2 ^ 44 && (resolve s .lockkeeper (some p) (mkAddr space off) n).toBool

/-- R270, R271, R61, R300: the descriptor is one the module accepts. -/
def poolFits (s : State) (p : Nat) (b : List Byte) : Bool :=
  let d := readPool b
  zeroIn b 5 8 && zeroIn b 20 24 && zeroIn b 44 48 && zeroIn b 80 128 &&
  geoFits d.format d.geometry && 1 ≤ d.layers && d.layers ≤ 1024 && 1 ≤ d.heads &&
  d.records % 64 = 0 && 1 ≤ d.count && d.count ≤ 2 ^ 29 - 1 && inView s p 0 d.records (32 * d.count) &&
  inView s p 0 d.decay (2 * d.layers) &&
  (d.tree = 0 || (d.tree % 64 = 0 && 1025 ≤ d.nodes && d.nodes ≤ 4194304 && inView s p 0 d.tree (64 * d.nodes) &&
    d.groups ≠ 0 && d.groupSize d.blockPages ≤ d.groupBytes)) &&
  (d.farBytes = 0 || (d.far % 4096 = 0 && inView s p 2 d.far d.farBytes)) &&
  (d.groups = 0 || (d.groups % 64 = 0 && d.groupBytes % 64 = 0 && inView s p 0 d.groups d.groupBytes))

/-- Zero a range of space 0x0, by pieces. -/
def zeroView (p off n : Nat) (s : State) : State :=
  match resolve s .lockkeeper (some p) (mkAddr 0 off) n with
  | .ok (.near ps) => ps.foldl (fun s x => match x.1 with | .stack k => zeroStack k x.2 s | _ => s) s
  | _ => s

/-- The space-0 offset that a partition's pool registers give (R272). -/
def Pool.offset (q : Pool) : Nat := q.lo.toNat + 2 ^ 32 * (q.hi.toNat % 4096)

/-- What the module reads of a pool descriptor. -/
def poolGot (p : Nat) (s : State) : Option Got :=
  match resolve s .lockkeeper (some p) (mkAddr 0 (poolAt s p).offset) 128 with
  | .ok (.near ps) => some (getPieces false ps s).1
  | _ => none

/-- Whether what was read is a descriptor that the module accepts. -/
def poolGood (p : Nat) (g : Got) (s : State) : Bool :=
  (poolAt s p).offset % 64 = 0 && g.poisoned = 0 && poolFits s p g.bytes

/-- An accepted pool: its records and its tree are zeroed, and nothing in it is in use (R273). -/
def acceptPool (p : Nat) (d : PoolDesc) (s : State) : State :=
  let t := zeroView p d.records (32 * d.count) s
  setPool (if d.tree = 0 then t else zeroView p d.tree (64 * d.nodes) t) p
    { poolAt s p with accepted := true, rejected := false, desc := d, used := [], again := [],
                      pieces := [], slots := [], sets := [] }

/-- A rejected pool. -/
def rejectPool (p : Nat) (s : State) : State :=
  setPool s p { poolAt s p with accepted := false, rejected := true, desc := {}, used := [], again := [],
                                pieces := [], slots := [], sets := [] }

/-- Check the descriptor that KV_POOL names, then accept or reject the pool. -/
def checkPool (p : Nat) (s : State) : State :=
  match poolGot p s with
  | some g =>
    let t := (readCharged false none (viewPieces p (poolAt s p).offset 128 s) s).2
    if poolGood p g s then acceptPool p (readPool g.bytes) t else rejectPool p t
  | none => rejectPool p s

/-- KV_POOL_HI_WRITE (R272): only the physical function, ignored while a job is resident in the partition. -/
def kvPoolHiWrite (fn part : Nat) (value : W32) (s : State) : State :=
  if fn ≠ 0 || !serving s || jobIn s part then s
  else checkPool part (setPool s part { poolAt s part with hi := value &&& 0xFFF })

def execKvPoolHiWrite (fn part : Nat) (value : W32) (s : State) : Out :=
  if part < 4 then onUnit 5 fn s (kvPoolHiWrite fn part value) else .fault .noSuchUnit

/-- Release a pool: nothing of it is tracked any more, memory is not cleared (R273). -/
def releasePool (p : Nat) (s : State) : State :=
  setPool s p { poolAt s p with accepted := false, rejected := false, desc := {}, used := [], again := [],
                                pieces := [], slots := [], sets := [] }

/-- KV_POOL_RELEASE (R273). -/
def kvPoolRelease (fn part : Nat) (value : W32) (s : State) : State :=
  if fn ≠ 0 || !serving s || jobIn s part || !value.getLsbD 0 then s else releasePool part s

def execKvPoolRelease (fn part : Nat) (value : W32) (s : State) : Out :=
  if part < 4 then onUnit 5 fn s (kvPoolRelease fn part value) else .fault .noSuchUnit

end Sys2Proof.Machine
end

