-- ==== Sys2Proof/Machine/Serve.lean ====
section
/-!
DEFINITION. The serving engine (11 R309-R328): customers, requests, chunks, request clocks, STEP-PLAN and its manifest,
the planning registers.
-/

namespace Sys2Proof.Machine

/-! ## Customers (R319-R321) -/

def setCustomer (s : State) (n : Nat) (x : Customer) : State :=
  { s with serve := { s.serve with customers := tabPut s.serve.customers n x } }

/-- A command that acts for a partition must come from one of its queues. -/
def partChk (c : Cmd) : Chk Unit := need (c.part < 4) .notPermitted

def customerChk (s : State) (c : Cmd) : Chk Unit := do
  need (c.at 16 2 ≤ 4095) (c.bad 16)
  partChk c
  need (match customerAt s (c.at 16 2) with | some x => x.part = c.part | none => true) .notPermitted

/-- A claimed customer starts with its burst; a later setting clamps the level (R319). -/
def setBudget (c : Cmd) (old : Option Customer) (t : Nat) : Customer :=
  let full : Int := 65536 * c.at 24 4
  match old with
  | some x => { x with rate := c.at 20 4, burst := c.at 24 4, grace := c.at 28 4, level := min x.level full }
  | none => { rate := c.at 20 4, burst := c.at 24 4, grace := c.at 28 4, part := c.part, level := full, lastRefill := t }

def execCustomerSet (cmd : Nat) (s : State) : Out :=
  onCmd 0x0401 cmd s fun c s =>
    judged c (customerChk s c) s fun _ s =>
      let n := c.at 16 2
      doneCmd c.id 0 (setCustomer s n (setBudget c (customerAt s n) (now s)))

/-- The least level a customer can have. -/
def minLevel : Int := -(2 ^ 63)

/-- R320: the refill of one customer. -/
def Customer.refill (t : Nat) (x : Customer) : Customer :=
  { x with level := min (x.level + (65536 * (x.rate * (t - x.lastRefill)) / 1000000000 : Nat)) (65536 * x.burst)
           lastRefill := t }

def refillAll (p t : Nat) (s : State) : State :=
  { s with serve := { s.serve with
      customers := s.serve.customers.map fun x => if x.2.part = p then (x.1, x.2.refill t) else x } }

/-! ## Requests (R309-R313) -/

/-- The statuses of R57 that the serving engine adds. -/
def Mark.deferred : Mark := ⟨0x04, 0, 0⟩

/-- The page table of a new or adopted request (R312, R277). -/
def openTableChk (s : State) (c : Cmd) (adopt : Bool) : Chk PTab := do
  let t ← tableChk s c 28 (offsetOf (c.addr 28))
  let d := (poolAt s c.part).desc
  let h := peek c.part t.off 64 s
  modify (· ++ if adopt then [] else viewPieces c.part (t.off + 64) (8 * (pairs d * t.cap)) s)
  need (adopt || (zeroIn h 8 16 && zeroIn h 18 36
    && (List.range (pairs d)).all fun q => (List.range t.cap).all fun j => t.get q j s = 0)) (c.bad 28)
  pure t

def openChk (s : State) (c : Cmd) : Chk PTab := do
  let adopt := bit (c.at 36 1) 0
  need (match customerAt s (c.at 16 2) with | some x => x.part = c.part | none => false) (c.bad 16)
  need (c.at 18 2 = 0xFFFF || adopt || tabHas (poolAt s c.part).sets (c.at 18 2)) (c.bad 18)
  need (c.at 20 4 ≠ 0) (c.bad 20)
  need (c.at 24 4 ≠ 0) (c.bad 24)
  need (c.at 36 1 < 2 && (!adopt || c.at 18 2 = 0xFFFF)) (c.bad 36)
  need (isLocal s (c.addr 28) && spaceOf (c.addr 28) = 0 && offsetOf (c.addr 28) % 8 = 0) (c.bad 28)
  poolChk s c
  let t ← openTableChk s c adopt
  need (match tabFind (poolAt s c.part).sets (c.at 18 2) with | some x => x.pages ≤ t.cap | none => true) (c.bad 28)
  need (!adopt || !(partAt s c.part).confidential) .notPermitted
  need (s.serve.requests.length < 65536) .busy
  need (match customerAt s (c.at 16 2) with | some x => 0 ≤ x.level | none => false) .deferred
  pure t

/-- The lowest number that no request has. -/
def freeRequest (s : State) : Nat :=
  ((List.range 65536).find? fun i => !tabHas s.serve.requests i).getD 0

/-- R302: a prefix set's entries as shared entries of a new table, one owner more each. -/
def applySet (t : PTab) (n : Nat) (x : PrefixSet) (s : State) : State :=
  let s := (x.entries.zipIdx 0).foldl (fun s e =>
    addOwner t.part (entRecord e.1) (t.put (e.2 / x.pages) (e.2 % x.pages) (entShared e.1) s)) s
  { t with used := x.pages, next := x.positions, set := n, setPositions := x.positions }.write s

/-- REQUEST-OPEN (R312). The lowest free request number is given (DESIGN CHOICE, log 22). -/
def execRequestOpen (cmd : Nat) (s : State) : Out :=
  onCmd 0x0402 cmd s fun c s =>
    judged c (openChk s c) s fun t s =>
      let n := freeRequest s
      let adopt := bit (c.at 36 1) 0
      let s := setRequest s n
        { customer := c.at 16 2, adopting := adopt, part := c.part, job := c.job, prefixSet := c.at 18 2,
          firstTarget := c.at 20 4, betweenTarget := c.at 24 4, table := t.off }
      let s := if adopt then s
        else match tabFind (poolAt s c.part).sets (c.at 18 2) with
          | some x => applySet t (c.at 18 2) x s
          | none => { t with set := 0xFFFF }.write s
      doneCmd c.id n s

/-- Mark the entries of a manifest that name a freed request (R330). -/
def Manifest.free (r : Nat) (m : Manifest) : Manifest :=
  if m.used then m else { m with entries := updWhere (·.request == r) (fun e => { e with freed := true }) m.entries }

/-- Free a request (R313): one owner fewer for every non-empty entry of its table. -/
def closeRequest (n : Nat) (s : State) : State :=
  match requestAt s n with
  | none => s
  | some r =>
    let p := r.part
    let s := if (poolAt s p).accepted then
        let t := readTab p r.table s
        (List.range (pairs (poolAt s p).desc)).foldl (fun s q =>
          (t.row q s).foldl (fun s e => if entEmpty e then s else dropOwner p (entRecord e) s) s) s
      else s
    { s with serve := { s.serve with
        requests := tabDel s.serve.requests n,
        manifests := s.serve.manifests.map fun m => (m.1, m.2.free n) } }

def closeChk (s : State) (c : Cmd) : Chk Unit :=
  need (match requestAt s (c.at 16 4) with | some r => r.part = c.part | none => false) (c.bad 16)

/-- What closing a request reads: its page table and the records it names. -/
def closeReads (n : Nat) (s : State) : List (Home × Nat) := match requestAt s n with
  | some r => if (poolAt s r.part).accepted then (readTab r.part r.table s).reads s else []
  | none => []

def execRequestClose (cmd : Nat) (s : State) : Out :=
  onCmd 0x0403 cmd s fun c s => c.afterSteps s [c.at 16 4] fun s =>
    judged c (closeChk s c) s fun _ s =>
      c.reads (closeReads (c.at 16 4) s) s fun s => doneCmd c.id 0 (closeRequest (c.at 16 4) s)

/-! ## Chunks (R314, R315) -/

def chunkChk (s : State) (c : Cmd) : Chk Request := do
  match requestAt s (c.at 16 4) with
  | none => fail (c.bad 16)
  | some r =>
    need (r.part = c.part) (c.bad 16)
    need (c.at 20 2 ≤ 512) (c.bad 20)
    need (c.at 22 1 < 2) (c.bad 22)
    need (c.at 24 8 % 64 = 0) (c.bad 24)
    if c.at 20 2 = 0 then pure r else do
      c.checkRanges s [(24, c.addr 24, 1)]
      need (r.chunks.length < 16) .busy
      pure r

/-- Queue a chunk; a turn end takes effect as it is queued (R315). -/
def Request.submit (r : Request) (x : Chunk) : Request :=
  let r := { r with chunks := r.chunks ++ [x] }
  if x.turnEnd then { r with turnStart := x.submitted, state := .turnEnd, fell := false } else r

def execSubmitChunk (cmd : Nat) (s : State) : Out :=
  onCmd 0x0404 cmd s fun c s =>
    judged c (chunkChk s c) s fun r s =>
      if c.at 20 2 = 0 then doneCmd c.id 0 s else
      let x : Chunk := { positions := c.at 20 2, input := c.addr 24, submitted := c.start, turnEnd := bit (c.at 22 1) 0 }
      doneCmd c.id 0 (setRequest s (c.at 16 4) (r.submit x))

/-! ## Request clocks (R316, R317) -/

/-- The token deadline. -/
def Request.deadline (r : Request) : Option Nat :=
  match r.state with
  | .listening => none
  | .turnEnd => some (r.turnStart + 1000 * r.firstTarget)
  | .answering => some (r.lastToken + 1000 * r.betweenTarget)

/-- Count a flag fall of request `n` if its deadline lies before `t` and has not been counted. -/
def detectFall (t n : Nat) (s : State) : State :=
  match requestAt s n with
  | none => s
  | some r =>
    match r.deadline with
    | none => s
    | some d =>
      if d < t && !r.fell then
        let first := r.state = .turnEnd
        let r := { r with
          fell := true,
          firstFalls := if first then min (r.firstFalls + 1) 65535 else r.firstFalls,
          betweenFalls := if first then r.betweenFalls else min (r.betweenFalls + 1) 65535 }
        let v := s.serve
        let s := { setRequest s n r with serve := { (setRequest s n r).serve with
          fallsFirst := if first then satAdd v.fallsFirst 1 else v.fallsFirst,
          fallsBetween := if first then v.fallsBetween else satAdd v.fallsBetween 1 } }
        if v.flagIrq then raise .flagFall s else s
      else s

/-! ## STEP-PLAN (R322-R327) -/

/-- The planning deadline (R323). -/
def Request.planDeadline (r : Request) (horizon : Nat) : Nat :=
  match r.state with
  | .answering => r.lastToken + 1000 * r.betweenTarget
  | .turnEnd => r.turnStart + min (1000000 * horizon) (1000 * r.firstTarget)
  | .listening => (match r.chunks with | x :: _ => x.submitted | [] => 0) + 1000 * r.firstTarget

/-- R324. -/
def Request.ready (r : Request) : Bool :=
  !r.inStep && !r.adopting && (r.chunks ≠ [] || r.state ≠ .listening)

/-- R321. -/
def overBudget (s : State) (r : Request) : Bool :=
  match customerAt s r.customer with
  | some x => x.level + 65536 * (if r.state = .listening then 0 else x.grace) ≤ 0
  | none => false

/-- Whether an output is owed when `i` positions are taken (R324, R315): the turn-end position is the last position of
the latest chunk with its turn-end bit set. -/
def Request.owes (r : Request) (i : Nat) : Bool :=
  match r.state with
  | .listening => false
  | .answering => true
  | .turnEnd =>
    match r.chunks with
    | [] => true
    | x :: rest =>
      (!x.turnEnd && !rest.any (·.turnEnd)) || (x.turnEnd && !rest.any (·.turnEnd) && x.offset + i = x.positions)

/-- The plan so far. -/
structure Plan where
  beats : Nat
  entries : List PlanEntry
  deferred : Nat
deriving DecidableEq, Repr

/-- The entry that a request gets from the beats left, with its cost; none when it gets none. -/
def planOne (pl : Planning) (beats budget n : Nat) (slack : Int) (r : Request) : Option (PlanEntry × Nat) :=
  let fb := if r.feedBack then 1 else 0
  let cost := fb * pl.decode.toNat
  if beats + cost > budget then none else
  let head := match r.chunks with | x :: _ => some x | [] => none
  let unread := match head with | some x => x.positions - x.offset | none => 0
  let i := min (min unread 512) ((budget - beats - cost) / pl.prefill.toNat)
  let out := r.owes i
  let e : PlanEntry :=
    { request := n, input := i, feedBack := r.feedBack, output := out, turnEnd := r.state = .turnEnd,
      chunkOffset := match head with | some x => x.offset | none => 0,
      source := match head with | some x => x.input | none => 0, slack := slack }
  if fb + i = 0 then
    if !out || beats + pl.decode.toNat > budget then none else some (e, pl.decode.toNat)
  else some (e, cost + i * pl.prefill.toNat)

def markDeferred (n : Nat) (r : Request) (s : State) : State :=
  let s := setRequest s n { r with deferred := true }
  let s := match customerAt s r.customer with
    | some x => setCustomer s r.customer { x with deferrals := min (x.deferrals + 1) 65535 }
    | none => s
  { s with serve := { s.serve with deferrals := satAdd s.serve.deferrals 1 } }

/-- The loop of R324 over the ready requests in order. -/
def planLoop (pl : Planning) (limit budget : Nat) : List (Nat × Int) → Plan → State → Plan × State
  | [], x, s => (x, s)
  | (n, slack) :: rest, x, s =>
    if x.entries.length = limit || x.beats ≥ budget then (x, s) else
    match requestAt s n with
    | none => planLoop pl limit budget rest x s
    | some r =>
      if overBudget s r then
        planLoop pl limit budget rest { x with deferred := x.deferred + 1 } (markDeferred n r s)
      else
        let s := setRequest s n { r with deferred := false }
        match planOne pl x.beats budget n slack r with
        | none => planLoop pl limit budget rest x s
        | some (e, cost) =>
          planLoop pl limit budget rest { x with beats := x.beats + cost, entries := x.entries ++ [e] } s

/-- The ready requests of a partition with their slack at `t`, least slack first, then by number. -/
def readyList (s : State) (p t : Nat) : List (Nat × Int) :=
  let h := (tabGet ({} : Planning) s.serve.planning p).horizon.toNat
  let all := (s.serve.requests.filter fun x => x.2.part = p && x.2.ready).map fun x =>
    (x.1, (x.2.planDeadline h : Int) - t)
  sortBy (fun a b => a.2 < b.2 || (a.2 = b.2 && a.1 < b.1)) all

/-- A signed 32-bit number, saturating, in two's complement. -/
def sat32 (v : Int) : Nat := ((clampInt v (-(2 ^ 31)) (2 ^ 31 - 1)) % 2 ^ 32).toNat

/-- Positions an entry appends (R328). -/
def PlanEntry.positions (e : PlanEntry) : Nat := (if e.feedBack then 1 else 0) + e.input

/-- The 32 bytes of an entry (R327); slack in microseconds, rounded down (DESIGN CHOICE, log 22). -/
def PlanEntry.bytes (e : PlanEntry) : List Byte :=
  toLe 4 e.request ++ toLe 2 e.input
    ++ toLe 1 (flag e.feedBack 0 + flag e.output 1 + flag e.turnEnd 2 + flag e.notRun 3) ++ [0]
    ++ toLe 4 e.first ++ toLe 4 e.chunkOffset ++ toLe 8 e.source.toNat ++ zeros 4 ++ toLe 4 (sat32 (e.slack / 1000))

/-- The bytes of a manifest of a partition (R327). -/
def Manifest.bytes (m : Manifest) (p : Nat) : List Byte :=
  toLe 4 m.entries.length ++ toLe 4 m.number ++ toLe 8 m.time ++ toLe 4 m.beats ++ toLe 4 m.budget
    ++ toLe 4 ((m.entries.map (·.positions)).sum) ++ toLe 4 m.deferred
    ++ toLe 4 (m.entries.filter (·.notRun)).length ++ toLe 1 p ++ zeros 27 ++ m.entries.flatMap (·.bytes)

def planChk (s : State) (c : Cmd) : Chk Unit := do
  need (c.at 28 2 ≤ 4096) (c.bad 28)
  need (c.at 16 8 % 64 = 0) (c.bad 16)
  if c.at 28 2 = 0 then partChk c else do
  c.checkRanges s [(16, c.addr 16, 64 + 32 * c.at 28 2)]
  partChk c
  need (isLocal s (c.addr 16) && spaceOf (c.addr 16) ≤ 1) .notPermitted

/-- STEP-PLAN's effect before the manifest is written: the plan and its number. -/
def stepPlan (c : Cmd) (s : State) : Manifest × State :=
  let p := c.part
  let s := refillAll p c.start s
  let ready := readyList s p c.start
  let s := ready.foldl (fun s x => detectFall c.start x.1 s) s
  let pl := tabGet ({} : Planning) s.serve.planning p
  let r := planLoop pl (c.at 28 2) (c.at 24 4) ready ⟨pl.base.toNat, [], 0⟩ s
  let n := tabGet 0 s.serve.planNumbers p + 1
  ({ address := c.addr 16, number := n % 2 ^ 32, time := c.start, beats := r.1.beats, budget := c.at 24 4,
     deferred := r.1.deferred, entries := r.1.entries },
   { r.2 with serve := { r.2.serve with planNumbers := tabSet 0 r.2.serve.planNumbers p n } })

def execStepPlan (cmd : Nat) (s : State) : Out :=
  onCmd 0x0405 cmd s fun c s =>
    judged c (planChk s c) s fun _ s =>
      if c.at 28 2 = 0 then doneCmd c.id 0 s else
      c.gate (c.pieces s (c.addr 16) (64 + 32 * c.at 28 2)) s fun s =>
        let r := stepPlan c s
        let s := { r.2 with serve := { r.2.serve with manifests := tabPut r.2.serve.manifests c.part r.1 } }
        doneCmd c.id r.1.entries.length (c.store (c.addr 16) (clean (r.1.bytes c.part)) s)

/-! ## The planning registers (R322) -/

/-- SERVE_COST_WRITE: only the physical function; 0 for a per-position cost is ignored. -/
def serveCostWrite (fn offset : Nat) (value : W32) (s : State) : State :=
  let p := (offset - 0x8100) / 16
  let pl := tabGet ({} : Planning) s.serve.planning p
  let put (x : Planning) : State := { s with serve := { s.serve with planning := tabSet {} s.serve.planning p x } }
  if fn ≠ 0 || !serving s || offset < 0x8100 || p > 3 then s
  else match offset % 16 with
    | 0 => put { pl with base := value }
    | 4 => if value = 0 then s else put { pl with decode := value }
    | 8 => if value = 0 then s else put { pl with prefill := value }
    | 12 => put { pl with horizon := value.setWidth 16 }
    | _ => s

def execServeCostWrite (fn offset : Nat) (value : W32) (s : State) : Out := onUnit 5 fn s (serveCostWrite fn offset value)

end Sys2Proof.Machine
end

