-- ==== Sys2Proof/Machine/RegRead.lean ====
section
/-!
DEFINITION. Reading registers (17 R466-R478 and every block's own table): the value of each BAR0 register in a
function's view, and what a read clears or latches.
-/

namespace Sys2Proof.Machine

/-- A host read: what it returns stands in `readData` (log 5). -/
def hostRead (fn off : Nat) (s : State) : State :=
  let r := if hostUp s then regRead fn off s else (0xFFFFFFFF, s)
  { r.2 with front := { r.2.front with readData := r.1 } }

/-! ## The rows of registers whose read has an effect -/

def execTimeNowRead (fn : Nat) (s : State) : Out := onUnit 5 fn s (hostRead fn 0x4000)
def execPpsLastRead (fn : Nat) (s : State) : Out := onUnit 5 fn s (hostRead fn 0x4010)
def execEnergyRead (fn : Nat) (s : State) : Out := onUnit 5 fn s (hostRead fn 0x5010)
def execThrottleRead (fn reason : Nat) (s : State) : Out :=
  if reason < 6 then onUnit 5 fn s (hostRead fn (0x5020 + 8 * reason)) else .fault .noSuchUnit
def execTileBeatsRead (fn tile : Nat) (s : State) : Out :=
  if tile < 512 then onUnit 5 fn s (hostRead fn (0x40004 + 256 * tile)) else .fault .noSuchUnit
def execBootLogRead (fn phase : Nat) (s : State) : Out :=
  if phase < 7 then onUnit 5 fn s (hostRead fn (0x20 + 8 * phase)) else .fault .noSuchUnit
def execStackCorrCountRead (fn stack : Nat) (s : State) : Out :=
  if stack < 16 then onUnit 5 fn s (hostRead fn (0x10008 + 4096 * stack)) else .fault .noSuchUnit
def execStackUncorrCountRead (fn stack : Nat) (s : State) : Out :=
  if stack < 16 then onUnit 5 fn s (hostRead fn (0x1000C + 4096 * stack)) else .fault .noSuchUnit
def execStackRunsRead (fn stack : Nat) (s : State) : Out :=
  if stack < 16 then onUnit 5 fn s (hostRead fn (0x10024 + 4096 * stack)) else .fault .noSuchUnit
def execStackLockWaitMaxRead (fn stack : Nat) (s : State) : Out :=
  if stack < 16 then onUnit 5 fn s (hostRead fn (0x10028 + 4096 * stack)) else .fault .noSuchUnit
def execFarPoisonCountRead (fn : Nat) (s : State) : Out := onUnit 5 fn s (hostRead fn 0x30010)
def execFyantCrcRetryRead (fn port : Nat) (s : State) : Out :=
  if port < 16 then onUnit 5 fn s (hostRead fn (0x20010 + 4096 * port)) else .fault .noSuchUnit
def execFyantFecCorrRead (fn port : Nat) (s : State) : Out :=
  if port < 16 then onUnit 5 fn s (hostRead fn (0x20014 + 4096 * port)) else .fault .noSuchUnit
def execFyantRetrainsRead (fn port : Nat) (s : State) : Out :=
  if port < 16 then onUnit 5 fn s (hostRead fn (0x20018 + 4096 * port)) else .fault .noSuchUnit
def execFyantTagFailRead (fn port : Nat) (s : State) : Out :=
  if port < 16 then onUnit 5 fn s (hostRead fn (0x2001C + 4096 * port)) else .fault .noSuchUnit
def execServeFlagFallsRead (fn : Nat) (s : State) : Out := onUnit 5 fn s (hostRead fn 0x8004)
def execServeDeferralsRead (fn : Nat) (s : State) : Out := onUnit 5 fn s (hostRead fn 0x8008)
def execKvWalkSkipsRead (fn part : Nat) (s : State) : Out :=
  if part < 4 then onUnit 5 fn s (hostRead fn (0x8810 + 64 * part)) else .fault .noSuchUnit
def execKvCowRead (fn part : Nat) (s : State) : Out :=
  if part < 4 then onUnit 5 fn s (hostRead fn (0x8814 + 64 * part)) else .fault .noSuchUnit
def execFaultRetriesRead (fn : Nat) (s : State) : Out := onUnit 5 fn s (hostRead fn 0x600C)
def execFaultRepairsRead (fn : Nat) (s : State) : Out := onUnit 5 fn s (hostRead fn 0x6010)
def execFaultRepairFailsRead (fn : Nat) (s : State) : Out := onUnit 5 fn s (hostRead fn 0x6014)
def execFaultPlausibilityRead (fn : Nat) (s : State) : Out := onUnit 5 fn s (hostRead fn 0x6018)
def execSluiceFailRead (fn part : Nat) (s : State) : Out :=
  if part < 4 then onUnit 5 fn s (hostRead fn (0x7010 + 4 * part)) else .fault .noSuchUnit

end Sys2Proof.Machine
end

