-- ==== Sys2Proof/Machine/StackCmds.lean ====
section
/-!
DEFINITION. Stacks and the far tier (08): the KV boundary, check-bit writes, scrubbing, refresh, the traffic generator,
far-tier links and ranges, and the timing-rule row of a stack (09 R239, R240).
-/

namespace Sys2Proof.Machine

/-! ## SET-KV-BOUNDARY (R207) -/

def kvBoundaryChk (s : State) (c : Cmd) : Chk (Nat × Nat) := do
  let k := c.at 16 1
  let b := c.at 20 4
  need (k ≤ 15) (c.bad 16)
  need (b ≤ 384) (c.bad 20)
  need (pimStack s k && !(stackAt s k).failed) (.absent k)
  need ((partAt s c.part).isOpen && (partStacks s c.part).contains k) .notPermitted
  need (!jobIn s c.part && !(tabGet ({} : Pool) s.serve.pools c.part).accepted) .busy
  pure (k, b)

/-- SET-KV-BOUNDARY: every page that changes side is zeroed, then the boundary is set. In row 4 it waits (R241). -/
def execSetKvBoundary (cmd : Nat) (s : State) : Out :=
  onCmd 0x0205 cmd s fun c s =>
    judged c (kvBoundaryChk s c) s fun p s =>
      let st := stackAt s p.1
      if st.row = 4 then s else
      let s := zeroPages p.1 (min st.boundary p.2) (max st.boundary p.2) s
      doneCmd c.id 0 (setStack s p.1 { stackAt s p.1 with boundary := p.2 })

/-! ## CHECKBIT-WRITE (R219, R63) -/

def checkbitChk (s : State) (c : Cmd) : Chk (List (Home × Nat)) := do
  let a := c.addr 16
  need (a.toNat % 8 = 0 && isLocal s a && (spaceOf a = 0 || spaceOf a = 1 || spaceOf a = 5)) (c.bad 16)
  c.checkRanges s [(16, a, 8)]
  need (!anyConfidential s) .notPermitted
  pure (c.pieces s a 8)

/-- Put one 80-bit word exactly as given: data and the deviation of its check bits. -/
def putRawWord (h : Home) (data : Nat) (check : BitVec 16) (s : State) : State :=
  let mark := check ^^^ checkOf (BitVec.ofNat 64 data) false
  match h with
  | .stack k =>
    let s := flushRange k 8 s
    { s with store := { s.store with
        stack := memWrite s.store.stack k (toLe 8 data), stackMark := tabSet 0 s.store.stackMark (k / 8) mark } }
  | .tile k =>
    let s := putTile k (clean (toLe 8 data)) s
    { s with store := { s.store with tileMark := tabSet 0 s.store.tileMark (k / 8) mark } }
  | _ => s

/-- CHECKBIT-WRITE. -/
def execCheckbitWrite (cmd : Nat) (s : State) : Out :=
  onCmd 0x0206 cmd s fun c s =>
    judged c (checkbitChk s c) s fun ps s =>
      c.gate ps s fun s =>
        doneCmd c.id 0 (ps.foldl (fun s p => putRawWord p.1 (c.at 24 8) (BitVec.ofNat 16 (c.at 32 2)) s) s)

/-! ## SCRUB-RANGE (R221, R508) -/

def scrubRangeChk (s : State) (c : Cmd) : Chk (List (Home × Nat)) := do
  let a := c.addr 16
  let n := c.at 24 8
  need (a.toNat % 64 = 0 && isLocal s a && (spaceOf a = 0 || spaceOf a = 1 || spaceOf a = 5)) (c.bad 16)
  need (n % 64 = 0) (c.bad 24)
  if n = 0 then pure [] else do
    c.checkRanges s [(16, a, n), (32, c.addr 32, 64)]
    pure (c.pieces s a n)

/-- Scrub pieces in address order; `off` is where the next piece starts in its space. -/
def scrubPieces (cmd : Option Nat) : List (Home × Nat) → Nat → State → Scrub × State
  | [], _, s => ({}, s)
  | (h, n) :: ps, off, s =>
    let r := match h with
      | .stack k =>
        let r := scrubStack cmd k n s
        ({ r.1 with first := r.1.first.map fun w => off + 8 * w - k }, r.2)
      | .tile k =>
        let r := scrubTile cmd k n s
        ({ r.1 with first := r.1.first.map fun w => off + 8 * w - k }, r.2)
      | _ => (({} : Scrub), s)
    let q := scrubPieces cmd ps (off + n) r.2
    (r.1.add q.1, q.2)

/-- The 64-byte summary of R221. -/
def scrubSummary (r : Scrub) (first : Nat) (start elapsed : Nat) : List Byte :=
  toLe 8 r.words ++ toLe 8 r.corrected ++ toLe 8 r.bad ++ toLe 8 r.poisoned ++ toLe 8 elapsed ++ toLe 8 first
    ++ toLe 8 start ++ zeros 8

/-- The statuses of a scrub: corrected words give DONE_CORRECTED, never POISONED (R221). -/
def scrubMarks (r : Scrub) (result : Nat) : List Mark :=
  .done result :: if r.corrected = 0 then [] else [⟨0x01, min r.corrected 255, result⟩]

/-- SCRUB-RANGE: the summary is written before the reply. -/
def execScrubRange (cmd : Nat) (s : State) : Out :=
  onCmd 0x0204 cmd s fun c s =>
    judged c (scrubRangeChk s c) s fun ps s =>
      if ps = [] then doneCmd c.id 0 s else
      c.reaching (c.addr 32) 64 s fun s => c.gate ps s fun s =>
        let r := scrubPieces (some c.id) ps (c.addr 16).toNat s
        let first := match r.1.first with
          | some a => (mkAddr (spaceOf (c.addr 16)) (a % 2 ^ 44)).toNat
          | none => 2 ^ 64 - 1
        let s := c.put (c.addr 32) (clean (scrubSummary r.1 first c.start (now s - c.start))) r.2
        finishCmd c.id (scrubMarks r.1 r.1.bad) s

/-! ## Laps (R222, R223, R487) -/

/-- The bank-direct form of a stack byte's home (R508). -/
def homeAddr (key : Nat) : Nat :=
  (mkAddr 5 (2 ^ 38 * keyStack key + 2 ^ 33 * keyChannel key + 2 ^ 25 * keyBank key + key % 2 ^ 23)).toNat

/-- Scrub some channels of a stack, in order. -/
def scrubChannels (cmd : Option Nat) (k : Nat) : List Nat → State → Scrub × State
  | [], s => ({}, s)
  | ch :: chs, s =>
    let r := scrubStack cmd (stackKey k ch 0 0) (2 ^ 31) s
    let q := scrubChannels cmd k chs r.2
    (r.1.add q.1, q.2)

/-- The channels of a stack on which a TRAFFIC-GEN runs: the idle scrubber skips them (R228). -/
def trafficOn (s : State) (k ch : Nat) : Bool :=
  s.front.cmds.any fun c => c.opcode = 0x0905 && c.phase = .started && c.at 16 1 = k && c.at 17 1 = ch

/-- Scrub one stack, a channel on which a TRAFFIC-GEN runs skipped by the idle scrubber; its words are those of the
capacity scrubbed. -/
def lapStack (cmd : Option Nat) (k : Nat) (s : State) : Scrub × State :=
  let chs := (List.range 32).filter fun ch => cmd.isSome || !trafficOn s k ch
  let r := scrubChannels cmd k chs (flushWhere k (fun _ => true) s)
  ({ r.1 with words := 256 * chs.length * bankBytes k / 8, first := r.1.first.map fun w => homeAddr (8 * w) }, r.2)

/-- Scrub one tile's scratchpad and accumulators. -/
def lapTile (cmd : Option Nat) (t : Nat) (s : State) : Scrub × State :=
  let r := scrubTile cmd (2 ^ 22 * t) 0x380000 s
  ({ r.1 with first := r.1.first.map fun w => (mkAddr 1 (8 * w)).toNat }, r.2)

/-- The scrub results of each stack in service, and the tiles' results added up. -/
def lapStacks (cmd : Option Nat) : List Nat → State → List (Nat × Scrub) × State
  | [], s => ([], s)
  | k :: ks, s =>
    if (stackAt s k).failed then lapStacks cmd ks s else
    let r := lapStack cmd k s
    let q := lapStacks cmd ks r.2
    ((k, r.1) :: q.1, q.2)

def lapTiles (cmd : Option Nat) : List Nat → State → Scrub × State
  | [], s => ({}, s)
  | t :: ts, s =>
    let r := lapTile cmd t s
    let q := lapTiles cmd ts r.2
    (r.1.add q.1, q.2)

/-- Add up with the numerically lowest first address. -/
def Scrub.join (a b : Scrub) : Scrub :=
  { a.add b with first := match a.first, b.first with
      | some x, some y => some (min x y)
      | some x, none => some x
      | none, y => y }

/-- One full lap: every stack in service and every present tile. `us k` is the lap time of stack `k` in µs. -/
def lapAll (cmd : Option Nat) (us : Nat → Nat) (s : State) : List (Nat × Scrub) × Scrub × State :=
  let r := lapStacks cmd (List.range 16) s
  let t := lapTiles cmd ((List.range 512).filter (tilePresent s)) r.2
  let s := (List.range 16).foldl (fun s k => if (stackAt s k).failed then s
    else setStack s k { stackAt s k with lapUs := BitVec.ofNat 32 (us k) }) t.2
  (r.1, (r.1.map (·.2)).foldl Scrub.join t.1, s)

/-- A command of the monitor that `pick` names was given before `c` started, and still runs (R500). -/
def monRuns (s : State) (c : Cmd) (pick : MonCmd → Bool) : Bool :=
  !s.security.lockout && s.mon.since ≤ c.start && s.mon.todo.any pick

def scrubLapChk (s : State) (c : Cmd) : Chk Unit := do
  c.checkRanges s [(16, c.addr 16, 1088)]
  need (!anyJob s) .notPermitted
  need (!monRuns s c (· = .lap)) .busy

/-- SCRUB-LAP: one lap, then the report of 17 summaries (R223). The lap's time is the command's time so far. -/
def execScrubLap (cmd : Nat) (s : State) : Out :=
  onCmd 0x0906 cmd s fun c s =>
    judged c (scrubLapChk s c) s fun _ s =>
      c.reaching (c.addr 16) 1088 s fun s =>
        let t := now s - c.start
        let r := lapAll (some c.id) (fun _ => t / 1000) s
        let line (x : Scrub) : List Byte := scrubSummary x (x.first.getD (2 ^ 64 - 1)) c.start t
        let each := (List.range 16).flatMap fun k => match tabFind r.1 k with
          | some x => line x
          | none => zeros 64
        let s := c.put (c.addr 16) (clean (line r.2.1 ++ each)) r.2.2
        finishCmd c.id (scrubMarks r.2.1 t) s

/-- The idle scrubber's lap ends, while no job is resident (R222). -/
def execIdleScrubLapEnd (laps : List Nat) (s : State) : Out :=
  .next (if running s && !anyJob s then (lapAll none (fun k => laps[k]?.getD 0) s).2.2 else s)

/-! ## TRAFFIC-GEN (R227, R228) -/

/-- Bursts of 64 bytes in a channel's bank. -/
def burstsPerBank (k : Nat) : Nat := bankBytes k / 64

/-- Where burst `i` goes under an address mode: its place is a bank and a burst of that bank. R227 names the modes only:
that sequential fills one bank after another, that rotating takes the banks in order and then the next burst, and that the
one row is row 0 of bank 0, are the model's (DESIGN CHOICE, log 70). -/
def burstKey (k ch mode i : Nat) : Nat :=
  let total := 256 * burstsPerBank k
  match mode with
  | 0 => let p := i % total; stackKey k ch (p / burstsPerBank k) (p % burstsPerBank k * 64)
  | 1 => let p := i % total; stackKey k ch (p % 256) (p / 256 * 64)
  | 2 => let p := Config.trafficPlace (k * 32 + ch) i % total; stackKey k ch (p / burstsPerBank k) (p % burstsPerBank k * 64)
  | _ => stackKey k ch 0 (i % 32 * 64)

/-- The 80 pins that beat `b` of burst `i` drives. R227 does not give the checkerboard's first polarity (the model: pin 0
is 1 on even beats), the pin at which the walking one starts (pin 0), nor the form of pattern 6's word address (the
bank-direct fabric address) (DESIGN CHOICE, log 70). -/
def burstWord (pattern i b key : Nat) : BitVec 80 :=
  match pattern with
  | 0 => 0
  | 1 => BitVec.allOnes 80
  | 2 => if b % 2 = 0 then 0x55555555555555555555 else 0xAAAAAAAAAAAAAAAAAAAA
  | 3 => BitVec.ofNat 80 (2 ^ ((8 * i + b) % 80))
  | 6 => BitVec.ofNat 80 (homeAddr (key + 8 * b))
  | p => Config.trafficWord p i b

/-- Observed XOR expected on a raw readback: what the pins did, and a lost pin that reads as 0 (R214). -/
def rawDiff (s : State) (k ch pattern i b key : Nat) : BitVec 80 :=
  let e := Config.rawError k ch i b
  let lane := tabGet ({} : Lane) (stackAt s k).lanes ch
  if lane.lost < 80 then
    let m := BitVec.ofNat 80 (2 ^ lane.lost)
    (e &&& ~~~ m) ||| (burstWord pattern i b key &&& m)
  else e

/-- The mismatching words of `count` bursts in order: key, difference, beat. -/
def rawErrors (s : State) (k ch pattern mode count : Nat) : List (Nat × BitVec 80 × Nat) :=
  (List.range count).flatMap fun i =>
    let key := burstKey k ch mode i
    (List.range 8).filterMap fun b =>
      let d := rawDiff s k ch pattern i b key
      if d = 0 then none else some (key + 8 * b, d, b)

/-- A capture record (R227). -/
def captureRecord (t : Nat) (e : Nat × BitVec 80 × Nat) : List Byte :=
  toLe 8 (homeAddr e.1) ++ toLe 10 e.2.1.toNat ++ [BitVec.ofNat 8 e.2.2] ++ zeros 5 ++ toLe 8 t

/-- Every burst the generator touched is rewritten as zeros with valid check bits. -/
def rewriteBursts (k ch mode count : Nat) (s : State) : State :=
  (List.range count).foldl (fun s i => zeroStack (burstKey k ch mode i) 64 s) s

def trafficChk (s : State) (c : Cmd) : Chk Unit := do
  let k := c.at 16 1
  need (k ≤ 15) (c.bad 16)
  need (c.at 17 1 ≤ 31) (c.bad 17)
  need (c.at 18 1 ≤ 6) (c.bad 18)
  need (c.at 19 1 ≤ 3) (c.bad 19)
  need (c.at 32 8 % 64 = 0) (c.bad 32)
  c.rangesAnd s k (!(stackAt s k).failed) [(32, c.addr 32, 32 * min (8 * c.at 24 8) 1024)]
  need (!anyConfidential s) .notPermitted
  need (!s.jobs.jobs.any fun j => (partStacks s j.part).contains k) .busy
  need (!monRuns s c fun m => match m with | .tgen .. => true | _ => false) .busy

/-- TRAFFIC-GEN. -/
def execTrafficGen (cmd : Nat) (s : State) : Out :=
  onCmd 0x0905 cmd s fun c s =>
    judged c (trafficChk s c) s fun _ s => c.reaching (c.addr 32) (32 * min (8 * c.at 24 8) 1024) s fun s =>
      let k := c.at 16 1
      let ch := c.at 17 1
      let es := rawErrors s k ch (c.at 18 1) (c.at 19 1) (c.at 24 8)
      let s := rewriteBursts k ch (c.at 19 1) (c.at 24 8) s
      let out := (es.take 1024).flatMap (captureRecord (now s))
      doneCmd c.id es.length (if out = [] then s else c.put (c.addr 32) (clean out) s)

/-! ## Refresh, merge buffers, rows -/

/-- REFRESH_DUE (R225): an idle bank takes its refresh; a bank in a pound owes it, at most 4, until its next lock. -/
def refreshDue (k b : Nat) (s : State) : State :=
  let x := bankAt s k b
  if (stackAt s k).failed || (stackAt s k).selfRefresh || !(stackAt s k).trained then s
  else setBank s k b { x with owed := if x.inPound then min 4 (x.owed + 1) else 0 }

def execRefreshDue (stack bank : Nat) (s : State) : Out :=
  if bank < 8192 then onUnit 16 stack s (refreshDue stack bank) else .fault .noSuchUnit

/-- MERGE_BUFFER_FLUSH (R217): the channel's entries that are 2 µs old are flushed. -/
def execMergeBufferFlush (stack channel : Nat) (s : State) : Out :=
  if channel < 32 then
    onUnit 16 stack s fun s =>
      whenRunning s (flushWhere stack fun e => keyChannel e.line = channel && e.since + 2000 ≤ now s)
  else .fault .noSuchUnit

/-- The thresholds of R239 above rows 0 to 3. -/
def rowLimits : List Nat := [85, 95, 100, 105]

/-- The row of a temperature from the present row: hotter when a threshold is exceeded, back when it falls 2 °C below
(R240). -/
def rowFor (row temp : Nat) : Nat :=
  let up := (rowLimits.filter fun t => t < temp).length
  let keep := (rowLimits.filter fun t => t < temp + 2).length
  max up (min row keep)

/-- STACK_ROW_CHANGE (R240). -/
def execStackRowChange (stack temp : Nat) (s : State) : Out :=
  onUnit 16 stack s fun s =>
    setStack s stack { stackAt s stack with temp := temp, rowTemp := rowFor (stackAt s stack).rowTemp temp }

/-- REFRESH_RATE_CHANGE (R224): tREFI shortens above 85 °C and lengthens below 83 °C. -/
def execRefreshRateChange (stack temp : Nat) (s : State) : Out :=
  onUnit 16 stack s fun s =>
    let st := stackAt s stack
    setStack s stack { st with temp := temp, hot := if temp > 85 then true else if temp < 83 then false else st.hot }

/-! ## The far tier -/

def setPortUp (f : Far) (p : Nat) (up retraining fast : Bool) : Far :=
  if p = 0 then { f with up0 := up, retraining0 := retraining, fast0 := fast }
  else { f with up1 := up, retraining1 := retraining, fast1 := fast }

/-- FAR_LINK_DOWN (R235): the link goes down and is retrained once. -/
def execFarLinkDown (port : Nat) (s : State) : Out :=
  onUnit 2 port s fun s => if portUp s port then { s with far := setPortUp s.far port false true false } else s

/-- FAR_LINK_RETRAIN_DONE (R235): up again, or down until the next start-up with FAR_LINK_DOWN set. -/
def execFarLinkRetrainDone (port : Nat) (up rate6 : Bool) (s : State) : Out :=
  onUnit 2 port s fun s =>
    if !portRetrains s port then s
    else if up then { s with far := setPortUp s.far port true false rate6 }
    else raise .farDown { s with far := setPortUp s.far port false false false }

/-- The far ranges of two partitions overlap. -/
def farOverlap (f : Far) (p q : Nat) : Bool :=
  let b (n : Nat) : Nat := tabGet 0 f.base n
  let e (n : Nat) : Nat := tabGet 0 f.base n + tabGet 0 f.size n
  b p < e p && b q < e q && b p < e q && b q < e p

/-- FAR_PART_WRITE (R232): only the physical function, only while no job is resident in the partition; a range that
would overlap another or reach beyond the served range is ignored and sets FAR_CFG_ERR. -/
def farPartWrite (fn offset : Nat) (value : W32) (s : State) : State :=
  let p := (offset - 0x30100) / 8
  let v := value.toNat % 2 ^ 15
  if fn ≠ 0 || offset < 0x30100 || p > 3 || offset % 4 ≠ 0 || jobIn s p || !s.boot.ready || s.pmu.sleep ≠ .awake then s
  else
    let f := if offset % 8 = 0 then { s.far with base := tabSet 0 s.far.base p v }
      else { s.far with size := tabSet 0 s.far.size p v }
    let beyond := tabGet 0 f.size p ≠ 0 && gib * (tabGet 0 f.base p + tabGet 0 f.size p) > farServed s
    if beyond || (List.range 4).any (fun q => q ≠ p && farOverlap f p q) then raise .farCfg s
    else { s with far := f }

def execFarPartWrite (fn offset : Nat) (value : W32) (s : State) : Out := onUnit 5 fn s (farPartWrite fn offset value)

end Sys2Proof.Machine
end

