-- ==== Sys2Proof/Machine/RegWrite.lean ====
section
/-!
DEFINITION. Writing registers (17 R467-R476 and every block's own table), the interrupt rows, the admin queue's control
(02 R33, R34), the BAR2 window (17 R476).
-/

namespace Sys2Proof.Machine

/-! ## The admin queue (R33, R34) -/

/-- The configuration that setting ENABLE checks. -/
def Admin.good (a : Admin) : Bool :=
  let n := bits a.cfg.toNat 19 16
  4 ≤ n && n ≤ 12 && a.sqLo.toNat % 64 = 0 && a.replyLo.toNat % 64 = 0 && a.shadowLo.toNat % 16 = 0

def Admin.enabled (a : Admin) : Bool := a.cfg.getLsbD 31

/-- A command timeout field in milliseconds; 0 means 100 ms (R26, R33). -/
def timeoutNs (ms : Nat) : Nat := if ms = 0 then 100000000 else 1000000 * ms

/-- The admin queue starts afresh: indices at 0, an empty replay window. -/
def adminStart (s : State) : State :=
  let a := s.front.admin
  let join (lo hi : W32) : W64 := hi ++ lo
  setQueue { s with front := { s.front with admin := { a with halting := false, enablePending := false } } } 0
    { part := 0xFF, sizeLog2 := bits a.cfg.toNat 19 16, timeout := timeoutNs (bits a.cfg.toNat 15 0),
      sqBase := join a.sqLo a.sqHi, replyBase := join a.replyLo a.replyHi, shadow := join a.shadowLo a.shadowHi,
      active := true }

/-- A write of QUEUE.ADMIN_CFG. Before READY it takes effect, but the queue starts only at READY (R488). -/
def adminCfgWrite (value : W32) (s : State) : State :=
  let a := { s.front.admin with cfg := value &&& 0x800FFFFF, enablePending := false }
  let put (a : Admin) : State := { s with front := { s.front with admin := a } }
  if !a.enabled then put { a with halting := (queueAt s 0).active }
  else if (queueAt s 0).active then put { a with enablePending := a.halting }
  else if !a.good then raise .adminCfg (put a)
  else if s.boot.ready then adminStart (put a) else put a

/-- ADMIN_QUEUE_ENABLE: ADMIN_CFG is written with ENABLE set. -/
def execAdminQueueEnable (value : W32) (s : State) : Out :=
  .next (if hostUp s && offServed 0x2018 s then adminCfgWrite (value ||| 0x80000000) s else s)

/-- ADMIN_QUEUE_DISABLE: ADMIN_CFG is written with ENABLE clear. -/
def execAdminQueueDisable (value : W32) (s : State) : Out :=
  .next (if hostUp s && offServed 0x2018 s then adminCfgWrite (value &&& 0x7FFFFFFF) s else s)

/-- ADMIN_QUEUE_DRAINED: the stopped admin queue has no command in flight and no duplicate reply to write, so ACTIVE goes
to 0, and a pending ENABLE takes effect. -/
def adminDrained (s : State) : State :=
  let q := queueAt s 0
  let a := s.front.admin
  if !q.active || !a.halting || s.front.cmds.any (·.queue == 0) || q.dups ≠ [] then s
  else
    let s := setQueue { s with front := { s.front with admin := { a with halting := false, enablePending := false } } } 0
      { q with active := false }
    if !a.enablePending then s else if a.good then adminStart s else raise .adminCfg s

def execAdminQueueDrained (s : State) : Out := .next (adminDrained s)

/-! ## Waking (R464) -/

/-! ## Writes -/

/-- The defined bits of a leaf register (R466). -/
def leafBits (g k : Nat) : W32 :=
  match g with
  | 0 => if k < 8 then 0xFFFFFFFF else if k = 8 then 7 else 0
  | 1 => 7
  | 2 => 1
  | 3 => 15
  | 4 => 7
  | 5 => 15
  | 6 => 7
  | 7 => 3
  | _ => 0

/-- Write the bits of a leaf enable that a function sees (R472). -/
def writeEnable (fn g k : Nat) (v : W32) (s : State) : State :=
  let m := leafBits g k &&& leafMask s fn g k
  let put (l : Leaf) : Leaf := { l with enable := (l.enable &&& ~~~ m) ||| (v &&& m) }
  let irq := if g = 0 then { s.irq with queue := s.irq.queue.setIfInBounds k (put (leafAt s.irq 0 k)) }
    else if k = 0 then setGroupLeaf s.irq g (put (groupLeaf s.irq g)) else s.irq
  irqSettle { s with irq := irq }

/-- The IRQ block (R467, R470, R472). -/
def irqWrite (fn off : Nat) (v : W32) (s : State) : State :=
  if off = 0x1004 then irqSettle (setIrqFn s fn { irqFn s fn with enable := v.setWidth 8 })
  else if off = 0x1008 then setIrqFn s fn { irqFn s fn with holdoff := v.setWidth 16 }
  else if off = 0x100C then eoi fn s
  else if 0x1100 ≤ off && off < 0x1900 && 0x10 ≤ off % 0x100 then
    let g := (off - 0x1100) / 0x100
    let k := (off % 0x100 - 0x10) / 8
    if (off % 0x100 - 0x10) % 8 = 0 then clearLeaf fn g k v s else writeEnable fn g k v s
  else s

/-- A BAR2 window base (R476): bits below the window's size are ignored; a base that is not in space 0x0, 0x1 or 0x5 of
this module is ignored and sets ADDR_ERR. -/
def bar2Base (fn off : Nat) (v : W32) (s : State) : State :=
  let old := s.front.bar2Base[fn]?.getD 0
  let new : W64 := if off = 0x2100 then old.extractLsb' 32 32 ++ v else v ++ old.extractLsb' 0 32
  let new : W64 := BitVec.ofNat 64 (new.toNat / 2 ^ s.front.bar2Size * 2 ^ s.front.bar2Size)
  if nodeOf new = 0xFFFF && (spaceOf new = 0 || spaceOf new = 1 || spaceOf new = 5) then
    { s with front := { s.front with bar2Base := s.front.bar2Base.setIfInBounds fn new } }
  else raise .addrErr s

/-- The QUEUE block's registers, but for ADMIN_CFG. -/
def queueWrite (off : Nat) (v : W32) (s : State) : State :=
  let a := s.front.admin
  let put (a : Admin) : State := { s with front := { s.front with admin := a } }
  match off with
  | 0x2000 => put { a with sqLo := v }
  | 0x2004 => put { a with sqHi := v }
  | 0x2008 => put { a with replyLo := v }
  | 0x200C => put { a with replyHi := v }
  | 0x2010 => put { a with shadowLo := v }
  | 0x2014 => put { a with shadowHi := v }
  | 0x2018 => adminCfgWrite v s
  | 0x2108 => { s with front := { s.front with bar2Part := v.toNat % 4 } }
  | _ => s

/-- FAULT.TAG of a partition: its function's, or the physical function's (R422). -/
def tagWrite (fn n : Nat) (v : W32) (s : State) : State :=
  if fn = 0 || partOfFn s fn = some n then { s with faults := { s.faults with tags := tabSet 0 s.faults.tags n v } } else s

/-- The SERVE block, its planning and KV registers (R338, R322, R272). -/
def serveWrite (off : Nat) (v : W32) (s : State) : State :=
  if off = 0x8000 then { s with serve := { s.serve with flagIrq := v.getLsbD 31 } }
  else if 0x8100 ≤ off && off < 0x8140 then serveCostWrite 0 off v s
  else if 0x8800 ≤ off && off < 0x8900 then
    let n := (off - 0x8800) / 64
    match off % 64 with
    | 0x00 => setPool s n { poolAt s n with lo := v }
    | 0x04 => kvPoolHiWrite 0 n v s
    | 0x18 => kvPoolRelease 0 n v s
    | _ => s
  else s

/-- Writes of the physical function outside the IRQ block. -/
def pfWrite (off : Nat) (v : W32) (s : State) : State :=
  if 0x2000 ≤ off && off < 0x4000 then queueWrite off v s
  else if 0x5000 ≤ off && off < 0x6000 then
    (if off = 0x5018 then (if v.getLsbD 0 then startWake s else s) else powerCfgWrite 0 off v s)
  else if off = 0x6008 then
    { s with faults := { s.faults with collectorOn := v.getLsbD 31, collectorNode := v.setWidth 16 } }
  else if 0x8000 ≤ off && off < 0x9000 then serveWrite off v s
  else if 0x20000 ≤ off && off < 0x30000 && 0x900 ≤ off % 4096 && off % 4096 < 0xA00 then
    { s with fabric := { s.fabric with
        admission := tabSet 0 s.fabric.admission ((off % 4096 - 0x900) / 4) (v &&& 0xFFF8FFFF) } }
  else if off = 0x30004 then (if anyJob s then s else { s with far := { s.far with interleave := v.getLsbD 0 } })
  else if 0x30100 ≤ off && off < 0x30120 then farPartWrite 0 off v s
  else s

/-- A write of a register by a function's BAR0, or by the Lockkeeper as the physical function (log 24). A register that
is read-only, reserved or not the function's own drops it. -/
def regWrite (fn off : Nat) (v : W32) (s : State) : State :=
  if !offServed off s || off % 4 ≠ 0 then s
  else if 0x1000 ≤ off && off < 0x2000 then irqWrite fn off v s
  else if off = 0x2100 || off = 0x2104 then bar2Base fn off v s
  else if 0x6040 ≤ off && off < 0x6050 then tagWrite fn ((off - 0x6040) / 4) v s
  else if off = 0x800C then
    { s with serve := { s.serve with recordSel := s.serve.recordSel.setIfInBounds fn (v &&& 0x8000FFFF) } }
  else if fn ≠ 0 then s
  else pfWrite off v s

/-- REGISTER_WRITE. -/
def execRegisterWrite (fn offset : Nat) (value : W32) (s : State) : Out :=
  if offset < 2 ^ 24 then onUnit 5 fn s fun s => if hostUp s then regWrite fn offset value s else s
  else .fault .noSuchUnit

/-- BAR2_BASE_WRITE. -/
def execBar2BaseWrite (fn offset : Nat) (value : W32) (s : State) : Out :=
  onUnit 5 fn s fun s =>
    if hostUp s && offServed offset s && (offset = 0x2100 || offset = 0x2104) then bar2Base fn offset value s else s

/-! ## The interrupt rows (R469, R470) -/

def execIrqHoldoffExpire (fn : Nat) (s : State) : Out := onUnit 5 fn s (holdoffExpire fn)
def execIrqUnmask (fn : Nat) (s : State) : Out := onUnit 5 fn s (unmaskFn fn)
def execIrqLeafClear (fn group leaf : Nat) (value : W32) (s : State) : Out :=
  onUnit 5 fn s fun s => if hostUp s then clearLeaf fn group leaf value s else s
def execIrqEoi (fn : Nat) (s : State) : Out := onUnit 5 fn s fun s => if hostUp s then eoi fn s else s

/-! ## BAR2 (R476, R184-R186) -/

/-- The fabric address of a BAR2 byte. -/
def bar2Addr (fn offset : Nat) (s : State) : W64 := s.front.bar2Base[fn]?.getD 0 + BitVec.ofNat 64 offset

/-- BAR2 is served only while the module is up (R463, R488). -/
def bar2Served (offset n : Nat) (s : State) : Bool := hostUp s && serving s && offset + n ≤ 2 ^ s.front.bar2Size

/-- BAR2_READ (R476, R184): what it returns stands in `readBytes` (log 5). -/
def bar2Read (fn offset length : Nat) (s : State) : State :=
  if bar2Served offset length s then issue fn (.read (bar2Addr fn offset s) length) s else readOnes length s

def execBar2Read (fn offset length : Nat) (s : State) : Out := onUnit 5 fn s (bar2Read fn offset length)

/-- BAR2_WRITE. -/
def bar2Write (fn offset : Nat) (data : List Byte) (s : State) : State :=
  if bar2Served offset data.length s then issue fn (.write (bar2Addr fn offset s) data) s else s

def execBar2Write (fn offset : Nat) (data : List Byte) (s : State) : Out := onUnit 5 fn s (bar2Write fn offset data)

/-! ## A command's data at an address that may be a register (R182) -/

/-- Write bytes at a range: memory, a register, or another node. -/
def Cmd.writeAt (c : Cmd) (a : W64) (bs : List PByte) (s : State) : State :=
  match c.place s a bs.length with
  | .ok (.reg off) =>
    let w (k : Nat) : W32 := BitVec.ofNat 32 (field (bs.map (·.1)) k 4)
    let s := regWrite 0 off (w 0) s
    if bs.length = 8 then regWrite 0 (off + 4) (w 4) s else s
  | _ => c.put a bs s

/-- Bytes of a range: memory, a register, or what was fetched from another node. -/
def Cmd.readAt (c : Cmd) (a : W64) (n : Nat) (s : State) : List PByte × State :=
  match c.place s a n with
  | .ok (.reg off) =>
    let lo := regRead 0 off s
    if n = 4 then (clean (toLe 4 lo.1.toNat), lo.2)
    else
      let hi := regRead 0 (off + 4) lo.2
      (clean (toLe 4 lo.1.toNat ++ toLe 4 hi.1.toNat), hi.2)
  | .ok (.remote _) => (c.carried a (fetchedData c.fetched c.tainted a.toNat n), carriedOver c s)
  | _ =>
    let r := c.fetch a n s
    (r.1.data, r.2)

end Sys2Proof.Machine
end

