-- ==== Sys2Proof/Machine/Sx.lean ====
section
/-!
DEFINITION. The SX functions (04 R110): the exact value is computed far beyond binary32 precision, its binary32
neighbours inside the error bound are listed, and a free pick takes one of them, the same for every SX, bank unit and
merge unit.
-/

namespace Sys2Proof.Machine

/-- Fraction bits of the fixed-point values below. -/
def fx : Nat := 384

/-- x^n / n! summed from term `n` on, by Horner over `fuel` terms: 1 + x/n (1 + x/(n+1) (…)). -/
def expTail (x : Nat) : Nat → Nat → Nat
  | 0, _ => 2 ^ fx
  | fuel + 1, n => 2 ^ fx + x * expTail x fuel (n + 1) / (n * 2 ^ fx)

/-- Square a fixed-point value `n` times. -/
def squareTimes : Nat → Nat → Nat
  | 0, v => v
  | n + 1, v => squareTimes n (v * v / 2 ^ fx)

/-- e^x for a fixed-point x below 2^8. -/
def expFx (x : Nat) : Nat := squareTimes 8 (expTail (x / 2 ^ 8) 80 1)

/-- 2 atanh z = ln((1 + z) / (1 - z)) for a signed fixed-point z of magnitude at most about 1/3. -/
def atanhSum (z2 : Int) : Nat → Int → Int → Int
  | 0, _, _ => 0
  | fuel + 1, p, n => p / n + atanhSum z2 fuel (p * z2 / 2 ^ fx) (n + 2)

def lnRatio (num den : Int) : Int :=
  let z := (num - den) * 2 ^ fx / (num + den)
  2 * atanhSum (z * z / 2 ^ fx) 140 z 1

/-- The integer square root, bit by bit from bit `n - 1`. -/
def rootBits (v : Nat) : Nat → Nat → Nat
  | 0, r => r
  | n + 1, r => if (r + 2 ^ n) * (r + 2 ^ n) ≤ v then rootBits v n (r + 2 ^ n) else rootBits v n r

/-- The binary32 magnitude just below m × 2^e, as an encoding. -/
def below32 (m : Nat) (e : Int) : Nat :=
  if m = 0 then 0 else
  let r := roundPlace .zero 0 24 (-149) m e
  if exceeds r.1 r.2 binary32.maxNum.1 binary32.maxNum.2 then 0x7F800000 else binary32.pack r.1 r.2

/-- A binary32 number by its place on the number line: below zero the sign is set; past the largest it is infinite. -/
def atOrdinal (k : Int) : W32 :=
  if k < 0 then BitVec.ofNat 32 (2 ^ 31 + min k.natAbs 0x7F800000) else BitVec.ofNat 32 (min k.natAbs 0x7F800000)

/-- Pick one of the encodings within `ulps` of a value whose lower neighbour in magnitude is `m`: an exact value has
`ulps` on each side, another has `ulps - 1` below and `ulps` above. -/
def pickNear (ulps : Nat) (neg exact : Bool) (m pick : Nat) : W32 :=
  let lo : Int := if exact then (m : Int) - ulps else (m : Int) - ulps + 1
  let n := if exact then 2 * ulps + 1 else 2 * ulps
  let k := lo + (pick % n : Nat)
  atOrdinal (if neg then -k else k)

/-- exp (R110). -/
def sxExp (x : W32) : W32 :=
  match dec32 x with
  | .nan => nan32
  | .inf neg => if neg then 0 else 0x7F800000
  | .fin neg m e =>
    if m = 0 then pickNear 2 false true one32.toNat (Config.expPick x)
    else if (Nat.log2 m : Int) + e ≥ 8 then
      (if neg then pickNear 2 false false 0 (Config.expPick x) else 0x7F800000)
    else
      let y := expFx (m * 2 ^ (e + fx).toNat)
      let v := if neg then 2 ^ (2 * fx) / y else y
      let b := below32 v (-fx)
      if b ≥ 0x7F800000 then 0x7F800000 else pickNear 2 false false b (Config.expPick x)

/-- log (R110). -/
def sxLog (x : W32) : W32 :=
  match dec32 x with
  | .nan => nan32
  | .inf neg => if neg then nan32 else 0x7F800000
  | .fin neg m e =>
    if m = 0 then negInf32 else if neg then nan32
    else
      let l := Nat.log2 m
      let up := 2 * m ≥ 3 * 2 ^ l
      let k : Int := (l : Int) + e + (if up then 1 else 0)
      let v := k * lnRatio 2 1 + lnRatio (if up then m else 2 * m) (2 ^ (l + 1))
      pickNear 2 (v < 0) (v = 0) (below32 v.natAbs (-fx)) (Config.logPick x)

/-- rsqrt (R110). -/
def sxRsqrt (x : W32) : W32 :=
  match dec32 x with
  | .nan => nan32
  | .inf neg => if neg then nan32 else 0
  | .fin neg m e =>
    if m = 0 then (if neg then negInf32 else 0x7F800000) else if neg then nan32
    else
      let odd := e % 2 ≠ 0
      let m := if odd then 2 * m else m
      let h := (if odd then e - 1 else e) / 2
      let r := rootBits (2 ^ 256 / m) 129 0
      let b := below32 r (-128 - h)
      pickNear 1 false (r * r * m = 2 ^ 256 && r % 2 ^ (Nat.log2 r - 23) = 0) b (Config.rsqrtPick x)

/-- reciprocal (R110); that of 1.0 is 1.0, since a query that sees one position gives its V exactly (R256; DEDUCED, log 52). -/
def sxRecip (x : W32) : W32 :=
  match dec32 x with
  | .nan => nan32
  | .inf neg => if neg then 0x80000000 else 0
  | .fin neg m e =>
    if m = 0 then (if neg then negInf32 else 0x7F800000)
    else if x = one32 then one32
    else
      let b := below32 (2 ^ 128 / m) (-128 - e)
      if b ≥ 0x7F800000 then (if neg then negInf32 else 0x7F800000)
      else pickNear 1 neg (m * 2 ^ (24 - Nat.log2 m) = 2 ^ 24) b (Config.recipPick x)

end Sys2Proof.Machine
end

