-- ==== Sys2Proof/Machine/Fabric.lean ====
section
/-!
DEFINITION. The Fyant fabric (13 R371-R387): the messages of the request, response and bulk channels, admission,
forwarding, advertisements and the fabric map, routes, the fabric commands.
-/

namespace Sys2Proof.Machine

/-! ## Received messages (R372) -/

/-- Take the message at the front of a channel away. -/
def popMsg (p vc : Nat) (rest : List Byte) (s : State) : State :=
  let x := portAt s p
  setPort s p { x with rxq := x.rxq.setIfInBounds vc rest }

/-- A row about the message at the front of a channel: it acts when that message is whole, of the row's kind and for
this module. `f` gets the message, the state without it, and the state with it still waiting. -/
def onMsg (p vc kind : Nat) (s : State) (f : Msg → State → State → State) : Out :=
  onPort p s fun x s =>
    match takeMsg (x.rxq[vc]?.getD []) with
    | some (m, rest) => if m.kind = kind && m.dest = ownNode s then f m (popMsg p vc rest s) s else s
    | none => s

/-! ## Admission (R382, R383) -/

/-- An admission entry that lets a message in. -/
def entryAdmits (e : W32) (m : Msg) (write : Bool) : Bool :=
  let v := e.toNat
  bit v 31 && bit v (if write then 29 else 30) && v % 2 ^ 16 = m.src && m.part < 4 && bit v (19 + m.part)
    && (match spaceOf m.addr with
      | 0 => bit v 23
      | 1 => bit v 24
      | 2 => bit v 25
      | 5 => bit v 26
      | _ => false)

/-- The local partition of the lowest-numbered entry that lets a message in. -/
def admissionOf (s : State) (m : Msg) (write : Bool) : Option Nat :=
  ((List.range 64).find? fun i => entryAdmits (tabGet 0 s.fabric.admission i) m write).map fun i =>
    bits (tabGet 0 s.fabric.admission i).toNat 28 27

/-- A command's answer holds for a message of that command, whose tags carry its slot: same source, inside the range
(R383; log 29). -/
def Grant.holds (g : Grant) (m : Msg) (write : Bool) : Bool :=
  g.node = m.src && g.part = m.part && g.agent = m.agent && g.write = write && 512 ≤ m.agent && g.slot = tagSlot m.tag
    && g.address.toNat ≤ m.addr.toNat && m.addr.toNat + m.length ≤ g.address.toNat + g.length

/-- The partition that an arriving request is interpreted in: the latest answer of its command, else the entry that admits
it. -/
def letIn (s : State) (m : Msg) (write : Bool) : Option Nat :=
  match s.fabric.grants.reverse.find? fun g => g.holds m write with
  | some g => some g.place
  | none => admissionOf s m write

/-- What a request reaches in partition `q`; none where it is refused. The bulk mover reaches no tile (R185). -/
def reaches (s : State) (m : Msg) (q : Nat) : Option (List (Home × Nat)) :=
  if m.agent = 513 && spaceOf m.addr = 1 then none else
  match resolve s .lockkeeper (some q) m.addr m.length with
  | .ok (.near ps) => some ps
  | _ => none

/-- What an admitted message reaches; none where it is refused. -/
def reachesHere (s : State) (m : Msg) (write : Bool) : Option (List (Home × Nat)) := (letIn s m write).bind (reaches s m)

/-- A remote write or barge that came by a channel of a port: applied and acknowledged, refused, or waiting for a bank or a
far link. One whose far link is down for good is never acknowledged (DEDUCED, log 37). -/
def takeWrite (port vc : Nat) (m : Msg) (popped waiting : State) : State :=
  match reachesHere popped m true with
  | none => respond m 4 0 [] popped
  | some ps =>
    let m := { m with place := letIn popped m true }
    match reachOf popped (.port port vc) ps with
    | .go => respond m 3 0 [] (putPieces ps m.data (noteWaits (.port port vc) ps popped))
    | .wait => noteWaits (.port port vc) ps waiting
    | .dead => popped

/-- A remote read: answered with its data and their poison, refused, or waiting. -/
def takeRead (port : Nat) (m : Msg) (popped waiting : State) : State :=
  match reachesHere popped m false with
  | none => respond m 4 0 [] popped
  | some ps =>
    let m := { m with place := letIn popped m false }
    match reachOf popped (.port port vcRequest) ps with
    | .go =>
      let r := readCharged false none ps (noteWaits (.port port vcRequest) ps popped)
      respond m 2 m.length r.1.data r.2
    | .wait => noteWaits (.port port vcRequest) ps waiting
    | .dead => popped

def execWrite (port : Nat) (s : State) : Out := onMsg port vcRequest 0 s (takeWrite port vcRequest)
def execRead (port : Nat) (s : State) : Out := onMsg port vcRequest 1 s (takeRead port)
def execBarge (port : Nat) (s : State) : Out := onMsg port vcBulk 7 s (takeWrite port vcBulk)

/-- A query of a command's range, which only the table admits: its answer is kept, so that it holds to the command's
end. -/
def takeQuery (m : Msg) (s : State) : State :=
  let write := (m.data.headD (0, false)).1 ≠ 0
  match admissionOf s m write with
  | none => respond m 4 0 [] s
  | some q =>
    if (reaches s m q).isNone then respond m 4 0 [] s else
    let g : Grant := ⟨m.src, m.part, m.agent, m.addr, m.length, write, q, tagSlot m.tag⟩
    respond m 6 0 []
      { s with fabric := { s.fabric with grants := s.fabric.grants.filter (· != g) ++ [g] } }

def execAdmissionQuery (port : Nat) (s : State) : Out := onMsg port vcRequest 5 s fun m s _ => takeQuery m s

/-! ## Responses -/

/-- The addresses of the poisoned bytes at an address. -/
def badPlaces (a : Nat) (bs : List PByte) : List Nat := ((bs.zipIdx a).filter (·.1.2)).map (·.2)

/-- Poisoned words that another node sent are counted on the command that reads them (R57, R211). -/
def countTaint (cmd : Option Nat) (n : Nat) (s : State) : State :=
  match cmd with
  | some c => if n = 0 then s else
      updCmd c (fun x => { x with poisoned := x.poisoned + n, poisonClass := max x.poisonClass 4 }) s
  | none => s

/-- The data of a layout copy, which counts the words that its elements use when it moves them (R163, R170). -/
def copyData (s : State) (r : Remote) : Bool :=
  match r.tile with
  | some t => (tileAt s t).dx.queue.any fun e => e.id == r.entry && bits e.word.toNat 127 120 = 0x11 && e.asking.isNone
  | none => (r.cmd.bind (cmdAt s)).any fun c => c.opcode = 0x0203 && c.asking.isNone

/-- Keep what a read brought for whoever asked, with its poison. -/
def keepFetched (r : Remote) (data : List PByte) (s : State) : State :=
  let a := r.address.toNat
  let s := if copyData s r then s else countTaint r.cmd (poisonedWords a data) s
  match r.tile with
  | some t => updEntry t r.entry (fun e => { e with
      fetched := memWrite e.fetched a (data.map (·.1)), tainted := e.tainted ++ badPlaces a data }) s
  | none => match r.cmd with
    | some c => updCmd c (fun x => { x with
        fetched := memWrite x.fetched a (data.map (·.1)), tainted := x.tainted ++ badPlaces a data }) s
    | none => s

/-- The outstanding access that a response answers. -/
def asked (s : State) (m : Msg) (kinds : List RemoteKind) : Option Remote :=
  s.fabric.remote.find? fun r => r.tag = m.tag && r.node = m.src && kinds.contains r.kind

def execReadData (port : Nat) (s : State) : Out :=
  onMsg port vcResponse 2 s fun m s _ =>
    match asked s m [.read] with
    | some r => settleRemote r.tag (keepFetched r m.data s)
    | none => s

def execWriteAcknowledgement (port : Nat) (s : State) : Out :=
  onMsg port vcResponse 3 s fun m s _ =>
    match asked s m [.write, .barge] with
    | some r => settleRemote r.tag s
    | none => s

def execAdmissionAnswer (port : Nat) (s : State) : Out :=
  onMsg port vcResponse 6 s fun m s _ =>
    match asked s m [.query] with
    | some r => settleRemote r.tag s
    | none => s

/-- A refusal: an access violation or an address error at the source (R183, R383). -/
def execRefusal (port : Nat) (s : State) : Out :=
  onMsg port vcResponse 4 s fun m s _ =>
    match asked s m [.write, .read, .query, .barge] with
    | some r => refuseRemote r.tag s
    | none => s

/-- An unroutable response counts as a refusal (R380); it comes from the module that dropped the message. -/
def execUnroutable (port : Nat) (s : State) : Out :=
  onMsg port vcResponse 8 s fun m s _ => if s.fabric.remote.any (·.tag == m.tag) then refuseRemote m.tag s else s

/-! ## Transit (R378-R380) -/

/-- Forward one message. -/
def forward (vc : Nat) (m : Msg) (s : State) : State :=
  if m.hops = 0 then dropTransit vc m s
  else if vc = vcTowpath then towOn { m with hops := m.hops - 1 } s
  else match sendMsg vc { m with hops := m.hops - 1 } s with
    | some s => s
    | none => dropTransit vc m s

/-- MESSAGE_FORWARD: the message at the front of a channel is for another module. -/
def execMessageForward (port channel : Nat) (s : State) : Out :=
  onPort port s fun x s =>
    if channel ≥ 4 then s
    else match takeMsg (x.rxq[channel]?.getD []) with
      | some (m, rest) => if m.dest = ownNode s then s else forward channel m (popMsg port channel rest s)
      | none => s

/-! ## Advertisements and the fabric map (R376, R377) -/

def PortState.mapCode : PortState → Nat
  | .down => 0
  | .training | .hailing => 1
  | .up => 2
  | .refused => 3

/-- A port as this module advertises it. -/
def linkEntry (s : State) (p : Nat) : LinkEntry :=
  let x := portAt s p
  let up := x.state = .up
  { port := p, peerSerial := if up then x.peerSerial else 0, peerPort := if up then x.peerPort.toNat else 0xFF,
    peerNode := if up then x.peerNode else 0xFFFF, state := x.state.mapCode }

/-- The advertisement that this module sends next. -/
def ownAdvert (s : State) : Advert :=
  { serial := s.fuse.serial, node := s.fabric.node.getD 0xFFFF, number := s.fabric.advNumber + 1,
    ppsLock := s.time.ppsLock, links := ((List.range 16).filter (portPresent s)).map (linkEntry s) }

/-- The bytes of an advertisement; their layout is the model's own (log 23). -/
def advertBytes (a : Advert) : List Byte :=
  toLe 4 9 ++ toLe 8 a.serial.toNat ++ toLe 2 a.node.toNat ++ toLe 4 a.number.toNat ++ toLe 1 (flag a.ppsLock 0)
    ++ toLe 1 a.links.length ++ a.links.flatMap fun l =>
      toLe 1 l.port ++ toLe 8 l.peerSerial.toNat ++ toLe 1 l.peerPort ++ toLe 2 l.peerNode.toNat ++ toLe 1 l.state

/-- Put an advertisement on the towpath of every up port but one. -/
def broadcast (but : Nat) (bs : List Byte) (s : State) : State :=
  ((List.range 16).filter fun p => p ≠ but && (portAt s p).state = .up).foldl
    (fun s p => putOut p vcTowpath (towMsg s everyPort bs) s) s

/-- The map takes an origin's links in place of its earlier ones, up to 524,288 entries. -/
def mapTake (a : Advert) (s : State) : State :=
  let rest := s.fabric.map.filter (·.serial != a.serial)
  let new := a.links.map fun l =>
    { serial := a.serial, node := a.node, number := a.number, arrived := now s, ppsLock := a.ppsLock, link := l : MapEntry }
  { s with fabric := { s.fabric with map := (rest ++ new).take 524288 } }

/-- Remember that an advertisement has been seen. -/
def noteAdvert (a : Advert) (s : State) : State :=
  { s with fabric := { s.fabric with origins := s.fabric.origins ++ [(a.serial, a.number, now s)] } }

/-- NEIGHBOUR_ADVERTISEMENT_SEND: it goes out on every up port; the module's own links enter its map with it
(DEDUCED, log 38). -/
def execNeighbourAdvertisementSend (s : State) : Out :=
  .next (if !linksOn s then s else
    let a := ownAdvert s
    sendTow everyPort (advertBytes a) (noteAdvert a (mapTake a { s with fabric := { s.fabric with advNumber := a.number } })))

/-- R376: another module uses this one's node ID. -/
def checkDup (a : Advert) (s : State) : State :=
  if s.fabric.node = some a.node && a.serial ≠ s.fuse.serial then
    raise .nodeDup { s with fabric := { s.fabric with dup := true } }
  else s

/-- NEIGHBOUR_ADVERTISEMENT_RECEIVE: a repeat is dropped; a new one is forwarded on every other up port, and the map
takes it unless a later one of the same origin has come first (log 38). -/
def execNeighbourAdvertisementReceive (port : Nat) (advert : Advert) (s : State) : Out :=
  onPort port s fun x s =>
    if x.state ≠ .up || s.fabric.origins.any (fun o => o.1 = advert.serial && o.2.1 = advert.number) then s
    else
      let newest := !s.fabric.origins.any fun o => o.1 = advert.serial && advert.number.toNat < o.2.1.toNat
      let s := checkDup advert (noteAdvert advert s)
      broadcast port (advertBytes advert) (if newest then mapTake advert s else s)

/-- MAP_ENTRY_EXPIRE: 100 ms after an origin's last advertisement. -/
def execMapEntryExpire (origin : W64) (s : State) : Out :=
  .next (
    let seen := s.fabric.origins.filter (·.1 == origin)
    if seen ≠ [] && seen.all (fun o => o.2.2 + 100000000 ≤ now s) then
      { s with fabric := { s.fabric with
          map := s.fabric.map.filter (·.serial != origin), origins := s.fabric.origins.filter (·.1 != origin) } }
    else s)

/-! ## The time parent (R385) -/

/-- Widen a set of serials by the modules with a node ID and an up link into it, until it holds a neighbour. -/
def parentFrom (s : State) (near : List (Nat × W64)) : Nat → List W64 → Option Nat
  | 0, _ => none
  | fuel + 1, set =>
    match near.find? fun n => set.contains n.2 with
    | some n => some n.1
    | none =>
      let wider := (s.fabric.map.filter fun m => m.link.state = 2 && m.node ≠ 0xFFFF && set.contains m.link.peerSerial
        && !set.contains m.serial).map (·.serial)
      if wider = [] then none else parentFrom s near fuel (set ++ wider.eraseDups)

/-- The port toward the time parent: none for the reference, for a module without a node ID, or where no path leads to
the reference. -/
def timeParent (s : State) : Option Nat :=
  if s.fabric.node = none || isReference s then none
  else
    let near := ((List.range 16).filter fun p => (portAt s p).state = .up && (portAt s p).peerNode ≠ 0xFFFF).map
      fun p => (p, (portAt s p).peerSerial)
    match s.fabric.map.find? fun m => some m.node.toNat = timeReference s && m.serial ≠ s.fuse.serial with
    | some m => parentFrom s near (s.fabric.map.length + 1) [m.serial]
    | none => none

/-! ## Commands (R375, R377, R378, R194) -/

/-- The 32 bytes of a map entry. -/
def MapEntry.bytes (t : Nat) (m : MapEntry) : List Byte :=
  toLe 8 m.serial.toNat ++ toLe 8 m.link.peerSerial.toNat ++ toLe 1 m.link.port ++ toLe 1 m.link.peerPort
    ++ toLe 2 m.node.toNat ++ toLe 2 m.link.peerNode.toNat ++ toLe 1 m.link.state ++ [0] ++ toLe 4 m.number.toNat
    ++ toLe 4 ((t - m.arrived) / 1000000)

def execNeighbourRead (cmd : Nat) (s : State) : Out :=
  onCmd 0x0601 cmd s fun c s =>
    let n := c.at 24 4
    let total := s.fabric.map.length
    if n = 0 then doneCmd c.id (2 ^ 32 * total) s else
    judged c (c.checkRanges s [(16, c.addr 16, n)]) s fun _ s => c.reaching (c.addr 16) n s fun s =>
      let es := s.fabric.map.take (n / 32)
      doneCmd c.id (2 ^ 32 * s.fabric.map.length + es.length)
        (c.put (c.addr 16) (clean (es.flatMap (MapEntry.bytes (now s)))) s)

def setNodeChk (s : State) (c : Cmd) : Chk Unit := do
  need (c.at 16 2 < 0xFFFE) (c.bad 16)
  need (!anyJob s) .busy

/-- SET-NODE-ID: the new ID goes out in HAIL on every up port; a duplicate seen under the old one is forgotten. -/
def execSetNodeId (cmd : Nat) (s : State) : Out :=
  onCmd 0x0602 cmd s fun c s =>
    judged c (setNodeChk s c) s fun _ s =>
      let s := { s with fabric := { s.fabric with node := some (BitVec.ofNat 16 (c.at 16 2)), dup := false } }
      doneCmd c.id 0 (((List.range 16).filter fun p => (portAt s p).state = .up).foldl (fun s p => sendHail p s) s)

/-- The valid bytes of a routing entry; none where the entry breaks its layout. -/
def routeEntry (bs : List Byte) : Option (List Nat) :=
  let ps := (bs.takeWhile fun b => b.getLsbD 7).map fun b => b.toNat % 16
  if bs.all (fun b => b &&& 0x70 = 0) && (bs.drop ps.length).all (fun b => !b.getLsbD 7) then some ps else none

def routeChk (s : State) (c : Cmd) : Chk (List (List Nat)) := do
  need (c.at 16 1 ≤ 1) (c.bad 16)
  need (1 ≤ c.at 18 2 && c.at 17 1 + c.at 18 2 ≤ 256) (c.bad 18)
  need (c.at 24 8 % 4 = 0) (c.bad 24)
  let bs ← c.control s 24 (c.addr 24) (4 * c.at 18 2)
  let es := (List.range (c.at 18 2)).map fun i => routeEntry ((bs.drop (4 * i)).take 4)
  need (es.all (·.isSome)) (.badParam 0xFF)
  let es := es.filterMap id
  match es.flatten.find? fun p => !portPresent s p with
  | some p => fail (.absent p)
  | none => pure es

/-- Write entries of a routing table from entry `i` on. -/
def putRoutes (group : Bool) : Nat → List (List Nat) → State → State
  | _, [], s => s
  | i, e :: es, s =>
    let f := s.fabric
    putRoutes group (i + 1) es { s with fabric :=
      if group then { f with group := tabSet [] f.group i e } else { f with member := tabSet [] f.member i e } }

def execRouteWrite (cmd : Nat) (s : State) : Out :=
  onCmd 0x0603 cmd s fun c s =>
    judged c (routeChk s c) s fun es s => doneCmd c.id es.length (putRoutes (c.at 16 1 = 0) (c.at 17 1) es s)

/-- A remote write of an earlier command of a queue is outstanding, or such a command has not ended, so that it may
still make one (R194, R199). -/
def fenced (s : State) (c : Cmd) : Bool :=
  (s.fabric.remote.any fun r => (r.kind = .write || r.kind = .barge) && r.queue = c.queue
    && (match r.cmd with | some k => k < c.id | none => true))
  || s.front.cmds.any fun x => x.queue = c.queue && x.id < c.id && x.phase ≠ .ended

def execFabricFence (cmd : Nat) (s : State) : Out :=
  onCmd 0x0606 cmd s fun c s => if fenced s c then s else doneCmd c.id 0 s

end Sys2Proof.Machine
end

