-- ==== Sys2Proof/Machine/Layout.lean ====
section
/-!
DEFINITION. Layout copies, gather and scatter (06 R148-R175): tensor descriptors, the element order of each operation,
conversion, the byte image a copy leaves; the commands COPY-TENSOR, MEM-COPY, MEM-FILL. DLAYOUT runs the same copy.
-/

namespace Sys2Proof.Machine

/-! ## Tensor descriptors (R149-R154) -/

/-- A tensor descriptor. Dimension 0 comes first in every list. -/
structure Tensor where
  base : W64
  code : Nat
  fmt : Fmt
  fill : Nat
  size : List Nat
  stride : List Int
  bound : List Nat
deriving DecidableEq, Repr

def Tensor.rank (t : Tensor) : Nat := t.size.length

/-- Stored in blocks: its base is 4-byte aligned, its strides are whole groups or MZ blocks (R152). -/
def Fmt.blocked (f : Fmt) : Bool := f.grouped || f.isMz

/-- Read a descriptor; none when it breaks R149, R151 or R152. Custom slots are rejected (R85). -/
def readTensor (bs : List Byte) : Option Tensor :=
  let r := field bs 9 1
  let code := field bs 8 1
  match if code < 12 || code = 16 then formatOf [] code else none with
  | none => none
  | some f =>
    let t : Tensor :=
      { base := BitVec.ofNat 64 (field bs 0 8), code := code, fmt := f, fill := field bs 12 4,
        size := (List.range r).map fun d => field bs (16 + 16 * d) 4
        stride := (List.range r).map fun d => signed 40 (field bs (20 + 16 * d) 5)
        bound := (List.range r).map fun d => field bs (28 + 16 * d) 4 }
    let align := if f.blocked then 4 else max 1 (f.width / 8)
    if 1 ≤ r && r ≤ 6 && zeroIn bs 10 12 && zeroIn bs (16 + 16 * r) 128
      && ((List.range r).all fun d => zeroIn bs (25 + 16 * d) (28 + 16 * d))
      && t.base.toNat % align = 0
      && (!f.blocked || (t.stride.head? = some 1
            && t.stride.tail.all fun x => x % (if f.isMz then 32 else 256) = 0))
    then some t else none

/-- An element: the byte its row or tensor starts at, and its number from there. -/
structure Elem where
  org : Int
  e : Int
deriving DecidableEq, Repr

/-- Signed element offset of an index (R151). -/
def Tensor.off (t : Tensor) (i : List Int) : Int := (List.zipWith (· * ·) i t.stride).sum

def Tensor.elem (t : Tensor) (i : List Int) : Elem := ⟨t.base.toNat, t.off i⟩

/-- An index is in bounds (R151). -/
def Tensor.inside (t : Tensor) (i : List Int) : Bool :=
  i.length = t.rank && (List.zipWith (fun (x : Int) (b : Nat) => decide (0 ≤ x ∧ x < (b : Int))) i t.bound).all id

/-- Logical indices in element order: dimension 0 varies fastest (R150). -/
def indices : List Nat → List (List Int)
  | [] => [[]]
  | n :: rest => (indices rest).flatMap fun hi => (List.range n).map fun (i : Nat) => (i : Int) :: hi

/-- Where block number `k` of a row starts: its scale's byte (or its whole MZ block) and its element area (R90). -/
def Fmt.blockAt (f : Fmt) (org k : Int) : Int × Int :=
  match f with
  | .mz w => (org + k * (4 + 4 * w), org + k * (4 + 4 * w))
  | f =>
    let g := org + k / 8 * f.unitBytes
    (g + k % 8 * f.scaleBytes, g + 8 * f.scaleBytes + k % 8 * (f.block * f.width / 8 : Nat))

/-- The byte an element's code starts in. -/
def Fmt.byteOf (f : Fmt) (x : Elem) : Int :=
  if f.blocked then
    let b := f.blockAt x.org (x.e / f.block)
    b.2 + (if f.isMz then 4 else 0) + x.e % f.block * f.width / 8
  else x.org + x.e * f.width / 8

/-- The bytes a range of elements reaches: from the first byte of the first to the last of the last (R153). -/
def Fmt.hull (f : Fmt) (lo hi : Elem) : Int × Int :=
  if f.blocked then
    let b := f.blockAt hi.org (hi.e / f.block)
    ((f.blockAt lo.org (lo.e / f.block)).1,
     b.2 + (if f.isMz then (f.unitBytes : Int) else (f.block * f.width / 8 : Nat)))
  else (lo.org + lo.e * f.width / 8, hi.org + (hi.e * f.width + f.width + 7) / 8)

/-- The bytes that the in-bounds indices of a descriptor can reach; none when a bound is 0 (R153). -/
def Tensor.reach (t : Tensor) : Option (Int × Int) :=
  if t.bound.any (· == 0) then none
  else
    let ends := List.zipWith (fun (b : Nat) (x : Int) => (b - 1 : Int) * x) t.bound t.stride
    let lo := (ends.map (min 0 ·)).sum
    let hi := (ends.map (max 0 ·)).sum
    some (t.fmt.hull ⟨t.base.toNat, lo⟩ ⟨t.base.toNat, hi⟩)

/-! ## MX tiles (R131, R158) -/

/-- Bytes of a row of `k` elements (R90, R91). -/
def Fmt.rowBytes (f : Fmt) (k : Nat) : Nat :=
  if f.isMz then (k + 31) / 32 * f.unitBytes
  else if f.grouped then ((k + f.block - 1) / f.block + 7) / 8 * f.unitBytes
  else k * f.width / 8

/-- Bytes of a native tile of `k` columns. -/
def Fmt.tileBytes (f : Fmt) (k : Nat) : Nat := 64 * f.rowBytes k

/-- Row `r`, column `c` of tile `t`. -/
def tileElem (t : Tensor) (k n r c : Nat) : Elem :=
  ⟨t.base.toNat + n * t.fmt.tileBytes k + r * t.fmt.rowBytes k, c⟩

/-- What a sequence of tiles reaches. -/
def Tensor.tileReach (t : Tensor) (k : Nat) : Option (Int × Int) :=
  match t.bound with
  | b :: _ => if b = 0 then none else some (t.base.toNat, t.base.toNat + b * t.fmt.tileBytes k)
  | [] => none

/-! ## The elements of a copy (R155-R162) -/

/-- A layout copy with everything it names. -/
structure Layout where
  op : Nat
  mode : Nat
  src : Tensor
  dst : Tensor
  idx : Option Tensor := none
  pads : List (Nat × Nat) := []
  perm : List Nat := []
deriving DecidableEq, Repr

/-- The K of a mode byte. -/
def modeK (mode : Nat) : Nat := 64 * 2 ^ bits mode 2 1

def Layout.k (l : Layout) : Nat := modeK l.mode

/-- What a destination element receives: a source element, a code of the source's format, a code of the destination's,
a value of the source, a pad value, or poison. -/
inductive Source where
  | elem (x : Elem)
  | code (v : Nat)
  | raw (v : Nat)
  | num (x : Fp)
  | pad (x : Fp)
  | poison
deriving DecidableEq, Repr

/-- What is converted, and so draws an LFSR step under stochastic rounding (R167): source elements and source fills. A
pad element draws none; nor do TILE's zero padding and the row of a poisoned index, which the rules leave open (DESIGN
CHOICE, log 61). -/
def Source.converts : Source → Bool
  | .elem _ => true
  | .code _ => true
  | .num _ => true
  | .raw _ => false
  | .pad _ => false
  | .poison => false

/-- One element of a copy: written, or only counted as clipped. -/
structure Mv where
  dst : Option Elem
  src : Source
  clipped : Bool
deriving DecidableEq, Repr

/-- The fill of a tensor: the source's converts as a source value, the destination's is a code of its own (R154). -/
def Tensor.fillSource (t : Tensor) : Source :=
  if t.fmt.blocked then .num (dec32 (BitVec.ofNat 32 t.fill)) else .code (t.fill % 2 ^ t.fmt.width)

def Tensor.fillPad (t : Tensor) : Source :=
  if t.fmt.blocked then .pad (dec32 (BitVec.ofNat 32 t.fill)) else .raw (t.fill % 2 ^ t.fmt.width)

/-- Move source index `j` to destination index `i` (R163). -/
def Layout.mv (l : Layout) (i j : List Int) : Mv :=
  if !l.dst.inside i then ⟨none, .poison, true⟩
  else if !l.src.inside j then ⟨some (l.dst.elem i), l.src.fillSource, true⟩
  else ⟨some (l.dst.elem i), .elem (l.src.elem j), false⟩

/-- A pad element: not counted when it is out of bounds. -/
def Layout.padMv (l : Layout) (i : List Int) : List Mv :=
  if l.dst.inside i then [⟨some (l.dst.elem i), l.dst.fillPad, false⟩] else []

/-- Whether a PAD destination index receives a source element. -/
def Layout.padded (l : Layout) (i : List Int) : Bool :=
  !((List.zipWith (fun (x : Int) (p : Nat × (Nat × Nat)) => decide ((p.2.1 : Int) ≤ x ∧ x < (p.2.1 + p.1 : Nat))) i
      (l.src.size.zip l.pads)).all id)

/-- An index tensor's element: what it reads, or none when it reads poisoned (R161, R504). -/
abbrev Index := Option Int

/-- The elements of TILE in destination order (R158). -/
def Layout.tileMoves (l : Layout) : List Mv :=
  let cols := (l.src.size[0]?).getD 0
  let rows := (l.src.size[1]?).getD 0
  let across := (cols + l.k - 1) / l.k
  (List.range ((rows + 63) / 64 * across)).flatMap fun t =>
    (List.range 64).flatMap fun r => (List.range l.k).map fun c =>
      let y := t / across * 64 + r
      let x := t % across * l.k + c
      if t ≥ l.dst.bound.headD 0 then ⟨none, .poison, true⟩
      else
        let dest := some (tileElem l.dst l.k t r c)
        if y ≥ rows || x ≥ cols then ⟨dest, .pad (.fin false 0 0), false⟩
        else if !l.src.inside [x, y] then ⟨dest, l.src.fillSource, true⟩
        else ⟨dest, .elem (l.src.elem [x, y]), false⟩

/-- The elements of UNTILE in destination order. -/
def Layout.untileMoves (l : Layout) : List Mv :=
  let cols := (l.dst.size[0]?).getD 0
  let rows := (l.dst.size[1]?).getD 0
  let across := (cols + l.k - 1) / l.k
  (List.range rows).flatMap fun y => (List.range cols).map fun x =>
    let t := y / 64 * across + x / l.k
    if !l.dst.inside [x, y] then ⟨none, .poison, true⟩
    else if t ≥ l.src.bound.headD 0 then ⟨some (l.dst.elem [x, y]), l.src.fillSource, true⟩
    else ⟨some (l.dst.elem [x, y]), .elem (tileElem l.src l.k t (y % 64) (x % l.k)), false⟩

/-- The moves of every operation but SCATTER-ACCUMULATE, in element order (R164). -/
def Layout.moves (l : Layout) (index : List Index) : List Mv :=
  match l.op with
  | 0 => (indices l.dst.size).map fun i => l.mv i i
  | 1 => (indices l.dst.size).map fun i =>
      l.mv i ((List.range l.src.rank).map fun d => (i[(l.perm.findIdx? (· == d)).getD 0]?).getD 0)
  | 2 => l.tileMoves
  | 3 => l.untileMoves
  | 4 =>
    (if bit l.mode 0 then [] else ((indices l.dst.size).filter l.padded).flatMap l.padMv) ++
      (indices l.src.size).map fun j => l.mv (List.zipWith (fun (x : Int) (p : Nat × Nat) => x + p.1) j l.pads) j
  | 5 => (index.zipIdx 0).flatMap fun x => (indices l.dst.size.dropLast).map fun i =>
      match x.1 with
      | some v => l.mv (i ++ [(x.2 : Int)]) (i ++ [v])
      | none => if l.dst.inside (i ++ [(x.2 : Int)]) then ⟨some (l.dst.elem (i ++ [(x.2 : Int)])), .poison, false⟩
          else ⟨none, .poison, true⟩
  | _ => (index.zipIdx 0).flatMap fun x => match x.1 with
      | some v => (indices l.src.size.dropLast).map fun i => l.mv (i ++ [v]) (i ++ [(x.2 : Int)])
      | none => []

/-! ## Reading and converting -/

/-- What a copy can read: bytes of memory at a fabric address, with poison. -/
abbrev Reader := Int → Nat → List PByte

/-- A value read: its code, its number, whether it is poisoned. -/
structure Val where
  code : Nat
  num : Fp
  bad : Bool
deriving DecidableEq, Repr

/-- Read one element (R89, R92, R95, R151). -/
def readElem (f : Fmt) (rd : Reader) (x : Elem) : Val :=
  if f.blocked then
    let b := f.blockAt x.org (x.e / f.block)
    let area := rd b.2 (if f.isMz then f.unitBytes else f.block * f.width / 8)
    let scale := if f.isMz then [] else rd b.1 f.scaleBytes
    let mine := rd (f.byteOf x) (((x.e % f.block * f.width % 8).toNat + f.width + 7) / 8)
    let n := (f.decBlock (leNat (scale.map (·.1))) (area.map (·.1)))[(x.e % f.block).toNat]?
    ⟨0, n.getD .nan, scale.any (·.2) || mine.any (·.2) || (f.isMz && (area.take 4).any (·.2))⟩
  else
    let bs := rd (f.byteOf x) ((f.width + 7) / 8)
    let v := leNat (bs.map (·.1))
    let v := if f.width = 4 then v / 2 ^ (4 * (x.e % 2).toNat) % 16 else v
    ⟨v, f.elem v, bs.any (·.2)⟩

/-- A NaN code of a format without blocks as its canonical NaN (R105, R168). -/
def Fmt.canonical (f : Fmt) (v : Nat) : Nat :=
  match f with
  | .float g => if (g.dec v).isNan then g.nan else v
  | _ => v

/-- The image a copy leaves: bytes by fabric address, with poison. -/
abbrev Image := Tab PByte

def Image.put (m : Image) (a : Int) (bs : List PByte) : Image :=
  (bs.zipIdx 0).foldl (fun m b => tabPut m (a.toNat + b.2) b.1) m

/-- A value as a source gives it. -/
def Source.val (f : Fmt) (rd : Reader) : Source → Val
  | .elem x => readElem f rd x
  | .code v => ⟨v, f.elem v, false⟩
  | .raw v => ⟨v, .nan, false⟩
  | .num x => ⟨0, x, false⟩
  | .pad x => ⟨0, x, false⟩
  | .poison => ⟨0, .fin false 0 0, true⟩

/-- A destination element with what it receives and the register its conversion rounds with; what draws no step has
the register 0, so that it rounds toward zero under stochastic rounding (DESIGN CHOICE, log 61). -/
abbrev Write := Elem × Source × W32

/-- One LFSR step for each element that `on` says is converted, in the order of R164 (R167). -/
def drawSteps (mode : Mode) (on : Elem → Source → Bool) : List (Elem × Source) → W32 → List Write × W32
  | [], s => ([], s)
  | (x, src) :: rest, s =>
    let d := if on x src then (draws mode.rnd s 1).headD s else s
    let r := drawSteps mode on rest d
    ((x, src, if on x src then d else 0) :: r.1, r.2)

/-- An encoding that goes over unchanged into a format without blocks (R168). -/
def Layout.unchanged (l : Layout) : Source → Bool
  | .raw _ => true
  | .elem _ => l.src.code = l.dst.code
  | .code _ => l.src.code = l.dst.code
  | _ => false

/-- The code an element of a format without blocks is written with (R167, R168). -/
def flatCode (l : Layout) (m : Mode) (d : W32) (src : Source) (v : Val) : Nat :=
  if l.unchanged src then l.dst.fmt.canonical v.code else l.dst.fmt.encElem m d v.num

/-- Write one element code; a nibble joins the byte that the copy has written so far, or memory's. -/
def putCode (f : Fmt) (rd : Reader) (x : Elem) (v : Nat) (bad : Bool) (m : Image) : Image :=
  let a := f.byteOf x
  if f.width = 4 then
    let old := (tabFind m a.toNat).getD ((rd a 1).headD (0, false))
    let o := old.1.toNat
    let b := if x.e % 2 = 0 then o / 16 * 16 + v % 16 else v % 16 * 16 + o % 16
    m.put a [(BitVec.ofNat 8 b, old.2 || bad)]
  else m.put a ((toLe (f.width / 8) v).map fun b => (b, bad))

/-- The elements of a destination without blocks, in order. -/
def putFlat (l : Layout) (rd : Reader) (mode : Mode) (ws : List Write) : Image :=
  ws.foldl (fun m w =>
    let v := w.2.1.val l.src.fmt rd
    putCode l.dst.fmt rd w.1 (flatCode l mode w.2.2 w.2.1 v) v.bad m) []

/-- The destination blocks that elements fill, in the order they are first touched. -/
def blocksOf (n : Nat) (xs : List Elem) : List (Int × Int) := (xs.map fun x => (x.org, x.e / (n : Int))).eraseDups

/-- The whole zero blocks that end the last group of each row of a native tile follow the row's last block (R91, R158).
Other destinations are not so padded: a copy writes only within the range of R153 (R152). -/
def Layout.withPads (l : Layout) (bs : List (Int × Int)) : List (Int × Int) :=
  if l.op = 2 && l.dst.fmt.grouped then
    let n := (l.k + l.dst.fmt.block - 1) / l.dst.fmt.block
    bs.flatMap fun b =>
      if b.2 + 1 = (n : Int) then b :: (List.range ((n + 7) / 8 * 8 - n)).map fun (i : Nat) => (b.1, ((n + i : Nat) : Int))
      else [b]
  else bs

/-- What each position of a block receives: the last element written there. -/
def fillOf (n : Nat) (ws : List Write) (b : Int × Int) : List (Option (Source × W32)) :=
  let mine := (ws.filter fun w => w.1.org = b.1 && w.1.e / (n : Int) = b.2).reverse
  (List.range n).map fun (i : Nat) => (mine.find? fun w => w.1.e % (n : Int) = (i : Int)).map (·.2)

/-- The one source block whose elements fill a block in the same positions (R168). -/
def sameBlock (n : Nat) (fill : List (Option Source)) : Option (Int × Int) :=
  match fill.head? with
  | some (some (.elem x)) =>
    if (fill.zipIdx 0).all fun p => p.1 = some (.elem ⟨x.org, x.e / (n : Int) * n + p.2⟩) then some (x.org, x.e / (n : Int))
    else none
  | _ => none

/-- The source block that a destination block copies unchanged, if it does (R168). -/
def Layout.sameAs (l : Layout) (ws : List Write) (b : Int × Int) : Option (Int × Int) :=
  if l.src.code = l.dst.code then sameBlock l.dst.fmt.block ((fillOf l.dst.fmt.block ws b).map (Option.map (·.1))) else none

/-- Write one block: its scale and area, or its MZ bytes. -/
def putBlock (f : Fmt) (b : Int × Int) (scale area : List PByte) (m : Image) : Image :=
  let at_ := f.blockAt b.1 b.2
  if f.isMz then m.put at_.2 area else (m.put at_.1 scale).put at_.2 area

/-- Bytes of a block's element area; of an MZ block, all its bytes. -/
def Fmt.areaBytes (f : Fmt) : Nat := if f.isMz then f.unitBytes else f.block * f.width / 8

/-- The blocks of a block-format destination, whole, unfilled positions zero (R168, R169). -/
def putBlocks (l : Layout) (rd : Reader) (mode : Mode) (ws : List Write) (bs : List (Int × Int)) : Image :=
  let f := l.dst.fmt
  bs.foldl (fun m b => match l.sameAs ws b with
    | some o =>
      let p := f.blockAt o.1 o.2
      putBlock f b (rd p.1 f.scaleBytes) (rd p.2 f.areaBytes) m
    | none =>
      let vs := (fillOf f.block ws b).map fun x => match x with
        | some x => (x.1.val l.src.fmt rd, x.2)
        | none => (⟨0, .fin false 0 0, false⟩, 0)
      let e := f.encBlock mode (vs.map (·.2)) (vs.map (·.1.num))
      let bad := vs.any (·.1.bad)
      let tag (bs : List Byte) : List PByte := bs.map fun x => (x, bad)
      putBlock f b (tag (toLe f.scaleBytes e.scale)) (tag e.area) m) []

/-! ## SCATTER-ACCUMULATE (R162) -/

/-- A contribution: the destination index and the source index. -/
def Layout.contributions (l : Layout) (index : List Index) : List (List Int × Mv) :=
  (index.zipIdx 0).flatMap fun x => match x.1 with
    | some v => (indices l.src.size.dropLast).map fun i => (i ++ [v], l.mv (i ++ [v]) (i ++ [(x.2 : Int)]))
    | none => []

/-- Destination element order: dimension 0 varies fastest, so the last dimension decides first. -/
def indexBefore : List Int → List Int → Bool
  | a, b => (go a.reverse b.reverse)
where
  go : List Int → List Int → Bool
    | x :: xs, y :: ys => x < y || (x = y && go xs ys)
    | _, _ => false

/-- The total of one destination element: its present value, then each contribution rounded once to binary32. -/
def accumulate (l : Layout) (rd : Reader) (i : List Int) (cs : List (List Int × Mv)) : Val :=
  let old := readElem l.dst.fmt rd (l.dst.elem i)
  let start : Val := ⟨0, dec32 (r32 old.num), old.bad⟩
  (cs.filter fun c => c.1 = i).foldl (fun v c =>
    let x := c.2.src.val l.src.fmt rd
    ⟨0, dec32 (r32 (v.num.add x.num)), v.bad || x.bad⟩) start

/-- The elements that SCATTER-ACCUMULATE writes, in destination element order. -/
def accTargets (cs : List (List Int × Mv)) : List (List Int) :=
  sortBy indexBefore ((cs.filter fun c => c.2.dst.isSome).map (·.1)).eraseDups

/-- Convert each total once and write it once. -/
def putAcc (l : Layout) (rd : Reader) (mode : Mode) (cs : List (List Int × Mv)) :
    List (List Int) → Image → W32 → Image × W32
  | [], m, s => (m, s)
  | i :: rest, m, s =>
    let v := accumulate l rd i cs
    let s' := (draws mode.rnd s 1).headD s
    let c := l.dst.fmt.encElem mode s' v.num
    putAcc l rd mode cs rest (putCode l.dst.fmt rd (l.dst.elem i) c v.bad m) s'

/-! ## Running a copy -/

/-- What a copy leaves and reports: the image, element writes, clipped elements, the LFSR, and its accesses in element
order as (first byte, length). -/
structure Copied where
  image : Image
  writes : Nat
  clipped : Nat
  lfsr : W32
  reads : List (Int × Nat)
  wrote : List (Int × Nat)
deriving DecidableEq, Repr

/-- The index tensor's elements (R161). -/
def readIndex (t : Tensor) (rd : Reader) : List Index :=
  (indices t.size).map fun i =>
    if t.inside i then
      let v := readElem t.fmt rd (t.elem i)
      if v.bad then none else some (signed 32 v.code)
    else some (signed 32 t.fill)

/-- The index tensor as it reads. -/
def Layout.index (l : Layout) (rd : Reader) : List Index := match l.idx with
  | some t => readIndex t rd
  | none => []

/-- The bytes an element's code lies in. -/
def Fmt.codeAt (f : Fmt) (x : Elem) : Int × Nat :=
  (f.byteOf x, if f.blocked then ((x.e % f.block * f.width % 8).toNat + f.width + 7) / 8 else (f.width + 7) / 8)

/-- A block's scale or MZ header. -/
def Fmt.headAt (f : Fmt) (b : Int × Int) : Int × Nat :=
  if f.isMz then ((f.blockAt b.1 b.2).2, 4) else ((f.blockAt b.1 b.2).1, f.scaleBytes)

/-- The accesses that read elements one after another: a scale or header once for each run of elements of its block. -/
def Fmt.accesses (f : Fmt) : Option (Int × Int) → List Elem → List (Int × Nat)
  | _, [] => []
  | prev, x :: rest =>
    let b := (x.org, x.e / f.block)
    (if f.blocked && prev ≠ some b then [f.headAt b] else []) ++ f.codeAt x :: f.accesses (some b) rest

/-- The accesses that write a block. -/
def Fmt.blockWrites (f : Fmt) (b : Int × Int) : List (Int × Nat) :=
  (if f.isMz then [] else [f.headAt b]) ++ [((f.blockAt b.1 b.2).2, f.areaBytes)]

/-- The index tensor's reads. -/
def Layout.indexReads (l : Layout) : List (Int × Nat) :=
  match l.idx with
  | some t => t.fmt.accesses none (((indices t.size).filter t.inside).map t.elem)
  | none => []

/-- The source element that a move reads. -/
def Mv.reads (m : Mv) : List Elem :=
  match m.dst, m.src with
  | some _, .elem x => [x]
  | _, _ => []

/-- The reads of SCATTER-ACCUMULATE: each destination element once, after the source read of its first contribution (R162,
R174; where they fall among the source reads is a DESIGN CHOICE, log 61). -/
def Layout.accReads (l : Layout) : List (List Int × Mv) → Option (Int × Int) → List (List Int) → List (Int × Nat)
  | [], _, _ => []
  | c :: rest, prev, seen =>
    let own := l.src.fmt.accesses prev c.2.reads
    let prev := match c.2.reads with
      | x :: _ => some (x.org, x.e / (l.src.fmt.block : Int))
      | [] => prev
    if c.2.dst.isSome && !seen.contains c.1 then
      own ++ l.dst.fmt.codeAt (l.dst.elem c.1) :: l.accReads rest prev (c.1 :: seen)
    else own ++ l.accReads rest prev seen

/-- A clipped count (R163). -/
def clippedOf (n : Nat) : Nat := min n (2 ^ 64 - 1)

/-- SCATTER-ACCUMULATE. For the line visits of R174 every index read comes before the first source read (DESIGN CHOICE, log
61). -/
def Layout.runAcc (l : Layout) (rd : Reader) (mode : Mode) (lfsr : W32) (index : List Index) : Copied :=
  let cs := l.contributions index
  let targets := accTargets cs
  let r := putAcc l rd mode cs targets [] lfsr
  ⟨r.1, targets.length, clippedOf (cs.filter fun c => c.2.clipped).length, r.2, l.indexReads ++ l.accReads cs none [],
    targets.map fun i => l.dst.fmt.codeAt (l.dst.elem i)⟩

/-- Run a layout copy (R155-R169). TILE counts as element writes all positions of the tiles it writes, zero padding
included: R158 and R170 do not say (DESIGN CHOICE, log 61). -/
def Layout.run (l : Layout) (rd : Reader) (mode : Mode) (lfsr : W32) : Copied :=
  let index := l.index rd
  if l.op = 7 then l.runAcc rd mode lfsr index
  else
    let f := l.dst.fmt
    let ms := l.moves index
    let ws := ms.filterMap fun m => m.dst.map fun d => (d, m.src)
    let reads := l.indexReads ++ l.src.fmt.accesses none (ms.flatMap Mv.reads)
    let clipped := clippedOf (ms.filter (·.clipped)).length
    if f.blocked then
      let bs := blocksOf f.block (ws.map (·.1))
      let kept := bs.filter fun b => (l.sameAs (ws.map fun w => (w.1, w.2, 0)) b).isSome
      let r := drawSteps mode (fun x src => src.converts && !kept.contains (x.org, x.e / (f.block : Int))) ws lfsr
      ⟨putBlocks l rd mode r.1 (l.withPads bs), ws.length, clipped, r.2, reads, (l.withPads bs).flatMap f.blockWrites⟩
    else
      let r := drawSteps mode (fun _ src => src.converts && !l.unchanged src) ws lfsr
      ⟨putFlat l rd mode r.1, ws.length, clipped, r.2, reads, ws.map fun w => f.codeAt w.1⟩

/-- The aligned units of `w` bytes that `n` bytes at `a` touch, by number. -/
def unitsOf (w : Nat) (a : Int) (n : Nat) : List Int :=
  (List.range (((a % w).toNat + n + w - 1) / w)).map fun (i : Nat) => a / w + i

/-- Line visits: runs of consecutive accesses within one aligned 64-byte line (R174). -/
def lineVisits : List Int → Nat
  | [] => 0
  | [_] => 1
  | a :: b :: rest => (if a / 64 = b / 64 then 0 else 1) + lineVisits (b :: rest)

/-- The line visits of accesses: an access may run over into the next line, and a block's area over several. -/
def visitsOf (xs : List (Int × Nat)) : Nat :=
  lineVisits (xs.flatMap fun x => (unitsOf 64 x.1 x.2).map (64 * ·))

/-! ## Checks -/

/-- The product of the sizes. -/
def Tensor.count (t : Tensor) : Nat := t.size.foldl (· * ·) 1

/-- The permutation of the parameters. -/
def permOf (c : Cmd) (r : Nat) : List Nat := (List.range r).map fun d => c.at (40 + d) 1

/-- The ranks and the strides of tile sequences that an operation needs; else the pointer at fault (R156-R162). -/
def Layout.shapeFault (l : Layout) : Option Nat :=
  let s := l.src
  let d := l.dst
  match l.op with
  | 2 => if s.rank ≠ 2 then some 16 else if d.rank = 1 && d.stride = [1] then none else some 24
  | 3 => if !(s.rank = 1 && s.stride = [1]) then some 16 else if d.rank = 2 then none else some 24
  | _ => if s.rank = d.rank then none else some 24

/-- Native tiles of a matrix. -/
def tileCount (t : Tensor) (k : Nat) : Nat := (t.size[1]?.getD 0 + 63) / 64 * ((t.size[0]?.getD 0 + k - 1) / k)

/-- The sizes that an operation needs; else the pointer at fault (R156-R162, R169). -/
def Layout.sizeFault (l : Layout) : Option Nat :=
  let s := l.src
  let d := l.dst
  let at24 (p : Bool) : Option Nat := if p then none else some 24
  match l.op with
  | 0 => at24 (s.size = d.size)
  | 1 => at24 ((List.range s.rank).all fun i => d.size[i]? = s.size[(l.perm[i]?).getD 6]?)
  | 2 => at24 (d.size = [tileCount s l.k])
  | 3 => at24 (s.size = [tileCount d l.k])
  | 4 =>
    if bit l.mode 0 && d.fmt.blocked then some 24
    else if (List.range s.rank).all fun i =>
        let p := l.pads[i]?.getD (0, 0)
        d.size[i]? = some (p.1 + s.size[i]?.getD 0 + p.2) then none
    else some 40
  | 7 => at24 (s.size.dropLast = d.size.dropLast && !d.fmt.blocked)
  | _ => at24 (s.size.dropLast = d.size.dropLast)

/-- The range of a source or destination descriptor: that of its tiles, or R153's. -/
def Tensor.span (t : Tensor) (tiles : Bool) (mode : Nat) : Option (Int × Int) :=
  if tiles then t.tileReach (modeK mode) else t.reach

def Layout.srcReach (l : Layout) : Option (Int × Int) := l.src.span (l.op = 3) l.mode
def Layout.dstReach (l : Layout) : Option (Int × Int) := l.dst.span (l.op = 2) l.mode

/-- A byte range with this module's own node ID replaced (R165). -/
def normal (s : State) (r : Int × Int) : Int × Int :=
  let a : W64 := BitVec.ofInt 64 r.1
  if isLocal s a then
    let x : Int := (0xFFFF * 2 ^ 48 + a.toNat % 2 ^ 48 : Nat)
    (x, x + (r.2 - r.1))
  else r

def overlaps (s : State) (a b : Option (Int × Int)) : Bool :=
  match a, b with
  | some a, some b =>
    let a := normal s a
    let b := normal s b
    a.1 < b.2 && b.1 < a.2
  | _, _ => false

/-- R153: why a descriptor's range does not lie in memory the copy may reach. A range whose ends lie in the partition's
memory but that crosses a hole of a tile's window or a bank reaches beyond it (DESIGN CHOICE, log 61). A register is
reached by binary32 elements, whose accesses have the form of R184. -/
def rangeMark (s : State) (c : Cmd) (off : Nat) (t : Tensor) (r : Option (Int × Int)) : Option Mark :=
  match r with
  | none => none
  | some r =>
    if isLocal s t.base && spaceOf t.base = 4 then
      let ends (a : Int) : Bool := (c.place s (BitVec.ofInt 64 a) 4).toBool && a.toNat / 2 ^ 44 = t.base.toNat / 2 ^ 44
      if t.code = 16 && 0 ≤ r.1 && ends r.1 && ends (r.2 - 4) then none else some (.badParam off)
    else match c.place s (BitVec.ofInt 64 r.1) (r.2 - r.1).toNat with
    | .ok _ =>
      if 0 ≤ r.1 && r.1.toNat / 2 ^ 44 = t.base.toNat / 2 ^ 44 then none else some .notPermitted
    | .error _ => match c.place s t.base 1 with
      | .error .param => some (.badParam off)
      | .error e => some (c.addrMark off e)
      | .ok _ => some .notPermitted

/-- Control data that a packet field points to; an address that is absent or denied is answered only after the checks of
R48 step 7. -/
def Cmd.tryControl (c : Cmd) (s : State) (bad : Mark) (a : W64) (n : Nat) : Chk (Except Mark (List Byte)) := do
  match c.place s a n with
  | .error .param => fail bad
  | .error e =>
    need (!c.jobless a) (.badParam 12)
    pure (.error (c.addrMark 0 e))
  | .ok _ =>
    let bs ← c.control s 0 a n
    pure (.ok bs)

/-- Read the descriptor that a packet field points to. -/
def tensorChk (s : State) (c : Cmd) (off : Nat) : Chk (Except Mark Tensor) := do
  need (c.at off 8 % 64 = 0) (.badParam off)
  let bs ← c.tryControl s (.badParam off) (c.addr off) 128
  match bs with
  | .error m => pure (.error m)
  | .ok bs => match readTensor bs with
    | some t => do
      need (!c.jobless t.base) (.badParam 12)
      pure (.ok t)
    | none => fail (.badParam off)

/-- R162: the destination of SCATTER-ACCUMULATE lies in one tile's scratchpad of this module. -/
def accPlace (s : State) (t : Tensor) : Bool :=
  isLocal s t.base && spaceOf t.base = 1 && (t.code = 16 || t.code < 4) &&
  (match t.reach with
   | some r => 0 ≤ r.1 && r.1.toNat / 2 ^ 22 = (r.2.toNat - 1) / 2 ^ 22 && r.2.toNat - 2 ^ 22 * (r.1.toNat / 2 ^ 22) ≤ 0x300000
   | none => true)

/-- The mode bits an operation has. -/
def modeMask (op : Nat) : Nat := match op with | 2 | 3 => 6 | 4 => 1 | _ => 0

/-- What the parameters themselves must meet (R155). -/
def layoutFieldsChk (c : Cmd) : Chk Unit := do
  let op := c.at 32 1
  let mode := c.at 33 1
  need (op ≤ 7) (.badParam 32)
  need (mode &&& modeMask op = mode && mode ≠ 6) (.badParam 33)
  need (match op with | 0 | 2 | 3 => c.at 40 8 = 0 | 1 => c.at 46 2 = 0 | 4 => c.at 40 8 % 8 = 0 | _ => true) (.badParam 40)

/-- The index descriptor. -/
def indexChk (s : State) (c : Cmd) : Chk (Except Mark (Option Tensor)) := do
  if c.at 32 1 < 5 then pure (.ok none) else
  let t ← tensorChk s c 40
  match t with
  | .error m => pure (.error m)
  | .ok t =>
    need (t.code = 16) (.badParam 40)
    pure (.ok (some t))

/-- A copy with all that it names (R149-R162), its pad list and permutation not yet checked. -/
def layoutOf (c : Cmd) (src dst : Tensor) (idx : Option Tensor) (pads : List Byte) : Layout :=
  { op := c.at 32 1, mode := c.at 33 1, src := src, dst := dst, idx := idx,
    pads := (List.range (pads.length / 8)).map fun d => (field pads (8 * d) 4, field pads (8 * d + 4) 4),
    perm := if c.at 32 1 = 1 then permOf c dst.rank else [] }

/-- The bytes that hold a pad list. -/
def padReach (c : Cmd) : Option (Int × Int) :=
  if c.at 32 1 = 4 then some ((c.at 40 8 : Int), (c.at 40 8 : Int) + 48) else none

/-- How the descriptors, the pad list and the permutation must fit together (R156-R165). -/
def relationsChk (s : State) (c : Cmd) (l : Layout) (pads : List Byte) : Chk Unit := do
  match l.shapeFault with
  | some off => fail (.badParam off)
  | none => pure ()
  need (l.op ≠ 1 || ((List.range l.dst.rank).all l.perm.contains
    && (List.range 8).all fun d => d < l.dst.rank || c.at (40 + d) 1 = 0)) (.badParam 40)
  need (l.op ≠ 4 || zeroIn pads (8 * l.src.rank) 48) (.badParam 40)
  match l.sizeFault with
  | some off => fail (.badParam off)
  | none => pure ()
  need (l.op ≠ 7 || accPlace s l.dst) (.badParam 24)
  need (!overlaps s l.dstReach l.srcReach) (.badParam 24)
  need (!overlaps s l.dstReach (match l.idx with | some t => t.reach | none => padReach c)) (.badParam 40)

/-- Of what is wrong, the status that R48 gives: a reserved form, then an absent unit, then a permission. -/
def firstMark (ms : List Mark) : Chk Unit :=
  match (ms.find? (·.status == 0x11)).or ((ms.find? (·.status == 0x15)).or ms.head?) with
  | some m => fail m
  | none => pure ()

/-- What an answer deferred. -/
def markOf {α : Type} : Except Mark α → List Mark
  | .error m => [m]
  | .ok _ => []

/-- The range marks of a descriptor in hand. -/
def spanMarks (s : State) (c : Cmd) (off : Nat) (tiles : Bool) : Except Mark Tensor → List Mark
  | .ok t => (rangeMark s c off t (t.span tiles (c.at 33 1))).toList
  | .error _ => []

/-- All that a copy checks before any element moves (R149-R169), in the order of R48. -/
def layoutChk (s : State) (c : Cmd) : Chk Layout := do
  layoutFieldsChk c
  let src ← tensorChk s c 16
  let dst ← tensorChk s c 24
  let pads ← if c.at 32 1 = 4 then c.tryControl s (.badParam 40) (c.addr 40) 48 else pure (.ok [])
  let idx ← indexChk s c
  let l : Except Mark Layout := do pure (layoutOf c (← src) (← dst) (← idx) (← pads))
  match l, pads with
  | .ok l, .ok bs => relationsChk s c l bs
  | _, _ => pure ()
  let index : Except Mark Tensor := match idx with
    | .ok (some t) => .ok t
    | _ => .error .notPermitted
  firstMark (markOf src ++ markOf dst ++ markOf pads ++ markOf idx
    ++ spanMarks s c 16 (c.at 32 1 = 3) src ++ spanMarks s c 24 (c.at 32 1 = 2) dst ++ spanMarks s c 40 false index)
  match l with
  | .ok l => pure l
  | .error m => fail m

/-! ## Memory as a copy sees it -/

/-- What memory holds at a fabric address, with what has been fetched from other nodes and registers. -/
def viewOf (s : State) (place : W64 → Nat → Except AddrErr Place) (fetched : Memory) (tainted : List Nat) : Reader :=
  fun a n => match place (BitVec.ofInt 64 a) n with
    | .ok (.near ps) => (getPieces false ps s).1.data
    | _ => fetchedData fetched tainted a.toNat n

/-- The runs of contiguous bytes of an image. -/
def imageRuns : Image → List (Nat × List PByte)
  | [] => []
  | (a, b) :: rest =>
    match imageRuns rest with
    | (c, bs) :: more => if a + 1 = c then (a, b :: bs) :: more else (a, [b]) :: (c, bs) :: more
    | [] => [(a, [b])]

/-- The line visits of a copy's reads, in order: the line's number and the words used in it (R174). -/
def visitLines (reads : List (Int × Nat)) : List (Int × List Int) :=
  (reads.flatMap fun a => unitsOf 8 a.1 a.2).foldr (fun w vs => match vs with
    | (l, ws) :: rest => if w / 8 = l then (l, w :: ws) :: rest else (w / 8, [w]) :: (l, ws) :: rest
    | [] => [(w / 8, [w])]) []

/-- Charge one line visit: corrected words of the whole line (R212), and of the words used those that read poisoned, here or
among what another node sent. -/
def chargeVisit (place : W64 → Nat → Except AddrErr Place) (cmd : Option Nat) (tainted : List Nat) (line : Int) (words : List Int)
    (s : State) : State :=
  let a : W64 := BitVec.ofInt 64 (64 * line)
  match place a 64 with
  | .ok (.near ps) =>
    let r := getPieces true ps s
    let bad := (words.filter fun w => ((r.1.data.drop (8 * (w % 8).toNat)).take 8).any (·.2)).length
    let notes := r.1.notes.filterMap fun n => if n.1 = 1 then some n else if bad = 0 then none else some (n.1, n.2.1, bad)
    charge cmd { r.1 with poisoned := bad, notes := notes } r.2
  | .ok (.remote _) => countTaint cmd (words.filter fun w => tainted.any fun t => (t : Int) / 8 = w).length s
  | _ => s

/-- Charge a copy's line visits; a poisoned word is counted once, at its first use. -/
def chargeReads (place : W64 → Nat → Except AddrErr Place) (cmd : Option Nat) (tainted : List Nat) (reads : List (Int × Nat))
    (s : State) : State :=
  ((visitLines reads).foldl (fun (z : List Int × State) v =>
    let fresh := (v.2.filter fun w => !z.1.contains w).eraseDups
    (z.1 ++ fresh, chargeVisit place cmd tainted v.1 fresh z.2)) ([], s)).2

/-- The statuses of a copy (R170). -/
def copyMarks (r : Copied) : List Mark :=
  if r.clipped = 0 then [.done r.writes] else [.done r.writes, ⟨0x20, 0, r.clipped⟩]

/-- The ranges a copy reaches on other nodes: reads of its source and index, writes of its destination. -/
def Layout.ranges (l : Layout) : List (W64 × Nat × Bool) :=
  let one (r : Option (Int × Int)) (w : Bool) : List (W64 × Nat × Bool) := match r with
    | some r => [(BitVec.ofInt 64 r.1, (r.2 - r.1).toNat, w)]
    | none => []
  one l.srcReach false ++ one (l.idx.bind Tensor.reach) false ++ one l.dstReach true
    ++ (if l.dst.fmt.width = 4 && !l.dst.fmt.blocked then one l.dstReach false else [])

/-- The pieces that `n` bytes at `a` of a tensor move in: a register at a time (R182); in a block format up to the end of a
block or group, so that none is cut between messages (R166, R187), but for a group of 264 bytes, which no message holds
(R372, log 69). -/
def Tensor.cuts (t : Tensor) : Nat → Nat → Nat → List Nat
  | 0, _, _ => []
  | fuel + 1, a, n =>
    if n = 0 then [] else
    let u := t.fmt.unitBytes
    let r := (((a : Int) - t.base.toNat) % u).toNat
    let k := if spaceOf t.base = 4 then 4
      else if !t.fmt.blocked then n
      else if u ≤ 256 then 256 / u * u - r
      else if r < 256 then 256 - r else u - r
    min n k :: t.cuts fuel (a + min n k) (n - min n k)

/-- Cut a run of bytes. -/
def cutRun {α : Type} : List Nat → Nat → List α → List (Nat × List α)
  | [], _, _ => []
  | k :: ks, a, bs => (a, bs.take k) :: cutRun ks (a + k) (bs.drop k)

/-- The writes that an image leaves by, in address order. -/
def Layout.writesOf (l : Layout) (m : Image) : List (Nat × List PByte) :=
  (imageRuns m).flatMap fun w => cutRun (l.dst.cuts w.2.length w.1 w.2.length) w.1 w.2

/-- The runs of bytes that some accesses of a tensor cover, cut alike. -/
def Tensor.runsOf (t : Tensor) (xs : List (Int × Nat)) : List (W64 × Nat) :=
  (imageRuns (xs.foldl (fun m x => m.put x.1 (clean (zeros x.2))) [])).flatMap fun w =>
    (cutRun (t.cuts w.2.length w.1 w.2.length) w.1 w.2).map fun p => (BitVec.ofNat 64 p.1, p.2.length)

/-- What a copy reads of its index tensor, then of its source: only the elements that it uses (R158, R161, R163), with the
destination bytes that a nibble joins. -/
def Layout.indexRuns (l : Layout) : List (W64 × Nat) := match l.idx with
  | some t => t.runsOf l.indexReads
  | none => []

def Layout.sourceRuns (l : Layout) (index : List Index) : List (W64 × Nat) :=
  let ms := if l.op = 7 then (l.contributions index).map (·.2) else l.moves index
  l.src.runsOf (l.src.fmt.accesses none (ms.flatMap Mv.reads)) ++
    (if l.dst.fmt.width = 4 && !l.dst.fmt.blocked then l.dst.runsOf ((ms.filterMap (·.dst)).map l.dst.fmt.codeAt) else [])

/-- The registers that a copy reads, each once (DESIGN CHOICE, log 61), beside what other nodes sent (R182, R185). -/
def Cmd.withRegisters (c : Cmd) (rs : List (W64 × Nat)) (z : Memory × State) : Memory × State :=
  rs.foldl (fun p r => match c.place p.2 r.1 r.2 with
    | .ok (.reg _) =>
      let q := c.readAt r.1 r.2 p.2
      (memWrite p.1 r.1.toNat (q.1.map (·.1)), q.2)
    | _ => p) z

/-- The pieces on this module of some runs. -/
def Cmd.nearOf (c : Cmd) (s : State) (rs : List (W64 × Nat)) : List (Home × Nat) := rs.flatMap fun r => c.pieces s r.1 r.2

/-- A copy moves its elements: registers are read, what was read is charged, the image is written. -/
def copyMove (c : Cmd) (l : Layout) (s : State) : State :=
  let m := c.withRegisters l.indexRuns (c.fetched, s)
  let m := c.withRegisters (l.sourceRuns (l.index (viewOf m.2 (c.place m.2) m.1 c.tainted))) m
  let s := m.2
  let r := l.run (viewOf s (c.place s) m.1 c.tainted) {} 1
  let s := chargeReads (c.place s) (some c.id) c.tainted r.reads s
  finishCmd c.id (copyMarks r) ((l.writesOf r.image).foldl (fun s w => c.writeAt (BitVec.ofNat 64 w.1) w.2 s) s)

/-- COPY-TENSOR: round to nearest even with SAT (R167). Other nodes decide on whole ranges (R183); of the index tensor and
then of the source only what the copy uses is read. -/
def execCopyTensor (cmd : Nat) (s : State) : Out :=
  onCmd 0x0203 cmd s fun c s =>
    judged c (layoutChk s c) s fun l s => c.seekAdmission l.ranges s fun s =>
      c.bring 1 l.indexRuns s fun s => c.gate (c.nearOf s l.indexRuns) s fun _ =>
        let rs := l.sourceRuns (l.index (viewOf s (c.place s) c.fetched c.tainted))
        c.bring 2 rs s fun s =>
          c.gate (c.nearOf s (l.indexRuns ++ rs) ++ (l.ranges.filter (·.2.2)).flatMap fun r => c.pieces s r.1 r.2.1)
            s (copyMove c l)

/-! ## MEM-COPY and MEM-FILL (R175) -/

def memCopyChk (s : State) (c : Cmd) : Chk Unit := do
  let n := c.at 32 8
  let r (off : Nat) : Int × Int := ((c.at off 8 : Int), (c.at off 8 : Int) + n)
  need (!overlaps s (some (r 16)) (some (r 24))) (.badParam 24)
  c.checkRanges s [(16, c.addr 16, n), (24, c.addr 24, n)]

def execMemCopy (cmd : Nat) (s : State) : Out :=
  onCmd 0x0201 cmd s fun c s =>
    let n := c.at 32 8
    if n = 0 then doneCmd c.id 0 s else
    judged c (memCopyChk s c) s fun _ s =>
      c.remoteGate [(c.addr 16, n, false), (c.addr 24, n, true)] s fun s =>
        c.gate (c.pieces s (c.addr 16) n ++ c.pieces s (c.addr 24) n) s fun s =>
          let r := c.readAt (c.addr 16) n s
          doneCmd c.id n (c.writeAt (c.addr 24) r.1 r.2)

/-- A 4-byte pattern repeated over `n` bytes. -/
def pattern (v n : Nat) : List Byte := (List.range n).map fun i => BitVec.ofNat 8 (v / 256 ^ (i % 4))

def execMemFill (cmd : Nat) (s : State) : Out :=
  onCmd 0x0202 cmd s fun c s =>
    let n := c.at 24 8
    if n = 0 then doneCmd c.id 0 s else
    judged c (c.checkRanges s [(16, c.addr 16, n)]) s fun _ s =>
      c.remoteGate [(c.addr 16, n, true)] s fun s => c.gate (c.pieces s (c.addr 16) n) s fun s =>
        doneCmd c.id n (c.writeAt (c.addr 16) (clean (pattern (c.at 32 4) n)) s)

end Sys2Proof.Machine
end

