-- ==== Sys2Proof/Machine/Programs.lean ====
section
/-!
DEFINITION. Program images, loading, launching and finishing (05 R142-R147, R126, R102), custom format slots (04 R97).
-/

namespace Sys2Proof.Machine

/-! ## Selections (R143) -/

/-- The first `count` present tiles in increasing number from `first`. -/
def selection (s : State) (first count : Nat) : List Nat :=
  (((List.range 512).filter fun t => first ≤ t && tilePresent s t)).take count

/-- A selection that would reach past the partition's tiles. -/
def outside (s : State) (p : Nat) (sel : List Nat) (count : Nat) : Bool :=
  sel.length < count || sel.any fun t => !tileInPart s p t

def programAt (s : State) (h : Nat) : Option Program := s.jobs.programs.find? (·.handle == h)

def jobAt (s : State) (h : Nat) : Option Job := s.jobs.jobs.find? (·.handle == h)

/-! ## LOAD-PROGRAM -/

/-- The image header of R142. -/
structure Header where
  saves : Bool
  code : Nat
  data : Nat
  entry : Nat
  mask : Nat
deriving DecidableEq, Repr

/-- Read a header; none when it breaks R142. -/
def readHeader (bs : List Byte) : Option Header :=
  let h : Header := ⟨bit (field bs 6 2) 0, field bs 8 4, field bs 12 4, field bs 16 4, field bs 20 4⟩
  if field bs 0 4 = 0x4B545031 && field bs 4 2 = 1 && field bs 6 2 ≤ 1 && h.code % 4 = 0 && 4 ≤ h.code && h.code ≤ 65536
    && h.data ≤ 16128 && 4 * h.entry < h.code && h.mask % 4096 = 0 && h.mask < 65536 && zeroIn bs 24 32
  then some h else none

/-- The checks of LOAD-PROGRAM, in the order of R48: the image and the selected tiles; none of them is left for an image of
0 bytes (R58, log 66). Image bytes that disagree with the header have detail 24, the offset of that packet field, and not
16, the image pointer's (DESIGN CHOICE: R503 names both forms of fault, log 13). -/
def loadChk (s : State) (c : Cmd) : Chk (Option (Header × List Byte × List Nat)) := do
  let n := c.at 24 4
  let first := c.at 28 2
  let count := c.at 30 2
  need (first < 512) (c.bad 28)
  need (count ≠ 0) (c.bad 30)
  if n = 0 then pure none else
  c.admission s (c.addr 16) n
  let head ← c.tryControl s (c.bad 16) (c.addr 16) 32
  match head with
  | .error m =>
    firstMark (m :: if tilePresent s first then [] else [.absent first])
    fail m
  | .ok head => match readHeader head with
  | none => fail (c.bad 16)
  | some h => do
    need (match jobAt s c.job with | some j => !j.liveRange || h.saves | none => true) (c.bad 16)
    need (n = 32 + h.code + h.data) (c.bad 24)
    c.rangesAnd s first (tilePresent s first) [(16, c.addr 16, n)]
    let sel := selection s first count
    need (!outside s c.part sel count) .notPermitted
    need (!(s.jobs.programs.any fun p => p.job = c.job && p.tiles.any sel.contains)) .busy
    let rest ← c.control s 16 (c.addr 16 + 32) (n - 32)
    pure (some (h, head ++ rest, sel))

/-- Install a program's code in a tile (R143). -/
def installCode (code : List Byte) (s : State) (t : Nat) : State :=
  setTile s t { tileAt s t with imem := memWrite [] 0 code, codeWords := code.length / 4 }

def execLoadProgram (cmd : Nat) (s : State) : Out :=
  onCmd 0x0301 cmd s fun c s =>
    judged c (loadChk s c) s fun x s => match x with
    | none => doneCmd c.id 0 s
    | some x =>
      let h := x.1
      let code := (x.2.1.drop 32).take h.code
      let p : Program :=
        { handle := s.jobs.nextProgram, job := c.job, part := c.part, tiles := x.2.2, code := code,
          data := x.2.1.drop (32 + h.code), entry := h.entry, slotMask := BitVec.ofNat 32 h.mask,
          digest := Config.sha384 x.2.1 }
      let s := { s with jobs := { s.jobs with
        programs := s.jobs.programs ++ [p], nextProgram := s.jobs.nextProgram + 1 } }
      doneCmd c.id p.handle (x.2.2.foldl (installCode code) s)

/-! ## LAUNCH -/

/-- An LFSR's seed (R102): engine `e` of tile `t`. -/
def seedOf (t e : Nat) : W32 := 0x5EED0001#32 ^^^ BitVec.ofNat 32 (4 * t + e)

/-- How one tile is started (R144, R146): its number, what c1, c2 and c3 hold, its twin and whether it is the pair's
first. -/
structure Start where
  tile : Nat
  c1 : Nat
  c2 : Nat
  twin : Option Nat
  first : Bool
deriving DecidableEq, Repr

/-- A fresh engine of R144 and R126. -/
def freshEngine (t e : Nat) : Engine := { lfsr := seedOf t e }

/-- The private memory a launch leaves: the image's data, zeros, the argument block at 0x3F00 (R144). -/
def launchPriv (data args : List Byte) : Memory := memWrite (memWrite [] 0 data) 0x3F00 (args.take 256)

/-- The custom slots a command runs with: those it took at its start (R99). -/
def slotsFor (s : State) (cmd part : Nat) : Tab Slot := ((cmdAt s cmd).bind (·.slots)).getD (partAt s part).slots

/-- The guard bands a command runs with, likewise (R405). -/
def guardsFor (s : State) (cmd part : Nat) : List Guard := ((cmdAt s cmd).bind (·.guards)).getD (partAt s part).guards

/-- A LAUNCH or STEP-RUN copies its partition's custom slots and guard-band table at its start, once (R99, R405). -/
def takeSlots (c : Cmd) (s : State) : State :=
  let p := partAt s c.part
  updCmd c.id (fun x => { x with slots := some (x.slots.getD p.slots), guards := some (x.guards.getD p.guards) }) s

/-- Set one selected tile up and start it; scratchpad, accumulators and their maps stay. -/
def startTile (cmd : Nat) (p : Program) (args : List Byte) (s : State) (x : Start) : State :=
  let t := tileAt s x.tile
  let seedTile := x.c1
  setTile s x.tile
    { program := some p.handle, imem := t.imem, codeWords := t.codeWords, priv := launchPriv p.data args
      regs := tabSet 0 (tabSet 0 (tabSet 0 [] 1 (BitVec.ofNat 64 x.c1)) 2 (BitVec.ofNat 64 x.c2))
        3 (if x.twin.isSome then 1 else 0)
      pc := p.entry, halted := false, running := true, cmd := some cmd
      mx := freshEngine seedTile 0, vx := freshEngine seedTile 1, sx := freshEngine seedTile 2, dx := freshEngine seedTile 3
      nextEntry := 0, held := t.held, dirty := t.dirty, twin := x.twin, first := x.first
      slots := slotsFor s cmd p.part, guards := guardsFor s cmd p.part, beatsHi := t.beatsHi }

/-- The starts of a selection without twin mode, and with it. -/
def plainStarts (sel : List Nat) : List Start := (sel.zipIdx 0).map fun p => ⟨p.1, p.1, p.2, none, true⟩

def twinStarts (sel : List Nat) : List Start :=
  (sel.zipIdx 0).map fun p =>
    let mate := if p.2 % 2 = 0 then p.2 + 1 else p.2 - 1
    ⟨p.1, sel[p.2 / 2 * 2]?.getD p.1, p.2 / 2, sel[mate]?, p.2 % 2 = 0⟩

/-- The custom slots that a slot mask names are loaded (R99). -/
def slotsLoaded (slots : Tab Slot) (mask : W32) : Bool :=
  (List.range 4).all fun i => !mask.getLsbD (12 + i) || tabHas slots (12 + i)

/-- The queue of the command that runs a tile. -/
def tileQueue (s : State) (t : Nat) : Option Nat :=
  let x := tileAt s t
  if x.running then (x.cmd.bind (cmdAt s)).map (·.queue) else none

/-- The checks of LAUNCH. -/
def launchChk (s : State) (c : Cmd) : Chk (Program × List Nat) := do
  let first := c.at 20 2
  let count := c.at 22 2
  let args := c.addr 24
  match programAt s (c.at 16 4) with
  | none => fail (c.bad 16)
  | some p => do
    let sel := selection s first count
    need (p.job = c.job) (c.bad 16)
    need (first < 512) (c.bad 20)
    need (count ≠ 0) (c.bad 22)
    need (c.at 32 1 ≤ 1) (c.bad 32)
    need (!tilePresent s first || (sel.length = count && sel.all p.tiles.contains)) (c.bad 22)
    need (c.at 32 1 = 0 || count % 2 = 0) (c.bad 32)
    need (slotsLoaded (slotsFor s c.id c.part) p.slotMask) (c.bad 16)
    if args = 0 then need (tilePresent s first) (.absent first)
    else do
      need (match c.place s args 256 with | .error .param => false | _ => true) (c.bad 24)
      need (tilePresent s first) (.absent first)
      c.checkRanges s [(24, args, 256)]
    need (sel.all fun t => match tileQueue s t with | some q => q = c.queue | none => true) .busy
    pure (p, sel)

/-- LAUNCH starts; its tiles then run by their own commands, and TILE_FINISH ends it. -/
def execLaunch (cmd : Nat) (s : State) : Out :=
  onCmd 0x0302 cmd s fun c s => if c.tiles ≠ [] then s else
    judged c (launchChk s c) s fun x s =>
      if x.2.any fun t => (tileAt s t).running then waitCmd c.id s else
      let s := resumeCmd c.id s
      let args := c.addr 24
      let go (bs : List Byte) (s : State) : State :=
        (if c.at 32 1 = 1 then twinStarts x.2 else plainStarts x.2).foldl (startTile c.id x.1 bs)
          (updCmd c.id (fun y => { y with tiles := x.2 }) s)
      if args = 0 then go [] s
      else c.remoteGate [(args, 256, false)] s fun s => c.gate (c.pieces s args 256) s fun s =>
        let r := c.readAt args 256 s
        go (r.1.map (·.1)) r.2

/-! ## UNLOAD-PROGRAM, SET-FORMAT-SLOT -/

/-- Free a program's instruction memory (R147). -/
def unload (p : Program) (s : State) : State :=
  let s := p.tiles.foldl (fun s t => setTile s t { tileAt s t with imem := [], codeWords := 0 }) s
  { s with jobs := { s.jobs with programs := s.jobs.programs.filter (·.handle != p.handle) } }

/-- The queues of the commands that run a program. -/
def programQueues (s : State) (p : Program) : List Nat :=
  p.tiles.filterMap fun t => if (tileAt s t).program = some p.handle then tileQueue s t else none

def unloadChk (s : State) (c : Cmd) : Chk Program := do
  match programAt s (c.at 16 4) with
  | none => fail (c.bad 16)
  | some p => do
    need (p.job = c.job) (c.bad 16)
    need ((programQueues s p).all (· = c.queue)) .busy
    pure p

def execUnloadProgram (cmd : Nat) (s : State) : Out :=
  onCmd 0x0303 cmd s fun c s => judged c (unloadChk s c) s fun p s =>
    if programQueues s p ≠ [] then waitCmd c.id s else doneCmd c.id 0 (unload p (resumeCmd c.id s))

def slotChk (c : Cmd) : Chk Slot := do
  let w := c.at 17 1
  let e := c.at 18 1
  need (12 ≤ c.at 16 1 && c.at 16 1 ≤ 15) (c.bad 16)
  need (2 ≤ w && w ≤ 8) (c.bad 17)
  need (e < w) (c.bad 18)
  need (c.at 19 1 ≠ 0x80) (c.bad 19)
  need ([1, 8, 16, 32, 64, 128, 256].contains (c.at 20 2)) (c.bad 20)
  need (c.at 22 1 ≤ 2 && (c.at 22 1 = 0) = (c.at 20 2 = 1)) (c.bad 22)
  pure ⟨w, e, signed 8 (c.at 19 1), c.at 20 2, c.at 22 1⟩

/-- SET-FORMAT-SLOT: the format's fields, then the partition whose slot it is. -/
def formatSlotChk (c : Cmd) : Chk Slot := do
  let x ← slotChk c
  need (c.part ≠ 0xFF) .notPermitted
  pure x

def execSetFormatSlot (cmd : Nat) (s : State) : Out :=
  onCmd 0x0304 cmd s fun c s => judged c (formatSlotChk c) s fun x s =>
    let p := partAt s c.part
    doneCmd c.id 0 { s with parts := tabSet {} s.parts c.part { p with slots := tabPut p.slots (c.at 16 1) x } }

/-! ## Finishing (R145) -/

def Tile.engine (x : Tile) (e : Nat) : Engine :=
  match e with
  | 0 => x.mx
  | 1 => x.vx
  | 2 => x.sx
  | _ => x.dx

def Tile.setEngine (x : Tile) (e : Nat) (v : Engine) : Tile :=
  match e with
  | 0 => { x with mx := v }
  | 1 => { x with vx := v }
  | 2 => { x with sx := v }
  | _ => { x with dx := v }

/-- The beats of the latest MWLOAD beside which nothing issues (R131). -/
def Engine.loadDone (en : Engine) : Engine := { en with beats := en.beats + en.load, load := 0 }

/-- A tile whose CC has halted, whose pushes have completed and whose remote accesses have been answered. -/
def tileDone (s : State) (t : Nat) : Bool :=
  let x := tileAt s t
  x.running && x.halted && x.miss = none && x.walk = none && x.leaving = []
    && (List.range 4).all (fun e => (x.engine e).queue = []) && !(s.fabric.remote.any fun r => r.tile = some t)

/-- A tile stops: nothing it had queued goes on. -/
def stopTile (s : State) (t : Nat) : State :=
  let x := tileAt s t
  let cut (e : Engine) : Engine := { e with queue := [] }
  setTile s t { x with running := false, halted := true, miss := none, walk := none, landing := [], leaving := [],
                       mx := cut x.mx, vx := cut x.vx, sx := cut x.sx, dx := cut x.dx }

/-- With the last of its tiles finished a LAUNCH completes; its result is the largest beat count among them. A
STEP-RUN goes on to STEP_RUN_SETTLE. -/
def launchEnd (cmd : Nat) (s : State) : State :=
  match cmdAt s cmd with
  | some c =>
    if c.opcode = 0x0302 && c.phase = .started && !(c.tiles.any fun t => (tileAt s t).running) then
      doneCmd cmd (c.tiles.foldl (fun a t => max a (tileAt s t).count) 0) s
    else s
  | none => s

/-- The unit number of the lowest status detail and entry wins (R403); one PLAUSIBILITY status stands for a command. -/
def addPlausible (detail entry : Nat) (c : Cmd) : Cmd :=
  match c.marks.find? (·.status == 0x31) with
  | none => { c with marks := c.marks ++ [⟨0x31, detail, entry⟩] }
  | some m =>
    if detail < m.detail || (detail = m.detail && entry < m.result) then
      { c with marks := updWhere (·.status == 0x31) (fun _ => ⟨0x31, detail, entry⟩) c.marks }
    else c

/-- A twin pair has a mismatch (R407): neither write is issued, both tiles stop, and TWIN_MISMATCH is charged. -/
def twinMismatch (t : Nat) (s : State) : State :=
  let x := tileAt s t
  match x.twin with
  | none => s
  | some m =>
    let first := if x.first then t else m
    let s := stopTile (stopTile s t) m
    let s := report 7 (0, first, 3) x.cmd 1 s
    match x.cmd with
    | some c => launchEnd c (updCmd c (addPlausible 5 (2 ^ 64 - 1)) s)
    | none => s

/-- A tile ends; with the last one the command that ran it ends. -/
def endTile (t : Nat) (s : State) : State :=
  let x := tileAt s t
  let s := setTile s t { x with running := false, mx := x.mx.loadDone }
  match x.cmd with
  | some c => launchEnd c s
  | none => s

/-- TILE_FINISH: the tile has finished. A twin that has issued further leaving writes has a mismatch (R407). -/
def tileFinish (t : Nat) (s : State) : State :=
  if !tileDone s t then s
  else if (tileAt s t).twin.any (fun m => (tileAt s m).leaving ≠ []) then twinMismatch t s
  else endTile t s

def execTileFinish (tile : Nat) (s : State) : Out := onUnit 512 tile s fun s => whenRunning s (tileFinish tile)

end Sys2Proof.Machine
end

