-- ==== Sys2Proof/Machine/Bundle.lean ====
section
/-!
DEFINITION. Engine instructions (05 R124-R137): their fields, which fields each uses, the formats and blocks it accepts,
its operands, its address registers, its scoreboard regions, and what is illegal at issue (R136).
-/

namespace Sys2Proof.Machine

/-- The fields of a 128-bit engine instruction (R124). -/
structure Ins where
  op : Nat
  rep : Nat
  ad : Nat
  as_ : Nat
  at_ : Nat
  fd : Nat
  fs : Nat
  ft : Nat
  rnd : Nat
  ovf : Bool
  bd : Nat
  bs : Nat
  bt : Nat
  low : Nat
  flags : Nat
  imm : Nat
deriving DecidableEq, Repr

def Ins.of (w : BitVec 128) : Ins :=
  let v := w.toNat
  { op := bits v 127 120, rep := bits v 119 104, ad := bits v 103 100, as_ := bits v 99 96, at_ := bits v 95 92,
    fd := bits v 91 87, fs := bits v 86 82, ft := bits v 81 77, rnd := bits v 76 75, ovf := bit v 74, bd := bits v 73 71,
    bs := bits v 70 68, bt := bits v 67 65, low := bits v 64 64, flags := bits v 63 56, imm := bits v 55 0 }

/-- The rounding and overflow modes of an instruction. -/
def Ins.mode (i : Ins) : Mode := { rnd := if i.rnd = 0 then .even else if i.rnd = 1 then .zero else .stochastic, inf := i.ovf }

/-- The fields an instruction uses: those it does not use are reserved (R124). -/
structure Form where
  ad : Bool := false
  as_ : Bool := false
  at_ : Bool := false
  fd : Bool := false
  fs : Bool := false
  ft : Bool := false
  bd : Bool := false
  bs : Bool := false
  bt : Bool := false
  conv : Bool := false
  flags : Nat := 0
  imm : Nat := 0
deriving DecidableEq, Repr

def formTwo : Form :=
  { ad := true, as_ := true, at_ := true, fd := true, fs := true, ft := true, bd := true, bs := true, bt := true, conv := true }
def formOne : Form := { ad := true, as_ := true, fd := true, fs := true, bd := true, bs := true, conv := true }

/-- The instructions of an engine other than the set-up ones: 0 MX (R131), 1 VX (R132), 2 SX (R134), 3 DX (R135). R135 gives
FLAGS[3:2] of a DCOPY for its global side and is silent where neither side is global: any value is accepted there (DESIGN
CHOICE, log 71). -/
def formOf (e op : Nat) : Option Form :=
  match e, op with
  | 0, 0x10 => some { as_ := true, fs := true, bs := true, flags := 7 }
  | 0, 0x11 => some { ad := true, as_ := true, fd := true, fs := true, ft := true, bs := true, flags := 3 }
  | 0, 0x12 => some { formOne with bs := false, flags := 1 }
  | 1, 0x16 => some { formOne with imm := 2 ^ 48 - 1 }
  | 1, 0x17 => some formOne
  | 1, 0x1A => some { formOne with flags := 1 }
  | 1, 0x1B => some { formOne with flags := 1 }
  | 1, n => if 0x10 ≤ n && n ≤ 0x19 then some formTwo else none
  | 2, 0x14 => some { formOne with conv := false, imm := 2 ^ 56 - 1 }
  | 2, n => if 0x10 ≤ n && n ≤ 0x13 then some { formOne with imm := 2 ^ 32 - 1 } else none
  | 3, 0x10 => some { ad := true, as_ := true, flags := 0x1F, imm := 2 ^ 24 - 1 }
  | 3, 0x11 => some { as_ := true, conv := true, flags := 0x10 }
  | 3, 0x12 => some { ad := true, as_ := true, flags := 0x0C }
  | 3, 0x13 => some { as_ := true, flags := 0x2C, imm := 2 ^ 56 - 1 }
  | 3, 0x14 => some {}
  | 3, 0x15 => some { ad := true, as_ := true, imm := 0xFFFF000F }
  | _, _ => none

/-- Every reserved field is zero. -/
def Form.clean (f : Form) (i : Ins) : Bool :=
  i.low = 0 && (f.ad || i.ad = 0) && (f.as_ || i.as_ = 0) && (f.at_ || i.at_ = 0) && (f.fd || i.fd = 0) && (f.fs || i.fs = 0)
    && (f.ft || i.ft = 0) && (f.bd || i.bd = 0) && (f.bs || i.bs = 0) && (f.bt || i.bt = 0) && (f.conv || (i.rnd = 0 && !i.ovf))
    && i.rnd ≠ 3 && i.flags &&& f.flags = i.flags && i.imm &&& f.imm = i.imm

/-! ## Formats of an engine (R83-R85, R108) -/

/-- K per beat of a format (R108). -/
def kOf (slots : Tab Slot) (code : Nat) : Nat :=
  if code ≤ 1 then 64
  else match formatOf slots code with
    | some f => if f.width ≤ 4 then 256 else 128
    | none => 128

/-- An MX operand: a slot that R84 marks so, or a loaded custom slot (R131). -/
def mxFmt (slots : Tab Slot) (code : Nat) : Option Fmt := if code = 16 then none else formatOf slots code

/-- A format that an engine takes: SX takes no custom slot (R85). -/
def engFmt (e : Nat) (slots : Tab Slot) (code : Nat) : Option Fmt :=
  if e = 2 && 12 ≤ code && code ≤ 15 then none else formatOf slots code

/-- Blocks that `n` elements take. -/
def Fmt.blocks (f : Fmt) (n : Nat) : Nat := (n + f.block - 1) / f.block

/-- R130: a block operand of 32 or more elements a block ends in its group; other formats have B 0. -/
def Fmt.blockOk (f : Fmt) (b n : Nat) : Bool :=
  if !f.grouped then b = 0 else f.block < 32 || b + f.blocks n ≤ 8

/-- The bytes an operand of `n` elements from block `b` touches, as runs from its address: the scales and the areas of
each group, or one run. R130 lets the region of an operand over several groups cover every group it touches: whole, or the
hull of R137 of the bytes touched, which is what these runs give (DESIGN CHOICE, log 71). -/
def Fmt.spans (f : Fmt) (b n : Nat) : List (Nat × Nat) :=
  if f.grouped then
    let nb := f.blocks n
    let area := f.block * f.width / 8
    (List.range ((b + nb + 7) / 8)).flatMap fun g =>
      let lo := max b (8 * g)
      let k := min (b + nb) (8 * g + 8) - lo
      let at0 := g * f.unitBytes
      [(at0 + (lo - 8 * g) * f.scaleBytes, k * f.scaleBytes), (at0 + 8 * f.scaleBytes + (lo - 8 * g) * area, k * area)]
  else if f.isMz then [(0, f.blocks n * f.unitBytes)]
  else [(0, (n * f.width + 7) / 8)]

/-- The hull of an operand's bytes. -/
def hullOf (spans : List (Nat × Nat)) : Nat × Nat :=
  (spans.foldl (fun a p => min a p.1) ((spans.head?.getD (0, 0)).1), spans.foldl (fun a p => max a (p.1 + p.2)) 0)

/-! ## Address registers (R126, R127) -/

def AReg.address (a : AReg) : Int := a.base + a.i0 * a.s0 + a.i1 * a.s1 + a.i2 * a.s2

def AReg.advance (a : AReg) : AReg :=
  if a.i0 + 1 < a.w0 then { a with i0 := a.i0 + 1 }
  else if a.i1 + 1 < a.w1 then { a with i0 := 0, i1 := a.i1 + 1 }
  else if a.i2 + 1 < a.w2 then { a with i0 := 0, i1 := 0, i2 := a.i2 + 1 }
  else { a with i0 := 0, i1 := 0, i2 := 0 }

def iterate {α : Type} (f : α → α) : Nat → α → α
  | 0, x => x
  | n + 1, x => iterate f n (f x)

/-- The registers an instruction names, each once. -/
def Form.names (f : Form) (i : Ins) : List Nat :=
  ((if f.ad then [i.ad] else []) ++ (if f.as_ then [i.as_] else []) ++ (if f.at_ then [i.at_] else [])).eraseDups

def aregAt (rs : Tab AReg) (r : Nat) : AReg := tabGet {} rs r

/-- Advance the registers that an instruction names. -/
def advanceAll (n : Nat) (names : List Nat) (rs : Tab AReg) : Tab AReg :=
  names.foldl (fun rs r => tabSet {} rs r (iterate AReg.advance n (aregAt rs r))) rs

/-- The operations of the set-up instructions; 5 stands for an ABASE in a queue, which no program can push. -/
def opAbase : Nat := 5

/-- What a set-up instruction does to the address registers. -/
def setupRegs (w : BitVec 128) (rs : Tab AReg) : Tab AReg :=
  let v := w.toNat
  let r := bits v 119 116
  let a := aregAt rs r
  match bits v 127 120 with
  | 1 => tabSet {} rs r
      { base := bits v 115 93, s0 := signed 22 (bits v 92 71), s1 := signed 22 (bits v 70 49), s2 := signed 22 (bits v 48 27),
        w0 := a.w0, w1 := a.w1, w2 := a.w2 }
  | 2 => tabSet {} rs r
      { a with w0 := bits v 115 100, w1 := bits v 99 84, w2 := bits v 83 68, i0 := 0, i1 := 0, i2 := 0 }
  | 5 => tabSet {} rs r { a with base := bits v 115 93, i0 := 0, i1 := 0, i2 := 0 }
  | _ => rs

/-- The word that stands for an ABASE in its engine's queue. -/
def abaseWord (r base : Nat) : BitVec 128 := BitVec.ofNat 128 (2 ^ 120 * opAbase + 2 ^ 116 * r + 2 ^ 93 * base)

/-- The DGSET that a GBASE is. -/
def gbaseWord (g : Nat) (v : W64) : BitVec 128 := BitVec.ofNat 128 (4 * 2 ^ 120 + 2 ^ 118 * g + v.toNat)

/-- The address registers after a queued entry. -/
def regsAfter (e : Nat) (rs : Tab AReg) (x : Entry) : Tab AReg :=
  let i := Ins.of x.word
  if i.op < 0x10 then (if x.finished then rs else setupRegs x.word rs)
  else match formOf e i.op with
    | some f => advanceAll (i.rep - x.done) (f.names i) rs
    | none => rs

/-- The registers an instruction pushed now will start with (R137). -/
def predicted (x : Tile) (e : Nat) : Tab AReg := (x.engine e).queue.foldl (regsAfter e) (x.engine e).aregs

/-- The state of a weight buffer after the MWLOADs queued for it: loaded, format, K. -/
def wbufAt (x : Tile) (b : Nat) : Weights := if b = 0 then x.wbuf0 else x.wbuf1

def kCode (c : Nat) : Nat := 64 * 2 ^ c

def wbufAfter (x : Tile) (b : Nat) : Bool × Nat × Nat :=
  x.mx.queue.foldl (fun a en =>
    let i := Ins.of en.word
    if i.op = 0x10 && i.rep = 1 && i.flags % 2 = b && !en.finished then (true, i.fs, kCode (bits i.flags 2 1)) else a)
    ((wbufAt x b).loaded, (wbufAt x b).format, (wbufAt x b).k)

/-! ## Operands -/

/-- A local operand of one repeat: its address register, the runs of bytes it touches from its address, whether it is
written. -/
structure Opnd where
  reg : Nat
  spans : List (Nat × Nat)
  write : Bool
deriving DecidableEq, Repr

def spansOf (slots : Tab Slot) (code b n : Nat) : List (Nat × Nat) :=
  match formatOf slots code with
  | some f => f.spans b n
  | none => []

/-- The runs of MWLOAD's tile: 64 rows one after another (R131). -/
def tileSpans (slots : Tab Slot) (code b k : Nat) : List (Nat × Nat) :=
  match formatOf slots code with
  | some f => (List.range 64).flatMap fun r => (f.spans b k).map fun p => (r * f.rowBytes k + p.1, p.2)
  | none => []

/-- The local operands of an instruction (R131-R135). -/
def operandsOf (slots : Tab Slot) (e : Nat) (i : Ins) : List Opnd :=
  let k := min (kOf slots i.fs) (kOf slots i.ft)
  let one (w : Bool) (r n : Nat) : List Opnd := [⟨r, if n = 0 then [] else [(0, n)], w⟩]
  let d : Opnd := ⟨i.ad, spansOf slots i.fd i.bd 64, true⟩
  let a : Opnd := ⟨i.as_, spansOf slots i.fs i.bs 64, false⟩
  match e, i.op with
  | 0, 0x10 => [⟨i.as_, tileSpans slots i.fs i.bs (kCode (bits i.flags 2 1)), false⟩]
  | 0, 0x11 => [⟨i.as_, spansOf slots i.fs i.bs k, false⟩, ⟨i.ad, [(0, 256)], true⟩]
  | 0, _ => [⟨i.as_, [(0, 256)], bit i.flags 0⟩, d]
  | 1, 0x16 => [a, d]
  | 1, 0x17 => [a, d]
  | 1, 0x1A => [a, ⟨i.ad, [(0, 4)], true⟩]
  | 1, 0x1B => [a, ⟨i.ad, [(0, 4)], true⟩]
  | 1, n => [a, ⟨i.at_, spansOf slots i.ft i.bt (if n = 0x18 || n = 0x19 then 1 else 64), false⟩, d]
  | 2, _ => [a, d]
  | _, 0x10 => (if bit i.flags 0 then [] else one false i.as_ i.imm) ++ (if bit i.flags 1 then [] else one true i.ad i.imm)
  | _, 0x11 => one false i.as_ 32
  | _, 0x12 => one false i.as_ 8
  | _, 0x15 => one false i.as_ 64 ++ one true i.ad (bits i.imm 31 16)
  | _, _ => []

/-- The hull of an operand over all repeats from a register state (R137). -/
def Opnd.region (o : Opnd) (n : Nat) (rs : Tab AReg) : Region :=
  let h := hullOf o.spans
  let r := (List.range n).foldl (fun (x : Int × Int × AReg) k =>
    let a := x.2.2.address
    (if k = 0 then a else min x.1 a, if k = 0 then a else max x.2.1 a, x.2.2.advance)) (0, 0, aregAt rs o.reg)
  ⟨(r.1 + h.1).toNat, (r.2.1 + h.2).toNat, o.write⟩

/-- The regions an instruction enters when it is pushed. An operand without bytes (a DCOPY of 0 bytes, a DDESC that reserves
none) has no hull, and R137 does not say whether it enters one: it enters none (DESIGN CHOICE, log 71). -/
def regionsOf (x : Tile) (e : Nat) (i : Ins) : List Region :=
  if i.op < 0x10 || i.rep = 0 then []
  else ((operandsOf x.slots e i).filter (·.spans ≠ [])).map fun o => o.region i.rep (predicted x e)

/-- Two regions conflict, rounded outward to 64 bytes (R138). -/
def Region.conflicts (a b : Region) : Bool :=
  (a.write || b.write) && a.lo / 64 < (b.hi + 63) / 64 && b.lo / 64 < (a.hi + 63) / 64

/-- Whether an entry of engine `e` may start: no region conflicts with one entered earlier by another engine's
instruction that has not released (R138). -/
def startable (x : Tile) (e : Nat) (en : Entry) : Bool :=
  (List.range 4).all fun o => o = e || (x.engine o).queue.all fun y =>
    en.id < y.id || !(en.regions.any fun a => y.regions.any a.conflicts)

/-! ## Legality (R136) -/

/-- A set-up instruction has its reserved bits zero, and DGSET is DX's. -/
def setupOk (e : Nat) (w : BitVec 128) : Bool :=
  let v := w.toNat
  match bits v 127 120 with
  | 1 => bits v 26 0 = 0
  | 2 => bits v 67 0 = 0
  | 3 => bits v 119 32 = 0
  | 4 => e = 3 && bits v 117 64 = 0
  | _ => false

/-- The operand formats of an instruction are accepted and its B fields keep R130. -/
def fmtsOk (x : Tile) (e : Nat) (i : Ins) : Bool :=
  let ok (code b n : Nat) : Bool := match engFmt e x.slots code with | some f => f.blockOk b n | none => false
  let mx (code b n : Nat) : Bool := match mxFmt x.slots code with | some f => f.blockOk b n | none => false
  match e, i.op with
  | 0, 0x10 => mx i.fs i.bs (kCode (bits i.flags 2 1))
  | 0, 0x11 =>
    let k := min (kOf x.slots i.fs) (kOf x.slots i.ft)
    let w := wbufAfter x (i.flags % 2)
    i.fd = 16 && mx i.fs i.bs k && (mxFmt x.slots i.ft).isSome && w.1 && w.2.1 = i.ft && w.2.2 = k
  | 0, _ => i.fs = 16 && ok i.fd i.bd 64
  | 1, n =>
    ok i.fs i.bs 64
      && (if n = 0x1A || n = 0x1B then i.fd = 16 && i.bd = 0 else ok i.fd i.bd 64)
      && (if n = 0x16 || n = 0x17 || n = 0x1A || n = 0x1B then true
          else ok i.ft i.bt (if n = 0x18 || n = 0x19 then 1 else 64))
  | 2, 0x14 => i.fs = 16 && i.fd = 16 && i.bs = 0 && i.bd = 0
  | 2, _ => ok i.fs i.bs 64 && ok i.fd i.bd 64
  | _, _ => true

/-- A REPEAT and FLAGS use that R131 and R135 allow. -/
def useOk (e : Nat) (i : Ins) : Bool :=
  match e, i.op with
  | 0, 0x10 => i.rep ≤ 1 && bits i.flags 2 1 ≠ 3
  | 3, 0x10 => !(bit i.flags 0 && bit i.flags 1)
  | 3, 0x13 => i.rep ≤ 1
  | _, _ => true

/-- A pushed instruction that is not illegal. -/
def pushOk (x : Tile) (e : Nat) (w : BitVec 128) : Bool :=
  let i := Ins.of w
  if i.op < 0x10 then setupOk e w
  else match formOf e i.op with
    | some f => f.clean i && useOk e i && fmtsOk x e i
    | none => false

end Sys2Proof.Machine
end

