-- ==== Sys2Proof/Machine/Tile.lean ====
section
/-!
DEFINITION. The control core of a tile (05 R113-R123, 03 R70-R74): decoding a bundle, its slots, its waits, the global
read cache, landing results.
-/

namespace Sys2Proof.Machine

/-! ## Registers and results -/

def Tile.reg (x : Tile) (r : Nat) : W64 := if r = 0 then 0 else tabGet 0 x.regs r

/-- Write a register: c0 drops it (R117). -/
def putReg (rs : Tab W64) (r : Nat) (v : W64) : Tab W64 := if r = 0 then rs else tabSet 0 rs r v

/-- Landing order: by beat, then by slot; of equal ones the later issued stands later and so wins (R73). -/
def landsBefore (a b : Landing) : Bool := a.beat < b.beat || (a.beat = b.beat && a.slot < b.slot)

/-- Land every result whose latency has passed by the tile's present beat (R70, R74). -/
def Tile.land (x : Tile) : Tile :=
  let due := (x.landing.filter (·.beat ≤ x.beats)).foldl (fun l r => insertBy (fun a b => !landsBefore b a) r l) []
  { x with regs := due.foldl (fun rs r => putReg rs r.reg r.value) x.regs
           landing := x.landing.filter fun r => !(r.beat ≤ x.beats) }

/-! ## ALU slots (R118) -/

structure Alu where
  op : Nat
  imm : Bool
  d : Nat
  a : Nat
  b : Nat
deriving DecidableEq, Repr

def Alu.of (v : Nat) : Alu := ⟨bits v 31 26, bit v 25, bits v 24 20, bits v 19 15, bits v 14 0⟩

def Alu.ok (s : Alu) : Bool := (s.op ≤ 0x0C || (0x10 ≤ s.op && s.op ≤ 0x12)) && (s.imm || s.b % 1024 = 0)

def Alu.latency (s : Alu) : Nat := if 0x10 ≤ s.op then 3 else 1

/-- The result of an ALU operation. -/
def aluResult (op : Nat) (a b : W64) : W64 :=
  let sh := b.toNat % 64
  match op with
  | 0x00 => a + b
  | 0x01 => a - b
  | 0x02 => a &&& b
  | 0x03 => a ||| b
  | 0x04 => a ^^^ b
  | 0x05 => a <<< sh
  | 0x06 => a >>> sh
  | 0x07 => a.sshiftRight sh
  | 0x08 => if a.toInt < b.toInt then 1 else 0
  | 0x09 => if a.toNat < b.toNat then 1 else 0
  | 0x0A => if b.toInt < a.toInt then b else a
  | 0x0B => if a.toInt < b.toInt then b else a
  | 0x0C => (a <<< 15) ||| (b &&& 0x7FFF)
  | 0x10 => a * b
  | 0x11 => BitVec.ofInt 64 (a.toInt * b.toInt / 2 ^ 64)
  | _ => BitVec.ofNat 64 (a.toNat * b.toNat / 2 ^ 64)

def Alu.value (s : Alu) (x : Tile) : W64 :=
  aluResult s.op (x.reg s.a) (if s.imm then BitVec.ofInt 64 (signed 15 s.b) else x.reg (s.b / 1024))

/-! ## Memory slots (R119) -/

structure Mem where
  op : Nat
  d : Nat
  b : Nat
  off : Nat
deriving DecidableEq, Repr

def Mem.of (v : Nat) : Mem := ⟨bits v 31 28, bits v 27 23, bits v 22 18, bits v 17 0⟩

/-- The reserved fields of a memory slot are zero, its operation is listed, an ABASE value is below 2^23. -/
def Mem.ok (s : Mem) (x : Tile) : Bool :=
  match s.op with
  | 0xC => s.d = 0 && s.b = 0 && s.off = 0
  | 0xD => s.b = 0 && bits s.off 15 4 = 0 && (x.reg s.d).toNat < 2 ^ 23
  | 0xE => s.b = 0 && s.off < 4
  | n => n ≤ 4 || (8 ≤ n && n ≤ 0xA)

def Mem.address (s : Mem) (x : Tile) : W64 := x.reg s.b + BitVec.ofInt 64 (signed 18 s.off)

/-- Bytes of an access. -/
def Mem.size (op : Nat) : Nat := if op = 0 || op = 3 || op = 8 then 8 else 4

def Mem.private_ (s : Mem) : Bool := s.op ≤ 4
def Mem.isStore (s : Mem) : Bool := s.op = 3 || s.op = 4
def Mem.isGlobal (s : Mem) : Bool := 8 ≤ s.op && s.op ≤ 0xA

/-- The loaded value of an operation from its bytes: a word is sign- or zero-extended. -/
def loadValue (op : Nat) (bs : List Byte) : W64 :=
  let v := leNat bs
  if op = 1 || op = 9 then BitVec.ofInt 64 (signed 32 v) else BitVec.ofNat 64 v

/-- A private address in range and aligned to its size. -/
def Mem.privOk (s : Mem) (x : Tile) : Bool :=
  let a := (s.address x).toNat
  a % Mem.size s.op = 0 && a + Mem.size s.op ≤ 0x4000

/-- The ranges of private memory that DX instructions in flight read or write: DX addresses begin at 0x380000. -/
def Mem.blocked (s : Mem) (x : Tile) : Bool :=
  let a := (s.address x).toNat + 0x380000
  x.dx.queue.any fun e => e.regions.any fun r =>
    r.lo < a + Mem.size s.op && a < r.hi && (s.isStore || r.write)

/-! ## Branch slots (R122) -/

structure Branch where
  op : Nat
  c : Nat
  rsv : Nat
  target : Nat
deriving DecidableEq, Repr

def Branch.of (v : Nat) : Branch := ⟨bits v 31 28, bits v 27 23, bits v 22 14, bits v 13 0⟩

def Branch.isHalt (s : Branch) : Bool := s.op = 0xF

/-- Where a branch goes: none when it is not taken. -/
def Branch.next (s : Branch) (x : Tile) : Option Nat :=
  let v := x.reg s.c
  let on (p : Bool) : Option Nat := if p then some s.target else none
  match s.op with
  | 0 => some s.target
  | 1 => on (v = 0)
  | 2 => on (v ≠ 0)
  | 3 => on (v.toInt < 0)
  | 4 => on (0 ≤ v.toInt)
  | 5 => some s.target
  | 6 => some v.toNat
  | 7 => on (v - 1 ≠ 0)
  | _ => none

/-- A branch that is not illegal: listed, reserved fields zero, its target inside the code. R122 says that C is 0 for CALL and
HALT alone: BR, which uses no C either, accepts any (DESIGN CHOICE, log 71). -/
def Branch.ok (s : Branch) (x : Tile) (inside : Nat → Bool) : Bool :=
  s.rsv = 0 && (match s.op with
    | 5 => s.c = 0 && inside s.target
    | 6 => s.target = 0 && inside (x.reg s.c).toNat
    | 0xF => s.c = 0 && s.target = 0
    | n => n ≤ 7 && inside s.target)

/-! ## A bundle (R113, R114) -/

structure Bundle where
  sync : Nat
  idle : Nat
  words : Nat
  alus : List (Nat × Alu)
  mem : Option Mem
  branch : Option Branch
  push : List (Nat × BitVec 128)
deriving DecidableEq, Repr

/-- Words of slot `k`. -/
def slotWords (k : Nat) : Nat := if k < 4 then 1 else 4

/-- Where slot `k` stands, in words from the header. -/
def slotAt (present k : Nat) : Nat := 1 + (((List.range k).filter fun j => bit present j).map slotWords).sum

/-- Read the bundle at word `pc` of a tile's instruction memory; none when it extends past the code or its header's
reserved bits are not zero. -/
def readBundle (x : Tile) (pc : Nat) : Option Bundle :=
  if x.codeWords ≤ pc then none else
  let word (k n : Nat) : Nat := leNat (memRead x.imem (4 * (pc + k)) (4 * n))
  let h := word 0 1
  let present := h % 256
  let size := slotAt present 8
  if h ≥ 65536 || x.codeWords < pc + size then none else
  let at1 (k : Nat) : Option Nat := if bit present k then some (word (slotAt present k) (slotWords k)) else none
  some
    { sync := bits h 15 12, idle := bits h 11 8, words := size
      alus := (List.range 2).filterMap fun k => (at1 k).map fun v => (k, Alu.of v)
      mem := (at1 2).map Mem.of, branch := (at1 3).map Branch.of
      push := (List.range 4).filterMap fun e => (at1 (4 + e)).map fun v => (e, BitVec.ofNat 128 v) }

/-- The words a bundle puts into engine queues, in slot order: what ABASE and GBASE stand for, then its pushes (R123). -/
def Bundle.entries (b : Bundle) (x : Tile) : List (Nat × BitVec 128) :=
  (match b.mem with
    | some m => if m.op = 0xD then [(bits m.off 17 16, abaseWord (m.off % 16) (x.reg m.d).toNat)]
        else if m.op = 0xE then [(3, gbaseWord m.off (x.reg m.d))] else []
    | none => []) ++ b.push

/-- Push one word into an engine's queue with its regions. -/
def pushEntry (b : Nat) (x : Tile) (p : Nat × BitVec 128) : Tile :=
  let en : Entry := { id := x.nextEntry, word := p.2, beat := b, regions := regionsOf x p.1 (Ins.of p.2) }
  let e := x.engine p.1
  { (x.setEngine p.1 { e with queue := e.queue ++ [en] }) with nextEntry := x.nextEntry + 1 }

/-- The engine of the first illegal push, each judged after those before it in the bundle. -/
def badPush (x : Tile) : List (Nat × BitVec 128) → Option Nat
  | [] => none
  | p :: ps => if (Ins.of p.2).op = opAbase || pushOk x p.1 p.2 then badPush (pushEntry 0 x p) ps else some p.1

/-- The illegal slot of a bundle (R136), as the engine that R502 locates it at, 4 for a slot of the CC; `inside` says
which word indices a branch may name. -/
def Bundle.bad (b : Bundle) (x : Tile) (inside : Nat → Bool) : Option Nat :=
  if (b.alus.all fun a => a.2.ok) && (match b.mem with | some m => m.ok x | none => true)
    && (match b.branch with | some r => r.ok x inside | none => true) then
    (match b.push.find? fun p => (Ins.of p.2).op = opAbase with
    | some p => some p.1
    | none => badPush x (b.entries x))
  else some 4

/-- What keeps a legal bundle from issuing: a SYNC on an engine that has work, a full queue, too few scoreboard entries
(R116, R123), a private access against the DX (R120). -/
def Bundle.waits (b : Bundle) (x : Tile) : Bool :=
  let es := b.entries x
  ((List.range 4).any fun e => bit b.sync e && (x.engine e).queue ≠ [])
    || ((List.range 4).any fun e =>
        let n := (es.filter fun p => p.1 = e).length
        n ≠ 0 && (x.engine e).queue.length + n > 32)
    || (let y := es.foldl (pushEntry 0) x
        y.held' > 64 && y.held' ≠ x.held')
    || (match b.mem with | some m => m.private_ && m.blocked x | none => false)

/-! ## The global read cache (R71, R121) -/

/-- The lines a load needs. -/
def loadLines (op : Nat) (a : W64) : List Nat :=
  let l := a.toNat / 64
  let h := (a.toNat + Mem.size op - 1) / 64
  if l = h then [l] else [l, h]

def lineOf (x : Tile) (l : Nat) : Option (List PByte) := (x.cache.find? fun c => c.1 == l).map (·.2)

/-- The bytes of a load whose lines are all held. -/
def cacheBytes (x : Tile) (op : Nat) (a : W64) : Option (List PByte) :=
  let ls := (loadLines op a).map (lineOf x)
  if ls.all Option.isSome then
    some (((ls.flatMap fun l => l.getD []).drop (a.toNat % 64)).take (Mem.size op))
  else none

/-- Hold a line; with 128 held, one of them goes, and which one is open (R111). -/
def holdLine (pick l : Nat) (bs : List PByte) (cache : List (Nat × List PByte)) : List (Nat × List PByte) :=
  let kept := if cache.length < 128 then cache else cache.eraseIdx (pick % 128)
  kept ++ [(l, bs)]

/-- A CC access that the partition may not make (R119, R184). -/
def ccDenied (s : State) (t : Nat) (m : Mem) (x : Tile) : Bool :=
  match resolve s .cc (tilePart s t) (m.address x) (Mem.size m.op) with
  | .ok (.near _) => false
  | _ => true

/-! ## Issue -/

/-- A tile on which nothing happens: it does not run, its command's re-execution is due (R397), or a job fault awaits the
clean restart. -/
def frozen (s : State) (t : Nat) : Bool :=
  !(tileAt s t).running || s.faults.jobFault.isSome || ((tileAt s t).cmd.bind (cmdAt s)).any (·.due.isSome)

/-- The opcode of the command that runs a tile. -/
def tileOp (s : State) (t : Nat) : Nat := (((tileAt s t).cmd.bind (cmdAt s)).map (·.opcode)).getD 0

/-- Word index of the walk routine (R287). -/
def walkWord : Nat := 0x3C00

/-- The results of a bundle's ALU, branch and private load slots. -/
def Bundle.results (b : Bundle) (x : Tile) : List Landing :=
  let n := x.beats
  (b.alus.map fun a => ⟨n + a.2.latency, a.1, a.2.d, a.2.value x⟩)
    ++ (match b.mem with
      | some m => if m.op ≤ 2 then
          [⟨n + 2, 2, m.d, loadValue m.op (memRead x.priv (m.address x).toNat (Mem.size m.op))⟩] else []
      | none => [])
    ++ (match b.branch with
      | some r =>
        if r.op = 5 then [⟨n + 1, 3, 31, BitVec.ofNat 64 (x.pc + b.words)⟩]
        else if r.op = 7 then [⟨n + 1, 3, r.c, x.reg r.c - 1⟩] else []
      | none => [])

/-- A global load: its result lands in two beats on a hit, and the core freezes on a miss (R70, R71). -/
def globalLoad (m : Mem) (x : Tile) : Tile :=
  let a := m.address x
  match cacheBytes x m.op a with
  | some bs => { x with landing := x.landing ++ [⟨x.beats + 2, 2, m.d, loadValue m.op (bs.map (·.1))⟩] }
  | none => { x with miss := some ⟨m.op, x.beats, m.d, a⟩ }

/-- What a bundle does once it issues: its slots read the registers as they are, its results are set to land, its
words enter the queues, its store takes effect, and IDLE beats follow (R115, R117, R122, R123). -/
def Bundle.issue (b : Bundle) (x : Tile) : Tile :=
  let rs := b.results x
  let y := (b.entries x).foldl (pushEntry x.beats) { x with landing := x.landing ++ rs }
  let y := match b.mem with
    | some m =>
      if m.isStore then
        { y with priv := memWrite y.priv (m.address x).toNat (toLe (Mem.size m.op) (x.reg m.d).toNat) }
      else if m.isGlobal then globalLoad m y
      else if m.op = 0xC then { y with cache := [] } else y
    | none => y
  let pc := match b.branch with
    | some r => (r.next x).getD (x.pc + b.words)
    | none => x.pc + b.words
  { y with pc := pc, halted := (b.branch.any Branch.isHalt), beats := x.beats + 1 + b.idle,
           mx := if bit b.sync 0 then y.mx.loadDone else y.mx }

/-- The poisoned words of a load that hits: they are read as poisoned once more, each with the class and the home of its
word (R393, R411, R502). -/
def hitGot (s : State) (t : Nat) (b : Bundle) (x : Tile) : Got :=
  match b.mem with
  | some m =>
    let a := (m.address x).toNat
    let bs := if m.isGlobal then (cacheBytes x m.op (m.address x)).getD [] else []
    (((bs.zipIdx a).filter (·.1.2)).map fun p => p.2 / 8).eraseDups.foldl (fun g w =>
      match resolve s .cc (tilePart s t) (BitVec.ofNat 64 (8 * w)) 8 with
      | .ok (.near (p :: _)) => g.append (poisonGot s p.1)
      | _ => g) {}
  | none => {}

/-- One bundle of a running tile. -/
def issueBundle (t : Nat) (s : State) : State :=
  let x := (tileAt s t).land
  let fault (e : Nat) (s : State) : State := noteJobFault (0, t, e) x.cmd s
  let inside (w : Nat) : Bool := w < x.codeWords || (w = walkWord && tileOp s t = 0x0406)
  match readBundle x x.pc with
  | none => fault 4 s
  | some b =>
    match b.bad x inside with
    | some e => fault e s
    | none =>
    if (match b.mem with
      | some m => (m.private_ && !m.privOk x) || (m.isGlobal && ccDenied s t m x)
      | none => false) then fault 4 s
    else if b.waits x then s
    else charge x.cmd (hitGot s t b x) (setTile s t (b.issue x))

/-! ## CC_RESULT_LAND, READ_CACHE_FILL -/

/-- A tile program times out (R39): the job fault is placed at the lowest-numbered tile of its command that has not
finished (R502). -/
def programTimeout (cmd : Option Nat) (s : State) : State :=
  let ts := ((cmd.bind (cmdAt s)).map (·.tiles)).getD []
  noteJobFault (0, (ts.find? fun t => (tileAt s t).running).getD 0, 4) cmd s

/-- CC_RESULT_LAND: results whose latency has passed land. While a miss freezes the core no latency advances, so that
what lands after the missing load's result does so once the core goes on (R71). -/
def execCcResultLand (tile : Nat) (s : State) : Out :=
  onUnit 512 tile s fun s => whenRunning s fun s =>
    if frozen s tile || (tileAt s tile).miss.isSome then s else setTile s tile (tileAt s tile).land

/-- One line arrives: its words are read, and those the load uses are counted. -/
def fillLine (t l : Nat) (p : Pending) (s : State) : State :=
  let part := tilePart s t
  match resolve s .cc part (BitVec.ofNat 64 (64 * l)) 64 with
  | .ok (.near ps) =>
    if reachOf s (.core t) ps = .dead then programTimeout (tileAt s t).cmd s
    else if reachOf s (.core t) ps = .wait then noteWaits (.core t) ps s else
    let r := getPieces false ps (noteWaits (.core t) ps s)
    let lo := max p.address.toNat (64 * l)
    let n := min (p.address.toNat + Mem.size p.op) (64 * l + 64) - lo
    let used := match resolve r.2 .cc part (BitVec.ofNat 64 lo) n with
      | .ok (.near q) => (getPieces false q r.2).1
      | _ => {}
    let x := tileAt r.2 t
    let s := setTile r.2 t { x with cache := holdLine (Config.cacheVictim s.free) l r.1.data x.cache }
    charge x.cmd used { s with free := s.free + 1 }
  | _ => noteJobFault (0, t, 4) (tileAt s t).cmd s

/-- The frozen core goes on: the load's result lands at the beat it would have landed on a hit. -/
def Tile.resume (x : Tile) (p : Pending) (bs : List PByte) : Tile :=
  let r : Landing := ⟨p.beat + 2, 2, p.reg, loadValue p.op (bs.map (·.1))⟩
  { x with miss := none, landing := x.landing ++ [r] }

/-- READ_CACHE_FILL: a missing line arrives; with the last one the load's result is set to land at the beat it would
have landed on a hit, and the core goes on (R71). -/
def cacheFill (t : Nat) (s : State) : State :=
  match (tileAt s t).miss with
  | none => s
  | some p =>
    match (loadLines p.op p.address).find? fun l => (lineOf (tileAt s t) l).isNone with
    | none => s
    | some l =>
      let s := fillLine t l p s
      let x := tileAt s t
      match cacheBytes x p.op p.address with
      | some bs => setTile s t (x.resume p bs)
      | none => s

def execReadCacheFill (tile : Nat) (s : State) : Out :=
  onUnit 512 tile s fun s => whenRunning s fun s => if frozen s tile then s else cacheFill tile s

end Sys2Proof.Machine
end

