-- ==== Sys2Proof/Machine/Walk.lean ====
section
/-!
DEFINITION. The page-table walk (10 R287-R289): firmware's routine at word 0x3C00 of a tile that a STEP-RUN runs. Each
step visits one entry; a group that ends enters the DX queue as one DDESC. Then BUNDLE_ISSUE.
-/

namespace Sys2Proof.Machine

/-- The call's register c4 + k. -/
def Walk.arg (w : Walk) (k : Nat) : Nat := (w.call[k]?.getD 0).toNat

/-- The walk that a call starts, with the registers c4 to c13 as they stand. -/
def startWalk (x : Tile) : Walk :=
  let call := (List.range 10).map fun k => x.reg (4 + k)
  { call := call, out := (call[6]?.getD 0).toNat }

/-- Slots of a call's slot mask. -/
def Walk.slots (w : Walk) : Nat := ((List.range 8).filter fun k => bit (w.arg 3) k).length

/-- Bytes of a group's partial records (R254). -/
def Walk.groupBytes (w : Walk) (d : PoolDesc) : Nat := w.slots * (16 + 4 * d.D)

/-- The binary32 +∞ that skips scoring. -/
def posInf32 : Nat := 0x7F800000

/-- The ATTN-FULL descriptor of an entry (R288), its CONTINUE and FINAL flags still clear. -/
def walkDesc (w : Walk) (d : PoolDesc) (decay e : Nat) : List Byte :=
  let ref := w.arg 8 % 2 ^ 32
  toLe 8 (homeAddr (pageKey (entPage e))) ++ [1, if ref = posInf32 then 0 else 1, BitVec.ofNat 8 d.format,
    BitVec.ofNat 8 d.geometry, BitVec.ofNat 8 (w.arg 3), BitVec.ofNat 8 (w.arg 3 / 256), BitVec.ofNat 8 (w.arg 3 / 65536),
    BitVec.ofNat 8 (w.arg 2)] ++ toLe 2 (w.arg 1) ++ toLe 2 decay ++ toLe 4 (w.arg 7) ++ toLe 4 (w.arg 4) ++ toLe 4 ref
    ++ toLe 16 (2 ^ (entPresent e + 1) - 1) ++ toLe 8 (w.arg 5) ++ zeros 8

/-- An entry that the routine skips (R289). -/
def walkSkips (s : State) (p e : Nat) : Bool :=
  let k := entStack e
  !entValid e || !pimStack s k || (stackAt s k).failed || !(partStacks s p).contains k
    || entPage e % 512 < (stackAt s k).boundary || !recLive p (entRecord e) s

/-- Set a flag bit of a descriptor. -/
def setDescFlag (b : Nat) (d : List Byte) : List Byte :=
  d.take 9 ++ [(d[9]?.getD 0) ||| BitVec.ofNat 8 (2 ^ b)] ++ d.drop 10

/-- A group's descriptors: CONTINUE on all but the last, FINAL on the last where the pair has one group only. -/
def groupDescs (final : Bool) (ds : List (List Byte)) : List (List Byte) :=
  (ds.zipIdx 1).map fun d =>
    if d.2 < ds.length then setDescFlag 1 d.1 else if final then setDescFlag 2 d.1 else d.1

/-- Put the group of a walk into the DX queue as one DDESC; none while the queue or the scoreboard has no room. -/
def emitGroup (x : Tile) (w : Walk) (d : PoolDesc) (final : Bool) : Option Tile :=
  let n := w.groupBytes d
  if x.dx.queue.length ≥ 32 || x.held' + 2 > 64 then none else
  let word := 0x15 * 2 ^ 120 + 2 ^ 104 * w.group.length + 15 * 2 ^ 100 + 14 * 2 ^ 96 + 65536 * (n % 65536) + w.stack
  let area := w.arg 9
  let en : Entry :=
    { id := x.nextEntry, word := BitVec.ofNat 128 word, beat := x.beats
      regions := [⟨area, area + 4096, true⟩, ⟨w.out, w.out + n, true⟩]
      walk := (groupDescs final w.group).map fun b => (b, w.out) }
  let w' : Walk := { w with groups := w.groups + 1, out := w.out + n, group := [] }
  some { x with dx := { x.dx with queue := x.dx.queue ++ [en] }, nextEntry := x.nextEntry + 1, walk := some w' }

/-- What the routine leaves in an address register that it clobbers (R126, R287), from free values by place. -/
def clobbered (v : Nat → Nat) : AReg :=
  { base := v 0 % 2 ^ 23, s0 := signed 22 (v 1 % 2 ^ 22), s1 := signed 22 (v 2 % 2 ^ 22), s2 := signed 22 (v 3 % 2 ^ 22),
    w0 := v 4 % 65536, w1 := v 5 % 65536, w2 := v 6 % 65536, i0 := v 7 % max 1 (v 4 % 65536), i1 := v 8 % max 1 (v 5 % 65536),
    i2 := v 9 % max 1 (v 6 % 65536) }

/-- The routine ends: c4 and c5 hold its counts; c6 to c15, A14, A15 of DX and the work area hold nothing defined
(R287); it returns to the word in c31. A result that was in flight at the CALL lands in the routine's beats, before the
routine leaves its own (R74). -/
def endWalk (t : Nat) (x : Tile) (w : Walk) (s : State) : State :=
  let free := s.free
  let junk (k : Nat) : W64 := Config.walkLeaves free k
  let x := Tile.land { x with beats := x.beats + Config.walkBeats w.place }
  let regs := (List.range 10).foldl (fun rs k => putReg rs (6 + k) (junk (6 + k))) x.regs
  let regs := putReg (putReg regs 4 (BitVec.ofNat 64 w.groups)) 5 (BitVec.ofNat 64 w.skipped)
  let areg (k : Nat) : AReg := clobbered fun j => (junk (10000 + 10 * k + j)).toNat
  let dx := { x.dx with aregs := tabSet {} (tabSet {} x.dx.aregs 14 (areg 14)) 15 (areg 15) }
  let s := setTile { s with free := free + 1 } t
    { x with regs := regs, dx := dx, walk := none, pc := (x.reg 31).toNat }
  let area := w.arg 9
  let s := if area + 4096 ≤ 0x380000 && area % 64 = 0 then
      putTile (2 ^ 22 * t + area) (clean ((List.range 4096).map fun i => (junk (256 + i)).setWidth 8)) s
    else s
  match tilePart s t with
  | some p => setPool s p { poolAt s p with walkSkips := satAdd (poolAt s p).walkSkips w.skipped }
  | none => s

/-- Emit the group of a walk, or wait for room. -/
def flushGroup (t : Nat) (x : Tile) (w : Walk) (d : PoolDesc) (final : Bool) (s : State) : State :=
  setTile s t ((emitGroup x w d final).getD { x with walk := some w })

/-- An entry in hand joins the group, or ends the group of another stack first. -/
def placeEntry (t : Nat) (x : Tile) (w : Walk) (d : PoolDesc) (decay e : Nat) (s : State) : State :=
  if w.group ≠ [] && w.stack ≠ entStack e then flushGroup t x { w with entry := some e } d false s
  else setTile s t { x with walk := some { w with
    place := w.place + 1, entry := none, stack := entStack e, group := w.group ++ [walkDesc w d decay e] } }

/-- What a visit reads of the pool: the entry, its record, the layer's decay, and first of all the table's header. -/
def walkPieces (x : Tile) (w : Walk) (p : Nat) (tab : PTab) (pair e : Nat) (s : State) : List (Home × Nat) :=
  (if x.walk.isNone then viewPieces p tab.off 64 s else []) ++ viewPieces p (tab.entOff pair w.place) 8 s
    ++ (if entValid e && entRecord e < (poolAt s p).desc.count then recPieces p [entRecord e] s else [])
    ++ viewPieces p ((poolAt s p).desc.decay + 2 * w.arg 1) 2 s

/-- A core's access waits at blocked banks, and charges what it reads (R212, R263). -/
def coreReads (t : Nat) (ps : List (Home × Nat)) (s : State) (go : State → State) : State :=
  match reachOf s (.core t) ps with
  | .go => go (readCharged false (tileAt s t).cmd ps (noteWaits (.core t) ps s)).2
  | .wait => noteWaits (.core t) ps s
  | .dead => programTimeout (tileAt s t).cmd s

/-- One visit of the routine: it reads the entry at its place, once (R293), or ends. -/
def walkStep (t : Nat) (s : State) : State :=
  let x := (tileAt s t).land
  let w := x.walk.getD (startWalk x)
  match tilePart s t, requestAt s (w.arg 0) with
  | some p, some r =>
    let d := (poolAt s p).desc
    let tab := readTab p r.table s
    let pair := w.arg 1 * d.heads + w.arg 2
    if r.part ≠ p || !(poolAt s p).accepted || d.layers ≤ w.arg 1 || d.heads ≤ w.arg 2 then endWalk t x w s
    else match w.entry with
    | some e => placeEntry t x w d (leNat (peek p (d.decay + 2 * w.arg 1) 2 s)) e s
    | none =>
      if tab.used ≤ w.place then
        (if w.group = [] then endWalk t x w s else flushGroup t x w d (w.groups = 0) s)
      else
        let e := tab.get pair w.place s
        coreReads t (walkPieces x w p tab pair e s) s fun s =>
          if walkSkips s p e then setTile s t { x with walk := some { w with place := w.place + 1, skipped := w.skipped + 1 } }
          else placeEntry t x w d (leNat (peek p (d.decay + 2 * w.arg 1) 2 s)) e s
  | _, _ => endWalk t x w s

/-- BUNDLE_ISSUE: the next bundle of a tile's program, or one visit of the walk routine it has called. -/
def execBundleIssue (tile : Nat) (s : State) : Out :=
  onUnit 512 tile s fun s => whenRunning s fun s =>
    let x := tileAt s tile
    if frozen s tile || x.halted || x.miss.isSome then s
    else if x.pc = walkWord && tileOp s tile = 0x0406 then walkStep tile s
    else issueBundle tile s

end Sys2Proof.Machine
end

