-- ==== Sys2Proof/Machine/Engines.lean ====
section
/-!
DEFINITION. The engines MX, VX and SX (05 R126-R140): one repeat of the instruction at the head of a queue, its operands
in every format, conversion and poison, the plausibility checks of its destination (14 R402, R403), set-up instructions,
completion.
-/

namespace Sys2Proof.Machine

/-! ## Local memory of a tile -/

/-- The start of a tile's window in the home keys. -/
def tileKey (t a : Nat) : Nat := 2 ^ 22 * t + a

/-- Bytes of a tile's local memory, private data memory included, which holds no poison. -/
def localRead (t a n : Nat) (line : Bool) (s : State) : Got :=
  if 0x380000 ≤ a then { data := clean (memRead (tileAt s t).priv (a - 0x380000) n) } else getTile line (tileKey t a) n s

def localWrite (t a : Nat) (bs : List PByte) (s : State) : State :=
  if 0x380000 ≤ a then
    let x := tileAt s t
    setTile s t { x with priv := memWrite x.priv (a - 0x380000) (bs.map (·.1)) }
  else putTile (tileKey t a) bs s

/-- A range inside one local range of R111, at an operand address that is a multiple of 4 (R112, R128). -/
def localOk (e : Nat) (a : Int) (h : Nat × Nat) : Bool :=
  let lo := a + h.1
  let hi := a + h.2
  0 ≤ a && a % 4 = 0 && 0 ≤ lo && (hi ≤ 0x300000 || (0x300000 ≤ lo && hi ≤ 0x380000)
    || (e = 3 && 0x380000 ≤ lo && hi ≤ 0x384000))

/-- The reader of a tile's scratchpad and accumulators. -/
def tileReader (s : State) (t : Nat) : Reader := fun a n => (getTile false (tileKey t a.toNat) n s).data

/-- Charge the words an operand's runs hold. -/
def chargeSpans (t a : Nat) (spans : List (Nat × Nat)) (cmd : Option Nat) (s : State) : State :=
  spans.foldl (fun s p => charge cmd (getTile false (tileKey t (a + p.1)) p.2 s) s) s

/-! ## Operands in a format -/

/-- The elements of block `k` of a block-format operand. -/
def readBlock (f : Fmt) (rd : Reader) (org k : Int) : List Val :=
  let p := f.blockAt org k
  let area := rd p.2 (if f.isMz then f.unitBytes else f.block * f.width / 8)
  let scale := if f.isMz then [] else rd p.1 f.scaleBytes
  let head := if f.isMz then 4 else 0
  let all := scale.any (·.2) || (f.isMz && (area.take 4).any (·.2))
  let bad (i : Nat) : Bool := ((area.drop (head + i * f.width / 8)).take ((i * f.width % 8 + f.width + 7) / 8)).any (·.2)
  ((f.decBlock (leNat (scale.map (·.1))) (area.map (·.1))).zipIdx 0).map fun x => ⟨0, x.1, all || bad x.2⟩

/-- `n` elements of an operand at address `a`, from block `b` of its group (R130). -/
def readOp (f : Fmt) (rd : Reader) (a : Int) (b n : Nat) : List Val :=
  if f.blocked then
    ((List.range (f.blocks n)).flatMap fun (k : Nat) => readBlock f rd a (b + k)).take n
  else
    let bs := rd a ((n * f.width + 7) / 8)
    let raw := bs.map (·.1)
    (List.range n).map fun i =>
      let v := bitsAt raw (f.width * i) f.width
      ⟨v, f.elem v, ((bs.drop (i * f.width / 8)).take ((i * f.width % 8 + f.width + 7) / 8)).any (·.2)⟩

/-- Cut a list into pieces of `n`, the last filled up with `z`. -/
def padTo {α : Type} (n : Nat) (z : α) : Nat → List α → List (List α)
  | 0, _ => []
  | k + 1, xs => ((xs.take n) ++ List.replicate (n - min n xs.length) z) :: padTo n z k (xs.drop n)

/-- A value to write: its number and whether it is poisoned. -/
abbrev PVal := Fp × Bool

/-- Encode blocks from block `k` on: the runs to write with their offsets, and the LFSR (R93, R96, R98, R101). A block
with a poisoned element is poisoned whole. -/
def encodeBlocks (f : Fmt) (mode : Mode) : List (List PVal) → Nat → W32 → List (Int × List PByte) × W32
  | [], _, s => ([], s)
  | xs :: rest, k, s =>
    let ss := draws mode.rnd s xs.length
    let b := f.encBlock mode ss (xs.map (·.1))
    let bad := xs.any (·.2)
    let mark (bs : List Byte) : List PByte := bs.map fun v => (v, bad)
    let p := f.blockAt 0 k
    let r := encodeBlocks f mode rest (k + 1) (ss.getLastD s)
    ((if f.isMz then [(p.2, mark b.area)] else [(p.1, mark (toLe f.scaleBytes b.scale)), (p.2, mark b.area)]) ++ r.1, r.2)

/-- Encode an operand (R89, R90, R130). -/
def encodeOp (f : Fmt) (b : Nat) (mode : Mode) (s : W32) (xs : List PVal) : List (Int × List PByte) × W32 :=
  if f.blocked then encodeBlocks f mode (padTo f.block (.fin false 0 0, false) (f.blocks xs.length) xs) b s
  else
    let ss := draws mode.rnd s xs.length
    let bad (i : Nat) : Bool := (xs.zipIdx 0).any fun x =>
      x.1.2 && x.2 * f.width / 8 ≤ i && i ≤ (x.2 * f.width + f.width - 1) / 8
    ([(0, ((f.encFlat mode ss (xs.map (·.1))).zipIdx 0).map fun v => (v.1, bad v.2))], ss.getLastD s)

/-- The bytes that hold element `i` of an operand at `a`: first and last. -/
def elemBytes (f : Fmt) (a b i : Nat) : Nat × Nat :=
  let at1 := (f.byteOf ⟨a, b * f.block + i⟩).toNat
  if f.blocked then
    let k := (b * f.block + i) % f.block * f.width
    (at1, at1 + (k % 8 + f.width - 1) / 8)
  else (a + i * f.width / 8, a + (i * f.width + f.width - 1) / 8)

/-! ## Plausibility (R402, R403) -/

/-- The bytes from `lo` to `hi` lie in an entry's range. -/
def Guard.holds (g : Guard) (b : Nat × Nat) : Bool := g.start ≤ b.1 && b.2 < g.start + g.length

/-- |v| exceeds a binary32 bound. -/
def overBound (v : Fp) (bound : W32) : Bool := (dec32 bound).lt v.abs

/-- The square of the L2 norm exceeds the square of a bound. -/
def overNorm (vs : List Fp) (bound : W32) : Bool :=
  let b := dec32 bound
  let sq := vs.foldl (fun a v => a.add (v.mul v)) (.fin false 0 0)
  if b.lt (.fin false 0 0) then !sq.isNan else (b.mul b).lt sq

/-- No entry: the result word of R403. -/
def noEntry : Nat := 2 ^ 64 - 1

/-- The lowest entry number that satisfies `p`. -/
def guardNumber (gs : List Guard) (p : Guard → Bool) : Option Nat := gs.findIdx? p

/-- A failing NaN or infinity at some bytes: not covered by an entry with INF_OK. -/
def badNumber (gs : List Guard) (x : (Nat × Nat) × Fp) : Bool :=
  !x.2.isFin && !gs.any fun g => g.checks.getLsbD 3 && g.holds x.1

/-- A softmax row sum outside 1 - 2^-8 to 1 + 2^-8. -/
def badSum (v : Fp) : Bool := !(!(v.lt (.fin false 255 (-8))) && !((Fp.fin false 257 (-8)).lt v) && !v.isNan)

/-- The lowest failing check of some written elements: its code and entry. `exempt` are those that only ABS is tested on,
since they may hold an infinity (R402); `softmax` holds for a VREDSUM result. -/
def failing (gs : List Guard) (els exempt : List ((Nat × Nat) × Fp)) (softmax norm : Bool) : Option (Nat × Nat) :=
  match guardNumber gs fun g => g.checks.getLsbD 0 && (els ++ exempt).any fun x => g.holds x.1 && overBound x.2 g.bound with
  | some n => some (1, n)
  | none =>
    let bad := els.filter (badNumber gs)
    if bad ≠ [] then some (2, (guardNumber gs fun g => bad.any fun x => g.holds x.1).getD noEntry)
    else match guardNumber gs fun g => softmax && g.checks.getLsbD 1 && els.any fun x => g.holds x.1 && badSum x.2 with
      | some n => some (3, n)
      | none =>
        (guardNumber gs fun g => norm && g.checks.getLsbD 2 && els.any (fun x => g.holds x.1)
          && overNorm (els.map (·.2)) g.norm).map fun n => (4, n)

/-- Give the record that a report has just written the tag of a guard-band entry (R404). -/
def tagRecord (number : Nat) (tag : Option W64) (s : State) : State :=
  { s with faults := { s.faults with
      records := updWhere (·.number == number) (fun r => { r with guardTag := tag }) s.faults.records } }

/-- Report a failed check: the command ends with PLAUSIBILITY (R403). -/
def implausible (gs : List Guard) (loc : Nat × Nat × Nat) (cmd : Option Nat) (f : Option (Nat × Nat)) (s : State) : State :=
  match f with
  | none => s
  | some p =>
    let s := tagRecord s.faults.next (gs[p.2]?.map (·.tag)) (report 8 loc cmd 1 s)
    match cmd with
    | some c => updCmd c (addPlausible p.1 p.2) s
    | none => s

/-- Check the elements an engine has just written, as they read now; poisoned ones hold no value. -/
def checkWritten (t e : Nat) (f : Fmt) (a b n : Nat) (softmax norm : Bool) (s : State) : State :=
  let x := tileAt s t
  let vs := readOp f (tileReader s t) a b n
  let els := ((vs.zipIdx 0).filter fun v => !v.1.bad).map fun v => (elemBytes f a b v.2, v.1.num)
  implausible x.guards (0, t, e) x.cmd (failing x.guards els [] softmax norm) s

/-! ## Running the head of a queue -/

/-- The entry at the head of an engine's queue. -/
def headOf (s : State) (t e : Nat) : Option Entry := ((tileAt s t).engine e).queue.head?

/-- Change the head entry of an engine, and the engine. -/
def updHead (t e : Nat) (f : Entry → Entry) (g : Engine → Engine) (s : State) : State :=
  let x := tileAt s t
  let en := x.engine e
  let q := match en.queue with
    | h :: rest => f h :: rest
    | [] => []
  setTile s t (x.setEngine e (g { en with queue := q }))

/-- A fault of the instruction an engine runs (R136, R419). -/
def engFault (t e : Nat) (s : State) : State := noteJobFault (0, t, e) (tileAt s t).cmd s

/-- One repeat is done: the named registers advance, the beats count, and the last repeat finishes the instruction. -/
def repDone (t e beats : Nat) (s : State) : State :=
  updHead t e (fun h => { h with
      done := h.done + 1, sent := false, stage := 0, fetched := [], tainted := [], blocks := [],
      finished := h.done + 1 ≥ (Ins.of h.word).rep })
    (fun en => match en.queue with
      | h :: _ =>
        let i := Ins.of h.word
        match formOf e i.op with
        | some f => { en with aregs := advanceAll 1 (f.names i) en.aregs, beats := en.beats + beats }
        | none => en
      | [] => en) s

/-- Whether an engine of a tile may issue: MX only while its die's gate is open (R76, R451, R455), in the first n of every 64
slots of 20 ns (R451 does not say which n: DESIGN CHOICE, log 72). -/
def issues (s : State) (tile e : Nat) : Bool := e ≠ 0 || now s / 20 % 64 < gateOpen s (tile / 256)

/-- A row of an engine: it acts while its instruction is at the head of the queue, not finished, with a repeat left, and
no older region of another engine stands against it. -/
def onHead (tile e op : Nat) (s : State) (f : Ins → Entry → State → State) : Out :=
  onUnit 512 tile s fun s => whenRunning s fun s =>
    if frozen s tile || !issues s tile e then s else
    match headOf s tile e with
    | some h =>
      let i := Ins.of h.word
      if i.op = op && !h.finished && h.done < i.rep && startable (tileAt s tile) e h then f i h s else s
    | none => s

/-- The address an operand's register names now. -/
def opAddress (s : State) (t e r : Nat) : Int := (aregAt ((tileAt s t).engine e).aregs r).address

/-- Every local operand of the repeat lies in a local range, the address of one without bytes too (R112, R128). -/
def operandsOk (s : State) (t e : Nat) (i : Ins) : Bool :=
  (operandsOf (tileAt s t).slots e i).all fun o =>
    localOk e (opAddress s t e o.reg) (if o.spans = [] then (0, 1) else hullOf o.spans)

/-- Run a repeat of an engine on local operands, or fault on an operand outside them. -/
def onLocal (t e : Nat) (i : Ins) (s : State) (f : State → State) : State :=
  if operandsOk s t e i then f s else engFault t e s

/-- Read a source operand and charge its words. -/
def source (t e r code b n : Nat) (s : State) : List Val × State :=
  let a := (opAddress s t e r).toNat
  match formatOf (tileAt s t).slots code with
  | some f => (readOp f (tileReader s t) a b n, chargeSpans t a (f.spans b n) (tileAt s t).cmd s)
  | none => ([], s)

/-- Convert and write a destination operand, then check it. -/
def destination (t e : Nat) (i : Ins) (xs : List PVal) (s : State) : State :=
  let a := (opAddress s t e i.ad).toNat
  match formatOf (tileAt s t).slots i.fd with
  | none => s
  | some f =>
    let r := encodeOp f i.bd i.mode ((tileAt s t).engine e).lfsr xs
    let s := r.1.foldl (fun s w => localWrite t (a + w.1.toNat) w.2 s) s
    let s := updHead t e id (fun en => { en with lfsr := r.2 }) s
    checkWritten t e f a i.bd xs.length (e = 1 && i.op = 0x1A) true s

/-! ## Set-up instructions (R126) -/

/-- The head set-up instruction of an engine is done. -/
def setupDone (t e : Nat) (g : Engine → Engine) (s : State) : State := updHead t e (fun h => { h with finished := true }) g s

/-- A row of a set-up instruction. -/
def onSetup (tile e : Nat) (ops : List Nat) (s : State) (f : BitVec 128 → Engine → Engine) : Out :=
  onUnit 512 tile s fun s => whenRunning s fun s =>
    if frozen s tile || 4 ≤ e then s else
    match headOf s tile e with
    | some h => if ops.contains (Ins.of h.word).op && !h.finished then setupDone tile e (f h.word) s else s
    | none => s

/-- ASET, and an ABASE that has reached the head of its queue. -/
def execAset (tile engine : Nat) (s : State) : Out :=
  onSetup tile engine [1, opAbase] s fun w en => { en with aregs := setupRegs w en.aregs }

def execAwrap (tile engine : Nat) (s : State) : Out :=
  onSetup tile engine [2] s fun w en => { en with aregs := setupRegs w en.aregs }

def execSeed (tile engine : Nat) (s : State) : Out :=
  onSetup tile engine [3] s fun w en =>
    let v : W32 := w.setWidth 32
    { en with lfsr := if v = 0 then 1 else v }

/-- DGSET, and a GBASE that has reached the head of the DX queue. -/
def execDgset (tile : Nat) (s : State) : Out :=
  onUnit 512 tile s fun s => whenRunning s fun s =>
    if frozen s tile then s else
    match headOf s tile 3 with
    | some h =>
      if (Ins.of h.word).op = 4 && !h.finished then
        let s := setupDone tile 3 id s
        let x := tileAt s tile
        setTile s tile { x with gbase := tabSet 0 x.gbase (bits h.word.toNat 119 118) (h.word.setWidth 64) }
      else s
    | none => s

/-! ## MX (R131, R107) -/

/-- An MWLOAD's beats run beside MMA and MDRAIN repeats: one beat of theirs hides one of the load's. -/
def mxBeat (en : Engine) : Engine := { en with load := en.load - 1 }

/-- A row as a weight buffer holds it: block after block, each its scale and then its area, or the row's bytes. -/
def bufferRow (f : Fmt) (rd : Reader) (a b k : Nat) : List PByte :=
  if f.grouped then
    (List.range (f.blocks k)).flatMap fun (j : Nat) =>
      let p := f.blockAt a (b + j)
      rd p.1 f.scaleBytes ++ rd p.2 (f.block * f.width / 8)
  else (f.spans 0 k).flatMap fun p => rd ((a + p.1 : Nat) : Int) p.2

def execMwload (tile : Nat) (s : State) : Out :=
  onHead tile 0 0x10 s fun i _ s => onLocal tile 0 i s fun s =>
    let k := kCode (bits i.flags 2 1)
    let a := (opAddress s tile 0 i.as_).toNat
    match formatOf (tileAt s tile).slots i.fs with
    | none => s
    | some f =>
      let bs := (List.range 64).flatMap fun r => bufferRow f (tileReader s tile) (a + r * f.rowBytes k) i.bs k
      let s := chargeSpans tile a (tileSpans (tileAt s tile).slots i.fs i.bs k) (tileAt s tile).cmd s
      let w : Weights := { loaded := true, format := i.fs, k := k, bytes := bs }
      let s := repDone tile 0 0 s
      let s := updHead tile 0 id (fun en => { en.loadDone with load := 32, loading := i.flags % 2 }) s
      let x := tileAt s tile
      setTile s tile (if i.flags % 2 = 0 then { x with wbuf0 := w } else { x with wbuf1 := w })

/-- The elements of a row of a weight buffer. -/
def weightRow (f : Fmt) (w : Weights) (r : Nat) : List Val :=
  let len := w.bytes.length / 64
  let row := (w.bytes.drop (r * len)).take len
  if f.grouped then
    let area := f.block * f.width / 8
    ((List.range (f.blocks w.k)).flatMap fun j =>
      let blk := (row.drop (j * (f.scaleBytes + area))).take (f.scaleBytes + area)
      let scale := blk.take f.scaleBytes
      let bs := blk.drop f.scaleBytes
      let bad (i : Nat) : Bool := ((bs.drop (i * f.width / 8)).take ((i * f.width % 8 + f.width + 7) / 8)).any (·.2)
      ((f.decBlock (leNat (scale.map (·.1))) (bs.map (·.1))).zipIdx 0).map fun x => ⟨0, x.1, scale.any (·.2) || bad x.2⟩).take w.k
  else readOp f (fun a n => (row.drop a.toNat).take n) 0 0 w.k

/-- One accumulator after an MMA beat: products and old value summed exactly, rounded once (R107). -/
def accumulator (zero : Bool) (old : Val) (row weights : List Val) : PVal :=
  let sum := dot (row.map (·.num)) (weights.map (·.num))
  (dec32 (r32 (if zero then sum else sum.add old.num)), row.any (·.bad) || weights.any (·.bad) || (!zero && old.bad))

/-- Write binary32 values as they are. -/
def put32 (t a : Nat) (xs : List PVal) (s : State) : State :=
  localWrite t a (xs.flatMap fun x => (toLe 4 (r32 x.1).toNat).map fun b => (b, x.2)) s

def execMma (tile : Nat) (s : State) : Out :=
  onHead tile 0 0x11 s fun i _ s => onLocal tile 0 i s fun s =>
    let x := tileAt s tile
    let w := wbufAt x (i.flags % 2)
    match formatOf x.slots i.ft with
    | none => s
    | some f =>
      let zero := bit i.flags 1
      let a := (opAddress s tile 0 i.ad).toNat
      let row := source tile 0 i.as_ i.fs i.bs w.k s
      let old := if zero then (List.replicate 64 ⟨0, .fin false 0 0, false⟩, row.2) else source tile 0 i.ad 16 0 64 row.2
      let new := (old.1.zipIdx 0).map fun o => accumulator zero o.1 row.1 (weightRow f w o.2)
      let s := put32 tile a new old.2
      let s := updHead tile 0 id (fun en => if en.loading = i.flags % 2 then en.loadDone else mxBeat en) s
      repDone tile 0 1 s

def execMdrain (tile : Nat) (s : State) : Out :=
  onHead tile 0 0x12 s fun i _ s => onLocal tile 0 i s fun s =>
    let a := (opAddress s tile 0 i.as_).toNat
    let src := source tile 0 i.as_ 16 0 64 s
    let s := if bit i.flags 0 then localWrite tile a (clean (zeros 256)) src.2 else src.2
    let s := destination tile 0 i (src.1.map fun v => (v.num, v.bad)) s
    repDone tile 0 1 (updHead tile 0 id mxBeat s)

/-! ## VX (R132, R133) -/

/-- A source element as binary32. Where its format reaches beyond binary32, R104 and R106 do not say how an engine brings
it there: the model rounds it to nearest even, whatever RND, and lets it overflow under the instruction's OVF (DESIGN
CHOICE, log 61). -/
def as32 (mode : Mode) (v : Val) : W32 := BitVec.ofNat 32 (binary32.enc { rnd := .even, inf := mode.inf } 0 v.num)

/-- One repeat of an elementwise VX operation on s, t and d. -/
def vxRepeat (t : Nat) (i : Ins) (two dst : Bool) (one : Bool) (beats : Nat) (op : W32 → W32 → W32 → W32) (s : State) : State :=
  let a := source t 1 i.as_ i.fs i.bs 64 s
  let b := if two then source t 1 i.at_ i.ft i.bt (if one then 1 else 64) a.2 else ([], a.2)
  let d := if dst then source t 1 i.ad i.fd i.bd 64 b.2 else ([], b.2)
  let nth (l : List Val) (k : Nat) : Val := (l[k]?).getD ⟨0, .fin false 0 0, false⟩
  let out := (a.1.zipIdx 0).map fun x =>
    let y := nth b.1 (if one then 0 else x.2)
    let z := nth d.1 x.2
    (dec32 (op (as32 i.mode x.1) (as32 i.mode y) (as32 i.mode z)), x.1.bad || y.bad || z.bad)
  repDone t 1 beats (destination t 1 i out d.2)

def vxRow (tile op : Nat) (two dst one : Bool) (f : Ins → W32 → W32 → W32 → W32) (s : State) : Out :=
  onHead tile 1 op s fun i _ s => onLocal tile 1 i s fun s => vxRepeat tile i two dst one 1 (f i) s

def execVadd (tile : Nat) (s : State) : Out := vxRow tile 0x10 true false false (fun _ a b _ => add32 a b) s
def execVsub (tile : Nat) (s : State) : Out := vxRow tile 0x11 true false false (fun _ a b _ => sub32 a b) s
def execVmul (tile : Nat) (s : State) : Out := vxRow tile 0x12 true false false (fun _ a b _ => mul32 a b) s
def execVfma (tile : Nat) (s : State) : Out := vxRow tile 0x13 true true false (fun _ a b d => fma32 a b d) s
def execVmax (tile : Nat) (s : State) : Out := vxRow tile 0x14 true false false (fun _ a b _ => max32 a b) s
def execVmin (tile : Nat) (s : State) : Out := vxRow tile 0x15 true false false (fun _ a b _ => min32 a b) s

/-- s × a + b with one rounding: a is binary32, b bfloat16. -/
def execVscale (tile : Nat) (s : State) : Out :=
  vxRow tile 0x16 false false false (fun i a _ _ =>
    fma32 a (BitVec.ofNat 32 i.imm) (BitVec.ofNat 32 (2 ^ 16 * bits i.imm 47 32))) s

def execVmulb (tile : Nat) (s : State) : Out := vxRow tile 0x18 true false true (fun _ a b _ => mul32 a b) s
def execVsubb (tile : Nat) (s : State) : Out := vxRow tile 0x19 true false true (fun _ a b _ => sub32 a b) s

/-- Repeats that VCVT completes in one beat (R132): by the wider of its two formats. -/
def cvtPerBeat (slots : Tab Slot) (i : Ins) : Nat :=
  let w (c : Nat) : Nat := match formatOf slots c with | some f => f.width | none => 32
  let m := max (w i.fd) (w i.fs)
  if m ≤ 8 then 4 else if m ≤ 16 then 2 else 1

def execVcvt (tile : Nat) (s : State) : Out :=
  onHead tile 1 0x17 s fun i h s => onLocal tile 1 i s fun s =>
    let beats := if h.done % cvtPerBeat (tileAt s tile).slots i = 0 then 1 else 0
    vxRepeat tile i false false false beats (fun a _ _ => a) s

/-- One repeat of a reduction (R133). -/
def vxReduce (t : Nat) (i : Ins) (f : W32 → W32 → W32) (s : State) : State :=
  let a := source t 1 i.as_ i.fs i.bs 64 s
  let r := treeReduce f (a.1.map (as32 i.mode))
  let bad := a.1.any (·.bad)
  let old := if bit i.flags 0 then source t 1 i.ad 16 0 1 a.2 else ([], a.2)
  let v : PVal := match old.1 with
    | o :: _ => (dec32 (f r (as32 i.mode o)), bad || o.bad)
    | [] => (dec32 r, bad)
  repDone t 1 1 (destination t 1 i [v] old.2)

def execVredsum (tile : Nat) (s : State) : Out :=
  onHead tile 1 0x1A s fun i _ s => onLocal tile 1 i s (vxReduce tile i add32)

def execVredmax (tile : Nat) (s : State) : Out :=
  onHead tile 1 0x1B s fun i _ s => onLocal tile 1 i s (vxReduce tile i max32)

/-! ## SX (R134) -/

/-- One repeat of f(s × p). -/
def sxRow (tile op : Nat) (f : W32 → W32) (s : State) : Out :=
  onHead tile 2 op s fun i _ s => onLocal tile 2 i s fun s =>
    let a := source tile 2 i.as_ i.fs i.bs 64 s
    let p : W32 := BitVec.ofNat 32 i.imm
    repDone tile 2 4 (destination tile 2 i (a.1.map fun v => (dec32 (f (mul32 (as32 i.mode v) p)), v.bad)) a.2)

def execSexp (tile : Nat) (s : State) : Out := sxRow tile 0x10 sxExp s
def execSlog (tile : Nat) (s : State) : Out := sxRow tile 0x11 sxLog s
def execSrsqrt (tile : Nat) (s : State) : Out := sxRow tile 0x12 sxRsqrt s
def execSrcp (tile : Nat) (s : State) : Out := sxRow tile 0x13 sxRecip s

/-- s × IMM[31:0] + sign-extended IMM[55:32], modulo 2^32, written as it is and not checked (R134, R402). -/
def execSidx (tile : Nat) (s : State) : Out :=
  onHead tile 2 0x14 s fun i _ s => onLocal tile 2 i s fun s =>
    let a := source tile 2 i.as_ 16 0 64 s
    let add := BitVec.ofInt 32 (signed 24 (bits i.imm 55 32))
    let out := a.1.flatMap fun v =>
      (toLe 4 (BitVec.ofNat 32 v.code * BitVec.ofNat 32 i.imm + add).toNat).map fun b => (b, v.bad)
    repDone tile 2 4 (localWrite tile (opAddress s tile 2 i.ad).toNat out a.2)

/-! ## Completion (R125, R139) -/

/-- Whether a descriptor, run or group of a DX entry is still at an SSQ (R267). -/
def descsOut (s : State) (t id : Nat) : Bool :=
  let mine (d : Desc) : Bool := d.dests.any fun x => x.tile = t && x.entry = id
  s.dram.any fun k => k.2.queue.any mine || k.2.groups.any (fun g => mine g.last)
    || k.2.banks.any fun b => match b.2.run with | some r => r.descs.any mine | none => false

/-- An entry that has completed: REPEAT 0, or finished with its writes made. A DFENCE waits for its DX's remote
writes; a DDESC for its outputs; a twin's leaving writes must have left (R194, R267, R406). -/
def entryDone (s : State) (t e : Nat) (h : Entry) : Bool :=
  let i := Ins.of h.word
  (0x10 ≤ i.op && i.rep = 0) ||
    (h.finished && h.awaiting = [] && !((e = 3) && (tileAt s t).leaving.any (·.entry = h.id))
      && !(e = 3 && i.op = 0x15 && descsOut s t h.id))

/-- ENGINE_INSTRUCTION_COMPLETE: the instruction at the head of a queue completes and releases its regions. -/
def execEngineInstructionComplete (tile engine : Nat) (s : State) : Out :=
  onUnit 512 tile s fun s => whenRunning s fun s =>
    if frozen s tile || 4 ≤ engine then s else
    match headOf s tile engine with
    | some h =>
      if entryDone s tile engine h then
        let x := tileAt s tile
        let en := x.engine engine
        setTile s tile (x.setEngine engine { en with queue := en.queue.drop 1 })
      else s
    | none => s

end Sys2Proof.Machine
end

