-- ==== Sys2Proof/Machine/Ssq.lean ====
section
/-!
DEFINITION. Descriptors (09 R244-R250, R259): their fields, what a stack sequencer checks of them, and how they form runs
and merge groups in its queue.
-/

namespace Sys2Proof.Machine

/-! ## Fields (R245, R259) -/

abbrev DescBytes := List Byte

def dTarget (b : DescBytes) : W64 := BitVec.ofNat 64 (field b 0 8)
def dFlight (b : DescBytes) : Nat := field b 8 1
def dFlags (b : DescBytes) : Nat := field b 9 1
def dFormat (b : DescBytes) : Nat := field b 10 1
def dGeometry (b : DescBytes) : Nat := field b 11 1
def dMask (b : DescBytes) : Nat := field b 12 1
def dGroup (b : DescBytes) : Nat := field b 13 1
def dGeneration (b : DescBytes) : Nat := field b 14 1
def dDecay (b : DescBytes) : Nat := field b 18 2
def dScale (b : DescBytes) : W32 := BitVec.ofNat 32 (field b 20 4)
def dBase (b : DescBytes) : Nat := field b 24 4
def dRef (b : DescBytes) : W32 := BitVec.ofNat 32 (field b 28 4)
def dPositions (b : DescBytes) : Nat := field b 32 16
def dQuery (b : DescBytes) : W64 := BitVec.ofNat 64 (field b 48 8)

/-- The slots of the slot mask, in increasing number. -/
def dSlots (b : DescBytes) : List Nat := (List.range 8).filter fun k => bit (dMask b) k

def dScoring (b : DescBytes) : Bool := bit (dFlags b) 0
def dContinues (b : DescBytes) : Bool := bit (dFlags b) 1
def dFinal (b : DescBytes) : Bool := bit (dFlags b) 2

/-- GEMV's rows, columns and row stride; the count of AXPY and REDUCE; ROW-ZERO's rows; PAGE-COPY's destination. -/
def dRows (b : DescBytes) : Nat := field b 16 2
def dColumns (b : DescBytes) : Nat := field b 18 2
def dStride (b : DescBytes) : Nat := field b 20 4
def dCount (b : DescBytes) : Nat := field b 16 4
def dFactor (b : DescBytes) : W32 := BitVec.ofNat 32 (field b 20 4)
def dOperation (b : DescBytes) : Nat := field b 20 1
def dCopyTo (b : DescBytes) : W64 := BitVec.ofNat 64 (field b 56 8)

/-- Head dimension, positions, page bytes of a geometry. -/
def dD (b : DescBytes) : Nat := geoD (dGeometry b)
def dP (b : DescBytes) : Nat := geoP (dGeometry b)
def dPageBytes (b : DescBytes) : Nat := 16384 * geoUnits (dGeometry b)

/-! ## The flight table (R242-R244) -/

/-- The entries 0 to 8 of the firmware's flight table: flags, banks, pound columns (ROW-ZERO's count rows), format codes
(R244). Their names and microcode are the image's. -/
def builtinFlights : List (Nat × Nat × Nat × List Nat) :=
  [(0x09, 1, 256, [0, 1, 10, 11]), (0x3F, 1, 256, [0, 1, 10, 11]), (0x03, 1, 256, [0]), (0x09, 1, 256, [0, 1, 10, 11]),
   (0x0B, 1, 128, [0, 1, 16]), (0x01, 1, 256, [0, 1, 10, 11, 16]), (0x03, 2, 256, [0]), (0x03, 1, 31, [0]), (0x01, 1, 256, [0])]

/-- The flight table that a firmware image loads (R242). -/
def flightTable (image : List Byte) : Tab FlightEntry :=
  (builtinFlights.zipIdx 0).map fun e =>
    let code := Config.flightCode image e.2
    (e.2, { name := Config.flightName image e.2, flags := BitVec.ofNat 8 e.1.1, banks := e.1.2.1, columns := e.1.2.2.1,
            formats := BitVec.ofNat 32 ((e.1.2.2.2.map (2 ^ ·)).sum), codeAt := code.1, codeBytes := code.2 })

def flightAt (s : State) (n : Nat) : FlightEntry := tabGet {} s.flights n

/-- Flags byte of the descriptors that an entry takes: SCORE, and CONTINUE and FINAL (R243, R246). -/
def FlightEntry.accepts (e : FlightEntry) : Nat := flag (e.flags.getLsbD 4) 0 + flag (e.flags.getLsbD 5) 1 + flag (e.flags.getLsbD 5) 2

/-! ## Sizes -/

/-- Bytes that `n` elements of a format take. -/
def elemsBytes (code n : Nat) : Nat :=
  match formatOf [] code with
  | some f => if f.isMz then (n + 31) / 32 * f.unitBytes else (n * f.width + 7) / 8
  | none => 0

/-- Bytes a flight writes at AD (R254, R258, R259). -/
def outputBytes (b : DescBytes) : Nat :=
  let n := (dSlots b).length
  match dFlight b with
  | 0 => 4 * dP b * n
  | 1 => n * (16 + 4 * dD b)
  | 3 => 4 * dRows b * n
  | 5 => 4
  | 8 => 8
  | _ => 0

/-- Bytes of a query block that a flight reads from its query address (R247): up to its highest slot. -/
def queryBytes (b : DescBytes) : Nat :=
  let top := (dSlots b).foldl (fun a k => max a (k + 1)) 0
  match dFlight b with
  | 0 | 1 => 2 * dD b * top
  | 3 => 2 * dColumns b * top
  | 4 => 2 * dCount b
  | _ => 0

/-- Bytes of the bank that a flight reads or writes from its target. -/
def targetBytes (b : DescBytes) : Nat :=
  match dFlight b with
  | 3 => (dRows b - 1) * dStride b + elemsBytes (dFormat b) (dColumns b)
  | 4 | 5 => elemsBytes (dFormat b) (dCount b)
  | 7 => 2048 * dCount b
  | _ => dPageBytes b

/-! ## The check of a descriptor (R246, R248, R259) -/

/-- The reserved fields of the layout are zero for its flight, its flags and codes are accepted. -/
def descFieldsOk (e : FlightEntry) (b : DescBytes) : Bool :=
  let g := dGeometry b
  let fl := dFlight b
  e.flags.getLsbD 0 && dFormat b < 32 && e.formats.getLsbD (dFormat b) && g < 32 && g % 4 ≠ 3 && g / 8 ≠ 3
    && dFlags b &&& e.accepts = dFlags b
    && (match fl with
      | 0 => dGroup b ≤ 8 && zeroIn b 56 64
      | 1 => dGroup b ≤ 8 && zeroIn b 56 64
      | 2 => zeroIn b 12 18 && zeroIn b 20 32 && zeroIn b 48 64
      | 3 => zeroIn b 13 16 && zeroIn b 24 48 && zeroIn b 56 64
      | 4 => zeroIn b 12 16 && zeroIn b 24 48 && zeroIn b 56 64
      | 5 => zeroIn b 12 16 && zeroIn b 21 64
      | 6 => zeroIn b 12 56
      | 7 => zeroIn b 12 16 && zeroIn b 20 64
      | _ => zeroIn b 12 64)
    && (2 < fl || dPositions b < 2 ^ dP b)

/-- The conditions on a flight's fields (R246, R259), with the DDESC's IMM[31:16]. -/
def descRulesOk (b : DescBytes) (space : Nat) : Bool :=
  let n := (dSlots b).length
  let off := offsetOf (dTarget b) % 2 ^ 25
  let page (o : Nat) : Bool := o % dPageBytes b = 0
  outputBytes b ≤ space
    && (!([0, 1, 3, 4].contains (dFlight b)) || (dQuery b).toNat % 64 = 0)
    && (match dFlight b with
      | 0 => n * dD b ≤ 2048 && page off
      | 1 => n * dD b ≤ 768 && page off && !(dContinues b && dFinal b)
      | 3 => 1 ≤ dRows b && dRows b * n ≤ 64 && 1 ≤ dColumns b && dColumns b ≤ 256
          && (dFormat b < 10 || dColumns b % 32 = 0) && dStride b % 32 = 0 && off % 32 = 0
      | 4 => 1 ≤ dCount b && dCount b ≤ 2048 && off % (elemsBytes (dFormat b) 1) = 0
      | 5 => 1 ≤ dCount b && dOperation b ≤ 2
      | 6 => page off && page (offsetOf (dCopyTo b) % 2 ^ 25) && offsetOf (dCopyTo b) ≠ offsetOf (dTarget b)
          && offsetOf (dCopyTo b) / 2 ^ 38 = offsetOf (dTarget b) / 2 ^ 38
      | 7 => 1 ≤ dCount b && off % 2048 = 0
      | _ => page off)

/-- A bank range in the KV region of a PIM stack of the partition (R246). -/
def bankRangeOk (s : State) (p : Nat) (a : W64) (n : Nat) : Bool :=
  spaceOf a = 5 && isLocal s a && (match resolve s .dx (some p) a n with | .ok (.near _) => true | _ => false)

/-- What a descriptor reaches lies in the partition (R246). -/
def descReachOk (s : State) (p : Nat) (b : DescBytes) : Bool :=
  bankRangeOk s p (dTarget b) (targetBytes b)
    && (dFlight b ≠ 6 || bankRangeOk s p (dCopyTo b) (dPageBytes b))
    && (queryBytes b = 0 || (spaceOf (dQuery b) = 1 && isLocal s (dQuery b)
      && (match resolve s .dx (some p) (dQuery b) (queryBytes b) with | .ok (.near _) => true | _ => false)))

/-- The stack a descriptor's target lies in, and the bank in it. -/
def descStack (b : DescBytes) : Nat := offsetOf (dTarget b) / 2 ^ 38
def descKey (a : W64) : Nat :=
  let off := offsetOf a
  stackKey (off / 2 ^ 38) (off / 2 ^ 33 % 32) (off / 2 ^ 25 % 256) (off % 2 ^ 25)
def descBank (b : DescBytes) : Nat := bankNum (descKey (dTarget b))

/-- The open merge group that an entry's earlier repeats have begun (R248). -/
def openGroup (st : Stack) (t id : Nat) : Option Group :=
  st.groups.find? fun g => !g.closed && (g.last.dests.any fun d => d.tile = t && d.entry = id)

/-- The merge-group conditions of R248 for the next descriptor of a DDESC of `total` repeats. -/
def groupOk (g : Option Group) (b : DescBytes) (rep total : Nat) : Bool :=
  !(dContinues b && rep + 1 = total) && (match g with
    | none => true
    | some g => dFlight b = 1 && dMask b = dMask g.last.bytes && dD b = dD g.last.bytes)

/-- A descriptor that breaks nothing (R246). -/
def descOk (s : State) (p k space rep total : Nat) (g : Option Group) (b : DescBytes) : Bool :=
  descFieldsOk (flightAt s (dFlight b)) b && descRulesOk b space && descStack b = k && descReachOk s p b && groupOk g b rep total

/-! ## Queueing (R248-R250) -/

/-- Merge space that a run reserves (R250): for flights with query slots. -/
def mergeBytes (b : DescBytes) : Nat := if dFlight b ≤ 1 then (dSlots b).length * (16 + 4 * dD b) else 0

/-- The command that a destination's tile runs. -/
def destCmd (s : State) (ds : List Dest) : Option Nat := ds.head?.bind fun x => (tileAt s x.tile).cmd

/-- The query block of a run: a cached block whose key matches its first descriptor, or the block fetched anew as that
descriptor reaches the SSQ (R247). -/
def loadQueries (k : Nat) (cmd : Option Nat) (b : DescBytes) (s : State) : List PByte × State :=
  let n := queryBytes b
  if n = 0 then ([], s) else
  let st := stackAt s k
  let hit := st.queries.find? fun q => q.1 = dQuery b && q.2.1 = dGeneration b && n ≤ q.2.2.length
  let s1 : State := { s with free := s.free + 1 }
  match hit, Config.useCachedQuery s.free with
  | some q, true => (q.2.2.take n, s1)
  | _, _ =>
    let g := getTile false (offsetOf (dQuery b)) n s
    let rest := (st.queries.filter fun q => !(q.1 = dQuery b && q.2.1 = dGeneration b))
    let kept := if rest.length < 64 then rest else rest.eraseIdx (Config.cacheVictim s.free % 64)
    (g.data, charge cmd g (setStack s1 k { st with queries := kept ++ [(dQuery b, dGeneration b, g.data)] }))

/-- A descriptor that begins a run: it takes the next run number, and the SSQ loads the run's query block. -/
def firstDesc (k rep group : Nat) (dests : List Dest) (b : DescBytes) (s : State) : Desc × State :=
  let q := loadQueries k (destCmd s dests) b s
  let st := stackAt q.2 k
  ({ bytes := b, dests := dests, rep := rep, group := group, run := st.nextRun, block := q.1 },
   setStack q.2 k { st with nextRun := st.nextRun + 1 })

/-- Put a descriptor into its SSQ's queue: it joins its DDESC's open group, and its run where the bank is the same. -/
def queueDesc (k rep : Nat) (dests : List Dest) (b : DescBytes) (s : State) : State :=
  let st := stackAt s k
  match dests.head?.bind fun d => openGroup st d.tile d.entry with
  | some g =>
    let same := descBank g.last.bytes = descBank b
    let r := if same then ({ bytes := b, dests := dests, rep := rep, group := g.number, run := g.last.run }, s)
      else firstDesc k rep g.number dests b s
    let g' : Group := { g with closed := !dContinues b, last := r.1, runs := if same then g.runs else g.runs ++ [r.1.run] }
    let st := stackAt r.2 k
    setStack r.2 k { st with queue := st.queue ++ [r.1], groups := updWhere (·.number == g.number) (fun _ => g') st.groups }
  | none =>
    let r := firstDesc k rep st.nextRun dests b s
    let st := stackAt r.2 k
    let g : Group := { number := r.1.run, closed := !dContinues b, runs := [r.1.run], last := r.1, space := mergeBytes b }
    setStack r.2 k { st with queue := st.queue ++ [r.1], groups := st.groups ++ [g] }

/-- A DDESC's open group takes no further descriptor. -/
def closeGroup (k t id : Nat) (s : State) : State :=
  let st := stackAt s k
  match openGroup st t id with
  | some g => setStack s k { st with groups := updWhere (·.number == g.number) (fun g => { g with closed := true }) st.groups }
  | none => s

/-- A queue of 4,096 descriptors is full (R249). -/
def queueFull (s : State) (k : Nat) : Bool := (stackAt s k).queue.length ≥ 4096

end Sys2Proof.Machine
end

