-- ==== Sys2Proof/Machine/Dx.lean ====
section
/-!
DEFINITION. The DX engine (05 R135, 06 R171-R174, 07 R192-R194): copies, layout copies, flags, fences, descriptors, and the
leaving writes of a twin pair (14 R406, R407).
-/

namespace Sys2Proof.Machine

/-- The partition of a tile's program; no open partition has number 4. -/
def tilePartNum (s : State) (t : Nat) : Nat := (tilePart s t).getD 4

/-- The DX of a tile as a source of remote accesses. -/
def dxAsker (s : State) (t id : Nat) : Asker :=
  let x := tileAt s t
  { cmd := x.cmd, queue := ((x.cmd.bind (cmdAt s)).map (·.queue)).getD 0, part := tilePartNum s t, tile := some t, entry := id }

/-- The global address of an operand: G[k] + operand address (R128). R128 does not say what a sum outside 0 to 2^64 - 1
is: the model takes it modulo 2^64, as a 64-bit address register holds it (DESIGN CHOICE, log 61). -/
def globalAddr (s : State) (t : Nat) (i : Ins) (r : Nat) : W64 :=
  tabGet 0 (tileAt s t).gbase (bits i.flags 3 2) + BitVec.ofInt 64 (opAddress s t 3 r)

/-- What a DX access finds. -/
def dxPlace (s : State) (t : Nat) (a : W64) (n : Nat) : Except AddrErr Place := resolve s .dx (some (tilePartNum s t)) a n

/-- Whether a DX may make a global access: its address is a multiple of 4 and its range is the partition's (R128). -/
def dxOk (s : State) (t : Nat) (a : W64) (n : Nat) : Bool :=
  a.toNat % 4 = 0 && (match dxPlace s t a n with | .ok (.near _) => true | .ok (.remote _) => true | _ => false)

/-- The pieces of a global range on this module. -/
def dxPieces (s : State) (t : Nat) (a : W64) (n : Nat) : List (Home × Nat) :=
  match dxPlace s t a n with
  | .ok (.near ps) => ps
  | _ => []

def dxRemote (s : State) (t : Nat) (a : W64) (n : Nat) : Bool :=
  match dxPlace s t a n with
  | .ok (.remote _) => true
  | _ => false

/-- Go on when the banks and links of some pieces can be reached; a far link that is down for good ends the program
(R235, R39). -/
def dxGate (t id : Nat) (ps : List (Home × Nat)) (s : State) (go : State → State) : State :=
  match reachOf s (.engine t id) ps with
  | .go => go (noteWaits (.engine t id) ps s)
  | .wait => noteWaits (.engine t id) ps s
  | .dead => programTimeout (tileAt s t).cmd s

/-- Every remote write of a DX has been acknowledged or refused (R194). -/
def drained (s : State) (t : Nat) : Bool := !(s.fabric.remote.any fun r => r.tile = some t && r.kind = .write)

/-! ## Leaving writes -/

/-- Make a global write of a DX. -/
def dxWrite (t id : Nat) (a : W64) (bs : List PByte) (s : State) : State :=
  if dxRemote s t a bs.length then remoteWrite (dxAsker s t id) (messages bs.length) a bs s
  else putPieces (dxPieces s t a bs.length) bs s

/-- Issue a leaving write that has matched, or that needs no match. -/
def issueLeaving (t : Nat) (mate : Option (Nat × Leaving)) (l : Leaving) (s : State) : State :=
  match l.desc with
  | some k =>
    let d1 : Dest := ⟨t, l.entry, l.out⟩
    let ds := match mate with | some m => [d1, ⟨m.1, m.2.entry, m.2.out⟩] | none => [d1]
    queueDesc k l.rep ds (l.data.map (·.1)) s
  | none => dxWrite t l.entry l.address l.data s

/-- Two leaving writes match in address, size, flags and every byte (R406). -/
def Leaving.same (a b : Leaving) : Bool :=
  a.desc = b.desc && a.address = b.address && a.release = b.release && a.data = b.data

/-- A leaving write of a tile: outside twin mode it is issued; in twin mode it is held until its twin issues its own,
and the two are compared (R406, R407). -/
def leave (t : Nat) (l : Leaving) (s : State) : State :=
  let x := tileAt s t
  match x.twin with
  | none => issueLeaving t none l s
  | some m =>
    let s := setTile s t { x with leaving := x.leaving ++ [l] }
    let y := tileAt s m
    if !y.running then twinMismatch t s
    else
      let x := tileAt s t
      match x.leaving, y.leaving with
      | a :: as_, b :: bs =>
        if a.same b then
          let s := setTile (setTile s t { x with leaving := as_ }) m { y with leaving := bs }
          if x.first then issueLeaving t (some (m, b)) a s else issueLeaving m (some (t, a)) b s
        else twinMismatch t s
      | _, _ => s

/-- A write leaves as a DX write of an entry's repeat. -/
def leaveWrite (t : Nat) (h : Entry) (release : Bool) (a : W64) (bs : List PByte) (s : State) : State :=
  leave t { entry := h.id, rep := h.done, release := release, desc := none,
            address := a, out := 0, data := bs, since := now s } s

/-- Every earlier write of the DX is visible, of both DXs of a twin pair (R192, R194). -/
def canRelease (s : State) (t : Nat) : Bool :=
  drained s t && (match (tileAt s t).twin with | some m => drained s m | none => true)

/-! ## Reads -/

/-- Read a local operand of the DX and charge its words. -/
def dxLocal (t : Nat) (a : Int) (n : Nat) (s : State) : List PByte × State :=
  let g := localRead t a.toNat n true s
  (g.data, charge (tileAt s t).cmd g s)

/-- Read a global range: this module's memory once it can be reached, or another node's by messages, whose data wait in
the entry. Until then the repeat waits. -/
def dxRead (t : Nat) (h : Entry) (a : W64) (n : Nat) (s : State) (go : List PByte → State → State) : State :=
  if dxRemote s t a n then
    if !h.sent then
      remoteRead (dxAsker s t h.id) (messages n) a n (updEntry t h.id (fun e => { e with sent := true }) s)
    else if h.awaiting ≠ [] then s
    else go (fetchedData h.fetched h.tainted a.toNat n) s
  else dxGate t h.id (dxPieces s t a n) s fun s =>
    let r := getPieces true (dxPieces s t a n) s
    go r.1.data (charge (tileAt s t).cmd r.1 r.2)

/-! ## DCOPY (R135) -/

def lines64 (n : Nat) : Nat := (n + 63) / 64

/-- Write the destination of a DCOPY repeat. -/
def dcopyOut (t : Nat) (i : Ins) (h : Entry) (bs : List PByte) (s : State) : State :=
  let done (s : State) : State := repDone t 3 (lines64 i.imm) s
  if bit i.flags 1 then done (leaveWrite t h (bit i.flags 4) (globalAddr s t i i.ad) bs s)
  else done (localWrite t (opAddress s t 3 i.ad).toNat bs s)

/-- One DCOPY repeat. With RELEASE each repeat's last write is a release (R192), whichever side is global. -/
def dcopy (t : Nat) (i : Ins) (h : Entry) (s : State) : State :=
  let n := i.imm
  let src := globalAddr s t i i.as_
  let dst := globalAddr s t i i.ad
  if (bit i.flags 0 && !dxOk s t src (max n 1)) || (bit i.flags 1 && !dxOk s t dst (max n 1)) then engFault t 3 s
  else if n = 0 then repDone t 3 0 s
  else if bit i.flags 4 && !canRelease s t then s
  else dxGate t h.id (if bit i.flags 1 then dxPieces s t dst n else []) s fun s =>
    if bit i.flags 0 then dxRead t h src n s (dcopyOut t i h)
    else
      let r := dxLocal t (opAddress s t 3 i.as_) n s
      dcopyOut t i h r.1 r.2

def execDcopy (tile : Nat) (s : State) : Out :=
  onHead tile 3 0x10 s fun i h s => onLocal tile 3 i s fun s => dcopy tile i h s

/-! ## DLAYOUT (R171-R174) -/

/-- The copy block as a COPY-TENSOR of the tile's partition. -/
def blockCmd (s : State) (t : Nat) (block : List Byte) : Cmd :=
  { id := (tileAt s t).cmd.getD 0, opcode := 0x0203, part := tilePartNum s t, job := 1, params := block }

/-- DX beats of a layout copy's control data: its copy block, descriptors and pad list (R174). -/
def controlBeats (op : Nat) : Nat := 1 + (if 5 ≤ op then 6 else 4) + (if op = 4 then 1 else 0)

/-- DX beats of a layout copy (R174). -/
def layoutBeats (l : Layout) (r : Copied) : Nat := controlBeats l.op + max (visitsOf r.reads) (visitsOf r.wrote)

/-- Move what a layout copy moves. -/
def dlayoutMove (t : Nat) (i : Ins) (h : Entry) (l : Layout) (s : State) : State :=
  let place (a : W64) (n : Nat) : Except AddrErr Place := dxPlace s t a n
  let r := l.run (viewOf s place h.fetched h.tainted) i.mode (tileAt s t).dx.lfsr
  let cmd := (tileAt s t).cmd
  let s := chargeReads place cmd h.tainted r.reads s
  let s := updHead t 3 id (fun en => { en with lfsr := r.lfsr }) s
  let runs := l.writesOf r.image
  let s := (runs.zipIdx 1).foldl (fun s w =>
    leaveWrite t h (bit i.flags 4 && w.2 = runs.length) (BitVec.ofNat 64 w.1.1) w.1.2 s) s
  let s := match cmd with
    | some c => updCmd c (fun x => { x with clipped := clippedOf (x.clipped + r.clipped) }) s
    | none => s
  repDone t 3 (layoutBeats l r) s

/-- Bring a DLAYOUT's control data from another node (R171, R185). -/
def bringEntry (t : Nat) (h : Entry) (a : W64) (n : Nat) (s : State) : State :=
  match h.asking with
  | none => remoteRead (dxAsker s t h.id) (messages n) a n (updEntry t h.id (fun e => { e with asking := some (a, n) }) s)
  | some r =>
    if h.awaiting ≠ [] then s
    else updEntry t h.id (fun e => { e with
      asking := none, fetched := [], tainted := [],
      blocks := e.blocks ++ [(r.1, fetchedData h.fetched h.tainted r.1.toNat r.2)] }) s

/-- The remote reads of a DLAYOUT's index tensor (stage 1) or source (stage 2): sent once, then awaited. -/
def dxBring (t : Nat) (h : Entry) (k : Nat) (rs : List (W64 × Nat)) (s : State) (go : State → State) : State :=
  let far := rs.filter fun r => dxRemote s t r.1 r.2
  if far = [] then go s
  else if h.awaiting ≠ [] then s
  else if h.stage < k then
    far.foldl (fun s r => remoteRead (dxAsker s t h.id) (messages r.2) r.1 r.2 s)
      (updEntry t h.id (fun e => { e with stage := k, sent := true }) s)
  else go s

/-- A checked DLAYOUT repeat: of the index tensor and then of the source what the copy uses is read, then it moves; `s'` is
`s` with its control data charged. -/
def dlayoutRun (t : Nat) (i : Ins) (h : Entry) (l : Layout) (s s' : State) : State :=
  let rs := l.ranges.filter fun r => r.2.1 ≠ 0
  let near (rs : List (W64 × Nat)) : List (Home × Nat) := rs.flatMap fun r => dxPieces s t r.1 r.2
  let index := near l.indexRuns
  let outs := near ((rs.filter (·.2.2)).map fun r => (r.1, r.2.1))
  if rs.any fun r => (match dxPlace s t r.1 r.2.1 with | .error _ => true | .ok _ => false) then engFault t 3 s'
  else if bit i.flags 4 && !canRelease s t then s
  else if h.awaiting ≠ [] then s
  else dxBring t h 1 l.indexRuns s' fun s' => dxGate t h.id index s fun _ =>
    let ss := l.sourceRuns (l.index (viewOf s (fun a n => dxPlace s t a n) h.fetched h.tainted))
    dxBring t h 2 ss s' fun s' => dxGate t h.id (index ++ near ss ++ outs) s fun _ =>
      dlayoutMove t i h l (noteWaits (.engine t h.id) (index ++ near ss ++ outs) s')

/-- One DLAYOUT repeat once its copy block `g` has been read: what a COPY-TENSOR would reject is a job fault (R173). Its
control data are charged once. -/
def dlayout (t : Nat) (i : Ins) (h : Entry) (g : Got) (s : State) : State :=
  let block := g.bytes
  let c := { blockCmd s t block with blocks := h.blocks }
  let chk : Except Stop Layout × List (Home × Nat) := (ExceptT.run (layoutChk s c)).run []
  let stray := match opRow 0x0203 with | some r => (r.stray block).isSome | none => false
  let s' := charged { c with touched := h.sent } chk.2 (if h.sent then s else charge (tileAt s t).cmd g s)
  if stray then engFault t 3 s' else
  match chk.1 with
  | .error (.status m) => if m.status = 0x30 then repDone t 3 (controlBeats (c.at 32 1)) s' else engFault t 3 s'
  | .error (.remote a n) => bringEntry t h a n s
  | .error (.whole a n) => bringEntry t h a n s
  | .error (.register _ _) => engFault t 3 s'
  | .ok l => dlayoutRun t i h l s s'

def execDlayout (tile : Nat) (s : State) : Out :=
  onHead tile 3 0x11 s fun i h s => onLocal tile 3 i s fun s =>
    let a := opAddress s tile 3 i.as_
    if a % 32 ≠ 0 then engFault tile 3 s else
    let g := localRead tile a.toNat 32 true s
    if g.poisoned ≠ 0 then repDone tile 3 1 (charge (tileAt s tile).cmd g s)
    else dlayout tile i h g s

/-! ## Flags and fences -/

/-- One DFLAGSET repeat: 8 local bytes written to a global address as a release (R192). -/
def dflagset (t : Nat) (i : Ins) (h : Entry) (s : State) : State :=
  let a := globalAddr s t i i.ad
  if !dxOk s t a 8 then engFault t 3 s
  else if !canRelease s t then s
  else dxGate t h.id (dxPieces s t a 8) s fun s =>
    let r := dxLocal t (opAddress s t 3 i.as_) 8 s
    repDone t 3 1 (leaveWrite t h true a r.1 r.2)

def execDflagset (tile : Nat) (s : State) : Out :=
  onHead tile 3 0x12 s fun i h s => onLocal tile 3 i s fun s => dflagset tile i h s

/-- DFLAGWAIT starts waiting; on another node's flag it sends its first read. -/
def execDflagwait (tile : Nat) (s : State) : Out :=
  onHead tile 3 0x13 s fun i h s =>
    let a := globalAddr s tile i i.as_
    if !dxOk s tile a 8 then engFault tile 3 s
    else if h.sent then s
    else
      let s := updEntry tile h.id (fun e => { e with sent := true }) s
      if dxRemote s tile a 8 then ask (dxAsker s tile h.id) .read a 8 [] s else s

/-- Whether a flag value ends a wait: unsigned at least IMM, or equal to it. -/
def flagMet (i : Ins) (v : Nat) : Bool := if bit i.flags 5 then v = i.imm else i.imm ≤ v

/-- The wait is over: it acquires, and the tile's read-cache lines go (R121, R193). -/
def acquire (t : Nat) (s : State) : State :=
  let s := repDone t 3 1 s
  let x := tileAt s t
  setTile s t { x with cache := [] }

/-- DFLAGWAIT_SATISFIED: the flag is observed at a value that ends the wait. On another node's flag, an answer with
another value sends the next read. -/
def execDflagwaitSatisfied (tile : Nat) (s : State) : Out :=
  onHead tile 3 0x13 s fun i h s =>
    let a := globalAddr s tile i i.as_
    if !h.sent then s
    else if dxRemote s tile a 8 then
      if h.awaiting ≠ [] then s
      else if flagMet i (leNat (memRead h.fetched a.toNat 8)) then acquire tile s
      else ask (dxAsker s tile h.id) .read a 8 [] s
    else if !dxOk s tile a 8 then engFault tile 3 s
    else dxGate tile h.id (dxPieces s tile a 8) s fun s =>
      let r := getPieces true (dxPieces s tile a 8) s
      if flagMet i (leNat r.1.bytes) then acquire tile (charge (tileAt s tile).cmd r.1 r.2) else s

/-- DFENCE: every earlier remote write of this DX is visible (R194). R135 gives no beats for it, nor for a DFLAGWAIT: the
model counts one for each, however long it waits (DESIGN CHOICE, log 61). -/
def execDfence (tile : Nat) (s : State) : Out :=
  onHead tile 3 0x14 s fun _ _ s => if canRelease s tile then repDone tile 3 1 s else s

/-! ## DDESC (R135, R245) -/

/-- Where a repeat's output goes: AD, or where the walk put it. -/
def ddescOut (s : State) (t : Nat) (i : Ins) (h : Entry) : Int :=
  match h.walk[h.done]? with
  | some w => w.2
  | none => opAddress s t 3 i.ad

/-- Send a checked descriptor. -/
def sendDesc (t : Nat) (i : Ins) (h : Entry) (b : DescBytes) (s : State) : State :=
  let k := i.imm % 16
  if !descOk s (tilePartNum s t) k (bits i.imm 31 16) h.done i.rep (openGroup (stackAt s k) t h.id) b then engFault t 3 s
  else repDone t 3 1 (leave t
    { entry := h.id, rep := h.done, release := false, desc := some k, address := dTarget b, out := (ddescOut s t i h).toNat,
      data := clean b, since := now s } s)

/-- A descriptor that reads poisoned sends no flight; the bytes it reserved at AD become poisoned words (R504). -/
def poisonedDesc (t : Nat) (i : Ins) (h : Entry) (s : State) : State :=
  let n := bits i.imm 31 16
  let a := (ddescOut s t i h).toNat
  let s := closeGroup (i.imm % 16) t h.id s
  repDone t 3 1 (localWrite t a ((zeros n).map fun b => (b, true)) s)

/-- DDESC: a full SSQ queue holds it in its handshake (R249); in twin mode each descriptor waits for its match. -/
def execDdesc (tile : Nat) (s : State) : Out :=
  onHead tile 3 0x15 s fun i h s =>
    if queueFull s (i.imm % 16) || (tileAt s tile).leaving ≠ [] then s else
    match h.walk[h.done]? with
    | some w => if localOk 3 w.2 (0, bits i.imm 31 16) then sendDesc tile i h w.1 s else engFault tile 3 s
    | none => onLocal tile 3 i s fun s =>
      let a := opAddress s tile 3 i.as_
      if a % 64 ≠ 0 then engFault tile 3 s else
      let g := localRead tile a.toNat 64 true s
      if g.poisoned ≠ 0 then poisonedDesc tile i h (charge (tileAt s tile).cmd g s)
      else sendDesc tile i h g.bytes (charge (tileAt s tile).cmd g s)

/-! ## TWIN_MATCH_TIMEOUT (R407) -/

/-- A leaving write stays unmatched for 100 µs. -/
def execTwinMatchTimeout (tile : Nat) (s : State) : Out :=
  onUnit 512 tile s fun s => whenRunning s fun s =>
    if frozen s tile then s else
    match (tileAt s tile).leaving with
    | l :: _ => if now s ≥ l.since + 100000 then twinMismatch tile s else s
    | [] => s

end Sys2Proof.Machine
end

