-- ==== Sys2Proof/Machine/Flights.lean ====
section
/-!
DEFINITION. In-bank compute (09 R236-R267, R506, R509): starting runs, the pounds of every flight, locks, merge groups.
A flight's row is one pound: it reads that pound's part of the bank, and the last one computes.
-/

namespace Sys2Proof.Machine

/-! ## Reading and writing a bank -/

/-- Read bank bytes as a bank unit does: whole 32-byte columns, each corrected word of them counted (R212). -/
def colRead (cmd : Option Nat) (key n : Nat) (s : State) : List PByte × State :=
  let a := key / 32 * 32
  let len := (key + n + 31) / 32 * 32 - a
  let whole := getStack false a len s
  let mine := getStack false key n s
  let g : Got := { mine.1 with corrected := whole.1.corrected,
                               notes := (whole.1.notes.filter (·.1 = 1)) ++ (mine.1.notes.filter (·.1 ≠ 1)) }
  (mine.1.data, charge cmd g whole.2)

/-- Read ranges of a bank in order. -/
def colReads (cmd : Option Nat) : List (Nat × Nat) → State → List PByte × State
  | [], s => ([], s)
  | (k, n) :: rest, s =>
    let r := colRead cmd k n s
    let q := colReads cmd rest r.2
    (r.1 ++ q.1, q.2)

/-- The command that a descriptor's tile runs. -/
def descCmd (s : State) (d : Desc) : Option Nat := destCmd s d.dests

/-! ## The columns of a flight and its pounds (R237, R261, R506) -/

/-- The key of the target. -/
def dKey (b : DescBytes) : Nat := descKey (dTarget b)

/-- Bytes of a row of GEMV. -/
def rowSize (b : DescBytes) : Nat := elemsBytes (dFormat b) (dColumns b)

/-- A column of a flight: the bytes it reads there, none for an output step or a row of ROW-ZERO, and its steps. -/
structure Col where
  key : Nat
  bytes : Nat
  steps : Nat
deriving DecidableEq, Repr

/-- The columns of `n` bytes at `key`, each with the steps that `steps` gives the bytes from an offset on. -/
def colsOf (key n : Nat) (steps : Nat → Nat → Nat) : List Col :=
  (List.range ((key % 32 + n + 31) / 32)).map fun i =>
    let lo := max key (key / 32 * 32 + 32 * i)
    let hi := min (key + n) (key / 32 * 32 + 32 * (i + 1))
    ⟨lo, hi - lo, steps (lo - key) (hi - lo)⟩

/-- Elements of a packed row that start below byte `x`. An element counts in the column its code starts in: R237 does not
say where one that lies across two columns counts (DESIGN CHOICE, log 61). -/
def startsBelow (f : Fmt) (x : Nat) : Nat :=
  if f.isMz then x / f.unitBytes * 32 + min 32 ((8 * (x % f.unitBytes - 4) + f.width - 1) / f.width)
  else (8 * x + f.width - 1) / f.width

/-- Column steps of bytes `lo` to `lo + n - 1` of a packed row of `count` elements that `vectors` query vectors meet: 256
multiply-accumulates a step on MZ elements, 64 on others (R237). -/
def macSteps (code count vectors lo n : Nat) : Nat :=
  match formatOf [] code with
  | none => 1
  | some f =>
    let rate := if f.isMz then 256 else 64
    let macs := (min count (startsBelow f (lo + n)) - min count (startsBelow f lo)) * vectors
    max 1 ((macs + rate - 1) / rate)

/-- Steps that write `n` bytes of output, 64 a step. -/
def outCols (n : Nat) : List Col := List.replicate ((n + 63) / 64) ⟨0, 0, 1⟩

/-- The steps of the columns of an attention page: its vectors begin at byte 64. ATTN-SCORE multiplies its K vectors alone
(R258). -/
def pageSteps (b : DescBytes) (lo n : Nat) : Nat :=
  macSteps (dFormat b) ((if dFlight b = 0 then 1 else 2) * dP b * dD b) (dSlots b).length (lo - 64) (lo + n - max lo 64)

/-- The columns of PAGE-DIGEST's data and of SCORE-DECAY's score words, by the header's geometry and format (R275, R509). -/
def digestCols (key g f : Nat) : List Col :=
  colsOf (key + 64) (2 * geoP g * vecBytes f (geoD g)) (fun _ _ => 1) ++ colsOf (key + idOff f g) (4 * geoP g) (fun _ _ => 1)

def decayCols (b : DescBytes) (f : Nat) : List Col := colsOf (dKey b + scoreOff f (dGeometry b)) (4 * dP b) (fun _ _ => 2)

/-- All columns of a flight in order (R506); `head` holds the geometry and format of its page's header (R509). -/
def flightCols (b : DescBytes) (head : Nat × Nat) : List Col :=
  let key := dKey b
  let n := (dSlots b).length
  match dFlight b with
  | 0 | 1 => colsOf key (dPageBytes b) (pageSteps b)
  | 2 => ⟨key, 32, 1⟩ :: (if geoFits head.2 head.1 && head.1 = dGeometry b then decayCols b head.2 else [])
  | 3 => ((List.range (dRows b)).flatMap fun r =>
      colsOf (key + r * dStride b) (rowSize b) (macSteps (dFormat b) (dColumns b) n)) ++ outCols (outputBytes b)
  | 4 => colsOf key (targetBytes b) (fun _ _ => 2)
  | 5 => colsOf key (targetBytes b) (fun _ _ => 1) ++ outCols 4
  | 6 => colsOf key (targetBytes b) (fun _ _ => 1)
  | 7 => (List.range (dCount b)).map fun i => ⟨key + 2048 * i, 0, 1⟩
  | _ => ⟨key, 32, 1⟩ :: ((if geoFits head.2 head.1 && geoUnits head.1 = geoUnits (dGeometry b) then
      digestCols key head.1 head.2 else []) ++ outCols 8)

/-- Columns cut into pounds of at most `limit` steps, each as long as it can be (R261). -/
def packPounds (limit : Nat) : List Col → List Col → Nat → List (List Col)
  | [], cur, _ => if cur = [] then [] else [cur.reverse]
  | c :: cs, cur, used =>
    if cur ≠ [] && limit < used + c.steps then cur.reverse :: packPounds limit cs [c] c.steps
    else packPounds limit cs (c :: cur) (used + c.steps)

/-- The header bytes 16 and 17 of a page: geometry and format. -/
def headerCodes (key : Nat) (s : State) : Nat × Nat :=
  let h := (bankRead (key + 16) 2 s).map (·.1)
  (field h 0 1, field h 1 1)

/-- The header that the flight goes by: what its first pound has read, or what the bank holds before (R264). -/
def headOfRun (b : DescBytes) (r : Run) (s : State) : Nat × Nat :=
  if r.image.length < 18 then headerCodes (dKey b) s
  else (field (r.image.map (·.1)) 16 1, field (r.image.map (·.1)) 17 1)

/-- The pounds of a run's flight: of at most its entry's columns, and of at most 1.5 µs (R261). -/
def poundsOf (b : DescBytes) (r : Run) (s : State) : List (List Col) :=
  packPounds (min 468 (flightAt s (dFlight b)).columns) (flightCols b (headOfRun b r s)) [] 0

/-! ## Attention (R251-R258) -/

/-- What a page holds that a flight has read: its bytes. A byte the page class does not reach has no defined value. -/
def pageByte (s : State) (img : List PByte) (i : Nat) : PByte := (img[i]?).getD (Config.poisonByte (now s) i 0, false)

def pageBytesAt (s : State) (img : List PByte) (off n : Nat) : List PByte :=
  let bs := (img.drop off).take n
  if bs.length = n then bs else (List.range n).map fun i => pageByte s img (off + i)

/-- A vector of `d` elements of a KV format. -/
def vectorOf (code d : Nat) (bs : List PByte) : List Fp × Bool :=
  match formatOf [] code with
  | some f => ((readOp f (fun a n => (bs.drop a.toNat).take n) 0 0 d).map (·.num), bs.any (·.2))
  | none => ([], false)

/-- A query vector of binary16 values. -/
def queryOf (q : List PByte) (d s : Nat) : List Fp × Bool :=
  let bs := (q.drop (2 * d * s)).take (2 * d)
  ((List.range d).map fun j => dec16 (field (bs.map (·.1)) (2 * j) 2), bs.any (·.2))

/-- Position slots that are valid (R251): the header's present mask and the descriptor's position mask. -/
def validSlots (s : State) (b : DescBytes) (img : List PByte) : List Nat :=
  let present := leNat ((pageBytesAt s img 0 16).map (·.1))
  (List.range (dP b)).filter fun i => bit (dPositions b) i && bit present i

/-- The position ID of a slot, and whether it read poisoned. -/
def positionOf (s : State) (b : DescBytes) (img : List PByte) (i : Nat) : Nat × Bool :=
  let bs := pageBytesAt s img (idOff (dFormat b) (dGeometry b) + 4 * i) 4
  (leNat (bs.map (·.1)), bs.any (·.2))

/-- A valid position is visible to a query slot (R251). -/
def visibleTo (b : DescBytes) (id slot : Nat) : Bool := dGroup b = 0 || id ≤ dBase b + slot / dGroup b

/-- The logit of a position and a slot. -/
def logit (b : DescBytes) (q k : List Fp) : W32 := mul32 (r32 (dot q k)) (dScale b)

/-- One position in one slot's running state (R252). -/
def attend (x : W32) (v : List Fp) (bad : Bool) (p : Partial) : Partial × W32 :=
  if x = negInf32 then ({ p with poisoned := p.poisoned || bad }, 0)
  else
    let up := (dec32 p.m).lt (dec32 x)
    let c := if p.m = negInf32 then 0 else sxExp (sub32 p.m x)
    let l := if up then mul32 p.l c else p.l
    let acc := if up then p.acc.map fun a => mul32 a c else p.acc
    let e := if up then one32 else sxExp (sub32 x p.m)
    ({ p with m := if up then x else p.m, l := add32 l e, count := min (p.count + 1) 65535,
              acc := List.zipWith (fun a y => r32 (((dec32 e).mul y).add (dec32 a))) acc v,
              poisoned := p.poisoned || bad }, x)

/-- What one position adds to every slot's state, and the score weight it received. -/
structure Attended where
  partials : List Partial
  weight : W32
  bad : Bool
deriving DecidableEq, Repr

/-- One position of a page in all slots, in increasing slot number. -/
def attendAll (s : State) (b : DescBytes) (q img : List PByte) (header : Bool) (ps : List Partial) (i : Nat) : Attended :=
  let e := vecBytes (dFormat b) (dD b)
  let k := vectorOf (dFormat b) (dD b) (pageBytesAt s img (64 + i * e) e)
  let v := vectorOf (dFormat b) (dD b) (pageBytesAt s img (64 + dP b * e + i * e) e)
  let id := positionOf s b img i
  ps.foldl (fun a p =>
    if visibleTo b id.1 p.slot then
      let qv := queryOf q (dD b) p.slot
      let x := logit b qv.1 k.1
      let bad := header || id.2 || k.2 || v.2 || qv.2
      let r := attend x v.1 bad p
      let w := if dScoring b && x ≠ negInf32 then add32 a.weight (min32 one32 (sxExp (sub32 x (dRef b)))) else a.weight
      ⟨a.partials ++ [r.1], w, a.bad || header || id.2 || k.2 || qv.2⟩
    else ⟨a.partials ++ [{ p with poisoned := p.poisoned || header || id.2 }], a.weight, a.bad || header || id.2⟩)
    ⟨[], 0, header || id.2⟩

/-- Rewrite a valid position's score word (R252, R253). -/
def putScore (s : State) (b : DescBytes) (img : List PByte) (i : Nat) (w : W32) (bad : Bool) : State :=
  let off := scoreOff (dFormat b) (dGeometry b) + 4 * i
  let old := pageBytesAt s img off 4
  let v := r32 (((dec32 (BitVec.ofNat 32 (leNat (old.map (·.1))))).mul (dec16 (dDecay b))).add (dec32 w))
  if off + 4 ≤ dPageBytes b then putArray (dKey b + off) ((toLe 4 v.toNat).map fun x => (x, bad || old.any (·.2))) s else s

/-- The last pound of an ATTN-FULL flight; `q` is the operand buffer. -/
def attnFullEnd (b : DescBytes) (r : Run) (q img : List PByte) (s : State) : List Partial × State :=
  let header := (pageBytesAt s img 0 16).any (·.2)
  let ps0 := if header then r.partials.map fun p => { p with poisoned := true } else r.partials
  (validSlots s b img).foldl (fun x i =>
    let a := attendAll s b q img header x.1 i
    (a.partials, if dScoring b then putScore x.2 b img i a.weight a.bad else x.2)) (ps0, s)

/-- The partials a run starts with. -/
def freshPartials (b : DescBytes) : List Partial :=
  (dSlots b).map fun k => { slot := k, m := negInf32, l := 0, count := 0, acc := List.replicate (dD b) 0 }

/-- The logits of ATTN-SCORE for one slot (R258): value, poison, whether the position is visible. -/
def slotLogits (s : State) (b : DescBytes) (q img : List PByte) (slot : Nat) : List (W32 × Bool × Bool) :=
  let header := (pageBytesAt s img 0 16).any (·.2)
  let valid := validSlots s b img
  let e := vecBytes (dFormat b) (dD b)
  let qv := queryOf q (dD b) slot
  (List.range (dP b)).map fun i =>
    let id := positionOf s b img i
    if valid.contains i && visibleTo b id.1 slot then
      let k := vectorOf (dFormat b) (dD b) (pageBytesAt s img (64 + i * e) e)
      (logit b qv.1 k.1, header || id.2 || k.2 || qv.2, true)
    else (negInf32, header || (valid.contains i && id.2), false)

/-! ## Outputs at AD -/

/-- Write an output of a flight at every destination of its descriptor. -/
def putOutput (d : Desc) (off : Nat) (bs : List PByte) (s : State) : State :=
  d.dests.foldl (fun s x => localWrite x.tile (x.out + off) bs s) s

def bytes32 (x : W32) (bad : Bool) : List PByte := (toLe 4 x.toNat).map fun b => (b, bad)

/-- Check flight outputs against the guard bands of each destination's tile (R402): elements by offset. -/
def checkOutput (k : Nat) (d : Desc) (els exempt : List (Nat × W32)) (sum : Option W32) (s : State) : State :=
  d.dests.foldl (fun s x =>
    let gs := (tileAt s x.tile).guards
    let at_ (e : Nat × W32) : (Nat × Nat) × Fp := ((x.out + e.1, x.out + e.1 + 3), dec32 e.2)
    let f := failing gs (els.map at_) (exempt.map at_) false false
    let g : Option (Nat × Nat) := match sum with
      | some v => if badSum (dec32 v) then some (3, noEntry) else none
      | none => none
    let best := match f, g with
      | some a, some b => if a.1 ≤ b.1 then some a else some b
      | some a, none => some a
      | none, b => b
    implausible gs (6, k, 0) (tileAt s x.tile).cmd best s) s

/-- ATTN-SCORE's output. -/
def attnScoreEnd (k : Nat) (d : Desc) (q img : List PByte) (s : State) : State :=
  let b := d.bytes
  let rows := (dSlots b).map fun slot => slotLogits s b q img slot
  let all := (rows.zipIdx 0).flatMap fun row => (row.1.zipIdx 0).map fun x => (4 * (dP b * row.2 + x.2), x.1)
  let s := putOutput d 0 (all.flatMap fun x => bytes32 x.2.1 x.2.2.1) s
  let values (seen : Bool) : List (Nat × W32) := (all.filter fun x => x.2.2.2 = seen && !x.2.2.1).map fun x => (x.1, x.2.1)
  checkOutput k d (values true) (values false) none s

/-- The elements of a range of a bank unit's format. -/
def bankElems (code n : Nat) (bs : List PByte) : List Val :=
  match formatOf [] code with
  | some f => readOp f (fun a k => (bs.drop a.toNat).take k) 0 0 n
  | none => []

/-- GEMV (R259): products row-major over rows, then slots. -/
def gemvEnd (d : Desc) (qs img : List PByte) (s : State) : State :=
  let b := d.bytes
  let out := (List.range (dRows b)).flatMap fun i =>
    let row := bankElems (dFormat b) (dColumns b) ((img.drop (i * rowSize b)).take (rowSize b))
    (dSlots b).flatMap fun slot =>
      let q := queryOf qs (dColumns b) slot
      bytes32 (r32 (dot (row.map (·.num)) q.1)) (row.any (·.bad) || q.2)
  putOutput d 0 out s

/-- REDUCE (R259): r32 at each step. -/
def reduceStep (op : Nat) (acc : Option W32) (x : Val) : Option W32 :=
  let v := r32 x.num
  let y := if op = 0 then v else if op = 1 then r32 x.num.abs else mul32 v v
  match acc with
  | none => some y
  | some a => some (if op = 1 then max32 a y else add32 a y)

def reduceEnd (d : Desc) (img : List PByte) (s : State) : State :=
  let els := bankElems (dFormat d.bytes) (dCount d.bytes) img
  putOutput d 0 (bytes32 ((els.foldl (reduceStep (dOperation d.bytes)) none).getD 0) (els.any (·.bad))) s

/-- A header that R509 turns away: the command ends with POISONED, class DATA_POISON. -/
def badHeader (d : Desc) (s : State) : State := badHeaderOf (descCmd s d) (dKey d.bytes) s

/-- PAGE-DIGEST (R259, R509): 8 bytes, or poisoned ones. -/
def digestEnd (d : Desc) (img : List PByte) (s : State) : State :=
  let g := (pageByte s img 16).1.toNat
  let f := (pageByte s img 17).1.toNat
  if geoFits f g && geoUnits g = geoUnits (dGeometry d.bytes) then
    let data := img.drop 32
    putOutput d 0 ((toLe 8 (crc64 (data.map (·.1)))).map fun b => (b, data.any (·.2) || ((img.drop 16).take 2).any (·.2))) s
  else badHeader d (putOutput d 0 ((zeros 8).map fun b => (b, true)) s)

/-- SCORE-DECAY (R259, R509). -/
def decayEnd (d : Desc) (img : List PByte) (s : State) : State :=
  let b := d.bytes
  let g := (pageByte s img 16).1.toNat
  let f := (pageByte s img 17).1.toNat
  if geoFits f g && g = dGeometry b then
    (validSlots s b img).foldl (fun s i =>
      let old := (img.drop (32 + 4 * i)).take 4
      let v := r32 ((dec32 (BitVec.ofNat 32 (leNat (old.map (·.1))))).mul (dec16 (dDecay b)))
      putArray (dKey b + scoreOff f g + 4 * i) (bytes32 v (old.any (·.2) || ((img.take 18)).any (·.2))) s) s
  else badHeader d s

/-- The elements of one AXPY pound: from byte `lo` of the target (R259). -/
def axpyPound (d : Desc) (qs : List PByte) (lo : Nat) (bs : List PByte) (s : State) : State :=
  let b := d.bytes
  match formatOf [] (dFormat b) with
  | none => s
  | some f =>
    let w := f.width / 8
    let els := bankElems (dFormat b) (bs.length / w) bs
    let out := (els.zipIdx (lo / w)).flatMap fun y =>
      let q := (qs.drop (2 * y.2)).take 2
      let x := dec16 (leNat (q.map (·.1)))
      let v := r32 (((dec32 (dFactor b)).mul x).add y.1.num)
      let c := f.encElem {} 0 (dec32 v)
      (toLe w c).map fun z => (z, y.1.bad || q.any (·.2))
    putArray (dKey b + lo) out s

/-! ## Starting a run (R249, R250) -/

/-- Compute-active banks now: of the stack, or of one channel. -/
def activeIn (st : Stack) (ch : Option Nat) : Nat :=
  (st.banks.filter fun b => (b.2.run.isSome || b.2.taken) && (match ch with | some c => b.1 / 256 = c | none => true)).length

/-- The second bank of a PAGE-COPY. -/
def partnerBank (b : DescBytes) (bank : Nat) : Option Nat :=
  if dFlight b = 6 && bankNum (descKey (dCopyTo b)) ≠ bank then some (bankNum (descKey (dCopyTo b))) else none

/-- A bank with no run of its own or of a PAGE-COPY. -/
def bankIdle (s : State) (k b : Nat) : Bool := (bankAt s k b).run.isNone && !(bankAt s k b).taken

/-- Whether the run of a number holds its merge space: reservations are made in arrival order in 4 MiB (R250). -/
def spaceHeld (st : Stack) (run : Nat) : Bool :=
  (st.groups.map fun g => g.space * (g.runs.filter (· ≤ run)).length).sum ≤ 4 * 2 ^ 20

/-- A stack whose SSQ works: PIM-enabled, in service, not in self-refresh, in row 3 or lower (R241). -/
def ssqOn (s : State) (k : Nat) : Bool :=
  let st := stackAt s k
  pimStack s k && st.trained && !st.failed && !st.selfRefresh && st.row < 4 && s.faults.jobFault.isNone

/-- RUN_START. -/
def runStart (k bank : Nat) (s : State) : State :=
  let st := stackAt s k
  match st.queue.find? fun d => descBank d.bytes = bank with
  | none => s
  | some d =>
    let b := d.bytes
    let mate := partnerBank b bank
    let need_ := if mate.isSome then 2 else 1
    let room (x : Nat) : Bool := activeIn st (some (x / 256)) +
      (if mate.any (fun m => m / 256 = x / 256) && mate ≠ some x then 2 else 1)
      ≤ rowBudget st.row / 32
    if !ssqOn s k || !bankIdle s k bank || (mate.any fun m => !bankIdle s k m || !room m) || !spaceHeld st d.run
      || activeIn st none + need_ > rowBudget st.row || !room bank then s
    else
      let mine := st.queue.filter fun x => x.run = d.run
      let s := setStack s k { st with queue := st.queue.filter fun x => x.run ≠ d.run }
      let r : Run := { number := d.run, group := d.group, descs := mine,
                       partials := if dFlight b = 1 then freshPartials b else [] }
      let x := bankAt s k bank
      let s := setBank s k bank { x with
        run := some r,
        unit := if d.block = [] then x.unit else { x.unit with operand := d.block ++ x.unit.operand.drop d.block.length } }
      match mate with
      | some m => setBank s k m { bankAt s k m with taken := true }
      | none => s

def onBank (stack bank : Nat) (s : State) (f : State → State) : Out :=
  if bank < 8192 then onUnit 16 stack s fun s => whenRunning s f else .fault .noSuchUnit

def execRunStart (stack bank : Nat) (s : State) : Out := onBank stack bank s (runStart stack bank)

/-! ## Pounds -/

/-- What a pound does beyond reading: its own writes, and at the flight's end its results; `qs` is the operand buffer,
`cols` the pound's columns. Answers the run's partials. -/
def poundWork (k : Nat) (d : Desc) (r : Run) (qs img bs : List PByte) (cols : List Col) (last : Bool) (s : State) :
    List Partial × State :=
  let b := d.bytes
  let at0 := (cols.head?.map (·.key)).getD (dKey b)
  let lo := at0 - dKey b
  match dFlight b with
  | 0 => (r.partials, if last then attnScoreEnd k d qs img s else s)
  | 1 => if last then attnFullEnd b r qs img s else (r.partials, s)
  | 2 => (r.partials, if last then decayEnd d img s else s)
  | 3 => (r.partials, if last then gemvEnd d qs img s else s)
  | 4 => (r.partials, axpyPound d qs lo bs s)
  | 5 => (r.partials, if last then reduceEnd d img s else s)
  | 6 => (r.partials, putArray (descKey (dCopyTo b) + lo) bs (flushRange (descKey (dCopyTo b) + lo) bs.length s))
  | 7 => (r.partials, zeroStack at0 (2048 * cols.length) s)
  | _ => (r.partials, if last then digestEnd d img s else s)

/-- What a pound leaves in its bank unit: the latch holds the last 64 bytes it read; its sequence, and so its registers
and accumulators, are internal to the SSQ (R236, R243). -/
def BankUnit.after (u : BankUnit) (free : Nat) (bs : List PByte) : BankUnit :=
  { u with latch := (u.latch ++ bs).drop (u.latch.length + bs.length - 64)
           regs := Vector.ofFn fun i => Config.unitReg free i
           acc := Vector.ofFn fun i => Config.unitAcc free i }

/-- The ranges that the columns of a pound read, neighbours joined. -/
def readsOf : List Col → List (Nat × Nat)
  | [] => []
  | c :: cs =>
    if c.bytes = 0 then readsOf cs else
    match readsOf cs with
    | (k, n) :: rest => if c.key + c.bytes = k then (c.key, c.bytes + n) :: rest else (c.key, c.bytes) :: (k, n) :: rest
    | [] => [(c.key, c.bytes)]

/-- The merge-buffer entries of a bank are flushed before a pound of it (R217). -/
def flushBank (k b : Nat) (s : State) : State := flushWhere k (fun e => bankNum e.line = b) s

/-- A descriptor of a command that a retry stops: its flight starts no further pound (R397). -/
def dueDesc (s : State) (d : Desc) : Bool := ((descCmd s d).bind (cmdAt s)).any fun c => c.due.isSome

/-- One pound of the flight at the front of a bank's run (R261). ROW-ZERO reads nothing. -/
def pound (flight k bank : Nat) (s : State) : State :=
  match (bankAt s k bank).run with
  | none => s
  | some r =>
    match r.descs with
    | [] => s
    | d :: _ =>
      let b := d.bytes
      if dFlight b ≠ flight || r.inPound || !ssqOn s k || dueDesc s d || lockOf s k bank ≠ []
        || (partnerBank b bank).any (fun m => lockOf s k m ≠ []) then s else
      let s := flushBank k bank s
      let s := match partnerBank b bank with | some m => flushBank k m s | none => s
      let ps := poundsOf b r s
      match ps[r.pound]? with
      | none => s
      | some cols =>
        let q := colReads (descCmd s d) (readsOf cols) s
        let img := if flight = 4 || flight = 6 then [] else r.image ++ q.1
        let x := bankAt q.2 k bank
        let p := poundWork k d r x.unit.operand img q.1 cols (r.pound + 1 = ps.length) q.2
        let s := { p.2 with free := p.2.free + 1 }
        let x := bankAt s k bank
        let s := setBank s k bank { x with
          run := some { r with pound := r.pound + 1, inPound := true, image := img, partials := p.1 }
          unit := x.unit.after p.2.free q.1 }
        match partnerBank b bank with
        | some m => setBank s k m { bankAt s k m with held := true }
        | none => s

def execAttnScore (stack bank : Nat) (s : State) : Out := onBank stack bank s (pound 0 stack bank)
def execAttnFull (stack bank : Nat) (s : State) : Out := onBank stack bank s (pound 1 stack bank)
def execScoreDecay (stack bank : Nat) (s : State) : Out := onBank stack bank s (pound 2 stack bank)
def execGemv (stack bank : Nat) (s : State) : Out := onBank stack bank s (pound 3 stack bank)
def execAxpy (stack bank : Nat) (s : State) : Out := onBank stack bank s (pound 4 stack bank)
def execReduce (stack bank : Nat) (s : State) : Out := onBank stack bank s (pound 5 stack bank)
def execPageCopy (stack bank : Nat) (s : State) : Out := onBank stack bank s (pound 6 stack bank)
def execRowZero (stack bank : Nat) (s : State) : Out := onBank stack bank s (pound 7 stack bank)
def execPageDigest (stack bank : Nat) (s : State) : Out := onBank stack bank s (pound 8 stack bank)

/-! ## Locks (R262, R263) -/

/-- The lock of one bank: refreshes, merge entries, waiting accesses up to 16 (all of them where no pound follows). -/
def lockBank (k b : Nat) (s : State) : State :=
  let s := flushBank k b (setBank s k b { bankAt s k b with owed := 0 })
  settleBank k b (serveBank k b (if bankFree s k b then (bankAt s k b).waiting.length else 16) s)

/-- A run ends (R249, R255, R267): its partials go to its group, or a flight without partials is done with its group. -/
def endRun (k b : Nat) (r : Run) (d : Desc) (s : State) : State :=
  let st := stackAt s k
  let groups := if dFlight d.bytes = 1 then
      updWhere (·.number == r.group) (fun g => { g with results := g.results ++ [(r.number, r.partials)] }) st.groups
    else st.groups.filter (·.number != r.group)
  let s := setStack s k { st with groups := groups, runs := if s.security.lockout then st.runs else satAdd st.runs 1 }
  let s := setBank s k b { bankAt s k b with run := none }
  match partnerBank d.bytes b with
  | some m => setBank s k m { bankAt s k m with taken := false }
  | none => s

/-- Whether no further descriptor can join a run: a later run of its group has begun, or the group is closed. -/
def runClosed (st : Stack) (r : Run) : Bool :=
  match st.groups.find? (·.number == r.group) with
  | some g => g.closed || g.runs.getLast? ≠ some r.number
  | none => true

/-- What follows a pound: the rest of the flight, the run's next descriptor, or the run's end. -/
def afterPound (k b : Nat) (r : Run) (s : State) : State :=
  let put (r : Run) (s : State) : State := setBank s k b { bankAt s k b with run := some r }
  match r.descs with
  | [] => put { r with inPound := false } s
  | d :: rest =>
    if r.pound < (poundsOf d.bytes r s).length then put { r with inPound := false } s
    else
      let st := stackAt s k
      let more := rest ++ st.queue.filter fun x => x.run = r.number
      let s := setStack s k { st with queue := st.queue.filter fun x => x.run ≠ r.number }
      if more = [] && runClosed st r then endRun k b r d s
      else if more = [] then put { r with inPound := false, waits := true } s
      else put { r with inPound := false, waits := false, pound := 0, image := [], descs := more } s

/-- LOCK: the pound ends, and with it perhaps the flight and the run. A run whose next descriptor has not come yet takes
it here, and a bank at which no pound follows serves what waits (R241). -/
def lock (k b : Nat) (s : State) : State :=
  match (bankAt s k b).run with
  | none => s
  | some r =>
    let mate := r.descs.head?.bind fun d => partnerBank d.bytes b
    let s1 := afterPound k b r s
    if r.inPound then
      match mate with
      | some m =>
        let s2 := setBank s1 k m { bankAt s1 k m with held := false }
        drainAll (lockBank k m (lockBank k b s2))
      | none => drainAll (lockBank k b s1)
    else if bankFree s1 k b then drainAll (lockBank k b s1)
    else s1

def execLock (stack bank : Nat) (s : State) : Out := onBank stack bank s (lock stack bank)

/-- The descriptors of a stack that satisfy `p` are dropped, with their groups and their merge space, and their runs
stop (R397, R358); the banks are then free, and what waited at them is served. -/
def haltStack (p : Desc → Bool) (s : State) (k : Nat) : State :=
  let st := stackAt s k
  let hit := (st.banks.filter fun b => b.2.run.any fun r => r.descs.any p).map (·.1)
  let mates := (st.banks.filter fun b => hit.contains b.1).filterMap fun b =>
    b.2.run.bind fun r => r.descs.head?.bind fun d => partnerBank d.bytes b.1
  let s := setStack s k { st with queue := st.queue.filter fun d => !p d, groups := st.groups.filter fun g => !p g.last }
  let free (s : State) (b : Nat) : State :=
    lockBank k b (setBank s k b { bankAt s k b with run := none, taken := false, held := false })
  drainAll ((hit ++ mates).foldl free s)

/-- On every stack. -/
def haltFlights (p : Desc → Bool) (s : State) : State := (List.range 16).foldl (haltStack p) s

/-! ## Merging (R255, R256) -/

/-- a precedes b. -/
def mergePartial (a b : Partial) : Partial :=
  let bad := a.poisoned || b.poisoned
  if b.count = 0 then { a with poisoned := bad }
  else if a.count = 0 then { b with poisoned := bad }
  else
    let mm := max32 a.m b.m
    let ca := sxExp (sub32 a.m mm)
    let cb := sxExp (sub32 b.m mm)
    { slot := a.slot, m := mm, l := fma32 a.l ca (mul32 b.l cb),
      acc := List.zipWith (fun x y => fma32 x ca (mul32 y cb)) a.acc b.acc,
      count := min (a.count + b.count) 65535, poisoned := bad }

/-- Finish a merged partial: log-sum-exp, 1.0, normalised output. -/
def finishPartial (p : Partial) : Partial :=
  if p.count = 0 then { p with m := negInf32, l := 0, acc := p.acc.map fun _ => 0 }
  else
    let r := sxRecip p.l
    { p with m := add32 p.m (sxLog p.l), l := one32, acc := p.acc.map fun x => mul32 x r }

/-- The runs' results of a group in repeat order. -/
def groupRuns (g : Group) : List (List Partial) :=
  g.runs.filterMap fun r => (g.results.find? (·.1 == r)).map (·.2)

/-- Merge the k-th slot of all runs. -/
def mergeSlot (runs : List (List Partial)) (i : Nat) : Option Partial :=
  (runs.filterMap fun r => r[i]?).foldl (fun a p => match a with | none => some p | some x => some (mergePartial x p)) none

/-- A partial record (R254). Poison goes into the words of its values. -/
def recordOf (b : DescBytes) (p : Partial) : List PByte :=
  let empty := p.count = 0
  let m := if empty then negInf32 else p.m
  bytes32 m p.poisoned ++ bytes32 p.l p.poisoned
    ++ clean (toLe 2 p.count ++ toLe 1 p.slot ++ [BitVec.ofNat 8 (flag empty 0 + flag p.poisoned 1 + flag (dFinal b) 2)]
      ++ toLe 2 (field b 16 2) ++ toLe 1 (field b 15 1) ++ [0])
    ++ p.acc.flatMap fun x => bytes32 x p.poisoned

/-- The values of a record that the checks of R402 see: offsets from the record's first byte. -/
def recordValues (p : Partial) : List (Nat × W32) :=
  if p.poisoned then [] else
  (if p.count = 0 then [] else [(0, p.m)]) ++ [(4, p.l)] ++ (p.acc.zipIdx 0).map fun x => (16 + 4 * x.2, x.1)

/-- The m of an EMPTY record, which may be an infinity (R256, R402). -/
def emptyValues (p : Partial) : List (Nat × W32) := if p.poisoned || p.count ≠ 0 then [] else [(0, p.m)]

/-- The softmax row sum of a finish: l × exp(m - lse) over the group's runs, in repeat order (R402). -/
def rowSum (runs : List (List Partial)) (i : Nat) (lse : W32) : W32 :=
  ((runs.filterMap fun r => r[i]?).filter fun p => p.count ≠ 0).foldl (fun a p =>
    add32 a (mul32 p.l (sxExp (sub32 p.m lse)))) 0

/-- Write one slot's record of a group, check it, count it when it is empty. -/
def putRecord (k : Nat) (g : Group) (runs : List (List Partial)) (i : Nat) (s : State) : State :=
  let d := g.last
  match mergeSlot runs i with
  | none => s
  | some p0 =>
    let p := if dFinal d.bytes then finishPartial p0 else p0
    let at0 := i * (16 + 4 * dD d.bytes)
    let s := putOutput d at0 (recordOf d.bytes p) s
    let sum := if dFinal d.bytes && p.count ≠ 0 && !p.poisoned then some (rowSum runs i p.m) else none
    let s := checkOutput k d ((recordValues p).map fun x => (at0 + x.1, x.2))
      ((emptyValues p).map fun x => (at0 + x.1, x.2)) sum s
    if p.count ≠ 0 then s else
    match descCmd s d with
    | some c => updCmd c (fun x => { x with empty := x.empty + 1 }) s
    | none => s

/-- MERGE_GROUP_RESULT: the first group of a stack whose runs have all ended is merged and written at AD, and its merge
space is free. -/
def mergeGroup (k : Nat) (s : State) : State :=
  match (stackAt s k).groups.find? fun g => dFlight g.last.bytes = 1 && g.closed && g.results.length = g.runs.length with
  | none => s
  | some g =>
    let runs := groupRuns g
    let s := (List.range (dSlots g.last.bytes).length).foldl (fun s i => putRecord k g runs i s) s
    let st := stackAt s k
    setStack s k { st with groups := st.groups.filter (·.number != g.number) }

def execMergeGroupResult (stack : Nat) (s : State) : Out :=
  onUnit 16 stack s fun s => whenRunning s fun s => if s.faults.jobFault.isSome then s else mergeGroup stack s

end Sys2Proof.Machine
end

