-- ==== Sys2Proof/Machine/StepRun.lean ====
section
/-!
DEFINITION. STEP-RUN (11 R329-R333, 10 R282, R290, R292, R281): its waits, the reservations, the launch over the latest
manifest, and the settle phase.
-/

namespace Sys2Proof.Machine

/-! ## The checks and the waits -/

/-- The most code bytes of a program that a STEP-RUN starts (R287, R331). -/
def stepCodeMax : Nat := 61440

def stepRunChk (s : State) (c : Cmd) : Chk (Program × Manifest) := do
  match programAt s (c.at 16 4) with
  | none => fail (c.bad 16)
  | some p =>
    need (p.job = c.job && p.code.length ≤ stepCodeMax && slotsLoaded (slotsFor s c.id c.part) p.slotMask) (c.bad 16)
    match tabFind s.serve.manifests c.part with
    | none => fail (.badParam 24)
    | some m =>
      need (m.address = c.addr 24 && !m.used) (.badParam 24)
      need (!tabHas s.serve.running c.part) .busy
      need (p.tiles.all fun t => match tileQueue s t with | some q => q = c.queue | none => true) .busy
      pure (p, m)

/-- The manifest that a command runs, with its partition. -/
def runOf (s : State) (cmd : Nat) : Option (Nat × Manifest) := s.serve.running.find? (·.2.cmd == cmd)

def setRunning (p : Nat) (m : Manifest) (s : State) : State :=
  { s with serve := { s.serve with running := tabPut s.serve.running p m } }

/-- The waits phase: commands of R292 that started earlier and name a request of the manifest, and tiles that an earlier
launch still runs on. -/
def stepWaits (s : State) (c : Cmd) (p : Program) (m : Manifest) : Bool :=
  (p.tiles.any fun t => (tileAt s t).running) ||
  s.front.cmds.any fun x => kvOpcodes.contains x.opcode && x.phase = .started && x.order < c.order
    && x.names.any fun r => m.entries.any (·.request == r)

/-! ## Reserve -/

/-- The records of the valid entries of a request's table. -/
def validRecords (p table : Nat) (s : State) : List Nat :=
  let t := readTab p table s
  (List.range (pairs (poolAt s p).desc)).flatMap fun q => ((t.row q s).filter entValid).map entRecord

/-- The request that an entry still names: one of the partition, not freed since the manifest was made (R330). -/
def liveEntry (p : Nat) (e : PlanEntry) (s : State) : Option Request :=
  if e.freed || !(poolAt s p).accepted then none else (requestAt s e.request).filter (·.part == p)

/-- Reserve one entry's positions (R282); NOT_RUN where its request is gone (R330) or cannot be given them. While a far
link retrains nothing is reserved. -/
def reserveEntry (p : Nat) (e : PlanEntry) (s : State) : Except Balk (PlanEntry × List Nat × State) :=
  match liveEntry p e s with
  | none => .ok ({ e with notRun := true }, [], s)
  | some r =>
    let t := readTab p r.table s
    match reserveAll t e.positions (pairs (poolAt s p).desc) s with
    | .error .wait => .error .wait
    | .error _ => .ok ({ e with notRun := true }, [], s)
    | .ok (u, full, s) =>
      let s := { t with used := u, next := (t.next + e.positions) % 2 ^ 32 }.write s
      .ok ({ e with first := t.next }, full, setRequest s e.request { r with inStep := true })

def reserveEntries (p : Nat) : List PlanEntry → State → Except Balk (List PlanEntry × List Nat × State)
  | [], s => .ok ([], [], s)
  | e :: es, s => do
    let a ← reserveEntry p e s
    let b ← reserveEntries p es a.2.2
    .ok (a.1 :: b.1, a.2.1 ++ b.2.1, b.2.2)

/-- The bytes of a manifest in memory. -/
def Manifest.span (m : Manifest) : Nat := 64 + 32 * m.entries.length

/-- The page tables of the requests that a manifest's entries name. -/
def stepTables (p : Nat) (m : Manifest) (s : State) : List PTab :=
  m.entries.filterMap fun e => (liveEntry p e s).map fun r => readTab p r.table s

/-- Write what the reserve phase adds to the manifest: first positions, NOT_RUN flags, the count of entries not run. -/
def writeReserved (c : Cmd) (m : Manifest) (s : State) : State :=
  let put (off : Nat) (bs : List Byte) (s : State) : State := c.store (m.address + BitVec.ofNat 64 off) (clean bs) s
  let s := (m.entries.zipIdx 0).foldl (fun s e =>
    let at0 := 64 + 32 * e.2
    if e.1.notRun then put (at0 + 6) [(e.1.bytes[6]?.getD 0)] s else put (at0 + 8) (toLe 4 e.1.first) s) s
  put 32 (toLe 4 (m.entries.filter (·.notRun)).length) s

/-- The reserve phase: positions, manifest, IN_STEP, and the pins of every request that the manifest names (R290), those
that do not run included. -/
def reserve (c : Cmd) (p : Nat) (m : Manifest) (s : State) : Except Balk (Manifest × State) := do
  let (es, full, s) ← reserveEntries p m.entries s
  let pins := es.flatMap fun e => match liveEntry p e s with
    | some r => (validRecords p r.table s).filter fun r => recLive p r s
    | none => []
  let m := { m with entries := es, filled := full, pinned := pins }
  .ok (m, setRunning p m (pins.foldl (fun s r => pin p r s) (writeReserved c m s)))

/-! ## Launch -/

/-- The argument block of R331. -/
def stepArgs (m : Manifest) : List Byte := toLe 8 m.address.toNat ++ toLe 8 m.entries.length ++ zeros 240

/-- Firmware places its walk routine in a tile: bytes 0xF000 to 0xFFFF (R287), whose contents are free. -/
def placeWalk (s : State) (t : Nat) : State :=
  setTile s t { tileAt s t with imem := memWrite (tileAt s t).imem 0xF000 ((List.range 4096).map Config.walkByte) }

/-- The launch phase: the program starts on every tile it is installed on, with the walk routine in place. -/
def stepLaunch (c : Cmd) (p : Program) (m : Manifest) (s : State) : State :=
  p.tiles.foldl placeWalk ((plainStarts p.tiles).foldl (startTile c.id p (stepArgs m))
    (updCmd c.id (fun y => { y with tiles := p.tiles }) s))

/-- A STEP-RUN past its checks: it waits for other commands (R292), for a stack whose row is 4 where a page must be copied
(R241, R283), for banks and links; then it reserves and launches. -/
def stepGo (c : Cmd) (p : Program) (part : Nat) (m : Manifest) (s : State) : State :=
  if stepWaits s c p m then waitCmd c.id s else
  let s := resumeCmd c.id s
  let ts := stepTables part m s
  if rowHeld (ts.flatMap (·.copies s)) s then s else
  c.gate (c.pieces s m.address m.span) s fun s' =>
    c.reads (ts.flatMap (·.reads s)) s' fun s' =>
      match reserve c part m s' with
      | .error _ => s
      | .ok (m, s) => stepLaunch c p m s

/-- Release what a STEP-RUN holds: its pins, IN_STEP, the running manifest. -/
def releaseStep (p : Nat) (m : Manifest) (s : State) : State :=
  let s := m.pinned.foldl (fun s r => unpin p r s) s
  let s := (m.entries.filter (!·.notRun)).foldl (fun s e => match requestAt s e.request with
    | some r => setRequest s e.request { r with inStep := false }
    | none => s) s
  { s with serve := { s.serve with running := tabDel s.serve.running p } }

/-- STEP-RUN. Its manifest is taken as it starts; a program that is unloaded while it waits rejects it. -/
def execStepRun (cmd : Nat) (s : State) : Out :=
  onCmd 0x0406 cmd s fun c s =>
    if c.tiles ≠ [] then s else
    match runOf s c.id with
    | some (part, m) =>
      (match programAt s (c.at 16 4) with
      | some p => stepGo c p part m s
      | none => rejectCmd c.id (c.bad 16) (releaseStep part m s))
    | none => judged c (stepRunChk s c) s fun x s =>
      let m := { x.2 with used := true, cmd := c.id }
      let s := { s with serve := { s.serve with manifests := tabPut s.serve.manifests c.part m } }
      stepGo c x.1 c.part m (setRunning c.part m s)

/-! ## Settle -/

/-- One entry that ran: its chunk, its customer's charge (R320), its counters and its clocks (R318). -/
def settleEntry (e : PlanEntry) (produced : Nat) (turnDone : Bool) (t : Nat) (s : State) : State :=
  match requestAt s e.request with
  | none => s
  | some r =>
    let chunks := match r.chunks with
      | x :: xs => if x.positions ≤ x.offset + e.input then xs else { x with offset := x.offset + e.input } :: xs
      | [] => []
    let r := { r with
      inStep := false, chunks := if e.input = 0 then r.chunks else chunks,
      consumed := r.consumed + BitVec.ofNat 64 e.input, produced := r.produced + BitVec.ofNat 64 produced,
      feedBack := r.feedBack && !e.feedBack }
    let r := if e.output && 0 < produced then
        { r with
          lastToken := t, fell := false, feedBack := !turnDone,
          state := if turnDone then .listening else if r.state = .turnEnd then .answering else r.state }
      else r
    let s := setRequest s e.request r
    match customerAt s r.customer with
    | some x => setCustomer s r.customer { x with level := max (x.level - 65536 * (e.input + produced)) minLevel }
    | none => s

/-- The settle phase at time `t`, but for how the command ends: pages that became full are sealed (one on a stack in row 4,
where no flight starts, only at a TIMEOUT, which does not wait, stays unsealed: DESIGN CHOICE, log 64), falls are judged before
the tokens of the step move the clocks (DEDUCED, log 25), then each entry that ran is settled. -/
def settleRun (c : Cmd) (p : Nat) (m : Manifest) (s : State) : State :=
  let t := now s
  let g := c.fetch m.address m.span s
  let bs := g.1.bytes
  let s := m.filled.foldl (fun s r =>
    if recLive p r s && !rowHeld [entPage (getRec p r s).location] s then sealPage (some c.id) p r s else s) g.2
  let s := (s.serve.requests.filter (·.2.part == p)).foldl (fun s x => detectFall t x.1 s) s
  let s := ((m.entries.zipIdx 0).filter (!·.1.notRun)).foldl (fun s e =>
    let at0 := 64 + 32 * e.2
    settleEntry e.1 (field bs (at0 + 24) 2) (bit (field bs (at0 + 6) 1) 4) t s) s
  releaseStep p m s

/-- The settle phase; the result word counts the positions of the entries that ran (R333). -/
def settleStep (c : Cmd) (p : Nat) (m : Manifest) (s : State) : State :=
  doneCmd c.id (((m.entries.filter (!·.notRun)).map (·.positions)).sum) (settleRun c p m s)

/-- The pages that the settle phase seals. -/
def Manifest.sealed (p : Nat) (m : Manifest) (s : State) : List Nat :=
  (m.filled.filter fun r => recLive p r s).map fun r => entPage (getRec p r s).location

/-- STEP_RUN_SETTLE: every tile the program was installed on has finished. While a stack on which it seals a page is in
row 4 it waits (R241). -/
def execStepRunSettle (cmd : Nat) (s : State) : Out :=
  onCmd 0x0406 cmd s fun c s =>
    if c.tiles = [] || c.tiles.any (fun t => (tileAt s t).running) then s else
    match runOf s c.id with
    | some (p, m) =>
      if rowHeld (m.sealed p s) s then s else
      c.gate (c.pieces s m.address m.span) s fun s =>
        c.reads (digestPieces (poolAt s p).desc (m.sealed p s)) s fun s => settleStep c p m s
    | none => s

end Sys2Proof.Machine
end

