-- ==== Sys2Proof/Machine/Jobs.lean ====
section
/-!
DEFINITION. Partitions and jobs (12 R339-R357): opening and closing, residency, slices, switches with the save area of
R344 and the state record of R353; which commands can start (02 R36, R37, 12 R347).
-/

namespace Sys2Proof.Machine

/-! ## Partitions (R341, R342) -/

def setPart (s : State) (p : Nat) (x : Part) : State := { s with parts := tabSet {} s.parts p x }

/-- A partition number whose shape is taken: open, or in a tenant switch. -/
def Part.live (x : Part) : Bool := x.isOpen || x.switch ≠ .none

def shapeIndexes (shape : Nat) : Nat := match shape with | 0 => 1 | 1 => 2 | _ => 4

/-- The lockout of R425 starts: the two counters are cleared, the monitor's session and its command end. -/
def startLockout (s : State) : State :=
  if s.security.lockout then s
  else
    { s with
      security := { s.security with lockout := true }
      dram := s.dram.map fun k => (k.1, { k.2 with runs := 0, lockWait := 0 })
      mon := { s.mon with session := false, todo := none, line := [] } }

def openPartChk (s : State) (c : Cmd) : Chk Unit := do
  let shape := c.at 16 1
  let index := c.at 17 1
  need (shape ≤ 2) (c.bad 16)
  need (index < shapeIndexes shape) (c.bad 17)
  need (c.at 18 1 < 2) (c.bad 18)
  need (1 ≤ c.at 19 1 && c.at 19 1 ≤ 4) (c.bad 19)
  match (shapeStacks shape index).find? fun k => (stackAt s k).failed with
  | some k => fail (.absent k)
  | none => pure ()
  need (!s.parts.any fun x => x.2.live &&
    (x.2.vf = c.at 19 1 || (shapeStacks x.2.shape x.2.index).any (shapeStacks shape index).contains)) .busy
  need (c.at 18 1 = 0 || !s.front.cmds.any fun x => x.opcode = 0x0905 && x.phase = .started) .busy

/-- PARTITION-OPEN: a confidential opening runs the tenant switch before its reply (R424). Each opening has a fresh
far-tier key pair (R233). -/
def execPartitionOpen (cmd : Nat) (s : State) : Out :=
  onCmd 0x0103 cmd s fun c s =>
    if s.parts.any fun x => x.2.switchCmd = some c.id then s else
    judged c (openPartChk s c) s fun _ s =>
      let p := shapeNumber (c.at 16 1) (c.at 17 1)
      let x : Part := { shape := c.at 16 1, index := c.at 17 1, vf := c.at 19 1, opening := (partAt s p).opening + 1 }
      if c.at 18 1 = 0 then doneCmd c.id p (setPart s p { x with isOpen := true })
      else startLockout (setPart s p { x with switch := .clear, switchCmd := some c.id, switchFrom := now s })

def queueOf (s : State) (p : Nat) : Bool := s.front.queues.any fun q => q.1 ≠ 0 && q.2.part = p

def closePartChk (s : State) (c : Cmd) : Chk Unit := do
  need (c.at 16 1 < 4 && (partAt s (c.at 16 1)).isOpen) (c.bad 16)
  need (!jobIn s (c.at 16 1) && !queueOf s (c.at 16 1)) .busy

/-- The close of a partition begins: from here to the end of its tenant switch nobody reaches it (R441-R444). -/
def beginClose (p : Nat) (cmd : Option Nat) (s : State) : State :=
  let s := clearPorts p s
  setPart s p { partAt s p with
    isOpen := false, closing := true, switch := .clear, switchCmd := cmd, switchFrom := now s, active := none,
    sliceOver := false }

/-- PARTITION-CLOSE; TENANT_SWITCH_MEMORY_DONE ends it. -/
def execPartitionClose (cmd : Nat) (s : State) : Out :=
  onCmd 0x0104 cmd s fun c s =>
    if s.parts.any fun x => x.2.switchCmd = some c.id then s else
    judged c (closePartChk s c) s fun _ s => beginClose (c.at 16 1) (some c.id) s

/-! ## Jobs (R343-R346) -/

/-- Bytes of a tile's share of a save area, and where its state record lies in it (R344; log 26). -/
def shareBytes : Nat := 3854336
def recordOff : Nat := 224 * 16384

def jobOpenChk (s : State) (c : Cmd) : Chk Unit := do
  let a := c.addr 16
  need (nodeOf a = 0xFFFF && spaceOf a = 0 && offsetOf a % 4096 = 0) (c.bad 16)
  need (c.at 24 4 = 0 || (500 ≤ c.at 24 4 && c.at 24 4 ≤ 100000)) (c.bad 24)
  need (c.at 28 1 ≤ 1) (c.bad 28)
  partChk c
  need ((partAt s c.part).isOpen
    && offsetOf a + 4096 + shareBytes * (partTiles s c.part).length ≤ viewBytes s (partStacks s c.part)) .notPermitted
  need ((s.jobs.jobs.filter (·.part == c.part)).length < 8 && !(partAt s c.part).resetting) .busy

def execJobOpen (cmd : Nat) (s : State) : Out :=
  onCmd 0x0105 cmd s fun c s =>
    judged c (jobOpenChk s c) s fun _ s =>
      let n := if c.at 24 4 = 0 then 2000 else c.at 24 4
      let j : Job := { handle := s.jobs.nextJob, part := c.part, save := c.addr 16, slice := n, nextSlice := n,
                       liveRange := c.at 28 1 = 1 }
      doneCmd c.id j.handle { s with jobs := { s.jobs with jobs := s.jobs.jobs ++ [j], nextJob := s.jobs.nextJob + 1 } }

/-- JOB-SLICE: the new length applies from the job's next activation. -/
def execJobSlice (cmd : Nat) (s : State) : Out :=
  onCmd 0x0107 cmd s fun c s =>
    judged c (need (500 ≤ c.at 16 4 && c.at 16 4 ≤ 100000) (c.bad 16)) s fun _ s =>
      doneCmd c.id 0 { s with jobs := { s.jobs with
        jobs := updWhere (·.handle == c.job) (fun j => { j with nextSlice := c.at 16 4 }) s.jobs.jobs } }

/-- End a job: its programs are unloaded, its requests closed, its save discarded. -/
def closeJob (h : Nat) (s : State) : State :=
  let s := (s.jobs.programs.filter (·.job == h)).foldl (fun s p => unload p s) s
  let s := (s.serve.requests.filter (·.2.job == h)).foldl (fun s r => closeRequest r.1 s) s
  { s with
    jobs := { s.jobs with jobs := s.jobs.jobs.filter (·.handle != h) }
    parts := s.parts.map fun x => if x.2.active = some h then (x.1, { x.2 with active := none, sliceOver := false }) else x }

/-- Commands of a job that have started and not completed, but for one. -/
def jobBusy (s : State) (h but : Nat) : Bool := s.front.cmds.any fun x => x.job = h && x.id ≠ but && x.phase ≠ .taken

/-- JOB-CLOSE waits for the job's started commands. -/
def execJobClose (cmd : Nat) (s : State) : Out :=
  onCmd 0x0106 cmd s fun c s =>
    if jobBusy s c.job c.id then waitCmd c.id s else
    c.reads ((s.serve.requests.filter (·.2.job == c.job)).flatMap fun r => closeReads r.1 s) (resumeCmd c.id s) fun s =>
      doneCmd c.id 0 (closeJob c.job s)

/-- A JOB-CLOSE of a job has started: no further command of it starts (R346). -/
def jobClosing (s : State) (h : Nat) : Bool :=
  s.front.cmds.any fun x => x.opcode = 0x0106 && x.job = h && x.phase = .started

/-! ## Units held by a queue's commands (R36) -/

/-- Units by kind: 0 tile, 1 program, 2 request, 3 queue, 4 stack channel, 5 chunk queue, 6 customer, 7 manifest of a
partition, 8 partition, 9 format slot, 10 guard-band table, 11 weight registration, 12 stack, 13 prefix set, 14 routing
entry, 15 fault response table, 16 port, 17 a stack as a partition's memory. -/
def Cmd.needs (s : State) (c : Cmd) : List (Nat × Nat) :=
  let tiles (l : List Nat) : List (Nat × Nat) := l.map fun t => (0, t)
  let memories (l : List Nat) : List (Nat × Nat) := l.map fun k => (17, k)
  let progTiles : List (Nat × Nat) := match programAt s (c.at 16 4) with | some p => tiles p.tiles | none => []
  if c.ext && !c.blockRead then [] else
  let setup : List (Nat × Nat) := (10, c.part) :: (List.range 4).map fun i => (9, c.part * 4 + i)
  match c.opcode with
  | 0x0101 => [(3, c.at 16 2), (8, c.at 18 1)]
  | 0x0102 => [(3, c.at 16 2)]
  | 0x0103 => (8, shapeNumber (c.at 16 1) (c.at 17 1)) :: memories (shapeStacks (c.at 16 1) (c.at 17 1))
  | 0x0104 => (8, c.at 16 1) :: memories (partStacks s (c.at 16 1))
  | 0x0205 => [(12, c.at 16 1)]
  | 0x0301 => tiles (selection s (c.at 28 2) (c.at 30 2))
  | 0x0302 => tiles (selection s (c.at 20 2) (c.at 22 2)) ++ setup
  | 0x0303 => (1, c.at 16 4) :: progTiles
  | 0x0304 => [(9, c.part * 4 + (c.at 16 1 - 12))]
  | 0x0401 => [(6, c.at 16 2)]
  | 0x0402 => [(6, c.at 16 2), (13, c.part * 65536 + c.at 18 2)]
  | 0x0403 => [(2, c.at 16 4), (5, c.at 16 4)]
  | 0x0404 => [(5, c.at 16 4)]
  | 0x0405 => [(7, c.part)]
  | 0x0406 => (7, c.part) :: progTiles ++ setup ++ (stepRequests s c).map fun r => (2, r)
  | 0x0407 => [(2, c.at 16 4), (2, c.at 20 4)]
  | 0x040D => [(13, c.part * 65536 + c.at 16 2)]
  | 0x0502 | 0x0503 => [(11, c.at 16 4)]
  | 0x0603 => (List.range (min (c.at 18 2) 256)).map fun i => (14, 256 * c.at 16 1 + c.at 17 1 + i)
  | 0x0604 | 0x0605 => [(16, c.at 16 1)]
  | 0x0903 => [(15, 0)]
  | 0x0904 => [(10, c.part)]
  | 0x0905 => [(4, c.at 16 1 * 32 + c.at 17 1)]
  | _ => if c.opcode / 256 = 4 then [(2, c.at 16 4)] else []

/-- What an unfinished command holds: a launch also its program; a STEP-RUN keeps the latest manifest only until it has
taken it; a launch only reads format slots and the guard-band table. -/
def Cmd.holds (s : State) (c : Cmd) : List (Nat × Nat) :=
  let own := c.needs s
  match c.opcode with
  | 0x0302 => (1, c.at 16 4) :: own.filter (·.1 == 0)
  | 0x0406 => (1, c.at 16 4) :: own.filter fun u => u.1 ≤ 2 || (u.1 = 7 && (runOf s c.id).isNone)
  | _ => own

/-- A unit that the command needs is held by an earlier unfinished command of its queue. -/
def unitHeld (s : State) (c : Cmd) : Bool :=
  let want := c.needs s
  want ≠ [] && s.front.cmds.any fun x => x.queue = c.queue && x.id < c.id && x.phase ≠ .ended
    && (x.holds s).any want.contains

/-- Ring order, fence and units allow a taken command to start (R36, R37). -/
def orderOk (s : State) (c : Cmd) : Bool :=
  c.phase = .taken
    && !(s.front.cmds.any fun x => x.queue = c.queue && x.id < c.id && (x.phase = .taken || c.flag flagFence))
    && !unitHeld s c

/-! ## Slices (R347-R349) -/

/-- The resident jobs of a partition that have a command ready to start, in increasing handle order. -/
def readyJobs (s : State) (p : Nat) : List Nat :=
  (s.jobs.jobs.filter fun j => j.part = p && !jobClosing s j.handle
    && s.front.cmds.any fun x => x.job = j.handle && x.part = p && x.queue ≠ 0 && (queueAt s x.queue).part = p
      && orderOk s x).map (·.handle)

/-- The next job after the outgoing one's handle, wrapping; with no job active, the lowest handle (log 27). -/
def nextJob (s : State) (p : Nat) : Option Nat :=
  let out := (partAt s p).active.getD 0
  let ready := (readyJobs s p).filter (· != out)
  match ready.find? (out < ·) with
  | some h => some h
  | none => ready.head?

/-- The active job lets its commands start: its slice has not ended for another (R347, R348). -/
def jobRuns (s : State) (h : Nat) : Bool :=
  match jobAt s h with
  | some j => (partAt s j.part).active = some h && !(partAt s j.part).sliceOver && !jobClosing s h
  | none => false

/-- SLICE_END: with no other job ready, a new slice begins; otherwise no further command of the job starts. -/
def sliceEnd (p : Nat) (s : State) : State :=
  let x := partAt s p
  match x.active.bind (jobAt s) with
  | none => s
  | some j =>
    if x.sliceOver || now s < x.activatedAt + 1000 * j.slice then s
    else if (nextJob s p).isNone then setPart s p { x with activatedAt := now s }
    else setPart s p { x with sliceOver := true }

def execSliceEnd (part : Nat) (s : State) : Out := onUnit 4 part s fun s => whenRunning s (sliceEnd part)

/-! ## State records (R353) -/

/-- Bytes as 0 or 1 flags, eight to a byte. -/
def packFlags : Nat → List Bool → List Byte
  | 0, _ => []
  | n + 1, bs => BitVec.ofNat 8 (((bs.take 8).zipIdx 0).foldl (fun a b => a + flag b.1 b.2) 0) :: packFlags n (bs.drop 8)

/-- The internal image of a weight buffer: loaded, format, K, length; poison flags; bytes (log 26). -/
def Weights.image (w : Weights) : List Byte :=
  let head := toLe 1 (flag w.loaded 0) ++ toLe 1 w.format ++ toLe 2 w.k ++ toLe 4 w.bytes.length ++ zeros 56
  let body := head ++ packFlags 5120 (w.bytes.map (·.2)) ++ w.bytes.map (·.1)
  body.take 49152 ++ zeros (49152 - body.length)

def Weights.ofImage (bs : List Byte) : Weights :=
  let n := min (field bs 4 4) 43968
  { loaded := bit (field bs 0 1) 0, format := field bs 1 1, k := field bs 2 2
    bytes := (List.range n).map fun i => (bs[5184 + i]?.getD 0, bit (field bs (64 + i / 8) 1) (i % 8)) }

/-- The 32 bytes of an address register. -/
def AReg.image (a : AReg) : List Byte :=
  let w (v : Int) : List Byte := toLe 4 (v % 2 ^ 32).toNat
  w a.base ++ w a.s0 ++ w a.s1 ++ w a.s2 ++ toLe 2 a.w0 ++ toLe 2 a.w1 ++ toLe 2 a.w2 ++ toLe 2 a.i0 ++ toLe 2 a.i1
    ++ toLe 2 a.i2 ++ zeros 4

def AReg.ofImage (bs : List Byte) : AReg :=
  let w (o : Nat) : Int := signed 32 (field bs o 4)
  let h (o : Nat) : Nat := field bs o 2
  ⟨w 0, w 4, w 8, w 12, h 16, h 18, h 20, h 22, h 24, h 26⟩

/-- A tile's state record. -/
def Tile.record (x : Tile) : List Byte :=
  memRead x.imem 0 65536 ++ memRead x.priv 0 16384 ++ x.wbuf0.image ++ x.wbuf1.image
    ++ (List.range 32).flatMap (fun r => toLe 8 (tabGet 0 x.regs r).toNat)
    ++ (List.range 4).flatMap (fun e => (List.range 16).flatMap fun r => (aregAt' (x.engine e).aregs r).image)
    ++ (List.range 4).flatMap (fun g => toLe 8 (tabGet 0 x.gbase g).toNat)
    ++ (List.range 4).flatMap (fun e => toLe 4 (x.engine e).lfsr.toNat) ++ zeros 1744
where
  aregAt' (rs : Tab AReg) (r : Nat) : AReg := tabGet {} rs r

/-- A table from a function of its keys `0 … n - 1`. -/
def tabOf {α : Type} [DecidableEq α] (d : α) (n : Nat) (f : Nat → α) : Tab α :=
  (List.range n).foldl (fun t i => tabSet d t i (f i)) []

/-- The tile that a state record describes; `words` is the length of the code installed in it. -/
def Tile.ofRecord (bs : List Byte) (words : Nat) : Tile :=
  let eng (e : Nat) : Engine :=
    { aregs := tabOf {} 16 fun r => AReg.ofImage ((bs.drop (180480 + 512 * e + 32 * r)).take 32)
      lfsr := BitVec.ofNat 32 (field bs (182560 + 4 * e) 4) }
  { imem := memWrite [] 0 (bs.take 65536), codeWords := words
    priv := memWrite [] 0 ((bs.drop 65536).take 16384)
    wbuf0 := Weights.ofImage ((bs.drop 81920).take 49152), wbuf1 := Weights.ofImage ((bs.drop 131072).take 49152)
    regs := tabOf 0 32 fun r => BitVec.ofNat 64 (field bs (180224 + 8 * r) 8)
    gbase := tabOf 0 4 fun g => BitVec.ofNat 64 (field bs (182528 + 8 * g) 8)
    mx := eng 0, vx := eng 1, sx := eng 2, dx := eng 3 }

/-! ## Switches (R351-R357) -/

/-- The blocks of a map. -/
def blocksIn (m : BitVec 224) : List Nat := (List.range 224).filter m.getLsbD

/-- The live ranges of a tile (R356); none where an entry breaks its layout. -/
def liveRanges (x : Tile) : Option (List (Nat × Nat)) :=
  let es := (List.range 32).map fun i => (leNat (memRead x.priv (0x3E00 + 8 * i) 4), leNat (memRead x.priv (0x3E04 + 8 * i) 4))
  let es := es.takeWhile fun e => e.2 ≠ 0
  if es.all fun e => e.1 % 64 = 0 && e.2 % 64 = 0 && e.1 + e.2 ≤ 0x380000 then some es else none

/-- Byte `off` of the share of the partition's `i`-th present tile. -/
def shareAddr (j : Job) (i off : Nat) : W64 := j.save + BitVec.ofNat 64 (4096 + off + shareBytes * i)

/-- Copy a range of a tile's window to its share, and back. -/
def saveRange (j : Job) (t i off n : Nat) (s : State) : State :=
  let g := getTile true (2 ^ 22 * t + off) n s
  let s := charge none g s
  match store .lockkeeper (some j.part) (shareAddr j i off) g.data s with
  | .ok s => s
  | .error _ => s

def restoreRange (j : Job) (t i off n : Nat) (s : State) : State :=
  match fetch false .lockkeeper (some j.part) none (shareAddr j i off) n s with
  | .ok r => putTile (2 ^ 22 * t + off) r.1.data r.2
  | .error _ => s

/-- Save one tile: its dirty blocks or its live ranges, and its state record. -/
def saveTile (j : Job) (s : State) (ti : Nat × Nat) : State :=
  let x := tileAt s ti.1
  let ranges := if j.liveRange then (liveRanges x).getD [] else (blocksIn x.dirty).map fun b => (16384 * b, 16384)
  let s := ranges.foldl (fun s r => saveRange j ti.1 ti.2 r.1 r.2 s) s
  match store .lockkeeper (some j.part) (shareAddr j ti.2 recordOff) (clean x.record) s with
  | .ok s => s
  | .error _ => s

/-- Save a job, keeping its held maps with its save. -/
def saveJob (j : Job) (s : State) : State :=
  let ts := (partTiles s j.part).zipIdx 0
  let held := ts.foldl (fun h t => tabSet 0 h t.1 (tileAt s t.1).held) []
  let s := ts.foldl (saveTile j) s
  { s with jobs := { s.jobs with
      jobs := updWhere (·.handle == j.handle) (fun x => { x with saved := true, held := held }) s.jobs.jobs } }

/-- A tile with nothing in it: all its blocks are zero and its cache is empty. -/
def clearTile (s : State) (t : Nat) : State :=
  let s := zeroTile (2 ^ 22 * t) 0x380000 s
  setTile s t { beatsHi := (tileAt s t).beatsHi }

/-- The words of code that a job's program installed in a tile. -/
def installedWords (s : State) (h t : Nat) : Nat :=
  match s.jobs.programs.find? fun p => p.job = h && p.tiles.contains t with
  | some p => p.code.length / 4
  | none => 0

/-- Restore one tile: its state record, then its held blocks or its live ranges; then its maps (R351). -/
def restoreTile (j : Job) (s : State) (ti : Nat × Nat) : State :=
  let r := match fetch false .lockkeeper (some j.part) none (shareAddr j ti.2 recordOff) 184320 s with
    | .ok r => r
    | .error _ => ({}, s)
  let x := { Tile.ofRecord r.1.bytes (installedWords s j.handle ti.1) with
    beatsHi := (tileAt s ti.1).beatsHi, beats := (tileAt s ti.1).count }
  let s := setTile r.2 ti.1 x
  let held := tabGet 0 j.held ti.1
  let ranges := if j.liveRange then (liveRanges x).getD [] else (blocksIn held).map fun b => (16384 * b, 16384)
  let s := ranges.foldl (fun s r => restoreRange j ti.1 ti.2 r.1 r.2 s) s
  let y := tileAt s ti.1
  setTile s ti.1 { y with held := if j.liveRange then y.held else held, dirty := 0 }

/-- A tile between two jobs: nothing in it but the beat count of its last LAUNCH (R352, R478). -/
def emptyTile (s : State) (t : Nat) : State :=
  let n := (tileAt s t).count
  let s := clearTile s t
  setTile s t { tileAt s t with beats := n }

/-- Zero the tiles, bring the incoming job back, activate it. -/
def activate (j : Job) (s : State) : State :=
  let ts := partTiles s j.part
  let s := ts.foldl emptyTile s
  let s := if j.saved then (ts.zipIdx 0).foldl (restoreTile j) s else s
  let s := setPart s j.part { partAt s j.part with active := some j.handle, activatedAt := now s, sliceOver := false }
  { s with jobs := { s.jobs with
      jobs := updWhere (·.handle == j.handle) (fun x => { x with slice := x.nextSlice }) s.jobs.jobs } }

/-- A tile whose live-range table breaks its layout at the save of a job. -/
def badRanges (s : State) (j : Job) : Option Nat :=
  if j.liveRange then (partTiles s j.part).find? fun t => (liveRanges (tileAt s t)).isNone else none

/-- JOB_SWITCH: the outgoing job's slice has ended and its started commands have completed, or no job is active. When
the others no longer have a command ready, a new slice of the outgoing job begins. -/
def jobSwitch (p : Nat) (s : State) : State :=
  let x := partAt s p
  let next := (nextJob s p).bind (jobAt s)
  match x.active.bind (jobAt s) with
  | none => (match next with
    | some j => activate j s
    | none => s)
  | some out =>
    if !x.sliceOver || jobBusy s out.handle (2 ^ 64) then s
    else match next with
      | none => setPart s p { x with sliceOver := false, activatedAt := now s }
      | some j =>
        (match badRanges s out with
        | some t => noteJobFault (0, t, 4) none s
        | none => activate j (saveJob out s))

def execJobSwitch (part : Nat) (s : State) : Out :=
  onUnit 4 part s fun s => whenRunning s fun s => if (partAt s part).isOpen then jobSwitch part s else s

end Sys2Proof.Machine
end

