-- ==== Sys2Proof/Machine/Tenant.lean ====
section
/-!
DEFINITION. The tenant switch (15 R441-R445): its on-die clear, its memory phase, SCRUB-STATUS; the lockout's end (R425).
-/

namespace Sys2Proof.Machine

/-! ## The on-die clear (R441) -/

/-- A stack whose SSQ, query cache, merge space and bank units hold nothing. -/
def clearSsq (s : State) (k : Nat) : State :=
  let s := haltStack (fun _ => true) s k
  let st := stackAt s k
  setStack s k { st with
    queue := [], groups := [], queries := []
    banks := st.banks.foldl (fun t b => tabSet {} t b.1 { b.2 with unit := {} }) st.banks }

/-- A function's SPDM session ends: its secrets, its partition's Sluice keys and its bounce binding go (R430, R446).
The extent of the region stays, so that an access to it fails under R437. -/
def endSpdm (fn : Nat) (s : State) : State :=
  let x := s.security.spdm[fn]?.getD {}
  let s := { s with security := { s.security with
    spdm := s.security.spdm.setIfInBounds fn { x with session := none, secret := 0, established := false } } }
  match partOfFn s fn with
  | some p => setBounce s p { bounceAt s p with live := false, secret := 0, inCount := [], outCount := [] }
  | none => s

/-- The IOD state of a partition: requests, customers, manifests, guard bands, format slots, Sluice keys. -/
def clearIod (p : Nat) (s : State) : State :=
  let s := { s with
    serve := { s.serve with
      requests := s.serve.requests.filter (·.2.part != p), customers := s.serve.customers.filter (·.2.part != p),
      manifests := tabDel s.serve.manifests p, running := tabDel s.serve.running p }
    fabric := { s.fabric with grants := s.fabric.grants.filter (·.place != p) } }
  setBounce (setPart s p { partAt s p with guards := [], slots := [] }) p { fails := (bounceAt s p).fails }

/-- The zeroing of a whole stack: 48 ns for each row of each bank (R259). -/
def stackWork (k : Nat) : Nat := 48 * (8192 * (bankBytes k / 2048))

/-- TENANT_SWITCH_CLEAR_DONE: the on-die clear of the shape is over; every up link rekeys, the memory phase begins. -/
def switchCleared (p : Nat) (s : State) : State :=
  let x := partAt s p
  let r := shapeTiles x.shape x.index
  let s := ((List.range r.2).map (· + r.1)).foldl clearTile s
  let s := (shapeStacks x.shape x.index).foldl clearSsq s
  let s := clearIod p (if x.closing then endSpdm x.vf s else s)
  let s := (List.range 16).foldl (fun s q => startRekey q s) (clearPorts p s)
  let s := (shapeStacks x.shape x.index).foldl (fun s k => setStack s k { stackAt s k with scrubLeft := stackWork k }) s
  setPart s p { partAt s p with switch := .memory, memoryFrom := now s }

def execTenantSwitchClearDone (part : Nat) (s : State) : Out :=
  onUnit 4 part s fun s => if (partAt s part).switch = .clear && running s then switchCleared part s else s

/-! ## The memory phase (R442, R445) -/

/-- Every byte of a stack zero, in all-zero codewords. -/
def zeroWhole (s : State) (k : Nat) : State := zeroPages k 0 512 s

/-- The lockout ends with the last confidential partition's close scrub (R425). -/
def endLockout (s : State) : State :=
  if s.parts.any fun p => p.2.confidential || (p.2.switch ≠ .none && !p.2.closing) then s
  else { s with security := { s.security with lockout := false } }

/-- The end of a close: customers and slots are gone already; the pool registers are cleared, the far-tier key pair is
destroyed with the opening, the virtual function is unbound (R342). -/
def closeDone (p : Nat) (s : State) : State :=
  let x := partAt s p
  let s := endLockout (setPart (setPool s p {}) p { opening := x.opening })
  match x.switchCmd with
  | some c => doneCmd c (now s - x.switchFrom) s
  | none => s

/-- The end of a confidential opening: the partition is open (R424). -/
def openDone (p : Nat) (s : State) : State :=
  let x := partAt s p
  let s := setPart s p { x with isOpen := true, confidential := true, switch := .none, switchCmd := none }
  match x.switchCmd with
  | some c => doneCmd c p s
  | none => s

/-- TENANT_SWITCH_MEMORY_DONE: every stack of the shape is zeroed, once device time has passed for all their rows. -/
def switchDone (p : Nat) (s : State) : State :=
  let x := partAt s p
  let ks := shapeStacks x.shape x.index
  if ks.any fun k => (stackAt s k).scrubLeft ≠ 0 then s
  else
    let s := raise .scrubDone (ks.foldl zeroWhole s)
    releaseHeld (if x.closing then closeDone p s else openDone p s)

def execTenantSwitchMemoryDone (part : Nat) (s : State) : Out :=
  onUnit 4 part s fun s => if (partAt s part).switch = .memory && running s then switchDone part s else s

/-! ## SCRUB-STATUS -/

/-- The ns that zeroing takes of work `left` on each of some stacks, in bank times 48 ns a row: at most the row's budget of
banks on each stack (R239; a stack paused in row 4 counts at the rate of row 3) and 8,192 banks on the module. -/
def memoryTime (s : State) (ks : List Nat) (left : Nat → Nat) : Nat :=
  max (ks.foldl (fun a k => max a (left k / rowBudget (min 3 (stackAt s k).row))) 0) ((ks.map left).sum / 8192)

/-- The estimate of R445, from the rows still to zero, in whole device-time steps (DESIGN CHOICE, log 39). -/
def switchLeft (p : Nat) (s : State) : Nat :=
  let x := partAt s p
  let ks := shapeStacks x.shape x.index
  match x.switch with
  | .none => 0
  | .clear => memoryTime s ks stackWork / 10 * 10
  | .memory => memoryTime s ks (fun k => (stackAt s k).scrubLeft) / 10 * 10

def execScrubStatus (cmd : Nat) (s : State) : Out :=
  onCmd 0x0802 cmd s fun c s =>
    judged c (need (c.at 16 1 < 4) (c.bad 16)) s fun _ s => doneCmd c.id (switchLeft (c.at 16 1) s) s

end Sys2Proof.Machine
end

