-- ==== Sys2Proof/Machine/Timeout.lean ====
section
/-!
DEFINITION. How a command ends with TIMEOUT (02 R39, R57): what it lets go, and its named destinations, which are then
undefined.
-/

namespace Sys2Proof.Machine

/-- Weight pages of a range (R408). -/
def pageCount (bytes : Nat) : Nat := (bytes + 65535) / 65536

/-- The runs of bytes that a COPY-TENSOR writes. -/
def copyRuns (c : Cmd) (s : State) : List (W64 × Nat) :=
  match ((ExceptT.run (layoutChk s c)).run []).1 with
  | .ok l => (imageRuns (l.run (viewOf s (c.place s) c.fetched c.tainted) {} 1).image).map fun w =>
      (BitVec.ofNat 64 w.1, w.2.length)
  | .error _ => []

/-- The destinations that a command names: address and bytes. A command whose own table gives the effects of TIMEOUT
has none. -/
def Cmd.named (c : Cmd) (s : State) : List (W64 × Nat) :=
  match c.opcode with
  | 0x0201 => [(c.addr 24, c.at 32 8)]
  | 0x0202 => [(c.addr 16, c.at 24 8)]
  | 0x0203 => copyRuns c s
  | 0x0204 => [(c.addr 32, 64)]
  | 0x0206 => [(c.addr 16, 8)]
  | 0x0405 => [(c.addr 16, 64 + 32 * c.at 28 2)]
  | 0x0601 | 0x0902 => [(c.addr 16, c.at 24 4)]
  | 0x0604 => [(c.addr 24, 64)]
  | 0x0705 => [(c.addr 16, 128)]
  | 0x0801 => [(c.addr 16, c.at 24 4)]
  | 0x0901 => [(c.addr 16, 512)]
  | 0x0905 => [(c.addr 32, 32 * min (8 * c.at 24 8) 1024)]
  | 0x0906 => [(c.addr 16, 1088)]
  | _ => []

/-- Bytes that nothing is known of. -/
def freeBytes (n : Nat) (s : State) : List Byte × State :=
  ((List.range n).map fun i => Config.timeoutByte (s.free + i), { s with free := s.free + n })

/-- The named destinations on this module are undefined. -/
def spoil (c : Cmd) (s : State) : State :=
  (c.named s).foldl (fun s r =>
    match c.place s r.1 r.2 with
    | .ok (.near ps) =>
      let b := freeBytes r.2 s
      putPieces ps (clean b.1) b.2
    | _ => s) s

/-! ## Pages and digests (R408) -/

/-- Bytes of page `p` inside a range. -/
def pageBytes (bytes p : Nat) : Nat := min 65536 (bytes - 65536 * p)

def weightAt (s : State) (h : Nat) : Option Registration := s.weights.find? (·.handle == h)

/-- Byte `o` on from an address. -/
def plus (a : W64) (o : Nat) : W64 := a + BitVec.ofNat 64 o

/-- Record the faults of a read against a command without counting them in its reply. -/
def noteFaults (cmd : Option Nat) (g : Got) (s : State) : State :=
  g.notes.foldl (fun s n => report n.1 n.2.1 cmd n.2.2 s) s

/-- Firmware reads a range of a partition, for a command or for none; its faults are recorded, its words counted in no
reply. -/
def readQuiet (cmd : Option Nat) (p : Nat) (a : W64) (n : Nat) (s : State) : Except Balk (Got × State) :=
  match resolve s .lockkeeper (some p) a n with
  | .ok (.near ps) => match reachOf s (.command (cmd.getD 0)) ps with
    | .go => let r := getPieces false ps s; .ok (r.1, noteFaults cmd r.1 r.2)
    | .wait => .error .wait
    | .dead => .error .dead
  | _ => .error .bad

/-! ## Repairing and verifying a page (R411-R414) -/

def weightChk (s : State) (c : Cmd) : Chk Registration :=
  match weightAt s (c.at 16 4) with
  | some w => if w.part = c.part then pure w else fail (c.bad 16)
  | none => fail (c.bad 16)

/-- The digest of a page in the bytes of a digest block. -/
def digestOf (block : List Byte) (p : Nat) : List Byte := (block.drop (48 * (1 + p))).take 48

/-- The digest that the digest block holds for a page (R411). -/
def blockDigest (w : Registration) (p : Nat) (s : State) : Except Balk (List Byte × State) := do
  let (g, s) ← readQuiet none w.part (plus w.digests (48 * (1 + p))) 48 s
  if g.poisoned = 0 then .ok (g.bytes, s) else .error .bad

/-- Fetch page `p` of the backing copy, check it against its digest and install it (R411 steps 1 to 3); the reason where
it fails (R413) or has to wait. -/
def repairPage (w : Registration) (p : Nat) (digest : List Byte) (s : State) : Except Balk State := do
  if w.backing = 0 then .error .bad
  let (g, s) ← readQuiet none w.part (plus w.backing (65536 * p)) (pageBytes w.bytes p) s
  if g.poisoned ≠ 0 || digestBytes (Config.sha384 g.bytes) ≠ digest then .error .bad
  match store .lockkeeper (some w.part) (plus w.address (65536 * p)) g.data s with
  | .ok s => .ok { s with faults := { s.faults with repairs := satAdd s.faults.repairs 1 } }
  | .error _ => .error .bad

/-- A repair has failed (R413). -/
def repairFailed (s : State) : State :=
  raise .repairFail { s with faults := { s.faults with repairFails := satAdd s.faults.repairFails 1 } }

/-- Verify one page: whether it mismatched, and whether it stays bad. -/
def verifyPage (c : Cmd) (w : Registration) (block : List Byte) (p : Nat) (s : State) : Except Balk (Bool × Bool × State) := do
  let (g, s) ← readQuiet (some c.id) w.part (plus w.address (65536 * p)) (pageBytes w.bytes p) s
  let s := updCmd c.id (fun x => { x with corrected := x.corrected + g.corrected }) s
  if g.poisoned = 0 && digestBytes (Config.sha384 g.bytes) = digestOf block p then .ok (false, false, s)
  else match repairPage w p (digestOf block p) s with
    | .ok s => .ok (true, false, s)
    | .error .wait => .error .wait
    | .error _ => .ok (true, true, if w.backing = 0 then s else repairFailed s)

/-- Verify pages; answers how many mismatched and how many stay bad. -/
def verifyPages (c : Cmd) (w : Registration) (block : List Byte) : List Nat → State → Except Balk (Nat × Nat × State)
  | [], s => .ok (0, 0, s)
  | p :: ps, s => do
    let (miss, bad, s) ← verifyPage c w block p s
    let (m, b, s) ← verifyPages c w block ps s
    .ok (m + (if miss then 1 else 0), b + (if bad then 1 else 0), s)

/-- A registration and its digest block, which is control data (R504); the result word counts pages under every status
(R414). -/
def verifyChk (s : State) (c : Cmd) : Chk (Registration × List Byte) := do
  let w ← weightChk s c
  let ps := c.pieces s w.digests (48 * (1 + pageCount w.bytes))
  modify (· ++ ps)
  let g := (getPieces false ps s).1
  need (g.poisoned = 0) (.poisoned 0)
  pure (w, g.bytes)

/-- Verify pages until one has to wait: how many mismatched. -/
def verifySome (c : Cmd) (w : Registration) (block : List Byte) : List Nat → State → Nat × State
  | [], s => (0, s)
  | p :: ps, s => match verifyPage c w block p s with
    | .ok (miss, _, s) =>
      let r := verifySome c w block ps s
      (r.1 + (if miss then 1 else 0), r.2)
    | .error _ => (0, s)

/-- A VERIFY-WEIGHTS that ends with TIMEOUT: the pages that it had come to, a number that is open, are verified; its result is
how many of them mismatched, and their repairs stay (R414). -/
def verifyTimeout (c : Cmd) (s : State) : Nat × State :=
  let s1 : State := { s with free := s.free + 1 }
  match ((ExceptT.run (verifyChk s1 c)).run []).1 with
  | .ok x => verifySome c x.1 x.2 (List.range (Config.timeoutDone s.free % (pageCount x.1.bytes + 1))) s1
  | .error _ => (0, s1)

/-- What could have been completed: bytes of the named destinations. -/
def Cmd.whole (c : Cmd) (s : State) : Nat := ((c.named s).map (·.2)).sum

/-- A command lets go of what it waits for: answers from other nodes, a tenant switch, a rekey. -/
def letGo (c : Cmd) (s : State) : State :=
  { s with
    fabric := { s.fabric with
      remote := s.fabric.remote.filter fun r => !(r.cmd = some c.id && r.kind ≠ .write)
      ports := s.fabric.ports.map fun p =>
        if p.2.rekeyCmd = some c.id then (p.1, { p.2 with rekeyCmd := none }) else p }
    parts := s.parts.map fun p =>
      if p.2.switchCmd = some c.id then (p.1, { p.2 with switchCmd := none }) else p }

/-- A STEP-RUN that ends with JOB_LOST charges nothing; with any other status it settles, once its tiles have started
(R332, R333). -/
def endStep (c : Cmd) (lost : Bool) (s : State) : State :=
  match runOf s c.id with
  | some (p, m) => if lost || c.tiles = [] then releaseStep p m s else settleRun c p m s
  | none => s

/-- A TRAFFIC-GEN that stops rewrites the bursts it has touched as zeros (R228); how many those are is open. -/
def endTraffic (c : Cmd) (s : State) : State :=
  if c.opcode = 0x0905 && ((ExceptT.run (trafficChk s c)).run []).1.toBool then
    rewriteBursts (c.at 16 1) (c.at 17 1) (c.at 19 1) (Config.timeoutDone s.free % (c.at 24 8 + 1))
      { s with free := s.free + 1 }
  else s

/-- It ends with TIMEOUT; how much it had completed is open. -/
def timeoutEnd (c : Cmd) (s : State) : State :=
  if c.opcode = 0x0503 then
    let r := verifyTimeout c s
    finishCmd c.id [.timeout r.1] r.2
  else
    let n := c.whole s
    let s := spoil c (endTraffic c (letGo c (endStep c false s)))
    finishCmd c.id [.timeout (Config.timeoutDone s.free % (n + 1))] { s with free := s.free + 1 }

end Sys2Proof.Machine
end

