-- ==== Sys2Proof/Machine/Weights.lean ====
section
/-!
DEFINITION. Registered weights and their repair (14 R408-R415), retries (R397, R398), hangs (R394), fault records and
their commands (R416-R421), guard bands (R404, R405).
-/

namespace Sys2Proof.Machine

/-! ## REGISTER-WEIGHTS (R409) -/

def registered (w : Registration) (part : Nat) (a : W64) (n : Nat) : Bool :=
  w.part = part && offsetOf w.address < offsetOf a + n && offsetOf a < offsetOf w.address + w.bytes

/-- The address of a registration's range, digest block and backing copy: space and alignment. -/
def inSpace (s : State) (a : W64) (spaces : List Nat) (align : Nat) : Bool :=
  isLocal s a && spaces.contains (spaceOf a) && a.toNat % align = 0

/-- The checks of REGISTER-WEIGHTS; its digest block is control data (R504). -/
def registerChk (s : State) (c : Cmd) : Chk (List Byte) := do
  let a := c.addr 16
  let n := c.at 24 8
  let b := c.addr 40
  need (inSpace s a [0] 65536) (c.bad 16)
  need (inSpace s (c.addr 32) [0] 64) (c.bad 32)
  need (b = 0 || inSpace s b [2, 3] 4096) (c.bad 40)
  need (!s.weights.any fun w => registered w c.part a n) (c.bad 16)
  c.checkRanges s ([(16, a, n), (32, c.addr 32, 48 * (1 + pageCount n))] ++ if b = 0 then [] else [(40, b, n)])
  partChk c
  need (s.weights.length < 256) .busy
  c.control s 32 (c.addr 32) (48 * (1 + pageCount n))

/-- The lowest free weight handle. -/
def freeHandle (s : State) : Nat := ((List.range 256).find? fun i => (weightAt s (i + 1)).isNone).getD 0 + 1

/-- Read a range page by page; answers the page digests and what was counted. -/
def digestPages (c : Cmd) (a : W64) (bytes : Nat) : List Nat → State → List (List Byte) × State
  | [], s => ([], s)
  | p :: ps, s =>
    let g := c.fetch (plus a (65536 * p)) (pageBytes bytes p) s
    let r := digestPages c a bytes ps g.2
    (digestBytes (Config.sha384 g.1.bytes) :: r.1, r.2)

/-- REGISTER-WEIGHTS past its checks, with its digest block. -/
def registerWeights (c : Cmd) (block : List Byte) (s : State) : State :=
  let n := c.at 24 8
  let r := digestPages c (c.addr 16) n (List.range (pageCount n)) s
  let s := r.2
  if (cmdAt s c.id).any fun x => x.poisoned ≠ 0 then finishCmd c.id [] s
  else if block ≠ digestBytes (Config.sha384 r.1.flatten) ++ r.1.flatten then finishCmd c.id [.badParam 32] s
  else
    let h := freeHandle s
    let w : Registration := ⟨h, c.part, c.addr 16, n, c.addr 32, c.addr 40, Config.sha384 r.1.flatten⟩
    doneCmd c.id h { s with weights := insertBy (fun x y => x.handle < y.handle) w s.weights }

def execRegisterWeights (cmd : Nat) (s : State) : Out :=
  onCmd 0x0501 cmd s fun c s =>
    if c.at 24 8 = 0 then doneCmd c.id 0 s else
    judged c (registerChk s c) s fun block s =>
      c.gate (c.pieces s (c.addr 16) (c.at 24 8)) s (registerWeights c block)

/-! ## UNREGISTER-WEIGHTS and VERIFY-WEIGHTS (R414) -/

def execUnregisterWeights (cmd : Nat) (s : State) : Out :=
  onCmd 0x0502 cmd s fun c s =>
    judged c (weightChk s c) s fun w s => doneCmd c.id 0 { s with
      weights := s.weights.filter (·.handle != w.handle)
      faults := { s.faults with repairing := s.faults.repairing.filter (·.1 != w.handle) } }

def execVerifyWeights (cmd : Nat) (s : State) : Out :=
  onCmd 0x0503 cmd s fun c s =>
    judged c (verifyChk s c) s fun x s =>
      c.gate (c.pieces s x.1.address x.1.bytes) s fun s' =>
        match verifyPages c x.1 x.2 (List.range (pageCount x.1.bytes)) s' with
        | .error _ => s
        | .ok (miss, bad, s) =>
          finishCmd c.id (.done miss :: if bad = 0 then [] else [⟨0x30, if x.1.backing = 0 then 4 else 3, miss⟩]) s

/-! ## Retry (R397, R398) -/

/-- Stop a command, reset its units, and have it run again from its start, with the parameters that it read there; one
whose extended block read poisoned reads the block again (R43, R397). -/
def retryCmd (id cls : Nat) (s : State) : State :=
  match cmdAt s id with
  | none => s
  | some c =>
    let s := haltFlights (fun d => d.dests.any fun x => c.tiles.contains x.tile) s
    let s := c.tiles.foldl stopTile s
    let s := { s with
      fabric := { s.fabric with remote := s.fabric.remote.filter fun r => !(r.cmd = some id && r.kind ≠ .write) }
      faults := { s.faults with retries := satAdd s.faults.retries 1 } }
    updCmd id (fun x => { x with
      phase := if x.ext && !x.blockRead then .taken else .started, rejected := false, marks := [],
      corrected := 0, poisoned := 0, poisonClass := 0, clipped := 0,
      empty := 0, progress := 0, tiles := [], admitted := none, awaiting := [], fetched := [], tainted := [], blocks := [],
      asking := none, ctl := 0, touched := false, parity := none, due := none, retried := some cls }) s

/-- A repair that a command waits for is still running. -/
def repairPending (s : State) (id : Nat) : Bool := s.faults.repairing.any (·.2.2 == some id)

/-- Words of a tile that came over a path in error are poisoned (R396): `words` of them from word `first` on. -/
def poisonTile (t first words : Nat) (s : State) : State :=
  let off := first % 0x70000 * 8
  let key := 2 ^ 22 * t + off
  putTile key ((getTile false key (min (8 * words) (0x380000 - off)) s).data.map fun b => (b.1, true)) s

/-- Words of a stack likewise. -/
def poisonStack (first words : Nat) (s : State) : State :=
  let key := first % 2 ^ 37 * 8
  bankWrite key ((bankRead key (min (8 * words) (2 ^ 40 - key)) s).map fun b => (b.1, true)) s

/-- A consumer that finds a parity error (R502): an engine or the CC of a tile, an SSQ or its bank units, an IOD unit. -/
def consumerLoc (x : Nat × Nat × Nat) : Nat × Nat × Nat :=
  match x.1 % 3 with
  | 0 => (0, x.2.1 % 512, x.2.2 % 5)
  | 1 => (6, x.2.1 % 16, 0)
  | _ => (5, x.2.1 % 11, 0)

/-- A byte-parity error of an internal path, found by the consumer of what a command carried, or of what was carried for
none (R396): the words of the transfer are treated as poisoned. Where it is found, how many words the transfer carried and
which they are the spec leaves open: for a tile program they stand in one of its tiles, for any other command in what it
reads next, for no command in a stack (log 65). -/
def parityFault (cmd : Option Nat) (s : State) : State :=
  let loc := consumerLoc (Config.parityAt s.free)
  let words := 1 + Config.parityWords s.free
  let first := Config.parityPlace s.free
  let s := report 2 loc cmd 1 { s with free := s.free + 1 }
  match cmd.bind (cmdAt s) with
  | none => poisonStack first words s
  | some c =>
    let s := updCmd c.id (fun x => { x with poisoned := x.poisoned + words, poisonClass := max x.poisonClass 2 }) s
    if c.tiles = [] then updCmd c.id (fun x => { x with parity := some (first, words) }) s
    else poisonTile (c.tiles[first % c.tiles.length]?.getD 0) first words s

/-- An uncorrectable word in the state of the Lockkeeper or one of its five helpers, IOD units 0 to 5 (R393, R502). Whose
it is the row does not say, and it restarts the module whoever it is (log 17). -/
def helperFault (s : State) : State := report 13 (5, Config.helperUnit s.free % 6, 0) none 1 { s with free := s.free + 1 }

/-- A word of a store of the IOD that a command reads is corrected or poisoned: class 1 or 4 at its home (R393, R502). Which
unit's store it is the spec leaves open (log 17). -/
def iodFault (cls id : Nat) (s : State) : State :=
  let loc : Nat × Nat × Nat := (5, Config.helperUnit s.free % 11, 0)
  let g : Got := if cls = 1 then { corrected := 1, notes := [(1, loc, 1)] } else { poisoned := 1, notes := [(4, loc, 1)] }
  charge (some id) g { s with free := s.free + 1 }

/-- COMMAND_RETRY: the re-execution that a fault of class `cls` has made due. For classes 1, 2 and 4 the row is the fault
itself. -/
def commandRetry (id cls : Nat) (c : Cmd) (s : State) : State :=
  let s := if c.phase ≠ .started then s
    else if cls = 2 && c.due ≠ some 2 then parityFault (some id) s
    else if (cls = 1 || cls = 4) && c.due ≠ some cls then iodFault cls id s else s
  if (cmdAt s id).any (fun x => x.due = some cls) && !repairPending s id then retryCmd id cls s else s

def execCommandRetry (cmd cls : Nat) (s : State) : Out :=
  .next (whenRunning s fun s =>
    match cmdAt s cmd with
    | some c => if c.phase = .taken then s else commandRetry cmd cls c s
    | none => if cls = 2 then parityFault none s else if cls = 13 then helperFault s else s)

/-! ## Repairs (R411-R413) -/

/-- The commands whose re-execution waits for a page, once its repair has ended well: those with no other page to wait
for run again. -/
def retryReaders (ids : List Nat) (s : State) : State :=
  ids.foldl (fun s id =>
    if (cmdAt s id).any (fun x => x.due = some 3) && !repairPending s id then retryCmd id 3 s else s) s

/-- WEIGHT_PAGE_REPAIR: the repair of a page ends; `answers` says whether the backing copy has answered in time. It waits
while a bank it reaches is in a pound or a far link retrains. -/
def weightRepair (h p : Nat) (answers : Bool) (s : State) : State :=
  let mine := s.faults.repairing.filter fun r => r.1 = h && r.2.1 = p
  if mine = [] then s else
  let ids := mine.filterMap (·.2.2)
  let s' := { s with faults := { s.faults with repairing := s.faults.repairing.filter fun r => !(r.1 = h && r.2.1 = p) } }
  match weightAt s h with
  | none => s'
  | some w =>
    match if answers then (do let (d, s) ← blockDigest w p s'; repairPage w p d s) else .error .bad with
    | .ok s => retryReaders ids s
    | .error .wait => s
    | .error _ => ids.foldl (fun s id => updCmd id (fun x => if x.due = some 3 then { x with due := none } else x) s)
        (repairFailed s')

def execWeightPageRepair (handle page : Nat) (answers : Bool) (s : State) : Out :=
  .next (whenRunning s (weightRepair handle page answers))

/-- A command's queue timeout has come while a repair stands due for it: the repairs that it triggered, as the first reader of
their page, have had no answer and fail, and it ends with POISONED once it waits for no other page (R413). -/
def repairTimeout (c : Cmd) (s : State) : State :=
  let first (r : Nat × Nat × Option Nat) : Bool :=
    (s.faults.repairing.find? fun x => x.1 = r.1 && x.2.1 = r.2.1).any fun x => x.2.2 == some c.id
  let s := (s.faults.repairing.filter first).foldl (fun s r => weightRepair r.1 r.2.1 false s) s
  if (cmdAt s c.id).any fun x => x.phase = .started && x.due.isNone then
    finishCmd c.id [] (c.tiles.foldl stopTile (haltFlights (fun d => d.dests.any fun x => c.tiles.contains x.tile) s))
  else s

/-! ## Hangs (R393, R394) -/

def hangLoc : HangUnit → Nat × Nat × Nat
  | .island n => (4, n, 0)
  | .bridge => (4, 10, 0)
  | .ssq k => (6, k, 0)

def hangReal : HangUnit → Bool
  | .island n => n < 24
  | .bridge => true
  | .ssq k => k < 16

/-- What the DX's present repeat reaches on this module. -/
def dxReaches (s : State) (t : Nat) (h : Entry) : List (Home × Nat) :=
  let i := Ins.of h.word
  match i.op with
  | 0x10 => (if bit i.flags 0 then dxPieces s t (globalAddr s t i i.as_) i.imm else [])
      ++ (if bit i.flags 1 then dxPieces s t (globalAddr s t i i.ad) i.imm else [])
  | 0x11 =>
    let g := localRead t (opAddress s t 3 i.as_).toNat 32 true s
    (match ((ExceptT.run (layoutChk s { blockCmd s t g.bytes with blocks := h.blocks })).run []).1 with
    | .ok l => l.ranges.flatMap fun r => dxPieces s t r.1 r.2.1
    | .error _ => [])
  | _ => dxPieces s t (globalAddr s t i i.ad) 8

/-- The DX's present repeat waits for acknowledgements (R194), for a far link or for a bank. -/
def dxWaits (s : State) (t : Nat) (h : Entry) : Bool :=
  let i := Ins.of h.word
  ((i.op = 0x12 || bit i.flags 4) && !canRelease s t) || reachOf s (.engine t h.id) (dxReaches s t h) ≠ .go

/-- A tile has a handshake that counts (R394): its CC has a bundle to issue that waits for nothing (R116, R120, R123), or
an engine has a repeat to run that no region, no closed gate, no other node and no far link holds up (R138), other than
DFLAGWAIT, DFENCE and DDESC, whose waits are for a flag, for other nodes and for an SSQ. -/
def tileWorks (s : State) (t : Nat) : Bool :=
  let x := tileAt s t
  !frozen s t &&
    ((!x.halted && x.miss.isNone && x.walk.isNone && (readBundle x x.pc).any fun b => !b.waits x)
      || (List.range 4).any fun e => (headOf s t e).any fun h =>
        !h.finished && issues s t e && startable x e h && h.awaiting = []
          && !(e = 3 && ([0x13, 0x14, 0x15].contains (Ins.of h.word).op || dxWaits s t h)))

/-- The descriptors that stand at an SSQ. -/
def ssqDescs (s : State) (k : Nat) : List Desc :=
  (stackAt s k).queue ++ (stackAt s k).banks.flatMap fun b => (b.2.run.map (·.descs)).getD []

/-- An SSQ has runs and is not paused in row 4 (R241). -/
def ssqWorks (s : State) (k : Nat) : Bool := (stackAt s k).row ≠ 4 && (stackAt s k).banks.any fun b => b.2.run.isSome

/-- A started command without tiles does work of its own: it waits for no other command, no other node, not for the host nor
a far link. -/
def cmdWorks (s : State) (c : Cmd) : Bool :=
  c.phase = .started && c.tiles = [] && c.awaiting = [] && c.asking.isNone && c.waitSince.isNone
    && !s.boot.pciDown && !s.far.retraining0 && !s.far.retraining1

/-- A unit has a handshake open that counts toward UNIT_HANG: an SSQ has runs and is not paused in row 4 (R241), a tile
island has a tile that works; in the other islands and the bridge one may stand open while anything works that they serve. -/
def canHang (s : State) (u : HangUnit) : Bool :=
  let any : Bool := (List.range 512).any (tileWorks s) || (List.range 16).any (ssqWorks s) || s.front.cmds.any (cmdWorks s)
  match u with
  | .island n => if n % 12 ≥ 8 then any else (List.range 512).any fun t => tileIsland t = n && tileWorks s t
  | .bridge => any
  | .ssq k => ssqWorks s k

/-- A started command runs on a unit: one of its tiles stands in the island, one of its descriptors at the SSQ; the other
islands and the bridge serve any. -/
def Cmd.on (c : Cmd) (s : State) (u : HangUnit) : Bool :=
  match u with
  | .island n => n % 12 ≥ 8 || c.tiles.any fun t => tileIsland t = n && (tileAt s t).running
  | .bridge => true
  | .ssq k => (ssqDescs s k).any fun d => d.dests.any fun x => c.tiles.contains x.tile

/-- UNIT_HANG: a handshake has stood open for 100 µs. It is charged to the command that the unit was running (R395),
which is retried or ends with TIMEOUT; to none where the unit was not running it. -/
def unitHang (u : HangUnit) (cmd : Option Nat) (s : State) : State :=
  let c := (cmd.bind (cmdAt s)).filter fun c => c.phase == .started && c.on s u
  let s := report 9 (hangLoc u) (c.map (·.id)) 1 s
  match c with
  | some c =>
    if s.faults.restart ≠ .none || (cmdAt s c.id).any (fun x => x.due = some 9) then s
    else
      let s := haltFlights (fun d => d.dests.any fun x => c.tiles.contains x.tile) s
      timeoutEnd c (c.tiles.foldl stopTile s)
  | none => s

def execUnitHang (unit : HangUnit) (cmd : Option Nat) (s : State) : Out :=
  if hangReal unit then .next (whenRunning s fun s => if canHang s unit then unitHang unit cmd s else s)
  else .fault .noSuchUnit

/-! ## JOB_FAULT (R358) -/

/-- JOB_FAULT: the job fault that a tile, a save or a timeout has raised is recorded, and the clean restart begins. -/
def jobFault (s : State) : State :=
  match s.faults.jobFault with
  | none => s
  | some loc =>
    beginRestart (report 11 loc s.faults.jobFaultCmd 1
      { s with faults := { s.faults with jobFault := none, jobFaultCmd := none } })

def execJobFault (s : State) : Out := .next (whenRunning s jobFault)

/-! ## The fault log and its export (R420, R421) -/

/-- As many whole records as fit. -/
def fitting : Nat → List (List Byte) → List (List Byte)
  | _, [] => []
  | room, r :: rs => if r.length ≤ room then r :: fitting (room - r.length) rs else []

/-- The records that FAULT-LOG starts with: the kept ones from a number on, or with bit 31 the collected ones, numbered
in their order of arrival (DESIGN CHOICE, log 40). -/
def logFrom (s : State) (first : Nat) : List (List Byte) :=
  let f := s.faults
  if first ≥ 2 ^ 31 then f.collected.drop (first - 2 ^ 31 - (f.collectedNext - f.collected.length))
  else (f.records.filter fun r => first ≤ r.number).map (recordBytes s)

def execFaultLog (cmd : Nat) (s : State) : Out :=
  onCmd 0x0902 cmd s fun c s =>
    let n := c.at 24 4
    if n = 0 then doneCmd c.id 0 s else
    judged c (c.checkRanges s [(16, c.addr 16, n)]) s fun _ s => c.reaching (c.addr 16) n s fun s =>
      let rs := fitting n (logFrom s (c.at 28 4))
      doneCmd c.id rs.length (c.writeAt (c.addr 16) (clean rs.flatten) s)

/-- Keep a collected record, the latest 4,096. -/
def collect (r : List Byte) (s : State) : State :=
  let all := s.faults.collected ++ [r]
  { s with faults := { s.faults with collected := all.drop (all.length - 4096), collectedNext := s.faults.collectedNext + 1 } }

/-- FAULT_RECORD_EXPORT: the first record that is to be sent goes to the collector, once. -/
def exportRecord (s : State) : State :=
  if !s.faults.collectorOn then s else
  match s.faults.records.find? fun r => !r.exported && (responseOf s r.cls).exportIt with
  | none => s
  | some r =>
    let bs := recordBytes s r
    let s := { s with faults := { s.faults with
      records := updWhere (·.number == r.number) (fun x => { x with exported := true }) s.faults.records } }
    if s.faults.collectorNode.toNat = ownNode s then collect bs s
    else sendTow s.faults.collectorNode.toNat (toLe 4 10 ++ toLe 2 bs.length ++ bs) s

def execFaultRecordExport (s : State) : Out := .next (whenRunning s exportRecord)

def execFaultRecordReceive (record : List Byte) (s : State) : Out := .next (whenRunning s (collect record))

/-! ## The fault response table (R416-R418) -/

def responseChk (s : State) (c : Cmd) : Chk (List (Nat × Response)) := do
  let n := c.at 24 2
  need (n ≤ 13) (.badParam 24)
  need (c.at 16 8 % 8 = 0) (c.bad 16)
  let bs ← c.control s 16 (c.addr 16) (8 * n)
  let es := (List.range n).map fun i =>
    let e := (bs.drop (8 * i)).take 8
    (field e 0 1, field e 2 1,
      (⟨field e 1 1, bit (field e 2 1) 0, bit (field e 2 1) 1, field e 3 1, field e 4 2, field e 6 2⟩ : Response))
  need (es.all fun e => 1 ≤ e.1 && e.1 ≤ 13 && permitted e.1 e.2.2.action && permitted e.1 e.2.2.escalation
    && 1 ≤ e.2.2.window && e.2.1 < 4) (c.bad 16)
  pure (es.map fun e => (e.1, e.2.2))

def execFaultResponseLoad (cmd : Nat) (s : State) : Out :=
  onCmd 0x0903 cmd s fun c s =>
    if c.at 24 2 = 0 then doneCmd c.id 0 s else
    judged c (responseChk s c) s fun es s =>
      doneCmd c.id es.length { s with faults := { s.faults with
        responses := es.foldl (fun t e => tabPut t e.1 e.2) s.faults.responses } }

/-! ## Guard bands (R404, R405) -/

/-- An entry of the table; none where it breaks R404. -/
def guardEntry (e : List Byte) : Option Guard :=
  let a := field e 0 4
  let n := field e 4 4
  if a % 64 = 0 && n % 64 = 0 && n ≠ 0 && a + n ≤ 0x380000 && field e 8 1 < 16 && zeroIn e 9 12 && zeroIn e 20 24 then
    some ⟨a, n, BitVec.ofNat 8 (field e 8 1), BitVec.ofNat 32 (field e 12 4), BitVec.ofNat 32 (field e 16 4),
      BitVec.ofNat 64 (field e 24 8)⟩
  else none

def guardChk (s : State) (c : Cmd) : Chk (List Guard) := do
  let n := c.at 24 4
  need (n ≤ 4096) (c.bad 24)
  need (n = 0 || c.at 16 8 % 8 = 0) (c.bad 16)
  partChk c
  if n = 0 then pure [] else do
    let bs ← c.control s 16 (c.addr 16) (32 * n)
    let es := (List.range n).map fun i => guardEntry ((bs.drop (32 * i)).take 32)
    need (es.all (·.isSome)) (c.bad 16)
    pure (es.filterMap id)

def execGuardBandLoad (cmd : Nat) (s : State) : Out :=
  onCmd 0x0904 cmd s fun c s =>
    judged c (guardChk s c) s fun es s =>
      doneCmd c.id es.length (setPart s c.part { partAt s c.part with guards := es })

end Sys2Proof.Machine
end

