-- ==== Sys2Proof/Machine/Front.lean ====
section
/-!
DEFINITION. The Lockkeeper's front end (02 R25-R57, R503-R507): doorbells, taking packets, the replay window, starting,
replies, shadows, duplicates, timeouts, QUEUE-CREATE and QUEUE-DELETE, IDENT-READ.
-/

namespace Sys2Proof.Machine

/-! ## Doorbells (R28-R32) -/

/-- A function's doorbell write: dropped before READY and on a page that is not the function's (R31, R488); it takes effect
behind the BAR2 accesses that the function has issued before (R196). -/
def ringBell (fn : Nat) (b : Bell) (s : State) : State :=
  if !hostUp s || !s.boot.ready || !ownsQueue s fn b.queue then s else issue fn (.bell b) s

/-- Host memory as the host's own stores leave it. -/
def hostStores (l : List (Nat × Byte)) (s : State) : State :=
  { s with store := { s.store with host := l.foldl (fun m p => memSet m p.1 p.2) s.store.host } }

/-- SQ_TAIL_WRITE: the host's stores to its memory, then the new tail. -/
def execSqTailWrite (fn queue value : Nat) (stores : List (Nat × Byte)) (s : State) : Out :=
  if queue < 256 then onUnit 5 fn s fun s => ringBell fn ⟨queue, false, value⟩ (hostStores stores s)
  else .fault .noSuchUnit

def execReplyHeadWrite (fn queue value : Nat) (s : State) : Out :=
  if queue < 256 then onUnit 5 fn s (ringBell fn ⟨queue, true, value⟩) else .fault .noSuchUnit

/-! ## Rings -/

/-- The partition that a queue's ring address is read in. -/
def ringPart (s : State) (q : Queue) (a : W64) : Option Nat :=
  if q.part = 0xFF then adminPart s a else some q.part

/-- What a ring access reaches; none for an address error. -/
def ringPieces (s : State) (q : Queue) (a : W64) (n : Nat) : Option (List (Home × Nat)) :=
  match resolve s .lockkeeper (ringPart s q a) a n with
  | .ok (.near ps) => some ps
  | _ => none

/-- A queue stops (R505). -/
def stopQueue (n : Nat) (s : State) : State :=
  let q := queueAt s n
  if q.stopped || !tabHas s.front.queues n then s else raise .ringErr (setQueue s n { q with stopped := true })

/-- Replies and shadows to host memory are dropped: after PERST, or while the partition's function resets (R492, R493). -/
def dropping (s : State) (q : Queue) : Bool := s.boot.draining || (q.part ≠ 0xFF && (partAt s q.part).resetting)

/-- The queue's next reply is dropped: no reply is written, and none raises QUEUE_REPLY (R46, R492, R493). -/
def replyDropped (s : State) (q : Queue) : Bool := spaceOf (plus q.replyBase (32 * q.replyTail)) = 3 && dropping s q

/-- A write into a bounce frame that would fail (R435, R437). -/
def sluiceBad (s : State) (ps : List (Home × Nat)) : Bool :=
  ps.any fun p => match p.1 with
    | .frame q f _ => (openFrame s q f).isNone
    | _ => false

/-- Write to a ring or shadow: whether it was written, and the state after. `ok` says that the host accepts it. -/
def ringWrite (q : Queue) (a : W64) (bs : List Byte) (ok : Bool) (s : State) : Bool × State :=
  if spaceOf a = 3 && dropping s q then (true, s)
  else if spaceOf a = 3 && !ok then (false, s)
  else match ringPieces s q a bs.length with
    | none => (false, s)
    | some ps => (!sluiceBad s ps, putPieces ps (clean bs) s)

/-! ## The reply and the shadow (R27, R54) -/

def Reply.bytes (r : Reply) : List Byte :=
  toLe 4 r.seq.toNat ++ toLe 2 r.opcode.toNat ++ toLe 1 r.status.toNat ++ toLe 1 r.detail.toNat ++ toLe 8 r.start.toNat
    ++ toLe 8 r.stop.toNat ++ toLe 8 r.result.toNat

def replyAddr (q : Queue) : W64 := plus q.replyBase (32 * q.replyTail)

/-- Write a reply at the reply tail; a lost one takes no slot. -/
def putReply (n : Nat) (r : Reply) (ok : Bool) (s : State) : Bool × State :=
  let q := queueAt s n
  let w := ringWrite q (replyAddr q) r.bytes ok s
  (w.1, if w.1 then setQueue w.2 n { queueAt w.2 n with replyTail := (q.replyTail + 1) % q.size } else w.2)

/-- Write the shadow; a queue whose shadow cannot be written stops. -/
def putShadow (n : Nat) (ok : Bool) (s : State) : State :=
  let q := queueAt s n
  let w := ringWrite q q.shadow (toLe 4 q.sqHead ++ toLe 4 q.replyTail ++ toLe 4 q.retired.toNat ++ zeros 4) ok s
  if w.1 then w.2 else stopQueue n w.2

/-- Take the packets that are done from the head of the ring order; the last one's number is the retired sequence. -/
def retireHead : List Taken → W32 → List Taken × W32
  | [], r => ([], r)
  | t :: ts, r => if t.done then retireHead ts t.seq else (t :: ts, r)

/-- A packet is done. -/
def markDone (n pos : Nat) (s : State) : State :=
  let q := queueAt s n
  let r := retireHead (updWhere (·.pos == pos) (fun t => { t with done := true }) q.order) q.retired
  setQueue s n { q with order := r.1, retired := r.2 }

/-! ## Taking a packet (R30, R35, R48-R52) -/

/-- Reply slots that are in use or reserved. -/
def slotsUsed (s : State) (n : Nat) (q : Queue) : Nat :=
  (q.replyTail + q.size - q.replyHead) % q.size + (s.front.cmds.filter (·.queue == n)).length + q.dups.length

/-- The module may take a packet of the queue. -/
def canTake (s : State) (n : Nat) : Bool :=
  let q := queueAt s n
  !q.stopped && !q.deleting && q.sqHead ≠ q.sqTail && slotsUsed s n q + 1 < q.size
    && (if n = 0 then q.active && s.front.admin.enabled && !s.front.admin.halting else !(partAt s q.part).resetting)

/-- The queue that is visited next: the admin queue first, the others in turn. -/
def pickQueue (s : State) : Option Nat :=
  if canTake s 0 then some 0
  else
    let qs := (s.front.queues.map (·.1)).filter fun n => n ≠ 0 && canTake s n
    match qs.find? (s.front.last < ·) with
    | some n => some n
    | none => qs.head?

/-- How the replay window judges a number (R50). -/
inductive Verdict where
  | accept
  | duplicate
  | stale
deriving DecidableEq, Repr

def Queue.judge (q : Queue) (s : W32) : Verdict :=
  match q.newest with
  | none => .accept
  | some n =>
    let d := (s - n).toNat
    if 1 ≤ d && d ≤ 2 ^ 31 - 1 then .accept
    else if (n - s).toNat ≤ 4095 then (if q.window.any (·.1 == s) then .duplicate else .accept)
    else .stale

/-- Record an accepted number as taken; the window slides to the newest. -/
def Queue.accept (q : Queue) (s : W32) : Queue :=
  let n := match q.newest with
    | none => s
    | some n => if 1 ≤ (s - n).toNat && (s - n).toNat ≤ 2 ^ 31 - 1 then s else n
  { q with newest := some n, window := (q.window ++ [(s, none)]).filter fun e => (n - e.1).toNat ≤ 4095 }

/-- The packet as a command in flight. -/
def parsePacket (id n : Nat) (bs : List Byte) : Cmd :=
  { id := id, queue := n, opcode := field bs 0 2, flags := BitVec.ofNat 8 (field bs 2 1),
    seq := BitVec.ofNat 32 (field bs 4 4), part := field bs 10 1, units8 := field bs 11 1, job := field bs 12 4,
    params := bs.drop 16, ext := bit (field bs 2 1) 4 }

/-- Steps 4 to 6 of R48. -/
def packetFault (c : Cmd) : Option Mark :=
  match opRow c.opcode with
  | none => some ⟨0x10, 0, 0⟩
  | some r =>
    if r.q0 && c.queue ≠ 0 then some ⟨0x14, 5, 0⟩
    else if !c.ext then (if c.units8 = r.units then none else some ⟨0x12, r.units, 0⟩)
    else if c.units8 < max 1 r.units then some ⟨0x12, max 1 r.units, 0⟩ else none

/-- A packet enters, already ended by a rejection or still to start. -/
def addCmd (c : Cmd) (m : Option Mark) (s : State) : State :=
  let c := match m with
    | some m => { c with phase := .ended, rejected := true, marks := [m], start := now s, stop := now s }
    | none => c
  { s with front := { s.front with cmds := s.front.cmds ++ [c] } }

/-- Bind a duplicate: to its running original, or with the stored reply (R51). -/
def bindDup (n : Nat) (c : Cmd) (s : State) : State :=
  let q := queueAt s n
  let stored := (q.window.find? (·.1 == c.seq)).bind (·.2)
  let orig := ((s.front.cmds.find? fun x => x.queue = n && x.seq = c.seq && x.kept).map (·.id)).getD c.id
  setQueue s n { q with dups := q.dups ++ [⟨orig, c.id, c.flag flagInterrupt, stored⟩] }

/-- Judge a packet that has been read: steps 1 to 6 of R48. -/
def judgePacket (n : Nat) (bs : List Byte) (s : State) : State :=
  let c := parsePacket s.front.nextCmd n bs
  let q := queueAt s n
  let s := { s with front := { s.front with nextCmd := s.front.nextCmd + 1, last := if n = 0 then s.front.last else n } }
  let s := setQueue s n { q with sqHead := (q.sqHead + 1) % q.size, order := q.order ++ [⟨c.id, c.seq, false⟩] }
  if field bs 3 1 ≠ 1 then addCmd { c with kept := false } (some (.badParam 3)) s
  else if field bs 8 2 ≠ n || c.part ≠ q.part then addCmd { c with kept := false } (some ⟨0x14, 2, 0⟩) s
  else match q.judge c.seq with
    | .stale => addCmd { c with kept := false } (some ⟨0x13, 0, 0⟩) s
    | .duplicate => bindDup n c s
    | .accept => addCmd c (packetFault c) (setQueue s n ((queueAt s n).accept c.seq))

/-- PACKET_TAKE: one packet of the queue whose turn it is. `ok` says that the host answers the read of its slot. -/
def packetTake (ok : Bool) (s : State) : State :=
  match pickQueue s with
  | none => s
  | some n =>
    let q := queueAt s n
    let a := plus q.sqBase (64 * q.sqHead)
    if spaceOf a = 3 && !ok then stopQueue n s
    else match ringPieces s q a 64 with
      | none => stopQueue n s
      | some ps =>
        if reachOf s (.rings n) ps ≠ .go then noteWaits (.rings n) ps s
        else
          let r := getPieces false ps (noteWaits (.rings n) ps s)
          let s := charge none r.1 r.2
          if r.1.poisoned ≠ 0 then stopQueue n s else judgePacket n r.1.bytes s

def execPacketTake (ok : Bool) (s : State) : Out :=
  .next (whenRunning s fun s => if s.boot.draining then s else packetTake ok s)

/-! ## Starting (R36-R38, R43, R44, R48 step 7, R347) -/

/-- It is the command's turn in its ring: every earlier one has started, or with a fence completed (R36, R37). -/
def turnToStart (s : State) (c : Cmd) : Bool :=
  !(s.front.cmds.any fun x => x.queue = c.queue && x.id < c.id && (x.phase = .taken || c.flag flagFence))
    && !(s.front.cmds.any fun x => x.opcode = 0x0704 && x.phase ≠ .taken && !x.rejected)

/-- The header's part of step 7: reserved flags, and the job handle. -/
def headFault (s : State) (c : Cmd) : Option Mark :=
  let needs := (opRow c.opcode).any (·.job)
  let open_ := match jobAt s c.job with | some j => j.part = c.part | none => false
  if c.flags.toNat ≥ 32 then some (.badParam 2)
  else if (needs && c.job = 0) || (c.job ≠ 0 && !open_) then some (.badParam 12)
  else none

/-- The command starts; a LAUNCH or STEP-RUN takes its partition's slots and guard bands now (R99, R405). -/
def beginCmd (c : Cmd) (s : State) : State :=
  let n := s.front.started + 1
  let s := updCmd c.id (fun x => { x with phase := .started, start := now s, order := n, waited := 0, waitSince := none })
    { s with front := { s.front with started := n } }
  if c.opcode = 0x0302 || c.opcode = 0x0406 then takeSlots c s else s

/-- A command without a job handle whose parameters name space 0x1 (R345). -/
def Cmd.homeless (c : Cmd) : Bool := c.job = 0 && (addressFields c.opcode).any fun a => spaceOf (c.addr a) = 1

/-- The parameters are at hand: the job handle they need, their reserved bytes, then the units held by earlier commands of
the queue. -/
def startWith (c : Cmd) (s : State) : State :=
  if c.homeless then rejectCmd c.id (.badParam 12) s else
  match (opRow c.opcode).bind (·.stray c.params) with
  | some off => rejectCmd c.id (c.bad off) s
  | none => if unitHeld s c then s else beginCmd c s

/-- Pieces that lie in host memory. -/
def inHost (ps : List (Home × Nat)) : Bool := ps.any fun p => match p.1 with
  | .stack _ | .tile _ | .far _ _ => false
  | _ => true

/-- The command starts with the extended block that it has read; a poisoned block rejects it (R44). -/
def takeExt (c : Cmd) (bs : List PByte) (poisoned : Nat) (s : State) : State :=
  if poisoned ≠ 0 then rejectCmd c.id (.poisoned poisoned) s
  else
    let ps := bs.map (·.1)
    startWith { c with params := ps, blockRead := true, waitSince := none }
      (updCmd c.id (fun x => { x with params := ps, blockRead := true, waitSince := none }) s)

/-- Read the extended block, once (R43, R44): from memory, or from registers (R182, R185). At each attempt it is free
whether the host has answered a read of its memory; the queue's timeout ends the wait. -/
def readExt (c : Cmd) (s : State) : State :=
  let a := c.addr 16
  let n := 8 * c.units8
  match (c.params.zipIdx 16).find? fun b => 24 ≤ b.2 && b.1 ≠ 0 with
  | some b => rejectCmd c.id (.badParam b.2) s
  | none =>
    if a.toNat % 64 ≠ 0 || !isLocal s a then rejectCmd c.id (.badParam 16) s
    else if spaceOf a = 1 && c.job = 0 then rejectCmd c.id (.badParam 12) s
    else match c.place s a n with
      | .error .param => rejectCmd c.id (.badParam 16) s
      | .error (.absent u) => rejectCmd c.id (.absent u) s
      | .error .denied => rejectCmd c.id .notPermitted s
      | .ok (.near ps) =>
        let answers := !inHost ps || Config.hostAnswers s.free
        let s := if inHost ps then { s with free := s.free + 1 } else s
        if !answers then waitCmd c.id s else
        (match reachOf s (.command c.id) ps with
        | .wait => waitCmd c.id (noteWaits (.command c.id) ps s)
        | .dead => rejectCmd c.id (.timeout 0) s
        | .go =>
          let r := getPieces false ps (noteWaits (.command c.id) ps s)
          takeExt c r.1.data r.1.poisoned (charge (some c.id) r.1 r.2))
      | .ok (.reg _) =>
        let r := registerBytes a n s
        takeExt c (clean r.1) 0 r.2
      | .ok _ => rejectCmd c.id (.badParam 16) s

/-- COMMAND_START. -/
def commandStart (c : Cmd) (s : State) : State :=
  if !turnToStart s c then s
  else match headFault s c with
    | some m => rejectCmd c.id m s
    | none =>
      if c.job ≠ 0 && !jobRuns s c.job then s
      else if c.ext && !c.blockRead then readExt c s
      else startWith c s

def execCommandStart (cmd : Nat) (s : State) : Out :=
  .next (whenRunning s fun s =>
    match cmdAt s cmd with
    | some c => if c.phase = .taken then commandStart c s else s
    | none => s)

/-! ## Completing (R45, R46, R54-R57) -/

/-- Every status that applies to a command that ran. -/
def Cmd.statuses (c : Cmd) : List Mark :=
  if c.rejected then c.marks
  else
    let base := ((c.marks.find? (·.status == 0)).map (·.result)).getD 0
    let when (p : Bool) (m : Mark) : List Mark := if p then [m] else []
    c.marks ++ when (c.corrected ≠ 0) ⟨0x01, min c.corrected 255, base⟩
      ++ (match c.retried with | some k => [⟨0x02, k, base⟩] | none => [])
      ++ when (c.clipped ≠ 0) ⟨0x20, 0, c.clipped⟩ ++ when (c.empty ≠ 0) ⟨0x21, 0, c.empty⟩
      ++ when (c.poisoned ≠ 0) ⟨0x30, c.poisonClass, c.poisoned⟩

/-- The numerically highest status, the first of its kind. -/
def highest (l : List Mark) : Mark := l.foldl (fun a m => if a.status < m.status then m else a) (l.headD (.done 0))

def Cmd.reply (c : Cmd) : Reply :=
  let m := highest c.statuses
  { seq := c.seq, opcode := BitVec.ofNat 16 c.opcode, status := BitVec.ofNat 8 m.status, detail := BitVec.ofNat 8 m.detail,
    start := BitVec.ofNat 64 c.start, stop := BitVec.ofNat 64 c.stop, result := BitVec.ofNat 64 (min m.result (2 ^ 64 - 1)) }

/-- The fault records of a command take its final status; PLAUSIBILITY is counted. -/
def noteOutcome (id : Nat) (status : Nat) (s : State) : State :=
  let f := s.faults
  { s with faults := { f with
      records := updWhere (·.cmd == some id) (fun r => { r with outcome := status }) f.records
      plausibility := if status = 0x31 then satAdd f.plausibility 1 else f.plausibility } }

/-- Store a reply in the replay window and in the duplicates bound to the command (R49, R51). -/
def keepReply (c : Cmd) (r : Reply) (s : State) : State :=
  let q := queueAt s c.queue
  setQueue s c.queue { q with
    window := if c.kept then updWhere (·.1 == c.seq) (fun e => (e.1, some r)) q.window else q.window
    dups := updWhere (fun d => d.orig == c.id) (fun d => { d with reply := some r }) q.dups }

/-- The command's end: the reply where one is written, then the ring order and the shadow. -/
def retire (c : Cmd) (ok : Bool) (s : State) : State :=
  let r := c.reply
  let s := keepReply c r (noteOutcome c.id r.status.toNat s)
  let s := { s with front := { s.front with cmds := s.front.cmds.filter (·.id != c.id) } }
  if r.status ≠ 0 || c.flag flagReply then
    let w := putReply c.queue r ok s
    if w.1 then
      let s := if c.flag flagInterrupt && !replyDropped s (queueAt s c.queue) then raise (.reply c.queue) w.2 else w.2
      putShadow c.queue ok (markDone c.queue c.id s)
    else stopQueue c.queue w.2
  else putShadow c.queue ok (markDone c.queue c.id s)

/-- Write to a queue's reply slot, once its bank is in no pound (R263). -/
def ringGate (n : Nat) (s : State) (go : State → State) : State :=
  let q := queueAt s n
  match ringPieces s q (replyAddr q) 32 with
  | some ps => if reachOf s (.rings n) ps = .go then go (noteWaits (.rings n) ps s) else noteWaits (.rings n) ps s
  | none => go s

/-- Retention begins (R463). -/
def enterRetention (s : State) : State :=
  let s := (List.range 5).foldl (fun s fn => endSpdm fn s) s
  let s := (List.range 512).foldl (fun s t => setTile s t { beatsHi := (tileAt s t).beatsHi }) s
  let s := { s with
    store := { s.store with tile := [], tileMark := [] }
    far := { s.far with kept0 := s.far.up0, kept1 := s.far.up1, up0 := false, up1 := false, retraining0 := false,
                        retraining1 := false }
    time := { s.time with synced := false, asked := false }
    pmu := { s.pmu with sleep := .asleep, power := min s.pmu.power 95,
                        islands := s.pmu.islands.map fun i => (i.1, { setMv := i.2.setMv, fromMv := i.2.setMv }) } }
  let s := (List.range 16).foldl (fun s k =>
    let s := flushWhere k (fun _ => true) (haltStack (fun _ => true) s k)
    let x := stackAt s k
    setStack s k { x with selfRefresh := true, queue := [], groups := [], queries := [] }) s
  (List.range 16).foldl (fun s p =>
    let x := portAt s p
    let y : Port := { crcRetry := x.crcRetry, fecCorr := x.fecCorr, retrains := x.retrains, tagFail := x.tagFail,
                      kept := x.state = .up }
    setPort s p (if x.state = .refused then x else y)) s

/-! ## Resets of functions (R492, R493) -/

/-- The queue's commands in flight and duplicates are done. -/
def queueIdle (s : State) (n : Nat) : Bool := !(s.front.cmds.any (·.queue == n)) && (queueAt s n).dups = []

def dropQueue (n : Nat) (s : State) : State :=
  irqSettle { s with front := { s.front with queues := tabDel s.front.queues n } }

/-- A function's own registers return to their reset values. -/
def resetFnRegs (s : State) (fn : Nat) : State :=
  irqSettle { s with
    irq := { s.irq with fns := s.irq.fns.setIfInBounds fn { sent := (irqFn s fn).sent } }
    front := { s.front with bar2Base := s.front.bar2Base.setIfInBounds fn 0xFFFF000000000000
                            bar2Part := if fn = 0 then 0 else s.front.bar2Part } }

/-- The jobs of a partition are closed as JOB-CLOSE does. -/
def closeJobs (p : Nat) (s : State) : State :=
  (s.jobs.jobs.filter (·.part == p)).foldl (fun s j => closeJob j.handle s) s

/-- The steps of R493 for a partition whose commands in flight have completed. -/
def finishFlr (p : Nat) (s : State) : State :=
  let fn := (partAt s p).vf
  let s := closeJobs p s
  let s := (s.front.queues.filter fun q => q.1 ≠ 0 && q.2.part = p).foldl (fun s q => dropQueue q.1 s) s
  let s := resetFnRegs (endSpdm fn s) fn
  let s := { s with faults := { s.faults with tags := tabSet 0 s.faults.tags p 0 } }
  setPart s p { partAt s p with resetting := false }

/-- The steps of R492 once no command is in flight: every job and partition is closed, every queue deleted. An admin
queue that has been enabled again meanwhile starts afresh. -/
def finishDrain (s : State) : State :=
  let s := (List.range 4).foldl (fun s p => closeJobs p s) s
  let s := (List.range 4).foldl (fun s p =>
    if (partAt s p).isOpen then beginClose p none (setPart s p { partAt s p with resetting := false }) else s) s
  let s := irqSettle { s with
    front := { s.front with queues := [], bells := [], last := 0 }, boot := { s.boot with draining := false } }
  if s.front.admin.enabled && s.front.admin.good then adminStart s else s

/-- The commands in flight and duplicates of a partition's queues are done. -/
def partIdle (s : State) (p : Nat) : Bool :=
  !(s.front.cmds.any fun c => (queueAt s c.queue).part == p) && s.front.queues.all fun q => q.2.part ≠ p || q.2.dups = []

/-- Resets that wait for commands in flight go on when these are done. -/
def settleResets (s : State) : State :=
  let s := (List.range 4).foldl (fun s p => if (partAt s p).resetting && partIdle s p then finishFlr p s else s) s
  if s.boot.draining && s.front.cmds = [] && s.front.queues.all (fun q => q.2.dups = []) then finishDrain s else s

/-- COMMAND_COMPLETE: a command whose effects are complete, with no retry due and no DUPLICATE of its queue to write
first; the destinations of one that a dead link has ended are then undefined (R57, R235). SLEEP puts the module in
retention, once no other command runs (log 28). -/
def commandComplete (c : Cmd) (ok : Bool) (s : State) : State :=
  if c.due.isSome || (queueAt s c.queue).dups.any (·.reply.isSome) then s
  else if c.opcode = 0x0704 && !c.rejected && s.front.cmds.any (fun x => x.id ≠ c.id && x.phase ≠ .taken) then s
  else ringGate c.queue s fun s =>
    let s := retire c ok (if c.spoil then spoil c s else s)
    if c.opcode = 0x0704 && !c.rejected then enterRetention s else settleResets s

def execCommandComplete (cmd : Nat) (ok : Bool) (s : State) : Out :=
  .next (whenRunning s fun s =>
    match cmdAt s cmd with
    | some c => if c.phase = .ended then commandComplete c ok s else s
    | none => s)

/-- DUPLICATE_REPLY: the first duplicate of the queue whose original has its reply (R51). -/
def duplicateReply (n : Nat) (ok : Bool) (s : State) : State :=
  let q := queueAt s n
  match q.dups.find? (·.reply.isSome) with
  | none => s
  | some d =>
    ringGate n s fun s =>
      let r := d.reply.getD {}
      let s := setQueue s n { queueAt s n with dups := q.dups.filter (·.pos != d.pos) }
      let w := putReply n { r with status := 3, detail := r.status } ok s
      if w.1 then
        settleResets (putShadow n ok (markDone n d.pos
          (if d.interrupt && !replyDropped s (queueAt s n) then raise (.reply n) w.2 else w.2)))
      else settleResets (stopQueue n w.2)

def execDuplicateReply (queue : Nat) (ok : Bool) (s : State) : Out :=
  onUnit 256 queue s fun s => whenRunning s (duplicateReply queue ok)

/-- QUEUE_RING_TIMEOUT: an access to the queue's rings or shadow in host memory was not accepted in time (R505). -/
def execQueueRingTimeout (queue : Nat) (s : State) : Out :=
  onUnit 256 queue s fun s => whenRunning s fun s => if bellsLive s queue then stopQueue queue s else s

/-! ## Timeouts (R39, R57) -/

/-- The time that counts toward a started command's timeout. -/
def counted (s : State) (c : Cmd) : Nat :=
  now s - c.start - c.waited - (match c.waitSince with | some t => now s - t | none => 0)

/-- COMMAND_TIMEOUT. A command that runs a tile program raises a job fault; a taken one that cannot read its extended
block ends under R44. -/
def commandTimeout (c : Cmd) (s : State) : State :=
  let limit := (queueAt s c.queue).timeout
  match c.phase with
  | .taken => match c.waitSince with
    | some t => if t + limit ≤ now s then rejectCmd c.id (.timeout 0) s else s
    | none => s
  | .started =>
    if counted s c < limit then s
    else if c.due.isSome then repairTimeout c s
    else if c.tiles.any fun t => (tileAt s t).running then programTimeout (some c.id) s
    else timeoutEnd c s
  | .ended => s

def execCommandTimeout (cmd : Nat) (s : State) : Out :=
  .next (whenRunning s fun s =>
    match cmdAt s cmd with
    | some c => commandTimeout c s
    | none => s)

/-! ## QUEUE-CREATE and QUEUE-DELETE (R26, R507) -/

def queueCreateChk (s : State) (c : Cmd) : Chk Unit := do
  let n := c.at 19 1
  need (1 ≤ c.at 16 2 && c.at 16 2 ≤ 255) (c.bad 16)
  need (4 ≤ n && n ≤ 12) (c.bad 19)
  need (inSpace s (c.addr 24) [0, 3] 64) (c.bad 24)
  need (inSpace s (c.addr 32) [0, 3] 64) (c.bad 32)
  need (inSpace s (c.addr 40) [3] 16) (c.bad 40)
  need (c.at 18 1 < 4 && (partAt s (c.at 18 1)).isOpen) .notPermitted
  let room (a : W64) (k : Nat) : Bool := (resolve s .lockkeeper (some (c.at 18 1)) a k).toBool
  need (room (c.addr 24) (64 * 2 ^ n) && room (c.addr 32) (32 * 2 ^ n) && room (c.addr 40) 16) .notPermitted
  need (!tabHas s.front.queues (c.at 16 2) && !(partAt s (c.at 18 1)).resetting) .busy

def execQueueCreate (cmd : Nat) (s : State) : Out :=
  onCmd 0x0101 cmd s fun c s =>
    judged c (queueCreateChk s c) s fun _ s =>
      let t := if c.at 20 4 = 0 then 100000 else c.at 20 4
      doneCmd c.id 0 (irqSettle (setQueue s (c.at 16 2)
        { part := c.at 18 1, sizeLog2 := c.at 19 1, timeout := 1000 * t, sqBase := c.addr 24, replyBase := c.addr 32,
          shadow := c.addr 40, active := true }))

/-- QUEUE-DELETE: a queue that exists, not the admin queue. -/
def queueDeleteChk (s : State) (c : Cmd) : Chk Unit :=
  need (1 ≤ c.at 16 2 && c.at 16 2 ≤ 255 && tabHas s.front.queues (c.at 16 2)) (.badParam 16)

/-- QUEUE-DELETE takes no further packets of the queue and waits for its commands in flight. One that still waits when a
Function Level Reset deletes its queue (R493) is judged anew, and ends BAD_PARAM (DESIGN CHOICE, log 67). -/
def execQueueDelete (cmd : Nat) (s : State) : Out :=
  onCmd 0x0102 cmd s fun c s =>
    let n := c.at 16 2
    judged c (queueDeleteChk s c) s fun _ s =>
      if queueIdle s n then doneCmd c.id 0 (dropQueue n (resumeCmd c.id s))
      else waitCmd c.id (setQueue s n { queueAt s n with deleting := true })

/-! ## IDENT-READ (R477) -/

/-- The first 512 bytes of the IDENT block. -/
def identBytes (s : State) : List Byte := (List.range 128).flatMap fun i => toLe 4 (identValue (4 * i) s)

/-- IDENT-READ: a 64-byte aligned destination that can be written. -/
def identChk (s : State) (c : Cmd) : Chk Unit := do
  need (c.at 16 8 % 64 = 0) (c.bad 16)
  c.checkRanges s [(16, c.addr 16, 512)]

def execIdentRead (cmd : Nat) (s : State) : Out :=
  onCmd 0x0901 cmd s fun c s =>
    judged c (identChk s c) s fun _ s => c.reaching (c.addr 16) 512 s fun s =>
      doneCmd c.id 512 (c.put (c.addr 16) (clean (identBytes s)) s)

end Sys2Proof.Machine
end

