-- ==== Sys2Proof/Machine/Ship.lean ====
section
/-!
DEFINITION. SHIP-KV (11 R335-R337): gathering a request's pages at the source, landing them at the destination, the
destination's reply. How the two ends' firmware talk is the model's own (DESIGN CHOICE, log 41).
-/

namespace Sys2Proof.Machine

/-! ## The source -/

def shipChk (s : State) (c : Cmd) : Chk (Request × PTab) := do
  let r ← requestChk s c 16
  need (r.1.chunks = []) (c.bad 16)
  need (c.at 20 2 ≠ 0xFFFE) (c.bad 20)
  need (c.at 20 2 = ownNode s || c.at 20 2 = 0xFFFF || s.fabric.node.isSome) .notPermitted
  pure r

/-- One valid page of the source table: its place, its record's seal, its bytes. -/
def shipPage (c : Cmd) (q j e : Nat) (s : State) : ShipPage × State :=
  let d := (poolAt s c.part).desc
  let g := getStack true (pageKey (entPage e)) d.pageBytes s
  let v := recDigest c.part (entRecord e) s
  (⟨q, j, entPresent e, (getRec c.part (entRecord e) s).sealed, v.1, g.1.poisoned ≠ 0 || v.2, g.1.bytes⟩,
   charge (some c.id) g.1 g.2)

/-- Read the listed pages in order. -/
def shipPages (c : Cmd) : List (Nat × Nat × Nat) → State → List ShipPage × State
  | [], s => ([], s)
  | (q, j, e) :: rest, s =>
    let a := shipPage c q j e s
    let b := shipPages c rest a.2
    (a.1 :: b.1, b.2)

/-- The valid entries of a table in the order of R277. -/
def validEntries (t : PTab) (n : Nat) (s : State) : List (Nat × Nat × Nat) :=
  (List.range n).flatMap fun q => (List.range t.used).filterMap fun j =>
    let e := t.get q j s
    if entValid e then some (q, j, e) else none

/-- Everything the destination is to get. -/
def gather (c : Cmd) (r : Request) (t : PTab) (s : State) : Shipment × State :=
  let d := (poolAt s c.part).desc
  let ps := shipPages c (validEntries t (pairs d) s) s
  ({ node := ownNode s, part := c.part, cmd := c.id, request := c.at 24 4, layers := d.layers, heads := d.heads,
     format := d.format, geometry := d.geometry, used := t.used, next := t.next, state := r.state.code,
     feedBack := r.feedBack, turnStart := r.turnStart, lastToken := r.lastToken, firstTarget := r.firstTarget,
     betweenTarget := r.betweenTarget, pages := ps.1 }, ps.2)

/-! ## The destination -/

/-- The destination request and its table keep R335. -/
def shipTarget (s : State) (p : Nat) (x : Shipment) : Option (Request × PTab) :=
  match requestAt s x.request with
  | none => none
  | some r =>
    let d := (poolAt s p).desc
    let t := readTab p r.table s
    if r.part = p && r.state = .listening && r.chunks = [] && (poolAt s p).accepted && t.used = 0 && x.used ≤ t.cap
        && d.layers = x.layers && d.heads = x.heads && d.format = x.format && d.geometry = x.geometry then some (r, t)
    else none

/-- Land one page: a fresh page and record with one owner; a sealed page must keep its digest. -/
def landPage (t : PTab) (g : ShipPage) (s : State) : Except Mark State :=
  let p := t.part
  let d := (poolAt s p).desc
  let mine := ((List.range t.cap).map fun j => t.get g.pair j s).filter entValid
  match newPage p t.mask (g.pair / d.heads) (g.pair % d.heads) (mine.getLast?.map entPage) (mine.map entPage) s with
  | none => .error .busy
  | some (page, r, s) =>
    let x := getRec p r s
    let head := g.bytes.take 16 ++ (headerBytes d 0 (g.pair / d.heads) (g.pair % d.heads) r x.generation).drop 16
    let s := writePage page 0 (clean (head ++ (g.bytes.drop 64).take (d.pageBytes - 64))) s
    let s := if g.sealed then putRec p r { x with flags := 3, digest := g.digest } s else s
    if g.sealed && pageDigest d page s ≠ (g.digest, false) then .error ⟨0x30, 4, 0⟩
    else .ok (t.put g.pair g.page (mkEntry page g.present r) s)

def landPages (t : PTab) : List ShipPage → State → Except Mark State
  | [], s => .ok s
  | g :: gs, s => match landPage t g s with
    | .ok s => landPages t gs s
    | .error m => .error m

/-- The state of a request as its record's code gives it. -/
def stateOf (code : Nat) : ReqState := if code = 3 then .answering else if code = 2 then .turnEnd else .listening

/-- The pages of a landed table whose digests have been checked. -/
def checkedPages (t : PTab) (x : Shipment) (s : State) : List Nat :=
  (x.pages.filter (·.sealed)).map fun g => entPage (t.get g.pair g.page s)

/-- Every page has arrived: the destination's outcome, and the state it leaves; a failure leaves nothing behind. None while
a stack on which a digest is to be checked is in row 4 (R241). -/
def land (p : Nat) (x : Shipment) (s : State) : Option (Mark × State) :=
  match requestAt s x.request with
  | none => some (.badParam 24, s)
  | some r =>
    if r.part = p && r.inStep then some (.busy, s)
    else match shipTarget s p x with
      | none => some (.badParam 24, s)
      | some (r, t) =>
        if x.pages.any (·.poisoned) then some (⟨0x30, 4, 0⟩, s)
        else match landPages t x.pages s with
          | .error m => some (m, s)
          | .ok s' =>
            if rowHeld (checkedPages t x s') s then none else
            let s := { t with used := x.used, next := x.next }.write s'
            some (.done x.pages.length, setRequest s x.request { r with
              state := stateOf x.state, feedBack := x.feedBack, turnStart := x.turnStart, lastToken := x.lastToken,
              firstTarget := x.firstTarget, betweenTarget := x.betweenTarget })

/-! ## SHIP-KV -/

/-- The fabric address that the shipment's barges name at the destination: firmware there chooses it. -/
def shipBase (node : Nat) (n : Nat) : W64 := BitVec.ofNat 64 (2 ^ 48 * node + (Config.shipAddress n).toNat % 2 ^ 48)

/-- Send bytes as barges of 4 KiB. -/
def sendBarges (w : Asker) : Nat → W64 → List Byte → State → State
  | 0, _, _, s => s
  | fuel + 1, a, bs, s =>
    if bs = [] then s
    else sendBarges w fuel (a + 4096) (bs.drop 4096) (ask w .barge a (min 4096 bs.length) (clean (bs.take 4096)) s)

/-- The bytes of a shipment's pages, one after another. -/
def shipBytes (x : Shipment) : List Byte := x.pages.flatMap (·.bytes)

/-- Read what is shipped, and go on with it: a page that reads poisoned ends the command (R337). -/
def shipping (c : Cmd) (r : Request) (t : PTab) (s : State) (go : Shipment → State → State) : State :=
  c.reads (t.reads s) s fun s => c.gate (pagePieces (t.allPages s) 0 (poolAt s c.part).desc.pageBytes) s fun s =>
    let g := gather c r t s
    if g.1.pages.any (·.poisoned) then finishCmd c.id [] g.2 else go g.1 g.2

/-- SHIP-KV to another node: its decision is asked for, then the pages go as barges, then its reply is awaited; its
progress is then 2 and the pages sent. -/
def shipAway (c : Cmd) (r : Request) (t : PTab) (s : State) : State :=
  let d := (poolAt s c.part).desc
  let n := (validEntries t (pairs d) s).length * d.pageBytes
  let base := shipBase (c.at 20 2) c.id
  let step (k : Nat) (s : State) : State := updCmd c.id (fun x => { x with progress := k }) s
  if c.admitted = some false then rejectCmd c.id .notPermitted s
  else if c.awaiting ≠ [] || c.progress ≥ 2 then s
  else if c.progress = 0 then remoteQuery c.asker true (n / 0xFFFFFF + 1) base (max n 1) (step 1 s)
  else shipping c r t s fun x s =>
    sendBarges { c.asker with mover := true } (n / 4096 + 1) base (shipBytes x) (step (2 + x.pages.length) s)

/-- SHIP-KV. To a request of this module, named by its node ID or by 0xFFFF, it is done at once; once the pages are on
their way it is not judged again, and only the destination's reply ends it (R337). -/
def execShipKv (cmd : Nat) (s : State) : Out :=
  onCmd 0x0410 cmd s fun c s => if 2 ≤ c.progress then s else c.afterSteps s c.names fun s =>
    judged c (shipChk s c) s fun x s =>
      if c.at 20 2 = ownNode s || c.at 20 2 = 0xFFFF then
        shipping c x.1 x.2 s fun x s' => match land c.part x s' with
          | none => s
          | some r => if r.1.status = 0x11 || r.1.status = 0x16 then rejectCmd c.id r.1 r.2 else finishCmd c.id [r.1] r.2
      else shipAway c x.1 x.2 s

/-- The partition that this module's admission gives a shipment (R183). -/
def shipPart (x : Shipment) (s : State) : Option Nat :=
  admissionOf s { dest := ownNode s, src := x.node, part := x.part, hops := 32, agent := 513, kind := 7, length := 0,
                  tag := 0, addr := mkAddr 5 0, data := [] } true

/-- SHIP_KV_DEST_COMPLETE: here every page has arrived, or the destination's reply has. -/
def shipEvent (e : ShipEvent) (s : State) : State :=
  match e with
  | .arrived x =>
    match (match shipPart x s with | some p => land p x s | none => some (Mark.notPermitted, s)) with
    | none => s
    | some r => sendTow x.node (toLe 4 11 ++ toLe 8 x.cmd ++ toLe 1 r.1.status ++ toLe 1 r.1.detail) r.2
  | .replied cmd status detail =>
    match cmdAt s cmd with
    | some c =>
      if c.opcode = 0x0410 && c.phase = .started && 2 ≤ c.progress then
        finishCmd cmd [⟨status, detail, if status = 0 then c.progress - 2 else 0⟩] s
      else s
    | none => s

def execShipKvDestComplete (event : ShipEvent) (s : State) : Out := .next (whenRunning s (shipEvent event))

end Sys2Proof.Machine
end

