-- ==== Sys2Proof/Machine/Restart.lean ====
section
/-!
DEFINITION. The clean restart after a job fault (12 R358-R361) and the wake from retention (16 R464): the phases after
the one that starts each.
-/

namespace Sys2Proof.Machine

/-- Give every stack's narrow writes to the array, and put it in self-refresh, or take it out (R226). -/
def refreshSelf (on : Bool) (s : State) : State :=
  (List.range 16).foldl (fun s k =>
    let s := if on then flushWhere k (fun _ => true) s else s
    setStack s k { stackAt s k with selfRefresh := on }) s

/-- A phase of the restart ends. -/
def restartPhase (p : Restart) (s : State) (f : State → State) : Out :=
  .next (if s.faults.restart = p && s.boot.vsb && !s.boot.inReset then f s else s)

def setRestart (p : Restart) (s : State) : State := { s with faults := { s.faults with restart := p } }

/-- RESTART_STOP_DONE: every tile has stopped issuing. -/
def execRestartStopDone (s : State) : Out :=
  restartPhase .stop s fun s => setRestart .retain ((List.range 512).foldl stopTile s)

/-- RESTART_RETAIN_DONE: every stack is in self-refresh. -/
def execRestartRetainDone (s : State) : Out := restartPhase .retain s fun s => setRestart .reset (refreshSelf true s)

/-- RESTART_RESET_DONE: the compute dies are reset, so scratchpads, accumulators and all tile state read zero, and so are
the SSQs and bank units. -/
def execRestartResetDone (s : State) : Out :=
  restartPhase .reset s fun s =>
    let s := { s with tiles := [], store := { s.store with tile := [], tileMark := [] } }
    setRestart .resume ((List.range 16).foldl clearSsq s)

/-- A command that had started and not completed (R359). -/
def Cmd.lost (c : Cmd) : Bool := c.phase ≠ .taken && !c.rejected

/-- Jobs, programs, requests with their chunks and the pins of their steps are discarded; customers, pools, page tables
and what they own stay (R360, R361). -/
def discardJobs (s : State) : State :=
  let s := s.serve.running.foldl (fun s m => m.2.pinned.foldl (fun s r => unpin m.1 r s) s) s
  { s with
    jobs := { s.jobs with jobs := [], programs := [] }
    serve := { s.serve with
      requests := [], running := []
      manifests := s.serve.manifests.map fun m =>
        (m.1, { m.2 with entries := m.2.entries.map fun e => { e with freed := true } }) }
    parts := s.parts.map fun p => (p.1, { p.2 with active := none, sliceOver := false })
    fabric := { s.fabric with remote := s.fabric.remote.filter fun r => r.kind = .write }
    faults := { s.faults with repairing := [], jobFault := none, jobFaultCmd := none } }

/-- The duplicates of a queue whose originals have their replies are answered. -/
def answerDups (n : Nat) (s : State) : State := (queueAt s n).dups.foldl (fun s _ => duplicateReply n true s) s

/-- One lost command ends with JOB_LOST; what it waits for goes on without it. Its duplicates follow at once (R51). -/
def loseCmd (c : Cmd) (s : State) : State :=
  let lost := { c with
    rejected := false, marks := [⟨0x3F, 0, 0⟩], corrected := 0, poisoned := 0, clipped := 0, empty := 0,
    retried := none, stop := now s }
  answerDups c.queue (retire lost true (letGo c s))

/-- RESTART_REPORT: the stacks leave self-refresh, the lost commands' replies are written, RESTART is raised, and the
queues resume. -/
def execRestartReport (s : State) : Out :=
  restartPhase .resume s fun s =>
    let s := discardJobs (setRestart .none (refreshSelf false s))
    let lost := s.front.cmds.filter (·.lost)
    let s := s.front.queues.foldl (fun s q => answerDups q.1 s) s
    serveAll <| settleResets (raise .restart (lost.foldl (fun s c => loseCmd c s) s))

/-! ## Waking (R464) -/

/-- A phase of the wake ends. -/
def wakePhase (p : Sleep) (s : State) (f : State → State) : Out :=
  .next (if s.pmu.sleep = p && s.boot.vsb && !s.boot.inReset then f s else s)

def setSleep (p : Sleep) (s : State) : State := { s with pmu := { s.pmu with sleep := p } }

/-- WAKE: a doorbell, whose value is recorded, or a write of POWER.CTRL.WAKE. -/
def execWake (bell : Option Bell) (s : State) : Out :=
  .next (if !hostUp s || !s.boot.ready || s.pmu.sleep = .awake then s
    else match bell with
      | some b => startWake { s with front := { s.front with bells := s.front.bells ++ [b] } }
      | none => startWake s)

/-- WAKE_POWER_DONE: the dies are powered at POWER.VCORE.SET. -/
def execWakePowerDone (s : State) : Out := wakePhase .power s fun s => applyVoltage (powerVoltage (setSleep .memory s))

/-- WAKE_MEMORY_DONE: the stacks leave self-refresh; the ports that were up retrain from their kept settings. -/
def execWakeMemoryDone (s : State) : Out :=
  wakePhase .memory s fun s =>
    let s := setSleep .ports (serveAll (refreshSelf false s))
    (List.range 16).foldl (fun s p =>
      let x := portAt s p
      if x.kept then setPort s p { x with state := .training } else s) s

/-- A kept port that is not up, or is named lost, stays down. -/
def portAfterWake (lost : List Nat) (s : State) (p : Nat) : State :=
  let x := portAt s p
  if !x.kept then s
  else if x.state = .up && !lost.contains p then setPort s p { x with kept := false }
  else setPort s p { crcRetry := x.crcRetry, fecCorr := x.fecCorr, retrains := x.retrains, tagFail := x.tagFail,
                     state := if x.state = .refused then .refused else .down }

/-- WAKE_PORTS_DONE: `lost` names the Fyant ports, and 16 + p the CXL ports, that failed to retrain. -/
def execWakePortsDone (lost : List Nat) (s : State) : Out :=
  wakePhase .ports s fun s =>
    let f := s.far
    let s := { s with far := { f with
      up0 := f.kept0 && !lost.contains 16, up1 := f.kept1 && !lost.contains 17, kept0 := false, kept1 := false } }
    setSleep .resume ((List.range 16).foldl (portAfterWake lost) s)

/-- WAKE_RESUME_DONE: queues resume, and the recorded doorbells take effect. -/
def execWakeResumeDone (s : State) : Out :=
  wakePhase .resume s fun s =>
    let bells := s.front.bells
    let s := setSleep .awake { s with front := { s.front with bells := [] } }
    raise .woke (bells.foldl (fun s b => applyBell b s) s)

end Sys2Proof.Machine
end

