-- ==== Sys2Proof/Machine/Boot.lean ====
section
/-!
DEFINITION. Power and start-up (18 R481-R489): VSB18, the phases, image choice, training, first lap; module reset, supply
loss, PERST_N and Function Level Reset (R490-R493).
-/

namespace Sys2Proof.Machine

/-! ## VSB18 and module reset (R78, R420, R438, R490, R491) -/

/-- What a module reset leaves: fused values, device time, fault records, energy and throttle counts, the first-layer
secret, the job handles issued, flash, what is outside the module, and the numbers that keep keys and tags fresh. -/
def moduleReset (s : State) : State :=
  { pending := s.pending, fuse := s.fuse, free := s.free
    boot := { firstSecret := s.boot.firstSecret, cdi := s.boot.cdi, identityKey := s.boot.identityKey,
              aliasKey := s.boot.aliasKey, pciDown := s.boot.pciDown }
    pins := { s.pins with irqN := true, pwrEn := false }
    time := { s.time with synced := false, asked := false, offset := 0, slewLeft := 0 }
    front := { nextCmd := s.front.nextCmd }
    parts := s.parts.map fun p => (p.1, { opening := p.2.opening })
    jobs := { nextJob := s.jobs.nextJob, nextProgram := s.jobs.nextProgram }
    store := { host := s.store.host, far := s.store.far, farLine := s.store.farLine, farPoison := s.store.farPoison }
    fabric := { nextTag := s.fabric.nextTag }
    faults := { next := s.faults.next, records := s.faults.records, wrapped := s.faults.wrapped,
                collected := s.faults.collected, collectedNext := s.faults.collectedNext }
    security := { nextSession := s.security.nextSession }
    pmu := { energy := s.pmu.energy, throttle := s.pmu.throttle, trip := s.pmu.trip }
    flash := { bytes := s.flash.bytes, busy := s.flash.busy, work := s.flash.work } }

/-- VSB18 is gone: device time, records, secrets and all counts with it. -/
def powerGone (s : State) : State :=
  let r := moduleReset s
  { r with
    boot := { vsb := false, pciDown := s.boot.pciDown }, pins := { r.pins with thermN := true }, time := {}, jobs := {},
    faults := {}, pmu := {}, flash := { bytes := s.flash.bytes } }

def execVsb18Remove (s : State) : Out := .next (if s.boot.vsb then powerGone s else s)

/-- VSB18_APPLY: device time counts from 0; phase 0 begins unless MOD_RST_N is low. -/
def execVsb18Apply (s : State) : Out :=
  .next (if s.boot.vsb then s
    else { s with time := {}, boot := { pciDown := !s.pins.perstN, inReset := !s.pins.modRstN } })

/-- MOD_RST_N is low for `held` ns: below 1 µs nothing; below 10 µs a reset or nothing, which is open; else a reset that
lasts until the pin rises. -/
def modReset (held : Nat) (s : State) : State :=
  if held < 1000 then s
  else if held < 10000 then
    let s' := { s with free := s.free + 1 }
    if s.boot.vsb && Config.shortPulseResets s.free then moduleReset s' else s'
  else
    let r := if s.boot.vsb then moduleReset s else s
    { r with pins := { r.pins with modRstN := false }, boot := { r.boot with inReset := s.boot.vsb } }

def execModRstN (held : Nat) (s : State) : Out := .next (if s.pins.modRstN then modReset held s else s)

def execModRstNRelease (s : State) : Out :=
  .next { s with pins := { s.pins with modRstN := true }, boot := { s.boot with inReset := false } }

/-- VIN_PG_FALL: with PWR_EN high a module reset, which ends at once. -/
def execVinPgFall (s : State) : Out :=
  .next (
    let r := if s.boot.vsb && s.pins.pwrEn then moduleReset s else s
    { r with pins := { r.pins with vinPg := false } })

/-! ## Phases (R481-R483) -/

/-- A start-up phase can end: VSB18 is up, no reset, no halt. -/
def inPhase (k : Nat) (s : State) (f : State → State) : Out :=
  .next (if s.boot.vsb && !s.boot.inReset && !s.boot.halted && s.boot.phase = k && !s.boot.ready then f s else s)

/-- Phases 3 to 6 pause while THERM_N is low. -/
def inWarmPhase (k : Nat) (s : State) (f : State → State) : Out := inPhase k s fun s => if s.pins.thermN then f s else s

/-- The end time of a phase enters the boot log. -/
def logPhase (k : Nat) (s : State) : State := { s with boot := { s.boot with log := tabSet 0 s.boot.log k s.time.now } }

def setPhase (k : Nat) (s : State) : State := { s with boot := { s.boot with phase := k } }

def execBootStandbyDone (s : State) : Out := inPhase 0 s fun s => setPhase 1 (logPhase 0 s)

/-- An image as it stands in flash: its header's numbers and its bytes. -/
structure FlashImage where
  version : Nat
  bytes : List Byte
deriving DecidableEq, Repr

/-- One entry of a patch table (R484): the ROM word it names, and where its code starts in the patch code. -/
structure PatchEntry where
  rom : Nat
  offset : Nat
  valid : Bool
deriving DecidableEq, Repr

/-- How many entries a body's head counts (a count above 256 as 256: DESIGN CHOICE, log 75). -/
def patchCount (body : List Byte) : Nat := min 256 (field body 0 4)

/-- The entries of a patch table's body (R484): 16 bytes each, after the 16-byte head. -/
def patchEntries (body : List Byte) : List PatchEntry :=
  (List.range (patchCount body)).map fun i =>
    let e := (body.drop (16 + 16 * i)).take 16
    ⟨field e 0 4, field e 4 4, field e 8 1 % 2 = 1⟩

/-- The body of the patch table that the running module chose. -/
def patchBody (s : State) : List Byte :=
  let a := if s.boot.patchB then 0x1020000 else 0x1010000
  flashRead s (a + 128) (field (flashRead s a 128) 16 4)

/-- What the Lockkeeper fetches from a ROM word address (R484): the word of the patch code that a valid entry names, of the
first such entry (DESIGN CHOICE, log 75), else the mask ROM's. No row of the table is such a fetch. -/
def romFetch (a : Nat) (s : State) : BitVec 32 :=
  let body := patchBody s
  match (patchEntries body).find? fun e => e.valid && e.rom = a with
  | some e => BitVec.ofNat 32 (field (body.drop (16 + 16 * patchCount body)) e.offset 4)
  | none => Config.maskRom a

/-- The valid image at a flash address (R483): header, signature, security version. -/
def imageAt (s : State) (a kind limit : Nat) : Option FlashImage :=
  let h := flashRead s a 128
  let n := field h 16 4
  if field h 0 4 = 0x4B465731 && field h 4 1 = kind && zeroIn h 5 8 && zeroIn h 20 32 && n ≤ limit
      && s.fuse.minSecurity ≤ field h 12 4 then
    let body := flashRead s (a + 128) n
    if Config.imageSigned (h.take 32 ++ body) ((h.drop 32).take 96) then some ⟨field h 8 4, h ++ body⟩ else none
  else none

/-- The choice between two images: the higher version, on a tie A; whether it is B. -/
def chooseImage : Option FlashImage → Option FlashImage → Option (Bool × FlashImage)
  | some a, some b => if a.version < b.version then some (true, b) else some (false, a)
  | some a, none => some (false, a)
  | none, some b => some (true, b)
  | none, none => none

def halt (error : Nat) (s : State) : State :=
  { s with boot := { s.boot with halted := true, error := error }, pins := { s.pins with pwrEn := false } }

/-- Phase 2 begins. -/
def beginPower (s : State) : State := { s with boot := { s.boot with phase := 2, vinPgAt := now s } }

/-- The first-layer secret: HMAC-SHA-384 of the fused device secret over the mask ROM's digest (R427). The byte order of
the secret as a key is the model's (log 34). -/
def firstLayer (secret : BitVec 256) : BitVec 384 :=
  Config.hmac384 (toLe 32 secret.toNat).reverse (digestBytes Config.romDigest)

/-- The keys of R427 from the digests of the chosen images. -/
def deriveKeys (fw patch : Bool × FlashImage) (s : State) : State :=
  let first := s.boot.firstSecret.getD (firstLayer s.fuse.secret)
  let d := Config.sha384 fw.2.bytes
  let p := Config.sha384 patch.2.bytes
  let cdi := Config.hmac384 (digestBytes first) (digestBytes p ++ digestBytes d)
  { s with boot := { s.boot with
      slotB := fw.1, patchB := patch.1, firmwareDigest := d, patchDigest := p, firstSecret := some first, cdi := some cdi,
      identityKey := some (Config.eccKey first), aliasKey := some (Config.eccKey cdi) } }

/-- The flight table and the SSQ microcode are loaded with the firmware (R242). -/
def loadFlights (image : List Byte) (s : State) : State :=
  { s with flights := flightTable image, microcode := memWrite [] 0 (Config.microcode image) }

/-- BOOT_FLASH_DONE: images are chosen, keys derived, PWR_EN goes high; or the module halts. -/
def flashDone (s : State) : State :=
  match chooseImage (imageAt s 0x10000 1 0x600000) (imageAt s 0x810000 1 0x600000) with
  | none => halt 1 s
  | some fw => match chooseImage (imageAt s 0x1010000 2 65408) (imageAt s 0x1020000 2 65408) with
    | none => halt 2 s
    | some patch =>
      let s := loadFlights fw.2.bytes (logPhase 1 (deriveKeys fw patch s))
      let s := { s with pins := { s.pins with pwrEn := true }, boot := { s.boot with pwrEnAt := now s } }
      if s.pins.vinPg then beginPower s else s

def execBootFlashDone (s : State) : Out := inPhase 1 s fun s => if s.pins.pwrEn then s else flashDone s

def execVinPgRise (s : State) : Out :=
  .next (
    let s := { s with pins := { s.pins with vinPg := true } }
    if s.boot.vsb && !s.boot.halted && s.pins.pwrEn && s.boot.phase = 1 then beginPower s else s)

/-- VIN_PG_TIMEOUT: 100 ms after PWR_EN. -/
def execVinPgTimeout (s : State) : Out :=
  inPhase 1 s fun s => if s.pins.pwrEn && !s.pins.vinPg && s.boot.pwrEnAt + 100000000 ≤ now s then halt 3 s else s

/-- BOOT_POWER_DONE: the dies are powered at POWER.VCORE.SET. -/
def execBootPowerDone (s : State) : Out := inPhase 2 s fun s =>
  applyRow (applyVoltage (powerVoltage (setPhase 3 (logPhase 2 s))))

/-! ## Stacks (R214, R485) -/

/-- The logical pins that lost their own pin, and the spares that work, spare 0 first. Of several lost pins the LOST field,
which has room for one (R229), shows the lowest (DESIGN CHOICE, log 70). -/
def laneOf (failed : List Nat) : Lane :=
  let pins := (List.range 80).filter failed.contains
  let spares := [0, 1].filter fun i => !failed.contains (80 + i)
  let pairs := spares.zip pins
  let carried (i : Nat) : Nat := (tabFind pairs i).getD 0xFF
  { spare0 := carried 0, spare1 := carried 1, lost := (pins.drop spares.length).headD 0xFF }

/-- Logical pins without a working pin. -/
def lostPins (failed : List Nat) : Nat :=
  ((List.range 80).filter failed.contains).length - ([0, 1].filter fun i => !failed.contains (80 + i)).length

def pinsOf (fs : List PinAt) (k c : Nat) : List Nat := (fs.filter fun f => f.stack = k && f.channel = c).map (·.pin)

/-- Train one stack: its lanes, and whether it is degraded or failed. -/
def trainStack (fs : List PinAt) (s : State) (k : Nat) : State :=
  let lost := (List.range 32).map fun c => lostPins (pinsOf fs k c)
  let failed := lost.any (2 ≤ ·)
  let degraded := lost.any (1 ≤ ·)
  let x := stackAt s k
  let s := setStack s k { x with
    trained := !failed, failed := failed, degraded := degraded, pinHits := [], weakPins := []
    lanes := (List.range 32).foldl (fun t c => tabSet {} t c (laneOf (pinsOf fs k c))) [] }
  if degraded then raise .degraded s else s

/-- The training record's place in flash. -/
def recordAt : Nat := 0x1030000
def recordSize : Nat := 0x100000

/-- BOOT_STACKS_DONE: every stack is trained or failed, the record is updated, and the links begin to train. -/
def stacksDone (fs : List PinAt) (s : State) : State :=
  let full := !Config.recordGood (flashRead s recordAt recordSize)
  let s := (List.range 16).foldl (trainStack fs) s
  let record := ((Config.trainRecord (fs.map fun f => (f.stack, f.channel, f.pin))).take recordSize).map (· ^^^ 0xFF)
  let s := { s with boot := { s.boot with fullTrain := full },
                    flash := { s.flash with bytes := memWrite s.flash.bytes recordAt record } }
  let s := ((List.range 16).filter (portPresent s)).foldl (fun s p => setPort s p { state := .training }) s
  setPhase 4 (logPhase 3 s)

def execBootStacksDone (failedPins : List PinAt) (s : State) : Out := inWarmPhase 3 s (stacksDone failedPins)

/-! ## Links, first lap, READY (R486, R487) -/

/-- Set device time once, with the times recorded so far in this start-up. -/
def setTime (d : Int) (s : State) : State :=
  let shift (t : Nat) : Nat := (t + d).toNat
  { s with
    time := { s.time with now := BitVec.ofNat 64 (shift (now s)) }
    boot := { s.boot with
      timeSet := true, vinPgAt := shift s.boot.vinPgAt
      log := s.boot.log.map fun e => (e.1, BitVec.ofNat 64 (shift e.2.toNat)) } }

/-- BOOT_LINKS_DONE: a far device is seen with at most 16 TiB (R2); `correction` is the offset of the exchange of R386 with
the peer on the lowest-numbered up port whose time is synchronised, if there is one: a peer's time is its own (log 73). -/
def linksDone (correction : Option Int) (far0 far1 : FarTrain) (s : State) : State :=
  let s := match correction with
    | some d => if (List.range 16).any fun p => (portAt s p).state = PortState.up then setTime d s else s
    | none => s
  let cap (t : FarTrain) : Nat := if t.up then min t.capacity 16384 else 0
  let s := { s with far := { s.far with
    up0 := far0.up, up1 := far1.up, fast0 := far0.rate6, fast1 := far1.rate6, cap0 := cap far0, cap1 := cap far1 } }
  setPhase 5 (logPhase 4 s)

def execBootLinksDone (correction : Option Int) (far0 far1 : FarTrain) (s : State) : Out :=
  inWarmPhase 4 s (linksDone correction far0 far1)

/-- The longest lap of the stacks in service. -/
def longestLap (laps : List Nat) (s : State) : Nat :=
  ((List.range 16).filter (stackInService s)).foldl (fun a k => max a (laps[k]?.getD 0)) 0

/-- BOOT_SCRUB_DONE: the first lap, then READY; an admin queue that was enabled starts. -/
def scrubDone (laps : List Nat) (s : State) : State :=
  let s := (lapAll none (fun k => laps[k]?.getD 0) s).2.2
  let s := logPhase 6 (logPhase 5 s)
  let s := { s with boot := { s.boot with
    phase := 6, ready := true, bootLap := BitVec.ofNat 32 (longestLap laps s)
    bootTime := BitVec.ofNat 32 ((now s - s.boot.vinPgAt) / 1000) } }
  if s.front.admin.enabled && s.front.admin.good then adminStart s else s

def execBootScrubDone (laps : List Nat) (s : State) : Out := inWarmPhase 5 s (scrubDone laps)

/-! ## PERST_N and Function Level Reset (R492, R493) -/

/-- Every function is reset: sessions, registers, the admin queue's registers; then commands in flight drain. -/
def resetFunctions (s : State) : State :=
  let s := (List.range 5).foldl (fun s fn => resetFnRegs (endSpdm fn s) fn) s
  settleResets { s with
    front := { s.front with admin := {}, bells := [] }, faults := { s.faults with tags := [] },
    boot := { s.boot with draining := true } }

/-- PERST_N goes low. It resets every function's PCIe side at any time, and so ends its SPDM session (R430, R492). -/
def execPerstN (s : State) : Out :=
  .next (if !s.pins.perstN then s
    else
      let s := { s with pins := { s.pins with perstN := false }, boot := { s.boot with pciDown := true } }
      if s.boot.vsb && !s.boot.inReset && s.boot.ready then resetFunctions s
      else (List.range 5).foldl (fun s fn => endSpdm fn s) s)

def execPerstNRelease (s : State) : Out :=
  .next { s with pins := { s.pins with perstN := true }, boot := { s.boot with pciDown := false } }

/-- FUNCTION_LEVEL_RESET: the physical function's acts as PERST_N after READY; a virtual function's on its partition. Before
READY there is none, and the function's session and registers are reset (R430, R493). -/
def functionReset (fn : Nat) (s : State) : State :=
  if !hostUp s then s
  else if !s.boot.ready then resetFnRegs (endSpdm fn s) fn
  else if fn = 0 then resetFunctions s
  else match partOfFn s fn with
    | some p => settleResets (setPart s p { partAt s p with resetting := true })
    | none => resetFnRegs (endSpdm fn s) fn

def execFunctionLevelReset (fn : Nat) (s : State) : Out := onUnit 5 fn s (functionReset fn)

end Sys2Proof.Machine
end

