-- ==== Sys2Proof/Machine/Smbus.lean ====
section
/-!
DEFINITION. The SMBus target (18 R494-R496): telemetry reads, flash programming. Each row is one command of the table of
R495; what a read returns stands in `flash.out`.
-/

namespace Sys2Proof.Machine

/-- A command: the target serves while VSB18 is present, in a module reset too (R494). -/
def onSmb (s : State) (f : State → State) : Out := .next (if s.boot.vsb then f s else s)

/-- What a read returns. -/
def smbOut (bs : List Byte) (s : State) : State := { s with flash := { s.flash with out := bs } }

/-- A word that saturates at 65,535. -/
def smbWord (n : Nat) : List Byte := toLe 2 (min n 65535)

/-- STATUS. -/
def smbStatusWord (s : State) : Nat :=
  flag s.boot.ready 15 + 2 ^ 11 * s.boot.phase + 2 ^ 7 * s.boot.error + flag s.pmu.trip 6
    + flag (s.pmu.sleep ≠ .awake) 5 + flag s.security.lockout 4

def execSmbStatus (s : State) : Out := onSmb s fun s => smbOut (toLe 2 (smbStatusWord s)) s
def execSmbPower (s : State) : Out := onSmb s fun s => smbOut (smbWord s.pmu.mean) s
def execSmbCap (s : State) : Out := onSmb s fun s => smbOut (smbWord (capInForce s)) s
def execSmbVinCurrent (s : State) : Out := onSmb s fun s => smbOut (smbWord s.pmu.currentAvg) s

/-- The hottest compute-die junction. -/
def hottestDie (s : State) : Nat := ((List.range 24).map fun i => (islandAt s i).temp).foldl max 0

def hottestStack (s : State) : Nat := ((List.range 16).map fun k => (stackAt s k).temp).foldl max 0

def execSmbDieTemp (s : State) : Out := onSmb s fun s => smbOut (toLe 1 (min (hottestDie s) 255)) s
def execSmbStackTemp (s : State) : Out := onSmb s fun s => smbOut (toLe 1 (min (hottestStack s) 255)) s
def execSmbEnergy (s : State) : Out := onSmb s fun s => smbOut (toLe 8 (energyUj s)) s
def execSmbThrottle (s : State) : Out := onSmb s fun s => smbOut (toLe 1 (activeBits s)) s
def execSmbSerial (s : State) : Out := onSmb s fun s => smbOut (toLe 8 s.fuse.serial.toNat) s
def execSmbFaults (s : State) : Out := onSmb s fun s => smbOut (toLe 2 s.faults.next) s

/-! ## Flash (R496) -/

/-- The images of R483: first byte, size, and whether the running module chose it. -/
def flashImages (s : State) : List (Nat × Nat × Bool) :=
  let chosen (b : Bool) (isB : Bool) : Bool := s.pins.pwrEn && b = isB
  [(0x10000, 0x800000, chosen s.boot.slotB false), (0x810000, 0x800000, chosen s.boot.slotB true),
   (0x1010000, 0x10000, chosen s.boot.patchB false), (0x1020000, 0x10000, chosen s.boot.patchB true)]

/-- A range that the flash commands may act on: inside one image that is not chosen, or in any while halted. -/
def flashMay (s : State) (a n : Nat) : Bool :=
  (flashImages s).any fun i => i.1 ≤ a && a + n ≤ i.1 + i.2.1 && (s.boot.halted || !i.2.2)

/-- A flash command: refused while the lockout is in force, while an operation is under way (log 45), or on a target that
it may not act on. -/
def onFlash (s : State) (ok : Bool) (f : State → State) : Out :=
  onSmb s fun s =>
    if s.security.lockout || s.flash.busy || !ok then { s with flash := { s.flash with refused := true } } else f s

def execSmbFlashAddr (address : W32) (s : State) : Out :=
  onSmb s fun s =>
    if s.security.lockout then { s with flash := { s.flash with refused := true } }
    else { s with flash := { s.flash with address := address.toNat } }

/-- SMB_FLASH_DATA: 1 to 32 bytes are programmed, and the address advances. -/
def execSmbFlashData (data : List Byte) (s : State) : Out :=
  let a := s.flash.address
  onFlash s (1 ≤ data.length && data.length ≤ 32 && flashMay s a data.length) fun s =>
    { s with flash := { s.flash with address := a + data.length, busy := true, work := some (a, 0, data) } }

/-- SMB_FLASH_ERASE: whole 64 KiB sectors from an aligned address. -/
def execSmbFlashErase (sectors : Nat) (s : State) : Out :=
  let a := s.flash.address
  onFlash s (a % 65536 = 0 && flashMay s a (65536 * sectors)) fun s =>
    { s with flash := { s.flash with busy := true, work := some (a, sectors, []) } }

def execSmbFlashRead (count : Nat) (s : State) : Out :=
  let a := s.flash.address
  onFlash s (1 ≤ count && count ≤ 32 && flashMay s a count) fun s =>
    smbOut (flashRead s a count) { s with flash := { s.flash with address := a + count } }

def execSmbFlashStatus (s : State) : Out :=
  onSmb s fun s =>
    smbOut (toLe 1 (flag s.flash.busy 0 + flag s.flash.refused 1)) { s with flash := { s.flash with refused := false } }

/-- FLASH_OPERATION_DONE: the operation under way has been carried out. -/
def flashWork (s : State) : State :=
  match s.flash.work with
  | none => s
  | some (a, sectors, data) =>
    let bytes := memWrite (memClear s.flash.bytes a (65536 * sectors)) a (data.map (· ^^^ 0xFF))
    { s with flash := { s.flash with bytes := bytes, busy := false, work := none } }

def execFlashOperationDone (s : State) : Out := onSmb s flashWork

end Sys2Proof.Machine
end

