-- ==== Sys2Proof/Machine/Monitor.lean ====
section
/-!
DEFINITION. The Plaorn monitor (18 R497-R501): characters and lines, the commands and what they print. The form of what is
printed is the model's own where R499 gives none (DESIGN CHOICE, log 44).
-/

namespace Sys2Proof.Machine

/-! ## Text -/

def ascii (t : String) : List Byte := t.toList.map fun c => BitVec.ofNat 8 c.toNat

/-- A line ends with CR LF. -/
def newLine : List Byte := [13, 10]

def hexDigit (n : Nat) : Byte := BitVec.ofNat 8 (if n < 10 then 48 + n else 87 + n)

/-- `n` hexadecimal digits of a number. -/
def hexText : Nat → Nat → List Byte
  | 0, _ => []
  | n + 1, v => hexDigit (v / 16 ^ n % 16) :: hexText n v

/-- A number in decimal; 20 digits hold 64 bits. -/
def decText (v : Nat) : List Byte :=
  let ds := (List.range 20).map fun i => v / 10 ^ (19 - i) % 10
  let ds := ds.dropWhile (· == 0)
  (if ds = [] then [0] else ds).map hexDigit

/-- Bytes as pairs of digits with spaces between. -/
def bytesText (bs : List Byte) : List Byte := (bs.map fun b => 32 :: hexText 2 b.toNat).flatten

/-- Send bytes. -/
def say (bs : List Byte) (s : State) : State := { s with mon := { s.mon with out := s.mon.out ++ bs } }

def prompt : List Byte := ascii "plaorn> "

/-- A last line and the prompt. -/
def answer (text : String) (s : State) : State := say (ascii text ++ newLine ++ prompt) s

/-! ## Parsing (R497, R499) -/

/-- Words between spaces. -/
def wordsOf : List Byte → List Byte → List (List Byte)
  | [], w => if w = [] then [] else [w]
  | b :: bs, w => if b = 32 then (if w = [] then wordsOf bs [] else w :: wordsOf bs []) else wordsOf bs (w ++ [b])

/-- A digit of a base; none for another character. -/
def digitOf (base : Nat) (b : Byte) : Option Nat :=
  let n := b.toNat
  let v := if 48 ≤ n && n ≤ 57 then n - 48 else if 97 ≤ n && n ≤ 102 then n - 87
    else if 65 ≤ n && n ≤ 70 then n - 55 else 99
  if v < base then some v else none

def digitsOf (base : Nat) : List Byte → Nat → Option Nat
  | [], a => some a
  | b :: bs, a => match digitOf base b with
    | some d => digitsOf base bs (a * base + d)
    | none => none

/-- A number, decimal or with 0x; it must fit 64 bits. -/
def numberOf (w : List Byte) : Option Nat :=
  let v := match w with
    | 48 :: 120 :: ds => if ds = [] then none else digitsOf 16 ds 0
    | [] => none
    | ds => digitsOf 10 ds 0
  match v with
  | some n => if n < 2 ^ 64 then some n else none
  | none => none

/-- A command from its name and its numbers; none is `err syntax`. -/
def commandOf (name : List Byte) (ns : List Nat) : Option MonCmd :=
  let a (n : Nat) : W64 := BitVec.ofNat 64 n
  let sized (n : Nat) : Bool := n = 4 || n = 8
  if name = ascii "peek" then match ns with
    | [x] => some (.peek (a x) 4)
    | [x, n] => if sized n then some (.peek (a x) n) else none
    | _ => none
  else if name = ascii "poke" then match ns with
    | [x, v] => if v < 2 ^ 32 then some (.poke (a x) (a v) 4) else none
    | [x, v, n] => if sized n && v < 2 ^ (8 * n) then some (.poke (a x) (a v) n) else none
    | _ => none
  else if name = ascii "dump" then match ns with
    | [x, n] => if n ≤ 65536 then some (.dump (a x) n) else none
    | _ => none
  else if name = ascii "tgen" then match ns with
    | [k, c, p, m, r, n] => if k < 16 && c < 32 && p ≤ 6 && m ≤ 3 && r < 2 ^ 32 then some (.tgen k c p m r n) else none
    | _ => none
  else if name = ascii "lap" then (if ns = [] then some .lap else none)
  else if name = ascii "link" then match ns with
    | [] => some (.link none)
    | [p] => some (.link (some p))
    | _ => none
  else if name = ascii "faults" then match ns with
    | [] => some (.faults 8)
    | [n] => if 1 ≤ n && n ≤ 64 then some (.faults n) else none
    | _ => none
  else if name = ascii "island" then match ns with
    | [] => some (.island none)
    | [n] => if n < 24 then some (.island (some n)) else none
    | _ => none
  else if name = ascii "boot" then (if ns = [] then some .boot else none)
  else if name = ascii "quit" then (if ns = [] then some .quit else none)
  else none

def parseLine (line : List Byte) : Option MonCmd :=
  match wordsOf line [] with
  | [] => none
  | name :: ws =>
    let ns := ws.map numberOf
    if ns.all (·.isSome) then commandOf name (ns.filterMap id) else none

/-! ## Characters (R497, R500, R501) -/

/-- The monitor serves from the end of phase 0; not while it is fused off. -/
def monOn (s : State) : Bool := s.boot.vsb && !s.boot.inReset && 1 ≤ s.boot.phase && !s.fuse.debugFused

/-- A whole line. While a command still runs, another line is answered `err busy` (DESIGN CHOICE, log 44). -/
def takeLine (line : List Byte) (s : State) : State :=
  if line = [] then s
  else
    let s := { s with mon := { s.mon with lastLine := now s } }
    if s.security.lockout then say (ascii "plaorn: refused: confidential mode" ++ newLine) s
    else if 128 < line.length then answer "err long" s
    else if s.mon.todo.isSome then answer "err busy" s
    else match parseLine line with
      | some m => { s with mon := { s.mon with todo := some m, since := now s } }
      | none => answer "err syntax" s

def monChar (ch : Byte) (s : State) : State :=
  let s := say [ch] s
  let line := s.mon.line
  if ch = 8 then { s with mon := { s.mon with line := line.dropLast } }
  else if ch = 13 || ch = 10 then takeLine line { s with mon := { s.mon with line := [] } }
  else { s with mon := { s.mon with line := line ++ [ch] } }

def execMonCharacterReceive (ch : Byte) (s : State) : Out := .next (if monOn s then monChar ch s else s)

/-- MON_SESSION_TIMEOUT: 60 s without a line. -/
def execMonSessionTimeout (s : State) : Out :=
  .next (if s.mon.session && s.mon.lastLine + 60000000000 ≤ now s then { s with mon := { s.mon with session := false } }
    else s)

/-! ## Running a command -/

/-- The waiting command is run, if it is one that `pick` knows. -/
def onMon {α : Type} (pick : MonCmd → Option α) (s : State) (f : α → State → State) : Out :=
  .next (if !monOn s || s.security.lockout then s
    else match s.mon.todo.bind pick with
      | some x => f x s
      | none => s)

/-- The command has been answered. -/
def monDone (text : String) (s : State) : State := answer text { s with mon := { s.mon with todo := none } }

/-- The command is accepted: the first one starts a session and raises ATTACH. -/
def monAccept (s : State) : State :=
  if s.mon.session then s else raise .attach { s with mon := { s.mon with session := true } }

/-- What a memory access of the monitor finds. -/
inductive MonReach where
  | go (place : Place)
  | wait (pieces : List (Home × Nat))
  | err (text : String)

/-- R498: the Lockkeeper's access in the physical function's view. A stack in self-refresh serves none (R226). -/
def monReach (a : W64) (n : Nat) (s : State) : MonReach :=
  let memory := spaceOf a ≠ 4
  if nodeOf a ≠ 0xFFFF then .err "err addr"
  else if memory && (s.boot.phase < 4 || (s.dram.any fun k => k.2.selfRefresh)) then .err "err state"
  else match resolve s .lockkeeper (if spaceOf a = 3 then none else some s.front.bar2Part) a n with
    | .error (.absent _) => .err "err absent"
    | .error _ => .err "err addr"
    | .ok (.remote _) => .err "err addr"
    | .ok (.reg off) => .go (.reg off)
    | .ok (.near ps) => match reachOf s .monitor ps with
      | .go => .go (.near ps)
      | .wait => .wait ps
      | .dead => .err "err state"

/-- Read at a place: memory, or one or two registers. -/
def monRead (p : Place) (n : Nat) (s : State) : List Byte × State :=
  match p with
  | .near ps =>
    let r := getPieces false ps (noteWaits .monitor ps s)
    (r.1.bytes, charge none r.1 r.2)
  | .reg off =>
    let lo := regRead 0 off s
    if n = 4 then (toLe 4 lo.1.toNat, lo.2)
    else
      let hi := regRead 0 (off + 4) lo.2
      (toLe 4 lo.1.toNat ++ toLe 4 hi.1.toNat, hi.2)
  | .remote _ => ([], s)

def monWrite (p : Place) (bs : List Byte) (s : State) : State :=
  match p with
  | .near ps => putPieces ps (clean bs) (noteWaits .monitor ps s)
  | .reg off =>
    let s := regWrite 0 off (BitVec.ofNat 32 (field bs 0 4)) s
    if bs.length = 8 then regWrite 0 (off + 4) (BitVec.ofNat 32 (field bs 4 4)) s else s
  | .remote _ => s

/-- An access of `n` bytes that must be naturally aligned. -/
def monAccess (a : W64) (n : Nat) (s : State) (f : Place → State → State) : State :=
  if a.toNat % n ≠ 0 then monDone "err addr" s
  else match monReach a n s with
    | .go p => f p (monAccept s)
    | .wait ps => noteWaits .monitor ps s
    | .err t => monDone t s

def execMonPeek (s : State) : Out :=
  onMon (fun m => match m with | .peek a n => some (a, n) | _ => none) s fun x s =>
    monAccess x.1 x.2 s fun p s =>
      let r := monRead p x.2 s
      monDone "ok" (say (ascii "0x" ++ hexText (2 * x.2) (leNat r.1) ++ newLine) r.2)

def execMonPoke (s : State) : Out :=
  onMon (fun m => match m with | .poke a v n => some (a, v, n) | _ => none) s fun x s =>
    monAccess x.1 x.2.2 s fun p s => monDone "ok" (raise .monWrite (monWrite p (toLe x.2.2 x.2.1.toNat) s))

/-- Lines of 16 bytes, each with its address. -/
def dumpText : Nat → Nat → List Byte → List Byte
  | 0, _, _ => []
  | k + 1, a, bs =>
    if bs = [] then []
    else ascii "0x" ++ hexText 16 a ++ ascii ":" ++ bytesText (bs.take 16) ++ newLine ++ dumpText k (a + 16) (bs.drop 16)

def execMonDump (s : State) : Out :=
  onMon (fun m => match m with | .dump a n => some (a, n) | _ => none) s fun x s =>
    if x.2 = 0 then monDone "ok" (monAccept s) else
    match monReach x.1 x.2 s with
    | .go p =>
      let r := monRead p x.2 (monAccept s)
      monDone "ok" (say (dumpText 4096 x.1.toNat r.1) r.2)
    | .wait ps => noteWaits .monitor ps s
    | .err t => monDone t s

/-- A command of the host of the same kind started before the monitor's (R500). -/
def hostRuns (op : Nat) (s : State) : Bool :=
  s.front.cmds.any fun c => c.opcode = op && c.phase = .started && c.start < s.mon.since

/-- The stacks serve the monitor's tests: trained, and not in self-refresh. -/
def stacksServe (s : State) : Bool := 4 ≤ s.boot.phase && !(s.dram.any fun k => k.2.selfRefresh)

/-- The generator on one channel (R227, R228): the error count and the first 16 capture records. -/
def monTgen (k ch pattern mode count : Nat) (s : State) : State :=
  if !stacksServe s then monDone "err state" s
  else if (stackAt s k).failed then monDone "err absent" s
  else if hostRuns 0x0905 s || s.jobs.jobs.any (fun j => (partStacks s j.part).contains k) then monDone "err busy" s
  else
    let s := monAccept s
    let es := rawErrors s k ch pattern mode count
    let s := rewriteBursts k ch mode count s
    let s := if count = 0 then s else raise .monWrite s
    let text := (es.take 16).flatMap fun e => bytesText (captureRecord (now s) e) ++ newLine
    monDone "ok" (say (decText es.length ++ newLine ++ text) s)

def execMonTgen (s : State) : Out :=
  onMon (fun m => match m with | .tgen k c p m _ n => some (k, c, p, m, n) | _ => none) s fun x s =>
    monTgen x.1 x.2.1 x.2.2.1 x.2.2.2.1 x.2.2.2.2 s

/-- One lap (R223): each stack's summary, all zeros for a failed stack. Its time is that since its line came. -/
def monLap (s : State) : State :=
  if !stacksServe s then monDone "err state" s
  else if anyJob s || hostRuns 0x0906 s then monDone "err busy" s
  else
    let start := s.mon.since
    let t := now s - start
    let r := lapAll none (fun _ => t / 1000) (monAccept s)
    let line (k : Nat) : List Byte :=
      decText k ++ ascii ":" ++ bytesText (match tabFind r.1 k with
        | some x => scrubSummary x (x.first.getD (2 ^ 64 - 1)) start t
        | none => zeros 64) ++ newLine
    let s := if r.2.1.corrected = 0 && r.2.1.bad = 0 then r.2.2 else raise .monWrite r.2.2
    monDone "ok" (say ((List.range 16).flatMap line) s)

def execMonLap (s : State) : Out :=
  onMon (fun m => match m with | .lap => some () | _ => none) s fun _ s => monLap s

def linkLine (s : State) (p : Nat) : List Byte := decText p ++ ascii ":" ++ bytesText (linkRecord p s) ++ newLine

def execMonLink (s : State) : Out :=
  onMon (fun m => match m with | .link p => some p | _ => none) s fun x s =>
    match x with
    | some p => if portPresent s p then monDone "ok" (say (linkLine s p) (monAccept s)) else monDone "err absent" s
    | none => monDone "ok" (say (((List.range 16).filter (portPresent s)).flatMap (linkLine s)) (monAccept s))

/-- A record on one line: its numbers in the order of R419. -/
def recordText (r : Record) : List Byte :=
  ([r.number, r.cls, r.loc.1, r.loc.2.1, r.loc.2.2, r.mv, r.temp, r.rate, r.part, r.job, r.opcode, r.tag.toNat, r.time,
    r.action, r.outcome, r.count].map fun v => decText v ++ [32]).flatten ++ newLine

def execMonFaults (s : State) : Out :=
  onMon (fun m => match m with | .faults n => some n | _ => none) s fun n s =>
    monDone "ok" (say ((s.faults.records.drop (s.faults.records.length - n)).flatMap recordText) (monAccept s))

def islandLine (s : State) (n : Nat) : List Byte :=
  decText n ++ ascii ": 0x" ++ hexText 8 (islandValue n s) ++ newLine

def execMonIsland (s : State) : Out :=
  onMon (fun m => match m with | .island n => some n | _ => none) s fun x s =>
    monDone "ok" (say (match x with
      | some n => islandLine s n
      | none => (List.range 24).flatMap (islandLine s)) (monAccept s))

def execMonBoot (s : State) : Out :=
  onMon (fun m => match m with | .boot => some () | _ => none) s fun _ s =>
    monDone "ok" (say (ascii "0x" ++ hexText 8 (identValue 0x014 s) ++ newLine
      ++ (List.range 7).flatMap fun k => decText (tabGet 0 s.boot.log k).toNat ++ newLine) (monAccept s))

/-- MON_QUIT ends the session. -/
def execMonQuit (s : State) : Out :=
  onMon (fun m => match m with | .quit => some () | _ => none) s fun _ s =>
    let s := monAccept s
    monDone "ok" { s with mon := { s.mon with session := false } }

end Sys2Proof.Machine
end

