-- ==== Sys2Proof/Machine/Security.lean ====
section
/-!
DEFINITION. A function's DOE mailbox as SPDM responder, its session and SLUICE-BIND (15 R429-R431), the attestation
report (R439, R440).
-/

namespace Sys2Proof.Machine

/-! ## The mailbox (R429) -/

def spdmAt (s : State) (fn : Nat) : Spdm := s.security.spdm[fn]?.getD {}

def setSpdm (s : State) (fn : Nat) (x : Spdm) : State :=
  { s with security := { s.security with spdm := s.security.spdm.setIfInBounds fn x } }

/-- A data object in the mailbox. -/
def mailReply (fn : Nat) (bs : List Byte) (s : State) : State := setSpdm s fn { spdmAt s fn with mailbox := bs }

/-- A response: version and code, what this chapter says it carries, then what SPDM 1.3 adds (PRESUMED, log 43). -/
def spdmReply (fn code : Nat) (carried : List Byte) (s : State) : State :=
  mailReply fn ([0x13, BitVec.ofNat 8 code, 0, 0] ++ carried ++ Config.spdmBody fn code carried (now s)) s

/-- The SPDM errors that a request can meet (PRESUMED, log 43). -/
def errInvalid : Nat := 0x01
def errBusy : Nat := 0x03
def errUnexpected : Nat := 0x04
def errDecrypt : Nat := 0x06

def spdmError (fn code : Nat) (s : State) : State := mailReply fn [0x13, 0x7F, BitVec.ofNat 8 code, 0] s

/-- A request on a function's mailbox, served while the PCIe link is up. -/
def onMail (fn : Nat) (s : State) (f : Spdm → State → State) : Out :=
  onUnit 5 fn s fun s => if hostUp s then f (spdmAt s fn) s else s

/-- A request that needs version, capabilities and algorithms settled (SPDM 1.3; PRESUMED, log 43). -/
def onAgreed (fn : Nat) (s : State) (f : Spdm → State → State) : Out :=
  onMail fn s fun x s => if x.negotiated then f x s else spdmError fn errUnexpected s

/-- A request inside an established session. -/
def onSession (fn : Nat) (s : State) (f : Spdm → State → State) : Out :=
  onMail fn s fun x s => if x.established then f x s else spdmError fn errUnexpected s

def execGetVersion (fn : Nat) (s : State) : Out :=
  onMail fn s fun x s =>
    spdmReply fn 0x04 [] (setSpdm s fn { x with versioned := true, capable := false, negotiated := false })

/-- The capabilities of R429, in the flags of SPDM 1.3 (PRESUMED, log 43): certificates, CHALLENGE, signed measurements, key
exchange, encryption with MAC, heartbeat and key update; no PSK exchange, mutual authentication or provisioning. -/
def capabilities : List Byte :=
  toLe 4 (flag true 1 + flag true 2 + flag true 4 + flag true 6 + flag true 7 + flag true 9 + flag true 13 + flag true 14)

/-- The algorithms of R429, in the selection bits of SPDM 1.3 (PRESUMED, log 43): ECDSA P-384, SHA-384, secp384r1,
AES-256-GCM. -/
def algorithms : List Byte := toLe 4 (flag true 7) ++ toLe 4 (flag true 1) ++ toLe 2 (flag true 4) ++ toLe 2 (flag true 1)

def execGetCapabilities (fn : Nat) (s : State) : Out :=
  onMail fn s fun x s =>
    if x.versioned then spdmReply fn 0x61 capabilities (setSpdm s fn { x with capable := true })
    else spdmError fn errUnexpected s

def execNegotiateAlgorithms (fn : Nat) (s : State) : Out :=
  onMail fn s fun x s =>
    if x.capable then spdmReply fn 0x63 algorithms (setSpdm s fn { x with negotiated := true })
    else spdmError fn errUnexpected s

/-- The chain of R428 from the root down to the alias certificate. -/
def rootCa : List Byte := Config.rootCert

def identityCerts (s : State) : List Byte × List Byte :=
  let area := flashRead s 0x1130000 65536
  let n := derLength area
  (area.take n, (area.drop n).take (derLength (area.drop n)))

/-- The alias certificate: the alias key and both digests, signed with the device identity key (R427). -/
def aliasOf (s : State) : List Byte :=
  let text := Config.aliasText (s.boot.aliasKey.getD 0) s.boot.patchDigest s.boot.firmwareDigest
  Config.certificate text (Config.identitySign (s.boot.identityKey.getD 0) text)

def slotChain (s : State) : List Byte := rootCa ++ (identityCerts s).2 ++ (identityCerts s).1 ++ aliasOf s

def execGetDigests (fn : Nat) (s : State) : Out :=
  onAgreed fn s fun _ s => spdmReply fn 0x01 (digestBytes (Config.sha384 (slotChain s))) s

def execGetCertificate (fn slot : Nat) (s : State) : Out :=
  onAgreed fn s fun _ s => if slot = 0 then spdmReply fn 0x02 (slotChain s) s else spdmError fn errInvalid s

/-- CHALLENGE: the response is signed with the alias key. -/
def execChallenge (fn slot : Nat) (nonce : List Byte) (s : State) : Out :=
  onAgreed fn s fun _ s =>
    if slot = 0 then
      spdmReply fn 0x03 (digestBytes (Config.sha384 (slotChain s)) ++ nonce
        ++ Config.aliasSign (s.boot.aliasKey.getD 0) nonce) s
    else spdmError fn errInvalid s

/-- The measurements of R429: 1 ROM, 2 patch table, 3 firmware. -/
def measurement (s : State) : Nat → Option (BitVec 384)
  | 1 => some Config.romDigest
  | 2 => some s.boot.patchDigest
  | 3 => some s.boot.firmwareDigest
  | _ => none

/-- GET_MEASUREMENTS: 0 asks how many there are, 0xFF for all (PRESUMED, log 43). -/
def execGetMeasurements (fn index : Nat) (s : State) : Out :=
  onAgreed fn s fun _ s =>
    if index = 0 then spdmReply fn 0x60 [3] s
    else if index = 0xFF then
      spdmReply fn 0x60 ([1, 2, 3].flatMap fun i => digestBytes ((measurement s i).getD 0)) s
    else match measurement s index with
      | some d => spdmReply fn 0x60 (digestBytes d) s
      | none => spdmError fn errInvalid s

/-! ## Sessions (R430) -/

/-- KEY_EXCHANGE: at most one session a function. -/
def execKeyExchange (fn peerKey : Nat) (s : State) : Out :=
  onAgreed fn s fun x s =>
    if x.session.isSome then spdmError fn errBusy s
    else
      let n := s.security.nextSession
      let s := { s with security := { s.security with nextSession := n + 1 } }
      spdmReply fn 0x64 [] (setSpdm s fn { x with
        session := some n, secret := Config.sessionSecret peerKey n, established := false, keyUpdates := 0,
        lastHeard := now s })

/-- FINISH: the session is established once the peer's message verifies. -/
def execFinish (fn : Nat) (verify : List Byte) (s : State) : Out :=
  onMail fn s fun x s =>
    if x.session.isNone || x.established then spdmError fn errUnexpected s
    else if Config.finishVerified x.secret verify then
      spdmReply fn 0x65 [] (setSpdm s fn { x with established := true, lastHeard := now s })
    else spdmError fn errDecrypt s

/-- KEY_UPDATE: the session's message keys move on; its export secret does not. -/
def execKeyUpdate (fn : Nat) (s : State) : Out :=
  onSession fn s fun x s => spdmReply fn 0x69 [] (setSpdm s fn { x with keyUpdates := x.keyUpdates + 1 })

def execHeartbeat (fn : Nat) (s : State) : Out :=
  onSession fn s fun x s => spdmReply fn 0x68 [] (setSpdm s fn { x with lastHeard := now s })

/-- HEARTBEAT_LAPSE: a session whose last heartbeat is too old ends. -/
def execHeartbeatLapse (fn : Nat) (s : State) : Out :=
  onUnit 5 fn s fun s =>
    let x := spdmAt s fn
    if x.session.isSome && x.lastHeard + Config.heartbeatNs ≤ now s then endSpdm fn s else s

def execEndSession (fn : Nat) (s : State) : Out := onSession fn s fun _ s => spdmReply fn 0x6C [] (endSpdm fn s)

/-! ## SLUICE-BIND (R431, R436) -/

/-- SLUICE_BIND: only on the function of an open partition that has no queue. -/
def execSluiceBind (fn : Nat) (address : W64) (frames : Nat) (s : State) : Out :=
  onSession fn s fun x s =>
    match partOfFn s fn with
    | none => spdmError fn errUnexpected s
    | some p =>
      if queueOf s p then spdmError fn errUnexpected s
      else if address.toNat % 4096 ≠ 0 || frames < 1 || 16384 < frames then spdmError fn errInvalid s
      else spdmReply fn 0x7E [] (setBounce s p
        { address := address, frames := frames, secret := x.secret, live := true, fails := (bounceAt s p).fails })

/-- DOE_DISCOVERY: PCI-SIG's vendor ID, the data object type of an index, and the next index; an index beyond the last
answers with vendor 0xFFFF (PRESUMED, log 43). -/
def execDoeDiscovery (fn index : Nat) (s : State) : Out :=
  onMail fn s fun _ s =>
    mailReply fn (match index with
      | 0 => [0x01, 0x00, 0x00, 0x01]
      | 1 => [0x01, 0x00, 0x01, 0x02]
      | 2 => [0x01, 0x00, 0x02, 0x00]
      | _ => [0xFF, 0xFF, 0xFF, 0x00]) s

/-! ## The attestation report (R439, R440) -/

/-- A CBOR text string, its characters given as bytes. -/
def cborText (bs : List Byte) : List Byte := cborHead 3 bs.length ++ bs

/-- Whether the asking partition's report lists what partition `p` holds. -/
def reported (s : State) (ask p : Nat) : Bool := if ask = 0xFF then !(partAt s p).confidential else p = ask

def attestLayout (s : State) : List Byte :=
  cborArray ((s.parts.filter (·.2.isOpen)).map fun p =>
    cborArray [cborUint p.1, cborUint p.2.shape, cborUint p.2.index, cborUint (flag p.2.confidential 0), cborUint p.2.vf])

def attestPrograms (s : State) (ask : Nat) : List Byte :=
  cborArray ((s.jobs.programs.filter fun g => reported s ask g.part).map fun g =>
    cborArray [cborUint g.handle, cborUint g.job, cborUint (g.tiles.headD 0), cborUint g.tiles.length,
      cborBytes (digestBytes g.digest)])

def attestWeights (s : State) (ask : Nat) : List Byte :=
  cborArray ((s.weights.filter fun w => reported s ask w.part).map fun w =>
    cborArray [cborUint w.handle, cborBytes (digestBytes w.top)])

/-- The payload of R439. -/
def attestPayload (s : State) (ask : Nat) (nonce : List Byte) : List Byte :=
  cborMap
    [(1, cborBytes nonce), (2, cborUint s.fuse.serial.toNat),
     (3, cborUint (match s.fuse.grade with | .a => 0 | .b => 1)), (4, cborBytes (digestBytes Config.romDigest)),
     (5, cborBytes (digestBytes s.boot.patchDigest)), (6, cborBytes (digestBytes s.boot.firmwareDigest)),
     (7, cborUint s.fuse.fuseWord.toNat),
     (8, cborUint (flag s.security.lockout 0 + flag s.security.lockout 1 + flag s.fuse.debugFused 2)),
     (9, attestLayout s), (10, attestPrograms s ask), (11, attestWeights s ask), (12, cborUint ask),
     (13, cborUint (now s))]

/-- alg ES384. -/
def protectedHeader : List Byte := cborMap [(1, cborInt (-35))]

/-- The COSE_Sign1 structure: protected and unprotected header, payload, signature. -/
def attestReport (s : State) (ask : Nat) (nonce : List Byte) : List Byte :=
  let payload := attestPayload s ask nonce
  let toSign := cborArray
    [cborText [0x53, 0x69, 0x67, 0x6E, 0x61, 0x74, 0x75, 0x72, 0x65, 0x31], cborBytes protectedHeader, cborBytes [],
     cborBytes payload]
  let chain := [aliasOf s, (identityCerts s).1, (identityCerts s).2, rootCa]
  cborArray
    [cborBytes protectedHeader, cborMap [(33, cborArray (chain.map cborBytes))], cborBytes payload,
     cborBytes (Config.aliasSign (s.boot.aliasKey.getD 0) toSign)]

def attestChk (s : State) (c : Cmd) : Chk Unit := do
  need (16384 ≤ c.at 24 4) (.badParam 24)
  c.checkRanges s [(16, c.addr 16, c.at 24 4)]

/-- ATTEST_REPORT: at most 16,384 bytes; the result word is its length. -/
def execAttestReport (cmd : Nat) (s : State) : Out :=
  onCmd 0x0801 cmd s fun c s =>
    if c.at 24 4 = 0 then doneCmd c.id 0 s else
    judged c (attestChk s c) s fun _ s => c.reaching (c.addr 16) (c.at 24 4) s fun s =>
      let bs := (attestReport s c.part ((c.params.drop 16).take 32)).take 16384
      doneCmd c.id bs.length (c.put (c.addr 16) (clean bs) s)

end Sys2Proof.Machine
end

