-- ==== Sys2Proof/Machine/TimeOps.lean ====
section
/-!
DEFINITION. Device time (03 R77-R82) and its exchange along the towpath (13 R385-R387): reference clock edges, the slew,
PPS edges and lock, time requests and replies.
-/

namespace Sys2Proof.Machine

/-- The number of reference edges between two slewed ones (R79). -/
def slewSpacing : Nat := 999

/-- What one reference edge adds: 10, or 9 or 11 on at most one edge in 1,000 while a slew is in progress. -/
def edgeStep (t : Time) : Nat :=
  if t.slewLeft = 0 || t.sinceSlew < slewSpacing then 10 else if t.slewLeft > 0 then 11 else 9

/-- One edge of the reference clock. -/
def Time.edge (t : Time) : Time :=
  let k := edgeStep t
  { t with
    now := t.now + BitVec.ofNat 64 k
    slewLeft := t.slewLeft - (k - 10)
    sinceSlew := if k = 10 then min 1000 (t.sinceSlew + 1) else 0 }

/-- REFERENCE_CLOCK_EDGE: device time advances, and what counts device time accrues. -/
def execReferenceClockEdge (s : State) : Out :=
  .next (if s.boot.vsb then accrue (edgeStep s.time) { s with time := s.time.edge } else s)

/-- Correct device time by `d` ns; a later correction replaces what is left of an earlier one. -/
def startSlew (d : Int) (s : State) : State := { s with time := { s.time with slewLeft := d } }

/-! ## PPS (R81, R82) -/

/-- How far from 1 s after the latest PPS edge it is. The spec names no time base for the spacing of the edges: the model
measures it in device time as it reads, which a set time or a slew between two edges moves (DESIGN CHOICE, log 61). -/
def ppsError (s : State) : Int := (now s : Int) - s.time.ppsLast.toNat - 1000000000

/-- PPS_EDGE: recorded, and the lock is 1 while edges come within 1 µs of 1 s apart. The reference, or a module without
a time parent, disciplines its rate to locked edges; by how much is open (log 1). -/
def ppsEdge (s : State) : State :=
  let e := ppsError s
  let locked := s.time.ppsSeen && -1000 ≤ e && e ≤ 1000
  let s := { s with time := { s.time with ppsLast := s.time.now, ppsSeen := true, ppsLock := locked } }
  if locked && (timeParent s).isNone then startSlew (Config.ppsSlew e) s else s

def execPpsEdge (s : State) : Out := .next (if s.boot.vsb then ppsEdge s else s)

/-- PPS_LOCK_LAPSE: more than 1 s + 1 µs has passed since the latest edge. -/
def execPpsLockLapse (s : State) : Out :=
  .next (if s.time.ppsLock && ppsError s > 1000 then { s with time := { s.time with ppsLock := false } } else s)

/-! ## The exchange (R385, R386) -/

/-- The towpath messages of the exchange: their code, then the stamps (log 23). They are stamped as they leave. -/
def timeRequestBytes : List Byte := toLe 4 7 ++ zeros 8
def timeReplyBytes (t1 : W64) (t2 : Nat) : List Byte := toLe 4 8 ++ toLe 8 t1.toNat ++ toLe 8 t2 ++ zeros 8

/-- OFFSET_NS saturates. -/
def offsetField (d : Int) : BitVec 16 := BitVec.ofInt 16 (max (-32767) (min 32767 d))

/-- TIME_EXCHANGE_TICK: a request to the time parent. The reference has no offset; a module without a node ID or a time
parent, and one whose latest request has had no reply, is not synchronised (R80; log 63). -/
def timeTick (s : State) : State :=
  if isReference s && s.fabric.node.isSome then
    { s with time := { s.time with synced := true, asked := false, offset := 0 } }
  else match if s.fabric.node.isSome then timeParent s else none with
    | some p => sendTow (onePort p) timeRequestBytes
        { s with time := { s.time with synced := s.time.synced && !s.time.asked, asked := true } }
    | none => { s with time := { s.time with synced := false, asked := false } }

def execTimeExchangeTick (s : State) : Out := .next (if linksOn s then timeTick s else s)

/-- TIME_REQUEST_RECEIVE: the reply goes back over the port that the request came by; a module without a node ID takes no
part (R385). -/
def execTimeRequestReceive (port : Nat) (t1 : W64) (s : State) : Out :=
  onPort port s fun x s =>
    if x.state = .up && s.fabric.node.isSome then sendTow (onePort port) (timeReplyBytes t1 (now s)) s else s

/-- The offset of R386, rounded down to whole ns. -/
def timeOffset (t1 t2 t3 t4 : Nat) : Int := (((t2 : Int) - t1) - ((t4 : Int) - t3)) / 2

/-- TIME_REPLY_RECEIVE: the offset is reported and slewed away; SYNCED is 1 while it is within 50 ns. -/
def timeReply (t1 t2 t3 : W64) (s : State) : State :=
  let d := timeOffset t1.toNat t2.toNat t3.toNat (now s)
  startSlew d { s with time := { s.time with offset := offsetField d, synced := -50 ≤ d && d ≤ 50, asked := false } }

def execTimeReplyReceive (t1 t2 t3 : W64) (s : State) : Out :=
  .next (if linksOn s && s.fabric.node.isSome && (timeParent s).isSome then timeReply t1 t2 t3 s else s)

end Sys2Proof.Machine
end

