-- ==== Sys2Proof/Machine/Dispatch.lean ====
section
/-!
DEFINITION. The dispatch: one arm for each constructor of Instr, one meaning for each arm.
-/

namespace Sys2Proof.Machine

/-- The effect of a command on everything but the queue of waiting commands. -/
def exec (i : Instr) (s : State) : Host.Outcome State Fault Refusal :=
  match i with
  | .sqTailWrite fn queue value stores => Sys2Proof.Machine.execSqTailWrite fn queue value stores s
  | .replyHeadWrite fn queue value => Sys2Proof.Machine.execReplyHeadWrite fn queue value s
  | .packetTake ok => Sys2Proof.Machine.execPacketTake ok s
  | .commandStart cmd => Sys2Proof.Machine.execCommandStart cmd s
  | .commandComplete cmd ok => Sys2Proof.Machine.execCommandComplete cmd ok s
  | .duplicateReply queue ok => Sys2Proof.Machine.execDuplicateReply queue ok s
  | .commandTimeout cmd => Sys2Proof.Machine.execCommandTimeout cmd s
  | .commandRetry cmd cls => Sys2Proof.Machine.execCommandRetry cmd cls s
  | .adminQueueEnable value => Sys2Proof.Machine.execAdminQueueEnable value s
  | .adminQueueDisable value => Sys2Proof.Machine.execAdminQueueDisable value s
  | .adminQueueDrained => Sys2Proof.Machine.execAdminQueueDrained s
  | .queueCreate cmd => Sys2Proof.Machine.execQueueCreate cmd s
  | .queueDelete cmd => Sys2Proof.Machine.execQueueDelete cmd s
  | .partitionOpen cmd => Sys2Proof.Machine.execPartitionOpen cmd s
  | .partitionClose cmd => Sys2Proof.Machine.execPartitionClose cmd s
  | .jobOpen cmd => Sys2Proof.Machine.execJobOpen cmd s
  | .jobClose cmd => Sys2Proof.Machine.execJobClose cmd s
  | .jobSlice cmd => Sys2Proof.Machine.execJobSlice cmd s
  | .memCopy cmd => Sys2Proof.Machine.execMemCopy cmd s
  | .memFill cmd => Sys2Proof.Machine.execMemFill cmd s
  | .copyTensor cmd => Sys2Proof.Machine.execCopyTensor cmd s
  | .scrubRange cmd => Sys2Proof.Machine.execScrubRange cmd s
  | .setKvBoundary cmd => Sys2Proof.Machine.execSetKvBoundary cmd s
  | .checkbitWrite cmd => Sys2Proof.Machine.execCheckbitWrite cmd s
  | .loadProgram cmd => Sys2Proof.Machine.execLoadProgram cmd s
  | .launch cmd => Sys2Proof.Machine.execLaunch cmd s
  | .unloadProgram cmd => Sys2Proof.Machine.execUnloadProgram cmd s
  | .setFormatSlot cmd => Sys2Proof.Machine.execSetFormatSlot cmd s
  | .customerSet cmd => Sys2Proof.Machine.execCustomerSet cmd s
  | .requestOpen cmd => Sys2Proof.Machine.execRequestOpen cmd s
  | .requestClose cmd => Sys2Proof.Machine.execRequestClose cmd s
  | .submitChunk cmd => Sys2Proof.Machine.execSubmitChunk cmd s
  | .stepPlan cmd => Sys2Proof.Machine.execStepPlan cmd s
  | .stepRun cmd => Sys2Proof.Machine.execStepRun cmd s
  | .stepRunSettle cmd => Sys2Proof.Machine.execStepRunSettle cmd s
  | .forkSequence cmd => Sys2Proof.Machine.execForkSequence cmd s
  | .editPages cmd => Sys2Proof.Machine.execEditPages cmd s
  | .evict cmd => Sys2Proof.Machine.execEvict cmd s
  | .compact cmd => Sys2Proof.Machine.execCompact cmd s
  | .prefixLookup cmd => Sys2Proof.Machine.execPrefixLookup cmd s
  | .prefixInsert cmd => Sys2Proof.Machine.execPrefixInsert cmd s
  | .loadPrefixSet cmd => Sys2Proof.Machine.execLoadPrefixSet cmd s
  | .promote cmd => Sys2Proof.Machine.execPromote cmd s
  | .demote cmd => Sys2Proof.Machine.execDemote cmd s
  | .shipKv cmd => Sys2Proof.Machine.execShipKv cmd s
  | .shipKvDestComplete event => Sys2Proof.Machine.execShipKvDestComplete event s
  | .adoptPages cmd => Sys2Proof.Machine.execAdoptPages cmd s
  | .registerWeights cmd => Sys2Proof.Machine.execRegisterWeights cmd s
  | .unregisterWeights cmd => Sys2Proof.Machine.execUnregisterWeights cmd s
  | .verifyWeights cmd => Sys2Proof.Machine.execVerifyWeights cmd s
  | .weightPageRepair handle page answers => Sys2Proof.Machine.execWeightPageRepair handle page answers s
  | .neighbourRead cmd => Sys2Proof.Machine.execNeighbourRead cmd s
  | .setNodeId cmd => Sys2Proof.Machine.execSetNodeId cmd s
  | .routeWrite cmd => Sys2Proof.Machine.execRouteWrite cmd s
  | .linkState cmd => Sys2Proof.Machine.execLinkState cmd s
  | .linkRekey cmd => Sys2Proof.Machine.execLinkRekey cmd s
  | .fabricFence cmd => Sys2Proof.Machine.execFabricFence cmd s
  | .setCap cmd => Sys2Proof.Machine.execSetCap cmd s
  | .setProfile cmd => Sys2Proof.Machine.execSetProfile cmd s
  | .lendPool cmd => Sys2Proof.Machine.execLendPool cmd s
  | .sleep cmd => Sys2Proof.Machine.execSleep cmd s
  | .powerRead cmd => Sys2Proof.Machine.execPowerRead cmd s
  | .attestReport cmd => Sys2Proof.Machine.execAttestReport cmd s
  | .scrubStatus cmd => Sys2Proof.Machine.execScrubStatus cmd s
  | .identRead cmd => Sys2Proof.Machine.execIdentRead cmd s
  | .faultLog cmd => Sys2Proof.Machine.execFaultLog cmd s
  | .faultResponseLoad cmd => Sys2Proof.Machine.execFaultResponseLoad cmd s
  | .guardBandLoad cmd => Sys2Proof.Machine.execGuardBandLoad cmd s
  | .trafficGen cmd => Sys2Proof.Machine.execTrafficGen cmd s
  | .scrubLap cmd => Sys2Proof.Machine.execScrubLap cmd s
  | .bundleIssue tile => Sys2Proof.Machine.execBundleIssue tile s
  | .ccResultLand tile => Sys2Proof.Machine.execCcResultLand tile s
  | .readCacheFill tile => Sys2Proof.Machine.execReadCacheFill tile s
  | .aset tile engine => Sys2Proof.Machine.execAset tile engine s
  | .awrap tile engine => Sys2Proof.Machine.execAwrap tile engine s
  | .seed tile engine => Sys2Proof.Machine.execSeed tile engine s
  | .dgset tile => Sys2Proof.Machine.execDgset tile s
  | .mwload tile => Sys2Proof.Machine.execMwload tile s
  | .mma tile => Sys2Proof.Machine.execMma tile s
  | .mdrain tile => Sys2Proof.Machine.execMdrain tile s
  | .vadd tile => Sys2Proof.Machine.execVadd tile s
  | .vsub tile => Sys2Proof.Machine.execVsub tile s
  | .vmul tile => Sys2Proof.Machine.execVmul tile s
  | .vfma tile => Sys2Proof.Machine.execVfma tile s
  | .vmax tile => Sys2Proof.Machine.execVmax tile s
  | .vmin tile => Sys2Proof.Machine.execVmin tile s
  | .vscale tile => Sys2Proof.Machine.execVscale tile s
  | .vcvt tile => Sys2Proof.Machine.execVcvt tile s
  | .vmulb tile => Sys2Proof.Machine.execVmulb tile s
  | .vsubb tile => Sys2Proof.Machine.execVsubb tile s
  | .vredsum tile => Sys2Proof.Machine.execVredsum tile s
  | .vredmax tile => Sys2Proof.Machine.execVredmax tile s
  | .sexp tile => Sys2Proof.Machine.execSexp tile s
  | .slog tile => Sys2Proof.Machine.execSlog tile s
  | .srsqrt tile => Sys2Proof.Machine.execSrsqrt tile s
  | .srcp tile => Sys2Proof.Machine.execSrcp tile s
  | .sidx tile => Sys2Proof.Machine.execSidx tile s
  | .dcopy tile => Sys2Proof.Machine.execDcopy tile s
  | .dlayout tile => Sys2Proof.Machine.execDlayout tile s
  | .dflagset tile => Sys2Proof.Machine.execDflagset tile s
  | .dflagwait tile => Sys2Proof.Machine.execDflagwait tile s
  | .dflagwaitSatisfied tile => Sys2Proof.Machine.execDflagwaitSatisfied tile s
  | .dfence tile => Sys2Proof.Machine.execDfence tile s
  | .ddesc tile => Sys2Proof.Machine.execDdesc tile s
  | .twinMatchTimeout tile => Sys2Proof.Machine.execTwinMatchTimeout tile s
  | .engineInstructionComplete tile engine => Sys2Proof.Machine.execEngineInstructionComplete tile engine s
  | .tileFinish tile => Sys2Proof.Machine.execTileFinish tile s
  | .jobFault => Sys2Proof.Machine.execJobFault s
  | .restartStopDone => Sys2Proof.Machine.execRestartStopDone s
  | .restartRetainDone => Sys2Proof.Machine.execRestartRetainDone s
  | .restartResetDone => Sys2Proof.Machine.execRestartResetDone s
  | .restartReport => Sys2Proof.Machine.execRestartReport s
  | .sliceEnd part => Sys2Proof.Machine.execSliceEnd part s
  | .jobSwitch part => Sys2Proof.Machine.execJobSwitch part s
  | .runStart stack bank => Sys2Proof.Machine.execRunStart stack bank s
  | .attnScore stack bank => Sys2Proof.Machine.execAttnScore stack bank s
  | .attnFull stack bank => Sys2Proof.Machine.execAttnFull stack bank s
  | .scoreDecay stack bank => Sys2Proof.Machine.execScoreDecay stack bank s
  | .gemv stack bank => Sys2Proof.Machine.execGemv stack bank s
  | .axpy stack bank => Sys2Proof.Machine.execAxpy stack bank s
  | .reduce stack bank => Sys2Proof.Machine.execReduce stack bank s
  | .pageCopy stack bank => Sys2Proof.Machine.execPageCopy stack bank s
  | .rowZero stack bank => Sys2Proof.Machine.execRowZero stack bank s
  | .pageDigest stack bank => Sys2Proof.Machine.execPageDigest stack bank s
  | .lock stack bank => Sys2Proof.Machine.execLock stack bank s
  | .mergeGroupResult stack => Sys2Proof.Machine.execMergeGroupResult stack s
  | .refreshDue stack bank => Sys2Proof.Machine.execRefreshDue stack bank s
  | .mergeBufferFlush stack channel => Sys2Proof.Machine.execMergeBufferFlush stack channel s
  | .stackRowChange stack temp => Sys2Proof.Machine.execStackRowChange stack temp s
  | .refreshRateChange stack temp => Sys2Proof.Machine.execRefreshRateChange stack temp s
  | .idleScrubLapEnd laps => Sys2Proof.Machine.execIdleScrubLapEnd laps s
  | .unitHang unit cmd => Sys2Proof.Machine.execUnitHang unit cmd s
  | .faultRecordExport => Sys2Proof.Machine.execFaultRecordExport s
  | .faultRecordReceive record => Sys2Proof.Machine.execFaultRecordReceive record s
  | .tenantSwitchClearDone part => Sys2Proof.Machine.execTenantSwitchClearDone part s
  | .tenantSwitchMemoryDone part => Sys2Proof.Machine.execTenantSwitchMemoryDone part s
  | .farLinkDown port => Sys2Proof.Machine.execFarLinkDown port s
  | .farLinkRetrainDone port up rate6 => Sys2Proof.Machine.execFarLinkRetrainDone port up rate6 s
  | .portTrained port roundTrip => Sys2Proof.Machine.execPortTrained port roundTrip s
  | .hailReceive port hail => Sys2Proof.Machine.execHailReceive port hail s
  | .flitTransmit port => Sys2Proof.Machine.execFlitTransmit port s
  | .flitReceive port flit fec => Sys2Proof.Machine.execFlitReceive port flit fec s
  | .portRetrainDone port up => Sys2Proof.Machine.execPortRetrainDone port up s
  | .portSilenceTimeout port => Sys2Proof.Machine.execPortSilenceTimeout port s
  | .rekeyMessageReceive port peerKey => Sys2Proof.Machine.execRekeyMessageReceive port peerKey s
  | .write port => Sys2Proof.Machine.execWrite port s
  | .read port => Sys2Proof.Machine.execRead port s
  | .readData port => Sys2Proof.Machine.execReadData port s
  | .writeAcknowledgement port => Sys2Proof.Machine.execWriteAcknowledgement port s
  | .refusal port => Sys2Proof.Machine.execRefusal port s
  | .admissionQuery port => Sys2Proof.Machine.execAdmissionQuery port s
  | .admissionAnswer port => Sys2Proof.Machine.execAdmissionAnswer port s
  | .barge port => Sys2Proof.Machine.execBarge port s
  | .unroutable port => Sys2Proof.Machine.execUnroutable port s
  | .messageForward port channel => Sys2Proof.Machine.execMessageForward port channel s
  | .neighbourAdvertisementSend => Sys2Proof.Machine.execNeighbourAdvertisementSend s
  | .neighbourAdvertisementReceive port advert => Sys2Proof.Machine.execNeighbourAdvertisementReceive port advert s
  | .mapEntryExpire origin => Sys2Proof.Machine.execMapEntryExpire origin s
  | .timeExchangeTick => Sys2Proof.Machine.execTimeExchangeTick s
  | .timeRequestReceive port t1 => Sys2Proof.Machine.execTimeRequestReceive port t1 s
  | .timeReplyReceive t1 t2 t3 => Sys2Proof.Machine.execTimeReplyReceive t1 t2 t3 s
  | .ppsEdge => Sys2Proof.Machine.execPpsEdge s
  | .lendTick wait => Sys2Proof.Machine.execLendTick wait s
  | .slack node tick wait cap => Sys2Proof.Machine.execSlack node tick wait cap s
  | .takeTimeout => Sys2Proof.Machine.execTakeTimeout s
  | .take tick => Sys2Proof.Machine.execTake tick s
  | .taken node tick => Sys2Proof.Machine.execTaken node tick s
  | .give tick watts => Sys2Proof.Machine.execGive tick watts s
  | .renew tick net => Sys2Proof.Machine.execRenew tick net s
  | .renewTimeout => Sys2Proof.Machine.execRenewTimeout s
  | .lendReceivedLapse => Sys2Proof.Machine.execLendReceivedLapse s
  | .lendReturn => Sys2Proof.Machine.execLendReturn s
  | .capLoopStep compute stack io module => Sys2Proof.Machine.execCapLoopStep compute stack io module s
  | .stackRowStep avg tenMs stayedLow => Sys2Proof.Machine.execStackRowStep avg tenMs stayedLow s
  | .currentLimitStep avg sample released => Sys2Proof.Machine.execCurrentLimitStep avg sample released s
  | .droopTrip island mv => Sys2Proof.Machine.execDroopTrip island mv s
  | .droopRelease die => Sys2Proof.Machine.execDroopRelease die s
  | .thermalLimitStep readings => Sys2Proof.Machine.execThermalLimitStep readings s
  | .thermalTrip stackSensor temp => Sys2Proof.Machine.execThermalTrip stackSensor temp s
  | .thermalTripRelease dieTemp stackTemp => Sys2Proof.Machine.execThermalTripRelease dieTemp stackTemp s
  | .capAlertAssert => Sys2Proof.Machine.execCapAlertAssert s
  | .capAlertRelease => Sys2Proof.Machine.execCapAlertRelease s
  | .wake bell => Sys2Proof.Machine.execWake bell s
  | .wakePowerDone => Sys2Proof.Machine.execWakePowerDone s
  | .wakeMemoryDone => Sys2Proof.Machine.execWakeMemoryDone s
  | .wakePortsDone lost => Sys2Proof.Machine.execWakePortsDone lost s
  | .wakeResumeDone => Sys2Proof.Machine.execWakeResumeDone s
  | .irqHoldoffExpire fn => Sys2Proof.Machine.execIrqHoldoffExpire fn s
  | .irqUnmask fn => Sys2Proof.Machine.execIrqUnmask fn s
  | .irqLeafClear fn group leaf value => Sys2Proof.Machine.execIrqLeafClear fn group leaf value s
  | .irqEoi fn => Sys2Proof.Machine.execIrqEoi fn s
  | .kvPoolHiWrite fn part value => Sys2Proof.Machine.execKvPoolHiWrite fn part value s
  | .kvPoolRelease fn part value => Sys2Proof.Machine.execKvPoolRelease fn part value s
  | .farPartWrite fn offset value => Sys2Proof.Machine.execFarPartWrite fn offset value s
  | .powerCfgWrite fn offset value => Sys2Proof.Machine.execPowerCfgWrite fn offset value s
  | .serveCostWrite fn offset value => Sys2Proof.Machine.execServeCostWrite fn offset value s
  | .bar2BaseWrite fn offset value => Sys2Proof.Machine.execBar2BaseWrite fn offset value s
  | .registerWrite fn offset value => Sys2Proof.Machine.execRegisterWrite fn offset value s
  | .bar2Read fn offset length => Sys2Proof.Machine.execBar2Read fn offset length s
  | .bar2Write fn offset data => Sys2Proof.Machine.execBar2Write fn offset data s
  | .timeNowRead fn => Sys2Proof.Machine.execTimeNowRead fn s
  | .ppsLastRead fn => Sys2Proof.Machine.execPpsLastRead fn s
  | .energyRead fn => Sys2Proof.Machine.execEnergyRead fn s
  | .throttleRead fn reason => Sys2Proof.Machine.execThrottleRead fn reason s
  | .tileBeatsRead fn tile => Sys2Proof.Machine.execTileBeatsRead fn tile s
  | .bootLogRead fn phase => Sys2Proof.Machine.execBootLogRead fn phase s
  | .stackCorrCountRead fn stack => Sys2Proof.Machine.execStackCorrCountRead fn stack s
  | .stackUncorrCountRead fn stack => Sys2Proof.Machine.execStackUncorrCountRead fn stack s
  | .stackRunsRead fn stack => Sys2Proof.Machine.execStackRunsRead fn stack s
  | .stackLockWaitMaxRead fn stack => Sys2Proof.Machine.execStackLockWaitMaxRead fn stack s
  | .farPoisonCountRead fn => Sys2Proof.Machine.execFarPoisonCountRead fn s
  | .fyantCrcRetryRead fn port => Sys2Proof.Machine.execFyantCrcRetryRead fn port s
  | .fyantFecCorrRead fn port => Sys2Proof.Machine.execFyantFecCorrRead fn port s
  | .fyantRetrainsRead fn port => Sys2Proof.Machine.execFyantRetrainsRead fn port s
  | .fyantTagFailRead fn port => Sys2Proof.Machine.execFyantTagFailRead fn port s
  | .serveFlagFallsRead fn => Sys2Proof.Machine.execServeFlagFallsRead fn s
  | .serveDeferralsRead fn => Sys2Proof.Machine.execServeDeferralsRead fn s
  | .kvWalkSkipsRead fn part => Sys2Proof.Machine.execKvWalkSkipsRead fn part s
  | .kvCowRead fn part => Sys2Proof.Machine.execKvCowRead fn part s
  | .faultRetriesRead fn => Sys2Proof.Machine.execFaultRetriesRead fn s
  | .faultRepairsRead fn => Sys2Proof.Machine.execFaultRepairsRead fn s
  | .faultRepairFailsRead fn => Sys2Proof.Machine.execFaultRepairFailsRead fn s
  | .faultPlausibilityRead fn => Sys2Proof.Machine.execFaultPlausibilityRead fn s
  | .sluiceFailRead fn part => Sys2Proof.Machine.execSluiceFailRead fn part s
  | .getVersion fn => Sys2Proof.Machine.execGetVersion fn s
  | .getCapabilities fn => Sys2Proof.Machine.execGetCapabilities fn s
  | .negotiateAlgorithms fn => Sys2Proof.Machine.execNegotiateAlgorithms fn s
  | .getDigests fn => Sys2Proof.Machine.execGetDigests fn s
  | .getCertificate fn slot => Sys2Proof.Machine.execGetCertificate fn slot s
  | .challenge fn slot nonce => Sys2Proof.Machine.execChallenge fn slot nonce s
  | .getMeasurements fn index => Sys2Proof.Machine.execGetMeasurements fn index s
  | .keyExchange fn peerKey => Sys2Proof.Machine.execKeyExchange fn peerKey s
  | .finish fn verify => Sys2Proof.Machine.execFinish fn verify s
  | .keyUpdate fn => Sys2Proof.Machine.execKeyUpdate fn s
  | .heartbeat fn => Sys2Proof.Machine.execHeartbeat fn s
  | .heartbeatLapse fn => Sys2Proof.Machine.execHeartbeatLapse fn s
  | .endSession fn => Sys2Proof.Machine.execEndSession fn s
  | .sluiceBind fn address frames => Sys2Proof.Machine.execSluiceBind fn address frames s
  | .vsb18Apply => Sys2Proof.Machine.execVsb18Apply s
  | .bootStandbyDone => Sys2Proof.Machine.execBootStandbyDone s
  | .bootFlashDone => Sys2Proof.Machine.execBootFlashDone s
  | .vinPgRise => Sys2Proof.Machine.execVinPgRise s
  | .vinPgTimeout => Sys2Proof.Machine.execVinPgTimeout s
  | .bootPowerDone => Sys2Proof.Machine.execBootPowerDone s
  | .bootStacksDone failedPins => Sys2Proof.Machine.execBootStacksDone failedPins s
  | .bootLinksDone correction far0 far1 => Sys2Proof.Machine.execBootLinksDone correction far0 far1 s
  | .bootScrubDone laps => Sys2Proof.Machine.execBootScrubDone laps s
  | .modRstN held => Sys2Proof.Machine.execModRstN held s
  | .vinPgFall => Sys2Proof.Machine.execVinPgFall s
  | .perstN => Sys2Proof.Machine.execPerstN s
  | .functionLevelReset fn => Sys2Proof.Machine.execFunctionLevelReset fn s
  | .smbStatus => Sys2Proof.Machine.execSmbStatus s
  | .smbPower => Sys2Proof.Machine.execSmbPower s
  | .smbCap => Sys2Proof.Machine.execSmbCap s
  | .smbVinCurrent => Sys2Proof.Machine.execSmbVinCurrent s
  | .smbDieTemp => Sys2Proof.Machine.execSmbDieTemp s
  | .smbStackTemp => Sys2Proof.Machine.execSmbStackTemp s
  | .smbEnergy => Sys2Proof.Machine.execSmbEnergy s
  | .smbThrottle => Sys2Proof.Machine.execSmbThrottle s
  | .smbSerial => Sys2Proof.Machine.execSmbSerial s
  | .smbFaults => Sys2Proof.Machine.execSmbFaults s
  | .smbFlashAddr address => Sys2Proof.Machine.execSmbFlashAddr address s
  | .smbFlashData data => Sys2Proof.Machine.execSmbFlashData data s
  | .smbFlashErase sectors => Sys2Proof.Machine.execSmbFlashErase sectors s
  | .smbFlashRead count => Sys2Proof.Machine.execSmbFlashRead count s
  | .smbFlashStatus => Sys2Proof.Machine.execSmbFlashStatus s
  | .flashOperationDone => Sys2Proof.Machine.execFlashOperationDone s
  | .monCharacterReceive ch => Sys2Proof.Machine.execMonCharacterReceive ch s
  | .monPeek => Sys2Proof.Machine.execMonPeek s
  | .monPoke => Sys2Proof.Machine.execMonPoke s
  | .monDump => Sys2Proof.Machine.execMonDump s
  | .monTgen => Sys2Proof.Machine.execMonTgen s
  | .monLap => Sys2Proof.Machine.execMonLap s
  | .monLink => Sys2Proof.Machine.execMonLink s
  | .monFaults => Sys2Proof.Machine.execMonFaults s
  | .monIsland => Sys2Proof.Machine.execMonIsland s
  | .monBoot => Sys2Proof.Machine.execMonBoot s
  | .monQuit => Sys2Proof.Machine.execMonQuit s
  | .monSessionTimeout => Sys2Proof.Machine.execMonSessionTimeout s
  | .vsb18Remove => Sys2Proof.Machine.execVsb18Remove s
  | .referenceClockEdge => Sys2Proof.Machine.execReferenceClockEdge s
  | .ppsLockLapse => Sys2Proof.Machine.execPpsLockLapse s
  | .modRstNRelease => Sys2Proof.Machine.execModRstNRelease s
  | .perstNRelease => Sys2Proof.Machine.execPerstNRelease s
  | .doeDiscovery fn index => Sys2Proof.Machine.execDoeDiscovery fn index s
  | .queueRingTimeout queue => Sys2Proof.Machine.execQueueRingTimeout queue s

end Sys2Proof.Machine
end

