-- ==== Sys2Proof/Safety.lean ====
section
/-!
DEFINITION. What counts as a safe run: the outcomes and the invariants that claims speak of.
-/

namespace Sys2Proof.Machine

/-- A step answered a next state. -/
def Completes (o : Out) : Prop := ∃ t, o = .next t

/-- `P` holds of the next state whenever a step answers one. -/
def Keeps (P : State → Prop) : Prop := ∀ s t, step s = .next t → P s → P t

/-- Command `id` is `c`, a packet of opcode `op` that has started, in a running module: its row acts on it (R38, R62). -/
def Runs (s : State) (op id : Nat) (c : Cmd) : Prop :=
  running s = true ∧ cmdAt s id = some c ∧ c.opcode = op ∧ c.phase = .started

/-- A check of command `c` in `s` passes with the value `x`, having read the pieces `ps` of control data, which no lock and
no link holds up (R48, R504). -/
def Finds {α : Type} (c : Cmd) (s : State) (chk : Chk α) (x : α) (ps : List (Home × Nat)) : Prop :=
  (ExceptT.run chk).run [] = (.ok x, ps) ∧ c.finds ps s = .go

/-- A check of command `c` in `s` rejects with the status `m`, having read the pieces `ps` of control data likewise. -/
def Rejects {α : Type} (c : Cmd) (s : State) (chk : Chk α) (m : Mark) (ps : List (Home × Nat)) : Prop :=
  (ExceptT.run chk).run [] = (.error (.status m), ps) ∧ c.finds ps s = .go

/-- A failed check ends the command: row `i` of command `c`, judged on `s1` by `chk`, rejects it with the status of the
check that failed, and with no effect of the row (R48). -/
def RejectsWith {α : Type} (s1 s : State) (id : Nat) (c : Cmd) (op : Nat) (chk : Chk α) (i : Instr) : Prop :=
  ∀ m ps, Runs s op id c → Rejects c s1 chk m ps → exec i s = .next (rejectCmd c.id m (touch c ps s1))

/-- No range of these lies on another node, or the command has been admitted to them (R183). -/
def Cmd.Admits (c : Cmd) (s : State) (rs : List (W64 × Nat × Bool)) : Prop := c.remotes s rs = [] ∨ c.admitted = some true

/-- No range of these lies on another node, or the command holds what it reads of them at its stage `k` (R183). -/
def Cmd.Holds (c : Cmd) (s : State) (k : Nat) (rs : List (W64 × Nat)) : Prop :=
  c.remotes s (rs.map fun r => (r.1, r.2, false)) = [] ∨ (c.awaiting = [] ∧ k < c.progress)

/-- The command has been admitted to these ranges, and holds what it reads of them, where they lie on other nodes. -/
def Cmd.Admitted (c : Cmd) (s : State) (rs : List (W64 × Nat × Bool)) : Prop :=
  c.Admits s rs ∧ c.Holds s 1 ((rs.filter fun r => !r.2.2).map fun r => (r.1, r.2.1))

/-- Command `c` reaches the pieces `ps` in `s`, where no lock and no link holds them up, and goes on in `t` (R263, R235). -/
def Cmd.Reaches (c : Cmd) (ps : List (Home × Nat)) (s t : State) : Prop :=
  reachOf s (.command c.id) ps = .go ∧ t = noteWaits (.command c.id) ps s

/-- Command `c` reaches the pieces `ps` in `s` likewise and reads each of them once, as R212 and R395 count and charge
what is read; it goes on in `t`. -/
def Cmd.Reads (c : Cmd) (ps : List (Home × Nat)) (s t : State) : Prop :=
  reachOf s (.command c.id) ps = .go ∧ t = (readCharged false (some c.id) ps (noteWaits (.command c.id) ps s)).2

/-- Command `c` reaches the pieces `ps` in `s` likewise and scans them: corrected words count, and poison marks only what it
stands in (R294, R308). -/
def Cmd.Scans (c : Cmd) (ps : List (Home × Nat)) (s t : State) : Prop :=
  reachOf s (.command c.id) ps = .go ∧
    ∃ r, r = getPieces false ps (noteWaits (.command c.id) ps s) ∧ t = charge (some c.id) { r.1 with poisoned := 0 } r.2

/-- The head of a tile's engine queue is `h`, an instruction of opcode `op` whose next repeat may run: the tile is not
frozen, its die's gate lets MX issue (R76), the instruction is not finished, and no older region stands against it
(R123-R125, R139). -/
def AtHead (s : State) (tile e op : Nat) (h : Entry) : Prop :=
  tile < 512 ∧ running s = true ∧ frozen s tile = false ∧ issues s tile e = true ∧ headOf s tile e = some h ∧
    (Ins.of h.word).op = op ∧ h.finished = false ∧ h.done < (Ins.of h.word).rep ∧ startable (tileAt s tile) e h = true

/-- The message `m`, with `rest` behind it, stands whole at the front of channel `vc` of the present port `p`, for this
module, while the links run (R371, R372). -/
def Arrived (s : State) (p vc : Nat) (m : Msg) (rest : List Byte) : Prop :=
  p < 16 ∧ linksOn s = true ∧ portPresent s p = true ∧ takeMsg ((portAt s p).rxq[vc]?.getD []) = some (m, rest) ∧
    m.dest = ownNode s

/-- The packet `c` read from a ring is ended at once with the status `m`, its start and end the time of the check, and has no
other effect: only the front end's state differs (R48, R52, R55). -/
def TurnedAway (s t : State) (c : Cmd) (m : Mark) : Prop :=
  t = { s with front := t.front } ∧ ∃ k, t.front.cmds = s.front.cmds ++ [{ c with
    phase := .ended, rejected := true, marks := [m], start := now s, stop := now s, kept := k }]

/-- Nothing that a function has issued waits to take effect (R188, R190, R196). -/
def Prompt (fn : Nat) (s : State) : Prop := hostWaitsOf fn s = 0 ∧ s.front.posts[fn]?.getD [] = []

/-- What no row of the power family changes: memories, tiles, partitions, jobs, serving, weights, the fault log, security,
flash, start-up and device time. Its own unit, pins, causes, islands, rows, command and messages may change. -/
structure PowerOnly (s t : State) : Prop where
  store : t.store = s.store
  tiles : t.tiles = s.tiles
  parts : t.parts = s.parts
  jobs : t.jobs = s.jobs
  serve : t.serve = s.serve
  weights : t.weights = s.weights
  faults : t.faults = s.faults
  security : t.security = s.security
  flash : t.flash = s.flash
  boot : t.boot = s.boot
  time : t.time = s.time

/-- A host read that returned `v` and left `t` (log 5). -/
def answered (v : W32) (t : State) : Out := .next { t with front := { t.front with readData := v } }

/-- Every addressed store is canonical: addresses strictly rising, and no entry equal to what an unlisted address reads
as (a zero byte, an all-zero codeword's mark, key pair 0). -/
def Store.wf (x : Store) : Bool :=
  Memory.wf x.stack && Memory.wf x.tile && tabWf 0 x.stackMark && tabWf 0 x.tileMark && Memory.wf x.host &&
    Memory.wf x.far && tabWf 0 x.farLine

/-- The machine's memories, its flash and its microcode store are in their canonical form, so that equal contents are
equal data. -/
def Canonical (s : State) : Prop :=
  s.store.wf = true ∧ Memory.wf s.flash.bytes = true ∧ Memory.wf s.microcode = true

end Sys2Proof.Machine
end

