-- ==== Sys2Proof/Certificates/Slice0/Obligations.lean ====
section
/-!
DEFINITION. The statements. Most are equations: under conditions on the state and the operands, exec answers the next state
that is written out, so that each says at once that the command completes, what it changes, and (by what is not written) what
it leaves as it was. The names of Safety (`Runs`, `Finds`, `Admitted`, `Reaches`, `Reads`, `AtHead`,
`Arrived`) are the conditions under which a row acts.
-/

open Sys2Proof Sys2Proof.Machine

/-- A step takes the command at the front of the queue and is that command's exec on the queue's rest; with no command
waiting the block idles (the model's choice, log 10). -/
def Obligations.StepTakesTheFrontCommand : Prop :=
  (∀ (c : Instr) (rest : List Instr) (s : State), s.pending = c :: rest → step s = exec c { s with pending := rest }) ∧
  ∀ s : State, s.pending = [] → step s = .next s

/-- R33, R78, R465, R467, R489: what VSB18's rise leaves, by the reset values of the spec: device time 0, phase 0 and
not READY, the admin queue's registers 0, no command in flight, the causes 0 and their enables 1 in every defined bit,
the power limits and the counts of energy and throttling. -/
def Obligations.ResetLeavesTheMachine : Prop :=
  State.reset.pending = [] ∧ State.reset.time.now = 0 ∧ State.reset.boot.phase = 0 ∧ State.reset.boot.ready = false ∧
    State.reset.boot.error = 0 ∧ State.reset.boot.bootTime = 0 ∧ State.reset.boot.bootLap = 0 ∧
    State.reset.front.cmds = [] ∧ (∀ q, 1 ≤ q → tabHas State.reset.front.queues q = false) ∧
    State.reset.front.admin = ⟨0, 0, 0, 0, 0, 0, 0, false, false⟩ ∧ (queueAt State.reset 0).active = false ∧
    (∀ k < 8, State.reset.irq.queue[k]? = some ⟨0, 0xFFFFFFFF⟩) ∧ State.reset.irq.queue[8]? = some ⟨0, 7⟩ ∧
    State.reset.irq.fault = ⟨0, 7⟩ ∧ State.reset.irq.serve = ⟨0, 1⟩ ∧ State.reset.irq.power = ⟨0, 15⟩ ∧
    State.reset.irq.fabric = ⟨0, 7⟩ ∧ State.reset.irq.memory = ⟨0, 15⟩ ∧ State.reset.irq.security = ⟨0, 7⟩ ∧
    State.reset.irq.monitor = ⟨0, 3⟩ ∧
    State.reset.pmu.setCap = 1900 ∧ State.reset.pmu.capSet = 1900 ∧ State.reset.pmu.extDuty = 16 ∧
    State.reset.pmu.extWatts = 900 ∧ State.reset.pmu.vset = 720 ∧ State.reset.pmu.vfloor = 600 ∧
    State.reset.pmu.energy = 0 ∧ State.reset.pmu.throttle = #v[0, 0, 0, 0, 0, 0] ∧ running State.reset = false

/-- At reset every memory, the flash and the microcode store is in its canonical form. -/
def Obligations.ResetIsCanonical : Prop :=
  Canonical State.reset

/-- From every state whose memories, flash and microcode store are canonical, every step that answers a next state leaves
them so. -/
def Obligations.MemoriesStayCanonical : Prop :=
  Keeps Canonical

/-- Commands are taken first in, first out: a step takes exactly one command off the front of the queue and puts none
on it; and no command changes a fuse (R477). -/
def Obligations.StepsTakeOneCommand : Prop :=
  ∀ s t : State, step s = .next t → t.pending = s.pending.tail ∧ t.fuse = s.fuse

/-- Every command whose operands lie in their ranges completes in every state; no command is ever refused, and only
one that names a unit beyond the architecture's numbering can fault (`noSuchUnit` is the model's choice, log 11; that a row
whose conditions do not hold completes and leaves the state as it was is too, log 12). -/
def Obligations.WellFormedCommandsComplete : Prop :=
  ∀ (i : Instr) (s : State),
    (i.wf = true → Completes (exec i s)) ∧ (∀ f, exec i s = .fault f → f = .noSuchUnit ∧ i.wf = false) ∧
    ∀ r, exec i s ≠ .refused r

/-- R48, R52, R55, R292: a command whose check fails ends rejected with the status of that check and none of its effects;
the start and end time are both the time of the failing check, and no other command and nothing else of the machine
changes. That the check of a row is made at that row, so that its time is the failing check's, is the model's choice (log
13). A command of R292 is judged once the steps before it are over. JOB-CLOSE and FABRIC-FENCE have no check of their own
beyond the header's; the packet's and the header's checks are those of `PacketsBecomeCommands`. -/
def Obligations.FailedChecksReject : Prop :=
  ∀ (s s1 : State) (id : Nat) (c : Cmd), s1 = resumeCmd c.id s →
    (RejectsWith s s id c 0x0101 (queueCreateChk s c) (.queueCreate id) ∧
    RejectsWith s s id c 0x0102 (queueDeleteChk s c) (.queueDelete id) ∧
    RejectsWith s s id c 0x0105 (jobOpenChk s c) (.jobOpen id) ∧
    (c.at 32 8 ≠ 0 → RejectsWith s s id c 0x0201 (memCopyChk s c) (.memCopy id)) ∧
    RejectsWith s s id c 0x0203 (layoutChk s c) (.copyTensor id) ∧
    RejectsWith s s id c 0x0204 (scrubRangeChk s c) (.scrubRange id) ∧
    RejectsWith s s id c 0x0205 (kvBoundaryChk s c) (.setKvBoundary id) ∧
    RejectsWith s s id c 0x0206 (checkbitChk s c) (.checkbitWrite id) ∧
    RejectsWith s s id c 0x0301 (loadChk s c) (.loadProgram id) ∧
    RejectsWith s s id c 0x0303 (unloadChk s c) (.unloadProgram id) ∧
    RejectsWith s s id c 0x0304 (formatSlotChk c) (.setFormatSlot id) ∧
    RejectsWith s s id c 0x0401 (customerChk s c) (.customerSet id) ∧
    RejectsWith s s id c 0x0402 (openChk s c) (.requestOpen id) ∧
    RejectsWith s s id c 0x0404 (chunkChk s c) (.submitChunk id) ∧
    RejectsWith s s id c 0x0405 (planChk s c) (.stepPlan id) ∧
    (c.at 24 4 ≠ 0 → RejectsWith s s id c 0x040C (insertChk s c) (.prefixInsert id)) ∧
    (c.at 24 4 = 0 → RejectsWith s s id c 0x040C (namedChk s c 16) (.prefixInsert id)) ∧
    RejectsWith s s id c 0x040D (setChk s c) (.loadPrefixSet id) ∧
    (c.at 24 8 ≠ 0 → RejectsWith s s id c 0x0501 (registerChk s c) (.registerWeights id)) ∧
    RejectsWith s s id c 0x0502 (weightChk s c) (.unregisterWeights id) ∧
    RejectsWith s s id c 0x0503 (verifyChk s c) (.verifyWeights id) ∧
    RejectsWith s s id c 0x0602 (setNodeChk s c) (.setNodeId id) ∧
    RejectsWith s s id c 0x0603 (routeChk s c) (.routeWrite id) ∧
    RejectsWith s s id c 0x0604 (linkStateChk s c) (.linkState id) ∧
    RejectsWith s s id c 0x0701 (setCapChk c) (.setCap id) ∧
    RejectsWith s s id c 0x0702 (setProfileChk s c) (.setProfile id) ∧
    (c.at 20 2 ≠ 0 → RejectsWith s s id c 0x0703 (lendChk s c) (.lendPool id)) ∧
    RejectsWith s s id c 0x0705 (powerReadChk s c) (.powerRead id) ∧
    (c.at 24 4 ≠ 0 → RejectsWith s s id c 0x0801 (attestChk s c) (.attestReport id)) ∧
    RejectsWith s s id c 0x0901 (identChk s c) (.identRead id) ∧
    (c.at 24 2 ≠ 0 → RejectsWith s s id c 0x0903 (responseChk s c) (.faultResponseLoad id)) ∧
    RejectsWith s s id c 0x0904 (guardChk s c) (.guardBandLoad id) ∧
    RejectsWith s s id c 0x0905 (trafficChk s c) (.trafficGen id) ∧
    RejectsWith s s id c 0x0906 (scrubLapChk s c) (.scrubLap id) ∧
    (c.at 24 8 ≠ 0 → RejectsWith s s id c 0x0202 (c.checkRanges s [(16, c.addr 16, c.at 24 8)]) (.memFill id)) ∧
    (c.at 24 4 ≠ 0 → RejectsWith s s id c 0x0601 (c.checkRanges s [(16, c.addr 16, c.at 24 4)]) (.neighbourRead id)) ∧
    (c.at 24 4 ≠ 0 → RejectsWith s s id c 0x0902 (c.checkRanges s [(16, c.addr 16, c.at 24 4)]) (.faultLog id)) ∧
    RejectsWith s s id c 0x0107 (need (500 ≤ c.at 16 4 && c.at 16 4 ≤ 100000) (c.bad 16)) (.jobSlice id) ∧
    (opening s = false → RejectsWith s1 s id c 0x0704 (need (!anyJob s && !anySwitch s) .busy) (.sleep id)) ∧
    RejectsWith s s id c 0x0802 (need (c.at 16 1 < 4) (c.bad 16)) (.scrubStatus id) ∧
    (c.progress ≠ 1 → RejectsWith s s id c 0x0605 (linkRekeyChk s c) (.linkRekey id)) ∧
    (c.tiles = [] → RejectsWith s s id c 0x0302 (launchChk s c) (.launch id)) ∧
    (c.tiles = [] → runOf s c.id = none → RejectsWith s s id c 0x0406 (stepRunChk s c) (.stepRun id))) ∧
    (s.parts.any (fun x => x.2.switchCmd = some c.id) = false →
      RejectsWith s s id c 0x0103 (openPartChk s c) (.partitionOpen id) ∧
      RejectsWith s s id c 0x0104 (closePartChk s c) (.partitionClose id)) ∧
    (stepRunHolds s c c.names = false →
      RejectsWith s1 s id c 0x0407 (forkChk s1 c) (.forkSequence id) ∧
      (c.at 32 4 ≠ 0 → RejectsWith s1 s id c 0x0408 (editChk s1 c) (.editPages id)) ∧
      RejectsWith s1 s id c 0x0409 (requestChk s1 c 16) (.evict id) ∧
      RejectsWith s1 s id c 0x040A (requestChk s1 c 16) (.compact id) ∧
      (c.at 32 4 ≠ 0 → RejectsWith s1 s id c 0x040B (lookupChk s1 c) (.prefixLookup id)) ∧
      (c.at 24 4 ≠ 0 → RejectsWith s1 s id c 0x040E (requestChk s1 c 16) (.promote id) ∧
        RejectsWith s1 s id c 0x040F (requestChk s1 c 16) (.demote id)) ∧
      (c.at 32 4 = 0 → RejectsWith s1 s id c 0x0408 (namedChk s1 c 16) (.editPages id) ∧
        RejectsWith s1 s id c 0x040B (namedChk s1 c 16) (.prefixLookup id)) ∧
      (c.at 24 4 = 0 → RejectsWith s1 s id c 0x040E (namedChk s1 c 16) (.promote id) ∧
        RejectsWith s1 s id c 0x040F (namedChk s1 c 16) (.demote id)) ∧
      (c.progress < 2 → RejectsWith s1 s id c 0x0410 (shipChk s1 c) (.shipKv id)) ∧
      RejectsWith s1 s id c 0x0411 (adoptChk s1 c) (.adoptPages id)) ∧
    (stepRunHolds s c [c.at 16 4] = false → RejectsWith s1 s id c 0x0403 (closeChk s1 c) (.requestClose id)) ∧
    (∀ m t x, cmdAt t c.id = some x →
      cmdAt (rejectCmd c.id m t) c.id =
        some { x with phase := .ended, rejected := true, start := now t, stop := now t, marks := [m] } ∧
      (∀ j, j ≠ c.id → cmdAt (rejectCmd c.id m t) j = cmdAt t j) ∧
      rejectCmd c.id m t = { t with front := { t.front with cmds := (rejectCmd c.id m t).front.cmds } })

/-- R208, R211, R213, R218: a write to a coded memory leaves every word that it does not touch as it was, data and
check bits; whole words written clean read back as written; a part of a word written over a poisoned one leaves it
poisoned. -/
def Obligations.CodedWritesReadBack : Prop :=
  ∀ (t : Nat) (m : Memory) (marks : Tab (BitVec 16)) (a : Nat) (bs : List PByte), tabWf 0 marks = true →
    (∀ x, x / 8 < a / 8 ∨ (a + bs.length + 7) / 8 ≤ x / 8 →
      memGet (putCoded m marks a bs).1 x = memGet m x ∧
      tabGet 0 (putCoded m marks a bs).2 (x / 8) = tabGet 0 marks (x / 8)) ∧
    (a % 8 = 0 → bs.length % 8 = 0 → bs.all (fun b => !b.2) = true →
      codedBytes t (putCoded m marks a bs).1 (putCoded m marks a bs).2 a bs.length = bs) ∧
    (bs ≠ [] → bs.length < 8 → a % 8 + bs.length ≤ 8 → (decodeMark (tabGet 0 marks (a / 8))).poison = true →
      (wordByte t (putCoded m marks a bs).1 (putCoded m marks a bs).2 a).2 = true)

/-- R198, R211, R233, R234: bytes that the module writes to host memory, a tile's memory, whole words of an unharmed stack
with no narrow writes waiting, or a far line that is not poisoned (any, when the write is whole) read back as they were
written, the far line under the same key pair; every other byte of host memory and every other far line is as before. -/
def Obligations.WritesReadBack : Prop :=
  ∀ (s : State) (bs : List Byte), s.store.wf = true → bs ≠ [] →
    (∀ a, memRead (putHost a (clean bs) s).store.host a bs.length = bs ∧
      ∀ x, x < a ∨ a + bs.length ≤ x → memGet (putHost a (clean bs) s).store.host x = memGet s.store.host x) ∧
    (∀ k, k % 8 = 0 → bs.length % 8 = 0 →
      (getTile false k bs.length (putTile k (clean bs) s)).data = clean bs ∧
      (putTile k (clean bs) s).store.stack = s.store.stack ∧ (putTile k (clean bs) s).store.host = s.store.host) ∧
    (∀ k, k % 8 = 0 → bs.length % 8 = 0 → (stackAt s (keyStack k)).degraded = false →
      keyStack (k + bs.length) = keyStack k → (stackAt s (keyStack k)).merges = [] →
      (getStack false k bs.length (putStack k (clean bs) s)).1.data = clean bs ∧
      (putStack k (clean bs) s).store.tile = s.store.tile ∧ (putStack k (clean bs) s).store.host = s.store.host) ∧
    (∀ m key t, m % 64 + bs.length ≤ 64 → s.store.farPoison.contains (m / 64) = false ∨ bs.length = 64 →
      t = putFar m key (clean bs) s →
      (getFar m key bs.length t).1.data = clean bs ∧ t.store.stack = s.store.stack ∧ t.store.host = s.store.host ∧
      ∀ l, l ≠ m / 64 → memRead t.store.far (64 * l) 64 = memRead s.store.far (64 * l) 64 ∧
        tabGet 0 t.store.farLine l = tabGet 0 s.store.farLine l ∧
        t.store.farPoison.contains l = s.store.farPoison.contains l)

/-- R28, R30, R31: a doorbell write of a function that owns the queue moves the submission tail (after the host's own
stores) or the reply head to the value written, and changes nothing else. R196: behind earlier accesses of the
function that wait for a lock it waits with them. -/
def Obligations.DoorbellsMoveTheQueue : Prop :=
  ∀ (s : State) (fn queue v : Nat), fn < 5 → queue < 256 → hostUp s = true → s.boot.ready = true →
    s.pmu.sleep = .awake → ownsQueue s fn queue = true → bellsLive s queue = true → v < (queueAt s queue).size →
    (Prompt fn s → (∀ stores, exec (.sqTailWrite fn queue v stores) s =
        .next (setQueue (hostStores stores s) queue { queueAt s queue with sqTail := v })) ∧
      exec (.replyHeadWrite fn queue v) s = .next (setQueue s queue { queueAt s queue with replyHead := v })) ∧
    (hostWaitsOf fn s ≠ 0 → exec (.replyHeadWrite fn queue v) s =
      .next (setPosts fn (s.front.posts[fn]?.getD [] ++ [.bell ⟨queue, true, v⟩]) s))

/-- R32: a doorbell value not below the queue's entry count leaves every queue as it was and sets DOORBELL_RANGE. -/
def Obligations.DoorbellRangeIsIgnored : Prop :=
  ∀ (s : State) (fn queue v : Nat) (stores : List (Nat × Byte)), fn < 5 → queue < 256 → hostUp s = true →
    s.boot.ready = true → s.pmu.sleep = .awake → ownsQueue s fn queue = true → bellsLive s queue = true →
    Prompt fn s → (queueAt s queue).size ≤ v →
    (∃ t, exec (.sqTailWrite fn queue v stores) s = .next t ∧ t.front = s.front ∧
      (t.irq.queue[8]).cause.getLsbD 0 = true) ∧
    ∃ t, exec (.replyHeadWrite fn queue v) s = .next t ∧ t.front = s.front ∧ (t.irq.queue[8]).cause.getLsbD 0 = true

/-- R28, R35, R48: the packet at the submission head of the queue whose turn it is leaves the ring: the head moves on
one slot, and the packet is judged from its 64 bytes. R41, R42, R48 to R51: a version other than 1, another queue or
partition, a stale sequence number, an opcode not listed or not permitted on the queue, and a parameter length other than
the opcode's turn it away, in this order; a new number is accepted, one in the window is a duplicate. R36, R37, R43, R48,
R99, R345, R405: a taken command whose turn it is starts, with its start time, for LAUNCH and STEP-RUN the format slots and
guard bands as they stand then, and nothing else changed; a header that step 7 rejects ends it instead, with the status of
the check. -/
def Obligations.PacketsBecomeCommands : Prop :=
  ((∀ (s : State) (n : Nat) (ps : List (Home × Nat)), running s = true → s.boot.draining = false → pickQueue s = some n →
    ringPieces s (queueAt s n) (plus (queueAt s n).sqBase (64 * (queueAt s n).sqHead)) 64 = some ps →
    reachOf s (.rings n) ps = .go → ∀ g, g = getPieces false ps (noteWaits (.rings n) ps s) → g.1.poisoned = 0 →
    exec (.packetTake true) s = .next (judgePacket n g.1.bytes (charge none g.1 g.2))) ∧
  (∀ (s : State) (n : Nat) (bs : List Byte),
    (queueAt (judgePacket n bs s) n).sqHead = ((queueAt s n).sqHead + 1) % (queueAt s n).size) ∧
  (∀ (s : State) (n : Nat) (bs : List Byte), field bs 3 1 = 1 → field bs 8 2 = n → field bs 10 1 = (queueAt s n).part →
    (queueAt s n).judge (BitVec.ofNat 32 (field bs 4 4)) = .accept →
    ∃ c, (judgePacket n bs s).front.cmds = s.front.cmds ++ [c] ∧ c.seq = BitVec.ofNat 32 (field bs 4 4) ∧
      c.opcode = field bs 0 2 ∧ c.queue = n ∧ (c.rejected = false → c.phase = .taken)) ∧
  (∀ (s : State) (n : Nat) (bs : List Byte), field bs 3 1 = 1 → field bs 8 2 = n → field bs 10 1 = (queueAt s n).part →
    (queueAt s n).judge (BitVec.ofNat 32 (field bs 4 4)) = .duplicate →
    (judgePacket n bs s).front.cmds = s.front.cmds ∧
      (queueAt (judgePacket n bs s) n).dups.length = (queueAt s n).dups.length + 1) ∧
  (∀ (s t : State) (n : Nat) (bs : List Byte) (c : Cmd), c = parsePacket s.front.nextCmd n bs → t = judgePacket n bs s →
    (field bs 3 1 ≠ 1 → TurnedAway s t c (.badParam 3)) ∧
    (field bs 3 1 = 1 →
      (field bs 8 2 ≠ n ∨ field bs 10 1 ≠ (queueAt s n).part → TurnedAway s t c ⟨0x14, 2, 0⟩) ∧
      (field bs 8 2 = n → field bs 10 1 = (queueAt s n).part →
        ((queueAt s n).judge c.seq = .stale → TurnedAway s t c ⟨0x13, 0, 0⟩) ∧
        ((queueAt s n).judge c.seq = .accept →
          (opRow (field bs 0 2) = none → TurnedAway s t c ⟨0x10, 0, 0⟩) ∧
          ∀ r, opRow (field bs 0 2) = some r →
            (r.q0 = true → n ≠ 0 → TurnedAway s t c ⟨0x14, 5, 0⟩) ∧
            (r.q0 = false ∨ n = 0 →
              (bit (field bs 2 1) 4 = false → field bs 11 1 ≠ r.units → TurnedAway s t c ⟨0x12, r.units, 0⟩) ∧
              (bit (field bs 2 1) 4 = true → field bs 11 1 < max 1 r.units →
                TurnedAway s t c ⟨0x12, max 1 r.units, 0⟩)))))) ∧
  (∀ (q : Queue) (n x : W32), (q.newest = none → q.judge x = .accept) ∧ (q.newest = some n →
    (1 ≤ (x - n).toNat → (x - n).toNat ≤ 2 ^ 31 - 1 → q.judge x = .accept) ∧
    ((n - x).toNat ≤ 4095 → q.window.any (·.1 == x) = true → q.judge x = .duplicate) ∧
    ((n - x).toNat ≤ 4095 → q.window.any (·.1 == x) = false → q.judge x = .accept) ∧
    (4096 ≤ (n - x).toNat → 2 ^ 31 ≤ (x - n).toNat → q.judge x = .stale)))) ∧
  (∀ (s : State) (id : Nat) (c : Cmd), running s = true → cmdAt s id = some c → c.phase = .taken →
    turnToStart s c = true →
    (∀ m, headFault s c = some m → exec (.commandStart id) s = .next (rejectCmd c.id m s)) ∧
    (headFault s c = none → (c.job = 0 ∨ jobRuns s c.job = true) → (c.ext = false ∨ c.blockRead = true) →
      c.homeless = true → exec (.commandStart id) s = .next (rejectCmd c.id (.badParam 12) s)) ∧
    (headFault s c = none → (c.job = 0 ∨ jobRuns s c.job = true) → (c.ext = false ∨ c.blockRead = true) →
      c.homeless = false → (opRow c.opcode).bind (·.stray c.params) = none → unitHeld s c = false →
      ∀ u, u = { s with front := { s.front with
          started := s.front.started + 1
          cmds := updWhere (·.id == c.id) (fun x => { x with
            phase := .started, start := now s, order := s.front.started + 1, waited := 0, waitSince := none })
            s.front.cmds } } →
        (c.opcode ≠ 0x0302 → c.opcode ≠ 0x0406 → exec (.commandStart id) s = .next u) ∧
        (c.opcode = 0x0302 ∨ c.opcode = 0x0406 → exec (.commandStart id) s = .next (takeSlots c u))) ∧
    (headFault s c = none → (c.job = 0 ∨ jobRuns s c.job = true) → (c.ext = false ∨ c.blockRead = true) →
      c.homeless = false →
      (∀ off, (opRow c.opcode).bind (·.stray c.params) = some off →
        exec (.commandStart id) s = .next (rejectCmd c.id (c.bad off) s)) ∧
      ((opRow c.opcode).bind (·.stray c.params) = none → unitHeld s c = true →
        exec (.commandStart id) s = .next s))) ∧
  (∀ (u : State) (c x : Cmd), cmdAt u c.id = some x → cmdAt (takeSlots c u) c.id = some { x with
    slots := some (x.slots.getD (partAt u c.part).slots), guards := some (x.guards.getD (partAt u c.part).guards) })

/-- R29, R30, R45, R46, R51, R54: a command whose effects are complete leaves the block: its reply is written at the reply
tail, in the layout of the spec, and the tail moves on, then the cause is set where INTERRUPT asks for it, then the shadow
is written; a ring that does not take the reply stops. A DONE without REPLY-ALWAYS writes no reply. A duplicate's reply
follows its original's. R39, R44, R505: a started command whose counted time has reached its queue's timeout ends with
TIMEOUT, but one whose tile program runs is a job fault; a taken one that waits for its extended block ends with
TIMEOUT, result 0; one that waits for a repair of what it read ends as that repair's failure does (R399, R413). A queue
whose ring access was not accepted in time stops and raises RING_ERR. R397: a command whose
re-execution is due runs again from its start, with what it had done forgotten and the class of the fault kept for its
reply. -/
def Obligations.CommandsEnd : Prop :=
  ((∀ (s : State) (id : Nat) (ok : Bool) (c : Cmd) (ps : List (Home × Nat)) (t : State), running s = true →
    cmdAt s id = some c → c.phase = .ended → c.due = none → c.spoil = false → c.opcode ≠ 0x0704 →
    (queueAt s c.queue).dups.any (·.reply.isSome) = false →
    ringPieces s (queueAt s c.queue) (replyAddr (queueAt s c.queue)) 32 = some ps →
    reachOf s (.rings c.queue) ps = .go → t = noteWaits (.rings c.queue) ps s →
    exec (.commandComplete id ok) s = .next (settleResets (retire c ok t))) ∧
  (∀ (s : State) (ok : Bool) (c : Cmd), c.reply.status = 0 → c.flag flagReply = false →
    retire c ok s = putShadow c.queue ok (markDone c.queue c.id
      { keepReply c c.reply (noteOutcome c.id 0 s) with
        front := { (keepReply c c.reply (noteOutcome c.id 0 s)).front with cmds := s.front.cmds.filter (·.id != c.id) } })) ∧
  (∀ (s u s1 : State) (ok : Bool) (c : Cmd) (w : Bool × State), c.reply.status ≠ 0 ∨ c.flag flagReply = true →
    u = keepReply c c.reply (noteOutcome c.id c.reply.status.toNat s) →
    s1 = { u with front := { u.front with cmds := u.front.cmds.filter (·.id != c.id) } } →
    w = putReply c.queue c.reply ok s1 →
    (w.1 = true → retire c ok s = putShadow c.queue ok (markDone c.queue c.id
      (if c.flag flagInterrupt && !replyDropped s1 (queueAt s1 c.queue) then raise (.reply c.queue) w.2 else w.2))) ∧
    (w.1 = false → retire c ok s = stopQueue c.queue w.2)) ∧
  (∀ (s : State) (n : Nat) (r : Reply) (q : Queue), q = queueAt s n → dropping s q = false →
    (∀ a, ringPieces s q (replyAddr q) 32 = some [(.host a, 32)] → ∃ u, putReply n r true s = (true, u) ∧
      (queueAt u n).replyTail = (q.replyTail + 1) % q.size ∧
      memRead u.store.host a 32 = toLe 4 r.seq.toNat ++ toLe 2 r.opcode.toNat ++ toLe 1 r.status.toNat ++
        toLe 1 r.detail.toNat ++ toLe 8 r.start.toNat ++ toLe 8 r.stop.toNat ++ toLe 8 r.result.toNat) ∧
    (∀ a, ringPieces s q q.shadow 16 = some [(.host a, 16)] → memRead (putShadow n true s).store.host a 16 =
      toLe 4 q.sqHead ++ toLe 4 q.replyTail ++ toLe 4 q.retired.toNat ++ zeros 4)) ∧
  (∀ (c : Cmd), c.reply.seq = c.seq ∧ c.reply.opcode = BitVec.ofNat 16 c.opcode ∧ c.reply.start = BitVec.ofNat 64 c.start ∧
    c.reply.stop = BitVec.ofNat 64 c.stop ∧ c.reply.status = BitVec.ofNat 8 (highest c.statuses).status) ∧
  (∀ (s : State) (n : Nat) (ok : Bool) (d : Dup) (r : Reply) (ps : List (Home × Nat)) (t : State), n < 256 →
    running s = true → (queueAt s n).dups.find? (·.reply.isSome) = some d → d.reply = some r →
    ringPieces s (queueAt s n) (replyAddr (queueAt s n)) 32 = some ps → reachOf s (.rings n) ps = .go →
    t = noteWaits (.rings n) ps s →
    ∃ u w, u = setQueue t n { queueAt t n with dups := (queueAt s n).dups.filter (·.pos != d.pos) } ∧
      w = putReply n { r with status := 3, detail := r.status } ok u ∧
      exec (.duplicateReply n ok) s = .next (settleResets (if w.1 then putShadow n ok (markDone n d.pos
        (if d.interrupt && !replyDropped u (queueAt u n) then raise (.reply n) w.2 else w.2)) else stopQueue n w.2)))) ∧
  ((∀ (s : State) (id : Nat) (c : Cmd), running s = true → cmdAt s id = some c → c.phase = .started →
    (queueAt s c.queue).timeout ≤ counted s c →
    exec (.commandTimeout id) s = .next (if c.due.isSome then repairTimeout c s
      else if c.tiles.any fun t => (tileAt s t).running then programTimeout (some c.id) s else timeoutEnd c s)) ∧
  (∀ (s : State) (id : Nat) (c : Cmd) (t : Nat), running s = true → cmdAt s id = some c → c.phase = .taken →
    c.waitSince = some t → t + (queueAt s c.queue).timeout ≤ now s →
    exec (.commandTimeout id) s = .next (rejectCmd c.id (.timeout 0) s)) ∧
  (∀ (s : State) (n : Nat), n < 256 → running s = true → bellsLive s n = true → (queueAt s n).stopped = false →
    exec (.queueRingTimeout n) s = .next (raise .ringErr (setQueue s n { queueAt s n with stopped := true })))) ∧
  (∀ (s : State) (id cls : Nat) (c : Cmd), running s = true → cmdAt s id = some c → c.phase ≠ .taken →
    c.due = some cls → repairPending s id = false →
    exec (.commandRetry id cls) s = .next (retryCmd id cls s) ∧
    ∃ d, cmdAt (retryCmd id cls s) id = some d ∧ d.phase = (if c.ext && !c.blockRead then .taken else .started) ∧
      d.due = none ∧ d.retried = some cls ∧
      d.retriable = false ∧ d.params = c.params ∧ d.marks = [] ∧ d.tiles = [])

/-- R82, R145, R460, R465, R478, R489: a read of the low half of a 64-bit counter returns that half and latches the
high half for the read that follows; nothing else changes. A virtual function reads 0 of the power counters and
latches nothing. R212, R229, R235, R269, R390, R425, R475, R478: the physical function's read of a stack's, port's or far
tier's counter returns the count and clears it, and clears nothing else; a virtual function reads 0 and clears
nothing (R475). R272, R338, R422, R437: the counters of flag falls, deferrals, walk skips, copies, retries, repairs,
plausibility failures and Sluice failures return their count to the physical function and clear; of the pools'
counters a virtual function clears its own partition's, and of the others it reads 0 and clears none. That a virtual
function reads 0 of the counts of flag falls and deferrals is the model's choice (log 30). -/
def Obligations.CountersAreRead : Prop :=
  (∀ (s : State) (fn : Nat), hostUp s = true → s.boot.ready = true → s.pmu.sleep = .awake → fn < 5 →
    exec (.timeNowRead fn) s = answered (BitVec.ofNat 32 (now s % 2 ^ 32))
      { s with time := { s.time with nowHi := BitVec.ofNat 32 (now s / 2 ^ 32) } } ∧
    exec (.ppsLastRead fn) s = answered (BitVec.ofNat 32 (s.time.ppsLast.toNat % 2 ^ 32))
      { s with time := { s.time with ppsLastHi := BitVec.ofNat 32 (s.time.ppsLast.toNat / 2 ^ 32) } } ∧
    exec (.energyRead 0) s = answered (BitVec.ofNat 32 (energyUj s % 2 ^ 32))
      { s with pmu := { s.pmu with energyHi := BitVec.ofNat 32 (energyUj s / 2 ^ 32) } } ∧
    (∀ r < 6, exec (.throttleRead 0 r) s = answered (BitVec.ofNat 32 (throttleUs s r % 2 ^ 32))
      { s with pmu := { s.pmu with
        throttleHi := s.pmu.throttleHi.setIfInBounds r (BitVec.ofNat 32 (throttleUs s r / 2 ^ 32)) } }) ∧
    (∀ t < 512, tileHidden fn t s = false →
      exec (.tileBeatsRead fn t) s = answered (BitVec.ofNat 32 ((tileAt s t).count % 2 ^ 32))
        (setTile s t { tileAt s t with beatsHi := BitVec.ofNat 32 ((tileAt s t).count / 2 ^ 32) })) ∧
    (fn ≠ 0 → exec (.energyRead fn) s = answered 0 s ∧ ∀ r < 6, exec (.throttleRead fn r) s = answered 0 s) ∧
    ∀ k < 7, exec (.bootLogRead fn k) s = answered (BitVec.ofNat 32 ((tabGet 0 s.boot.log k).toNat % 2 ^ 32))
      { s with boot := { s.boot with
        logHi := tabSet 0 s.boot.logHi k (BitVec.ofNat 32 ((tabGet 0 s.boot.log k).toNat / 2 ^ 32)) } }) ∧
  (∀ s : State, hostUp s = true → s.boot.ready = true → s.pmu.sleep = .awake →
    (∀ k < 16,
      exec (.stackCorrCountRead 0 k) s = answered (stackAt s k).corr (setStack s k { stackAt s k with corr := 0 }) ∧
      exec (.stackUncorrCountRead 0 k) s = answered (stackAt s k).uncorr (setStack s k { stackAt s k with uncorr := 0 }) ∧
      (pimStack s k = true → s.security.lockout = false →
        exec (.stackRunsRead 0 k) s = answered (stackAt s k).runs (setStack s k { stackAt s k with runs := 0 }) ∧
        exec (.stackLockWaitMaxRead 0 k) s =
          answered (stackAt s k).lockWait (setStack s k { stackAt s k with lockWait := 0 })) ∧
      (s.security.lockout = true →
        exec (.stackRunsRead 0 k) s = answered 0 s ∧ exec (.stackLockWaitMaxRead 0 k) s = answered 0 s) ∧
      ∀ fn, fn ≠ 0 → fn < 5 →
        exec (.stackCorrCountRead fn k) s = answered 0 s ∧ exec (.stackUncorrCountRead fn k) s = answered 0 s ∧
        exec (.stackRunsRead fn k) s = answered 0 s ∧ exec (.stackLockWaitMaxRead fn k) s = answered 0 s) ∧
    (∀ p < 16, portPresent s p = true →
      exec (.fyantCrcRetryRead 0 p) s = answered (portAt s p).crcRetry (setPort s p { portAt s p with crcRetry := 0 }) ∧
      exec (.fyantFecCorrRead 0 p) s = answered (portAt s p).fecCorr (setPort s p { portAt s p with fecCorr := 0 }) ∧
      exec (.fyantRetrainsRead 0 p) s = answered (portAt s p).retrains (setPort s p { portAt s p with retrains := 0 }) ∧
      exec (.fyantTagFailRead 0 p) s = answered (portAt s p).tagFail (setPort s p { portAt s p with tagFail := 0 }) ∧
      ∀ fn, fn ≠ 0 → fn < 5 →
        exec (.fyantCrcRetryRead fn p) s = answered 0 s ∧ exec (.fyantFecCorrRead fn p) s = answered 0 s ∧
        exec (.fyantRetrainsRead fn p) s = answered 0 s ∧ exec (.fyantTagFailRead fn p) s = answered 0 s) ∧
    exec (.farPoisonCountRead 0) s = answered s.far.poisonCount { s with far := { s.far with poisonCount := 0 } } ∧
    ∀ fn, fn ≠ 0 → fn < 5 → exec (.farPoisonCountRead fn) s = answered 0 s) ∧
  (∀ s : State, hostUp s = true → s.boot.ready = true → s.pmu.sleep = .awake →
    exec (.serveFlagFallsRead 0) s = answered (s.serve.fallsFirst ++ s.serve.fallsBetween)
      { s with serve := { s.serve with fallsFirst := 0, fallsBetween := 0 } } ∧
    exec (.serveDeferralsRead 0) s = answered s.serve.deferrals { s with serve := { s.serve with deferrals := 0 } } ∧
    exec (.faultRetriesRead 0) s = answered s.faults.retries { s with faults := { s.faults with retries := 0 } } ∧
    exec (.faultRepairsRead 0) s = answered s.faults.repairs { s with faults := { s.faults with repairs := 0 } } ∧
    exec (.faultRepairFailsRead 0) s =
      answered s.faults.repairFails { s with faults := { s.faults with repairFails := 0 } } ∧
    exec (.faultPlausibilityRead 0) s =
      answered s.faults.plausibility { s with faults := { s.faults with plausibility := 0 } } ∧
    (∀ p < 4, exec (.sluiceFailRead 0 p) s =
      answered (bounceAt s p).fails (setBounce s p { bounceAt s p with fails := 0 })) ∧
    (∀ p < 4, ∀ fn < 5, seesPart fn p s = true →
      exec (.kvWalkSkipsRead fn p) s = answered (poolAt s p).walkSkips (setPool s p { poolAt s p with walkSkips := 0 }) ∧
      exec (.kvCowRead fn p) s = answered (poolAt s p).cow (setPool s p { poolAt s p with cow := 0 })) ∧
    (∀ p < 4, ∀ fn < 5, seesPart fn p s = false →
      exec (.kvWalkSkipsRead fn p) s = answered 0 s ∧ exec (.kvCowRead fn p) s = answered 0 s) ∧
    ∀ fn, fn ≠ 0 → fn < 5 →
      exec (.serveFlagFallsRead fn) s = answered 0 s ∧ exec (.serveDeferralsRead fn) s = answered 0 s ∧
      exec (.faultRetriesRead fn) s = answered 0 s ∧ exec (.faultRepairsRead fn) s = answered 0 s ∧
      exec (.faultRepairFailsRead fn) s = answered 0 s ∧ exec (.faultPlausibilityRead fn) s = answered 0 s ∧
      ∀ p < 4, exec (.sluiceFailRead fn p) s = answered 0 s)

/-- R33, R34, R488: enabling with a size and addresses in range starts the stopped admin queue with empty rings and an
empty replay window; enabling otherwise sets ADMIN_CFG_ERR and leaves it stopped; disabling keeps it until it has drained,
and enabling it again before that takes effect, and is judged, then. Before READY the registers take what is written, a bad
ENABLE sets ADMIN_CFG_ERR, and no queue becomes active; a doorbell is dropped. -/
def Obligations.AdminQueueStartsAndStops : Prop :=
  (∀ (s : State) (v : W32) (a : Admin), hostUp s = true → s.boot.ready = false → (queueAt s 0).active = false →
    (a = { s.front.admin with cfg := (v ||| 0x80000000) &&& 0x800FFFFF, enablePending := false } →
      (a.good = true → exec (.adminQueueEnable v) s = .next { s with front := { s.front with admin := a } }) ∧
      (a.good = false → exec (.adminQueueEnable v) s =
        .next (raise .adminCfg { s with front := { s.front with admin := a } }))) ∧
    exec (.adminQueueDisable v) s = .next { s with front := { s.front with admin := { s.front.admin with
      cfg := (v &&& 0x7FFFFFFF) &&& 0x800FFFFF, halting := false, enablePending := false } } } ∧
    ∀ fn q, fn < 5 → q < 256 → exec (.sqTailWrite fn q v.toNat []) s = .next s ∧
      exec (.replyHeadWrite fn q v.toNat) s = .next s) ∧
  ∀ s : State, hostUp s = true → s.boot.ready = true → s.pmu.sleep = .awake →
    (∀ (v : W32) (a : Admin), a = { s.front.admin with cfg := (v ||| 0x80000000) &&& 0x800FFFFF, enablePending := false } →
      (a.good = true → (queueAt s 0).active = false →
        exec (.adminQueueEnable v) s =
          .next (adminStart { s with front := { s.front with admin := a } }) ∧
        (queueAt (adminStart { s with front := { s.front with admin := a } }) 0) =
          { part := 0xFF, sizeLog2 := bits a.cfg.toNat 19 16, timeout := timeoutNs (bits a.cfg.toNat 15 0)
            sqBase := a.sqHi ++ a.sqLo, replyBase := a.replyHi ++ a.replyLo, shadow := a.shadowHi ++ a.shadowLo
            active := true }) ∧
      ((queueAt s 0).active = true → exec (.adminQueueEnable v) s =
        .next { s with front := { s.front with admin := { a with enablePending := s.front.admin.halting } } }) ∧
      (a.good = false → (queueAt s 0).active = false → exec (.adminQueueEnable v) s =
        .next (raise .adminCfg { s with front := { s.front with admin := a } }))) ∧
    (∀ v : W32, exec (.adminQueueDisable v) s = .next { s with front := { s.front with
      admin := { s.front.admin with
        cfg := (v &&& 0x7FFFFFFF) &&& 0x800FFFFF, halting := (queueAt s 0).active, enablePending := false } } }) ∧
    ∀ t, (queueAt s 0).active = true → s.front.admin.halting = true → s.front.cmds.any (·.queue == 0) = false →
      (queueAt s 0).dups = [] →
      t = setQueue { s with front := { s.front with
        admin := { s.front.admin with halting := false, enablePending := false } } } 0 { queueAt s 0 with active := false } →
      exec .adminQueueDrained s = .next (if s.front.admin.enablePending = false then t
        else if s.front.admin.good then adminStart t else raise .adminCfg t)

/-- R33, R272, R322, R338, R418, R467, R476: what the physical function's writes of the plain registers leave, and
that a virtual function's writes of them are dropped (RECORD_SEL stands once per function: the model's choice, log 30).
R232, R272, R273, R322, R455, R458: the physical function's writes of the far ranges, the planning registers, the pools and
the power limits take effect in range, and are ignored, with their cause, out of it (the rows of the far ranges, the pools
and the planning registers test no PCIe link: the model's choice, log 49). R465, R488: before READY the admin queue's
addresses, the power limits and the collector's register are written, and every write to another block is dropped. -/
def Obligations.RegistersAreWritten : Prop :=
  (∀ (s : State) (v : W32), hostUp s = true → s.boot.ready = false →
    (exec (.registerWrite 0 0x2000 v) s =
      .next { s with front := { s.front with admin := { s.front.admin with sqLo := v } } } ∧
    exec (.registerWrite 0 0x2014 v) s =
      .next { s with front := { s.front with admin := { s.front.admin with shadowHi := v } } } ∧
    exec (.registerWrite 0 0x6008 v) s = .next { s with faults := { s.faults with
      collectorOn := v.getLsbD 31, collectorNode := v.setWidth 16 } } ∧
    (∀ d w : Nat, d = bits v.toNat 22 16 → w = bits v.toNat 15 0 → 1 ≤ d → d ≤ 64 → 900 ≤ w → w ≤ 1900 →
      exec (.powerCfgWrite 0 0x5008 v) s = .next { s with pmu := { s.pmu with extDuty := d, extWatts := w } }) ∧
    (∀ fn < 5, ∀ off, standbyBlock off = false → off < 0x2000 ∨ 0x201C ≤ off → off < 2 ^ 24 →
      exec (.registerWrite fn off v) s = .next s) ∧
    (∀ fn < 5, ∀ off, exec (.bar2BaseWrite fn off v) s = .next s ∧ exec (.bar2Write fn off []) s = .next s) ∧
    ∀ fn < 5, ∀ off, exec (.farPartWrite fn off v) s = .next s ∧ exec (.serveCostWrite fn off v) s = .next s ∧
      ∀ p < 4, exec (.kvPoolHiWrite fn p v) s = .next s ∧ exec (.kvPoolRelease fn p v) s = .next s)) ∧
  (∀ (s : State) (v : W32), hostUp s = true → s.boot.ready = true → s.pmu.sleep = .awake →
    exec (.registerWrite 0 0x2000 v) s =
      .next { s with front := { s.front with admin := { s.front.admin with sqLo := v } } } ∧
    exec (.registerWrite 0 0x2004 v) s =
      .next { s with front := { s.front with admin := { s.front.admin with sqHi := v } } } ∧
    exec (.registerWrite 0 0x2008 v) s =
      .next { s with front := { s.front with admin := { s.front.admin with replyLo := v } } } ∧
    exec (.registerWrite 0 0x200C v) s =
      .next { s with front := { s.front with admin := { s.front.admin with replyHi := v } } } ∧
    exec (.registerWrite 0 0x2010 v) s =
      .next { s with front := { s.front with admin := { s.front.admin with shadowLo := v } } } ∧
    exec (.registerWrite 0 0x2014 v) s =
      .next { s with front := { s.front with admin := { s.front.admin with shadowHi := v } } } ∧
    exec (.registerWrite 0 0x2108 v) s = .next { s with front := { s.front with bar2Part := v.toNat % 4 } } ∧
    exec (.registerWrite 0 0x6008 v) s = .next { s with faults := { s.faults with
      collectorOn := v.getLsbD 31, collectorNode := v.setWidth 16 } } ∧
    exec (.registerWrite 0 0x8000 v) s = .next { s with serve := { s.serve with flagIrq := v.getLsbD 31 } } ∧
    (s.jobs.jobs = [] →
      exec (.registerWrite 0 0x30004 v) s = .next { s with far := { s.far with interleave := v.getLsbD 0 } }) ∧
    (s.jobs.jobs ≠ [] → exec (.registerWrite 0 0x30004 v) s = .next s) ∧
    (∀ fn < 5, exec (.registerWrite fn 0x800C v) s = .next { s with serve := { s.serve with
        recordSel := s.serve.recordSel.setIfInBounds fn (v &&& 0x8000FFFF) } } ∧
      exec (.registerWrite fn 0x1008 v) s = .next (setIrqFn s fn { irqFn s fn with holdoff := v.setWidth 16 }) ∧
      exec (.registerWrite fn 0x1004 v) s =
        .next (irqSettle (setIrqFn s fn { irqFn s fn with enable := v.setWidth 8 }))) ∧
    ∀ fn, fn ≠ 0 → fn < 5 →
      exec (.registerWrite fn 0x2000 v) s = .next s ∧ exec (.registerWrite fn 0x2018 v) s = .next s ∧
      exec (.registerWrite fn 0x2108 v) s = .next s ∧ exec (.registerWrite fn 0x6008 v) s = .next s ∧
      exec (.registerWrite fn 0x8000 v) s = .next s ∧ exec (.registerWrite fn 0x30004 v) s = .next s) ∧
  (∀ (s : State) (v : W32), serving s = true →
    (∀ p < 4, jobIn s p = false →
      exec (.kvPoolHiWrite 0 p v) s = .next (checkPool p (setPool s p { poolAt s p with hi := v &&& 0xFFF })) ∧
      (v.getLsbD 0 = true → exec (.kvPoolRelease 0 p v) s = .next (releasePool p s)) ∧
      ∀ f, f = { s.far with base := tabSet 0 s.far.base p (v.toNat % 2 ^ 15) } →
        ((tabGet 0 f.size p = 0 ∨ gib * (tabGet 0 f.base p + tabGet 0 f.size p) ≤ farServed s) →
          (∀ q < 4, q ≠ p → farOverlap f p q = false) →
          exec (.farPartWrite 0 (0x30100 + 8 * p) v) s = .next { s with far := f }) ∧
        (∀ q < 4, q ≠ p → farOverlap f p q = true →
          exec (.farPartWrite 0 (0x30100 + 8 * p) v) s = .next (raise .farCfg s))) ∧
    (∀ p < 4, jobIn s p = true → exec (.kvPoolHiWrite 0 p v) s = .next s ∧ exec (.kvPoolRelease 0 p v) s = .next s ∧
      exec (.farPartWrite 0 (0x30100 + 8 * p) v) s = .next s) ∧
    (∀ p < 4, ∀ pl, pl = tabGet ({} : Planning) s.serve.planning p →
      exec (.serveCostWrite 0 (0x8100 + 16 * p) v) s = .next { s with serve := { s.serve with
        planning := tabSet {} s.serve.planning p { pl with base := v } } } ∧
      (v ≠ 0 → exec (.serveCostWrite 0 (0x8104 + 16 * p) v) s = .next { s with serve := { s.serve with
        planning := tabSet {} s.serve.planning p { pl with decode := v } } }) ∧
      (v = 0 → exec (.serveCostWrite 0 (0x8104 + 16 * p) v) s = .next s ∧
        exec (.serveCostWrite 0 (0x8108 + 16 * p) v) s = .next s)) ∧
    (∀ hi lo : Nat, hi = bits v.toNat 31 16 → lo = bits v.toNat 15 0 →
      (600 ≤ lo → lo ≤ hi → hi ≤ 800 →
        hostUp s = true →
        exec (.powerCfgWrite 0 0x500C v) s = .next { s with pmu := { s.pmu with vset := hi, vfloor := lo } }) ∧
      (hostUp s = true → lo < 600 ∨ hi < lo ∨ 800 < hi → exec (.powerCfgWrite 0 0x500C v) s = .next (raise .cfgErr s))) ∧
    ∀ fn, fn ≠ 0 → fn < 5 → ∀ off, exec (.powerCfgWrite fn off v) s = .next s ∧
      exec (.serveCostWrite fn off v) s = .next s ∧ exec (.farPartWrite fn off v) s = .next s ∧
      ∀ p < 4, exec (.kvPoolHiWrite fn p v) s = .next s ∧ exec (.kvPoolRelease fn p v) s = .next s)

/-- R476: each half of a function's BAR2 base takes the bits above the window's size; a base outside the spaces 0x0,
0x1 and 0x5 of this module is ignored and sets ADDR_ERR. R184, R186, R211, R476: a BAR2 access reaches the memory
behind the window: a write stores its bytes, a read returns them, poisoned words as 0xFF; where the address is in
error the write is dropped or the read returns all ones, and ADDR_ERR is set. R263: a write to a bank in a pound waits. -/
def Obligations.Bar2ReachesMemory : Prop :=
  (∀ (s : State) (fn : Nat) (v : W32) (old new : W64), hostUp s = true → s.boot.ready = true → s.pmu.sleep = .awake →
    fn < 5 → old = s.front.bar2Base[fn]?.getD 0 →
    ∀ off, (off = 0x2100 ∧ new = BitVec.ofNat 64
          ((old.extractLsb' 32 32 ++ v : W64).toNat / 2 ^ s.front.bar2Size * 2 ^ s.front.bar2Size) ∨
        off = 0x2104 ∧ new = BitVec.ofNat 64
          ((v ++ old.extractLsb' 0 32 : W64).toNat / 2 ^ s.front.bar2Size * 2 ^ s.front.bar2Size)) →
      (nodeOf new = 0xFFFF → spaceOf new = 0 ∨ spaceOf new = 1 ∨ spaceOf new = 5 →
        exec (.bar2BaseWrite fn off v) s =
          .next { s with front := { s.front with bar2Base := s.front.bar2Base.setIfInBounds fn new } }) ∧
      (nodeOf new ≠ 0xFFFF ∨ (spaceOf new ≠ 0 ∧ spaceOf new ≠ 1 ∧ spaceOf new ≠ 5) →
        exec (.bar2BaseWrite fn off v) s = .next (raise .addrErr s))) ∧
  (∀ (s : State) (fn off : Nat), fn < 5 → Prompt fn s →
    (∀ (bs : List Byte) (h : Home), bar2Served off bs.length s = true →
      resolve s .host (bar2PartOf fn s) (bar2Addr fn off s) bs.length = .ok (.near [(h, bs.length)]) →
      ((∀ key, h = .stack key → bankBlocks s (.host fn) key = false) →
        exec (.bar2Write fn off bs) s = .next (putHome h (clean bs) s)) ∧
      ∀ key k b, h = .stack key → bankBlocks s (.host fn) key = true → k = keyStack key → b = bankAt s k (bankNum key) →
        exec (.bar2Write fn off bs) s = .next (setHostWaits fn 1 (setBank s k (bankNum key)
          { b with waiting := b.waiting ++ [⟨.host fn, key, true, bs, 0, bs.length, now s⟩] }))) ∧
    (∀ (bs : List Byte) (e : AddrErr), bar2Served off bs.length s = true →
      resolve s .host (bar2PartOf fn s) (bar2Addr fn off s) bs.length = .error e →
      exec (.bar2Write fn off bs) s = .next (raise .addrErr s)) ∧
    (∀ (n : Nat) (h : Home) (r : Got × State), bar2Served off n s = true →
      resolve s .host (bar2PartOf fn s) (bar2Addr fn off s) n = .ok (.near [(h, n)]) →
      (∀ key, h = .stack key → bankBlocks s (.host fn) key = false) →
      r = readCharged false none [(h, n)] (readOnes n s) →
      exec (.bar2Read fn off n) s = .next (putRead h 0 r.1.data r.2)) ∧
    (∀ (n : Nat) (e : AddrErr), bar2Served off n s = true →
      resolve s .host (bar2PartOf fn s) (bar2Addr fn off s) n = .error e →
      ∃ t, exec (.bar2Read fn off n) s = .next t ∧ t.front.readBytes = List.replicate n 0xFF ∧ t.irq = (raise .addrErr s).irq))

/-- R469, R470, R471, R472: a due message makes its function fired, sent at once or held while the vector is masked,
and drives IRQ_N low for the physical function; unmasking sends a held one if the function is still pending; EOI
re-arms, and a message still held stays held; a write of 1 clears the leaf bits that the function sees, of the QUEUE leaves
and of groups 1 to 7, and no others: a virtual function clears none of leaf 8 and of those groups. -/
def Obligations.InterruptsAreDelivered : Prop :=
  ∀ (s : State) (fn : Nat), fn < 5 →
    (∀ t, (irqFn s fn).due = some t → t ≤ now s → irqPending s fn = true →
      ∃ u, exec (.irqHoldoffExpire fn) s = .next u ∧ (irqFn u fn).fired = true ∧ (irqFn u fn).due = none ∧
        (irqFn u fn).held = (irqFn s fn).masked ∧
        (irqFn u fn).sent = (irqFn s fn).sent + (if (irqFn s fn).masked then 0 else 1) ∧
        (fn = 0 → u.pins.irqN = false) ∧ (fn ≠ 0 → u.pins = s.pins) ∧ u.irq.queue = s.irq.queue) ∧
    (∀ t, (irqFn s fn).due = some t → t ≤ now s → irqPending s fn = false →
      exec (.irqHoldoffExpire fn) s = .next (setIrqFn s fn { irqFn s fn with due := none })) ∧
    exec (.irqUnmask fn) s = .next (setIrqFn s fn { irqFn s fn with
      masked := false, held := false,
      sent := (irqFn s fn).sent + (if (irqFn s fn).held && irqPending s fn then 1 else 0) }) ∧
    (hostUp s = true → (irqFn s fn).fired = true →
      exec (.irqEoi fn) s = .next (armFn (setIrqFn s fn { irqFn s fn with fired := false }) fn)) ∧
    (hostUp s = true → (irqFn s fn).fired = false → exec (.irqEoi fn) s = .next s) ∧
    ∀ (v : W32), hostUp s = true →
      (∀ k < 9, ∃ u, exec (.irqLeafClear fn 0 k v) s = .next u ∧
        (u.irq.queue[k]?.map Leaf.cause) =
          (s.irq.queue[k]?.map fun l => l.cause &&& ~~~ (v &&& leafMask s fn 0 k)) ∧
        (u.irq.queue[k]?.map Leaf.enable) = (s.irq.queue[k]?.map Leaf.enable) ∧
        (∀ j, j ≠ k → u.irq.queue[j]? = s.irq.queue[j]?) ∧ (∀ g, groupLeaf u.irq g = groupLeaf s.irq g) ∧
        u.front = s.front) ∧
      (∀ g, 1 ≤ g → g ≤ 7 → ∃ u, exec (.irqLeafClear fn g 0 v) s = .next u ∧
        (groupLeaf u.irq g).cause = (if fn = 0 then (groupLeaf s.irq g).cause &&& ~~~ v else (groupLeaf s.irq g).cause) ∧
        (groupLeaf u.irq g).enable = (groupLeaf s.irq g).enable ∧
        (∀ h, h ≠ g → groupLeaf u.irq h = groupLeaf s.irq h) ∧ u.irq.queue = s.irq.queue ∧ u.front = s.front) ∧
      leafMask s 0 0 8 = 0xFFFFFFFF ∧ (fn ≠ 0 → leafMask s fn 0 8 = 0)

/-- R466, R468: an event sets its leaf bit whether or not the bit's enable is 1, and leaves every enable as it was; a
function is pending exactly while its summary ANDed with its enable is not 0. The lockout keeps the MONITOR group
clear (R425). -/
def Obligations.EventsSetLeafBits : Prop :=
  (∀ (s : State) (q : Nat), q < 256 →
    ((raise (.reply q) s).irq.queue[q / 32]?.map fun l => (l.cause.getLsbD (q % 32), l.enable)) =
      (s.irq.queue[q / 32]?.map fun l => (true, l.enable))) ∧
  (∀ (s : State), ∀ x ∈ [(Cause.doorbellRange, 0), (.adminCfg, 1), (.ringErr, 2)],
    (raise x.1 s).irq.queue[8]?.map (fun l => (l.cause, l.enable)) =
      s.irq.queue[8]?.map fun l => (l.cause ||| BitVec.ofNat 32 (2 ^ x.2), l.enable)) ∧
  (∀ (c : Cause) (s : State), 1 ≤ c.place.1 → (c.place.1 = 7 → s.security.lockout = false) →
    (groupLeaf (raise c s).irq c.place.1).cause =
      (groupLeaf s.irq c.place.1).cause ||| BitVec.ofNat 32 (2 ^ c.place.2.2) ∧
    (groupLeaf (raise c s).irq c.place.1).enable = (groupLeaf s.irq c.place.1).enable ∧
    (groupLeaf (raise c s).irq c.place.1).cause.getLsbD c.place.2.2 = true) ∧
  (∀ s : State, s.security.lockout = true → raise .attach s = s ∧ raise .monWrite s = s) ∧
  ∀ (s : State) (fn : Nat), irqPending s fn = true ↔ irqSummary s fn &&& (irqFn s fn).enable ≠ 0

/-- R78, R420, R438, R460, R490, R491, R493: what VSB18, MOD_RST_N and VIN_PG do. A module reset keeps device time, the
fault records, flash and host memory, and the first-layer secret and the keys made from it, and empties queues, stacks and
tiles; that it keeps the energy count of R460 too is the model's inference (log 32). The loss of VSB18 also loses device
time, the records and the keys. R492, R493: PERST_N low takes the host away and resets every function; releasing it
brings the host back. A reset of a virtual function that owns a partition begins that partition's reset; of the
physical function, every function's. -/
def Obligations.ResetsAndPinsAct : Prop :=
  (∀ s : State,
    (s.boot.vsb = true → ∃ t, exec .vsb18Remove s = .next t ∧ t.boot.vsb = false ∧ t.boot.ready = false ∧ t.time = {} ∧
      t.boot.firstSecret = none ∧ t.boot.aliasKey = none ∧ t.faults = {} ∧ t.pmu = {} ∧
      t.front.queues = [] ∧ t.front.cmds = [] ∧ t.store.stack = [] ∧ t.store.tile = [] ∧
      t.store.host = s.store.host ∧ t.flash.bytes = s.flash.bytes ∧ t.fuse = s.fuse) ∧
    (s.boot.vsb = false → exec .vsb18Apply s =
      .next { s with time := {}, boot := { pciDown := !s.pins.perstN, inReset := !s.pins.modRstN } }) ∧
    (s.pins.modRstN = true → ∀ h < 1000, exec (.modRstN h) s = .next s) ∧
    (s.pins.modRstN = true → s.boot.vsb = true → ∀ h, 10000 ≤ h → ∃ t, exec (.modRstN h) s = .next t ∧
      t.boot.inReset = true ∧ t.pins.modRstN = false ∧ t.pins.irqN = true ∧ t.boot.ready = false ∧ t.boot.phase = 0 ∧
      t.time.now = s.time.now ∧ t.faults.records = s.faults.records ∧ t.pmu.energy = s.pmu.energy ∧
      t.boot.firstSecret = s.boot.firstSecret ∧ t.boot.identityKey = s.boot.identityKey ∧
      t.boot.aliasKey = s.boot.aliasKey ∧ t.front.queues = [] ∧
      t.front.cmds = [] ∧ t.store.stack = [] ∧ t.store.tile = [] ∧ t.store.host = s.store.host ∧
      t.flash.bytes = s.flash.bytes ∧ t.fuse = s.fuse) ∧
    exec .modRstNRelease s =
      .next { s with pins := { s.pins with modRstN := true }, boot := { s.boot with inReset := false } } ∧
    (s.boot.vsb = true → s.pins.pwrEn = true → ∃ t, exec .vinPgFall s = .next t ∧ t.pins.vinPg = false ∧
      t.pins.pwrEn = false ∧ t.boot.phase = 0 ∧ t.boot.ready = false ∧ t.time.now = s.time.now ∧
      t.faults.records = s.faults.records ∧ t.front.cmds = [] ∧ t.store.stack = []) ∧
    (s.pins.pwrEn = false → exec .vinPgFall s = .next { s with pins := { s.pins with vinPg := false } })) ∧
  (∀ s : State,
    (s.pins.perstN = true → (s.boot.vsb && !s.boot.inReset && s.boot.ready) = true → exec .perstN s =
      .next (resetFunctions { s with pins := { s.pins with perstN := false }, boot := { s.boot with pciDown := true } })) ∧
    (s.pins.perstN = true → s.boot.ready = false → exec .perstN s =
      .next ((List.range 5).foldl (fun s fn => endSpdm fn s)
        { s with pins := { s.pins with perstN := false }, boot := { s.boot with pciDown := true } })) ∧
    (hostUp s = true → s.boot.ready = false → ∀ fn < 5,
      exec (.functionLevelReset fn) s = .next (resetFnRegs (endSpdm fn s) fn)) ∧
    exec .perstNRelease s =
      .next { s with pins := { s.pins with perstN := true }, boot := { s.boot with pciDown := false } } ∧
    (hostUp s = true → s.boot.ready = true →
      exec (.functionLevelReset 0) s = .next (resetFunctions s) ∧
      ∀ fn, fn ≠ 0 → fn < 5 →
        (∀ p, partOfFn s fn = some p → exec (.functionLevelReset fn) s =
          .next (settleResets (setPart s p { partAt s p with resetting := true }))) ∧
        (partOfFn s fn = none → exec (.functionLevelReset fn) s = .next (resetFnRegs (endSpdm fn s) fn))))

/-- R481, R482, R489: the phases of a start-up follow one another, each logged as it ends; PWR_EN that finds no VIN_PG in
100 ms halts the module with error 3 and lets PWR_EN fall. (That phase 2 begins at once when VIN_PG is already high, and
that an image's digest is over the whole of it, are the model's choices, log 31.) R242, R427, R483: with a valid firmware
image and a valid patch in flash, the newer of each is taken (A on a tie), the keys are derived from their digests, the
flight table and the microcode are loaded, and PWR_EN goes high; with no valid firmware image the module halts with error
1. R2, R485, R486, R487, R488: with THERM_N high, the stacks are trained, then the links (a far device serves at most 16
TiB), then the first lap, after which the module is READY in phase 6. -/
def Obligations.StartUpReachesReady : Prop :=
  (∀ s : State, s.boot.vsb = true → s.boot.inReset = false → s.boot.halted = false → s.boot.ready = false →
    (s.boot.phase = 0 → exec .bootStandbyDone s =
      .next { s with boot := { s.boot with phase := 1, log := tabSet 0 s.boot.log 0 s.time.now } }) ∧
    (s.boot.phase = 1 → s.pins.pwrEn = true → exec .vinPgRise s =
      .next { s with pins := { s.pins with vinPg := true }, boot := { s.boot with phase := 2, vinPgAt := now s } }) ∧
    (s.boot.phase = 1 → s.pins.pwrEn = true → s.pins.vinPg = false → s.boot.pwrEnAt + 100000000 ≤ now s →
      exec .vinPgTimeout s = .next { s with
        boot := { s.boot with halted := true, error := 3 }, pins := { s.pins with pwrEn := false } }) ∧
    (s.boot.phase = 2 → exec .bootPowerDone s = .next (applyRow (applyVoltage (powerVoltage { s with
      boot := { s.boot with phase := 3, log := tabSet 0 s.boot.log 2 s.time.now } }))))) ∧
  (∀ s : State, s.boot.vsb = true → s.boot.inReset = false → s.boot.halted = false → s.boot.ready = false →
    s.boot.phase = 1 → s.pins.pwrEn = false →
    (∀ fw patch, chooseImage (imageAt s 0x10000 1 0x600000) (imageAt s 0x810000 1 0x600000) = some fw →
      chooseImage (imageAt s 0x1010000 2 65408) (imageAt s 0x1020000 2 65408) = some patch →
      ∃ t, exec .bootFlashDone s = .next t ∧ t.pins.pwrEn = true ∧ t.boot.pwrEnAt = now s ∧ t.boot.slotB = fw.1 ∧
        t.boot.patchB = patch.1 ∧ t.boot.firmwareDigest = Config.sha384 fw.2.bytes ∧
        t.boot.patchDigest = Config.sha384 patch.2.bytes ∧ t.boot.phase = (if s.pins.vinPg then 2 else 1) ∧
        t.boot.identityKey = some (Config.eccKey (s.boot.firstSecret.getD (firstLayer s.fuse.secret))) ∧
        t.boot.aliasKey = t.boot.cdi.map Config.eccKey ∧ t.flights = flightTable fw.2.bytes ∧
        t.microcode = memWrite [] 0 (Config.microcode fw.2.bytes) ∧
        t.store = s.store ∧ t.flash = s.flash) ∧
    (chooseImage (imageAt s 0x10000 1 0x600000) (imageAt s 0x810000 1 0x600000) = none →
      exec .bootFlashDone s = .next { s with boot := { s.boot with halted := true, error := 1 },
                                             pins := { s.pins with pwrEn := false } }) ∧
    ∀ a b : FlashImage, chooseImage (some a) (some b) = some (if a.version < b.version then (true, b) else (false, a))) ∧
  (∀ s : State, s.boot.vsb = true → s.boot.inReset = false → s.boot.halted = false → s.boot.ready = false →
    s.pins.thermN = true →
    (s.boot.phase = 3 → ∀ fs, exec (.bootStacksDone fs) s = .next (stacksDone fs s) ∧
      (stacksDone fs s).boot.phase = 4) ∧
    (s.boot.phase = 4 → ∀ c f0 f1, exec (.bootLinksDone c f0 f1) s = .next (linksDone c f0 f1 s) ∧
      (linksDone c f0 f1 s).boot.phase = 5 ∧
      ((∀ p < 16, (portAt s p).state ≠ .up) → (linksDone c f0 f1 s).time = s.time ∧
        (linksDone c f0 f1 s).boot.timeSet = s.boot.timeSet) ∧
      (∀ d, c = some d → (∃ p < 16, (portAt s p).state = .up) → (linksDone c f0 f1 s).boot.timeSet = true ∧
        (linksDone c f0 f1 s).time.now = BitVec.ofNat 64 ((now s : Int) + d).toNat) ∧ (linksDone c f0 f1 s).far.up0 = f0.up ∧
      (linksDone c f0 f1 s).far.up1 = f1.up ∧
      (linksDone c f0 f1 s).far.cap0 = (if f0.up then min f0.capacity 16384 else 0) ∧
      (linksDone c f0 f1 s).far.cap1 = (if f1.up then min f1.capacity 16384 else 0)) ∧
    (s.boot.phase = 5 → ∀ laps, exec (.bootScrubDone laps) s = .next (scrubDone laps s) ∧
      (scrubDone laps s).boot.ready = true ∧ (scrubDone laps s).boot.phase = 6))

/-- R26, R507: QUEUE-CREATE that passes its checks makes the queue with the rings, shadow and timeout it names, empty
and running; QUEUE-DELETE of an idle queue takes it away, and of a busy one stops its packets and waits. R340, R342,
R424, R441: PARTITION-OPEN opens a non-confidential partition at once, with a fresh opening, and answers its number; a
confidential opening, and every close, begins the tenant switch. -/
def Obligations.QueuesAndPartitionsOpenAndClose : Prop :=
  (∀ (s : State) (id : Nat) (c : Cmd),
    (Runs s 0x0101 id c → Finds c s (queueCreateChk s c) () [] →
      exec (.queueCreate id) s = .next (doneCmd c.id 0 (irqSettle (setQueue s (c.at 16 2)
        { part := c.at 18 1, sizeLog2 := c.at 19 1
          timeout := 1000 * (if c.at 20 4 = 0 then 100000 else c.at 20 4), sqBase := c.addr 24
          replyBase := c.addr 32, shadow := c.addr 40, active := true })))) ∧
    (Runs s 0x0102 id c → Finds c s (queueDeleteChk s c) () [] →
      (queueIdle s (c.at 16 2) = true →
        exec (.queueDelete id) s = .next (doneCmd c.id 0 (dropQueue (c.at 16 2) (resumeCmd c.id s)))) ∧
      (queueIdle s (c.at 16 2) = false → exec (.queueDelete id) s =
        .next (waitCmd c.id (setQueue s (c.at 16 2) { queueAt s (c.at 16 2) with deleting := true }))))) ∧
  (∀ (s : State) (id : Nat) (c : Cmd), s.parts.any (fun x => x.2.switchCmd = some c.id) = false →
    (Runs s 0x0103 id c → Finds c s (openPartChk s c) () [] → ∀ p, p = shapeNumber (c.at 16 1) (c.at 17 1) →
      (c.at 18 1 = 0 → exec (.partitionOpen id) s = .next (doneCmd c.id p (setPart s p
        { shape := c.at 16 1, index := c.at 17 1, vf := c.at 19 1, opening := (partAt s p).opening + 1
          isOpen := true }))) ∧
      (c.at 18 1 = 1 → exec (.partitionOpen id) s = .next (startLockout (setPart s p
        { shape := c.at 16 1, index := c.at 17 1, vf := c.at 19 1, opening := (partAt s p).opening + 1
          switch := .clear, switchCmd := some c.id, switchFrom := now s })))) ∧
    (Runs s 0x0104 id c → c.at 16 1 < 4 → (partAt s (c.at 16 1)).isOpen = true → jobIn s (c.at 16 1) = false →
      queueOf s (c.at 16 1) = false →
      ∀ u, u = clearPorts (c.at 16 1) s → exec (.partitionClose id) s =
        .next (setPart u (c.at 16 1) { partAt u (c.at 16 1) with
          isOpen := false, closing := true, switch := .clear, switchCmd := some c.id, switchFrom := now u, active := none
          sliceOver := false })))

/-- R343 to R346: JOB-OPEN issues the next handle for the partition of the queue; JOB-SLICE sets the slice of the next
activation; JOB-CLOSE ends the job once none of its started commands runs, and else waits. R347 to R349: a slice that
has ended stops further commands of its job where another job is ready, and else begins again; the switch saves the
outgoing job and activates the next one, whose new slice length then applies. -/
def Obligations.JobsRunInSlices : Prop :=
  (∀ (s : State) (id : Nat) (c : Cmd),
    (Runs s 0x0105 id c → Finds c s (jobOpenChk s c) () [] → ∀ n, n = (if c.at 24 4 = 0 then 2000 else c.at 24 4) →
      exec (.jobOpen id) s = .next (doneCmd c.id s.jobs.nextJob { s with jobs := { s.jobs with
        nextJob := s.jobs.nextJob + 1
        jobs := s.jobs.jobs ++ [{ handle := s.jobs.nextJob, part := c.part, save := c.addr 16, slice := n, nextSlice := n
                                  liveRange := c.at 28 1 = 1 }] } })) ∧
    (Runs s 0x0107 id c → 500 ≤ c.at 16 4 → c.at 16 4 ≤ 100000 →
      exec (.jobSlice id) s = .next (doneCmd c.id 0 { s with jobs := { s.jobs with
        jobs := updWhere (·.handle == c.job) (fun j => { j with nextSlice := c.at 16 4 }) s.jobs.jobs } })) ∧
    (Runs s 0x0107 id c → c.at 16 4 < 500 ∨ 100000 < c.at 16 4 →
      exec (.jobSlice id) s = .next (rejectCmd c.id (c.bad 16) s)) ∧
    (∀ u, Runs s 0x0106 id c → jobBusy s c.job c.id = false → c.Reads ((s.serve.requests.filter (·.2.job == c.job)).flatMap
        fun r => closeReads r.1 s) (resumeCmd c.id s) u →
      exec (.jobClose id) s = .next (doneCmd c.id 0 (closeJob c.job u)) ∧
      ∀ j ∈ (closeJob c.job u).jobs.jobs, j.handle ≠ c.job) ∧
    (Runs s 0x0106 id c → jobBusy s c.job c.id = true → exec (.jobClose id) s = .next (waitCmd c.id s))) ∧
  (∀ (s : State) (p : Nat), p < 4 → running s = true →
    (∀ j, (partAt s p).active.bind (jobAt s) = some j → (partAt s p).sliceOver = false →
      (partAt s p).activatedAt + 1000 * j.slice ≤ now s →
      (∀ n, nextJob s p = some n → exec (.sliceEnd p) s = .next (setPart s p { partAt s p with sliceOver := true })) ∧
      (nextJob s p = none → exec (.sliceEnd p) s = .next (setPart s p { partAt s p with activatedAt := now s }))) ∧
    (∀ j, (partAt s p).isOpen = true → (partAt s p).active = none → (nextJob s p).bind (jobAt s) = some j →
      exec (.jobSwitch p) s = .next (activate j s)) ∧
    (∀ out j, (partAt s p).isOpen = true → (partAt s p).active.bind (jobAt s) = some out →
      (partAt s p).sliceOver = true → jobBusy s out.handle (2 ^ 64) = false → (nextJob s p).bind (jobAt s) = some j →
      badRanges s out = none → exec (.jobSwitch p) s = .next (activate j (saveJob out s))) ∧
    ∀ j, (partAt (activate j s) j.part).active = some j.handle ∧ (partAt (activate j s) j.part).sliceOver = false)

/-- R424, R441, R442, R444, R445: the on-die clear of a shape ends in its memory phase, with all the shape's stacks to be
zeroed; when nothing is left to zero the memory phase ends with every stack of it zero, SCRUB_DONE set, the partition closed
or open, and what was held released. SCRUB-STATUS answers the estimate over what is left. -/
def Obligations.TenantSwitchesRun : Prop :=
  (∀ (s : State) (p : Nat), p < 4 → running s = true → (partAt s p).switch = .clear →
    exec (.tenantSwitchClearDone p) s = .next (switchCleared p s) ∧
    (partAt (switchCleared p s) p).switch = .memory) ∧
  (∀ (s : State) (p : Nat) (ks : List Nat), p < 4 → running s = true → (partAt s p).switch = .memory →
    ks = shapeStacks (partAt s p).shape (partAt s p).index → (∀ k ∈ ks, (stackAt s k).scrubLeft = 0) →
    exec (.tenantSwitchMemoryDone p) s = .next (releaseHeld
      (if (partAt s p).closing then closeDone p (raise .scrubDone (ks.foldl zeroWhole s))
       else openDone p (raise .scrubDone (ks.foldl zeroWhole s))))) ∧
  (∀ (s : State) (p : Nat), p < 4 → running s = true → (partAt s p).switch = .memory →
    (∃ k ∈ shapeStacks (partAt s p).shape (partAt s p).index, (stackAt s k).scrubLeft ≠ 0) →
    exec (.tenantSwitchMemoryDone p) s = .next s) ∧
  ∀ (s : State) (id : Nat) (c : Cmd), Runs s 0x0802 id c → c.at 16 1 < 4 →
    exec (.scrubStatus id) s = .next (doneCmd c.id (switchLeft (c.at 16 1) s) s)

/-- R149, R170, R175: MEM-COPY moves the bytes it names, MEM-FILL repeats its pattern, COPY-TENSOR writes the image of
its layout in order of address and answers the elements written and clipped; a copy or fill of no bytes does nothing. -/
def Obligations.CopiesMoveBytes : Prop :=
  ∀ (s : State) (id n : Nat) (c : Cmd),
    (Runs s 0x0201 id c → n = c.at 32 8 → n = 0 → exec (.memCopy id) s = .next (doneCmd c.id 0 s)) ∧
    (Runs s 0x0201 id c → n = c.at 32 8 → n ≠ 0 → Finds c s (memCopyChk s c) () [] →
      c.Admitted s [(c.addr 16, n, false), (c.addr 24, n, true)] →
      reachOf s (.command c.id) (c.pieces s (c.addr 16) n ++ c.pieces s (c.addr 24) n) = .go →
      ∃ r, r = c.readAt (c.addr 16) n (noteWaits (.command c.id) (c.pieces s (c.addr 16) n ++ c.pieces s (c.addr 24) n) s) ∧
        exec (.memCopy id) s = .next (doneCmd c.id n (c.writeAt (c.addr 24) r.1 r.2))) ∧
    (Runs s 0x0202 id c → n = c.at 24 8 → n = 0 → exec (.memFill id) s = .next (doneCmd c.id 0 s)) ∧
    (Runs s 0x0202 id c → n = c.at 24 8 → n ≠ 0 → Finds c s (c.checkRanges s [(16, c.addr 16, n)]) () [] →
      c.Admitted s [(c.addr 16, n, true)] → reachOf s (.command c.id) (c.pieces s (c.addr 16) n) = .go →
      exec (.memFill id) s = .next (doneCmd c.id n
        (c.writeAt (c.addr 16) (clean (pattern (c.at 32 4) n)) (noteWaits (.command c.id) (c.pieces s (c.addr 16) n) s)))) ∧
    (∀ l ps s1 rs ws, Runs s 0x0203 id c → Finds c s (layoutChk s c) l ps → s1 = touch c ps s → c.Admits s1 l.ranges →
      c.Holds s1 1 l.indexRuns → reachOf s1 (.command c.id) (c.nearOf s1 l.indexRuns) = .go →
      rs = l.sourceRuns (l.index (viewOf s1 (c.place s1) c.fetched c.tainted)) → c.Holds s1 2 rs →
      ws = c.nearOf s1 (l.indexRuns ++ rs) ++ (l.ranges.filter (·.2.2)).flatMap (fun r => c.pieces s1 r.1 r.2.1) →
      reachOf s1 (.command c.id) ws = .go →
      ∃ m1 m r, m1 = c.withRegisters l.indexRuns (c.fetched, noteWaits (.command c.id) ws s1) ∧
        m = c.withRegisters (l.sourceRuns (l.index (viewOf m1.2 (c.place m1.2) m1.1 c.tainted))) m1 ∧
        r = l.run (viewOf m.2 (c.place m.2) m.1 c.tainted) {} 1 ∧
        exec (.copyTensor id) s = .next (finishCmd c.id (copyMarks r)
          ((l.writesOf r.image).foldl (fun s w => c.writeAt (BitVec.ofNat 64 w.1) w.2 s)
            (chargeReads (c.place m.2) (some c.id) c.tainted r.reads m.2))))

/-- R205, R207, R219, R241: SET-KV-BOUNDARY zeroes every page that changes side and moves the boundary, and waits in
row 4; CHECKBIT-WRITE puts the word's 80 bits as given. R214, R227, R228: TRAFFIC-GEN leaves zeros where it wrote,
stores at most 1,024 capture records, and answers the mismatching words. -/
def Obligations.StacksAreTested : Prop :=
  (∀ (s : State) (id : Nat) (c : Cmd),
    (∀ k b, Runs s 0x0205 id c → Finds c s (kvBoundaryChk s c) (k, b) [] →
      ((stackAt s k).row ≠ 4 → ∃ u,
        u = zeroPages k (min (stackAt s k).boundary b) (max (stackAt s k).boundary b) s ∧
        exec (.setKvBoundary id) s = .next (doneCmd c.id 0 (setStack u k { stackAt u k with boundary := b }))) ∧
      ((stackAt s k).row = 4 → exec (.setKvBoundary id) s = .next s)) ∧
    (∀ ps, Runs s 0x0206 id c → Finds c s (checkbitChk s c) ps [] → reachOf s (.command c.id) ps = .go →
      exec (.checkbitWrite id) s = .next (doneCmd c.id 0
        (ps.foldl (fun s p => putRawWord p.1 (c.at 24 8) (BitVec.ofNat 16 (c.at 32 2)) s) (noteWaits (.command c.id) ps s)))) ∧
    (∀ (d : Nat) (k : BitVec 16) (a : Nat), a % 8 = 0 →
      (putRawWord (.tile a) d k s).store.tileMark =
        tabSet 0 (putTile a (clean (toLe 8 d)) s).store.tileMark (a / 8) (k ^^^ checkOf (BitVec.ofNat 64 d) false))) ∧
  (∀ (s : State) (id : Nat) (c : Cmd), Runs s 0x0905 id c → Finds c s (trafficChk s c) () [] →
    c.Admitted s [(c.addr 32, 32 * min (8 * c.at 24 8) 1024, true)] →
    ∀ ps, ps = c.pieces s (c.addr 32) (32 * min (8 * c.at 24 8) 1024) → reachOf s (.command c.id) ps = .go →
    ∃ s1 es out, s1 = noteWaits (.command c.id) ps s ∧
      es = rawErrors s1 (c.at 16 1) (c.at 17 1) (c.at 18 1) (c.at 19 1) (c.at 24 8) ∧
      out = (es.take 1024).flatMap (captureRecord (now s1)) ∧
      exec (.trafficGen id) s = .next (doneCmd c.id es.length
        (if out = [] then rewriteBursts (c.at 16 1) (c.at 17 1) (c.at 19 1) (c.at 24 8) s1
         else c.put (c.addr 32) (clean out) (rewriteBursts (c.at 16 1) (c.at 17 1) (c.at 19 1) (c.at 24 8) s1))))

/-- R220 to R223, R487, R508: SCRUB-RANGE scrubs its pieces, writes the 64-byte summary and answers the uncorrectable
words; SCRUB-LAP scrubs every stack in service and every present tile and answers the time it took; the idle scrubber
laps while no job is resident. -/
def Obligations.ScrubsReport : Prop :=
  ∀ (s : State) (id : Nat) (c : Cmd),
    (∀ ps s1 s2, Runs s 0x0204 id c → Finds c s (scrubRangeChk s c) ps [] → ps ≠ [] →
      c.Admitted s [(c.addr 32, 64, true)] → c.Reaches (c.pieces s (c.addr 32) 64) s s1 → c.Reaches ps s1 s2 →
      ∃ r first, r = scrubPieces (some c.id) ps (c.addr 16).toNat s2 ∧
        first = (r.1.first.map fun a => (mkAddr (spaceOf (c.addr 16)) (a % 2 ^ 44)).toNat).getD (2 ^ 64 - 1) ∧
        exec (.scrubRange id) s = .next (finishCmd c.id (scrubMarks r.1 r.1.bad)
          (c.put (c.addr 32) (clean (scrubSummary r.1 first c.start (now s2 - c.start))) r.2))) ∧
    (Runs s 0x0204 id c → Finds c s (scrubRangeChk s c) [] [] → exec (.scrubRange id) s = .next (doneCmd c.id 0 s)) ∧
    (Runs s 0x0906 id c → Finds c s (scrubLapChk s c) () [] → c.Admitted s [(c.addr 16, 1088, true)] →
      reachOf s (.command c.id) (c.pieces s (c.addr 16) 1088) = .go →
      ∃ s1 r line, s1 = noteWaits (.command c.id) (c.pieces s (c.addr 16) 1088) s ∧
        r = lapAll (some c.id) (fun _ => (now s1 - c.start) / 1000) s1 ∧
        line = (fun x : Scrub => scrubSummary x (x.first.getD (2 ^ 64 - 1)) c.start (now s1 - c.start)) ∧
        exec (.scrubLap id) s = .next (finishCmd c.id (scrubMarks r.2.1 (now s1 - c.start))
          (c.put (c.addr 16) (clean (line r.2.1 ++ (List.range 16).flatMap fun k =>
            match tabFind r.1 k with | some x => line x | none => zeros 64)) r.2.2))) ∧
    (∀ laps, running s = true → s.jobs.jobs = [] →
      exec (.idleScrubLapEnd laps) s = .next (lapAll none (fun k => laps[k]?.getD 0) s).2.2)

/-- R97, R142, R143, R147: LOAD-PROGRAM installs the code in every selected tile and answers the new handle;
UNLOAD-PROGRAM frees it once no command runs it; SET-FORMAT-SLOT sets the slot of the queue's partition. R99, R102, R126,
R144, R146: a LAUNCH whose selected tiles are idle starts every one of them at the program's entry, with the image's data
and the argument block in private memory, and with the format slots and guard bands as they were when it started; with a
tile still running it waits. R145: a tile that has halted, with its engines empty and its remote accesses answered,
finishes; with the last of its tiles a LAUNCH completes, and its result is the largest beat count among them. A tile that
has more to do goes on. -/
def Obligations.ProgramsLaunchAndFinish : Prop :=
  (∀ (s : State) (id : Nat) (c : Cmd),
    (∀ ps, Runs s 0x0301 id c → Finds c s (loadChk s c) none ps →
      exec (.loadProgram id) s = .next (doneCmd c.id 0 (touch c ps s))) ∧
    (∀ h bs sel ps, Runs s 0x0301 id c → Finds c s (loadChk s c) (some (h, bs, sel)) ps →
      ∃ s2 p, s2 = touch c ps s ∧
        p = ({ handle := s2.jobs.nextProgram, job := c.job, part := c.part, tiles := sel
               code := (bs.drop 32).take h.code, data := bs.drop (32 + h.code), entry := h.entry
               slotMask := BitVec.ofNat 32 h.mask, digest := Config.sha384 bs } : Program) ∧
        exec (.loadProgram id) s = .next (doneCmd c.id p.handle (sel.foldl (installCode p.code)
          { s2 with jobs := { s2.jobs with
            programs := s2.jobs.programs ++ [p], nextProgram := s2.jobs.nextProgram + 1 } }))) ∧
    (∀ p, Runs s 0x0303 id c → programAt s (c.at 16 4) = some p → p.job = c.job →
      (programQueues s p = [] → exec (.unloadProgram id) s = .next (doneCmd c.id 0 (unload p (resumeCmd c.id s)))) ∧
      (programQueues s p ≠ [] → (∀ q ∈ programQueues s p, q = c.queue) →
        exec (.unloadProgram id) s = .next (waitCmd c.id s)) ∧
      (∀ q ∈ programQueues s p, q ≠ c.queue → exec (.unloadProgram id) s = .next (rejectCmd c.id .busy s))) ∧
    (∀ x, Runs s 0x0304 id c → Finds c s (formatSlotChk c) x [] →
      exec (.setFormatSlot id) s = .next (doneCmd c.id 0 (setPart s c.part
        { partAt s c.part with slots := tabPut (partAt s c.part).slots (c.at 16 1) x })))) ∧
  (∀ (s : State) (id : Nat) (c : Cmd) (p : Program) (sel : List Nat), Runs s 0x0302 id c → c.tiles = [] →
    Finds c s (launchChk s c) (p, sel) [] →
    (sel.any (fun t => (tileAt s t).running) = true → exec (.launch id) s = .next (waitCmd c.id s)) ∧
    (∀ s1 ps, sel.any (fun t => (tileAt s t).running) = false → s1 = resumeCmd c.id s →
      ps = c.pieces s1 (c.addr 24) 256 →
      (c.addr 24 = 0 → exec (.launch id) s = .next ((if c.at 32 1 = 1 then twinStarts sel else plainStarts sel).foldl
        (startTile c.id p []) (updCmd c.id (fun y => { y with tiles := sel }) s1))) ∧
      (c.addr 24 ≠ 0 → c.Admitted s1 [(c.addr 24, 256, false)] → reachOf s1 (.command c.id) ps = .go →
        ∃ r, r = c.readAt (c.addr 24) 256 (noteWaits (.command c.id) ps s1) ∧
          exec (.launch id) s = .next ((if c.at 32 1 = 1 then twinStarts sel else plainStarts sel).foldl
            (startTile c.id p (r.1.map (·.1))) (updCmd c.id (fun y => { y with tiles := sel }) r.2)))) ∧
    ∀ (u : State) (x : Start) (args : List Byte), (tileAt (startTile c.id p args u x) x.tile).pc = p.entry ∧
      (tileAt (startTile c.id p args u x) x.tile).running = true ∧
      (tileAt (startTile c.id p args u x) x.tile).cmd = some c.id ∧
      (tileAt (startTile c.id p args u x) x.tile).priv = launchPriv p.data args ∧
      (tileAt (startTile c.id p args u x) x.tile).twin = x.twin ∧
      (tileAt (startTile c.id p args u x) x.tile).slots = slotsFor u c.id p.part ∧
      (tileAt (startTile c.id p args u x) x.tile).guards = guardsFor u c.id p.part ∧
      (∀ y, cmdAt u c.id = some y → slotsFor u c.id p.part = y.slots.getD (partAt u p.part).slots ∧
        guardsFor u c.id p.part = y.guards.getD (partAt u p.part).guards) ∧
      ∀ t, t ≠ x.tile → tileAt (startTile c.id p args u x) t = tileAt u t) ∧
  (∀ (s : State) (t : Nat), t < 512 → running s = true →
    (tileDone s t = false → exec (.tileFinish t) s = .next s) ∧
    (tileDone s t = true → (tileAt s t).twin = none → (tileAt s t).cmd = none →
      exec (.tileFinish t) s = .next (setTile s t { tileAt s t with running := false, mx := (tileAt s t).mx.loadDone })) ∧
    (∀ id c s1, tileDone s t = true → (tileAt s t).twin = none → (tileAt s t).cmd = some id → cmdAt s id = some c →
      c.opcode = 0x0302 → c.phase = .started →
      s1 = setTile s t { tileAt s t with running := false, mx := (tileAt s t).mx.loadDone } →
      c.tiles.any (fun u => (tileAt s1 u).running) = false →
      exec (.tileFinish t) s = .next (doneCmd id (c.tiles.foldl (fun a u => max a (tileAt s1 u).count) 0) s1)))

/-- R70, R71, R115, R117, R136: the next bundle of a running tile issues once its results have landed and nothing
keeps it; an illegal one, or none at the program counter, is a job fault; results land when their latency has passed,
and none while a load has frozen the core; the line that a frozen load waits for arrives, and the load's result is
then set to land where a hit's would have. R102, R125, R126, R139: a set-up instruction at the head of its queue
writes its address registers, its wraps, its LFSR (never 0) or its group base, and is finished; a finished instruction
completes and leaves the queue, as does one of repeat 0. R128, R136: a repeat of an MX, VX or SX instruction whose
operands leave the local ranges of R111 has no effect but a job fault of its engine. R115, R117 to R119, R122: what
each slot of a bundle leaves: the ALU slots, private loads, a global load that hits, CALL and DJNZ each a result to land
after its latency; the stores private memory; INVG an empty read cache; the branch slot the program counter; registers
change only where a result lands. R70, R73, R117: a result lands at its beat, of two for one register the later beat's, in
one beat the higher slot's, and none in c0. -/
def Obligations.TilesIssueAndSetUpEngines : Prop :=
  (∀ (b : Bundle) (x y : Tile), y = b.issue x →
    (∀ k a, (k, a) ∈ b.alus → (⟨x.beats + (if 0x10 ≤ a.op then 3 else 1), k, a.d, aluResult a.op (x.reg a.a)
      (if a.imm then BitVec.ofInt 64 (signed 15 a.b) else x.reg (a.b / 1024))⟩ : Landing) ∈ y.landing) ∧
    (∀ m ad, b.mem = some m → ad = (x.reg m.b + BitVec.ofInt 64 (signed 18 m.off)).toNat →
      (m.op = 0 → ⟨x.beats + 2, 2, m.d, BitVec.ofNat 64 (leNat (memRead x.priv ad 8))⟩ ∈ y.landing) ∧
      (m.op = 1 → ⟨x.beats + 2, 2, m.d, BitVec.ofInt 64 (signed 32 (leNat (memRead x.priv ad 4)))⟩ ∈ y.landing) ∧
      (m.op = 2 → ⟨x.beats + 2, 2, m.d, BitVec.ofNat 64 (leNat (memRead x.priv ad 4))⟩ ∈ y.landing) ∧
      (m.op = 3 → y.priv = memWrite x.priv ad (toLe 8 (x.reg m.d).toNat)) ∧
      (m.op = 4 → y.priv = memWrite x.priv ad (toLe 4 (x.reg m.d).toNat)) ∧
      (m.op ≠ 3 → m.op ≠ 4 → y.priv = x.priv) ∧ (m.op = 0xC → y.cache = []) ∧ (m.op ≠ 0xC → y.cache = x.cache) ∧
      (8 ≤ m.op → m.op ≤ 0xA → ∀ n, n = (if m.op = 8 then 8 else 4) →
        (∀ bs, cacheBytes x m.op (BitVec.ofNat 64 ad) = some bs →
          (⟨x.beats + 2, 2, m.d, loadValue m.op (bs.map (·.1))⟩ : Landing) ∈ y.landing ∧ y.miss = x.miss) ∧
        (cacheBytes x m.op (BitVec.ofNat 64 ad) = none → y.miss = some ⟨m.op, x.beats, m.d, BitVec.ofNat 64 ad⟩)) ∧
      (m.op = 0xD → (bits m.off 17 16, abaseWord (m.off % 16) (x.reg m.d).toNat) ∈ b.entries x) ∧
      (m.op = 0xE → (3, gbaseWord m.off (x.reg m.d)) ∈ b.entries x)) ∧
    (b.mem = none → y.priv = x.priv ∧ y.cache = x.cache) ∧
    (b.branch = none → y.pc = x.pc + b.words ∧ y.halted = false) ∧
    (∀ r, b.branch = some r →
      (r.op = 0 ∨ r.op = 5 → y.pc = r.target) ∧ (r.op = 6 → y.pc = (x.reg r.c).toNat) ∧
      (r.op = 1 → y.pc = if x.reg r.c = 0 then r.target else x.pc + b.words) ∧
      (r.op = 2 → y.pc = if x.reg r.c ≠ 0 then r.target else x.pc + b.words) ∧
      (r.op = 3 → y.pc = if (x.reg r.c).toInt < 0 then r.target else x.pc + b.words) ∧
      (r.op = 4 → y.pc = if 0 ≤ (x.reg r.c).toInt then r.target else x.pc + b.words) ∧
      (r.op = 7 → y.pc = (if x.reg r.c - 1 ≠ 0 then r.target else x.pc + b.words) ∧
        (⟨x.beats + 1, 3, r.c, x.reg r.c - 1⟩ : Landing) ∈ y.landing) ∧
      (r.op = 5 → (⟨x.beats + 1, 3, 31, BitVec.ofNat 64 (x.pc + b.words)⟩ : Landing) ∈ y.landing) ∧
      y.halted = decide (r.op = 0xF)) ∧
    y.regs = x.regs ∧ y.imem = x.imem) ∧
  (∀ (a b : W64), (∀ o ∈ [(0x00, a + b), (0x01, a - b), (0x02, a &&& b), (0x03, a ||| b), (0x04, a ^^^ b),
      (0x05, a <<< (b.toNat % 64)), (0x06, a >>> (b.toNat % 64)), (0x07, a.sshiftRight (b.toNat % 64)),
      (0x08, if a.toInt < b.toInt then 1 else 0), (0x09, if a.toNat < b.toNat then 1 else 0),
      (0x0A, if b.toInt < a.toInt then b else a), (0x0B, if a.toInt < b.toInt then b else a),
      (0x0C, (a <<< 15) ||| (b &&& 0x7FFF)), (0x10, a * b), (0x11, BitVec.ofInt 64 (a.toInt * b.toInt / 2 ^ 64)),
      (0x12, BitVec.ofNat 64 (a.toNat * b.toNat / 2 ^ 64))], aluResult o.1 a b = o.2)) ∧
  (∀ (x : Tile) (u v : Landing),
    (x.landing = [u] → (x.beats < u.beat → x.land = x) ∧
      (u.beat ≤ x.beats → x.land = { x with regs := putReg x.regs u.reg u.value, landing := [] })) ∧
    (x.landing = [u, v] ∨ x.landing = [v, u] → u.beat ≤ x.beats → v.beat ≤ x.beats →
      u.beat < v.beat ∨ (u.beat = v.beat ∧ u.slot < v.slot) →
      x.land.regs = putReg (putReg x.regs u.reg u.value) v.reg v.value) ∧
    (∀ rs r w, w ≠ 0 → putReg rs 0 w = rs ∧ (r ≠ 0 → tabGet 0 (putReg rs r w) r = w ∧
      ∀ q, q ≠ r → tabGet 0 (putReg rs r w) q = tabGet 0 rs q))) ∧
  (∀ (s : State) (t : Nat) (x : Tile), t < 512 → running s = true → frozen s t = false → x = (tileAt s t).land →
    ((tileAt s t).halted = false → (tileAt s t).miss = none →
      ((tileAt s t).pc ≠ walkWord ∨ tileOp s t ≠ 0x0406) →
      (∀ b, readBundle x x.pc = some b →
        b.bad x (fun w => w < x.codeWords || (w = walkWord && tileOp s t = 0x0406)) = none →
        (∀ m, b.mem = some m → (m.private_ && !m.privOk x) = false ∧ (m.isGlobal && ccDenied s t m x) = false) →
        (b.waits x = true → exec (.bundleIssue t) s = .next s) ∧
        (b.waits x = false →
          exec (.bundleIssue t) s = .next (charge x.cmd (hitGot s t b x) (setTile s t (b.issue x)))) ∧
        (b.mem = none → hitGot s t b x = {}) ∧
        ((b.issue x).beats = x.beats + 1 + b.idle) ∧
        (b.branch = none → (b.issue x).pc = x.pc + b.words)) ∧
      (readBundle x x.pc = none → exec (.bundleIssue t) s = .next (noteJobFault (0, t, 4) x.cmd s))) ∧
    ((tileAt s t).miss = none → exec (.ccResultLand t) s = .next (setTile s t x)) ∧
    ((tileAt s t).miss.isSome = true → exec (.ccResultLand t) s = .next s) ∧
    (∀ p l, (tileAt s t).miss = some p →
      (loadLines p.op p.address).find? (fun l => (lineOf (tileAt s t) l).isNone) = some l →
      ∃ u, u = fillLine t l p s ∧
        (∀ bs, cacheBytes (tileAt u t) p.op p.address = some bs →
          exec (.readCacheFill t) s = .next (setTile u t ((tileAt u t).resume p bs))) ∧
        (cacheBytes (tileAt u t) p.op p.address = none → exec (.readCacheFill t) s = .next u))) ∧
  (∀ (s : State) (t e : Nat) (h : Entry), t < 512 → e < 4 → running s = true → frozen s t = false →
    headOf s t e = some h →
    (h.finished = false → (Ins.of h.word).op = 1 →
      exec (.aset t e) s = .next (setupDone t e (fun en => { en with aregs := setupRegs h.word en.aregs }) s)) ∧
    (h.finished = false → (Ins.of h.word).op = 2 →
      exec (.awrap t e) s = .next (setupDone t e (fun en => { en with aregs := setupRegs h.word en.aregs }) s)) ∧
    (h.finished = false → (Ins.of h.word).op = 3 → exec (.seed t e) s = .next (setupDone t e
      (fun en => { en with lfsr := if (h.word.setWidth 32 : W32) = 0 then 1 else h.word.setWidth 32 }) s)) ∧
    (e = 3 → h.finished = false → (Ins.of h.word).op = 4 → ∃ u, u = setupDone t 3 id s ∧
      exec (.dgset t) s = .next (setTile u t { tileAt u t with
        gbase := tabSet 0 (tileAt u t).gbase (bits h.word.toNat 119 118) (h.word.setWidth 64) })) ∧
    (entryDone s t e h = true → exec (.engineInstructionComplete t e) s =
      .next (setTile s t ((tileAt s t).setEngine e
        { (tileAt s t).engine e with queue := ((tileAt s t).engine e).queue.drop 1 }))) ∧
    (0x10 ≤ (Ins.of h.word).op → (Ins.of h.word).rep = 0 → entryDone s t e h = true) ∧
    (entryDone s t e h = false → exec (.engineInstructionComplete t e) s = .next s)) ∧
  (∀ (s : State) (t : Nat) (h : Entry),
    (∀ c ∈ [(Instr.mwload t, 0, 0x10), (.mma t, 0, 0x11), (.mdrain t, 0, 0x12), (.vadd t, 1, 0x10), (.vsub t, 1, 0x11),
        (.vmul t, 1, 0x12), (.vfma t, 1, 0x13), (.vmax t, 1, 0x14), (.vmin t, 1, 0x15), (.vscale t, 1, 0x16),
        (.vcvt t, 1, 0x17), (.vmulb t, 1, 0x18), (.vsubb t, 1, 0x19), (.vredsum t, 1, 0x1A), (.vredmax t, 1, 0x1B),
        (.sexp t, 2, 0x10), (.slog t, 2, 0x11), (.srsqrt t, 2, 0x12), (.srcp t, 2, 0x13), (.sidx t, 2, 0x14)],
      AtHead s t c.2.1 c.2.2 h → operandsOk s t c.2.1 (Ins.of h.word) = false →
      exec c.1 s = .next (noteJobFault (0, t, c.2.1) (tileAt s t).cmd s)))

/-- R107, R131: MWLOAD loads 64 rows into the buffer that BUF names; MMA adds the products of the row at s and the
buffer's rows to the 64 accumulators at d, summed exactly and rounded once; MDRAIN converts the accumulators at s,
clearing them where it is told to. -/
def Obligations.MatrixEngineRuns : Prop :=
  ∀ (s : State) (t : Nat) (h : Entry) (i : Ins), i = Ins.of h.word → operandsOk s t 0 i = true →
    (∀ f k a bs s1, AtHead s t 0 0x10 h → formatOf (tileAt s t).slots i.fs = some f → k = kCode (bits i.flags 2 1) →
      a = (opAddress s t 0 i.as_).toNat →
      bs = (List.range 64).flatMap (fun r => bufferRow f (tileReader s t) (a + r * f.rowBytes k) i.bs k) →
      s1 = updHead t 0 id (fun en => { en.loadDone with load := 32, loading := i.flags % 2 })
        (repDone t 0 0 (chargeSpans t a (tileSpans (tileAt s t).slots i.fs i.bs k) (tileAt s t).cmd s)) →
      exec (.mwload t) s = .next (setTile s1 t (if i.flags % 2 = 0
        then { tileAt s1 t with wbuf0 := { loaded := true, format := i.fs, k := k, bytes := bs } }
        else { tileAt s1 t with wbuf1 := { loaded := true, format := i.fs, k := k, bytes := bs } }))) ∧
    (∀ f w row old, AtHead s t 0 0x11 h → formatOf (tileAt s t).slots i.ft = some f →
      w = wbufAt (tileAt s t) (i.flags % 2) → row = source t 0 i.as_ i.fs i.bs w.k s →
      old = (if bit i.flags 1 then (List.replicate 64 ⟨0, .fin false 0 0, false⟩, row.2)
        else source t 0 i.ad 16 0 64 row.2) →
      exec (.mma t) s = .next (repDone t 0 1
        (updHead t 0 id (fun en => if en.loading = i.flags % 2 then en.loadDone else mxBeat en)
          (put32 t (opAddress s t 0 i.ad).toNat
            ((old.1.zipIdx 0).map fun o => accumulator (bit i.flags 1) o.1 row.1 (weightRow f w o.2)) old.2)))) ∧
    (∀ src s1, AtHead s t 0 0x12 h → src = source t 0 i.as_ 16 0 64 s →
      s1 = (if bit i.flags 0 then localWrite t (opAddress s t 0 i.as_).toNat (clean (zeros 256)) src.2 else src.2) →
      exec (.mdrain t) s = .next (repDone t 0 1
        (updHead t 0 id mxBeat (destination t 0 i (src.1.map fun v => (v.num, v.bad)) s1)))) ∧
    (∀ (row ws : List Val) o, accumulator true o row ws =
      (dec32 (r32 (dot (row.map (·.num)) (ws.map (·.num)))), row.any (·.bad) || ws.any (·.bad)))

/-- R105, R106, R132: one repeat of an elementwise VX instruction reads its operands, applies its binary32 operation
to each of the 64 elements, writes the results in the destination's format and advances. -/
def Obligations.VectorElementwiseRuns : Prop :=
  ∀ (s : State) (t op : Nat) (h : Entry) (i : Ins), AtHead s t 1 op h → i = Ins.of h.word → operandsOk s t 1 i = true →
    (op = 0x10 → exec (.vadd t) s = .next (vxRepeat t i true false false 1 (fun a b _ => add32 a b) s)) ∧
    (op = 0x11 → exec (.vsub t) s = .next (vxRepeat t i true false false 1 (fun a b _ => sub32 a b) s)) ∧
    (op = 0x12 → exec (.vmul t) s = .next (vxRepeat t i true false false 1 (fun a b _ => mul32 a b) s)) ∧
    (op = 0x13 → exec (.vfma t) s = .next (vxRepeat t i true true false 1 (fun a b d => fma32 a b d) s)) ∧
    (op = 0x14 → exec (.vmax t) s = .next (vxRepeat t i true false false 1 (fun a b _ => max32 a b) s)) ∧
    (op = 0x15 → exec (.vmin t) s = .next (vxRepeat t i true false false 1 (fun a b _ => min32 a b) s)) ∧
    (op = 0x16 → exec (.vscale t) s = .next (vxRepeat t i false false false 1
      (fun a _ _ => fma32 a (BitVec.ofNat 32 i.imm) (BitVec.ofNat 32 (2 ^ 16 * bits i.imm 47 32))) s)) ∧
    (op = 0x17 → exec (.vcvt t) s = .next (vxRepeat t i false false false
      (if h.done % cvtPerBeat (tileAt s t).slots i = 0 then 1 else 0) (fun a _ _ => a) s)) ∧
    (op = 0x18 → exec (.vmulb t) s = .next (vxRepeat t i true false true 1 (fun a b _ => mul32 a b) s)) ∧
    (op = 0x19 → exec (.vsubb t) s = .next (vxRepeat t i true false true 1 (fun a b _ => sub32 a b) s))

/-- R109, R110, R133, R134: VREDSUM and VREDMAX fold 64 elements by the fixed tree, onto the old destination where
they are told to; SEXP, SLOG, SRSQRT and SRCP apply their function to s × p; SIDX multiplies and adds modulo 2^32. -/
def Obligations.ReductionsAndFunctionsRun : Prop :=
  ∀ (s : State) (t : Nat) (h : Entry) (i : Ins), i = Ins.of h.word →
    (operandsOk s t 1 i = true →
      (AtHead s t 1 0x1A h → exec (.vredsum t) s = .next (vxReduce t i add32 s)) ∧
      (AtHead s t 1 0x1B h → exec (.vredmax t) s = .next (vxReduce t i max32 s)) ∧
      ∀ f a, a = source t 1 i.as_ i.fs i.bs 64 s → bit i.flags 0 = false → vxReduce t i f s =
        repDone t 1 1 (destination t 1 i
          [(dec32 (treeReduce f (a.1.map (as32 i.mode))), a.1.any (·.bad))] a.2)) ∧
    (operandsOk s t 2 i = true →
      (∀ a, a = source t 2 i.as_ i.fs i.bs 64 s → ∀ c ∈ [(Instr.sexp t, 0x10, sxExp), (.slog t, 0x11, sxLog),
          (.srsqrt t, 0x12, sxRsqrt), (.srcp t, 0x13, sxRecip)], AtHead s t 2 c.2.1 h →
        exec c.1 s = .next (repDone t 2 4 (destination t 2 i
          (a.1.map fun v => (dec32 (c.2.2 (mul32 (as32 i.mode v) (BitVec.ofNat 32 i.imm))), v.bad)) a.2))) ∧
      (∀ a, a = source t 2 i.as_ 16 0 64 s → AtHead s t 2 0x14 h →
        exec (.sidx t) s = .next (repDone t 2 4 (localWrite t (opAddress s t 2 i.ad).toNat
          (a.1.flatMap fun v => (toLe 4 (BitVec.ofNat 32 v.code * BitVec.ofNat 32 i.imm +
            BitVec.ofInt 32 (signed 24 (bits i.imm 55 32))).toNat).map fun b => (b, v.bad)) a.2))))

/-- R112, R128, R135, R192: a DCOPY repeat moves its bytes, on 64-byte lines of time; one of no bytes only advances; a
global end that its partition may not reach is a job fault; with RELEASE it waits until the DX's earlier writes are
visible. R171, R173, R174, R504: a DLAYOUT repeat reads its 32-byte copy block, checks it as COPY-TENSOR's and moves
what it moves; what a COPY-TENSOR would reject is a job fault, and poisoned control data moves nothing. R121, R135,
R192 to R194, R245: DFLAGSET releases its 8 bytes once its earlier writes are visible; DFLAGWAIT begins to wait, and
ends, with the tile's read cache dropped, when the flag stands at a value that its mode and IMM accept; DFENCE ends
when its remote writes are visible, and until then waits. -/
def Obligations.DataMoverRuns : Prop :=
  (∀ (s : State) (t : Nat) (h : Entry) (i : Ins) (src dst : W64) (who : Agent), i = Ins.of h.word → AtHead s t 3 0x10 h →
    operandsOk s t 3 i = true → src = globalAddr s t i i.as_ → dst = globalAddr s t i i.ad → who = .engine t h.id →
    ((bit i.flags 0 = true ∧ dxOk s t src (max i.imm 1) = false) ∨ (bit i.flags 1 = true ∧ dxOk s t dst (max i.imm 1) = false) →
      exec (.dcopy t) s = .next (engFault t 3 s)) ∧
    ((bit i.flags 0 = true → dxOk s t src (max i.imm 1) = true) → (bit i.flags 1 = true → dxOk s t dst (max i.imm 1) = true) →
      (i.imm = 0 → exec (.dcopy t) s = .next (repDone t 3 0 s)) ∧
      (i.imm ≠ 0 → bit i.flags 4 = true → canRelease s t = false → exec (.dcopy t) s = .next s) ∧
      ∀ ps s1, i.imm ≠ 0 → bit i.flags 4 = false ∨ canRelease s t = true →
        ps = (if bit i.flags 1 then dxPieces s t dst i.imm else []) → reachOf s who ps = .go → s1 = noteWaits who ps s →
        (bit i.flags 0 = false → ∃ r, r = dxLocal t (opAddress s1 t 3 i.as_) i.imm s1 ∧
          exec (.dcopy t) s = .next (dcopyOut t i h r.1 r.2)) ∧
        (bit i.flags 0 = true → dxRemote s1 t src i.imm = false → ∀ qs s2, qs = dxPieces s1 t src i.imm →
          reachOf s1 who qs = .go → s2 = noteWaits who qs s1 →
          ∃ g, g = getPieces true (dxPieces s2 t src i.imm) s2 ∧
            exec (.dcopy t) s = .next (dcopyOut t i h g.1.data (charge (tileAt s2 t).cmd g.1 g.2)))) ∧
    ∀ bs u, dcopyOut t i h bs u = repDone t 3 (lines64 i.imm) (if bit i.flags 1
      then leaveWrite t h (bit i.flags 4) (globalAddr u t i i.ad) bs u else localWrite t (opAddress u t 3 i.ad).toNat bs u)) ∧
  (∀ (s : State) (t : Nat) (h : Entry) (i : Ins) (g : Got) (c : Cmd) (ps : List (Home × Nat)) (s1 : State) (who : Agent),
    i = Ins.of h.word → AtHead s t 3 0x11 h → operandsOk s t 3 i = true → opAddress s t 3 i.as_ % 32 = 0 →
    who = .engine t h.id → g = localRead t (opAddress s t 3 i.as_).toNat 32 true s →
    (g.poisoned ≠ 0 → exec (.dlayout t) s = .next (repDone t 3 1 (charge (tileAt s t).cmd g s))) ∧
    (g.poisoned = 0 → (opRow 0x0203).all (fun r => (r.stray g.bytes).isNone) = true →
      c = { blockCmd s t g.bytes with blocks := h.blocks } →
      s1 = charged { c with touched := h.sent } ps (if h.sent then s else charge (tileAt s t).cmd g s) →
      (∀ m, (ExceptT.run (layoutChk s c)).run [] = (.error (.status m), ps) →
        exec (.dlayout t) s =
          .next (if m.status = 0x30 then repDone t 3 (controlBeats (c.at 32 1)) s1 else engFault t 3 s1)) ∧
      (∀ l rs index ss near, (ExceptT.run (layoutChk s c)).run [] = (.ok l, ps) → h.awaiting = [] →
        bit i.flags 4 = false ∨ canRelease s t = true → rs = l.ranges.filter (fun r => r.2.1 ≠ 0) →
        (∀ r ∈ rs, ∃ p, dxPlace s t r.1 r.2.1 = .ok p) →
        index = l.indexRuns.flatMap (fun r => dxPieces s t r.1 r.2) → reachOf s who index = .go →
        1 ≤ h.stage ∨ (∀ r ∈ l.indexRuns, dxRemote s1 t r.1 r.2 = false) →
        ss = l.sourceRuns (l.index (viewOf s (fun a n => dxPlace s t a n) h.fetched h.tainted)) →
        2 ≤ h.stage ∨ (∀ r ∈ ss, dxRemote s1 t r.1 r.2 = false) →
        near = index ++ ss.flatMap (fun r => dxPieces s t r.1 r.2) ++
          (rs.filter (·.2.2)).flatMap (fun r => dxPieces s t r.1 r.2.1) → reachOf s who near = .go →
        exec (.dlayout t) s = .next (dlayoutMove t i h l (noteWaits who near s1))))) ∧
  (∀ (s : State) (t : Nat) (h : Entry) (i : Ins) (who : Agent), i = Ins.of h.word → who = .engine t h.id →
    (∀ ps s1, AtHead s t 3 0x12 h → operandsOk s t 3 i = true → dxOk s t (globalAddr s t i i.ad) 8 = true →
      canRelease s t = true → ps = dxPieces s t (globalAddr s t i i.ad) 8 → reachOf s who ps = .go → s1 = noteWaits who ps s →
      ∃ r, r = dxLocal t (opAddress s1 t 3 i.as_) 8 s1 ∧
        exec (.dflagset t) s = .next (repDone t 3 1 (leaveWrite t h true (globalAddr s t i i.ad) r.1 r.2))) ∧
    (AtHead s t 3 0x13 h → dxOk s t (globalAddr s t i i.as_) 8 = true → h.sent = false →
      dxRemote s t (globalAddr s t i i.as_) 8 = false →
      exec (.dflagwait t) s = .next (updEntry t h.id (fun e => { e with sent := true }) s)) ∧
    (∀ ps s1 r, AtHead s t 3 0x13 h → dxOk s t (globalAddr s t i i.as_) 8 = true → h.sent = true →
      dxRemote s t (globalAddr s t i i.as_) 8 = false → ps = dxPieces s t (globalAddr s t i i.as_) 8 →
      reachOf s who ps = .go → s1 = noteWaits who ps s → r = getPieces true (dxPieces s1 t (globalAddr s t i i.as_) 8) s1 →
      (flagMet i (leNat r.1.bytes) = true →
        exec (.dflagwaitSatisfied t) s = .next (acquire t (charge (tileAt s1 t).cmd r.1 r.2))) ∧
      (flagMet i (leNat r.1.bytes) = false → exec (.dflagwaitSatisfied t) s = .next s1)) ∧
    (∀ v, flagMet i v = (if bit i.flags 5 then decide (v = i.imm) else decide (i.imm ≤ v))) ∧
    (AtHead s t 3 0x14 h →
      (canRelease s t = true → exec (.dfence t) s = .next (repDone t 3 1 s)) ∧
      (canRelease s t = false → exec (.dfence t) s = .next s)))

/-- R135, R245, R249, R406, R407, R504: DDESC sends the 64 bytes at s to the SSQ that IMM names when they are a
descriptor that it takes; others are a job fault; poisoned ones send nothing and leave poisoned words at AD. A leaving
write that its twin has not matched in 100 µs is a mismatch. R239, R241, R247, R249, R250: a bank whose stack has room
takes the run of the first descriptor that names it, with the query block that the SSQ has loaded in its operand buffer;
nothing starts in a stack whose SSQ is off. -/
def Obligations.RunsAreSentAndStart : Prop :=
  (∀ (s : State) (t : Nat) (h : Entry) (i : Ins), i = Ins.of h.word →
    (AtHead s t 3 0x15 h → operandsOk s t 3 i = true → queueFull s (i.imm % 16) = false → (tileAt s t).leaving = [] →
      h.walk = [] → opAddress s t 3 i.as_ % 64 = 0 →
      ∀ g s1, g = localRead t (opAddress s t 3 i.as_).toNat 64 true s → s1 = charge (tileAt s t).cmd g s →
      (g.poisoned ≠ 0 → exec (.ddesc t) s = .next (poisonedDesc t i h s1)) ∧
      (g.poisoned = 0 →
        descOk s1 (tilePartNum s1 t) (i.imm % 16) (bits i.imm 31 16) h.done i.rep
          (openGroup (stackAt s1 (i.imm % 16)) t h.id) g.bytes = true →
        exec (.ddesc t) s = .next (repDone t 3 1 (leave t
          { entry := h.id, rep := h.done, release := false, desc := some (i.imm % 16), address := dTarget g.bytes
            out := (ddescOut s1 t i h).toNat, data := clean g.bytes, since := now s1 } s1))) ∧
      (g.poisoned = 0 →
        descOk s1 (tilePartNum s1 t) (i.imm % 16) (bits i.imm 31 16) h.done i.rep
          (openGroup (stackAt s1 (i.imm % 16)) t h.id) g.bytes = false →
        exec (.ddesc t) s = .next (engFault t 3 s1))) ∧
    (∀ l ls, t < 512 → running s = true → frozen s t = false → (tileAt s t).leaving = l :: ls →
      (l.since + 100000 ≤ now s → exec (.twinMatchTimeout t) s = .next (twinMismatch t s)) ∧
      (now s < l.since + 100000 → exec (.twinMatchTimeout t) s = .next s))) ∧
  (∀ (s : State) (k b : Nat) (d : Desc), k < 16 → b < 8192 → running s = true →
    (stackAt s k).queue.find? (fun d => descBank d.bytes = b) = some d →
    (ssqOn s k = false → exec (.runStart k b) s = .next s) ∧
    (ssqOn s k = true → bankIdle s k b = true → partnerBank d.bytes b = none → spaceHeld (stackAt s k) d.run = true →
      activeIn (stackAt s k) none + 1 ≤ rowBudget (stackAt s k).row →
      activeIn (stackAt s k) (some (b / 256)) + 1 ≤ rowBudget (stackAt s k).row / 32 →
      ∃ u, u = setStack s k { stackAt s k with queue := (stackAt s k).queue.filter fun x => x.run ≠ d.run } ∧
        exec (.runStart k b) s = .next (setBank u k b { bankAt u k b with
          unit := (if d.block = [] then (bankAt u k b).unit else
            { (bankAt u k b).unit with operand := d.block ++ (bankAt u k b).unit.operand.drop d.block.length })
          run := some { number := d.run, group := d.group
                        descs := (stackAt s k).queue.filter fun x => x.run = d.run
                        partials := if dFlight d.bytes = 1 then freshPartials d.bytes else [] } })))

/-- R217, R251 to R261: a pound of the flight at the front of a bank's run flushes the bank's merge entries, reads its
columns, does its work, and leaves the bank in the pound; a pound of another flight, or in a stack whose SSQ is off, does
nothing; the pounds of a flight are its columns in order, cut at the limit of steps. R249, R255, R256, R262,
R263: the lock after a pound serves the bank and goes on with the run; the first group of a stack whose runs have all
ended is merged, its records written, and its merge space is free. -/
def Obligations.PoundsAndLocks : Prop :=
  (∀ (s : State) (k b f : Nat) (c : Instr) (r : Run) (d : Desc) (ds : List Desc), k < 16 → b < 8192 → running s = true →
    (c, f) ∈ [(Instr.attnScore k b, 0), (.attnFull k b, 1), (.scoreDecay k b, 2), (.gemv k b, 3), (.axpy k b, 4),
      (.reduce k b, 5), (.pageCopy k b, 6), (.rowZero k b, 7), (.pageDigest k b, 8)] →
    (bankAt s k b).run = some r → r.descs = d :: ds →
    (dFlight d.bytes ≠ f ∨ r.inPound = true ∨ ssqOn s k = false → exec c s = .next s) ∧
    (∀ s1 ps cols, dFlight d.bytes = f → r.inPound = false → ssqOn s k = true → partnerBank d.bytes b = none →
      dueDesc s d = false → lockOf s k b = [] → s1 = flushBank k b s → ps = poundsOf d.bytes r s1 → ps[r.pound]? = some cols →
      ∃ q img p x, q = colReads (descCmd s1 d) (readsOf cols) s1 ∧ img = (if f = 4 || f = 6 then [] else r.image ++ q.1) ∧
        p = poundWork k d r (bankAt q.2 k b).unit.operand img q.1 cols (r.pound + 1 = ps.length) q.2 ∧ x = bankAt p.2 k b ∧
        exec c s = .next (setBank { p.2 with free := p.2.free + 1 } k b { x with
          run := some { r with pound := r.pound + 1, inPound := true, image := img, partials := p.1 }
          unit := x.unit.after p.2.free q.1 }))) ∧
  (∀ (limit : Nat) (cols : List Col), (packPounds limit cols [] 0).flatten = cols ∧
    ∀ p ∈ packPounds limit cols [] 0, p.length = 1 ∨ (p.map (·.steps)).sum ≤ limit) ∧
  (∀ (s : State) (k : Nat), k < 16 → running s = true →
    (∀ b r d ds, b < 8192 → (bankAt s k b).run = some r → r.descs = d :: ds → r.inPound = true →
      partnerBank d.bytes b = none →
      ∃ u, u = afterPound k b r s ∧ exec (.lock k b) s = .next (drainAll (lockBank k b u))) ∧
    (∀ b, b < 8192 → (bankAt s k b).run = none → exec (.lock k b) s = .next s) ∧
    (∀ b r d ds, r.descs = d :: ds → r.pound < (poundsOf d.bytes r s).length →
      afterPound k b r s = setBank s k b { bankAt s k b with run := some { r with inPound := false } }) ∧
    (∀ g, s.faults.jobFault = none → (stackAt s k).groups.find? (fun g =>
        dFlight g.last.bytes = 1 && g.closed && g.results.length = g.runs.length) = some g →
      ∃ u, u = (List.range (dSlots g.last.bytes).length).foldl (fun s i => putRecord k g (groupRuns g) i s) s ∧
        exec (.mergeGroupResult k) s = .next (setStack u k { stackAt u k with
          groups := (stackAt u k).groups.filter (·.number != g.number) })))

/-- R358, R359, R360, R411: a job fault is recorded and starts the restart; its phases stop every tile, put the stacks
in self-refresh, zero all tile state and the stack queues, and end with the lost commands' replies and the RESTART
cause. R463, R464: a doorbell, whose value is recorded, or a write of WAKE starts the wake of a sleeping module; its
phases power the dies, bring back the stacks and the kept ports, and end with the queues resumed, the recorded
doorbells applied in order and the WOKE cause. -/
def Obligations.RestartsAndWakesRun : Prop :=
  (∀ (s : State) (loc : Nat × Nat × Nat),
    (running s = true → s.faults.jobFault = some loc → exec .jobFault s =
      .next (beginRestart (report 11 loc s.faults.jobFaultCmd 1
        { s with faults := { s.faults with jobFault := none, jobFaultCmd := none } }))) ∧
    (s.boot.vsb = true → s.boot.inReset = false →
      (s.faults.restart = .stop →
        exec .restartStopDone s = .next (setRestart .retain ((List.range 512).foldl stopTile s))) ∧
      (s.faults.restart = .retain → exec .restartRetainDone s = .next (setRestart .reset (refreshSelf true s))) ∧
      (s.faults.restart = .reset → exec .restartResetDone s = .next (setRestart .resume
        ((List.range 16).foldl clearSsq { s with tiles := [], store := { s.store with tile := [], tileMark := [] } }))) ∧
      (s.faults.restart = .resume → ∀ s1, s1 = discardJobs (setRestart .none (refreshSelf false s)) →
        exec .restartReport s = .next (serveAll (settleResets (raise .restart
          ((s1.front.cmds.filter (·.lost)).foldl (fun s c => loseCmd c s)
            (s1.front.queues.foldl (fun s q => answerDups q.1 s) s1)))))))) ∧
  (∀ (s : State), s.boot.vsb = true → s.boot.inReset = false →
    (∀ b, s.boot.pciDown = false → s.boot.ready = true → s.pmu.sleep = .asleep →
      exec (.wake none) s = .next { s with pmu := { s.pmu with sleep := .power } } ∧
      exec (.wake (some b)) s = .next { s with pmu := { s.pmu with sleep := .power }
                                               front := { s.front with bells := s.front.bells ++ [b] } }) ∧
    (s.pmu.sleep = .power → exec .wakePowerDone s = .next (applyVoltage (powerVoltage (setSleep .memory s)))) ∧
    (s.pmu.sleep = .memory → exec .wakeMemoryDone s = .next ((List.range 16).foldl (fun s p =>
      if (portAt s p).kept then setPort s p { portAt s p with state := .training } else s)
      (setSleep .ports (serveAll (refreshSelf false s))))) ∧
    (∀ lost, s.pmu.sleep = .ports → exec (.wakePortsDone lost) s = .next (setSleep .resume
      ((List.range 16).foldl (portAfterWake lost) { s with far := { s.far with
        up0 := s.far.kept0 && !lost.contains 16, up1 := s.far.kept1 && !lost.contains 17
        kept0 := false, kept1 := false } }))) ∧
    (s.pmu.sleep = .resume → exec .wakeResumeDone s = .next (raise .woke (s.front.bells.foldl (fun s b => applyBell b s)
      (setSleep .awake { s with front := { s.front with bells := [] } })))))

/-- R217, R224, R225, R235, R240: an idle bank takes a due refresh and a bank in a pound owes it, at most 4; old merge
buffer entries are flushed; a stack's temperature sets its row and refresh rate; a far link that fails is retrained
once. -/
def Obligations.StacksAndFarLinksAreKept : Prop :=
  ∀ (s : State) (k b : Nat),
    (k < 16 → b < 8192 → (stackAt s k).failed = false → (stackAt s k).selfRefresh = false →
      (stackAt s k).trained = true → exec (.refreshDue k b) s = .next (setBank s k b { bankAt s k b with
        owed := if (bankAt s k b).inPound then min 4 ((bankAt s k b).owed + 1) else 0 })) ∧
    (k < 16 → b < 32 → running s = true → exec (.mergeBufferFlush k b) s =
      .next (flushWhere k (fun e => keyChannel e.line = b && e.since + 2000 ≤ now s) s)) ∧
    (∀ t, k < 16 →
      exec (.stackRowChange k t) s =
        .next (setStack s k { stackAt s k with temp := t, rowTemp := rowFor (stackAt s k).rowTemp t }) ∧
      exec (.refreshRateChange k t) s = .next (setStack s k { stackAt s k with
        temp := t, hot := decide (t > 85) || (!decide (t < 83) && (stackAt s k).hot) })) ∧
    (k < 2 → portUp s k = true →
      exec (.farLinkDown k) s = .next { s with far := setPortUp s.far k false true false }) ∧
    (∀ r, k < 2 → portRetrains s k = true →
      exec (.farLinkRetrainDone k true r) s = .next { s with far := setPortUp s.far k true false r } ∧
      exec (.farLinkRetrainDone k false r) s =
        .next (raise .farDown { s with far := setPortUp s.far k false false false }))

/-- R309, R312, R313, R319: CUSTOMER-SET sets a budget, a claimed customer's level to its burst; REQUEST-OPEN gives
the lowest free request number (log 22) with its targets and its table, empty or of its prefix set; REQUEST-CLOSE
waits for the step that runs the request, then frees it. -/
def Obligations.RequestsOpenAndClose : Prop :=
  ∀ (s : State) (id : Nat) (c : Cmd),
    (Runs s 0x0401 id c → Finds c s (customerChk s c) () [] → exec (.customerSet id) s = .next (doneCmd c.id 0
      (setCustomer s (c.at 16 2) (setBudget c (customerAt s (c.at 16 2)) (now s))))) ∧
    (∀ t ps n s1, Runs s 0x0402 id c → Finds c s (openChk s c) t ps → n = freeRequest (touch c ps s) →
      s1 = setRequest (touch c ps s) n { customer := c.at 16 2, adopting := bit (c.at 36 1) 0, part := c.part, job := c.job
                                         prefixSet := c.at 18 2, firstTarget := c.at 20 4, betweenTarget := c.at 24 4
                                         table := t.off } →
      (bit (c.at 36 1) 0 = true → exec (.requestOpen id) s = .next (doneCmd c.id n s1)) ∧
      (bit (c.at 36 1) 0 = false → tabFind (poolAt s1 c.part).sets (c.at 18 2) = none →
        exec (.requestOpen id) s = .next (doneCmd c.id n ({ t with set := 0xFFFF }.write s1))) ∧
      (∀ x, bit (c.at 36 1) 0 = false → tabFind (poolAt s1 c.part).sets (c.at 18 2) = some x →
        exec (.requestOpen id) s = .next (doneCmd c.id n (applySet t (c.at 18 2) x s1)))) ∧
    (Runs s 0x0403 id c →
      (stepRunHolds s c [c.at 16 4] = true → exec (.requestClose id) s = .next (waitCmd c.id s)) ∧
      (∀ r s1 s2, stepRunHolds s c [c.at 16 4] = false → s1 = resumeCmd c.id s → Finds c s1 (closeChk s1 c) () [] →
        requestAt s1 (c.at 16 4) = some r →
        c.Reads (closeReads (c.at 16 4) s1) s1 s2 →
        exec (.requestClose id) s = .next (doneCmd c.id 0 (closeRequest (c.at 16 4) s2))))

/-- R314, R315, R322 to R333: SUBMIT-CHUNK queues a chunk, a turn end with its effect; STEP-PLAN refills, plans and
writes its manifest; STEP-RUN waits, then reserves its positions and launches its program on the manifest; once every
tile has finished, the step is settled from the manifest. -/
def Obligations.StepsAreRun : Prop :=
  ∀ (s : State) (id : Nat) (c : Cmd),
    (∀ r ps, Runs s 0x0404 id c → Finds c s (chunkChk s c) r ps → exec (.submitChunk id) s =
      .next (doneCmd c.id 0 (if c.at 20 2 = 0 then touch c ps s else setRequest (touch c ps s) (c.at 16 4) (r.submit
        { positions := c.at 20 2, input := c.addr 24, submitted := c.start, turnEnd := bit (c.at 22 1) 0 })))) ∧
    (Runs s 0x0405 id c → Finds c s (planChk s c) () [] →
      (c.at 28 2 = 0 → exec (.stepPlan id) s = .next (doneCmd c.id 0 s)) ∧
      (∀ s1 r, c.at 28 2 ≠ 0 → c.Reaches (c.pieces s (c.addr 16) (64 + 32 * c.at 28 2)) s s1 → r = stepPlan c s1 →
        exec (.stepPlan id) s = .next (doneCmd c.id r.1.entries.length (c.store (c.addr 16) (clean (r.1.bytes c.part))
          { r.2 with serve := { r.2.serve with manifests := tabPut r.2.serve.manifests c.part r.1 } })))) ∧
    (∀ p k m s1, Runs s 0x0406 id c → c.tiles = [] →
      (runOf s c.id = some (k, m) ∧ programAt s (c.at 16 4) = some p ∧ s1 = s ∨
        ∃ m0, runOf s c.id = none ∧ Finds c s (stepRunChk s c) (p, m0) [] ∧ k = c.part ∧
          m = { m0 with used := true, cmd := c.id } ∧ s1 = setRunning k m { s with serve := { s.serve with
            manifests := tabPut s.serve.manifests k m } }) →
      (stepWaits s1 c p m = true → exec (.stepRun id) s = .next (waitCmd c.id s1)) ∧
      (∀ s2 ts, stepWaits s1 c p m = false → s2 = resumeCmd c.id s1 → ts = stepTables k m s2 →
        (rowHeld (ts.flatMap (·.copies s2)) s2 = true → exec (.stepRun id) s = .next s2) ∧
        (∀ s3 s4 m' s5, rowHeld (ts.flatMap (·.copies s2)) s2 = false → c.Reaches (c.pieces s2 m.address m.span) s2 s3 →
          c.Reads (ts.flatMap (·.reads s2)) s3 s4 → reserve c k m s4 = .ok (m', s5) →
          exec (.stepRun id) s = .next (stepLaunch c p m' s5)))) ∧
    (∀ k m, Runs s 0x0406 id c → c.tiles = [] → runOf s c.id = some (k, m) → programAt s (c.at 16 4) = none →
      exec (.stepRun id) s = .next (rejectCmd c.id (c.bad 16) (releaseStep k m s))) ∧
    (∀ p m, Runs s 0x0406 id c → c.tiles ≠ [] → c.tiles.any (fun t => (tileAt s t).running) = false →
      runOf s c.id = some (p, m) →
      (rowHeld (m.sealed p s) s = true → exec (.stepRunSettle id) s = .next s) ∧
      (∀ s1 s2, rowHeld (m.sealed p s) s = false → c.Reaches (c.pieces s m.address m.span) s s1 →
        c.Reads (digestPieces (poolAt s1 p).desc (m.sealed p s1)) s1 s2 →
        exec (.stepRunSettle id) s = .next (settleStep c p m s2)))

/-- R286, R291 to R295, R306, R308: FORK-SEQUENCE shares every page and gives each one owner more; EDIT-PAGES applies
its edits in order; EVICT clears the positions it chooses; COMPACT packs every pair, or finds no page and rejects with
BUSY; ADOPT-PAGES verifies every pair and reports the pages that failed. Each first waits for the steps that name its
requests. R233, R303, R304: DEMOTE moves the unshared valid pages of its range out to the far pool and answers how
many; PROMOTE reads them back, answers how many and reports the pages that failed, or rejects with BUSY where no page
is free. A count of 0 ends DONE 0 once the request is found, with no table read (R58; the order is log 66). -/
def Obligations.PageTablesAreEdited : Prop :=
  (∀ (s0 s : State) (id : Nat) (c : Cmd), stepRunHolds s0 c c.names = false → s = resumeCmd c.id s0 →
    (∀ t u ps s1 rs, Runs s0 0x0407 id c → Finds c s (forkChk s c) (t, u) ps →
      c.Reads (t.reads (touch c ps s)) (touch c ps s) s1 → rs = tableRecords t (pairs (poolAt s1 c.part).desc) s1 →
      exec (.forkSequence id) s0 = .next (doneCmd c.id rs.length (({ u with
        used := t.used, next := t.next, set := t.set, setPositions := t.setPositions } : PTab).write
        (rs.foldl (fun s r => addOwner c.part r s)
          ((List.range (pairs (poolAt s1 c.part).desc)).foldl (fun s q => forkPair t u q s) s1))))) ∧
    (∀ t es ps s1, Runs s0 0x0408 id c → c.at 32 4 ≠ 0 → Finds c s (editChk s c) (t, es) ps →
      s1 = touch c ps s →
      (∀ s2, c.Reads (t.reads s1 ++ recPieces c.part ((es.filter (·.op = 0)).map fun e => entRecord e.entry) s1)
          s1 s2 → exec (.editPages id) s0 =
        .next (doneCmd c.id es.length (t.fixUsed (es.foldl (fun s e => e.apply t s) s2))))) ∧
    (∀ r t ps s2 s3 s1 out, Runs s0 0x0409 id c → Finds c s (requestChk s c 16) (r, t) ps → s2 = touch c ps s →
      c.Reads (t.reads s2 ++ maskPieces t s2) s2 s3 → c.Scans (scorePieces t s3) s3 s1 →
      out = (List.range (pairs (poolAt s1 c.part).desc)).map (fun q =>
        (q, evicted (pairLive t q s1) (c.at 20 4) (c.at 24 2) (c.at 26 2))) →
      exec (.evict id) s0 = .next (doneCmd c.id (out.map fun x => x.2.length).sum
        (out.foldl (fun s x => clearLive t x.1 x.2 s) s1))) ∧
    (∀ r t ps s1, Runs s0 0x040A id c → Finds c s (requestChk s c 16) (r, t) ps → s1 = touch c ps s →
      (compactAll t (pairs (poolAt s1 c.part).desc) s1 = none →
        exec (.compact id) s0 = .next (rejectCmd c.id .busy s1)) ∧
      (∀ n s2, compactAll t (pairs (poolAt s1 c.part).desc) s1 = some (n, s2) →
        (rowHeld (newlyFull t s1 s2) s1 = true → exec (.compact id) s0 = .next s1) ∧
        (∀ s3 n3 s4, rowHeld (newlyFull t s1 s2) s1 = false →
          c.Reads (t.reads s1 ++ scanPieces t s1 ++ vectorPieces t s1) s1 s3 →
          compactAll t (pairs (poolAt s3 c.part).desc) s3 = some (n3, s4) →
          exec (.compact id) s0 = .next (doneCmd c.id n3.toNat (t.fixUsed s4))))) ∧
    (∀ r t ps s1, Runs s0 0x0411 id c → Finds c s (adoptChk s c) (r, t) ps → s1 = touch c ps s →
      rowHeld (t.allPages s1) s1 = true → exec (.adoptPages id) s0 = .next s1) ∧
    (∀ r t ps s1 s2 d z, Runs s0 0x0411 id c → Finds c s (adoptChk s c) (r, t) ps → s1 = touch c ps s →
      d = (poolAt s1 c.part).desc → rowHeld (t.allPages s1) s1 = false →
      c.Scans (t.reads s1 ++ pagePieces (t.allPages s1) 0 16 ++ digestPieces d (t.allPages s1)) s1 s2 →
      z = (List.range (pairs d)).foldl (fun (a : Nat × Nat × State) q =>
        let y := adoptPair t q (t.used + 1) 0 a.2.2
        (a.1 + y.1, a.2.1 + y.2.1, y.2.2)) (0, 0, s2) →
      exec (.adoptPages id) s0 = .next (finishCmd c.id
        (.done z.1 :: if z.2.1 = 0 then [] else [⟨0x30, 4, z.2.1⟩])
        (setRequest (({ t with
          used := t.highest d z.2.2 t.used
          next := if pairs d = 0 then 0
            else (List.range (pairs d)).foldl (fun a q => min a (pairNext t q z.2.2)) (2 ^ 32) % 2 ^ 32 } : PTab).write z.2.2)
          (c.at 16 4) { r with adopting := false })))) ∧
  (∀ (s0 s : State) (id : Nat) (c : Cmd), stepRunHolds s0 c c.names = false → s = resumeCmd c.id s0 →
    ∀ r t ps s1 d places, Finds c s (requestChk s c 16) (r, t) ps → s1 = touch c ps s → d = (poolAt s1 c.part).desc →
      places = rangePlaces t (pairs d) (c.at 20 4) (c.at 24 4) →
      (∀ pages s2, Runs s0 0x040F id c → c.at 24 4 ≠ 0 →
        pages = ((places.map fun x => t.get x.1 x.2 s1).filter entValid).map entPage →
        c.Reads (t.reads s1 ++ pagePieces pages 0 d.pageBytes) s1 s2 →
        exec (.demote id) s0 = .next (c.moves d (places.foldl (fun a x => demoteOne t x a) ({}, s2)) s1)) ∧
      (∀ s2, Runs s0 0x040E id c → c.at 24 4 ≠ 0 → c.Reads (t.reads s1) s1 s2 →
        exec (.promote id) s0 = .next (c.moves d (places.foldl (fun a x => promoteOne t c.id x a) ({}, s2)) s1))) ∧
  (∀ (s0 s : State) (id : Nat) (c : Cmd), stepRunHolds s0 c c.names = false → s = resumeCmd c.id s0 →
    ∀ r ps, Finds c s (namedChk s c 16) r ps →
      (Runs s0 0x0408 id c → c.at 32 4 = 0 → exec (.editPages id) s0 = .next (doneCmd c.id 0 (touch c ps s))) ∧
      (Runs s0 0x040F id c → c.at 24 4 = 0 → exec (.demote id) s0 = .next (doneCmd c.id 0 (touch c ps s))) ∧
      (Runs s0 0x040E id c → c.at 24 4 = 0 → exec (.promote id) s0 = .next (doneCmd c.id 0 (touch c ps s)))) ∧
  (∀ (c : Cmd) (d : PoolDesc) (n bad : Nat) (z s : State),
    c.moves d (⟨n, bad, none⟩, z) s = finishCmd c.id (.done n :: if bad = 0 then [] else [⟨0x30, 4, bad⟩]) z ∧
    (bad = 0 → c.moves d (⟨n, bad, some .full⟩, z) s = rejectCmd c.id .busy s) ∧
    (bad ≠ 0 → c.moves d (⟨n, bad, some .full⟩, z) s = finishCmd c.id [.busy, ⟨0x30, 4, bad⟩]
      { s with faults := z.faults, irq := z.irq, front := z.front, far := z.far }) ∧
    c.moves d (⟨n, bad, some .dead⟩, z) s = finishCmd c.id [.timeout (n * d.pageBytes)] z ∧
    c.moves d (⟨n, bad, some .wait⟩, z) s = s)

/-- R297 to R302, R305: PREFIX-LOOKUP attaches the matched nodes in order and answers 64 positions for each;
PREFIX-INSERT adds nodes under the request's root; LOAD-PREFIX-SET installs the set's pages, drops the set it
replaces, and rejects with BUSY where no page can be had (log 21). -/
def Obligations.PrefixesAreShared : Prop :=
  ∀ (s : State) (id : Nat) (c : Cmd),
    (∀ s0 r t hs ps s1 root path seen, s = resumeCmd c.id s0 → Runs s0 0x040B id c → stepRunHolds s0 c c.names = false →
      c.at 32 4 ≠ 0 → Finds c s (lookupChk s c) (r, t, hs) ps → s1 = touch c ps s → root = rootOf t.set →
      path = matchPath c.part (poolAt s1 c.part).desc.nodes s1 hs root →
      seen = root :: pathScanned c.part (poolAt s1 c.part).desc.nodes s1 hs root →
      (∀ es groups s2 n stop u s3 s4, es = path.flatMap (fun i => groupEntries c.part (getNode c.part i s1) s1) →
        groups = path.flatMap (fun i => viewPieces c.part (getNode c.part i s1).group
          (8 * (pairs (poolAt s1 c.part).desc * (poolAt s1 c.part).desc.blockPages)) s1) →
        c.Reads (nodePieces c.part seen s1 ++ groups ++ recPieces c.part (es.map entRecord) s1) s1 s2 →
        attachAll c.id path t (path.foldl (fun s i => hitNode c.part i s) (passNode c.part root s2)) = (n, stop, u, s3) →
        s4 = ({ u with list := c.at 24 8, listCount := c.at 32 4 } : PTab).write s3 →
        (stop = none → exec (.prefixLookup id) s0 = .next (doneCmd c.id (64 * n) s4)) ∧
        (stop = some .full → exec (.prefixLookup id) s0 = .next (doneCmd c.id (64 * n) s4)) ∧
        (stop = some .bad → exec (.prefixLookup id) s0 = .next (finishCmd c.id [.done (64 * n), ⟨0x30, 4, 1⟩] s4)) ∧
        (stop = some .dead → exec (.prefixLookup id) s0 = .next (finishCmd c.id [.timeout (64 * n)] s4)) ∧
        (stop = some .wait → exec (.prefixLookup id) s0 = .next s1))) ∧
    (∀ s0 r ps, s = resumeCmd c.id s0 → Runs s0 0x040B id c → stepRunHolds s0 c c.names = false → c.at 32 4 = 0 →
      Finds c s (namedChk s c 16) r ps → exec (.prefixLookup id) s0 = .next (doneCmd c.id 0 (touch c ps s))) ∧
    (∀ r ps, Runs s 0x040C id c → c.at 24 4 = 0 → Finds c s (namedChk s c 16) r ps →
      exec (.prefixInsert id) s = .next (doneCmd c.id 0 (touch c ps s))) ∧
    (∀ r t hs ps s1 root seen, Runs s 0x040C id c → c.at 24 4 ≠ 0 → Finds c s (insertChk s c) (r, t, hs) ps →
      s1 = touch c ps s → root = rootOf t.set → seen = root :: pathScanned c.part (poolAt s1 c.part).desc.nodes s1 hs root →
      (∀ s2 z, c.Reads (nodePieces c.part seen s1 ++ t.reads s1 ++ scanPieces t s1) s1 s2 →
        z = insertFrom t hs 0 root [root] (passNode c.part root s2) →
        exec (.prefixInsert id) s = .next (doneCmd c.id z.1 z.2))) ∧
    (∀ x ks ps s1, Runs s 0x040D id c → Finds c s (setChk s c) (x, ks) ps → s1 = touch c ps s →
      (installPages c.id c.part ks s1 = none → exec (.loadPrefixSet id) s = .next (rejectCmd c.id .busy s1)) ∧
      (∀ y, installPages c.id c.part ks s1 = some y →
        (rowHeld (ks.map entPage) s1 = true → exec (.loadPrefixSet id) s = .next s1) ∧
        (∀ s2 es s3, rowHeld (ks.map entPage) s1 = false →
          c.Reads (digestPieces (poolAt s1 c.part).desc (ks.map entPage)) s1 s2 →
          (installPages c.id c.part ks s2 = none → exec (.loadPrefixSet id) s = .next (rejectCmd c.id .busy s2)) ∧
          (installPages c.id c.part ks s2 = some (es, s3) → exec (.loadPrefixSet id) s =
            .next (doneCmd c.id es.length (replaceSet c.part (c.at 16 2) { x with entries := es } s3))))))

/-- R335 to R337: SHIP-KV to a request of this module lands every page at once, and a poisoned page or a failed
landing leaves nothing there; a shipment that arrives is admitted, landed and answered; the destination's reply ends
the command (the two ends' messages: log 41). -/
def Obligations.ShipmentsLand : Prop :=
  ∀ (s : State) (id : Nat) (c : Cmd),
    (Runs s 0x0410 id c → 2 ≤ c.progress → exec (.shipKv id) s = .next s) ∧
    (∀ s0 r t ps s1, Runs s0 0x0410 id c → c.progress < 2 → stepRunHolds s0 c c.names = false → s = resumeCmd c.id s0 →
      Finds c s (shipChk s c) (r, t) ps → s1 = touch c ps s →
      (c.at 20 2 ≠ ownNode s1 → c.at 20 2 ≠ 0xFFFF → exec (.shipKv id) s0 = .next (shipAway c r t s1)) ∧
      (∀ s2 s3 g, (c.at 20 2 = ownNode s1 ∨ c.at 20 2 = 0xFFFF) → c.Reads (t.reads s1) s1 s2 →
        c.Reaches (pagePieces (t.allPages s2) 0 (poolAt s2 c.part).desc.pageBytes) s2 s3 → g = gather c r t s3 →
        (g.1.pages.any (·.poisoned) = true → exec (.shipKv id) s0 = .next (finishCmd c.id [] g.2)) ∧
        (g.1.pages.any (·.poisoned) = false →
          (land c.part g.1 g.2 = none → exec (.shipKv id) s0 = .next s1) ∧
          (∀ l, land c.part g.1 g.2 = some l →
            (l.1.status = 0x11 ∨ l.1.status = 0x16 → exec (.shipKv id) s0 = .next (rejectCmd c.id l.1 l.2)) ∧
            (l.1.status ≠ 0x11 → l.1.status ≠ 0x16 → exec (.shipKv id) s0 = .next (finishCmd c.id [l.1] l.2)))))) ∧
    (running s = true →
      (∀ x p, shipPart x s = some p → land p x s = none → exec (.shipKvDestComplete (.arrived x)) s = .next s) ∧
      (∀ x p r, shipPart x s = some p → land p x s = some r → exec (.shipKvDestComplete (.arrived x)) s =
        .next (sendTow x.node (toLe 4 11 ++ toLe 8 x.cmd ++ toLe 1 r.1.status ++ toLe 1 r.1.detail) r.2)) ∧
      (∀ x, shipPart x s = none → exec (.shipKvDestComplete (.arrived x)) s = .next (sendTow x.node
        (toLe 4 11 ++ toLe 8 x.cmd ++ toLe 1 Mark.notPermitted.status ++ toLe 1 Mark.notPermitted.detail) s)) ∧
      (∀ st dt, Runs s 0x0410 id c → 2 ≤ c.progress → exec (.shipKvDestComplete (.replied id st dt)) s =
        .next (finishCmd id [⟨st, dt, if st = 0 then c.progress - 2 else 0⟩] s)))

/-- R409, R411, R413, R414: REGISTER-WEIGHTS digests its pages against its block and answers a handle (log 22);
UNREGISTER-WEIGHTS forgets it; VERIFY-WEIGHTS answers the pages that mismatched and reports those that stay bad; a
finished page repair runs its waiting commands again, or counts as failed. -/
def Obligations.WeightsAreRegistered : Prop :=
  ∀ (s : State) (id : Nat) (c : Cmd),
    (Runs s 0x0501 id c →
      (c.at 24 8 = 0 → exec (.registerWeights id) s = .next (doneCmd c.id 0 s)) ∧
      (∀ n block ps s1 r, c.at 24 8 = n → n ≠ 0 → Finds c s (registerChk s c) block ps →
        c.Reaches (c.pieces (touch c ps s) (c.addr 16) n) (touch c ps s) s1 →
        r = digestPages c (c.addr 16) n (List.range (pageCount n)) s1 →
        ((cmdAt r.2 c.id).any (fun x => x.poisoned ≠ 0) = true →
          exec (.registerWeights id) s = .next (finishCmd c.id [] r.2)) ∧
        ((cmdAt r.2 c.id).any (fun x => x.poisoned ≠ 0) = false →
          (block ≠ digestBytes (Config.sha384 r.1.flatten) ++ r.1.flatten →
            exec (.registerWeights id) s = .next (finishCmd c.id [.badParam 32] r.2)) ∧
          (block = digestBytes (Config.sha384 r.1.flatten) ++ r.1.flatten →
            exec (.registerWeights id) s = .next (doneCmd c.id (freeHandle r.2) { r.2 with
              weights := insertBy (fun x y => x.handle < y.handle)
                ⟨freeHandle r.2, c.part, c.addr 16, n, c.addr 32, c.addr 40, Config.sha384 r.1.flatten⟩ r.2.weights }))))) ∧
    (∀ w, Runs s 0x0502 id c → weightAt s (c.at 16 4) = some w → w.part = c.part →
      exec (.unregisterWeights id) s = .next (doneCmd c.id 0 { s with
        weights := s.weights.filter (·.handle != w.handle)
        faults := { s.faults with repairing := s.faults.repairing.filter (·.1 != w.handle) } })) ∧
    (∀ w block ps s1 s2 z, Runs s 0x0503 id c → Finds c s (verifyChk s c) (w, block) ps → s1 = touch c ps s →
      c.Reaches (c.pieces s1 w.address w.bytes) s1 s2 → verifyPages c w block (List.range (pageCount w.bytes)) s2 = z →
      (∀ b, z = .error b → exec (.verifyWeights id) s = .next s1) ∧
      (∀ miss bad s3, z = .ok (miss, bad, s3) → exec (.verifyWeights id) s = .next (finishCmd c.id
        (.done miss :: if bad = 0 then [] else [⟨0x30, if w.backing = 0 then 4 else 3, miss⟩]) s3))) ∧
    (∀ h p ids w s1, running s = true →
      ids = (s.faults.repairing.filter fun r => r.1 = h && r.2.1 = p) → ids ≠ [] →
      s1 = { s with faults := { s.faults with repairing := s.faults.repairing.filter fun r => !(r.1 = h && r.2.1 = p) } } →
      weightAt s h = some w →
      (∀ g s2, blockDigest w p s1 = .ok (g, s2) →
        (∀ s3, repairPage w p g s2 = .ok s3 →
          exec (.weightPageRepair h p true) s = .next (retryReaders (ids.filterMap (·.2.2)) s3)) ∧
        (repairPage w p g s2 = .error .wait → exec (.weightPageRepair h p true) s = .next s)) ∧
      (blockDigest w p s1 = .error .wait → exec (.weightPageRepair h p true) s = .next s) ∧
      (∀ answers, answers = false ∨ (∃ b, b ≠ .wait ∧ (do let (g, s) ← blockDigest w p s1; repairPage w p g s) = .error b) →
        exec (.weightPageRepair h p answers) s = .next ((ids.filterMap (·.2.2)).foldl (fun s id =>
          updCmd id (fun x => if x.due = some 3 then { x with due := none } else x) s) (repairFailed s1))))

/-- R393, R394, R404, R416 to R421: a hang of a unit that can hang is recorded and times its command out; a bad word in
the Lockkeeper's or a helper's state is recorded as class 13, which restarts the module (log 17); a record is
exported once, to the collector or here; FAULT-LOG writes the whole records that fit; FAULT-RESPONSE-LOAD replaces
the entries of the classes it names; GUARD-BAND-LOAD replaces the partition's bands. R56, R57, R58: IDENT-READ
writes the first 512 bytes of the IDENT block as one host would read them, and answers 512. -/
def Obligations.FaultsAreReported : Prop :=
  (∀ (s : State) (id : Nat) (c : Cmd),
    (running s = true →
      (∀ u, hangReal u = true → canHang s u = true →
        exec (.unitHang u none) s = .next (report 9 (hangLoc u) none 1 s)) ∧
      (∀ u h, hangReal u = true → canHang s u = false → exec (.unitHang u h) s = .next s) ∧
      (∀ n, cmdAt s n = none → exec (.commandRetry n 13) s = .next
        (report 13 (5, Config.helperUnit s.free % 6, 0) none 1 { s with free := s.free + 1 })) ∧
      (∀ u s1, hangReal u = true → canHang s u = true → cmdAt s id = some c → c.phase = .started → c.on s u = true →
        c.id = id →
        s1 = report 9 (hangLoc u) (some c.id) 1 s → s1.faults.restart = .none →
        (cmdAt s1 c.id).any (fun x => x.due = some 9) = false →
        exec (.unitHang u (some id)) s = .next (timeoutEnd c (c.tiles.foldl stopTile
          (haltFlights (fun d => d.dests.any fun x => c.tiles.contains x.tile) s1)))) ∧
      (∀ r s1, s.faults.collectorOn = true →
        s.faults.records.find? (fun r => !r.exported && (responseOf s r.cls).exportIt) = some r →
        s1 = { s with faults := { s.faults with
          records := updWhere (·.number == r.number) (fun x => { x with exported := true }) s.faults.records } } →
        (s.faults.collectorNode.toNat = ownNode s →
          exec .faultRecordExport s = .next (collect (recordBytes s r) s1)) ∧
        (s.faults.collectorNode.toNat ≠ ownNode s →
          exec .faultRecordExport s = .next (sendTow s.faults.collectorNode.toNat
            (toLe 4 10 ++ toLe 2 (recordBytes s r).length ++ recordBytes s r) s1))) ∧
      (∀ b all, all = s.faults.collected ++ [b] → exec (.faultRecordReceive b) s = .next { s with faults := { s.faults with
        collected := all.drop (all.length - 4096), collectedNext := s.faults.collectedNext + 1 } })) ∧
    (Runs s 0x0902 id c →
      (c.at 24 4 = 0 → exec (.faultLog id) s = .next (doneCmd c.id 0 s)) ∧
      (∀ n s1 rs, c.at 24 4 = n → n ≠ 0 → Finds c s (c.checkRanges s [(16, c.addr 16, n)]) () [] →
        c.Admitted s [(c.addr 16, n, true)] → c.Reaches (c.pieces s (c.addr 16) n) s s1 →
        rs = fitting n (logFrom s1 (c.at 28 4)) →
        exec (.faultLog id) s = .next (doneCmd c.id rs.length (c.writeAt (c.addr 16) (clean rs.flatten) s1)))) ∧
    (Runs s 0x0903 id c →
      (c.at 24 2 = 0 → exec (.faultResponseLoad id) s = .next (doneCmd c.id 0 s)) ∧
      (∀ es ps s1, c.at 24 2 ≠ 0 → Finds c s (responseChk s c) es ps → s1 = touch c ps s →
        exec (.faultResponseLoad id) s = .next (doneCmd c.id es.length { s1 with faults := { s1.faults with
          responses := es.foldl (fun t e => tabPut t e.1 e.2) s1.faults.responses } }))) ∧
    (∀ es ps s1, Runs s 0x0904 id c → Finds c s (guardChk s c) es ps → s1 = touch c ps s →
      exec (.guardBandLoad id) s =
        .next (doneCmd c.id es.length (setPart s1 c.part { partAt s1 c.part with guards := es })))) ∧
  (∀ (s : State) (id : Nat) (c : Cmd), Runs s 0x0901 id c → c.at 16 8 % 64 = 0 →
    Finds c s (c.checkRanges s [(16, c.addr 16, 512)]) () [] → c.Admitted s [(c.addr 16, 512, true)] →
    reachOf s (.command c.id) (c.pieces s (c.addr 16) 512) = .go →
    ∀ s1, s1 = noteWaits (.command c.id) (c.pieces s (c.addr 16) 512) s →
      exec (.identRead id) s = .next (doneCmd c.id 512 (c.put (c.addr 16)
        (clean ((List.range 128).flatMap fun i => toLe 4 (identValue (4 * i) s1))) s1)))

/-- R362, R365 to R368, R370, R376: a trained port sends HAIL under a fresh key; a verified peer brings the link up
with its keys and credit, and one that is not verified is refused; a port that is silent for 1 ms goes down; a retrain
resends or goes down; the peer's rekey message sets the next keys and is answered. -/
def Obligations.PortsComeUpAndGoDown : Prop :=
  ∀ (s : State) (p : Nat) (x : Port), p < 16 → linksOn s = true → portPresent s p = true → x = portAt s p →
    (∀ rt, x.state = .training ∨ x.state = .down →
      exec (.portTrained p rt) s = .next (sendHail p (setPort s p { x with
        state := .hailing, roundTrip := rt, lanes := 15, heard := now s, ephemeral := Config.ephemeral p (now s) }))) ∧
    (∀ h, Config.peerVerified h.chain h.ephemeral h.signature = true →
      (x.state = .hailing → exec (.hailReceive p h) s = .next (linkUp p x h s)) ∧
      (x.state = .up → h.serial = x.peerSerial →
        exec (.hailReceive p h) s = .next (setPort s p { x with peerNode := h.node, heard := now s }))) ∧
    (∀ h, Config.peerVerified h.chain h.ephemeral h.signature = false → x.state = .hailing →
      exec (.hailReceive p h) s = .next (setPort s p { x with state := .refused })) ∧
    (x.state = .up ∧ x.retraining = false ∨ x.state = .hailing →
      (x.heard + 1000000 ≤ now s → exec (.portSilenceTimeout p) s = .next (goDown p s)) ∧
      (now s < x.heard + 1000000 → exec (.portSilenceTimeout p) s = .next s)) ∧
    (x.retraining = true →
      exec (.portRetrainDone p true) s = .next (setPort s p { x with
        retraining := false, heard := now s, resend := x.replay.map (·.flit) }) ∧
      (∀ t, t = goDown p s → exec (.portRetrainDone p false) s = .next (setPort { t with free := t.free + 1 } p
        { portAt t p with lanes := Config.lanesTrained t.free }))) ∧
    (∀ pk k own, x.state = .up → own = (if x.rekeying then x.ephemeral else Config.ephemeral p (now s)) →
      k = newKeys own pk s.fuse.serial x.peerSerial (!x.tx.epoch) (!x.rx.epoch) →
      (x.rekeying = true → x.awaitKey = true → exec (.rekeyMessageReceive p pk) s = .next (setPort s p { x with
        rekeying := true, awaitKey := false, ephemeral := own, nextTx := some k.1, nextRx := some k.2 })) ∧
      (x.rekeying = false → exec (.rekeyMessageReceive p pk) s = .next (towPeer p (rekeyMsg own) (setPort s p { x with
        rekeying := true, awaitKey := false, ephemeral := own, nextTx := some k.1, nextRx := some k.2 }))))

/-- R363, R364, R368, R369, R371: a flit that is to be resent goes first, else a new one while the replay buffer has
room; a received flit whose CRC fails is answered with a negative acknowledgement, and one that is right is
acknowledged, checked and delivered. -/
def Obligations.FlitsAreExchanged : Prop :=
  ∀ (s : State) (p : Nat) (x : Port), p < 16 → linksOn s = true → portPresent s p = true → x = portAt s p → x.state = .up →
    x.retraining = false →
    (∀ f fs, x.resend = f :: fs → exec (.flitTransmit p) s = .next (setPort s p { x with
      resend := fs, sent := [f], crcRetry := satAdd x.crcRetry 1, resent := satAdd x.resent 1 })) ∧
    (x.resend = [] → x.replay.length < 1024 → exec (.flitTransmit p) s = .next (sendNew p s)) ∧
    (∀ f fec y, f.length = 256 → y = { x with
        fecCorr := satAdd x.fecCorr fec, fecTotal := satAdd x.fecTotal fec, heard := now s } →
      (field f 248 8 ≠ crc64 (f.take 248) →
        exec (.flitReceive p f fec) s = .next (setPort s p { y with nak := true })) ∧
      (field f 248 8 = crc64 (f.take 248) →
        (field f 0 1 / 4 % 4 = 3 → exec (.flitReceive p f fec) s = .next (setPort s p y)) ∧
        (field f 0 1 / 4 % 4 ≠ 3 → exec (.flitReceive p f fec) s = .next (goodFlit p f (setPort s p y)))))

/-- R369: a flit in order with a correct CRC and a wrong tag is counted in TAG_FAIL, takes the port down and sets
LINK_AUTH; nothing of it is delivered. -/
def Obligations.WrongTagsTakePortsDown : Prop :=
  ∀ (s : State) (p fec : Nat) (f : List Byte) (x : Port), p < 16 → linksOn s = true → portPresent s p = true →
    x = portAt s p → x.state = .up → x.retraining = false → f.length = 256 → field f 248 8 = crc64 (f.take 248) →
    field f 0 1 / 4 % 4 ≠ 3 → BitVec.ofNat 16 (field f 2 2) = x.rxNext →
    (∀ k, rxKey x (bit (field f 0 1) 4) = some k →
      (f.drop 232).take 16 ≠ gcmTagBytes k.key k.nonce (f.take 8) ((f.drop 8).take 224)) →
    ∃ t, exec (.flitReceive p f fec) s = .next t ∧ (portAt t p).tagFail = satAdd x.tagFail 1 ∧
      (portAt t p).state = .down ∧ t.irq.security.cause.getLsbD 0 = true ∧
      (portAt t p).rxq = x.rxq.map (fun bs => wholeMsgs bs.length bs) ∧ t.store = s.store

/-- R79 to R82, R385, R386: a reference edge adds 9, 10 or 11 ns; a PPS edge is recorded and sets the lock, which
lapses; the exchange asks the time parent, answers a neighbour and slews the offset that a reply shows (rounded down,
log 42). -/
def Obligations.DeviceTimeAdvances : Prop :=
  ∀ (s : State),
    (s.boot.vsb = true →
      exec .referenceClockEdge s = .next (accrue (edgeStep s.time) { s with time := s.time.edge }) ∧
      (∀ e l, e = (now s : Int) - s.time.ppsLast.toNat - 1000000000 →
        l = (s.time.ppsSeen && decide (-1000 ≤ e) && decide (e ≤ 1000)) →
        ∀ s1, s1 = { s with time := { s.time with ppsLast := s.time.now, ppsSeen := true, ppsLock := l } } →
        (l = true → timeParent s1 = none → exec .ppsEdge s = .next (startSlew (Config.ppsSlew e) s1)) ∧
        (l = false ∨ (timeParent s1).isSome = true → exec .ppsEdge s = .next s1))) ∧
    (s.time.slewLeft = 0 → edgeStep s.time = 10) ∧
    (999 ≤ s.time.sinceSlew → (0 < s.time.slewLeft → edgeStep s.time = 11) ∧ (s.time.slewLeft < 0 → edgeStep s.time = 9)) ∧
    (s.time.ppsLock = true → (now s : Int) - s.time.ppsLast.toNat - 1000000000 > 1000 →
      exec .ppsLockLapse s = .next { s with time := { s.time with ppsLock := false } }) ∧
    (linksOn s = true →
      (s.fabric.node = none ∨ (isReference s = false ∧ timeParent s = none) →
        exec .timeExchangeTick s = .next { s with time := { s.time with synced := false, asked := false } }) ∧
      (s.fabric.node ≠ none → isReference s = true → exec .timeExchangeTick s =
        .next { s with time := { s.time with synced := true, asked := false, offset := 0 } }) ∧
      (∀ p, s.fabric.node ≠ none → isReference s = false → timeParent s = some p → exec .timeExchangeTick s =
        .next (sendTow (onePort p) timeRequestBytes
          { s with time := { s.time with synced := s.time.synced && !s.time.asked, asked := true } })) ∧
      (∀ p t1, p < 16 → portPresent s p = true → (portAt s p).state = .up → s.fabric.node ≠ none →
        exec (.timeRequestReceive p t1) s = .next (sendTow (onePort p) (timeReplyBytes t1 (now s)) s)) ∧
      (∀ t1 t2 t3 d, s.fabric.node ≠ none → (timeParent s).isSome = true →
        d = (((t2.toNat : Int) - t1.toNat) - ((now s : Int) - t3.toNat)) / 2 →
        exec (.timeReplyReceive t1 t2 t3) s = .next (startSlew d { s with time := { s.time with
          offset := offsetField d, synced := decide (-50 ≤ d) && decide (d ≤ 50), asked := false } })))

/-- R181, R183, R372, R382, R383: an admitted write, read or barge is done here and answered; one that is not
admitted, or whose range does not resolve, is answered with a refusal; an admission query's answer holds to its
command's end (log 29). R183, R378 to R380, R383: a response settles the access that asked for it, a refusal or an
unroutable response refuses it; a message for another module, a towpath message too, goes on with one hop fewer, and
is dropped and counted at no hops or without a route. -/
def Obligations.MessagesAreServed : Prop :=
  (∀ (s : State) (p vc : Nat) (m : Msg) (rest : List Byte) (s1 : State), Arrived s p vc m rest → s1 = popMsg p vc rest s →
    (∀ i, (i = .write p ∧ vc = vcRequest ∧ m.kind = 0) ∨ (i = .barge p ∧ vc = vcBulk ∧ m.kind = 7) →
      (reachesHere s1 m true = none → exec i s = .next (respond m 4 0 [] s1)) ∧
      (∀ ps, reachesHere s1 m true = some ps →
        (reachOf s1 (.port p vc) ps = .go →
          exec i s = .next (respond { m with place := letIn s1 m true } 3 0 []
            (putPieces ps m.data (noteWaits (.port p vc) ps s1)))) ∧
        (reachOf s1 (.port p vc) ps = .wait → exec i s = .next (noteWaits (.port p vc) ps s)))) ∧
    (vc = vcRequest → m.kind = 1 →
      (reachesHere s1 m false = none → exec (.read p) s = .next (respond m 4 0 [] s1)) ∧
      (∀ ps, reachesHere s1 m false = some ps →
        (∀ r, reachOf s1 (.port p vc) ps = .go → r = readCharged false none ps (noteWaits (.port p vc) ps s1) →
          exec (.read p) s = .next (respond { m with place := letIn s1 m false } 2 m.length r.1.data r.2)) ∧
        (reachOf s1 (.port p vc) ps = .wait → exec (.read p) s = .next (noteWaits (.port p vc) ps s)))) ∧
    (vc = vcRequest → m.kind = 5 → ∀ w, w = decide ((m.data.headD (0, false)).1 ≠ 0) →
      (admissionOf s1 m w = none → exec (.admissionQuery p) s = .next (respond m 4 0 [] s1)) ∧
      (∀ q g, admissionOf s1 m w = some q → g = ⟨m.src, m.part, m.agent, m.addr, m.length, w, q, tagSlot m.tag⟩ →
        (reaches s1 m q = none → exec (.admissionQuery p) s = .next (respond m 4 0 [] s1)) ∧
        (reaches s1 m q ≠ none → exec (.admissionQuery p) s = .next (respond m 6 0 [] { s1 with fabric := {
          s1.fabric with grants := s1.fabric.grants.filter (· != g) ++ [g] } }))))) ∧
  (∀ (s : State) (p vc : Nat) (m : Msg) (rest : List Byte) (s1 : State), s1 = popMsg p vc rest s →
    (∀ r, Arrived s p vc m rest → vc = vcResponse →
      (m.kind = 2 → asked s1 m [.read] = some r →
        exec (.readData p) s = .next (settleRemote r.tag (keepFetched r m.data s1))) ∧
      (m.kind = 3 → asked s1 m [.write, .barge] = some r →
        exec (.writeAcknowledgement p) s = .next (settleRemote r.tag s1)) ∧
      (m.kind = 6 → asked s1 m [.query] = some r → exec (.admissionAnswer p) s = .next (settleRemote r.tag s1)) ∧
      (m.kind = 4 → asked s1 m [.write, .read, .query, .barge] = some r →
        exec (.refusal p) s = .next (refuseRemote r.tag s1)) ∧
      (m.kind = 8 → s1.fabric.remote.any (·.tag == m.tag) = true →
        exec (.unroutable p) s = .next (refuseRemote m.tag s1))) ∧
    (p < 16 → linksOn s = true → portPresent s p = true → vc < 4 →
      takeMsg ((portAt s p).rxq[vc]?.getD []) = some (m, rest) → m.dest ≠ ownNode s →
      (m.hops = 0 → exec (.messageForward p vc) s = .next (dropTransit vc m s1)) ∧
      (m.hops ≠ 0 → vc = vcTowpath →
        exec (.messageForward p vc) s = .next (towOn { m with hops := m.hops - 1 } s1)) ∧
      (∀ s2, m.hops ≠ 0 → vc ≠ vcTowpath → sendMsg vc { m with hops := m.hops - 1 } s1 = some s2 →
        exec (.messageForward p vc) s = .next s2) ∧
      (m.hops ≠ 0 → vc ≠ vcTowpath → sendMsg vc { m with hops := m.hops - 1 } s1 = none →
        exec (.messageForward p vc) s = .next (dropTransit vc m s1))))

/-- R375 to R377: the module advertises its links under a new number on every up port; an advertisement not seen
before is remembered, taken into the map if it is the newest of its origin (log 38), and passed on; an origin's
entries expire 100 ms after its last. R194, R370, R375, R377, R378, R391: NEIGHBOUR-READ answers the entries it wrote
and the entries there are; SET-NODE-ID takes the ID, forgets a duplicate and sends HAIL; ROUTE-WRITE installs its
entries; LINK-STATE writes the port's record; LINK-REKEY starts its exchange; FABRIC-FENCE ends once no earlier command
of its queue, and no remote write of one, is outstanding. -/
def Obligations.FabricIsMappedAndSet : Prop :=
  (∀ (s : State),
    (∀ a, linksOn s = true → a = ownAdvert s → exec .neighbourAdvertisementSend s =
      .next (sendTow everyPort (advertBytes a)
        (noteAdvert a (mapTake a { s with fabric := { s.fabric with advNumber := s.fabric.advNumber + 1 } })))) ∧
    (∀ p a, p < 16 → linksOn s = true → portPresent s p = true → (portAt s p).state = .up →
      s.fabric.origins.any (fun o => o.1 = a.serial && o.2.1 = a.number) = false →
      (s.fabric.origins.any (fun o => o.1 = a.serial && a.number.toNat < o.2.1.toNat) = false →
        exec (.neighbourAdvertisementReceive p a) s =
          .next (broadcast p (advertBytes a) (mapTake a (checkDup a (noteAdvert a s))))) ∧
      (s.fabric.origins.any (fun o => o.1 = a.serial && a.number.toNat < o.2.1.toNat) = true →
        exec (.neighbourAdvertisementReceive p a) s =
          .next (broadcast p (advertBytes a) (checkDup a (noteAdvert a s))))) ∧
    (∀ o, s.fabric.origins.filter (·.1 == o) ≠ [] →
      (s.fabric.origins.filter (·.1 == o)).all (fun x => x.2.2 + 100000000 ≤ now s) = true →
      exec (.mapEntryExpire o) s = .next { s with fabric := { s.fabric with
        map := s.fabric.map.filter (·.serial != o), origins := s.fabric.origins.filter (·.1 != o) } })) ∧
  (∀ (s : State) (id : Nat) (c : Cmd),
    (Runs s 0x0601 id c →
      (c.at 24 4 = 0 → exec (.neighbourRead id) s = .next (doneCmd c.id (2 ^ 32 * s.fabric.map.length) s)) ∧
      (∀ n s1, c.at 24 4 = n → n ≠ 0 → Finds c s (c.checkRanges s [(16, c.addr 16, n)]) () [] →
        c.Admitted s [(c.addr 16, n, true)] → c.Reaches (c.pieces s (c.addr 16) n) s s1 →
        exec (.neighbourRead id) s = .next (doneCmd c.id
          (2 ^ 32 * s1.fabric.map.length + (s1.fabric.map.take (n / 32)).length)
          (c.put (c.addr 16) (clean ((s1.fabric.map.take (n / 32)).flatMap (MapEntry.bytes (now s1)))) s1)))) ∧
    (Runs s 0x0602 id c → c.at 16 2 < 0xFFFE → anyJob s = false → ∀ s1, s1 = { s with fabric := { s.fabric with
        node := some (BitVec.ofNat 16 (c.at 16 2)), dup := false } } →
      exec (.setNodeId id) s = .next (doneCmd c.id 0 (((List.range 16).filter fun p => (portAt s1 p).state = .up).foldl
        (fun s p => sendHail p s) s1))) ∧
    (∀ es ps, Runs s 0x0603 id c → Finds c s (routeChk s c) es ps → exec (.routeWrite id) s =
      .next (doneCmd c.id es.length (putRoutes (c.at 16 1 = 0) (c.at 17 1) es (touch c ps s)))) ∧
    (∀ s1, Runs s 0x0604 id c → Finds c s (linkStateChk s c) () [] → c.Admitted s [(c.addr 24, 64, true)] →
      c.Reaches (c.pieces s (c.addr 24) 64) s s1 →
      exec (.linkState id) s =
        .next (doneCmd c.id 0 (c.put (c.addr 24) (clean (linkRecord (c.at 16 1) s1)) s1))) ∧
    (∀ s1, Runs s 0x0605 id c → c.progress ≠ 1 → Finds c s (linkRekeyChk s c) () [] →
      (portAt s (c.at 16 1)).rekeying = false →
      s1 = startRekey (c.at 16 1) (updCmd c.id (fun x => { x with progress := 1 }) s) →
      exec (.linkRekey id) s =
        .next (setPort s1 (c.at 16 1) { portAt s1 (c.at 16 1) with rekeyCmd := some c.id })) ∧
    (Runs s 0x0606 id c →
      (fenced s c = false → exec (.fabricFence id) s = .next (doneCmd c.id 0 s)) ∧
      (fenced s c = true → exec (.fabricFence id) s = .next s)))

/-- R447 to R450, R458, R461 to R463: SET-CAP and SET-PROFILE record their settings; LEND-POOL joins a pool, or leaves it
with its watts returned; SLEEP waits for what has started to open a job (log 74) and is done, and the module sleeps when
its reply is written; POWER-READ writes the 128-byte record and answers the energy; CAP_ALERT_N going low presets the duty
and raises EXT_CAP. -/
def Obligations.PowerIsSetAndRead : Prop :=
  ∀ (s : State) (id : Nat) (c : Cmd),
    (Runs s 0x0701 id c → 900 ≤ c.at 16 4 → c.at 16 4 ≤ 1900 →
      exec (.setCap id) s = .next (doneCmd c.id 0 { s with pmu := { s.pmu with setCap := c.at 16 4 } })) ∧
    (Runs s 0x0702 id c → c.at 16 1 ≤ 1 → anyJob s = false →
      exec (.setProfile id) s = .next (doneCmd c.id 0 { s with pmu := { s.pmu with profile := c.at 16 1 } })) ∧
    (Runs s 0x0703 id c →
      (c.at 20 2 = 0 → exec (.lendPool id) s = .next (doneCmd c.id 0 { s with pmu := { s.pmu with lend := {} } })) ∧
      (∀ nodes ps s1 t, c.at 20 2 ≠ 0 → Finds c s (lendChk s c) nodes ps → s1 = touch c ps s → t = now s1 / 1000000 →
        exec (.lendPool id) s = .next (doneCmd c.id 0 { s1 with pmu := { s1.pmu with lend := { s1.pmu.lend with
          pool := some (c.at 16 4), members := nodes, tick := t, recent := nodes.map fun n => (n, t)
          lastRenew := now s1 } } }))) ∧
    (Runs s 0x0704 id c →
      (opening s = true → exec (.sleep id) s = .next (waitCmd c.id s)) ∧
      (opening s = false → anyJob s = false → anySwitch s = false →
        exec (.sleep id) s = .next (doneCmd c.id 0 (resumeCmd c.id s)))) ∧
    (∀ s1, Runs s 0x0705 id c → Finds c s (powerReadChk s c) () [] → c.Admitted s [(c.addr 16, 128, true)] →
      c.Reaches (c.pieces s (c.addr 16) 128) s s1 →
      exec (.powerRead id) s = .next (doneCmd c.id (energyUj s1) (c.put (c.addr 16) (clean (powerRecord s1)) s1))) ∧
    (s.pins.capAlertN = true → ∀ s1, s1 = { s with pins := { s.pins with capAlertN := false } } →
      (s.boot.vsb = true → exec .capAlertAssert s =
        .next (raise .extCap { s1 with pmu := { s1.pmu with dutyCap := s1.pmu.extDuty } })) ∧
      (s.boot.vsb = false → exec .capAlertAssert s = .next s1)) ∧
    exec .capAlertRelease s = .next { s with pins := { s.pins with capAlertN := true } }

/-- R448, R451 to R457, R461, R463: the cap loop measures the powers, at most 95 W in retention, takes a waiting SET-CAP
and steps the duty; the stack row steps up over its share, and down after 10 ms below 80 % of it; the current limiter
halves the duty in force, and raises it once the current has been below 1,050 A for 1 ms; an island 30 mV below its
setpoint, which slews at 1 mV/µs, closes its die's gate until all the die's islands have been within 15 mV for 2 µs; the
thermal limiter steps each die; a trip holds duty 1 and row 4 with THERM_N low until its release. -/
def Obligations.LimitersHold : Prop :=
  ∀ (s : State),
    (∀ co st io mo, (measure co st io mo s).pmu.power = (if s.pmu.sleep = .asleep then min mo 95 else mo) ∧
      (measure co st io mo s).pmu.powers = ((co, st, io, (measure co st io mo s).pmu.power) :: s.pmu.powers).take 10 ∧
      (pmuOn s = false → s.boot.vsb = true → exec (.capLoopStep co st io mo) s = .next (measure co st io mo s))) ∧
    (pmuOn s = true →
      (∀ co st io mo s0 s1 sh, s0 = measure co st io mo s →
        s1 = { s0 with pmu := { s0.pmu with capSet := s.pmu.setCap } } → sh = shares s.pmu.profile →
        exec (.capLoopStep co st io mo) s = .next (applyVoltage { s1 with pmu := { s1.pmu with
          dutyCap := nextDuty s.pmu.dutyCap co (capInForce s1 * sh.1 - (100 * io - capInForce s1 * sh.2.2)) } })) ∧
      (∀ avg t l share, share = capInForce s * (shares s.pmu.profile).2.1 →
        (100 * avg > share → exec (.stackRowStep avg t l) s =
          .next (applyRow { s with pmu := { s.pmu with row := min 4 (s.pmu.row + 1), rowLow := none } })) ∧
        (∀ since, 125 * avg < share → s.pmu.rowLow = some since → since + 10000000 ≤ now s →
          exec (.stackRowStep avg true true) s =
            .next (applyRow { s with pmu := { s.pmu with row := s.pmu.row - 1, rowLow := some (now s) } })) ∧
        (100 * avg ≤ share → share ≤ 125 * avg →
          exec (.stackRowStep avg t l) s = .next (applyRow { s with pmu := { s.pmu with rowLow := none } }))) ∧
      (∀ avg smp rel m, m = measureCurrent avg smp s →
        (avg > 1100 ∨ smp > 1200 → exec (.currentLimitStep avg smp rel) s = .next { m with pmu := { m.pmu with
          dutyCur := #v[max 1 (duty s 0 / 2), max 1 (duty s 1 / 2)] } }) ∧
        (avg ≤ 1100 → smp ≤ 1200 → mayRelease m = true →
          exec (.currentLimitStep avg smp true) s = .next { m with pmu := { m.pmu with
            dutyCur := #v[min 64 (s.pmu.dutyCur[0] + 4), min 64 (s.pmu.dutyCur[1] + 4)], releasedAt := now s } }) ∧
        (avg ≤ 1100 → smp ≤ 1200 → mayRelease m = false → exec (.currentLimitStep avg smp rel) s = .next m)) ∧
      (∀ n mv s1, n < 24 → mv + 30 ≤ (islandAt s n).setAt (now s) →
        s1 = noteSteady (n / 12) (setIsland s n { islandAt s n with mv := mv }) →
        exec (.droopTrip n mv) s = .next { s1 with pmu := { s1.pmu with
          gateClosed := s1.pmu.gateClosed.setIfInBounds (n / 12) true
          reopenedAt := s1.pmu.reopenedAt.setIfInBounds (n / 12) none } }) ∧
      (∀ rs s1, s1 = (rs.zipIdx 0).foldl (fun s r => if r.2 < 24 then
          setIsland s r.2 { islandAt s r.2 with mv := r.1.mv, rate := r.1.rate, temp := r.1.temp } else s) s →
        exec (.thermalLimitStep rs) s =
          .next (applyVoltage (thermalDie (thermalDie (noteSteady 1 (noteSteady 0 s1)) 0) 1)))) ∧
    (∀ d since, d < 2 → s.pmu.gateClosed[d]? = some true → s.pmu.steady[d]? = some (some since) →
      (since + 2000 ≤ now s → exec (.droopRelease d) s = .next { s with pmu := { s.pmu with
        gateClosed := s.pmu.gateClosed.setIfInBounds d false
        reopenedAt := s.pmu.reopenedAt.setIfInBounds d (some (now s)) } }) ∧
      (now s < since + 2000 → exec (.droopRelease d) s = .next s)) ∧
    (∀ k t, s.boot.vsb = true → s.pmu.trip = false → t ≥ (if k then 108 else 110) →
      exec (.thermalTrip k t) s = .next (raise .thermTrip (applyVoltage (applyRow { s with
        pmu := { s.pmu with trip := true }, pins := { s.pins with thermN := false } })))) ∧
    (∀ d t, s.pmu.trip = true → d ≤ 105 → t ≤ 103 →
      exec (.thermalTripRelease d t) s = .next (applyVoltage (applyRow { s with
        pmu := { s.pmu with trip := false }, pins := { s.pins with thermN := true } })))

/-- R388, R389, R462: the lending messages of a pool member and of its coordinator: SLACK at the tick with the barrier
wait measured over it, one transfer of 10 W a tick, RENEW with every member's net to every member, which keeps them, and
the lapse of what was received 5 ms, and of what was lent 10 ms, after the last RENEW, or after the TAKE that lent it (log
62). -/
def Obligations.PoolsLendPower : Prop :=
  ∀ (s : State),
    (running s = true → s.pmu.lend.pool ≠ none →
      (∀ w t k s1, t = now s / 1000000 → t > s.pmu.lend.tick → k = s.pmu.lend.barrier / 1000 →
        s1 = setLend s { s.pmu.lend with tick := t, slacks := [], took := false, moved := false, transfer := none
                                         barrier := 0, recent := atTick t s } →
        (coordinator s1 = ownNode s1 →
          exec (.lendTick w) s = .next (collectSlack (ownNode s1) t k (capInForce s1) s1)) ∧
        (coordinator s1 ≠ ownNode s1 →
          exec (.lendTick w) s = .next (sendTow (coordinator s1) (lendMsg s1 1 t k (capInForce s1)) s1))) ∧
      (∀ n t w k, exec (.slack n t w k) s = .next (collectSlack n t w k s)) ∧
      (coordinator s = ownNode s → 1000000 * s.pmu.lend.tick + 200000 ≤ now s →
        exec .takeTimeout s = .next (sendTake s)) ∧
      (∀ t s0 s1, t = s.pmu.lend.tick → 910 ≤ (s.pmu.setCap : Int) + s.pmu.lend.net →
        s0 = setNet (s.pmu.lend.net - 10) s → s1 = heardCoordinator (setLend s0 { s0.pmu.lend with lentAt := now s }) →
        exec (.take t) s = .next (sendTow (coordinator s1) (lendMsg s1 3 t 0 0) s1)) ∧
      (∀ n, s.pmu.lend.took = true → s.pmu.lend.moved = false → coordinator s = ownNode s →
        s.pmu.lend.transfer.map (·.1) = some n → exec (.taken n s.pmu.lend.tick) s = .next (sendGive s)) ∧
      (∀ w, exec (.give s.pmu.lend.tick w) s =
        .next (heardCoordinator (setNet (s.pmu.lend.net + w) s))) ∧
      (∀ n ns s1, ns = netsOf s.pmu.lend.members n →
        s1 = setNet (tabGet 0 ns (ownNode s)) (setLend s { s.pmu.lend with nets := ns }) →
        exec (.renew s.pmu.lend.tick n) s = .next (heardCoordinator
          (setLend s1 { s1.pmu.lend with lastRenew := now s }))) ∧
      (coordinator s = ownNode s → s.pmu.lend.moved = false → 1000000 * s.pmu.lend.tick + 500000 ≤ now s →
        exec .renewTimeout s = .next (sendRenew s))) ∧
    (s.pmu.lend.received ≠ 0 → s.pmu.lend.lastRenew + 5000000 ≤ now s →
      exec .lendReceivedLapse s = .next (setLend s { s.pmu.lend with received := 0 })) ∧
    (s.pmu.lend.lent ≠ 0 → max s.pmu.lend.lastRenew s.pmu.lend.lentAt + 10000000 ≤ now s →
      exec .lendReturn s = .next (setLend s { s.pmu.lend with lent := 0 }))

/-- R428, R429: each function's mailbox answers discovery, version, capabilities and algorithms in order, then
digests, the certificate chain of slot 0, signed challenges and the three measurements (SPDM's own codes and layout:
log 43). -/
def Obligations.MailboxesAnswer : Prop :=
  ∀ (s : State) (fn : Nat) (x : Spdm), fn < 5 → hostUp s = true → x = spdmAt s fn →
    exec (.doeDiscovery fn 0) s = .next (mailReply fn [0x01, 0x00, 0x00, 0x01] s) ∧
    exec (.doeDiscovery fn 1) s = .next (mailReply fn [0x01, 0x00, 0x01, 0x02] s) ∧
    exec (.doeDiscovery fn 2) s = .next (mailReply fn [0x01, 0x00, 0x02, 0x00] s) ∧
    exec (.getVersion fn) s = .next (spdmReply fn 0x04 []
      (setSpdm s fn { x with versioned := true, capable := false, negotiated := false })) ∧
    (x.versioned = true →
      exec (.getCapabilities fn) s = .next (spdmReply fn 0x61 capabilities (setSpdm s fn { x with capable := true }))) ∧
    (x.capable = true →
      exec (.negotiateAlgorithms fn) s = .next (spdmReply fn 0x63 algorithms (setSpdm s fn { x with negotiated := true }))) ∧
    (x.negotiated = true →
      exec (.getDigests fn) s = .next (spdmReply fn 0x01 (digestBytes (Config.sha384 (slotChain s))) s) ∧
      exec (.getCertificate fn 0) s = .next (spdmReply fn 0x02 (slotChain s) s) ∧
      (∀ nonce, exec (.challenge fn 0 nonce) s = .next (spdmReply fn 0x03 (digestBytes (Config.sha384 (slotChain s)) ++ nonce ++
        Config.aliasSign (s.boot.aliasKey.getD 0) nonce) s)) ∧
      exec (.getMeasurements fn 0) s = .next (spdmReply fn 0x60 [3] s) ∧
      exec (.getMeasurements fn 1) s = .next (spdmReply fn 0x60 (digestBytes Config.romDigest) s) ∧
      exec (.getMeasurements fn 2) s = .next (spdmReply fn 0x60 (digestBytes s.boot.patchDigest) s) ∧
      exec (.getMeasurements fn 3) s = .next (spdmReply fn 0x60 (digestBytes s.boot.firmwareDigest) s)) ∧
    (x.negotiated = false → ∀ i, i ∈ [Instr.getDigests fn, .getCertificate fn 0, .challenge fn 0 [], .getMeasurements fn 1] →
      exec i s = .next (spdmError fn errUnexpected s))

/-- R430, R431, R436, R439, R440: a function has at most one session, established by FINISH, ended by END_SESSION or a
lapsed heartbeat; SLUICE-BIND binds an open partition without a queue to its session; ATTEST-REPORT writes its
partition's signed report, at most 16,384 bytes, and answers its length. -/
def Obligations.SessionsBindSluices : Prop :=
  ∀ (s : State) (fn : Nat) (x : Spdm), fn < 5 → x = spdmAt s fn →
    (hostUp s = true →
      (∀ k n, x.negotiated = true → x.session = none → n = s.security.nextSession → exec (.keyExchange fn k) s =
        .next (spdmReply fn 0x64 [] (setSpdm { s with security := { s.security with nextSession := n + 1 } } fn { x with
          session := some n, secret := Config.sessionSecret k n, established := false, keyUpdates := 0
          lastHeard := now s }))) ∧
      (∀ k, x.negotiated = true → x.session.isSome = true →
        exec (.keyExchange fn k) s = .next (spdmError fn errBusy s)) ∧
      (∀ v, x.session.isSome = true → x.established = false →
        (Config.finishVerified x.secret v = true → exec (.finish fn v) s =
          .next (spdmReply fn 0x65 [] (setSpdm s fn { x with established := true, lastHeard := now s }))) ∧
        (Config.finishVerified x.secret v = false → exec (.finish fn v) s = .next (spdmError fn errDecrypt s))) ∧
      (x.established = true →
        exec (.keyUpdate fn) s = .next (spdmReply fn 0x69 [] (setSpdm s fn { x with keyUpdates := x.keyUpdates + 1 })) ∧
        exec (.heartbeat fn) s = .next (spdmReply fn 0x68 [] (setSpdm s fn { x with lastHeard := now s })) ∧
        exec (.endSession fn) s = .next (spdmReply fn 0x6C [] (endSpdm fn s)) ∧
        (∀ a n p, partOfFn s fn = some p → queueOf s p = false → a.toNat % 4096 = 0 → 1 ≤ n → n ≤ 16384 →
          exec (.sluiceBind fn a n) s = .next (spdmReply fn 0x7E [] (setBounce s p
            { address := a, frames := n, secret := x.secret, live := true, fails := (bounceAt s p).fails }))) ∧
        (∀ a n, partOfFn s fn = none → exec (.sluiceBind fn a n) s = .next (spdmError fn errUnexpected s))) ∧
      (x.established = false → ∀ i, i ∈ [Instr.keyUpdate fn, .heartbeat fn, .endSession fn, .sluiceBind fn 0 1] →
        exec i s = .next (spdmError fn errUnexpected s))) ∧
    (x.session.isSome = true → x.lastHeard + Config.heartbeatNs ≤ now s →
      exec (.heartbeatLapse fn) s = .next (endSpdm fn s)) ∧
    (∀ id c, Runs s 0x0801 id c → c.at 24 4 = 0 → exec (.attestReport id) s = .next (doneCmd c.id 0 s)) ∧
    (∀ id c s1 bs, Runs s 0x0801 id c → c.at 24 4 ≠ 0 → Finds c s (attestChk s c) () [] →
      c.Admitted s [(c.addr 16, c.at 24 4, true)] →
      c.Reaches (c.pieces s (c.addr 16) (c.at 24 4)) s s1 →
      bs = (attestReport s1 c.part ((c.params.drop 16).take 32)).take 16384 →
      exec (.attestReport id) s = .next (doneCmd c.id bs.length (c.put (c.addr 16) (clean bs) s1)))

/-- R494 to R496: the SMBus target's telemetry reads, words saturating at 65,535 and bytes at 255; flash addresses,
data, erases and reads inside an image it may act on, refused under the lockout, while an operation is under way (log
45) or elsewhere; its status clears the refusal, and the operation under way is carried out. -/
def Obligations.SmbusReadsAndPrograms : Prop :=
  ∀ (s : State), s.boot.vsb = true →
    exec .smbStatus s = .next (smbOut (toLe 2 (smbStatusWord s)) s) ∧
    exec .smbPower s = .next (smbOut (toLe 2 (min s.pmu.mean 65535)) s) ∧
    exec .smbCap s = .next (smbOut (toLe 2 (min (capInForce s) 65535)) s) ∧
    exec .smbVinCurrent s = .next (smbOut (toLe 2 (min s.pmu.currentAvg 65535)) s) ∧
    exec .smbDieTemp s = .next (smbOut (toLe 1 (min (hottestDie s) 255)) s) ∧
    exec .smbStackTemp s = .next (smbOut (toLe 1 (min (hottestStack s) 255)) s) ∧
    exec .smbEnergy s = .next (smbOut (toLe 8 (energyUj s)) s) ∧
    exec .smbThrottle s = .next (smbOut (toLe 1 (activeBits s)) s) ∧
    exec .smbSerial s = .next (smbOut (toLe 8 s.fuse.serial.toNat) s) ∧
    exec .smbFaults s = .next (smbOut (toLe 2 s.faults.next) s) ∧
    (∀ f, f = s.flash → s.security.lockout = false →
      (∀ a, exec (.smbFlashAddr a) s = .next { s with flash := { f with address := a.toNat } }) ∧
      (f.busy = false →
        (∀ d, 1 ≤ d.length → d.length ≤ 32 → flashMay s f.address d.length = true →
          exec (.smbFlashData d) s = .next { s with flash := { f with
            address := f.address + d.length, busy := true, work := some (f.address, 0, d) } }) ∧
        (∀ n, f.address % 65536 = 0 → flashMay s f.address (65536 * n) = true →
          exec (.smbFlashErase n) s = .next { s with flash := { f with
            busy := true, work := some (f.address, n, []) } }) ∧
        (∀ n, 1 ≤ n → n ≤ 32 → flashMay s f.address n = true →
          exec (.smbFlashRead n) s = .next { s with flash := { f with
            address := f.address + n, out := flashRead s f.address n } }))) ∧
    (∀ d n, s.security.lockout = true ∨ s.flash.busy = true →
      ∀ i, i ∈ [Instr.smbFlashData d, .smbFlashErase n, .smbFlashRead n] →
        exec i s = .next { s with flash := { s.flash with refused := true } }) ∧
    exec .smbFlashStatus s = .next { s with flash := { s.flash with
      refused := false, out := toLe 1 (flag s.flash.busy 0 + flag s.flash.refused 1) } } ∧
    (∀ a n d, s.flash.work = some (a, n, d) → exec .flashOperationDone s = .next { s with flash := { s.flash with
      bytes := memWrite (memClear s.flash.bytes a (65536 * n)) a (d.map (· ^^^ 0xFF)), busy := false, work := none } })

/-- R497, R499, R500: the monitor echoes what it gets; BS drops the last character, CR and LF take the line; it
refuses a line while the lockout is in force; a session that has heard nothing for 60 s ends; MON rows print and end
with `ok` (print forms: log 44). R498 to R500: a monitor command that is accepted starts the session; `peek` and
`dump` read, `poke` writes and raises WRITE; `tgen` and `lap` run while nothing of the host's does; `link`, `faults`,
`island` and `boot` print; `quit` ends the session; an access that is not allowed ends with its error. -/
def Obligations.MonitorRuns : Prop :=
  (∀ (s : State) (ch : Byte) (s1 : State), monOn s = true → s1 = say [ch] s →
    (ch = 8 → exec (.monCharacterReceive ch) s = .next { s1 with mon := { s1.mon with line := s1.mon.line.dropLast } }) ∧
    (ch = 13 ∨ ch = 10 → exec (.monCharacterReceive ch) s =
      .next (takeLine s1.mon.line { s1 with mon := { s1.mon with line := [] } })) ∧
    (ch ≠ 8 → ch ≠ 13 → ch ≠ 10 → exec (.monCharacterReceive ch) s =
      .next { s1 with mon := { s1.mon with line := s1.mon.line ++ [ch] } }) ∧
    (s.mon.session = true → s.mon.lastLine + 60000000000 ≤ now s →
      exec .monSessionTimeout s = .next { s with mon := { s.mon with session := false } })) ∧
  (∀ (s : State), monOn s = true → s.security.lockout = false →
    (∀ a n p r, s.mon.todo = some (.peek a n) → a.toNat % n = 0 → monReach a n s = .go p → r = monRead p n (monAccept s) →
      exec .monPeek s = .next (monDone "ok" (say (ascii "0x" ++ hexText (2 * n) (leNat r.1) ++ newLine) r.2))) ∧
    (∀ a n, s.mon.todo = some (.peek a n) → a.toNat % n ≠ 0 → exec .monPeek s = .next (monDone "err addr" s)) ∧
    (∀ a n e, s.mon.todo = some (.peek a n) → a.toNat % n = 0 → monReach a n s = .err e →
      exec .monPeek s = .next (monDone e s)) ∧
    (∀ a n ps, s.mon.todo = some (.peek a n) → a.toNat % n = 0 → monReach a n s = .wait ps →
      exec .monPeek s = .next (noteWaits .monitor ps s)) ∧
    (∀ a v n p, s.mon.todo = some (.poke a v n) → a.toNat % n = 0 → monReach a n s = .go p →
      exec .monPoke s = .next (monDone "ok" (raise .monWrite (monWrite p (toLe n v.toNat) (monAccept s))))) ∧
    (∀ a n p r, s.mon.todo = some (.dump a n) → n ≠ 0 → monReach a n s = .go p → r = monRead p n (monAccept s) →
      exec .monDump s = .next (monDone "ok" (say (dumpText 4096 a.toNat r.1) r.2))) ∧
    (∀ k c p m v n, s.mon.todo = some (.tgen k c p m v n) → exec .monTgen s = .next (monTgen k c p m n s)) ∧
    (s.mon.todo = some .lap → exec .monLap s = .next (monLap s)) ∧
    (∀ p, s.mon.todo = some (.link (some p)) → portPresent s p = true →
      exec .monLink s = .next (monDone "ok" (say (linkLine s p) (monAccept s)))) ∧
    (s.mon.todo = some (.link none) → exec .monLink s =
      .next (monDone "ok" (say (((List.range 16).filter (portPresent s)).flatMap (linkLine s)) (monAccept s)))) ∧
    (∀ n, s.mon.todo = some (.faults n) → exec .monFaults s = .next (monDone "ok"
      (say ((s.faults.records.drop (s.faults.records.length - n)).flatMap recordText) (monAccept s)))) ∧
    (∀ n, s.mon.todo = some (.island (some n)) →
      exec .monIsland s = .next (monDone "ok" (say (islandLine s n) (monAccept s)))) ∧
    (s.mon.todo = some .boot → exec .monBoot s = .next (monDone "ok" (say (ascii "0x" ++ hexText 8 (identValue 0x014 s) ++
      newLine ++ (List.range 7).flatMap fun k => decText (tabGet 0 s.boot.log k).toNat ++ newLine) (monAccept s)))) ∧
    (∀ s1, s1 = monAccept s → s.mon.todo = some .quit →
      exec .monQuit s = .next (monDone "ok" { s1 with mon := { s1.mon with session := false } })))

/-- R501: while the lockout is in force the monitor answers a line with its refusal line, prints no prompt, and no
command of it acts; with DEBUG_FUSED set, nothing it receives has any effect. -/
def Obligations.MonitorIsLockedOut : Prop :=
  ∀ (s : State) (line : List Byte) (ch : Byte),
    (monOn s = true → s.security.lockout = true → s.mon.line = line → line ≠ [] → ch = 13 ∨ ch = 10 →
      exec (.monCharacterReceive ch) s = .next { s with mon := { s.mon with
        line := [], lastLine := now s
        out := s.mon.out ++ [ch] ++ (ascii "plaorn: refused: confidential mode" ++ newLine) } }) ∧
    (s.security.lockout = true ∨ s.fuse.debugFused = true → ∀ i, i ∈ [Instr.monPeek, .monPoke, .monDump, .monTgen, .monLap,
      .monLink, .monFaults, .monIsland, .monBoot, .monQuit] → exec i s = .next s) ∧
    (s.fuse.debugFused = true → exec (.monCharacterReceive ch) s = .next s)

/-- R447 to R458, R461 to R463: every row of the power family completes where its conditions hold, with its own effect,
and leaves the rest of the machine alone: SET-CAP, SET-PROFILE, LEND-POOL, SLEEP and POWER-READ end their command; the
pin's two rows set its level; the limiters and the members of a pool act in every state in which the PMU runs. -/
def Obligations.PowerRowsComplete : Prop :=
  (∀ (s : State) (id : Nat) (c : Cmd),
    (Runs s 0x0701 id c → Finds c s (setCapChk c) () [] →
      ∃ t, exec (.setCap id) s = .next t ∧ t.pmu.setCap = c.at 16 4 ∧ PowerOnly s t) ∧
    (Runs s 0x0702 id c → Finds c s (setProfileChk s c) () [] →
      ∃ t, exec (.setProfile id) s = .next t ∧ t.pmu.profile = c.at 16 1 ∧ PowerOnly s t) ∧
    (Runs s 0x0703 id c → c.at 20 2 = 0 →
      ∃ t, exec (.lendPool id) s = .next t ∧ t.pmu.lend.pool = none ∧ t.pmu.lend.net = 0 ∧ PowerOnly s t) ∧
    (∀ nodes ps, Runs s 0x0703 id c → c.at 20 2 ≠ 0 → Finds c s (lendChk s c) nodes ps →
      ∃ t, exec (.lendPool id) s = .next t ∧ t.pmu.lend.pool = some (c.at 16 4) ∧ t.pmu.lend.members = nodes ∧
        PowerOnly (touch c ps s) t) ∧
    (Runs s 0x0704 id c → opening s = false → anyJob s = false → anySwitch s = false →
      ∃ t, exec (.sleep id) s = .next t ∧ t.pmu = s.pmu ∧ PowerOnly s t) ∧
    (∀ s1, Runs s 0x0705 id c → Finds c s (powerReadChk s c) () [] → c.Admitted s [(c.addr 16, 128, true)] →
      c.Reaches (c.pieces s (c.addr 16) 128) s s1 →
      ∃ t, exec (.powerRead id) s = .next t ∧ t.pmu = s.pmu ∧ t.security.spdm = s.security.spdm ∧
        t.security.lockout = s.security.lockout ∧ t.flash = s.flash ∧ t.boot = s.boot ∧ t.time = s.time)) ∧
  (∀ (s : State),
    (s.pins.capAlertN = true →
      ∃ t, exec .capAlertAssert s = .next t ∧ t.pins.capAlertN = false ∧ PowerOnly s t) ∧
    (∃ t, exec .capAlertRelease s = .next t ∧ t.pins.capAlertN = true ∧ PowerOnly s t) ∧
    (pmuOn s = true → ∀ (co st io mo avg smp n mv : Nat) (b1 b2 : Bool) (rs : List Reading), n < 24 →
      ∀ i, i ∈ [Instr.capLoopStep co st io mo, .stackRowStep avg b1 b2, .currentLimitStep avg smp b1, .droopTrip n mv,
        .droopRelease (n / 12), .thermalLimitStep rs, .thermalTrip b1 avg, .thermalTripRelease avg smp] →
      ∃ t, exec i s = .next t ∧ PowerOnly s t) ∧
    (running s = true → ∀ (n k w cap : Nat) (net : Int),
      ∀ i, i ∈ [Instr.lendTick w, .slack n k w cap, .takeTimeout, .take k, .taken n k, .give k w, .renew k net,
        .renewTimeout, .lendReceivedLapse, .lendReturn] →
      ∃ t, exec i s = .next t ∧ PowerOnly s t))

/-- R428 to R431, R436, R439: every row of a function's mailbox and session completes where the function has come so far,
and changes nothing but that function's SPDM state, the next session number and the bounce regions: no other function's
mailbox, no memory and no lockout. -/
def Obligations.MailboxRowsComplete : Prop :=
  ∀ (s : State) (fn k slot peer frames : Nat) (nonce : List Byte) (a : W64) (x : Spdm) (i : Instr),
    fn < 5 → hostUp s = true → x = spdmAt s fn →
    (i ∈ [Instr.doeDiscovery fn k, .getVersion fn, .finish fn nonce, .heartbeatLapse fn] ∨
      (x.versioned = true ∧ i = .getCapabilities fn) ∨ (x.capable = true ∧ i = .negotiateAlgorithms fn) ∨
      (x.negotiated = true ∧ i ∈ [Instr.getDigests fn, .getCertificate fn slot, .challenge fn slot nonce,
        .getMeasurements fn k, .keyExchange fn peer]) ∨
      (x.established = true ∧ i ∈ [Instr.keyUpdate fn, .heartbeat fn, .endSession fn, .sluiceBind fn a frames])) →
    ∃ y, exec i s = .next { s with security := y } ∧ y.lockout = s.security.lockout ∧
      ∀ f, f ≠ fn → y.spdm[f]? = s.security.spdm[f]?
end

