-- ==== Sys2Proof/Laws/Memory.lean ====
section
/-!
SUPPORT. Laws of tables and byte memories: what a read gives after a write, and that every operation keeps the canonical
form (keys strictly rising, no entry equal to what an unlisted key reads as).
-/

namespace Sys2Proof.Machine

variable {α : Type}

/-! ## Tables -/

theorem tabGet_of_lt (d : α) : ∀ (t : Tab α) (k : Nat), (∀ p ∈ t, k < p.1) → tabGet d t k = d
  | [], _, _ => rfl
  | (j, v) :: t, k, h => by
    have hj : k < j := h (j, v) (by simp)
    have := tabGet_of_lt d t k (fun p hp => h p (by simp [hp]))
    simp [tabGet, this]; omega

/-- What a table reads as after one entry is written. -/
theorem tabGet_tabSet [DecidableEq α] (d : α) : ∀ (t : Tab α) (k j : Nat) (v : α), tabWf d t →
    tabGet d (tabSet d t k v) j = if j = k then v else tabGet d t j
  | [], k, j, v, _ => by
    by_cases hv : v = d <;> by_cases hj : j = k <;> simp_all [tabSet, tabGet] <;> omega
  | (i, w) :: t, k, j, v, h => by
    have hw : w ≠ d ∧ (∀ p ∈ t, i < p.1) ∧ tabWf d t := by
      simpa [tabWf, and_assoc] using h
    have ih := tabGet_tabSet d t k j v hw.2.2
    have hlt : j ≤ i → tabGet d t j = d := fun hji =>
      tabGet_of_lt d t j fun p hp => by have := hw.2.1 p hp; omega
    unfold tabSet
    by_cases h1 : k < i
    · by_cases hv : v = d
      · by_cases hj : j = k
        · subst hj; simp [h1, hv, tabGet, hlt (by omega)]; omega
        · simp [h1, hv, tabGet, hj]
      · by_cases hj : j = k
        · subst hj; simp [h1, hv, tabGet]
        · simp [h1, hv, tabGet, hj, Ne.symm hj]
    · by_cases h2 : k = i
      · subst h2
        by_cases hv : v = d
        · by_cases hj : j = k
          · subst hj; simp [hv, hlt]
          · simp [hv, tabGet, hj, Ne.symm hj]
        · by_cases hj : j = k
          · subst hj; simp [hv, tabGet]
          · simp [hv, tabGet, hj, Ne.symm hj]
      · by_cases hj : j = i
        · subst hj; simp [h1, h2, tabGet, Ne.symm h2]
        · simp [h1, h2, tabGet, Ne.symm hj, ih]

theorem tabSet_keys [DecidableEq α] (d : α) : ∀ (t : Tab α) (k : Nat) (v : α) (p : Nat × α),
    p ∈ tabSet d t k v → p ∈ t ∨ p = (k, v)
  | [], k, v, p, h => by
    unfold tabSet at h; split at h <;> simp_all
  | (i, w) :: t, k, v, p, h => by
    have ih := tabSet_keys d t k v p
    unfold tabSet at h
    split at h
    · split at h <;> simp_all <;> tauto
    · split at h
      · split at h <;> simp_all <;> tauto
      · simp only [List.mem_cons] at h ⊢; tauto

/-- Writing an entry keeps the canonical form. -/
theorem tabSet_wf [DecidableEq α] (d : α) : ∀ (t : Tab α) (k : Nat) (v : α), tabWf d t → tabWf d (tabSet d t k v)
  | [], k, v, _ => by
    unfold tabSet; split <;> simp_all [tabWf]
  | (i, w) :: t, k, v, h => by
    have hw : w ≠ d ∧ (∀ p ∈ t, i < p.1) ∧ tabWf d t := by
      simpa [tabWf, and_assoc] using h
    have ih := tabSet_wf d t k v hw.2.2
    unfold tabSet
    split
    · split
      · exact h
      · have : ∀ p ∈ t, k < p.1 := fun p hp => by have := hw.2.1 p hp; omega
        simp_all [tabWf]
        exact ⟨this, fun a b hb => hw.2.1 a b hb⟩
    · split
      · subst_vars
        split
        · exact hw.2.2
        · have h2 := hw.2.1
          simp_all [tabWf]
          exact fun a b hb => h2 a b hb
      · have : ∀ p ∈ tabSet d t k v, i < p.1 := by
          intro p hp
          rcases tabSet_keys d t k v p hp with hp | hp
          · exact hw.2.1 p hp
          · subst hp; show i < k; omega
        simp only [tabWf, Bool.and_eq_true, bne_iff_ne, ne_eq, List.all_eq_true, decide_eq_true_eq]
        exact ⟨⟨hw.1, fun p hp => this p hp⟩, ih⟩

theorem tabWf_iff [DecidableEq α] (d : α) : ∀ t : Tab α,
    tabWf d t = true ↔ t.Pairwise (fun p q => p.1 < q.1) ∧ ∀ p ∈ t, p.2 ≠ d
  | [] => by simp [tabWf]
  | (j, v) :: t => by
    have ih := tabWf_iff d t
    simp only [tabWf, Bool.and_eq_true, bne_iff_ne, ne_eq, List.all_eq_true, decide_eq_true_eq, ih,
      List.pairwise_cons, List.mem_cons, forall_eq_or_imp]
    tauto

/-- Taking entries out keeps the canonical form. -/
theorem tabWf_filter [DecidableEq α] (d : α) (t : Tab α) (p : Nat × α → Bool) (h : tabWf d t) : tabWf d (t.filter p) := by
  rw [tabWf_iff] at h ⊢
  exact ⟨h.1.filter p, fun q hq => h.2 q (List.mem_of_mem_filter hq)⟩

/-- Two canonical tables whose keys follow one another join to a canonical one. -/
theorem tabWf_append [DecidableEq α] (d : α) (t u : Tab α) (ht : tabWf d t) (hu : tabWf d u)
    (h : ∀ p ∈ t, ∀ q ∈ u, p.1 < q.1) : tabWf d (t ++ u) := by
  rw [tabWf_iff] at *
  refine ⟨List.pairwise_append.2 ⟨ht.1, hu.1, h⟩, fun p hp => ?_⟩
  rcases List.mem_append.1 hp with hp | hp
  · exact ht.2 p hp
  · exact hu.2 p hp

theorem tabGet_append (d : α) : ∀ (t u : Tab α) (k : Nat),
    tabGet d (t ++ u) k = if tabHas t k then tabGet d t k else tabGet d u k
  | [], u, k => by simp [tabHas]
  | (j, v) :: t, u, k => by
    by_cases h : j = k
    · simp [tabGet, tabHas, h]
    · simp [tabGet, tabHas, h, tabGet_append d t u k]

theorem tabHas_iff : ∀ (t : Tab α) (k : Nat), tabHas t k = true ↔ ∃ p ∈ t, p.1 = k
  | [], k => by simp [tabHas]
  | (j, v) :: t, k => by simp [tabHas, tabHas_iff t k]

theorem tabGet_of_not_has (d : α) : ∀ (t : Tab α) (k : Nat), tabHas t k = false → tabGet d t k = d
  | [], _, _ => rfl
  | (j, v) :: t, k, h => by
    simp [tabHas] at h
    simp [tabGet, h.1, tabGet_of_not_has d t k h.2]

/-- A filter by key keeps the values of the keys it keeps, and unlists the others. -/
theorem tabGet_filter (d : α) (q : Nat → Bool) : ∀ (t : Tab α) (k : Nat),
    tabGet d (t.filter fun p => q p.1) k = if q k then tabGet d t k else d
  | [], k => by simp [tabGet]
  | (j, v) :: t, k => by
    have ih := tabGet_filter d q t k
    by_cases hq : q j
    · by_cases hj : j = k
      · subst hj; simp [hq, tabGet]
      · simp [hq, tabGet, hj, ih]
    · by_cases hj : j = k
      · subst hj; simp [hq] at ih ⊢; exact ih
      · simp [hq, tabGet, hj, ih]

/-! ## Memories -/

theorem memCells_key : ∀ (a : Nat) (bs : List Byte) (p : Nat × Byte), p ∈ memCells a bs → a ≤ p.1 ∧ p.1 < a + bs.length
  | _, [], _, h => by simp [memCells] at h
  | a, b :: bs, p, h => by
    have ih := memCells_key (a + 1) bs p
    unfold memCells at h
    split at h
    · have := ih h; simp; omega
    · rcases List.mem_cons.1 h with h | h
      · subst h; simp
      · have := ih h; simp; omega

theorem memCells_wf : ∀ (a : Nat) (bs : List Byte), Memory.wf (memCells a bs)
  | _, [] => rfl
  | a, b :: bs => by
    have ih := memCells_wf (a + 1) bs
    unfold memCells
    split
    · exact ih
    · rename_i hb
      simp only [Memory.wf, tabWf, Bool.and_eq_true, bne_iff_ne, ne_eq, List.all_eq_true, decide_eq_true_eq] at ih ⊢
      exact ⟨⟨hb, fun p hp => by have := memCells_key (a + 1) bs p hp; omega⟩, ih⟩

theorem memGet_memCells : ∀ (a : Nat) (bs : List Byte) (x : Nat),
    memGet (memCells a bs) x = if a ≤ x ∧ x < a + bs.length then bs[x - a]?.getD 0 else 0
  | a, [], x => by simp [memCells, memGet, tabGet]
  | a, b :: bs, x => by
    have ih := memGet_memCells (a + 1) bs x
    unfold memCells
    by_cases hb : b = 0
    · subst hb
      simp only [if_true, ih]
      by_cases hx : x = a
      · subst hx; simp
      · by_cases h1 : a ≤ x
        · have : x - a = (x - (a + 1)) + 1 := by omega
          simp only [List.length_cons, this, List.getElem?_cons_succ]
          by_cases h2 : x < a + (bs.length + 1)
          · simp [h1, h2, show a + 1 ≤ x by omega, show x < a + 1 + bs.length by omega]
          · simp [h2, show ¬ x < a + 1 + bs.length by omega]
        · simp [h1, show ¬ a + 1 ≤ x by omega]
    · simp only [hb, if_false, memGet, tabGet]
      by_cases hx : a = x
      · subst hx; simp
      · simp only [hx, if_false]
        rw [memGet] at ih
        rw [ih]
        by_cases h1 : a ≤ x
        · have : x - a = (x - (a + 1)) + 1 := by omega
          simp only [List.length_cons, this, List.getElem?_cons_succ]
          by_cases h2 : x < a + (bs.length + 1)
          · simp [h1, h2, show a + 1 ≤ x by omega, show x < a + 1 + bs.length by omega]
          · simp [h2, show ¬ x < a + 1 + bs.length by omega]
        · simp [h1, show ¬ a + 1 ≤ x by omega]

/-- A read of one byte after one byte was written. -/
theorem memGet_memSet (m : Memory) (a x : Nat) (b : Byte) (h : Memory.wf m) :
    memGet (memSet m a b) x = if x = a then b else memGet m x := tabGet_tabSet 0 m a x b h

theorem memSet_wf (m : Memory) (a : Nat) (b : Byte) (h : Memory.wf m) : Memory.wf (memSet m a b) := tabSet_wf 0 m a b h

/-- A read of one byte after a string was written: the string inside its range, what was there outside. -/
theorem memGet_memWrite (m : Memory) (a : Nat) (bs : List Byte) (x : Nat) :
    memGet (memWrite m a bs) x = if a ≤ x ∧ x < a + bs.length then bs[x - a]?.getD 0 else memGet m x := by
  have h1 := tabGet_filter (0 : Byte) (fun k => decide (k < a)) m x
  have h2 := tabGet_filter (0 : Byte) (fun k => decide (a + bs.length ≤ k)) m x
  have h3 := memGet_memCells a bs x
  simp only [memGet] at h3
  simp only [memGet, memWrite, tabGet_append]
  have e1 : tabHas (m.filter fun p => decide (p.1 < a)) x = true → x < a := by
    rw [tabHas_iff]; rintro ⟨p, hp, rfl⟩; simpa using (List.mem_filter.1 hp).2
  have e2 : tabHas (memCells a bs) x = true → a ≤ x ∧ x < a + bs.length := by
    rw [tabHas_iff]; rintro ⟨p, hp, rfl⟩; exact memCells_key a bs p hp
  have e3 : ∀ t u : Tab Byte, tabHas (t ++ u) x = (tabHas t x || tabHas u x) := by
    intro t u; rw [Bool.eq_iff_iff, Bool.or_eq_true, tabHas_iff, tabHas_iff, tabHas_iff]
    simp only [List.mem_append, or_and_right, exists_or]
  rw [e3]
  by_cases hA : tabHas (m.filter fun p => decide (p.1 < a)) x = true
  · have := e1 hA
    rw [if_pos (by simp [hA]), if_pos hA, h1, if_pos (by simpa using this), if_neg (by omega)]
  · by_cases hB : tabHas (memCells a bs) x = true
    · have := e2 hB
      rw [if_pos (by simp [hB]), if_neg hA, h3]
      simp [this]
    · rw [if_neg (by simp [hA, hB]), h2]
      have f1 := tabGet_of_not_has (0 : Byte) _ x (by simpa using hA)
      have f2 := tabGet_of_not_has (0 : Byte) _ x (by simpa using hB)
      rw [h1] at f1
      rw [h3] at f2
      by_cases c1 : a ≤ x
      · by_cases c2 : x < a + bs.length
        · simp only [c1, c2, and_self, if_true] at f2 ⊢
          rw [f2]; simp [show ¬ a + bs.length ≤ x by omega]
        · simp [c2, show a + bs.length ≤ x by omega]
      · simp only [show x < a by omega, decide_true, if_true] at f1
        simp only [c1, false_and, if_false, decide_eq_true_eq, show ¬ a + bs.length ≤ x by omega]
        exact f1.symm

theorem memWrite_wf (m : Memory) (a : Nat) (bs : List Byte) (h : Memory.wf m) : Memory.wf (memWrite m a bs) := by
  refine tabWf_append 0 _ _ (tabWf_append 0 _ _ (tabWf_filter 0 _ _ h) (memCells_wf a bs) ?_) (tabWf_filter 0 _ _ h) ?_
  · intro p hp q hq
    have h1 := (List.mem_filter.1 hp).2
    have h2 := memCells_key a bs q hq
    simp at h1; omega
  · intro p hp q hq
    have h2 := (List.mem_filter.1 hq).2
    simp at h2
    rcases List.mem_append.1 hp with hp | hp
    · have h1 := (List.mem_filter.1 hp).2
      simp at h1; omega
    · have h1 := memCells_key a bs p hp; omega

/-- A cleared range reads as zero, and nothing else changes. -/
theorem memGet_memClear (m : Memory) (a n x : Nat) :
    memGet (memClear m a n) x = if a ≤ x ∧ x < a + n then 0 else memGet m x := by
  have := tabGet_filter (0 : Byte) (fun k => !(decide (a ≤ k) && decide (k < a + n))) m x
  rw [memGet, memClear, this]
  by_cases c1 : a ≤ x <;> by_cases c2 : x < a + n <;> simp [c1, c2, memGet]

theorem memClear_wf (m : Memory) (a n : Nat) (h : Memory.wf m) : Memory.wf (memClear m a n) := tabWf_filter 0 m _ h

theorem memGet_memPart (m : Memory) (a n x : Nat) (h1 : a ≤ x) (h2 : x < a + n) : memGet (memPart m a n) x = memGet m x := by
  have := tabGet_filter (0 : Byte) (fun k => decide (a ≤ k) && decide (k < a + n)) m x
  rw [memGet, memPart, this]
  simp [h1, h2, memGet]

theorem memChunks_eq (m : Memory) : ∀ (c a n : Nat), n ≤ 64 * c →
    memChunks m c a n = (List.range n).map fun i => memGet m (a + i)
  | 0, a, n, h => by
    have : n = 0 := by omega
    subst this; simp [memChunks]
  | c + 1, a, n, h => by
    have ih := memChunks_eq m c (a + min 64 n) (n - min 64 n) (by omega)
    have hr : List.range n = List.range (min 64 n + (n - min 64 n)) := by congr 1; omega
    rw [memChunks, ih, hr, List.range_add, List.map_append, List.map_map]
    congr 1
    · apply List.map_congr_left
      intro i hi
      rw [List.mem_range] at hi
      exact memGet_memPart m a (min 64 n) (a + i) (by omega) (by omega)
    · apply List.map_congr_left
      intro i _
      simp [Function.comp, Nat.add_assoc]

/-- A read of a string is the read of its bytes. -/
theorem memRead_eq (m : Memory) (a n : Nat) : memRead m a n = (List.range n).map fun i => memGet m (a + i) := by
  rw [memRead, memChunks_eq _ _ _ _ (by omega)]
  apply List.map_congr_left
  intro i hi
  rw [List.mem_range] at hi
  exact memGet_memPart m a n (a + i) (by omega) (by omega)

@[simp] theorem memRead_length (m : Memory) (a n : Nat) : (memRead m a n).length = n := by simp [memRead_eq]

/-- What a string reads as after it was written. -/
theorem memRead_memWrite_same (m : Memory) (a : Nat) (bs : List Byte) : memRead (memWrite m a bs) a bs.length = bs := by
  rw [memRead_eq]
  apply List.ext_getElem?
  intro i
  by_cases hi : i < bs.length
  · simp [memGet_memWrite, hi]
  · simp [hi]

/-- What a string reads as after another range was written. -/
theorem memRead_memWrite_other (m : Memory) (a b n : Nat) (bs : List Byte) (h : b + n ≤ a ∨ a + bs.length ≤ b) :
    memRead (memWrite m a bs) b n = memRead m b n := by
  rw [memRead_eq, memRead_eq]
  apply List.map_congr_left
  intro i hi
  rw [List.mem_range] at hi
  rw [memGet_memWrite, if_neg (by omega)]

end Sys2Proof.Machine
end

