-- ==== Sys2Proof/Laws/Frame.lean ====
section
/-!
SUPPORT. What no operation of the block may do: touch the queue of waiting commands, change a fuse, or break the canonical
form of a memory. `Frame s t` says that t came from s by such a step; the lemmas of Laws/Frame* say it of every operation.
-/

namespace Sys2Proof.Machine

/-- From `s` to `t` the queue and the fuses are the same, and a canonical store, flash or microcode stays canonical. -/
structure Frame (s t : State) : Prop where
  pending : t.pending = s.pending
  fuse : t.fuse = s.fuse
  store : s.store.wf = true → t.store.wf = true
  flash : Memory.wf s.flash.bytes = true → Memory.wf t.flash.bytes = true
  microcode : Memory.wf s.microcode = true → Memory.wf t.microcode = true

/-- `Frame` of the state that an outcome answers. -/
def FrameO (s : State) : Out → Prop
  | .next t => Frame s t
  | _ => True

variable {s0 s : State}

theorem Frame.refl (s : State) : Frame s s := ⟨rfl, rfl, id, id, id⟩

theorem Frame.trans {a b c : State} (h : Frame a b) (k : Frame b c) : Frame a c :=
  ⟨k.pending.trans h.pending, k.fuse.trans h.fuse, fun x => k.store (h.store x), fun x => k.flash (h.flash x),
    fun x => k.microcode (h.microcode x)⟩

theorem FrameO.next {t : State} (h : Frame s0 t) : FrameO s0 (.next t) := h

/-- An update that leaves the queue, the fuses, the store, the flash and the microcode alone. -/
theorem Frame.upd (h : Frame s0 s) {bo pi ti ir fr pa jo tl dr fa se fb fl we sc pm mo fg fe} :
    Frame s0 (State.mk s.pending s.fuse bo pi ti ir fr pa jo tl s.store dr fa se fb fl we sc pm s.flash mo fg s.microcode
      fe) :=
  ⟨h.pending, h.fuse, h.store, h.flash, h.microcode⟩

/-- An update of the store. -/
theorem Frame.updStore (h : Frame s0 s) {bo pi ti ir fr pa jo tl st dr fa se fb fl we sc pm mo fg fe}
    (k : s.store.wf = true → st.wf = true) :
    Frame s0 (State.mk s.pending s.fuse bo pi ti ir fr pa jo tl st dr fa se fb fl we sc pm s.flash mo fg s.microcode fe) :=
  ⟨h.pending, h.fuse, fun x => k (h.store x), h.flash, h.microcode⟩

/-- An update of the flash. -/
theorem Frame.updFlash (h : Frame s0 s) {bo pi ti ir fr pa jo tl dr fa se fb fl we sc pm fm mo fg fe}
    (k : Memory.wf s.flash.bytes = true → Memory.wf fm.bytes = true) :
    Frame s0 (State.mk s.pending s.fuse bo pi ti ir fr pa jo tl s.store dr fa se fb fl we sc pm fm mo fg s.microcode fe) :=
  ⟨h.pending, h.fuse, h.store, fun x => k (h.flash x), h.microcode⟩

/-- An update of the microcode. -/
theorem Frame.updMicrocode (h : Frame s0 s) {bo pi ti ir fr pa jo tl dr fa se fb fl we sc pm mo fg mc fe}
    (k : Memory.wf mc = true) :
    Frame s0 (State.mk s.pending s.fuse bo pi ti ir fr pa jo tl s.store dr fa se fb fl we sc pm s.flash mo fg mc fe) :=
  ⟨h.pending, h.fuse, h.store, h.flash, fun _ => k⟩

/-- A step of a check or a move that went on. -/
theorem ok_bind {ε α β : Type} {x : Except ε α} {f : α → Except ε β} {z : β} (h : (x >>= f) = .ok z) :
    ∃ a, x = .ok a ∧ f a = .ok z := by
  cases x with
  | error e => cases h
  | ok a => exact ⟨a, rfl, h⟩

/-- What follows from the frame of what such a step answered. -/
theorem ok_next {P Q G : Prop} (h : P → Q) (k : P) (g : Q → G) : G := g (h k)

/-! The value of a local definition, and what follows from its frame. -/

theorem frame_let {x v : State} {P : Prop} (e : x = v) (h : Frame s0 v) (k : Frame s0 x → P) : P := k (e ▸ h)

theorem frame_let_snd {α : Type} {x v : α × State} {P : Prop} (e : x = v) (h : Frame s0 v.2) (k : Frame s0 x.2 → P) :
    P := k (e ▸ h)

theorem frame_let_snd_snd {α β : Type} {x v : α × β × State} {P : Prop} (e : x = v) (h : Frame s0 v.2.2)
    (k : Frame s0 x.2.2 → P) : P := k (e ▸ h)

theorem frame_let_of {α : Type} {x v : α → State} {P : Prop} (e : x = v) (h : ∀ a, Frame s0 (v a))
    (k : (∀ a, Frame s0 (x a)) → P) : P := k (e ▸ h)

theorem frame_let_fun {x v : State → State} {P : Prop} (e : x = v) (h : ∀ t, Frame s0 t → Frame s0 (v t))
    (k : (∀ t, Frame s0 t → Frame s0 (x t)) → P) : P := k (e ▸ h)

theorem frame_let_fun_left {α : Type} {x v : State → α → State} {P : Prop} (e : x = v)
    (h : ∀ t a, Frame s0 t → Frame s0 (v t a)) (k : (∀ t a, Frame s0 t → Frame s0 (x t a)) → P) : P := k (e ▸ h)

theorem frame_let_fun_right {α : Type} {x v : α → State → State} {P : Prop} (e : x = v)
    (h : ∀ a t, Frame s0 t → Frame s0 (v a t)) (k : (∀ a t, Frame s0 t → Frame s0 (x a t)) → P) : P := k (e ▸ h)

theorem frame_let_fun_left2 {α β : Type} {x v : State → α → β → State} {P : Prop} (e : x = v)
    (h : ∀ t a b, Frame s0 t → Frame s0 (v t a b)) (k : (∀ t a b, Frame s0 t → Frame s0 (x t a b)) → P) : P := k (e ▸ h)

theorem frame_let_fun_right2 {α β : Type} {x v : α → β → State → State} {P : Prop} (e : x = v)
    (h : ∀ a b t, Frame s0 t → Frame s0 (v a b t)) (k : (∀ a b t, Frame s0 t → Frame s0 (x a b t)) → P) : P := k (e ▸ h)

theorem flash_let {x v : Flash} (e : x = v) : x = v := e

theorem store_let {x v : Store} (e : x = v) : x = v := e

theorem frame_foldl {α : Type} (f : State → α → State) (l : List α) (hf : ∀ s x, Frame s0 s → Frame s0 (f s x))
    (h : Frame s0 s) : Frame s0 (l.foldl f s) := by
  induction l generalizing s with
  | nil => exact h
  | cons x l ih => exact ih (hf s x h)

theorem frame_foldl_snd {α β : Type} (f : β × State → α → β × State) (l : List α) (p : β × State)
    (hf : ∀ q x, Frame s0 q.2 → Frame s0 (f q x).2) (h : Frame s0 p.2) : Frame s0 (l.foldl f p).2 := by
  induction l generalizing p with
  | nil => exact h
  | cons x l ih => exact ih _ (hf p x h)

theorem frame_foldl_snd_snd {α β γ : Type} (f : β × γ × State → α → β × γ × State) (l : List α) (p : β × γ × State)
    (hf : ∀ q x, Frame s0 q.2.2 → Frame s0 (f q x).2.2) (h : Frame s0 p.2.2) : Frame s0 (l.foldl f p).2.2 := by
  induction l generalizing p with
  | nil => exact h
  | cons x l ih => exact ih _ (hf p x h)

theorem frame_foldl_opt {α β γ : Type} (f : Option (β × γ × State) → α → Option (β × γ × State)) (l : List α)
    (a : Option (β × γ × State))
    (hf : ∀ a x, (∀ z, a = some z → Frame s0 z.2.2) → ∀ z, f a x = some z → Frame s0 z.2.2)
    (h : ∀ z, a = some z → Frame s0 z.2.2) : ∀ z, l.foldl f a = some z → Frame s0 z.2.2 := by
  induction l generalizing a with
  | nil => exact h
  | cons x l ih => exact ih _ (hf a x h)

theorem Store.wf_iff (x : Store) : x.wf = true ↔ Memory.wf x.stack = true ∧ Memory.wf x.tile = true ∧
    tabWf 0 x.stackMark = true ∧ tabWf 0 x.tileMark = true ∧ Memory.wf x.host = true ∧ Memory.wf x.far = true ∧
    tabWf 0 x.farLine = true := by
  simp [Store.wf, and_assoc]

/-! ## Coded memories -/

/-- A coded memory and its marks are canonical. -/
def wfPair (p : Memory × Tab (BitVec 16)) : Prop := Memory.wf p.1 = true ∧ tabWf 0 p.2 = true

theorem putWord_wf (m : Memory) (k : Tab (BitVec 16)) (a : Nat) (bs : List PByte) (h : wfPair (m, k)) :
    wfPair (putWord m k a bs) := by
  unfold putWord
  refine ⟨memWrite_wf _ _ _ ?_, tabSet_wf _ _ _ _ h.2⟩
  split
  · exact h.1
  · exact memWrite_wf _ _ _ h.1

/-- A codeword with poison 1 never has the mark of a clean word. -/
theorem checkOf_poison_ne (d : W64) : checkOf d true ≠ 0 := by
  intro h
  have h2 := congrArg BitVec.toNat h
  unfold checkOf at h2
  simp only [BitVec.toNat_ofNat, flag, if_true] at h2
  split at h2 <;> simp at h2 <;> omega

theorem wholeMarks_mem (w : Nat) (bs : List PByte) (p : Nat × BitVec 16) (h : p ∈ wholeMarks w bs) :
    w ≤ p.1 ∧ p.1 < w + bs.length / 8 ∧ p.2 = poisonMark := by
  unfold wholeMarks at h
  split at h
  · obtain ⟨i, hi, rfl⟩ := List.mem_map.1 h
    have := List.mem_range.1 (List.mem_filter.1 hi).1
    exact ⟨by simp, by simpa using this, rfl⟩
  · simp at h

theorem wholeMarks_wf (w : Nat) (bs : List PByte) : tabWf 0 (wholeMarks w bs) = true := by
  rw [tabWf_iff]
  refine ⟨?_, fun p hp => ?_⟩
  · unfold wholeMarks
    split
    · rw [List.pairwise_map]
      exact (List.pairwise_lt_range.filter _).imp fun h => by simpa using h
    · simp
  · rw [(wholeMarks_mem w bs p hp).2.2]; exact checkOf_poison_ne 0

theorem putWhole_wf (m : Memory) (k : Tab (BitVec 16)) (a : Nat) (bs : List PByte) (h : wfPair (m, k)) :
    wfPair (putWhole m k a bs) := by
  refine ⟨memWrite_wf _ _ _ h.1, ?_⟩
  refine tabWf_append 0 _ _ (tabWf_append 0 _ _ (tabWf_filter 0 _ _ h.2) (wholeMarks_wf _ bs) ?_) (tabWf_filter 0 _ _ h.2) ?_
  · intro p hp q hq
    have h1 := (List.mem_filter.1 hp).2
    have h2 := wholeMarks_mem _ bs q hq
    simp at h1; omega
  · intro p hp q hq
    have h2 := (List.mem_filter.1 hq).2
    simp at h2
    rcases List.mem_append.1 hp with hp | hp
    · have h1 := (List.mem_filter.1 hp).2
      simp at h1; omega
    · have h1 := wholeMarks_mem _ bs p hp; omega

theorem putCoded_wf (m : Memory) (k : Tab (BitVec 16)) (a : Nat) (bs : List PByte) (h : wfPair (m, k)) :
    wfPair (putCoded m k a bs) := by
  unfold putCoded
  generalize cutWords a bs = c
  extract_lets c r1 r2
  have k1 : wfPair r1 := by
    dsimp only [r1]
    split
    · exact h
    · exact putWord_wf m k a c.1 h
  clear_value r1
  have k2 : wfPair r2 := by
    dsimp only [r2]
    split
    · exact k1
    · exact putWhole_wf r1.1 r1.2 _ _ k1
  clear_value r2
  split
  · exact k2
  · exact putWord_wf r2.1 r2.2 _ _ k2

theorem senseWord_wf (lost : Nat) (p : Memory × Tab (BitVec 16)) (w : Nat) (h : wfPair p) : wfPair (senseWord lost p w) := by
  unfold senseWord
  dsimp only
  repeat' split
  all_goals first
    | exact h
    | exact ⟨memSet_wf _ _ _ h.1, tabSet_wf _ _ _ _ h.2⟩
    | exact ⟨h.1, tabSet_wf _ _ _ _ h.2⟩

theorem scrubWord_wf (p : Memory × Tab (BitVec 16)) (w : Nat) (mark : BitVec 16) (h : wfPair p) :
    wfPair (scrubWord p w mark) := by
  unfold scrubWord
  refine ⟨?_, tabSet_wf _ _ _ _ h.2⟩
  dsimp only
  split
  · exact h.1
  · exact memWrite_wf _ _ _ h.1

theorem foldl_wf {α : Type} (f : Memory × Tab (BitVec 16) → α → Memory × Tab (BitVec 16)) (l : List α)
    (p : Memory × Tab (BitVec 16)) (hf : ∀ q x, wfPair q → wfPair (f q x)) (h : wfPair p) : wfPair (l.foldl f p) := by
  induction l generalizing p with
  | nil => exact h
  | cons x l ih => exact ih _ (hf p x h)

theorem scrubBytes_wf (m : Memory) (k : Tab (BitVec 16)) (a n : Nat) (h : wfPair (m, k)) : wfPair (scrubBytes m k a n) :=
  foldl_wf _ _ _ (fun q x hq => scrubWord_wf q x.1 x.2 hq) h

theorem foldl_memSet_wf {α : Type} (f : α → Nat) (b : α → Byte) (l : List α) (m : Memory) (h : Memory.wf m = true) :
    Memory.wf (l.foldl (fun m p => memSet m (f p) (b p)) m) = true := by
  induction l generalizing m with
  | nil => exact h
  | cons x l ih => exact ih _ (memSet_wf m (f x) (b x) h)

theorem Store.wf_stackPair {x : Store} (h : x.wf = true) : wfPair (x.stack, x.stackMark) := by
  rw [Store.wf_iff] at h; exact ⟨h.1, h.2.2.1⟩

theorem Store.wf_tilePair {x : Store} (h : x.wf = true) : wfPair (x.tile, x.tileMark) := by
  rw [Store.wf_iff] at h; exact ⟨h.2.1, h.2.2.2.1⟩

theorem Store.wf_setStack {x : Store} (h : x.wf = true) {m : Memory} {k : Tab (BitVec 16)} (hp : wfPair (m, k)) :
    (Store.mk m x.tile k x.tileMark x.host x.far x.farLine x.farPoison).wf = true := by
  rw [Store.wf_iff] at *; exact ⟨hp.1, h.2.1, hp.2, h.2.2.2⟩

theorem Store.wf_setTile {x : Store} (h : x.wf = true) {m : Memory} {k : Tab (BitVec 16)} (hp : wfPair (m, k)) :
    (Store.mk x.stack m x.stackMark k x.host x.far x.farLine x.farPoison).wf = true := by
  rw [Store.wf_iff] at *; exact ⟨h.1, hp.1, h.2.2.1, hp.2, h.2.2.2.2⟩

theorem Store.wf_setHost {x : Store} (h : x.wf = true) {m : Memory} (hp : Memory.wf m = true) :
    (Store.mk x.stack x.tile x.stackMark x.tileMark m x.far x.farLine x.farPoison).wf = true := by
  rw [Store.wf_iff] at *; exact ⟨h.1, h.2.1, h.2.2.1, h.2.2.2.1, hp, h.2.2.2.2.2⟩

theorem Store.wf_setFar {x : Store} (h : x.wf = true) {m : Memory} {l : Tab Nat} {p : List Nat}
    (hp : Memory.wf m = true) (hl : tabWf 0 l = true) :
    (Store.mk x.stack x.tile x.stackMark x.tileMark x.host m l p).wf = true := by
  rw [Store.wf_iff] at *; exact ⟨h.1, h.2.1, h.2.2.1, h.2.2.2.1, h.2.2.2.2.1, hp, hl⟩

theorem Store.wf_dropTile {x : Store} (h : x.wf = true) :
    (Store.mk x.stack [] x.stackMark [] x.host x.far x.farLine x.farPoison).wf = true :=
  Store.wf_setTile h ⟨rfl, rfl⟩

theorem Store.wf_dropAll {x : Store} (h : x.wf = true) :
    (Store.mk [] [] [] [] x.host x.far x.farLine x.farPoison).wf = true := by
  rw [Store.wf_iff] at *; exact ⟨rfl, rfl, rfl, rfl, h.2.2.2.2⟩

end Sys2Proof.Machine
end

