-- ==== Sys2Proof/Laws/FrameOps.lean ====
section
/-!
SUPPORT. The frame of every operation of the interrupt tree, fault records, the memories, a command's data, remote accesses: see Laws/Frame.lean.
-/

namespace Sys2Proof.Machine

variable {s0 : State}

theorem setQueue_frame (s : State) (q : Nat) (x : Queue) (hs : Frame s0 s) :
    Frame s0 (setQueue s q x) := by
  unfold setQueue
  repeat' first
    | with_reducible assumption | (intro x; clear_value x) | (intro _) | lift_lets -underBinder | split
    | with_reducible apply Frame.upd

theorem setIrqFn_frame (s : State) (fn : Nat) (f : IrqFn) (hs : Frame s0 s) :
    Frame s0 (setIrqFn s fn f) := by
  unfold setIrqFn
  repeat' first
    | with_reducible assumption | (intro x; clear_value x) | (intro _) | lift_lets -underBinder | split
    | with_reducible apply Frame.upd

theorem armFn_frame (s : State) (fn : Nat) (hs : Frame s0 s) :
    Frame s0 (armFn s fn) := by
  unfold armFn
  repeat' first
    | with_reducible assumption | (intro x; clear_value x) | (intro _) | lift_lets -underBinder
    | with_reducible apply setIrqFn_frame | split

theorem irqSettle_frame (s : State) (hs : Frame s0 s) :
    Frame s0 (irqSettle s) := by
  unfold irqSettle
  repeat' first
    | with_reducible assumption
    | (intro x; clear_value (hxv : x = _); with_reducible refine frame_let (s0 := s0) hxv ?_ fun hx => ?_)
    | (intro x; clear_value x) | (intro _) | lift_lets -underBinder | with_reducible apply armFn_frame
    | with_reducible apply frame_foldl | with_reducible apply frame_foldl_snd
    | with_reducible apply frame_foldl_snd_snd | split | with_reducible apply Frame.upd

theorem setLeafBit_frame (g k b : Nat) (s : State) (hs : Frame s0 s) :
    Frame s0 (setLeafBit g k b s) := by
  unfold setLeafBit
  repeat' first
    | with_reducible assumption | (intro x; clear_value x) | (intro _) | lift_lets -underBinder
    | with_reducible apply irqSettle_frame | split | with_reducible apply Frame.upd

theorem raise_frame (c : Cause) (s : State) (hs : Frame s0 s) :
    Frame s0 (raise c s) := by
  unfold raise
  repeat' first
    | with_reducible assumption | (intro x; clear_value x) | (intro _) | lift_lets -underBinder
    | with_reducible apply setLeafBit_frame | split

theorem clearLeaf_frame (fn g k : Nat) (v : W32) (s : State) (hs : Frame s0 s) :
    Frame s0 (clearLeaf fn g k v s) := by
  unfold clearLeaf
  repeat' first
    | with_reducible assumption | (intro x; clear_value x) | (intro _) | lift_lets -underBinder
    | with_reducible apply irqSettle_frame | split | with_reducible apply Frame.upd

theorem fallDue_frame (fn : Nat) (s : State) (hs : Frame s0 s) :
    Frame s0 (fallDue fn s) := by
  unfold fallDue
  repeat' first
    | with_reducible assumption
    | (intro x; clear_value (hxv : x = _); with_reducible refine frame_let (s0 := s0) hxv ?_ fun hx => ?_)
    | (intro x; clear_value x) | (intro _) | lift_lets -underBinder | with_reducible apply setIrqFn_frame | split
    | with_reducible apply Frame.upd

theorem holdoffExpire_frame (fn : Nat) (s : State) (hs : Frame s0 s) :
    Frame s0 (holdoffExpire fn s) := by
  unfold holdoffExpire
  repeat' first
    | with_reducible assumption | (intro _) | lift_lets -underBinder | with_reducible apply fallDue_frame | split

theorem unmaskFn_frame (fn : Nat) (s : State) (hs : Frame s0 s) :
    Frame s0 (unmaskFn fn s) := by
  unfold unmaskFn
  repeat' first
    | with_reducible assumption | (intro x; clear_value x) | (intro _) | lift_lets -underBinder
    | with_reducible apply setIrqFn_frame

theorem eoi_frame (fn : Nat) (s : State) (hs : Frame s0 s) :
    Frame s0 (eoi fn s) := by
  unfold eoi
  repeat' first
    | with_reducible assumption | (intro x; clear_value x) | (intro _) | lift_lets -underBinder
    | with_reducible apply armFn_frame | with_reducible apply setIrqFn_frame | split

theorem startWake_frame (s : State) (hs : Frame s0 s) :
    Frame s0 (startWake s) := by
  unfold startWake
  repeat' first
    | with_reducible assumption | (intro x; clear_value x) | (intro _) | lift_lets -underBinder | split
    | with_reducible apply Frame.upd

theorem setStack_frame (s : State) (n : Nat) (k : Stack) (hs : Frame s0 s) :
    Frame s0 (setStack s n k) := by
  unfold setStack
  repeat' first
    | with_reducible assumption | (intro _) | lift_lets -underBinder | split | with_reducible apply Frame.upd

theorem updCmd_frame (id : Nat) (f : Cmd → Cmd) (s : State) (hs : Frame s0 s) :
    Frame s0 (updCmd id f s) := by
  unfold updCmd
  repeat' first
    | with_reducible assumption | (intro x; clear_value x) | (intro _) | lift_lets -underBinder | split
    | with_reducible apply Frame.upd

theorem beginRestart_frame (s : State) (hs : Frame s0 s) :
    Frame s0 (beginRestart s) := by
  unfold beginRestart
  repeat' first
    | with_reducible assumption | (intro x; clear_value x) | (intro _) | lift_lets -underBinder | split
    | with_reducible apply Frame.upd

theorem report_frame (cls : Nat) (loc : ℕ × ℕ × ℕ) (cmd : Option ℕ) (n : Nat) (s : State) (hs : Frame s0 s) :
    Frame s0 (report cls loc cmd n s) := by
  unfold report
  repeat' first
    | with_reducible assumption
    | (intro x; clear_value (hxv : x = _); with_reducible refine frame_let (s0 := s0) hxv ?_ fun hx => ?_)
    | (intro x; clear_value x) | (intro _) | lift_lets -underBinder | with_reducible apply raise_frame
    | with_reducible apply updCmd_frame | with_reducible apply beginRestart_frame | split
    | with_reducible apply Frame.upd

theorem sense_frame (key n : Nat) (s : State) (hs : Frame s0 s) :
    Frame s0 (sense key n s) := by
  unfold sense
  split
  · exact hs
  · extract_lets inside words r
    refine Frame.updStore hs fun hw => Store.wf_setStack hw ?_
    exact foldl_wf _ _ _ (fun q x hq => senseWord_wf _ q x hq) (Store.wf_stackPair hw)

theorem countStack_frame (key corr bad : Nat) (s : State) (hs : Frame s0 s) :
    Frame s0 (countStack key corr bad s) := by
  unfold countStack
  repeat' first
    | with_reducible assumption | (intro x; clear_value x) | (intro _) | lift_lets -underBinder
    | with_reducible apply setStack_frame | split

theorem notePin_frame (s : State) (e : ℕ × ℕ) (hs : Frame s0 s) :
    Frame s0 (notePin s e) := by
  unfold notePin
  repeat' first
    | with_reducible assumption | (intro x; clear_value x) | (intro _) | lift_lets -underBinder
    | with_reducible apply setStack_frame | with_reducible apply report_frame | split

theorem mergeRead_frame (w : Nat) (s : State) (hs : Frame s0 s) :
    Frame s0 (mergeRead w s) := by
  unfold mergeRead
  repeat' first
    | with_reducible assumption
    | (intro x; clear_value (hxv : x = _); with_reducible refine frame_let (s0 := s0) hxv ?_ fun hx => ?_)
    | (intro x; clear_value x) | (intro _) | lift_lets -underBinder | with_reducible apply sense_frame
    | with_reducible apply countStack_frame | with_reducible apply notePin_frame | with_reducible apply report_frame
    | with_reducible apply frame_foldl | with_reducible apply frame_foldl_snd
    | with_reducible apply frame_foldl_snd_snd | split

theorem putArray_frame (key : Nat) (bs : List PByte) (s : State) (hs : Frame s0 s) :
    Frame s0 (putArray key bs s) := by
  unfold putArray
  have h1 := sense_frame key bs.length s hs
  generalize sense key bs.length s = t at h1
  exact Frame.updStore h1 fun hw => Store.wf_setStack hw (putCoded_wf _ _ _ _ (Store.wf_stackPair hw))

theorem flushEntry_frame (e : Merge) (s : State) (hs : Frame s0 s) :
    Frame s0 (flushEntry e s) := by
  unfold flushEntry
  repeat' first
    | with_reducible assumption | (intro x; clear_value x) | (intro _) | lift_lets -underBinder
    | with_reducible apply putArray_frame | with_reducible apply mergeRead_frame | with_reducible apply frame_foldl
    | with_reducible apply frame_foldl_snd | with_reducible apply frame_foldl_snd_snd | split

theorem flushWhere_frame (k : Nat) (p : Merge → Bool) (s : State) (hs : Frame s0 s) :
    Frame s0 (flushWhere k p s) := by
  unfold flushWhere
  repeat' first
    | with_reducible assumption | (intro x; clear_value x) | (intro _) | lift_lets -underBinder
    | with_reducible apply flushEntry_frame | with_reducible apply setStack_frame | with_reducible apply frame_foldl
    | with_reducible apply frame_foldl_snd | with_reducible apply frame_foldl_snd_snd | split

theorem flushRange_frame (key n : Nat) (s : State) (hs : Frame s0 s) :
    Frame s0 (flushRange key n s) := by
  unfold flushRange
  repeat' first
    | with_reducible assumption | (intro _) | lift_lets -underBinder | with_reducible apply flushWhere_frame

theorem narrow_frame (key : Nat) (bs : List Byte) (s : State) (hs : Frame s0 s) :
    Frame s0 (narrow key bs s) := by
  unfold narrow
  repeat' first
    | with_reducible assumption
    | (intro x; clear_value (hxv : x = _); with_reducible refine frame_let (s0 := s0) hxv ?_ fun hx => ?_)
    | (intro x; clear_value x) | (intro _) | lift_lets -underBinder | with_reducible apply setStack_frame
    | with_reducible apply flushWhere_frame | with_reducible apply frame_foldl | with_reducible apply frame_foldl_snd
    | with_reducible apply frame_foldl_snd_snd | split

theorem putPart_frame (key : Nat) (bs : List PByte) (s : State) (hs : Frame s0 s) :
    Frame s0 (putPart key bs s) := by
  unfold putPart
  repeat' first
    | with_reducible assumption | (intro _) | lift_lets -underBinder | with_reducible apply putArray_frame
    | with_reducible apply mergeRead_frame | with_reducible apply flushRange_frame | with_reducible apply narrow_frame
    | split

theorem putStack_frame (key : Nat) (bs : List PByte) (s : State) (hs : Frame s0 s) :
    Frame s0 (putStack key bs s) := by
  unfold putStack
  repeat' first
    | with_reducible assumption
    | (intro x; clear_value (hxv : x = _); with_reducible refine frame_let (s0 := s0) hxv ?_ fun hx => ?_)
    | (intro x; clear_value x) | (intro _) | lift_lets -underBinder | with_reducible apply putPart_frame
    | with_reducible apply putArray_frame | with_reducible apply flushRange_frame | split

theorem getStack_frame (line : Bool) (key n : Nat) (s : State) (hs : Frame s0 s) :
    Frame s0 (getStack line key n s).2 := by
  unfold getStack
  repeat' first
    | with_reducible assumption
    | (intro x; clear_value (hxv : x = _); with_reducible refine frame_let (s0 := s0) hxv ?_ fun hx => ?_)
    | (intro x; clear_value x) | (intro _) | lift_lets -underBinder | with_reducible apply sense_frame
    | with_reducible apply flushRange_frame | with_reducible apply notePin_frame
    | with_reducible apply countStack_frame | with_reducible apply frame_foldl

theorem setTile_frame (s : State) (t : Nat) (x : Tile) (hs : Frame s0 s) :
    Frame s0 (setTile s t x) := by
  unfold setTile
  repeat' first
    | with_reducible assumption | (intro _) | lift_lets -underBinder | split | with_reducible apply Frame.upd

theorem tileMergeRead_frame (s : State) (w : Nat) (hs : Frame s0 s) :
    Frame s0 (tileMergeRead s w) := by
  unfold tileMergeRead
  repeat' first
    | with_reducible assumption
    | (intro x; clear_value (hxv : x = _); with_reducible refine frame_let (s0 := s0) hxv ?_ fun hx => ?_)
    | (intro x; clear_value x) | (intro _) | lift_lets -underBinder | with_reducible apply report_frame | split

theorem noteBlocks_frame (key n : Nat) (s : State) (hs : Frame s0 s) :
    Frame s0 (noteBlocks key n s) := by
  unfold noteBlocks
  repeat' first
    | with_reducible assumption | (intro x; clear_value x) | (intro _) | lift_lets -underBinder
    | with_reducible apply setTile_frame

theorem putTile_frame (key : Nat) (bs : List PByte) (s : State) (hs : Frame s0 s) :
    Frame s0 (putTile key bs s) := by
  unfold putTile
  split
  · exact hs
  · extract_lets t r
    have h1 : Frame s0 t := frame_foldl _ _ (fun t w h => tileMergeRead_frame t w h) hs
    have hr : t.store.wf = true → wfPair r := fun hw => putCoded_wf _ _ _ _ (Store.wf_tilePair hw)
    clear_value t r
    exact noteBlocks_frame _ _ _ (Frame.updStore h1 fun hw => Store.wf_setTile hw (hr hw))

theorem getFar_frame (mfa key n : Nat) (s : State) (hs : Frame s0 s) :
    Frame s0 (getFar mfa key n s).2 := by
  unfold getFar
  repeat' first
    | with_reducible assumption | (intro x; clear_value x) | (intro _) | lift_lets -underBinder | split
    | with_reducible apply Frame.upd

theorem putFar_frame (mfa key : Nat) (bs : List PByte) (s : State) (hs : Frame s0 s) :
    Frame s0 (putFar mfa key bs s) := by
  unfold putFar
  extract_lets line at0 old new merged bad f t
  have h1 : Frame s0 t := by
    dsimp only [t]
    split
    · exact report_frame _ _ _ _ _ (Frame.upd hs)
    · exact hs
  clear_value t
  refine Frame.updStore h1 fun hw => Store.wf_setFar hw (memWrite_wf _ _ _ ?_) (tabSet_wf _ _ _ _ ?_)
  · exact ((Store.wf_iff _).1 hw).2.2.2.2.2.1
  · exact ((Store.wf_iff _).1 hw).2.2.2.2.2.2

theorem putHost_frame (a : Nat) (bs : List PByte) (s : State) (hs : Frame s0 s) :
    Frame s0 (putHost a bs s) := by
  unfold putHost
  exact Frame.updStore hs fun hw => Store.wf_setHost hw (memWrite_wf _ _ _ ((Store.wf_iff _).1 hw).2.2.2.2.1)

theorem setBounce_frame (s : State) (p : Nat) (b : Bounce) (hs : Frame s0 s) :
    Frame s0 (setBounce s p b) := by
  unfold setBounce
  repeat' first
    | with_reducible assumption | (intro x; clear_value x) | (intro _) | lift_lets -underBinder | split
    | with_reducible apply Frame.upd

theorem sluiceFail_frame (p : Nat) (s : State) (hs : Frame s0 s) :
    Frame s0 (sluiceFail p s) := by
  unfold sluiceFail
  repeat' first
    | with_reducible assumption | (intro x; clear_value x) | (intro _) | lift_lets -underBinder
    | with_reducible apply raise_frame | with_reducible apply setBounce_frame

theorem getFrame_frame (p f byte n : Nat) (s : State) (hs : Frame s0 s) :
    Frame s0 (getFrame p f byte n s).2 := by
  unfold getFrame
  repeat' first
    | with_reducible assumption | (intro x; clear_value x) | (intro _) | lift_lets -underBinder
    | with_reducible apply setBounce_frame | with_reducible apply sluiceFail_frame | split

theorem putFrame_frame (p f byte : Nat) (bs : List PByte) (s : State) (hs : Frame s0 s) :
    Frame s0 (putFrame p f byte bs s) := by
  have key : ∀ (a : Nat) (raw : List Byte) (t : State), Frame s0 t →
      Frame s0 { t with store := { t.store with host := memWrite t.store.host a raw } } := fun a raw t ht =>
    Frame.updStore ht fun hw => Store.wf_setHost hw (memWrite_wf _ _ _ ((Store.wf_iff _).1 hw).2.2.2.2.1)
  unfold putFrame
  extract_lets go
  have hgo : ∀ text b t, Frame s0 t → Frame s0 (go text b t) := fun text b t ht =>
    key _ _ _ (setBounce_frame t p _ ht)
  clear_value go
  split
  · exact hgo _ _ _ hs
  · split
    · exact hgo _ _ _ hs
    · exact sluiceFail_frame p s hs

theorem getHome_frame (line : Bool) (h : Home) (n : Nat) (s : State) (hs : Frame s0 s) :
    Frame s0 (getHome line h n s).2 := by
  unfold getHome
  repeat' first
    | with_reducible assumption | (intro _) | lift_lets -underBinder | with_reducible apply getStack_frame
    | with_reducible apply getFar_frame | with_reducible apply getFrame_frame | split

theorem putHome_frame (h : Home) (bs : List PByte) (s : State) (hs : Frame s0 s) :
    Frame s0 (putHome h bs s) := by
  unfold putHome
  repeat' first
    | with_reducible assumption | (intro _) | lift_lets -underBinder | with_reducible apply putStack_frame
    | with_reducible apply putTile_frame | with_reducible apply putFar_frame | with_reducible apply putHost_frame
    | with_reducible apply putFrame_frame | split

theorem getPieces_frame (line : Bool) (x1 : List (Home × ℕ)) (x2 : State) (hx2 : Frame s0 x2) :
    Frame s0 (getPieces line x1 x2).2 := by
  induction x1 generalizing x2 with
  | nil => exact hx2
  | cons p ps ih => exact ih _ (getHome_frame line p.1 p.2 x2 hx2)

theorem putPieces_frame (x0 : List (Home × ℕ)) (x1 : List PByte) (x2 : State) (hx2 : Frame s0 x2) :
    Frame s0 (putPieces x0 x1 x2) := by
  induction x0 generalizing x1 x2 with
  | nil => exact hx2
  | cons p ps ih => exact ih _ _ (putHome_frame p.1 _ x2 hx2)

theorem noteRepairs_frame (cmd : Option ℕ) (keys : List ℕ) (s : State) (hs : Frame s0 s) :
    Frame s0 (noteRepairs cmd keys s) := by
  unfold noteRepairs
  repeat' first
    | with_reducible assumption
    | (intro x; clear_value (hxv : x = _); with_reducible refine frame_let (s0 := s0) hxv ?_ fun hx => ?_)
    | (intro x; clear_value x) | (intro _) | lift_lets -underBinder | with_reducible apply updCmd_frame
    | with_reducible apply frame_foldl | with_reducible apply frame_foldl_snd
    | with_reducible apply frame_foldl_snd_snd | split | with_reducible apply Frame.upd

theorem charge_frame (cmd : Option ℕ) (g : Got) (s : State) (hs : Frame s0 s) :
    Frame s0 (charge cmd g s) := by
  unfold charge
  repeat' first
    | with_reducible assumption
    | (intro x; clear_value (hxv : x = _); with_reducible refine frame_let (s0 := s0) hxv ?_ fun hx => ?_) | (intro _)
    | lift_lets -underBinder | with_reducible apply report_frame | with_reducible apply noteRepairs_frame
    | with_reducible apply updCmd_frame | with_reducible apply frame_foldl | with_reducible apply frame_foldl_snd
    | with_reducible apply frame_foldl_snd_snd | split

theorem readCharged_frame (line : Bool) (cmd : Option ℕ) (ps : List (Home × ℕ)) (s : State) (hs : Frame s0 s) :
    Frame s0 (readCharged line cmd ps s).2 := by
  unfold readCharged
  repeat' first
    | with_reducible assumption
    | (intro x; clear_value (hxv : x = _); with_reducible refine frame_let_snd (s0 := s0) hxv ?_ fun hx => ?_)
    | (intro _) | lift_lets -underBinder | with_reducible apply getPieces_frame | with_reducible apply charge_frame

theorem fetch_frame (line : Bool) (who : Who) (part : Option ℕ) (cmd : Option ℕ) (a : W64) (n : Nat) (s : State)
    (hs : Frame s0 s) :
    ∀ z, (fetch line who part cmd a n s) = .ok z → Frame s0 z.2 := by
  intro z hz
  unfold fetch at hz
  split at hz
  · cases hz
  · cases hz
    exact charge_frame _ _ _ (getPieces_frame _ _ _ hs)
  · cases hz

theorem store_frame (who : Who) (part : Option ℕ) (a : W64) (bs : List PByte) (s : State) (hs : Frame s0 s) :
    ∀ z, (store who part a bs s) = .ok z → Frame s0 z := by
  intro z hz
  unfold store at hz
  split at hz
  · cases hz
  · cases hz
    exact putPieces_frame _ _ _ hs
  · cases hz

theorem firmRead_frame (part : Nat) (cmd : Option ℕ) (rs : List (ℕ × ℕ)) (s : State) (hs : Frame s0 s) :
    Frame s0 (firmRead part cmd rs s) := by
  unfold firmRead
  repeat' first
    | with_reducible assumption | (intro _) | lift_lets -underBinder | with_reducible apply readCharged_frame
    | with_reducible apply frame_foldl

theorem pokeData_frame (part off : Nat) (bs : List PByte) (s : State) (hs : Frame s0 s) :
    Frame s0 (pokeData part off bs s) := by
  unfold pokeData
  repeat' first
    | with_reducible assumption | (intro _) | lift_lets -underBinder | with_reducible apply putPieces_frame

theorem poke_frame (part off : Nat) (bs : List Byte) (s : State) (hs : Frame s0 s) :
    Frame s0 (poke part off bs s) := by
  unfold poke
  repeat' first | with_reducible assumption | (intro _) | lift_lets -underBinder | with_reducible apply pokeData_frame

theorem amend_frame (part off : Nat) (bs : List Byte) (s : State) (hs : Frame s0 s) :
    Frame s0 (amend part off bs s) := by
  unfold amend
  repeat' first | with_reducible assumption | (intro _) | lift_lets -underBinder | with_reducible apply pokeData_frame

theorem bankWrite_frame (key : Nat) (bs : List PByte) (s : State) (hs : Frame s0 s) :
    Frame s0 (bankWrite key bs s) := by
  unfold bankWrite
  repeat' first | with_reducible assumption | (intro _) | lift_lets -underBinder | with_reducible apply putStack_frame

theorem zeroStack_frame (key n : Nat) (s : State) (hs : Frame s0 s) :
    Frame s0 (zeroStack key n s) := by
  unfold zeroStack
  extract_lets src t k st
  have h1 : Frame s0 t := Frame.updStore hs fun hw => Store.wf_setStack hw
    ⟨memClear_wf _ _ _ (Store.wf_stackPair hw).1, tabWf_filter 0 _ _ (Store.wf_stackPair hw).2⟩
  clear_value t
  split
  · exact setStack_frame _ _ _ h1
  · exact h1

theorem zeroTile_frame (key n : Nat) (s : State) (hs : Frame s0 s) :
    Frame s0 (zeroTile key n s) := by
  unfold zeroTile
  exact Frame.updStore hs fun hw => Store.wf_setTile hw
    ⟨memClear_wf _ _ _ (Store.wf_tilePair hw).1, tabWf_filter 0 _ _ (Store.wf_tilePair hw).2⟩

theorem setBank_frame (s : State) (k b : Nat) (x : Bank) (hs : Frame s0 s) :
    Frame s0 (setBank s k b x) := by
  unfold setBank
  repeat' first
    | with_reducible assumption | (intro x; clear_value x) | (intro _) | lift_lets -underBinder
    | with_reducible apply setStack_frame

theorem scrubStack_frame (cmd : Option ℕ) (key n : Nat) (s : State) (hs : Frame s0 s) :
    Frame s0 (scrubStack cmd key n s).2 := by
  unfold scrubStack
  extract_lets t r notes q weak pins src u v
  have h1 : Frame s0 t := sense_frame _ _ _ (flushRange_frame _ _ _ hs)
  have hq : t.store.wf = true → wfPair q := fun hw => scrubBytes_wf _ _ _ _ (Store.wf_stackPair hw)
  clear_value t r notes weak pins
  have h2 : Frame s0 u := countStack_frame _ _ _ _ (Frame.updStore h1 fun hw => Store.wf_setStack hw (hq hw))
  clear_value u
  have h3 : Frame s0 v := frame_foldl _ _ (fun t x ht => notePin_frame t x ht) h2
  clear_value v
  dsimp only
  apply noteRepairs_frame
  apply frame_foldl
  · intro t x ht
    exact report_frame _ _ _ _ _ ht
  · exact h3

theorem scrubTile_frame (cmd : Option ℕ) (key n : Nat) (s : State) (hs : Frame s0 s) :
    Frame s0 (scrubTile cmd key n s).2 := by
  unfold scrubTile
  extract_lets r notes q back
  refine frame_foldl _ _ (fun t x ht => report_frame _ _ _ _ t ht) ?_
  refine frame_foldl _ _ (fun t x ht => noteBlocks_frame _ _ t ht) ?_
  exact Frame.updStore hs fun hw => Store.wf_setTile hw (scrubBytes_wf _ _ _ _ (Store.wf_tilePair hw))

theorem zeroPages_frame (k lo hi : Nat) (s : State) (hs : Frame s0 s) :
    Frame s0 (zeroPages k lo hi s) := by
  unfold zeroPages
  exact setStack_frame _ _ _ (Frame.updStore hs fun hw => Store.wf_setStack hw
    ⟨tabWf_filter 0 _ _ (Store.wf_stackPair hw).1, tabWf_filter 0 _ _ (Store.wf_stackPair hw).2⟩)

theorem onUnit_frame (limit n : Nat) (s : State) (f : State → State) (hs : Frame s0 s)
    (hf : ∀ y0, Frame s0 y0 → Frame s0 (f y0)) :
    FrameO s0 (onUnit limit n s f) := by
  unfold onUnit
  repeat' first
    | with_reducible assumption | exact trivial | (intro _) | lift_lets -underBinder | with_reducible apply hf
    | with_reducible apply FrameO.next | split

theorem whenRunning_frame (s : State) (f : State → State) (hs : Frame s0 s) (hf : ∀ y0, Frame s0 y0 → Frame s0 (f y0)) :
    Frame s0 (whenRunning s f) := by
  unfold whenRunning
  repeat' first | with_reducible assumption | (intro _) | lift_lets -underBinder | with_reducible apply hf | split

theorem countWait_frame (k dt : Nat) (s : State) (hs : Frame s0 s) :
    Frame s0 (countWait k dt s) := by
  unfold countWait
  repeat' first
    | with_reducible assumption | (intro x; clear_value x) | (intro _) | lift_lets -underBinder
    | with_reducible apply setStack_frame | split

theorem putRead_frame (h : Home) (place : Nat) (bs : List PByte) (s : State) (hs : Frame s0 s) :
    Frame s0 (putRead h place bs s) := by
  unfold putRead
  repeat' first
    | with_reducible assumption | (intro x; clear_value x) | (intro _) | lift_lets -underBinder | split
    | with_reducible apply Frame.upd

theorem hostServe_frame (h : Home) (write : Bool) (data : List Byte) (place n : Nat) (s : State) (hs : Frame s0 s) :
    Frame s0 (hostServe h write data place n s) := by
  unfold hostServe
  repeat' first
    | with_reducible assumption
    | (intro x; clear_value (hxv : x = _); with_reducible refine frame_let_snd (s0 := s0) hxv ?_ fun hx => ?_)
    | (intro _) | lift_lets -underBinder | with_reducible apply putHome_frame | with_reducible apply readCharged_frame
    | with_reducible apply putRead_frame | split

theorem setHostWaits_frame (fn n : Nat) (s : State) (hs : Frame s0 s) :
    Frame s0 (setHostWaits fn n s) := by
  unfold setHostWaits
  repeat' first
    | with_reducible assumption | (intro x; clear_value x) | (intro _) | lift_lets -underBinder | split
    | with_reducible apply Frame.upd

theorem hostPiece_frame (fn : Nat) (h : Home) (write : Bool) (data : List Byte) (place n : Nat) (s : State)
    (hs : Frame s0 s) :
    Frame s0 (hostPiece fn h write data place n s) := by
  unfold hostPiece
  repeat' first
    | with_reducible assumption | (intro x; clear_value x) | (intro _) | lift_lets -underBinder
    | with_reducible apply setHostWaits_frame | with_reducible apply setBank_frame
    | with_reducible apply hostServe_frame | split

theorem hostPieces_frame (fn : Nat) (write : Bool) (data : List Byte) (x3 : List (Home × ℕ)) (x4 : Nat) (x5 : State)
    (hx5 : Frame s0 x5) :
    Frame s0 (hostPieces fn write data x3 x4 x5) := by
  induction x3 generalizing x4 x5 with
  | nil =>
    unfold hostPieces
    try dsimp only
    repeat' with_reducible assumption
  | cons x xs ih =>
    obtain ⟨p, q⟩ := x
    unfold hostPieces
    try dsimp only
    repeat' first
      | with_reducible assumption | (intro _) | lift_lets -underBinder | with_reducible apply hostPiece_frame
      | with_reducible apply ih

theorem readOnes_frame (n : Nat) (s : State) (hs : Frame s0 s) :
    Frame s0 (readOnes n s) := by
  unfold readOnes
  repeat' first
    | with_reducible assumption | (intro x; clear_value x) | (intro _) | lift_lets -underBinder | split
    | with_reducible apply Frame.upd

theorem serveBank_frame (k b n : Nat) (s : State) (hs : Frame s0 s) :
    Frame s0 (serveBank k b n s) := by
  unfold serveBank
  repeat' first
    | with_reducible assumption | (intro x; clear_value x) | (intro _) | lift_lets -underBinder
    | with_reducible apply countWait_frame | with_reducible apply setBank_frame | with_reducible apply frame_foldl

theorem settle_frame (k b x2 : Nat) (x3 : State) (hx3 : Frame s0 x3) :
    Frame s0 (settle k b x2 x3) := by
  induction x2 generalizing x3 with
  | zero =>
    unfold settle
    try dsimp only
    repeat' with_reducible assumption
  | succ k ih =>
    unfold settle
    try dsimp only
    repeat' first
      | with_reducible assumption | (intro _) | lift_lets -underBinder | with_reducible apply serveBank_frame
      | with_reducible apply setBank_frame | with_reducible apply hostServe_frame
      | with_reducible apply setHostWaits_frame | with_reducible apply ih | split

theorem settleBank_frame (k b : Nat) (s : State) (hs : Frame s0 s) :
    Frame s0 (settleBank k b s) := by
  unfold settleBank
  repeat' first | with_reducible assumption | (intro _) | lift_lets -underBinder | with_reducible apply settle_frame

theorem applyBell_frame (b : Bell) (s : State) (hs : Frame s0 s) :
    Frame s0 (applyBell b s) := by
  unfold applyBell
  repeat' first
    | with_reducible assumption | (intro x; clear_value x) | (intro _) | lift_lets -underBinder
    | with_reducible apply raise_frame | with_reducible apply setQueue_frame | split

theorem takeBell_frame (b : Bell) (s : State) (hs : Frame s0 s) :
    Frame s0 (takeBell b s) := by
  unfold takeBell
  repeat' first
    | with_reducible assumption | (intro x; clear_value x) | (intro _) | lift_lets -underBinder
    | with_reducible apply applyBell_frame | with_reducible apply startWake_frame | split
    | with_reducible apply Frame.upd

theorem takePost_frame (fn : Nat) (p : Post) (s : State) (hs : Frame s0 s) :
    Frame s0 (takePost fn p s) := by
  unfold takePost
  repeat' first
    | with_reducible assumption | (intro _) | lift_lets -underBinder | with_reducible apply hostPieces_frame
    | with_reducible apply raise_frame | with_reducible apply readOnes_frame | with_reducible apply takeBell_frame
    | split

theorem setPosts_frame (fn : Nat) (ps : List Post) (s : State) (hs : Frame s0 s) :
    Frame s0 (setPosts fn ps s) := by
  unfold setPosts
  repeat' first
    | with_reducible assumption | (intro x; clear_value x) | (intro _) | lift_lets -underBinder | split
    | with_reducible apply Frame.upd

theorem issue_frame (fn : Nat) (p : Post) (s : State) (hs : Frame s0 s) :
    Frame s0 (issue fn p s) := by
  unfold issue
  repeat' first
    | with_reducible assumption | (intro x; clear_value x) | (intro _) | lift_lets -underBinder
    | with_reducible apply takePost_frame | with_reducible apply setPosts_frame | split

theorem drainPosts_frame (fn x1 : Nat) (x2 : State) (hx2 : Frame s0 x2) :
    Frame s0 (drainPosts fn x1 x2) := by
  induction x1 generalizing x2 with
  | zero =>
    unfold drainPosts
    try dsimp only
    repeat' with_reducible assumption
  | succ k ih =>
    unfold drainPosts
    try dsimp only
    repeat' first
      | with_reducible assumption | (intro _) | lift_lets -underBinder | with_reducible apply setPosts_frame
      | with_reducible apply takePost_frame | with_reducible apply ih | split

theorem drainAll_frame (s : State) (hs : Frame s0 s) :
    Frame s0 (drainAll s) := by
  unfold drainAll
  repeat' first
    | with_reducible assumption | (intro _) | lift_lets -underBinder | with_reducible apply drainPosts_frame
    | with_reducible apply frame_foldl

theorem arrive_frame (who : Agent) (key : Nat) (s : State) (hs : Frame s0 s) :
    Frame s0 (arrive who key s) := by
  unfold arrive
  repeat' first
    | with_reducible assumption | (intro x; clear_value x) | (intro _) | lift_lets -underBinder
    | with_reducible apply setBank_frame | split

theorem pass_frame (who : Agent) (key : Nat) (s : State) (hs : Frame s0 s) :
    Frame s0 (pass who key s) := by
  unfold pass
  repeat' first
    | with_reducible assumption | (intro x; clear_value x) | (intro _) | lift_lets -underBinder
    | with_reducible apply settleBank_frame | with_reducible apply setBank_frame | split

theorem noteWaits_frame (who : Agent) (ps : List (Home × ℕ)) (s : State) (hs : Frame s0 s) :
    Frame s0 (noteWaits who ps s) := by
  unfold noteWaits
  repeat' first
    | with_reducible assumption | (intro x; clear_value x) | (intro _) | lift_lets -underBinder
    | with_reducible apply drainAll_frame | with_reducible apply pass_frame | with_reducible apply arrive_frame
    | with_reducible apply frame_foldl | with_reducible apply frame_foldl_snd
    | with_reducible apply frame_foldl_snd_snd | split

theorem serveAll_frame (s : State) (hs : Frame s0 s) :
    Frame s0 (serveAll s) := by
  unfold serveAll
  repeat' first
    | with_reducible assumption | (intro x; clear_value x) | (intro _) | lift_lets -underBinder
    | with_reducible apply drainAll_frame | with_reducible apply settleBank_frame | with_reducible apply frame_foldl

theorem setPort_frame (s : State) (p : Nat) (x : Port) (hs : Frame s0 s) :
    Frame s0 (setPort s p x) := by
  unfold setPort
  repeat' first
    | with_reducible assumption | (intro x; clear_value x) | (intro _) | lift_lets -underBinder | split
    | with_reducible apply Frame.upd

theorem setPool_frame (s : State) (p : Nat) (x : Pool) (hs : Frame s0 s) :
    Frame s0 (setPool s p x) := by
  unfold setPool
  repeat' first
    | with_reducible assumption | (intro x; clear_value x) | (intro _) | lift_lets -underBinder | split
    | with_reducible apply Frame.upd

theorem latchAfter_frame (fn off : Nat) (s : State) (hs : Frame s0 s) :
    Frame s0 (latchAfter fn off s) := by
  unfold latchAfter
  extract_lets hi
  repeat' split
  all_goals first | exact hs | exact setTile_frame _ _ _ hs | exact Frame.upd hs

theorem clearStack_frame (n r : Nat) (s : State) (hs : Frame s0 s) :
    Frame s0 (clearStack n r s) := by
  unfold clearStack
  repeat' first
    | with_reducible assumption | (intro x; clear_value x) | (intro _) | lift_lets -underBinder
    | with_reducible apply setStack_frame | split

theorem clearPort_frame (p r : Nat) (s : State) (hs : Frame s0 s) :
    Frame s0 (clearPort p r s) := by
  unfold clearPort
  repeat' first
    | with_reducible assumption | (intro x; clear_value x) | (intro _) | lift_lets -underBinder
    | with_reducible apply setPort_frame | split

theorem clearFault_frame (off : Nat) (s : State) (hs : Frame s0 s) :
    Frame s0 (clearFault off s) := by
  unfold clearFault
  repeat' first
    | with_reducible assumption | (intro x; clear_value x) | (intro _) | lift_lets -underBinder | split
    | with_reducible apply Frame.upd

theorem clearServe_frame (fn off : Nat) (s : State) (hs : Frame s0 s) :
    Frame s0 (clearServe fn off s) := by
  unfold clearServe
  repeat' first
    | with_reducible assumption | (intro x; clear_value x) | (intro _) | lift_lets -underBinder
    | with_reducible apply setPool_frame | split | with_reducible apply Frame.upd

theorem clearAfter_frame (fn off : Nat) (s : State) (hs : Frame s0 s) :
    Frame s0 (clearAfter fn off s) := by
  unfold clearAfter
  repeat' split
  all_goals first | exact hs | exact clearServe_frame _ _ _ hs | exact clearFault_frame _ _ hs | exact setBounce_frame _ _ _ hs | exact clearStack_frame _ _ _ hs | exact clearPort_frame _ _ _ hs | exact Frame.upd hs

theorem regRead_frame (fn off : Nat) (s : State) (hs : Frame s0 s) :
    Frame s0 (regRead fn off s).2 := by
  unfold regRead
  repeat' first
    | with_reducible assumption | (intro _) | lift_lets -underBinder | with_reducible apply clearAfter_frame
    | with_reducible apply latchAfter_frame | split

theorem rejectCmd_frame (id : Nat) (m : Mark) (s : State) (hs : Frame s0 s) :
    Frame s0 (rejectCmd id m s) := by
  unfold rejectCmd
  repeat' first | with_reducible assumption | (intro _) | lift_lets -underBinder | with_reducible apply updCmd_frame

theorem finishCmd_frame (id : Nat) (ms : List Mark) (s : State) (hs : Frame s0 s) :
    Frame s0 (finishCmd id ms s) := by
  unfold finishCmd
  repeat' first | with_reducible assumption | (intro _) | lift_lets -underBinder | with_reducible apply updCmd_frame

theorem doneCmd_frame (id result : Nat) (s : State) (hs : Frame s0 s) :
    Frame s0 (doneCmd id result s) := by
  unfold doneCmd
  repeat' first
    | with_reducible assumption | (intro _) | lift_lets -underBinder | with_reducible apply finishCmd_frame

theorem waitCmd_frame (id : Nat) (s : State) (hs : Frame s0 s) :
    Frame s0 (waitCmd id s) := by
  unfold waitCmd
  repeat' first | with_reducible assumption | (intro _) | lift_lets -underBinder | with_reducible apply updCmd_frame

theorem resumeCmd_frame (id : Nat) (s : State) (hs : Frame s0 s) :
    Frame s0 (resumeCmd id s) := by
  unfold resumeCmd
  repeat' first | with_reducible assumption | (intro _) | lift_lets -underBinder | with_reducible apply updCmd_frame

theorem onCmd_frame (op id : Nat) (s : State) (f : Cmd → State → State) (hs : Frame s0 s)
    (hf : ∀ y0 y1, Frame s0 y1 → Frame s0 (f y0 y1)) :
    FrameO s0 (onCmd op id s f) := by
  unfold onCmd
  repeat' first
    | with_reducible assumption | exact trivial | (intro _) | lift_lets -underBinder | with_reducible apply hf
    | with_reducible apply FrameO.next | split

theorem carriedOver_frame (c : Cmd) (s : State) (hs : Frame s0 s) :
    Frame s0 (carriedOver c s) := by
  unfold carriedOver
  repeat' first
    | with_reducible assumption | (intro _) | lift_lets -underBinder | with_reducible apply updCmd_frame | split

theorem Cmd.fetch_frame (c : Cmd) (a : W64) (n : Nat) (s : State) (hs : Frame s0 s) :
    Frame s0 (Cmd.fetch c a n s).2 := by
  unfold Cmd.fetch
  split
  · rename_i r hr
    exact carriedOver_frame _ _ (Machine.fetch_frame _ _ _ _ _ _ _ hs r hr)
  · exact hs

theorem Cmd.store_frame (c : Cmd) (a : W64) (bs : List PByte) (s : State) (hs : Frame s0 s) :
    Frame s0 (Cmd.store c a bs s) := by
  unfold Cmd.store
  split
  · rename_i r hr
    exact Machine.store_frame _ _ _ _ _ hs r hr
  · exact hs

theorem timeoutNow_frame (id : Nat) (s : State) (hs : Frame s0 s) :
    Frame s0 (timeoutNow id s) := by
  unfold timeoutNow
  repeat' first
    | with_reducible assumption | (intro _) | lift_lets -underBinder | with_reducible apply finishCmd_frame
    | with_reducible apply updCmd_frame

theorem Cmd.gate_frame (c : Cmd) (ps : List (Home × ℕ)) (s : State) (go : State → State) (hs : Frame s0 s)
    (hgo : ∀ y0, Frame s0 y0 → Frame s0 (go y0)) :
    Frame s0 (Cmd.gate c ps s go) := by
  unfold Cmd.gate
  split
  · exact hgo _ (noteWaits_frame _ _ _ hs)
  · exact noteWaits_frame _ _ _ hs
  · exact timeoutNow_frame _ _ hs

theorem putOut_frame (p vc : Nat) (m : Msg) (s : State) (hs : Frame s0 s) :
    Frame s0 (putOut p vc m s) := by
  unfold putOut
  repeat' first
    | with_reducible assumption | (intro x; clear_value x) | (intro _) | lift_lets -underBinder
    | with_reducible apply setPort_frame

theorem sendMsg_frame (vc : Nat) (m : Msg) (s : State) (hs : Frame s0 s) :
    ∀ z, (sendMsg vc m s) = some z → Frame s0 z := by
  intro z hz
  unfold sendMsg at hz
  obtain ⟨p, _, rfl⟩ := Option.map_eq_some_iff.1 hz
  exact putOut_frame _ _ _ _ hs

theorem countDrop_frame (s : State) (hs : Frame s0 s) :
    Frame s0 (countDrop s) := by
  unfold countDrop
  repeat' first
    | with_reducible assumption | (intro x; clear_value x) | (intro _) | lift_lets -underBinder | split
    | with_reducible apply Frame.upd

theorem towOn_frame (m : Msg) (s : State) (hs : Frame s0 s) :
    Frame s0 (towOn m s) := by
  unfold towOn
  repeat' first
    | with_reducible assumption | (intro _) | lift_lets -underBinder | with_reducible apply putOut_frame
    | with_reducible apply countDrop_frame | split

theorem towNow_frame (dest : Nat) (bs : List Byte) (s : State) (hs : Frame s0 s) :
    Frame s0 (towNow dest bs s) := by
  unfold towNow
  repeat' first
    | with_reducible assumption | (intro x; clear_value x) | (intro _) | lift_lets -underBinder
    | with_reducible apply putOut_frame | with_reducible apply towOn_frame | with_reducible apply frame_foldl
    | with_reducible apply frame_foldl_snd | with_reducible apply frame_foldl_snd_snd | split

theorem sendTow_frame (dest : Nat) (bs : List Byte) (s : State) (hs : Frame s0 s) :
    Frame s0 (sendTow dest bs s) := by
  unfold sendTow
  repeat' first
    | with_reducible assumption | (intro x; clear_value x) | (intro _) | lift_lets -underBinder
    | with_reducible apply towNow_frame | split | with_reducible apply Frame.upd

theorem releaseTow_frame (s : State) (hs : Frame s0 s) :
    Frame s0 (releaseTow s) := by
  unfold releaseTow
  repeat' first
    | with_reducible assumption | (intro x; clear_value x) | (intro _) | lift_lets -underBinder
    | with_reducible apply towNow_frame | with_reducible apply frame_foldl | with_reducible apply frame_foldl_snd
    | with_reducible apply frame_foldl_snd_snd | split | with_reducible apply Frame.upd

theorem respond_frame (m : Msg) (kind length : Nat) (data : List PByte) (s : State) (hs : Frame s0 s) :
    Frame s0 (respond m kind length data s) := by
  unfold respond
  repeat' first
    | with_reducible assumption | (intro _) | lift_lets -underBinder
    | with_reducible refine sendMsg_frame _ _ _ ?_ _ (by assumption) | with_reducible apply countDrop_frame | split

theorem dropTransit_frame (vc : Nat) (m : Msg) (s : State) (hs : Frame s0 s) :
    Frame s0 (dropTransit vc m s) := by
  unfold dropTransit
  repeat' first
    | with_reducible assumption
    | (intro x; clear_value (hxv : x = _); with_reducible refine frame_let (s0 := s0) hxv ?_ fun hx => ?_) | (intro _)
    | lift_lets -underBinder | with_reducible apply countDrop_frame | with_reducible apply respond_frame | split

theorem noteJobFault_frame (loc : ℕ × ℕ × ℕ) (cmd : Option ℕ) (s : State) (hs : Frame s0 s) :
    Frame s0 (noteJobFault loc cmd s) := by
  unfold noteJobFault
  repeat' first
    | with_reducible assumption | (intro x; clear_value x) | (intro _) | lift_lets -underBinder | split
    | with_reducible apply Frame.upd

theorem updEntry_frame (t id : Nat) (f : Entry → Entry) (s : State) (hs : Frame s0 s) :
    Frame s0 (updEntry t id f s) := by
  unfold updEntry
  repeat' first
    | with_reducible assumption | (intro x; clear_value x) | (intro _) | lift_lets -underBinder
    | with_reducible apply setTile_frame

theorem settleRemote_frame (tag : Nat) (s : State) (hs : Frame s0 s) :
    Frame s0 (settleRemote tag s) := by
  unfold settleRemote
  repeat' first
    | with_reducible assumption
    | (intro x; clear_value (hxv : x = _); with_reducible refine frame_let (s0 := s0) hxv ?_ fun hx => ?_)
    | (intro x; clear_value x) | (intro _) | lift_lets -underBinder | with_reducible apply updCmd_frame
    | with_reducible apply updEntry_frame | split | with_reducible apply Frame.upd

theorem refuseRemote_frame (tag : Nat) (s : State) (hs : Frame s0 s) :
    Frame s0 (refuseRemote tag s) := by
  unfold refuseRemote
  repeat' first
    | with_reducible assumption
    | (intro x; clear_value (hxv : x = _); with_reducible refine frame_let (s0 := s0) hxv ?_ fun hx => ?_) | (intro _)
    | lift_lets -underBinder | with_reducible apply settleRemote_frame | with_reducible apply noteJobFault_frame
    | with_reducible apply updCmd_frame | split

theorem ask_frame (w : Asker) (kind : RemoteKind) (a : W64) (n : Nat) (data : List PByte) (s : State)
    (hs : Frame s0 s) :
    Frame s0 (ask w kind a n data s) := by
  unfold ask
  repeat' first
    | with_reducible assumption
    | (intro x; clear_value (hxv : x = _); with_reducible refine frame_let (s0 := s0) hxv ?_ fun hx => ?_)
    | (intro x; clear_value x) | (intro _) | lift_lets -underBinder | with_reducible apply updEntry_frame
    | with_reducible apply updCmd_frame | with_reducible refine sendMsg_frame _ _ _ ?_ _ (by assumption)
    | with_reducible apply refuseRemote_frame | with_reducible apply countDrop_frame | split
    | with_reducible apply Frame.upd

theorem remoteWrite_frame (w : Asker) (x1 : Nat) (x2 : W64) (x3 : List PByte) (x4 : State) (hx4 : Frame s0 x4) :
    Frame s0 (remoteWrite w x1 x2 x3 x4) := by
  induction x1 generalizing x2 x3 x4 with
  | zero =>
    unfold remoteWrite
    try dsimp only
    repeat' with_reducible assumption
  | succ k ih =>
    unfold remoteWrite
    try dsimp only
    repeat' first
      | with_reducible assumption | (intro _) | lift_lets -underBinder | with_reducible apply ask_frame
      | with_reducible apply ih | split

theorem remoteRead_frame (w : Asker) (x1 : Nat) (x2 : W64) (x3 : Nat) (x4 : State) (hx4 : Frame s0 x4) :
    Frame s0 (remoteRead w x1 x2 x3 x4) := by
  induction x1 generalizing x2 x3 x4 with
  | zero =>
    unfold remoteRead
    try dsimp only
    repeat' with_reducible assumption
  | succ k ih =>
    unfold remoteRead
    try dsimp only
    repeat' first
      | with_reducible assumption | (intro _) | lift_lets -underBinder | with_reducible apply ask_frame
      | with_reducible apply ih | split

theorem remoteQuery_frame (w : Asker) (write : Bool) (x2 : Nat) (x3 : W64) (x4 : Nat) (x5 : State)
    (hx5 : Frame s0 x5) :
    Frame s0 (remoteQuery w write x2 x3 x4 x5) := by
  induction x2 generalizing x3 x4 x5 with
  | zero =>
    unfold remoteQuery
    try dsimp only
    repeat' with_reducible assumption
  | succ k ih =>
    unfold remoteQuery
    try dsimp only
    repeat' first
      | with_reducible assumption | (intro _) | lift_lets -underBinder | with_reducible apply ask_frame
      | with_reducible apply ih | split

theorem Cmd.admit_frame (c : Cmd) (rs : List (W64 × ℕ × Bool)) (s : State) (go : State → State) (hs : Frame s0 s)
    (hgo : ∀ y0, Frame s0 y0 → Frame s0 (go y0)) :
    Frame s0 (Cmd.seekAdmission c rs s go) := by
  unfold Cmd.seekAdmission
  repeat' first
    | with_reducible assumption | (intro x; clear_value x) | (intro _) | lift_lets -underBinder
    | with_reducible apply hgo | with_reducible apply hgo | with_reducible apply rejectCmd_frame
    | with_reducible apply remoteQuery_frame | with_reducible apply updCmd_frame | with_reducible apply frame_foldl
    | with_reducible apply frame_foldl_snd | with_reducible apply frame_foldl_snd_snd | split

theorem Cmd.bring_frame (c : Cmd) (k : Nat) (rs : List (W64 × ℕ)) (s : State) (go : State → State) (hs : Frame s0 s)
    (hgo : ∀ y0, Frame s0 y0 → Frame s0 (go y0)) :
    Frame s0 (Cmd.bring c k rs s go) := by
  unfold Cmd.bring
  repeat' first
    | with_reducible assumption | (intro x; clear_value x) | (intro _) | lift_lets -underBinder
    | with_reducible apply hgo | with_reducible apply hgo | with_reducible apply remoteRead_frame
    | with_reducible apply updCmd_frame | with_reducible apply frame_foldl | with_reducible apply frame_foldl_snd
    | with_reducible apply frame_foldl_snd_snd | split

theorem Cmd.remoteGate_frame (c : Cmd) (rs : List (W64 × ℕ × Bool)) (s : State) (go : State → State)
    (hs : Frame s0 s) (hgo : ∀ y0, Frame s0 y0 → Frame s0 (go y0)) :
    Frame s0 (Cmd.remoteGate c rs s go) := by
  unfold Cmd.remoteGate
  repeat' first
    | with_reducible assumption | (intro _) | lift_lets -underBinder | with_reducible apply hgo
    | with_reducible apply hgo | with_reducible apply Cmd.admit_frame | with_reducible apply Cmd.bring_frame

theorem Cmd.put_frame (c : Cmd) (a : W64) (bs : List PByte) (s : State) (hs : Frame s0 s) :
    Frame s0 (Cmd.put c a bs s) := by
  unfold Cmd.put
  repeat' first
    | with_reducible assumption | (intro _) | lift_lets -underBinder | with_reducible apply remoteWrite_frame
    | with_reducible apply Cmd.store_frame | with_reducible refine Machine.store_frame _ _ _ _ _ ?_ _ (by assumption)
    | split

theorem Cmd.reaching_frame (c : Cmd) (a : W64) (n : Nat) (s : State) (go : State → State) (hs : Frame s0 s)
    (hgo : ∀ y0, Frame s0 y0 → Frame s0 (go y0)) :
    Frame s0 (Cmd.reaching c a n s go) := by
  unfold Cmd.reaching
  repeat' first
    | with_reducible assumption | (intro _) | lift_lets -underBinder | with_reducible apply hgo
    | with_reducible apply hgo | with_reducible apply Cmd.remoteGate_frame | with_reducible apply Cmd.gate_frame

theorem bringRemote_frame (c : Cmd) (a : W64) (n : Nat) (s : State) (hs : Frame s0 s) :
    Frame s0 (bringRemote c a n s) := by
  unfold bringRemote
  repeat' first
    | with_reducible assumption | (intro _) | lift_lets -underBinder | with_reducible apply remoteQuery_frame
    | with_reducible apply updCmd_frame | with_reducible apply remoteRead_frame | split

theorem askWhole_frame (c : Cmd) (a : W64) (n : Nat) (s : State) (hs : Frame s0 s) :
    Frame s0 (askWhole c a n s) := by
  unfold askWhole
  repeat' first
    | with_reducible assumption | (intro _) | lift_lets -underBinder | with_reducible apply remoteQuery_frame
    | with_reducible apply updCmd_frame | split

theorem registerBytes_frame (a : W64) (n : Nat) (s : State) (hs : Frame s0 s) :
    Frame s0 (registerBytes a n s).2 := by
  unfold registerBytes
  repeat' first
    | with_reducible assumption
    | (intro x; clear_value (hxv : x = _); with_reducible refine frame_let_snd (s0 := s0) hxv ?_ fun hx => ?_)
    | (intro _) | lift_lets -underBinder | with_reducible apply regRead_frame | split

theorem bringRegister_frame (c : Cmd) (a : W64) (n : Nat) (s : State) (hs : Frame s0 s) :
    Frame s0 (bringRegister c a n s) := by
  unfold bringRegister
  repeat' first
    | with_reducible assumption
    | (intro x; clear_value (hxv : x = _); with_reducible refine frame_let_snd (s0 := s0) hxv ?_ fun hx => ?_)
    | (intro _) | lift_lets -underBinder | with_reducible apply registerBytes_frame
    | with_reducible apply updCmd_frame

theorem charged_frame (c : Cmd) (ps : List (Home × ℕ)) (s : State) (hs : Frame s0 s) :
    Frame s0 (charged c ps s) := by
  unfold charged
  repeat' first
    | with_reducible assumption | (intro _) | lift_lets -underBinder | with_reducible apply updCmd_frame
    | with_reducible apply readCharged_frame | split

theorem touch_frame (c : Cmd) (ps : List (Home × ℕ)) (s : State) (hs : Frame s0 s) :
    Frame s0 (touch c ps s) := by
  unfold touch
  repeat' first
    | with_reducible assumption | (intro _) | lift_lets -underBinder | with_reducible apply charged_frame
    | with_reducible apply noteWaits_frame | split

theorem judged_frame {α : Type} (c : Cmd) (chk : Chk α) (s : State) (go : α → State → State) (hs : Frame s0 s)
    (hgo : ∀ y0 y1, Frame s0 y1 → Frame s0 (go y0 y1)) :
    Frame s0 (judged c chk s go) := by
  unfold judged
  repeat' first
    | with_reducible assumption | (intro x; clear_value x) | (intro _) | lift_lets -underBinder
    | with_reducible apply hgo | with_reducible apply hgo | with_reducible apply noteWaits_frame
    | with_reducible apply timeoutNow_frame | with_reducible apply rejectCmd_frame | with_reducible apply touch_frame
    | with_reducible apply askWhole_frame | with_reducible apply bringRemote_frame
    | with_reducible apply bringRegister_frame | split

end Sys2Proof.Machine
end

