-- ==== Sys2Proof/Laws/FrameKv.lean ====
section
/-!
SUPPORT. The frame of every operation of stack commands, KV pages, page tables and the prefix tree: see Laws/Frame.lean.
-/

namespace Sys2Proof.Machine

variable {s0 : State}

theorem execSetKvBoundary_frame (cmd : Nat) (s : State) (hs : Frame s0 s) :
    FrameO s0 (execSetKvBoundary cmd s) := by
  unfold execSetKvBoundary
  repeat' first
    | with_reducible assumption | exact trivial
    | (intro x; clear_value (hxv : x = _); with_reducible refine frame_let (s0 := s0) hxv ?_ fun hx => ?_)
    | (intro x; clear_value x) | (intro _) | lift_lets -underBinder | with_reducible apply FrameO.next
    | with_reducible apply onCmd_frame | with_reducible apply judged_frame | with_reducible apply zeroPages_frame
    | with_reducible apply doneCmd_frame | with_reducible apply setStack_frame | split

theorem putRawWord_frame (h : Home) (data : Nat) (check : BitVec 16) (s : State) (hs : Frame s0 s) :
    Frame s0 (putRawWord h data check s) := by
  unfold putRawWord
  extract_lets mark
  split
  · rename_i k
    have h1 := flushRange_frame k 8 s hs
    generalize flushRange k 8 s = t at h1
    exact Frame.updStore h1 fun hw => Store.wf_setStack hw
      ⟨memWrite_wf _ _ _ (Store.wf_stackPair hw).1, tabSet_wf _ _ _ _ (Store.wf_stackPair hw).2⟩
  · rename_i k
    have h1 := putTile_frame k (clean (toLe 8 data)) s hs
    generalize putTile k (clean (toLe 8 data)) s = t at h1
    exact Frame.updStore h1 fun hw => Store.wf_setTile hw
      ⟨(Store.wf_tilePair hw).1, tabSet_wf _ _ _ _ (Store.wf_tilePair hw).2⟩
  · exact hs

theorem execCheckbitWrite_frame (cmd : Nat) (s : State) (hs : Frame s0 s) :
    FrameO s0 (execCheckbitWrite cmd s) := by
  unfold execCheckbitWrite
  repeat' first
    | with_reducible assumption | exact trivial | (intro _) | lift_lets -underBinder
    | with_reducible apply FrameO.next | with_reducible apply onCmd_frame | with_reducible apply judged_frame
    | with_reducible apply Cmd.gate_frame | with_reducible apply doneCmd_frame | with_reducible apply putRawWord_frame
    | with_reducible apply frame_foldl

theorem scrubPieces_frame (cmd : Option ℕ) (x1 : List (Home × ℕ)) (x2 : Nat) (x3 : State) (hx3 : Frame s0 x3) :
    Frame s0 (scrubPieces cmd x1 x2 x3).2 := by
  induction x1 generalizing x2 x3 with
  | nil => exact hx3
  | cons x xs ih =>
    obtain ⟨h, n⟩ := x
    unfold scrubPieces
    dsimp only
    apply ih
    cases h
    case stack k => dsimp only; with_reducible exact scrubStack_frame _ _ _ _ hx3
    case tile k => dsimp only; with_reducible exact scrubTile_frame _ _ _ _ hx3
    all_goals exact hx3

theorem execScrubRange_frame (cmd : Nat) (s : State) (hs : Frame s0 s) :
    FrameO s0 (execScrubRange cmd s) := by
  unfold execScrubRange
  repeat' first
    | with_reducible assumption | exact trivial
    | (intro x; clear_value (hxv : x = _); with_reducible refine frame_let (s0 := s0) hxv ?_ fun hx => ?_)
    | (intro x; clear_value (hxv : x = _); with_reducible refine frame_let_snd (s0 := s0) hxv ?_ fun hx => ?_)
    | (intro x; clear_value x) | (intro _) | lift_lets -underBinder | with_reducible apply FrameO.next
    | with_reducible apply onCmd_frame | with_reducible apply judged_frame | with_reducible apply doneCmd_frame
    | with_reducible apply Cmd.reaching_frame | with_reducible apply Cmd.gate_frame
    | with_reducible apply scrubPieces_frame | with_reducible apply Cmd.put_frame
    | with_reducible apply finishCmd_frame | with_reducible apply PTab.put_frame | split

theorem scrubChannels_frame (cmd : Option ℕ) (k : Nat) (x2 : List ℕ) (x3 : State) (hx3 : Frame s0 x3) :
    Frame s0 (scrubChannels cmd k x2 x3).2 := by
  induction x2 generalizing x3 with
  | nil =>
    unfold scrubChannels
    try dsimp only
    repeat' with_reducible assumption
  | cons x xs ih =>
    unfold scrubChannels
    try dsimp only
    repeat' first
      | with_reducible assumption | (intro _) | lift_lets -underBinder | with_reducible apply scrubStack_frame
      | with_reducible apply ih

theorem lapStack_frame (cmd : Option ℕ) (k : Nat) (s : State) (hs : Frame s0 s) :
    Frame s0 (lapStack cmd k s).2 := by
  unfold lapStack
  repeat' first
    | with_reducible assumption
    | (intro x; clear_value (hxv : x = _); with_reducible refine frame_let_snd (s0 := s0) hxv ?_ fun hx => ?_)
    | (intro x; clear_value x) | (intro _) | lift_lets -underBinder | with_reducible apply scrubChannels_frame
    | with_reducible apply flushWhere_frame

theorem lapTile_frame (cmd : Option ℕ) (t : Nat) (s : State) (hs : Frame s0 s) :
    Frame s0 (lapTile cmd t s).2 := by
  unfold lapTile
  repeat' first
    | with_reducible assumption
    | (intro x; clear_value (hxv : x = _); with_reducible refine frame_let_snd (s0 := s0) hxv ?_ fun hx => ?_)
    | (intro _) | lift_lets -underBinder | with_reducible apply scrubTile_frame

theorem lapStacks_frame (cmd : Option ℕ) (x1 : List ℕ) (x2 : State) (hx2 : Frame s0 x2) :
    Frame s0 (lapStacks cmd x1 x2).2 := by
  induction x1 generalizing x2 with
  | nil => exact hx2
  | cons x xs ih =>
    unfold lapStacks
    split
    · exact ih _ hx2
    · dsimp only
      exact ih _ (lapStack_frame _ _ _ hx2)

theorem lapTiles_frame (cmd : Option ℕ) (x1 : List ℕ) (x2 : State) (hx2 : Frame s0 x2) :
    Frame s0 (lapTiles cmd x1 x2).2 := by
  induction x1 generalizing x2 with
  | nil => exact hx2
  | cons x xs ih =>
    unfold lapTiles
    dsimp only
    exact ih _ (lapTile_frame _ _ _ hx2)

theorem lapAll_frame (cmd : Option ℕ) (us : ℕ → ℕ) (s : State) (hs : Frame s0 s) :
    Frame s0 (lapAll cmd us s).2.2 := by
  unfold lapAll
  repeat' first
    | with_reducible assumption
    | (intro x; clear_value (hxv : x = _); with_reducible refine frame_let (s0 := s0) hxv ?_ fun hx => ?_)
    | (intro x; clear_value (hxv : x = _); with_reducible refine frame_let_snd (s0 := s0) hxv ?_ fun hx => ?_)
    | (intro x; clear_value x) | (intro _) | lift_lets -underBinder | with_reducible apply lapStacks_frame
    | with_reducible apply lapTiles_frame | with_reducible apply setStack_frame | with_reducible apply frame_foldl
    | with_reducible apply frame_foldl_snd | with_reducible apply frame_foldl_snd_snd | split

theorem execScrubLap_frame (cmd : Nat) (s : State) (hs : Frame s0 s) :
    FrameO s0 (execScrubLap cmd s) := by
  unfold execScrubLap
  repeat' first
    | with_reducible assumption | exact trivial
    | (intro x; clear_value (hxv : x = _); with_reducible refine frame_let (s0 := s0) hxv ?_ fun hx => ?_)
    | (intro x; clear_value (hxv : x = _); with_reducible refine frame_let_snd_snd (s0 := s0) hxv ?_ fun hx => ?_)
    | (intro x; clear_value x) | (intro _) | lift_lets -underBinder | with_reducible apply FrameO.next
    | with_reducible apply onCmd_frame | with_reducible apply judged_frame | with_reducible apply Cmd.reaching_frame
    | with_reducible apply lapAll_frame | with_reducible apply Cmd.put_frame | with_reducible apply finishCmd_frame

theorem execIdleScrubLapEnd_frame (laps : List ℕ) (s : State) (hs : Frame s0 s) :
    FrameO s0 (execIdleScrubLapEnd laps s) := by
  unfold execIdleScrubLapEnd
  repeat' first
    | with_reducible assumption | exact trivial | (intro _) | lift_lets -underBinder
    | with_reducible apply FrameO.next | with_reducible apply lapAll_frame | split

theorem rewriteBursts_frame (k ch mode count : Nat) (s : State) (hs : Frame s0 s) :
    Frame s0 (rewriteBursts k ch mode count s) := by
  unfold rewriteBursts
  repeat' first
    | with_reducible assumption | (intro _) | lift_lets -underBinder | with_reducible apply zeroStack_frame
    | with_reducible apply frame_foldl

theorem execTrafficGen_frame (cmd : Nat) (s : State) (hs : Frame s0 s) :
    FrameO s0 (execTrafficGen cmd s) := by
  unfold execTrafficGen
  repeat' first
    | with_reducible assumption | exact trivial
    | (intro x; clear_value (hxv : x = _); with_reducible refine frame_let (s0 := s0) hxv ?_ fun hx => ?_)
    | (intro x; clear_value x) | (intro _) | lift_lets -underBinder | with_reducible apply FrameO.next
    | with_reducible apply onCmd_frame | with_reducible apply judged_frame | with_reducible apply Cmd.reaching_frame
    | with_reducible apply rewriteBursts_frame | with_reducible apply doneCmd_frame
    | with_reducible apply Cmd.put_frame | with_reducible apply take_frame | with_reducible apply PTab.put_frame
    | split

theorem refreshDue_frame (k b : Nat) (s : State) (hs : Frame s0 s) :
    Frame s0 (refreshDue k b s) := by
  unfold refreshDue
  repeat' first
    | with_reducible assumption | (intro x; clear_value x) | (intro _) | lift_lets -underBinder
    | with_reducible apply setBank_frame | split

theorem execRefreshDue_frame (stack bank : Nat) (s : State) (hs : Frame s0 s) :
    FrameO s0 (execRefreshDue stack bank s) := by
  unfold execRefreshDue
  repeat' first
    | with_reducible assumption | exact trivial | (intro _) | lift_lets -underBinder
    | with_reducible apply FrameO.next | with_reducible apply onUnit_frame | with_reducible apply refreshDue_frame
    | split

theorem execMergeBufferFlush_frame (stack channel : Nat) (s : State) (hs : Frame s0 s) :
    FrameO s0 (execMergeBufferFlush stack channel s) := by
  unfold execMergeBufferFlush
  repeat' first
    | with_reducible assumption | exact trivial | (intro _) | lift_lets -underBinder
    | with_reducible apply FrameO.next | with_reducible apply onUnit_frame | with_reducible apply whenRunning_frame
    | with_reducible apply flushWhere_frame | split

theorem execStackRowChange_frame (stack temp : Nat) (s : State) (hs : Frame s0 s) :
    FrameO s0 (execStackRowChange stack temp s) := by
  unfold execStackRowChange
  repeat' first
    | with_reducible assumption | exact trivial | (intro x; clear_value x) | (intro _) | lift_lets -underBinder
    | with_reducible apply FrameO.next | with_reducible apply onUnit_frame | with_reducible apply setStack_frame

theorem execRefreshRateChange_frame (stack temp : Nat) (s : State) (hs : Frame s0 s) :
    FrameO s0 (execRefreshRateChange stack temp s) := by
  unfold execRefreshRateChange
  repeat' first
    | with_reducible assumption | exact trivial | (intro x; clear_value x) | (intro _) | lift_lets -underBinder
    | with_reducible apply FrameO.next | with_reducible apply onUnit_frame | with_reducible apply setStack_frame

theorem execFarLinkDown_frame (port : Nat) (s : State) (hs : Frame s0 s) :
    FrameO s0 (execFarLinkDown port s) := by
  unfold execFarLinkDown
  repeat' first
    | with_reducible assumption | exact trivial | (intro _) | lift_lets -underBinder
    | with_reducible apply FrameO.next | with_reducible apply onUnit_frame | split | with_reducible apply Frame.upd

theorem execFarLinkRetrainDone_frame (port : Nat) (up : Bool) (rate6 : Bool) (s : State) (hs : Frame s0 s) :
    FrameO s0 (execFarLinkRetrainDone port up rate6 s) := by
  unfold execFarLinkRetrainDone
  repeat' first
    | with_reducible assumption | exact trivial | (intro _) | lift_lets -underBinder
    | with_reducible apply FrameO.next | with_reducible apply onUnit_frame | with_reducible apply raise_frame | split
    | with_reducible apply Frame.upd

theorem farPartWrite_frame (fn offset : Nat) (value : W32) (s : State) (hs : Frame s0 s) :
    Frame s0 (farPartWrite fn offset value s) := by
  unfold farPartWrite
  repeat' first
    | with_reducible assumption | (intro x; clear_value x) | (intro _) | lift_lets -underBinder
    | with_reducible apply raise_frame | split | with_reducible apply Frame.upd

theorem execFarPartWrite_frame (fn offset : Nat) (value : W32) (s : State) (hs : Frame s0 s) :
    FrameO s0 (execFarPartWrite fn offset value s) := by
  unfold execFarPartWrite
  repeat' first
    | with_reducible assumption | exact trivial | (intro _) | lift_lets -underBinder
    | with_reducible apply FrameO.next | with_reducible apply onUnit_frame | with_reducible apply farPartWrite_frame

theorem putRec_frame (p r : Nat) (x : Rec) (s : State) (hs : Frame s0 s) :
    Frame s0 (putRec p r x s) := by
  unfold putRec
  repeat' first
    | with_reducible assumption
    | (intro x; clear_value (hxv : x = _); with_reducible refine frame_let (s0 := s0) hxv ?_ fun hx => ?_)
    | (intro x; clear_value x) | (intro _) | lift_lets -underBinder | with_reducible apply amend_frame
    | with_reducible apply poke_frame | split

theorem freshRec_frame (p r flags location : Nat) (s : State) (hs : Frame s0 s) :
    Frame s0 (freshRec p r flags location s) := by
  unfold freshRec
  repeat' first
    | with_reducible assumption
    | (intro x; clear_value (hxv : x = _); with_reducible refine frame_let (s0 := s0) hxv ?_ fun hx => ?_)
    | (intro x; clear_value x) | (intro _) | lift_lets -underBinder | with_reducible apply amend_frame
    | with_reducible apply poke_frame

theorem putDigest_frame (p r : Nat) (v : ℕ × Bool) (s : State) (hs : Frame s0 s) :
    Frame s0 (putDigest p r v s) := by
  unfold putDigest
  repeat' first | with_reducible assumption | (intro _) | lift_lets -underBinder | with_reducible apply pokeData_frame

theorem writePage_frame (page off : Nat) (bs : List PByte) (s : State) (hs : Frame s0 s) :
    Frame s0 (writePage page off bs s) := by
  unfold writePage
  repeat' first
    | with_reducible assumption | (intro _) | lift_lets -underBinder | with_reducible apply bankWrite_frame

theorem putMask_frame (page m : Nat) (s : State) (hs : Frame s0 s) :
    Frame s0 (putMask page m s) := by
  unfold putMask
  repeat' first
    | with_reducible assumption | (intro _) | lift_lets -underBinder | with_reducible apply writePage_frame

theorem badHeaderOf_frame (cmd : Option ℕ) (key : Nat) (s : State) (hs : Frame s0 s) :
    Frame s0 (badHeaderOf cmd key s) := by
  unfold badHeaderOf
  repeat' first
    | with_reducible assumption | (intro _) | lift_lets -underBinder | with_reducible apply updCmd_frame
    | with_reducible apply report_frame | split

theorem Cmd.reads_frame (c : Cmd) (ps : List (Home × ℕ)) (s : State) (go : State → State) (hs : Frame s0 s)
    (hgo : ∀ y0, Frame s0 y0 → Frame s0 (go y0)) :
    Frame s0 (Cmd.reads c ps s go) := by
  unfold Cmd.reads
  repeat' first
    | with_reducible assumption | (intro _) | lift_lets -underBinder | with_reducible apply hgo
    | with_reducible apply hgo | with_reducible apply Cmd.gate_frame | with_reducible apply readCharged_frame

theorem Cmd.scans_frame (c : Cmd) (ps : List (Home × ℕ)) (s : State) (go : State → State) (hs : Frame s0 s)
    (hgo : ∀ y0, Frame s0 y0 → Frame s0 (go y0)) :
    Frame s0 (Cmd.scans c ps s go) := by
  unfold Cmd.scans
  repeat' first
    | with_reducible assumption
    | (intro x; clear_value (hxv : x = _); with_reducible refine frame_let_snd (s0 := s0) hxv ?_ fun hx => ?_)
    | (intro x; clear_value x) | (intro _) | lift_lets -underBinder | with_reducible apply hgo
    | with_reducible apply hgo | with_reducible apply Cmd.gate_frame | with_reducible apply getPieces_frame
    | with_reducible apply charge_frame

theorem takePage_frame (p page flags : Nat) (s : State) (hs : Frame s0 s) :
    ∀ z, (takePage p page flags s) = some z → Frame s0 z.2 := by
  intro z hz
  unfold takePage at hz
  try dsimp only at hz
  repeat' first
    | with_reducible assumption | with_reducible cases hz | (obtain ⟨_, _, rfl⟩ := Option.map_eq_some_iff.1 hz)
    | split at hz | (dsimp only [pure, Except.pure] at hz) | (intro _) | lift_lets -underBinder
    | with_reducible apply freshRec_frame | with_reducible apply setPool_frame

theorem newPage_frame (p mask l h : Nat) (prev : Option ℕ) (mine : List ℕ) (s : State) (hs : Frame s0 s) :
    ∀ z, (newPage p mask l h prev mine s) = some z → Frame s0 z.2.2 := by
  intro z hz
  unfold newPage at hz
  try dsimp only at hz
  repeat' first
    | with_reducible assumption | with_reducible cases hz | (obtain ⟨_, _, rfl⟩ := Option.map_eq_some_iff.1 hz)
    | split at hz | (dsimp only [pure, Except.pure] at hz) | (intro _) | lift_lets -underBinder
    | with_reducible refine takePage_frame _ _ _ _ ?_ _ (by assumption) | with_reducible apply writePage_frame

theorem freeIfUnused_frame (p r : Nat) (s : State) (hs : Frame s0 s) :
    Frame s0 (freeIfUnused p r s) := by
  unfold freeIfUnused
  repeat' first
    | with_reducible assumption
    | (intro x; clear_value (hxv : x = _); with_reducible refine frame_let (s0 := s0) hxv ?_ fun hx => ?_)
    | (intro x; clear_value x) | (intro _) | lift_lets -underBinder | with_reducible apply setPool_frame
    | with_reducible apply putRec_frame | split

theorem addOwner_frame (p r : Nat) (s : State) (hs : Frame s0 s) :
    Frame s0 (addOwner p r s) := by
  unfold addOwner
  repeat' first
    | with_reducible assumption | (intro x; clear_value x) | (intro _) | lift_lets -underBinder
    | with_reducible apply putRec_frame

theorem dropOwner_frame (p r : Nat) (s : State) (hs : Frame s0 s) :
    Frame s0 (dropOwner p r s) := by
  unfold dropOwner
  repeat' first
    | with_reducible assumption | (intro x; clear_value x) | (intro _) | lift_lets -underBinder
    | with_reducible apply freeIfUnused_frame | with_reducible apply putRec_frame | split

theorem pin_frame (p r : Nat) (s : State) (hs : Frame s0 s) :
    Frame s0 (pin p r s) := by
  unfold pin
  repeat' first
    | with_reducible assumption | (intro x; clear_value x) | (intro _) | lift_lets -underBinder
    | with_reducible apply putRec_frame | split

theorem unpin_frame (p r : Nat) (s : State) (hs : Frame s0 s) :
    Frame s0 (unpin p r s) := by
  unfold unpin
  repeat' first
    | with_reducible assumption | (intro x; clear_value x) | (intro _) | lift_lets -underBinder
    | with_reducible apply freeIfUnused_frame | with_reducible apply putRec_frame | split

theorem sealPage_frame (cmd : Option ℕ) (p r : Nat) (s : State) (hs : Frame s0 s) :
    Frame s0 (sealPage cmd p r s) := by
  unfold sealPage
  repeat' first
    | with_reducible assumption
    | (intro x; clear_value (hxv : x = _); with_reducible refine frame_let (s0 := s0) hxv ?_ fun hx => ?_)
    | (intro x; clear_value x) | (intro _) | lift_lets -underBinder | with_reducible apply putDigest_frame
    | with_reducible apply putRec_frame | with_reducible apply badHeaderOf_frame | split

theorem demoteRec_frame (p r : Nat) (s : State) (hs : Frame s0 s) :
    ∀ z, (demoteRec p r s) = .ok z → Frame s0 z := by
  intro z hz
  unfold demoteRec at hz
  extract_lets q d x at hz
  clear_value q x
  split at hz
  · cases hz
  · extract_lets ps go1 page t1 t2 at hz
    clear_value page
    split at hz
    · cases hz
    · obtain ⟨_, _, hz⟩ := ok_bind hz
      cases hz
      exact putRec_frame _ _ _ _ (setPool_frame _ _ _ (putPieces_frame _ _ _ hs))

theorem promoteRec_frame (p r mask : Nat) (prev : Option ℕ) (mine : List ℕ) (cmd : Option ℕ) (s : State)
    (hs : Frame s0 s) :
    Frame s0 (promoteRec p r mask prev mine cmd s).2 := by
  unfold promoteRec
  repeat' first
    | with_reducible assumption
    | (intro x; clear_value (hxv : x = _); with_reducible refine frame_let (s0 := s0) hxv ?_ fun hx => ?_)
    | (intro x; clear_value (hxv : x = _); with_reducible refine frame_let_snd (s0 := s0) hxv ?_ fun hx => ?_)
    | (intro x; clear_value x) | (intro _) | lift_lets -underBinder | with_reducible apply readCharged_frame
    | with_reducible apply writePage_frame | with_reducible apply setPool_frame | with_reducible apply putRec_frame
    | split

theorem putNode_frame (p i : Nat) (x : Node) (s : State) (hs : Frame s0 s) :
    Frame s0 (putNode p i x s) := by
  unfold putNode
  repeat' first | with_reducible assumption | (intro _) | lift_lets -underBinder | with_reducible apply amend_frame

theorem newNode_frame (p i : Nat) (x : Node) (s : State) (hs : Frame s0 s) :
    Frame s0 (newNode p i x s) := by
  unfold newNode
  repeat' first | with_reducible assumption | (intro _) | lift_lets -underBinder | with_reducible apply poke_frame

theorem spoilNode_frame (p i k : Nat) (bad : Bool) (s : State) (hs : Frame s0 s) :
    Frame s0 (spoilNode p i k bad s) := by
  unfold spoilNode
  repeat' first
    | with_reducible assumption | (intro x; clear_value x) | (intro _) | lift_lets -underBinder
    | with_reducible apply pokeData_frame | split

theorem putGroup_frame (p : Nat) (x : Node) (es : List ℕ) (s : State) (hs : Frame s0 s) :
    Frame s0 (putGroup p x es s) := by
  unfold putGroup
  repeat' first | with_reducible assumption | (intro _) | lift_lets -underBinder | with_reducible apply poke_frame

theorem amendGroup_frame (p : Nat) (x : Node) (es : List ℕ) (s : State) (hs : Frame s0 s) :
    Frame s0 (amendGroup p x es s) := by
  unfold amendGroup
  repeat' first | with_reducible assumption | (intro _) | lift_lets -underBinder | with_reducible apply amend_frame

theorem demoteGroup_frame (p : Nat) (x1 : List ℕ) (x2 : State) (hx2 : Frame s0 x2) :
    ∀ z, (demoteGroup p x1 x2) = .ok z → Frame s0 z.2 := by
  induction x1 generalizing x2 with
  | nil => intro z hz; unfold demoteGroup at hz; cases hz; exact hx2
  | cons e es ih =>
    intro z hz
    unfold demoteGroup at hz
    obtain ⟨t, ht, hz⟩ := ok_bind hz
    obtain ⟨r, hr, hz⟩ := ok_bind hz
    cases hz
    exact ih t (demoteRec_frame _ _ _ hx2 t ht) r hr

theorem demoteLeaf_frame (p : Nat) (s : State) (hs : Frame s0 s) :
    ∀ z, (demoteLeaf p s) = .ok z → Frame s0 z := by
  intro z hz
  unfold demoteLeaf at hz
  split at hz
  · cases hz
  · dsimp only at hz
    split at hz
    · cases hz
    · obtain ⟨r, hr, hz⟩ := ok_bind hz
      cases hz
      exact putNode_frame _ _ _ _ (amendGroup_frame _ _ _ _ (demoteGroup_frame _ _ _ hs _ hr))

theorem newPageOrDemote_frame (p mask l h : Nat) (prev : Option ℕ) (mine : List ℕ) (x6 : Nat) (x7 : State)
    (hx7 : Frame s0 x7) :
    ∀ z, (newPageOrDemote p mask l h prev mine x6 x7) = .ok z → Frame s0 z.2.2 := by
  induction x6 generalizing x7 with
  | zero =>
    intro z hz
    unfold newPageOrDemote at hz
    split at hz
    · rename_i r hr
      cases hz
      exact newPage_frame _ _ _ _ _ _ _ hx7 _ hr
    · cases hz
  | succ k ih =>
    intro z hz
    unfold newPageOrDemote at hz
    split at hz
    · rename_i r hr
      cases hz
      exact newPage_frame _ _ _ _ _ _ _ hx7 _ hr
    · obtain ⟨t, ht, hz⟩ := ok_bind hz
      exact ih t (demoteLeaf_frame _ _ hx7 t ht) z hz

theorem PTab.write_frame (t : PTab) (s : State) (hs : Frame s0 s) :
    Frame s0 (PTab.write t s) := by
  unfold PTab.write
  repeat' first | with_reducible assumption | (intro _) | lift_lets -underBinder | with_reducible apply amend_frame

theorem PTab.put_frame (t : PTab) (pair j e : Nat) (s : State) (hs : Frame s0 s) :
    Frame s0 (PTab.put t pair j e s) := by
  unfold PTab.put
  repeat' first | with_reducible assumption | (intro _) | lift_lets -underBinder | with_reducible apply poke_frame

theorem PTab.change_frame (t : PTab) (pair j e : Nat) (s : State) (hs : Frame s0 s) :
    Frame s0 (PTab.change t pair j e s) := by
  unfold PTab.change
  repeat' first | with_reducible assumption | (intro _) | lift_lets -underBinder | with_reducible apply amend_frame

theorem PTab.putAs_frame (t : PTab) (bad : Bool) (pair j e : Nat) (s : State) (hs : Frame s0 s) :
    Frame s0 (PTab.putAs t bad pair j e s) := by
  unfold PTab.putAs
  repeat' first | with_reducible assumption | (intro _) | lift_lets -underBinder | with_reducible apply pokeData_frame

theorem copyOnWrite_frame (t : PTab) (pair j : Nat) (s : State) (hs : Frame s0 s) :
    ∀ z, (copyOnWrite t pair j s) = .ok z → Frame s0 z := by
  intro z hz
  unfold copyOnWrite at hz
  extract_lets p d e old at hz
  clear_value p d e old
  obtain ⟨⟨page, r, t⟩, ht, hz⟩ := ok_bind hz
  have h1 : Frame s0 t := newPageOrDemote_frame _ _ _ _ _ _ _ _ hs _ ht
  cases hz
  exact setPool_frame _ _ _ (dropOwner_frame _ _ _ (PTab.change_frame _ _ _ _ _ (putDigest_frame _ _ _ _
    (putRec_frame _ _ _ _ (writePage_frame _ _ _ _ h1)))))

theorem growPair_frame (t : PTab) (pair k j : Nat) (s : State) (hs : Frame s0 s) :
    ∀ z, (growPair t pair k j s) = .ok z → Frame s0 z.2.2 := by
  intro z hz
  unfold growPair at hz
  extract_lets p d mine n jp at hz
  clear_value p d mine
  split at hz
  · cases hz
  · obtain ⟨⟨page, r, t⟩, ht, hz⟩ := ok_bind hz
    have h1 : Frame s0 t := newPageOrDemote_frame _ _ _ _ _ _ _ _ hs _ ht
    cases hz
    exact PTab.put_frame _ _ _ _ _ h1

theorem fillPair_frame (t : PTab) (pair k i e : Nat) (s : State) (hs : Frame s0 s) :
    ∀ z, (fillPair t pair k i e s) = .ok z → Frame s0 z.2.2 := by
  intro z hz
  unfold fillPair at hz
  extract_lets p d jp at hz
  have hjp : ∀ t, Frame s0 t → jp t = .ok z → Frame s0 z.2.2 := fun t ht hz => by
    cases hz
    exact PTab.change_frame _ _ _ _ _ ht
  clear_value jp
  split at hz
  · obtain ⟨t, ht, hz⟩ := ok_bind hz
    exact hjp t (copyOnWrite_frame _ _ _ _ hs t ht) hz
  · exact hjp s hs hz

theorem reservePair_frame (t : PTab) (pair x2 x3 x4 : Nat) (x5 : List ℕ) (x6 : State) (hx6 : Frame s0 x6) :
    ∀ z, (reservePair t pair x2 x3 x4 x5 x6) = .ok z → Frame s0 z.2.2 := by
  induction x2 generalizing x3 x4 x5 x6 with
  | zero => intro z hz; cases hz
  | succ k ih =>
    have hb : ∀ (b : Bool) (e : Nat) z, (if b = true then fillPair t pair x3 (x4 - 1) e x6 else growPair t pair x3 x4 x6)
        = .ok z → Frame s0 z.2.2 := by
      intro b e z hz
      split at hz
      · exact fillPair_frame _ _ _ _ _ _ hx6 z hz
      · exact growPair_frame _ _ _ _ _ hx6 z hz
    intro z hz
    unfold reservePair at hz
    split at hz
    · cases hz; exact hx6
    · split at hz
      · cases hz
      · rename_i n r t ht
        exact ih _ _ _ t (hb _ _ _ ht) z hz

theorem reserveAll_frame (t : PTab) (k x2 : Nat) (x3 : State) (hx3 : Frame s0 x3) :
    ∀ z, (reserveAll t k x2 x3) = .ok z → Frame s0 z.2.2 := by
  induction x2 generalizing x3 with
  | zero => intro z hz; cases hz; exact hx3
  | succ n ih =>
    intro z hz
    unfold reserveAll at hz
    obtain ⟨⟨u, full, t⟩, ht, hz⟩ := ok_bind hz
    obtain ⟨⟨j, full2, t2⟩, ht2, hz⟩ := ok_bind hz
    cases hz
    exact reservePair_frame _ _ _ _ _ _ _ (ih _ hx3 _ ht) (j, full2, t2) ht2

theorem setRequest_frame (s : State) (r : Nat) (x : Request) (hs : Frame s0 s) :
    Frame s0 (setRequest s r x) := by
  unfold setRequest
  repeat' first
    | with_reducible assumption | (intro x; clear_value x) | (intro _) | lift_lets -underBinder | split
    | with_reducible apply Frame.upd

theorem Cmd.afterSteps_frame (c : Cmd) (s : State) (rs : List ℕ) (go : State → State) (hs : Frame s0 s)
    (hgo : ∀ y0, Frame s0 y0 → Frame s0 (go y0)) :
    Frame s0 (Cmd.afterSteps c s rs go) := by
  unfold Cmd.afterSteps
  repeat' first
    | with_reducible assumption | (intro _) | lift_lets -underBinder | with_reducible apply hgo
    | with_reducible apply hgo | with_reducible apply waitCmd_frame | with_reducible apply resumeCmd_frame | split

theorem Cmd.whenZero_frame (c : Cmd) (n : Nat) (s : State) (go : State) (hs : Frame s0 s) (hgo : Frame s0 go) :
    Frame s0 (Cmd.whenZero c n s go) := by
  unfold Cmd.whenZero
  repeat' first
    | with_reducible assumption | (intro _) | lift_lets -underBinder | with_reducible apply hgo
    | with_reducible apply judged_frame | with_reducible apply doneCmd_frame | split

theorem forkPair_frame (a : PTab) (b : PTab) (q : Nat) (s : State) (hs : Frame s0 s) :
    Frame s0 (forkPair a b q s) := by
  unfold forkPair
  repeat' first
    | with_reducible assumption | (intro x; clear_value x) | (intro _) | lift_lets -underBinder
    | with_reducible apply PTab.putAs_frame | with_reducible apply PTab.change_frame
    | with_reducible apply frame_foldl | with_reducible apply frame_foldl_snd
    | with_reducible apply frame_foldl_snd_snd | split

theorem execForkSequence_frame (cmd : Nat) (s : State) (hs : Frame s0 s) :
    FrameO s0 (execForkSequence cmd s) := by
  unfold execForkSequence
  repeat' first
    | with_reducible assumption | exact trivial
    | (intro x; clear_value (hxv : x = _); with_reducible refine frame_let (s0 := s0) hxv ?_ fun hx => ?_)
    | (intro x; clear_value x) | (intro _) | lift_lets -underBinder | with_reducible apply FrameO.next
    | with_reducible apply onCmd_frame | with_reducible apply Cmd.afterSteps_frame | with_reducible apply judged_frame
    | with_reducible apply Cmd.reads_frame | with_reducible apply forkPair_frame | with_reducible apply addOwner_frame
    | with_reducible apply PTab.write_frame | with_reducible apply doneCmd_frame | with_reducible apply frame_foldl

theorem Edit.apply_frame (t : PTab) (e : Edit) (s : State) (hs : Frame s0 s) :
    Frame s0 (Edit.apply t e s) := by
  unfold Edit.apply
  repeat' first
    | with_reducible assumption
    | (intro x; clear_value (hxv : x = _); with_reducible refine frame_let (s0 := s0) hxv ?_ fun hx => ?_)
    | (intro x; clear_value x) | (intro _) | lift_lets -underBinder | with_reducible apply PTab.put_frame
    | with_reducible apply addOwner_frame | with_reducible apply dropOwner_frame | with_reducible apply Cmd.put_frame
    | split

theorem PTab.fixUsed_frame (t : PTab) (s : State) (hs : Frame s0 s) :
    Frame s0 (PTab.fixUsed t s) := by
  unfold PTab.fixUsed
  repeat' first
    | with_reducible assumption | (intro _) | lift_lets -underBinder | with_reducible apply PTab.write_frame

theorem execEditPages_frame (cmd : Nat) (s : State) (hs : Frame s0 s) :
    FrameO s0 (execEditPages cmd s) := by
  unfold execEditPages
  repeat' first
    | with_reducible assumption | exact trivial | (intro _) | lift_lets -underBinder
    | with_reducible apply FrameO.next | with_reducible apply onCmd_frame | with_reducible apply Cmd.afterSteps_frame
    | with_reducible apply Cmd.whenZero_frame | with_reducible apply judged_frame
    | with_reducible apply Cmd.reads_frame | with_reducible apply doneCmd_frame
    | with_reducible apply PTab.fixUsed_frame | with_reducible apply Edit.apply_frame
    | with_reducible apply frame_foldl

theorem clearLive_frame (t : PTab) (q : Nat) (xs : List Live) (s : State) (hs : Frame s0 s) :
    Frame s0 (clearLive t q xs s) := by
  unfold clearLive
  repeat' first
    | with_reducible assumption | (intro x; clear_value x) | (intro _) | lift_lets -underBinder
    | with_reducible apply putMask_frame | with_reducible apply frame_foldl

theorem execEvict_frame (cmd : Nat) (s : State) (hs : Frame s0 s) :
    FrameO s0 (execEvict cmd s) := by
  unfold execEvict
  repeat' first
    | with_reducible assumption | exact trivial
    | (intro x; clear_value (hxv : x = _); with_reducible refine frame_let (s0 := s0) hxv ?_ fun hx => ?_)
    | (intro x; clear_value x) | (intro _) | lift_lets -underBinder | with_reducible apply FrameO.next
    | with_reducible apply onCmd_frame | with_reducible apply Cmd.afterSteps_frame | with_reducible apply judged_frame
    | with_reducible apply Cmd.reads_frame | with_reducible apply Cmd.scans_frame
    | with_reducible apply clearLive_frame | with_reducible apply doneCmd_frame | with_reducible apply frame_foldl

theorem writeSlot_frame (d : PoolDesc) (page i : Nat) (x : Carried) (s : State) (hs : Frame s0 s) :
    Frame s0 (writeSlot d page i x s) := by
  unfold writeSlot
  repeat' first
    | with_reducible assumption
    | (intro x; clear_value (hxv : x = _); with_reducible refine frame_let (s0 := s0) hxv ?_ fun hx => ?_) | (intro _)
    | lift_lets -underBinder | with_reducible apply writePage_frame

theorem packPages_frame (t : PTab) (q : Nat) (held : List ℕ) (x3 : List ℕ) (x4 : List Carried) (x5 : State)
    (hx5 : Frame s0 x5) :
    ∀ z, (packPages t q held x3 x4 x5) = some z → Frame s0 z := by
  induction x3 generalizing held x4 x5 with
  | nil =>
    intro z hz
    unfold packPages at hz
    split at hz <;> cases hz
    exact hx5
  | cons j js ih =>
    intro z hz
    unfold packPages at hz
    split at hz
    · cases hz; exact hx5
    · dsimp only at hz
      split at hz
      · cases hz
      · rename_i page r s ht
        refine ih _ _ _ ?_ z hz
        have h1 : Frame s0 s := newPage_frame _ _ _ _ _ _ _ hx5 _ ht
        apply PTab.put_frame
        have h2 : Frame s0 (putMask page (2 ^ (x4.take (poolAt x5 t.part).desc.P).length - 1)
            (((x4.take (poolAt x5 t.part).desc.P).zipIdx 0).foldl
              (fun s x => writeSlot (poolAt x5 t.part).desc page x.2 x.1 s) s)) :=
          putMask_frame _ _ _ (frame_foldl _ _ (fun t x h => writeSlot_frame _ _ _ _ t h) h1)
        split
        · exact sealPage_frame _ _ _ _ h2
        · exact h2

theorem compactPair_frame (t : PTab) (q : Nat) (s : State) (hs : Frame s0 s) :
    ∀ z, (compactPair t q s) = some z → Frame s0 z.2 := by
  intro z hz
  unfold compactPair at hz
  try dsimp only at hz
  repeat' first
    | with_reducible assumption | with_reducible cases hz | (obtain ⟨_, _, rfl⟩ := Option.map_eq_some_iff.1 hz)
    | split at hz | (dsimp only [pure, Except.pure] at hz) | (intro _) | lift_lets -underBinder
    | with_reducible apply PTab.put_frame | with_reducible refine packPages_frame _ _ _ _ _ _ ?_ _ (by assumption)
    | with_reducible apply dropOwner_frame | with_reducible apply Cmd.put_frame | with_reducible apply frame_foldl

theorem compactAll_frame (t : PTab) (x1 : Nat) (x2 : State) (hx2 : Frame s0 x2) :
    ∀ z, (compactAll t x1 x2) = some z → Frame s0 z.2 := by
  induction x1 generalizing x2 with
  | zero => intro z hz; cases hz; exact hx2
  | succ n ih =>
    intro z hz
    unfold compactAll at hz
    split at hz
    · cases hz
    · rename_i a s ht
      obtain ⟨r, hr, rfl⟩ := Option.map_eq_some_iff.1 hz
      exact compactPair_frame t n s (ih _ hx2 _ ht) r hr

theorem execCompact_frame (cmd : Nat) (s : State) (hs : Frame s0 s) :
    FrameO s0 (execCompact cmd s) := by
  unfold execCompact
  repeat' first
    | with_reducible assumption | exact trivial | (intro _) | lift_lets -underBinder
    | with_reducible apply FrameO.next | with_reducible apply onCmd_frame | with_reducible apply Cmd.afterSteps_frame
    | with_reducible apply judged_frame | with_reducible refine compactAll_frame _ _ _ ?_ _ (by assumption)
    | with_reducible apply rejectCmd_frame | with_reducible apply Cmd.reads_frame | with_reducible apply doneCmd_frame
    | with_reducible apply PTab.fixUsed_frame | split

theorem demoteOne_frame (t : PTab) (x : ℕ × ℕ) (a : Moved × State) (ha : Frame s0 a.2) :
    Frame s0 (demoteOne t x a).2 := by
  unfold demoteOne
  repeat' first
    | with_reducible assumption | (intro x; clear_value x) | (intro _) | lift_lets -underBinder
    | with_reducible refine demoteRec_frame _ _ _ ?_ _ (by assumption) | with_reducible apply PTab.change_frame
    | split

theorem Cmd.moves_frame (c : Cmd) (d : PoolDesc) (z : Moved × State) (s : State) (hz : Frame s0 z.2)
    (hs : Frame s0 s) :
    Frame s0 (Cmd.moves c d z s) := by
  unfold Cmd.moves
  repeat' first
    | with_reducible assumption | (intro _) | lift_lets -underBinder | with_reducible apply rejectCmd_frame
    | with_reducible apply finishCmd_frame | split | with_reducible apply Frame.upd

theorem execDemote_frame (cmd : Nat) (s : State) (hs : Frame s0 s) :
    FrameO s0 (execDemote cmd s) := by
  unfold execDemote
  repeat' first
    | with_reducible assumption | exact trivial | (intro x; clear_value x) | (intro _) | lift_lets -underBinder
    | with_reducible apply FrameO.next | with_reducible apply onCmd_frame | with_reducible apply Cmd.afterSteps_frame
    | with_reducible apply Cmd.whenZero_frame | with_reducible apply judged_frame
    | with_reducible apply Cmd.reads_frame | with_reducible apply Cmd.moves_frame
    | with_reducible apply demoteOne_frame | with_reducible apply frame_foldl | with_reducible apply frame_foldl_snd

theorem promoteOne_frame (t : PTab) (cmd : Nat) (x : ℕ × ℕ) (a : Moved × State) (ha : Frame s0 a.2) :
    Frame s0 (promoteOne t cmd x a).2 := by
  unfold promoteOne
  extract_lets p s e r
  have hs : Frame s0 s := ha
  clear_value s e r p
  split
  · exact ha
  · split
    · split
      · exact PTab.change_frame _ _ _ _ _ hs
      · exact ha
    · have h1 := promoteRec_frame p (entRecord e) t.mask (t.prev x.1 x.2 s) (t.pages x.1 s) (some cmd) s hs
      split <;> rename_i heq <;> rw [heq] at h1
      · exact PTab.change_frame _ _ _ _ _ h1
      · exact h1
      · exact h1

theorem execPromote_frame (cmd : Nat) (s : State) (hs : Frame s0 s) :
    FrameO s0 (execPromote cmd s) := by
  unfold execPromote
  repeat' first
    | with_reducible assumption | exact trivial | (intro x; clear_value x) | (intro _) | lift_lets -underBinder
    | with_reducible apply FrameO.next | with_reducible apply onCmd_frame | with_reducible apply Cmd.afterSteps_frame
    | with_reducible apply Cmd.whenZero_frame | with_reducible apply judged_frame
    | with_reducible apply Cmd.reads_frame | with_reducible apply Cmd.moves_frame
    | with_reducible apply promoteOne_frame | with_reducible apply frame_foldl | with_reducible apply frame_foldl_snd

theorem dropFrom_frame (t : PTab) (q j : Nat) (s : State) (hs : Frame s0 s) :
    Frame s0 (dropFrom t q j s) := by
  unfold dropFrom
  repeat' first
    | with_reducible assumption | (intro x; clear_value x) | (intro _) | lift_lets -underBinder
    | with_reducible apply dropOwner_frame | with_reducible apply PTab.put_frame | with_reducible apply Cmd.put_frame
    | with_reducible apply frame_foldl | with_reducible apply frame_foldl_snd
    | with_reducible apply frame_foldl_snd_snd | split

theorem adoptPair_frame (t : PTab) (q x2 x3 : Nat) (x4 : State) (hx4 : Frame s0 x4) :
    Frame s0 (adoptPair t q x2 x3 x4).2.2 := by
  induction x2 generalizing x3 x4 with
  | zero => exact hx4
  | succ k ih =>
    unfold adoptPair
    split
    · exact hx4
    · dsimp only
      split
      · exact ih _ _ hx4
      · split
        · exact dropFrom_frame _ _ _ _ hx4
        · split
          · exact dropFrom_frame _ _ _ _ hx4
          · exact ih _ _ hx4

theorem execAdoptPages_frame (cmd : Nat) (s : State) (hs : Frame s0 s) :
    FrameO s0 (execAdoptPages cmd s) := by
  unfold execAdoptPages
  repeat' first
    | with_reducible assumption | exact trivial
    | (intro x; clear_value (hxv : x = _); with_reducible refine frame_let (s0 := s0) hxv ?_ fun hx => ?_)
    | (intro x; clear_value (hxv : x = _); with_reducible refine frame_let_snd_snd (s0 := s0) hxv ?_ fun hx => ?_)
    | (intro x; clear_value x) | (intro _) | lift_lets -underBinder | with_reducible apply FrameO.next
    | with_reducible apply onCmd_frame | with_reducible apply Cmd.afterSteps_frame | with_reducible apply judged_frame
    | with_reducible apply Cmd.scans_frame | with_reducible apply adoptPair_frame
    | with_reducible apply PTab.write_frame | with_reducible apply setRequest_frame
    | with_reducible apply finishCmd_frame | with_reducible apply Cmd.reads_frame | with_reducible apply frame_foldl
    | with_reducible apply frame_foldl_snd | with_reducible apply frame_foldl_snd_snd | split

theorem promoteGroup_frame (t : PTab) (cmd : Nat) (x2 : List ℕ) (x3 : List ℕ) (x4 : Nat) (x5 : State)
    (hx5 : Frame s0 x5) :
    Frame s0 (promoteGroup t cmd x2 x3 x4 x5).2.2 := by
  induction x2 generalizing x3 x4 x5 with
  | nil => exact hx5
  | cons e es ih =>
    unfold promoteGroup
    extract_lets b next prev
    have hn : ∀ e m o t, Frame s0 t → Frame s0 (next e m o t).2.2 := fun e m o t ht => ih _ _ _ ht
    clear_value next b prev
    split
    · exact hn _ _ _ _ hx5
    · have h1 := promoteRec_frame t.part (entRecord e) t.mask prev (t.pages (x4 / b) x5 ++ x3) (some cmd) x5 hx5
      split <;> rename_i heq <;> rw [heq] at h1
      · exact hn _ _ _ _ h1
      · exact hn _ _ _ _ h1
      · exact h1

theorem hitNode_frame (p i : Nat) (s : State) (hs : Frame s0 s) :
    Frame s0 (hitNode p i s) := by
  unfold hitNode
  repeat' first
    | with_reducible assumption | (intro x; clear_value x) | (intro _) | lift_lets -underBinder
    | with_reducible apply putNode_frame

theorem passNode_frame (p i : Nat) (s : State) (hs : Frame s0 s) :
    Frame s0 (passNode p i s) := by
  unfold passNode
  repeat' first
    | with_reducible assumption | (intro x; clear_value x) | (intro _) | lift_lets -underBinder
    | with_reducible apply putNode_frame

theorem attachNode_frame (cmd i : Nat) (t : PTab) (s : State) (hs : Frame s0 s) :
    Frame s0 (attachNode cmd i t s).2 := by
  unfold attachNode
  extract_lets p b x g u v w
  clear_value p b x
  split
  · exact hs
  · have hg : Frame s0 g.2.2 := by
      dsimp only [g]
      split
      · exact promoteGroup_frame _ _ _ _ _ _ hs
      · exact hs
    clear_value g
    have hu : Frame s0 u := by
      dsimp only [u]
      split
      · exact amendGroup_frame _ _ _ _ hg
      · exact hg
    clear_value u
    split
    · exact hu
    · refine frame_foldl _ _ (fun t e h => addOwner_frame _ _ _ (PTab.putAs_frame _ _ _ _ _ _ h)) ?_
      dsimp only [v]
      split
      · exact putNode_frame _ _ _ _ hu
      · exact hu

theorem attachAll_frame (cmd : Nat) (x1 : List ℕ) (x2 : PTab) (x3 : State) (hx3 : Frame s0 x3) :
    Frame s0 (attachAll cmd x1 x2 x3).2.2.2 := by
  induction x1 generalizing x2 x3 with
  | nil => exact hx3
  | cons i is ih =>
    unfold attachAll
    have h1 := attachNode_frame cmd i x2 x3 hx3
    split <;> rename_i heq <;> rw [heq] at h1
    · exact h1
    · exact ih _ _ h1

theorem execPrefixLookup_frame (cmd : Nat) (s : State) (hs : Frame s0 s) :
    FrameO s0 (execPrefixLookup cmd s) := by
  unfold execPrefixLookup
  apply onCmd_frame _ _ _ _ hs
  intro c s hs
  apply Cmd.afterSteps_frame _ _ _ _ hs
  intro s hs
  apply Cmd.whenZero_frame _ _ _ _ hs
  apply judged_frame _ _ _ _ hs
  intro x s hs
  dsimp only
  apply Cmd.reads_frame _ _ _ _ hs
  intro t ht
  have hz := attachAll_frame c.id (matchPath c.part (poolAt s c.part).desc.nodes s x.2.2 (rootOf x.2.1.set)) x.2.1 _
    (frame_foldl (hitNode c.part |> fun f s i => f i s) (matchPath c.part (poolAt s c.part).desc.nodes s x.2.2
      (rootOf x.2.1.set)) (fun t i h => hitNode_frame _ _ _ h) (passNode_frame c.part (rootOf x.2.1.set) t ht))
  split
  · exact hs
  · have hw := fun y => PTab.write_frame y _ hz
    split
    · exact finishCmd_frame _ _ _ (hw _)
    · exact finishCmd_frame _ _ _ (hw _)
    · exact doneCmd_frame _ _ _ (hw _)

theorem linkNode_frame (p i : Nat) (x : Node) (s : State) (hs : Frame s0 s) :
    Frame s0 (linkNode p i x s) := by
  unfold linkNode
  repeat' first
    | with_reducible assumption | (intro x; clear_value x) | (intro _) | lift_lets -underBinder
    | with_reducible apply putNode_frame | with_reducible apply spoilNode_frame | with_reducible apply newNode_frame
    | split

theorem unlinkNode_frame (p i : Nat) (s : State) (hs : Frame s0 s) :
    Frame s0 (unlinkNode p i s) := by
  unfold unlinkNode
  repeat' first
    | with_reducible assumption | (intro x; clear_value x) | (intro _) | lift_lets -underBinder
    | with_reducible apply spoilNode_frame | with_reducible apply putNode_frame | split

theorem freeNode_frame (p i : Nat) (s : State) (hs : Frame s0 s) :
    Frame s0 (freeNode p i s) := by
  unfold freeNode
  repeat' first
    | with_reducible assumption
    | (intro x; clear_value (hxv : x = _); with_reducible refine frame_let (s0 := s0) hxv ?_ fun hx => ?_)
    | (intro x; clear_value x) | (intro _) | lift_lets -underBinder | with_reducible apply dropOwner_frame
    | with_reducible apply setPool_frame | with_reducible apply newNode_frame | with_reducible apply unlinkNode_frame
    | with_reducible apply frame_foldl

theorem reuseLeaf_frame (p : Nat) (path : List ℕ) (s : State) (hs : Frame s0 s) :
    ∀ z, (reuseLeaf p path s) = some z → Frame s0 z := by
  intro z hz
  unfold reuseLeaf at hz
  try dsimp only at hz
  repeat' first
    | with_reducible assumption | with_reducible cases hz | (obtain ⟨_, _, rfl⟩ := Option.map_eq_some_iff.1 hz)
    | split at hz | (dsimp only [pure, Except.pure] at hz) | (intro _) | lift_lets -underBinder
    | with_reducible apply freeNode_frame

theorem takeNode_frame (p : Nat) (path : List ℕ) (x2 : Nat) (x3 : State) (hx3 : Frame s0 x3) :
    ∀ z, (takeNode p path x2 x3) = some z → Frame s0 z.2.2 := by
  induction x2 generalizing x3 with
  | zero =>
    intro z hz
    unfold takeNode at hz
    try dsimp only at hz
    repeat' first | with_reducible assumption | with_reducible cases hz
  | succ k ih =>
    intro z hz
    unfold takeNode at hz
    try dsimp only at hz
    repeat' first
      | with_reducible assumption | with_reducible cases hz | (obtain ⟨_, _, rfl⟩ := Option.map_eq_some_iff.1 hz)
      | split at hz | (dsimp only [pure, Except.pure] at hz) | (intro _) | lift_lets -underBinder
      | with_reducible refine reuseLeaf_frame _ _ _ ?_ _ (by assumption)
      | with_reducible refine ih _ ?_ _ (by assumption)

theorem insertFrom_frame (t : PTab) (x1 : List ℕ) (x2 x3 : Nat) (x4 : List ℕ) (x5 : State) (hx5 : Frame s0 x5) :
    Frame s0 (insertFrom t x1 x2 x3 x4 x5).2 := by
  induction x1 generalizing x2 x3 x4 x5 with
  | nil =>
    unfold insertFrom
    try dsimp only
    repeat' with_reducible assumption
  | cons x xs ih =>
    unfold insertFrom
    try dsimp only
    repeat' first
      | with_reducible assumption | (intro _) | lift_lets -underBinder | with_reducible apply linkNode_frame
      | with_reducible apply setPool_frame | with_reducible apply addOwner_frame | with_reducible apply passNode_frame
      | with_reducible apply putGroup_frame | with_reducible refine takeNode_frame _ _ _ _ ?_ _ (by assumption)
      | with_reducible apply ih | with_reducible apply frame_foldl | with_reducible apply frame_foldl_snd
      | with_reducible apply frame_foldl_snd_snd | split

theorem execPrefixInsert_frame (cmd : Nat) (s : State) (hs : Frame s0 s) :
    FrameO s0 (execPrefixInsert cmd s) := by
  unfold execPrefixInsert
  repeat' first
    | with_reducible assumption | exact trivial
    | (intro x; clear_value (hxv : x = _); with_reducible refine frame_let_snd (s0 := s0) hxv ?_ fun hx => ?_)
    | (intro x; clear_value x) | (intro _) | lift_lets -underBinder | with_reducible apply FrameO.next
    | with_reducible apply onCmd_frame | with_reducible apply Cmd.whenZero_frame | with_reducible apply judged_frame
    | with_reducible apply Cmd.reads_frame | with_reducible apply insertFrom_frame
    | with_reducible apply passNode_frame | with_reducible apply doneCmd_frame

theorem releaseTree_frame (p root x2 : Nat) (x3 : State) (hx3 : Frame s0 x3) :
    Frame s0 (releaseTree p root x2 x3) := by
  induction x2 generalizing x3 with
  | zero =>
    unfold releaseTree
    try dsimp only
    repeat' with_reducible assumption
  | succ k ih =>
    unfold releaseTree
    try dsimp only
    repeat' first
      | with_reducible assumption | (intro _) | lift_lets -underBinder | with_reducible apply freeNode_frame
      | with_reducible apply ih | split

theorem installPages_frame (cmd p : Nat) (x2 : List ℕ) (x3 : State) (hx3 : Frame s0 x3) :
    ∀ z, (installPages cmd p x2 x3) = some z → Frame s0 z.2 := by
  induction x2 generalizing x3 with
  | nil =>
    intro z hz
    unfold installPages at hz
    try dsimp only at hz
    repeat' first | with_reducible assumption | with_reducible cases hz
  | cons x xs ih =>
    intro z hz
    unfold installPages at hz
    try dsimp only at hz
    repeat' first
      | with_reducible assumption | with_reducible cases hz | (obtain ⟨_, _, rfl⟩ := Option.map_eq_some_iff.1 hz)
      | split at hz | (dsimp only [pure, Except.pure] at hz) | (intro _) | lift_lets -underBinder
      | with_reducible refine takePage_frame _ _ _ _ ?_ _ (by assumption) | with_reducible apply writePage_frame
      | with_reducible apply sealPage_frame | with_reducible refine ih _ ?_ _ (by assumption) | split
      | with_reducible apply Frame.upd

theorem replaceSet_frame (p set : Nat) (x : PrefixSet) (s : State) (hs : Frame s0 s) :
    Frame s0 (replaceSet p set x s) := by
  unfold replaceSet
  repeat' first
    | with_reducible assumption
    | (intro x; clear_value (hxv : x = _); with_reducible refine frame_let (s0 := s0) hxv ?_ fun hx => ?_)
    | (intro x; clear_value x) | (intro _) | lift_lets -underBinder | with_reducible apply setPool_frame
    | with_reducible apply releaseTree_frame | with_reducible apply dropOwner_frame | with_reducible apply frame_foldl
    | with_reducible apply frame_foldl_snd | with_reducible apply frame_foldl_snd_snd | split

theorem execLoadPrefixSet_frame (cmd : Nat) (s : State) (hs : Frame s0 s) :
    FrameO s0 (execLoadPrefixSet cmd s) := by
  unfold execLoadPrefixSet
  repeat' first
    | with_reducible assumption | exact trivial | (intro x; clear_value x) | (intro _) | lift_lets -underBinder
    | with_reducible apply FrameO.next | with_reducible apply onCmd_frame | with_reducible apply judged_frame
    | with_reducible refine installPages_frame _ _ _ _ ?_ _ (by assumption) | with_reducible apply rejectCmd_frame
    | with_reducible apply Cmd.reads_frame | with_reducible apply doneCmd_frame
    | with_reducible apply replaceSet_frame | split

theorem zeroView_frame (p off n : Nat) (s : State) (hs : Frame s0 s) :
    Frame s0 (zeroView p off n s) := by
  unfold zeroView
  repeat' first
    | with_reducible assumption | (intro _) | lift_lets -underBinder | with_reducible apply zeroStack_frame
    | with_reducible apply frame_foldl | with_reducible apply frame_foldl_snd
    | with_reducible apply frame_foldl_snd_snd | split

theorem acceptPool_frame (p : Nat) (d : PoolDesc) (s : State) (hs : Frame s0 s) :
    Frame s0 (acceptPool p d s) := by
  unfold acceptPool
  repeat' first
    | with_reducible assumption
    | (intro x; clear_value (hxv : x = _); with_reducible refine frame_let (s0 := s0) hxv ?_ fun hx => ?_)
    | (intro x; clear_value x) | (intro _) | lift_lets -underBinder | with_reducible apply zeroView_frame
    | with_reducible apply setPool_frame | split

theorem rejectPool_frame (p : Nat) (s : State) (hs : Frame s0 s) :
    Frame s0 (rejectPool p s) := by
  unfold rejectPool
  repeat' first
    | with_reducible assumption | (intro x; clear_value x) | (intro _) | lift_lets -underBinder
    | with_reducible apply setPool_frame

theorem checkPool_frame (p : Nat) (s : State) (hs : Frame s0 s) :
    Frame s0 (checkPool p s) := by
  unfold checkPool
  repeat' first
    | with_reducible assumption
    | (intro x; clear_value (hxv : x = _); with_reducible refine frame_let (s0 := s0) hxv ?_ fun hx => ?_) | (intro _)
    | lift_lets -underBinder | with_reducible apply readCharged_frame | with_reducible apply acceptPool_frame
    | with_reducible apply rejectPool_frame | split

theorem kvPoolHiWrite_frame (fn part : Nat) (value : W32) (s : State) (hs : Frame s0 s) :
    Frame s0 (kvPoolHiWrite fn part value s) := by
  unfold kvPoolHiWrite
  repeat' first
    | with_reducible assumption | (intro x; clear_value x) | (intro _) | lift_lets -underBinder
    | with_reducible apply checkPool_frame | with_reducible apply setPool_frame | split

theorem execKvPoolHiWrite_frame (fn part : Nat) (value : W32) (s : State) (hs : Frame s0 s) :
    FrameO s0 (execKvPoolHiWrite fn part value s) := by
  unfold execKvPoolHiWrite
  repeat' first
    | with_reducible assumption | exact trivial | (intro _) | lift_lets -underBinder
    | with_reducible apply FrameO.next | with_reducible apply onUnit_frame | with_reducible apply kvPoolHiWrite_frame
    | split

theorem releasePool_frame (p : Nat) (s : State) (hs : Frame s0 s) :
    Frame s0 (releasePool p s) := by
  unfold releasePool
  repeat' first
    | with_reducible assumption | (intro x; clear_value x) | (intro _) | lift_lets -underBinder
    | with_reducible apply setPool_frame

theorem kvPoolRelease_frame (fn part : Nat) (value : W32) (s : State) (hs : Frame s0 s) :
    Frame s0 (kvPoolRelease fn part value s) := by
  unfold kvPoolRelease
  repeat' first
    | with_reducible assumption | (intro _) | lift_lets -underBinder | with_reducible apply releasePool_frame | split

theorem execKvPoolRelease_frame (fn part : Nat) (value : W32) (s : State) (hs : Frame s0 s) :
    FrameO s0 (execKvPoolRelease fn part value s) := by
  unfold execKvPoolRelease
  repeat' first
    | with_reducible assumption | exact trivial | (intro _) | lift_lets -underBinder
    | with_reducible apply FrameO.next | with_reducible apply onUnit_frame | with_reducible apply kvPoolRelease_frame
    | split

end Sys2Proof.Machine
end

