-- ==== Sys2Proof/Laws/FrameServe.lean ====
section
/-!
SUPPORT. The frame of every operation of requests, customers, planning and power: see Laws/Frame.lean.
-/

namespace Sys2Proof.Machine

variable {s0 : State}

theorem setCustomer_frame (s : State) (n : Nat) (x : Customer) (hs : Frame s0 s) :
    Frame s0 (setCustomer s n x) := by
  unfold setCustomer
  repeat' first
    | with_reducible assumption | (intro x; clear_value x) | (intro _) | lift_lets -underBinder | split
    | with_reducible apply Frame.upd

theorem execCustomerSet_frame (cmd : Nat) (s : State) (hs : Frame s0 s) :
    FrameO s0 (execCustomerSet cmd s) := by
  unfold execCustomerSet
  repeat' first
    | with_reducible assumption | exact trivial | (intro x; clear_value x) | (intro _) | lift_lets -underBinder
    | with_reducible apply FrameO.next | with_reducible apply onCmd_frame | with_reducible apply judged_frame
    | with_reducible apply doneCmd_frame | with_reducible apply setCustomer_frame

theorem refillAll_frame (p t : Nat) (s : State) (hs : Frame s0 s) :
    Frame s0 (refillAll p t s) := by
  unfold refillAll
  repeat' first
    | with_reducible assumption | (intro x; clear_value x) | (intro _) | lift_lets -underBinder | split
    | with_reducible apply Frame.upd

theorem applySet_frame (t : PTab) (n : Nat) (x : PrefixSet) (s : State) (hs : Frame s0 s) :
    Frame s0 (applySet t n x s) := by
  unfold applySet
  repeat' first
    | with_reducible assumption
    | (intro x; clear_value (hxv : x = _); with_reducible refine frame_let (s0 := s0) hxv ?_ fun hx => ?_) | (intro _)
    | lift_lets -underBinder | with_reducible apply addOwner_frame | with_reducible apply PTab.put_frame
    | with_reducible apply PTab.write_frame | with_reducible apply Cmd.put_frame | with_reducible apply frame_foldl

theorem execRequestOpen_frame (cmd : Nat) (s : State) (hs : Frame s0 s) :
    FrameO s0 (execRequestOpen cmd s) := by
  unfold execRequestOpen
  repeat' first
    | with_reducible assumption | exact trivial
    | (intro x; clear_value (hxv : x = _); with_reducible refine frame_let (s0 := s0) hxv ?_ fun hx => ?_)
    | (intro x; clear_value x) | (intro _) | lift_lets -underBinder | with_reducible apply FrameO.next
    | with_reducible apply onCmd_frame | with_reducible apply judged_frame | with_reducible apply setRequest_frame
    | with_reducible apply applySet_frame | with_reducible apply PTab.write_frame | with_reducible apply doneCmd_frame
    | split

theorem closeRequest_frame (n : Nat) (s : State) (hs : Frame s0 s) :
    Frame s0 (closeRequest n s) := by
  unfold closeRequest
  repeat' first
    | with_reducible assumption
    | (intro x; clear_value (hxv : x = _); with_reducible refine frame_let (s0 := s0) hxv ?_ fun hx => ?_)
    | (intro x; clear_value x) | (intro _) | lift_lets -underBinder | with_reducible apply dropOwner_frame
    | with_reducible apply frame_foldl | with_reducible apply frame_foldl_snd
    | with_reducible apply frame_foldl_snd_snd | split | with_reducible apply Frame.upd

theorem execRequestClose_frame (cmd : Nat) (s : State) (hs : Frame s0 s) :
    FrameO s0 (execRequestClose cmd s) := by
  unfold execRequestClose
  repeat' first
    | with_reducible assumption | exact trivial | (intro _) | lift_lets -underBinder
    | with_reducible apply FrameO.next | with_reducible apply onCmd_frame | with_reducible apply Cmd.afterSteps_frame
    | with_reducible apply judged_frame | with_reducible apply Cmd.reads_frame | with_reducible apply doneCmd_frame
    | with_reducible apply closeRequest_frame

theorem execSubmitChunk_frame (cmd : Nat) (s : State) (hs : Frame s0 s) :
    FrameO s0 (execSubmitChunk cmd s) := by
  unfold execSubmitChunk
  repeat' first
    | with_reducible assumption | exact trivial | (intro x; clear_value x) | (intro _) | lift_lets -underBinder
    | with_reducible apply FrameO.next | with_reducible apply onCmd_frame | with_reducible apply judged_frame
    | with_reducible apply doneCmd_frame | with_reducible apply setRequest_frame | split

theorem detectFall_frame (t n : Nat) (s : State) (hs : Frame s0 s) :
    Frame s0 (detectFall t n s) := by
  unfold detectFall
  repeat' first
    | with_reducible assumption
    | (intro x; clear_value (hxv : x = _); with_reducible refine frame_let (s0 := s0) hxv ?_ fun hx => ?_)
    | (intro x; clear_value x) | (intro _) | lift_lets -underBinder | with_reducible apply setRequest_frame
    | with_reducible apply raise_frame | split | with_reducible apply Frame.upd

theorem markDeferred_frame (n : Nat) (r : Request) (s : State) (hs : Frame s0 s) :
    Frame s0 (markDeferred n r s) := by
  unfold markDeferred
  repeat' first
    | with_reducible assumption
    | (intro x; clear_value (hxv : x = _); with_reducible refine frame_let (s0 := s0) hxv ?_ fun hx => ?_)
    | (intro x; clear_value x) | (intro _) | lift_lets -underBinder | with_reducible apply setRequest_frame
    | with_reducible apply setCustomer_frame | split | with_reducible apply Frame.upd

theorem planLoop_frame (pl : Planning) (limit budget : Nat) (x3 : List (ℕ × ℤ)) (x4 : Plan) (x5 : State)
    (hx5 : Frame s0 x5) :
    Frame s0 (planLoop pl limit budget x3 x4 x5).2 := by
  induction x3 generalizing x4 x5 with
  | nil =>
    unfold planLoop
    try dsimp only
    repeat' with_reducible assumption
  | cons x xs ih =>
    obtain ⟨p, q⟩ := x
    unfold planLoop
    try dsimp only
    repeat' first
      | with_reducible assumption | (intro _) | lift_lets -underBinder | with_reducible apply setRequest_frame
      | with_reducible apply markDeferred_frame | with_reducible apply ih | split

theorem stepPlan_frame (c : Cmd) (s : State) (hs : Frame s0 s) :
    Frame s0 (stepPlan c s).2 := by
  unfold stepPlan
  repeat' first
    | with_reducible assumption
    | (intro x; clear_value (hxv : x = _); with_reducible refine frame_let (s0 := s0) hxv ?_ fun hx => ?_)
    | (intro x; clear_value (hxv : x = _); with_reducible refine frame_let_snd (s0 := s0) hxv ?_ fun hx => ?_)
    | (intro x; clear_value x) | (intro _) | lift_lets -underBinder | with_reducible apply refillAll_frame
    | with_reducible apply detectFall_frame | with_reducible apply planLoop_frame | with_reducible apply frame_foldl
    | with_reducible apply frame_foldl_snd | with_reducible apply frame_foldl_snd_snd | split
    | with_reducible apply Frame.upd

theorem execStepPlan_frame (cmd : Nat) (s : State) (hs : Frame s0 s) :
    FrameO s0 (execStepPlan cmd s) := by
  unfold execStepPlan
  repeat' first
    | with_reducible assumption | exact trivial
    | (intro x; clear_value (hxv : x = _); with_reducible refine frame_let (s0 := s0) hxv ?_ fun hx => ?_)
    | (intro x; clear_value (hxv : x = _); with_reducible refine frame_let_snd (s0 := s0) hxv ?_ fun hx => ?_)
    | (intro x; clear_value x) | (intro _) | lift_lets -underBinder | with_reducible apply FrameO.next
    | with_reducible apply onCmd_frame | with_reducible apply judged_frame | with_reducible apply doneCmd_frame
    | with_reducible apply Cmd.gate_frame | with_reducible apply stepPlan_frame | with_reducible apply Cmd.store_frame
    | with_reducible refine store_frame _ _ _ _ _ ?_ _ (by assumption) | split | with_reducible apply Frame.upd

theorem serveCostWrite_frame (fn offset : Nat) (value : W32) (s : State) (hs : Frame s0 s) :
    Frame s0 (serveCostWrite fn offset value s) := by
  unfold serveCostWrite
  repeat' first
    | with_reducible assumption
    | (intro x; clear_value (hxv : x = _); with_reducible refine frame_let_of (s0 := s0) hxv ?_ fun hgo => ?_)
    | (intro x; clear_value x) | (intro _) | lift_lets -underBinder | with_reducible apply hgo
    | with_reducible apply Cmd.put_frame | with_reducible apply PTab.put_frame | split
    | with_reducible apply Frame.upd

theorem execServeCostWrite_frame (fn offset : Nat) (value : W32) (s : State) (hs : Frame s0 s) :
    FrameO s0 (execServeCostWrite fn offset value s) := by
  unfold execServeCostWrite
  repeat' first
    | with_reducible assumption | exact trivial | (intro _) | lift_lets -underBinder
    | with_reducible apply FrameO.next | with_reducible apply onUnit_frame | with_reducible apply serveCostWrite_frame

theorem scrubTick_frame (dt : Nat) (x1 : List ℕ) (x2 : Nat) (x3 : State) (hx3 : Frame s0 x3) :
    Frame s0 (scrubTick dt x1 x2 x3) := by
  induction x1 generalizing x2 x3 with
  | nil =>
    unfold scrubTick
    try dsimp only
    repeat' with_reducible assumption
  | cons x xs ih =>
    unfold scrubTick
    try dsimp only
    repeat' first
      | with_reducible assumption | (intro _) | lift_lets -underBinder | with_reducible apply setStack_frame
      | with_reducible apply ih | split

theorem accrue_frame (dt : Nat) (s : State) (hs : Frame s0 s) :
    Frame s0 (accrue dt s) := by
  unfold accrue
  repeat' first
    | with_reducible assumption
    | (intro x; clear_value (hxv : x = _); with_reducible refine frame_let (s0 := s0) hxv ?_ fun hx => ?_)
    | (intro x; clear_value x) | (intro _) | lift_lets -underBinder | with_reducible apply scrubTick_frame | split
    | with_reducible apply Frame.upd

theorem setIsland_frame (s : State) (n : Nat) (x : Island) (hs : Frame s0 s) :
    Frame s0 (setIsland s n x) := by
  unfold setIsland
  repeat' first
    | with_reducible assumption | (intro x; clear_value x) | (intro _) | lift_lets -underBinder | split
    | with_reducible apply Frame.upd

theorem applyVoltage_frame (s : State) (hs : Frame s0 s) :
    Frame s0 (applyVoltage s) := by
  unfold applyVoltage
  repeat' first
    | with_reducible assumption
    | (intro x; clear_value (hxv : x = _); with_reducible refine frame_let_fun_left2 (s0 := s0) hxv ?_ fun hgo => ?_)
    | (intro _) | lift_lets -underBinder | with_reducible apply hgo | with_reducible apply setIsland_frame
    | with_reducible apply Cmd.put_frame | with_reducible apply PTab.put_frame | with_reducible apply frame_foldl

theorem powerVoltage_frame (s : State) (hs : Frame s0 s) :
    Frame s0 (powerVoltage s) := by
  unfold powerVoltage
  repeat' first
    | with_reducible assumption | (intro x; clear_value x) | (intro _) | lift_lets -underBinder
    | with_reducible apply setIsland_frame | with_reducible apply frame_foldl | with_reducible apply frame_foldl_snd
    | with_reducible apply frame_foldl_snd_snd | split | with_reducible apply Frame.upd

theorem execSetCap_frame (cmd : Nat) (s : State) (hs : Frame s0 s) :
    FrameO s0 (execSetCap cmd s) := by
  unfold execSetCap
  repeat' first
    | with_reducible assumption | exact trivial | (intro x; clear_value x) | (intro _) | lift_lets -underBinder
    | with_reducible apply FrameO.next | with_reducible apply onCmd_frame | with_reducible apply judged_frame
    | with_reducible apply doneCmd_frame | split | with_reducible apply Frame.upd

theorem execSetProfile_frame (cmd : Nat) (s : State) (hs : Frame s0 s) :
    FrameO s0 (execSetProfile cmd s) := by
  unfold execSetProfile
  repeat' first
    | with_reducible assumption | exact trivial | (intro x; clear_value x) | (intro _) | lift_lets -underBinder
    | with_reducible apply FrameO.next | with_reducible apply onCmd_frame | with_reducible apply judged_frame
    | with_reducible apply doneCmd_frame | split | with_reducible apply Frame.upd

theorem leavePool_frame (s : State) (hs : Frame s0 s) :
    Frame s0 (leavePool s) := by
  unfold leavePool
  repeat' first
    | with_reducible assumption | (intro x; clear_value x) | (intro _) | lift_lets -underBinder | split
    | with_reducible apply Frame.upd

theorem joinPool_frame (pool : Nat) (nodes : List ℕ) (s : State) (hs : Frame s0 s) :
    Frame s0 (joinPool pool nodes s) := by
  unfold joinPool
  repeat' first
    | with_reducible assumption | (intro x; clear_value x) | (intro _) | lift_lets -underBinder | split
    | with_reducible apply Frame.upd

theorem execLendPool_frame (cmd : Nat) (s : State) (hs : Frame s0 s) :
    FrameO s0 (execLendPool cmd s) := by
  unfold execLendPool
  repeat' first
    | with_reducible assumption | exact trivial | (intro _) | lift_lets -underBinder
    | with_reducible apply FrameO.next | with_reducible apply onCmd_frame | with_reducible apply doneCmd_frame
    | with_reducible apply leavePool_frame | with_reducible apply judged_frame | with_reducible apply joinPool_frame
    | split

theorem execSleep_frame (cmd : Nat) (s : State) (hs : Frame s0 s) :
    FrameO s0 (execSleep cmd s) := by
  unfold execSleep
  repeat' first
    | with_reducible assumption | exact trivial | (intro _) | lift_lets -underBinder
    | with_reducible apply FrameO.next | with_reducible apply onCmd_frame | with_reducible apply waitCmd_frame
    | with_reducible apply judged_frame | with_reducible apply resumeCmd_frame | with_reducible apply doneCmd_frame
    | split

theorem execPowerRead_frame (cmd : Nat) (s : State) (hs : Frame s0 s) :
    FrameO s0 (execPowerRead cmd s) := by
  unfold execPowerRead
  repeat' first
    | with_reducible assumption | exact trivial | (intro _) | lift_lets -underBinder
    | with_reducible apply FrameO.next | with_reducible apply onCmd_frame | with_reducible apply judged_frame
    | with_reducible apply Cmd.reaching_frame | with_reducible apply doneCmd_frame
    | with_reducible apply Cmd.put_frame

theorem measure_frame (compute stack io module : Nat) (s : State) (hs : Frame s0 s) :
    Frame s0 (measure compute stack io module s) := by
  unfold measure
  repeat' first
    | with_reducible assumption | (intro x; clear_value x) | (intro _) | lift_lets -underBinder | split
    | with_reducible apply Frame.upd

theorem capLoopStep_frame (compute stack io module : Nat) (s : State) (hs : Frame s0 s) :
    Frame s0 (capLoopStep compute stack io module s) := by
  unfold capLoopStep
  repeat' first
    | with_reducible assumption
    | (intro x; clear_value (hxv : x = _); with_reducible refine frame_let (s0 := s0) hxv ?_ fun hx => ?_)
    | (intro x; clear_value x) | (intro _) | lift_lets -underBinder | with_reducible apply measure_frame
    | with_reducible apply applyVoltage_frame | split | with_reducible apply Frame.upd

theorem execCapLoopStep_frame (compute stack io module : Nat) (s : State) (hs : Frame s0 s) :
    FrameO s0 (execCapLoopStep compute stack io module s) := by
  unfold execCapLoopStep
  repeat' first
    | with_reducible assumption | exact trivial | (intro _) | lift_lets -underBinder
    | with_reducible apply FrameO.next | with_reducible apply capLoopStep_frame | with_reducible apply measure_frame
    | split

theorem applyRow_frame (s : State) (hs : Frame s0 s) :
    Frame s0 (applyRow s) := by
  unfold applyRow
  repeat' first
    | with_reducible assumption | (intro x; clear_value x) | (intro _) | lift_lets -underBinder
    | with_reducible apply setStack_frame | with_reducible apply frame_foldl

theorem stackRowStep_frame (avg : Nat) (tenMs : Bool) (stayedLow : Bool) (s : State) (hs : Frame s0 s) :
    Frame s0 (stackRowStep avg tenMs stayedLow s) := by
  unfold stackRowStep
  repeat' first
    | with_reducible assumption | (intro x; clear_value x) | (intro _) | lift_lets -underBinder
    | with_reducible apply applyRow_frame | split | with_reducible apply Frame.upd

theorem execStackRowStep_frame (avg : Nat) (tenMs : Bool) (stayedLow : Bool) (s : State) (hs : Frame s0 s) :
    FrameO s0 (execStackRowStep avg tenMs stayedLow s) := by
  unfold execStackRowStep
  repeat' first
    | with_reducible assumption | exact trivial | (intro _) | lift_lets -underBinder
    | with_reducible apply FrameO.next | with_reducible apply stackRowStep_frame | split

theorem measureCurrent_frame (avg sample : Nat) (s : State) (hs : Frame s0 s) :
    Frame s0 (measureCurrent avg sample s) := by
  unfold measureCurrent
  repeat' first
    | with_reducible assumption | (intro x; clear_value x) | (intro _) | lift_lets -underBinder | split
    | with_reducible apply Frame.upd

theorem currentLimitStep_frame (avg sample : Nat) (released : Bool) (s : State) (hs : Frame s0 s) :
    Frame s0 (currentLimitStep avg sample released s) := by
  unfold currentLimitStep
  repeat' first
    | with_reducible assumption
    | (intro x; clear_value (hxv : x = _); with_reducible refine frame_let (s0 := s0) hxv ?_ fun hx => ?_)
    | (intro x; clear_value x) | (intro _) | lift_lets -underBinder | with_reducible apply measureCurrent_frame
    | split | with_reducible apply Frame.upd

theorem execCurrentLimitStep_frame (avg sample : Nat) (released : Bool) (s : State) (hs : Frame s0 s) :
    FrameO s0 (execCurrentLimitStep avg sample released s) := by
  unfold execCurrentLimitStep
  repeat' first
    | with_reducible assumption | exact trivial | (intro _) | lift_lets -underBinder
    | with_reducible apply FrameO.next | with_reducible apply currentLimitStep_frame
    | with_reducible apply measureCurrent_frame | split

theorem noteSteady_frame (die : Nat) (s : State) (hs : Frame s0 s) :
    Frame s0 (noteSteady die s) := by
  unfold noteSteady
  repeat' first
    | with_reducible assumption | (intro x; clear_value x) | (intro _) | lift_lets -underBinder | split
    | with_reducible apply Frame.upd

theorem droopTrip_frame (island mv : Nat) (s : State) (hs : Frame s0 s) :
    Frame s0 (droopTrip island mv s) := by
  unfold droopTrip
  repeat' first
    | with_reducible assumption
    | (intro x; clear_value (hxv : x = _); with_reducible refine frame_let (s0 := s0) hxv ?_ fun hx => ?_)
    | (intro x; clear_value x) | (intro _) | lift_lets -underBinder | with_reducible apply noteSteady_frame
    | with_reducible apply setIsland_frame | split | with_reducible apply Frame.upd

theorem execDroopTrip_frame (island mv : Nat) (s : State) (hs : Frame s0 s) :
    FrameO s0 (execDroopTrip island mv s) := by
  unfold execDroopTrip
  repeat' first
    | with_reducible assumption | exact trivial | (intro _) | lift_lets -underBinder
    | with_reducible apply FrameO.next | with_reducible apply onUnit_frame | with_reducible apply droopTrip_frame

theorem droopRelease_frame (die : Nat) (s : State) (hs : Frame s0 s) :
    Frame s0 (droopRelease die s) := by
  unfold droopRelease
  repeat' first
    | with_reducible assumption | (intro x; clear_value x) | (intro _) | lift_lets -underBinder | split
    | with_reducible apply Frame.upd

theorem execDroopRelease_frame (die : Nat) (s : State) (hs : Frame s0 s) :
    FrameO s0 (execDroopRelease die s) := by
  unfold execDroopRelease
  repeat' first
    | with_reducible assumption | exact trivial | (intro _) | lift_lets -underBinder
    | with_reducible apply FrameO.next | with_reducible apply onUnit_frame | with_reducible apply droopRelease_frame

theorem thermalDie_frame (s : State) (d : Nat) (hs : Frame s0 s) :
    Frame s0 (thermalDie s d) := by
  unfold thermalDie
  repeat' first
    | with_reducible assumption | (intro x; clear_value x) | (intro _) | lift_lets -underBinder
    | with_reducible apply frame_foldl | with_reducible apply frame_foldl_snd
    | with_reducible apply frame_foldl_snd_snd | split | with_reducible apply Frame.upd

theorem thermalLimitStep_frame (readings : List Reading) (s : State) (hs : Frame s0 s) :
    Frame s0 (thermalLimitStep readings s) := by
  unfold thermalLimitStep
  repeat' first
    | with_reducible assumption
    | (intro x; clear_value (hxv : x = _); with_reducible refine frame_let (s0 := s0) hxv ?_ fun hx => ?_)
    | (intro x; clear_value x) | (intro _) | lift_lets -underBinder | with_reducible apply setIsland_frame
    | with_reducible apply applyVoltage_frame | with_reducible apply thermalDie_frame
    | with_reducible apply noteSteady_frame | with_reducible apply frame_foldl | with_reducible apply frame_foldl_snd
    | with_reducible apply frame_foldl_snd_snd | split

theorem execThermalLimitStep_frame (readings : List Reading) (s : State) (hs : Frame s0 s) :
    FrameO s0 (execThermalLimitStep readings s) := by
  unfold execThermalLimitStep
  repeat' first
    | with_reducible assumption | exact trivial | (intro _) | lift_lets -underBinder
    | with_reducible apply FrameO.next | with_reducible apply thermalLimitStep_frame | split

theorem thermalTrip_frame (stackSensor : Bool) (temp : Nat) (s : State) (hs : Frame s0 s) :
    Frame s0 (thermalTrip stackSensor temp s) := by
  unfold thermalTrip
  repeat' first
    | with_reducible assumption | (intro x; clear_value x) | (intro _) | lift_lets -underBinder
    | with_reducible apply raise_frame | with_reducible apply applyVoltage_frame | with_reducible apply applyRow_frame
    | split | with_reducible apply Frame.upd

theorem execThermalTrip_frame (stackSensor : Bool) (temp : Nat) (s : State) (hs : Frame s0 s) :
    FrameO s0 (execThermalTrip stackSensor temp s) := by
  unfold execThermalTrip
  repeat' first
    | with_reducible assumption | exact trivial | (intro _) | lift_lets -underBinder
    | with_reducible apply FrameO.next | with_reducible apply thermalTrip_frame

theorem thermalTripRelease_frame (dieTemp stackTemp : Nat) (s : State) (hs : Frame s0 s) :
    Frame s0 (thermalTripRelease dieTemp stackTemp s) := by
  unfold thermalTripRelease
  repeat' first
    | with_reducible assumption | (intro x; clear_value x) | (intro _) | lift_lets -underBinder
    | with_reducible apply applyVoltage_frame | with_reducible apply applyRow_frame | split
    | with_reducible apply Frame.upd

theorem execThermalTripRelease_frame (dieTemp stackTemp : Nat) (s : State) (hs : Frame s0 s) :
    FrameO s0 (execThermalTripRelease dieTemp stackTemp s) := by
  unfold execThermalTripRelease
  repeat' first
    | with_reducible assumption | exact trivial | (intro _) | lift_lets -underBinder
    | with_reducible apply FrameO.next | with_reducible apply thermalTripRelease_frame

theorem capAlertAssert_frame (s : State) (hs : Frame s0 s) :
    Frame s0 (capAlertAssert s) := by
  unfold capAlertAssert
  repeat' first
    | with_reducible assumption
    | (intro x; clear_value (hxv : x = _); with_reducible refine frame_let (s0 := s0) hxv ?_ fun hx => ?_)
    | (intro x; clear_value x) | (intro _) | lift_lets -underBinder | with_reducible apply raise_frame | split
    | with_reducible apply Frame.upd

theorem execCapAlertAssert_frame (s : State) (hs : Frame s0 s) :
    FrameO s0 (execCapAlertAssert s) := by
  unfold execCapAlertAssert
  repeat' first
    | with_reducible assumption | exact trivial | (intro _) | lift_lets -underBinder
    | with_reducible apply FrameO.next | with_reducible apply capAlertAssert_frame

theorem execCapAlertRelease_frame (s : State) (hs : Frame s0 s) :
    FrameO s0 (execCapAlertRelease s) := by
  unfold execCapAlertRelease
  repeat' first
    | with_reducible assumption | exact trivial | (intro x; clear_value x) | (intro _) | lift_lets -underBinder
    | with_reducible apply FrameO.next | split | with_reducible apply Frame.upd

theorem powerCfgWrite_frame (fn offset : Nat) (value : W32) (s : State) (hs : Frame s0 s) :
    Frame s0 (powerCfgWrite fn offset value s) := by
  unfold powerCfgWrite
  repeat' first
    | with_reducible assumption | (intro x; clear_value x) | (intro _) | lift_lets -underBinder
    | with_reducible apply raise_frame | split | with_reducible apply Frame.upd

theorem execPowerCfgWrite_frame (fn offset : Nat) (value : W32) (s : State) (hs : Frame s0 s) :
    FrameO s0 (execPowerCfgWrite fn offset value s) := by
  unfold execPowerCfgWrite
  repeat' first
    | with_reducible assumption | exact trivial | (intro _) | lift_lets -underBinder
    | with_reducible apply FrameO.next | with_reducible apply onUnit_frame | with_reducible apply powerCfgWrite_frame

theorem setLend_frame (s : State) (l : Lend) (hs : Frame s0 s) :
    Frame s0 (setLend s l) := by
  unfold setLend
  repeat' first
    | with_reducible assumption | (intro x; clear_value x) | (intro _) | lift_lets -underBinder | split
    | with_reducible apply Frame.upd

theorem heardCoordinator_frame (s : State) (hs : Frame s0 s) :
    Frame s0 (heardCoordinator s) := by
  unfold heardCoordinator
  repeat' first
    | with_reducible assumption | (intro x; clear_value x) | (intro _) | lift_lets -underBinder
    | with_reducible apply setLend_frame

theorem setNet_frame (net : ℤ) (s : State) (hs : Frame s0 s) :
    Frame s0 (setNet net s) := by
  unfold setNet
  repeat' first
    | with_reducible assumption | (intro x; clear_value x) | (intro _) | lift_lets -underBinder
    | with_reducible apply setLend_frame

theorem renewed_frame (net : ℤ) (s : State) (hs : Frame s0 s) :
    Frame s0 (renewed net s) := by
  unfold renewed
  repeat' first
    | with_reducible assumption
    | (intro x; clear_value (hxv : x = _); with_reducible refine frame_let (s0 := s0) hxv ?_ fun hx => ?_)
    | (intro x; clear_value x) | (intro _) | lift_lets -underBinder | with_reducible apply setNet_frame
    | with_reducible apply setLend_frame

theorem sendRenew_frame (s : State) (hs : Frame s0 s) :
    Frame s0 (sendRenew s) := by
  unfold sendRenew
  repeat' first
    | with_reducible assumption | (intro x; clear_value x) | (intro _) | lift_lets -underBinder
    | with_reducible apply renewed_frame | with_reducible apply sendTow_frame | with_reducible apply setLend_frame
    | with_reducible apply frame_foldl | with_reducible apply frame_foldl_snd
    | with_reducible apply frame_foldl_snd_snd | split

theorem sendGive_frame (s : State) (hs : Frame s0 s) :
    Frame s0 (sendGive s) := by
  unfold sendGive
  repeat' first
    | with_reducible assumption
    | (intro x; clear_value (hxv : x = _); with_reducible refine frame_let (s0 := s0) hxv ?_ fun hx => ?_)
    | (intro x; clear_value x) | (intro _) | lift_lets -underBinder | with_reducible apply setLend_frame
    | with_reducible apply setNet_frame | with_reducible apply sendTow_frame | with_reducible apply sendRenew_frame
    | split

theorem lendWatts_frame (s : State) (hs : Frame s0 s) :
    Frame s0 (lendWatts s) := by
  unfold lendWatts
  repeat' first
    | with_reducible assumption
    | (intro x; clear_value (hxv : x = _); with_reducible refine frame_let (s0 := s0) hxv ?_ fun hx => ?_)
    | (intro x; clear_value x) | (intro _) | lift_lets -underBinder | with_reducible apply setNet_frame
    | with_reducible apply setLend_frame

theorem sendTake_frame (s : State) (hs : Frame s0 s) :
    Frame s0 (sendTake s) := by
  unfold sendTake
  repeat' first
    | with_reducible assumption
    | (intro x; clear_value (hxv : x = _); with_reducible refine frame_let (s0 := s0) hxv ?_ fun hx => ?_)
    | (intro x; clear_value x) | (intro _) | lift_lets -underBinder | with_reducible apply setLend_frame
    | with_reducible apply sendGive_frame | with_reducible apply lendWatts_frame | with_reducible apply sendTow_frame
    | split

theorem collectSlack_frame (node tick wait cap : Nat) (s : State) (hs : Frame s0 s) :
    Frame s0 (collectSlack node tick wait cap s) := by
  unfold collectSlack
  repeat' first
    | with_reducible assumption
    | (intro x; clear_value (hxv : x = _); with_reducible refine frame_let (s0 := s0) hxv ?_ fun hx => ?_)
    | (intro x; clear_value x) | (intro _) | lift_lets -underBinder | with_reducible apply setLend_frame
    | with_reducible apply sendTake_frame | split

theorem lendTick_frame (s : State) (hs : Frame s0 s) :
    Frame s0 (lendTick s) := by
  unfold lendTick
  repeat' first
    | with_reducible assumption
    | (intro x; clear_value (hxv : x = _); with_reducible refine frame_let (s0 := s0) hxv ?_ fun hx => ?_)
    | (intro x; clear_value x) | (intro _) | lift_lets -underBinder | with_reducible apply setLend_frame
    | with_reducible apply collectSlack_frame | with_reducible apply sendTow_frame | split

theorem execLendTick_frame (_wait : Nat) (s : State) (hs : Frame s0 s) :
    FrameO s0 (execLendTick _wait s) := by
  unfold execLendTick
  repeat' first
    | with_reducible assumption | exact trivial | (intro _) | lift_lets -underBinder
    | with_reducible apply FrameO.next | with_reducible apply whenRunning_frame | with_reducible apply lendTick_frame

theorem execSlack_frame (node tick wait cap : Nat) (s : State) (hs : Frame s0 s) :
    FrameO s0 (execSlack node tick wait cap s) := by
  unfold execSlack
  repeat' first
    | with_reducible assumption | exact trivial | (intro _) | lift_lets -underBinder
    | with_reducible apply FrameO.next | with_reducible apply whenRunning_frame
    | with_reducible apply collectSlack_frame | split

theorem execTakeTimeout_frame (s : State) (hs : Frame s0 s) :
    FrameO s0 (execTakeTimeout s) := by
  unfold execTakeTimeout
  repeat' first
    | with_reducible assumption | exact trivial | (intro _) | lift_lets -underBinder
    | with_reducible apply FrameO.next | with_reducible apply whenRunning_frame | with_reducible apply sendTake_frame
    | split

theorem take_frame (tick : Nat) (s : State) (hs : Frame s0 s) :
    Frame s0 (take tick s) := by
  unfold take
  repeat' first
    | with_reducible assumption
    | (intro x; clear_value (hxv : x = _); with_reducible refine frame_let (s0 := s0) hxv ?_ fun hx => ?_) | (intro _)
    | lift_lets -underBinder | with_reducible apply heardCoordinator_frame | with_reducible apply lendWatts_frame
    | with_reducible apply sendTow_frame | split

theorem execTake_frame (tick : Nat) (s : State) (hs : Frame s0 s) :
    FrameO s0 (execTake tick s) := by
  unfold execTake
  repeat' first
    | with_reducible assumption | exact trivial | (intro _) | lift_lets -underBinder
    | with_reducible apply FrameO.next | with_reducible apply whenRunning_frame | with_reducible apply take_frame

theorem execTaken_frame (node tick : Nat) (s : State) (hs : Frame s0 s) :
    FrameO s0 (execTaken node tick s) := by
  unfold execTaken
  repeat' first
    | with_reducible assumption | exact trivial | (intro _) | lift_lets -underBinder
    | with_reducible apply FrameO.next | with_reducible apply whenRunning_frame | with_reducible apply sendGive_frame
    | split

theorem execGive_frame (tick watts : Nat) (s : State) (hs : Frame s0 s) :
    FrameO s0 (execGive tick watts s) := by
  unfold execGive
  repeat' first
    | with_reducible assumption | exact trivial | (intro _) | lift_lets -underBinder
    | with_reducible apply FrameO.next | with_reducible apply whenRunning_frame
    | with_reducible apply heardCoordinator_frame | with_reducible apply setNet_frame | split

theorem execRenew_frame (tick : Nat) (net : ℤ) (s : State) (hs : Frame s0 s) :
    FrameO s0 (execRenew tick net s) := by
  unfold execRenew
  repeat' first
    | with_reducible assumption | exact trivial | (intro x; clear_value x) | (intro _) | lift_lets -underBinder
    | with_reducible apply FrameO.next | with_reducible apply whenRunning_frame
    | with_reducible apply heardCoordinator_frame | with_reducible apply renewed_frame
    | with_reducible apply setLend_frame | split

theorem execRenewTimeout_frame (s : State) (hs : Frame s0 s) :
    FrameO s0 (execRenewTimeout s) := by
  unfold execRenewTimeout
  repeat' first
    | with_reducible assumption | exact trivial | (intro _) | lift_lets -underBinder
    | with_reducible apply FrameO.next | with_reducible apply whenRunning_frame | with_reducible apply sendRenew_frame
    | split

theorem execLendReceivedLapse_frame (s : State) (hs : Frame s0 s) :
    FrameO s0 (execLendReceivedLapse s) := by
  unfold execLendReceivedLapse
  repeat' first
    | with_reducible assumption | exact trivial | (intro x; clear_value x) | (intro _) | lift_lets -underBinder
    | with_reducible apply FrameO.next | with_reducible apply setLend_frame | split

theorem execLendReturn_frame (s : State) (hs : Frame s0 s) :
    FrameO s0 (execLendReturn s) := by
  unfold execLendReturn
  repeat' first
    | with_reducible assumption | exact trivial | (intro x; clear_value x) | (intro _) | lift_lets -underBinder
    | with_reducible apply FrameO.next | with_reducible apply setLend_frame | split

end Sys2Proof.Machine
end

