-- ==== Sys2Proof/Laws/FrameFabric.lean ====
section
/-!
SUPPORT. The frame of every operation of ports, links and messages: see Laws/Frame.lean.
-/

namespace Sys2Proof.Machine

variable {s0 : State}

theorem onPort_frame (p : Nat) (s : State) (f : Port → State → State) (hs : Frame s0 s)
    (hf : ∀ y0 y1, Frame s0 y1 → Frame s0 (f y0 y1)) :
    FrameO s0 (onPort p s f) := by
  unfold onPort
  repeat' first
    | with_reducible assumption | exact trivial | (intro _) | lift_lets -underBinder | with_reducible apply hf
    | with_reducible apply FrameO.next | with_reducible apply onUnit_frame | split

theorem sendHail_frame (p : Nat) (s : State) (hs : Frame s0 s) :
    Frame s0 (sendHail p s) := by
  unfold sendHail
  repeat' first
    | with_reducible assumption | (intro x; clear_value x) | (intro _) | lift_lets -underBinder
    | with_reducible apply setPort_frame | split

theorem releaseHeld_frame (s : State) (hs : Frame s0 s) :
    Frame s0 (releaseHeld s) := by
  unfold releaseHeld
  repeat' first
    | with_reducible assumption | (intro _) | lift_lets -underBinder | with_reducible apply releaseTow_frame
    | with_reducible apply sendHail_frame | with_reducible apply frame_foldl | with_reducible apply frame_foldl_snd
    | with_reducible apply frame_foldl_snd_snd | split

theorem execPortTrained_frame (port roundTrip : Nat) (s : State) (hs : Frame s0 s) :
    FrameO s0 (execPortTrained port roundTrip s) := by
  unfold execPortTrained
  repeat' first
    | with_reducible assumption | exact trivial | (intro _) | lift_lets -underBinder
    | with_reducible apply FrameO.next | with_reducible apply onPort_frame | with_reducible apply sendHail_frame
    | with_reducible apply setPort_frame | split

theorem linkUp_frame (p : Nat) (x : Port) (h : Hail) (s : State) (hs : Frame s0 s) :
    Frame s0 (linkUp p x h s) := by
  unfold linkUp
  repeat' first
    | with_reducible assumption | (intro x; clear_value x) | (intro _) | lift_lets -underBinder
    | with_reducible apply raise_frame | with_reducible apply setPort_frame

theorem execHailReceive_frame (port : Nat) (hail : Hail) (s : State) (hs : Frame s0 s) :
    FrameO s0 (execHailReceive port hail s) := by
  unfold execHailReceive
  repeat' first
    | with_reducible assumption | exact trivial | (intro x; clear_value x) | (intro _) | lift_lets -underBinder
    | with_reducible apply FrameO.next | with_reducible apply onPort_frame | with_reducible apply linkUp_frame
    | with_reducible apply setPort_frame | split

theorem reroute_frame (vc : Nat) (q : Queued) (s : State) (hs : Frame s0 s) :
    Frame s0 (reroute vc q s) := by
  unfold reroute
  repeat' first
    | with_reducible assumption | (intro _) | lift_lets -underBinder | with_reducible apply towOn_frame
    | with_reducible refine sendMsg_frame _ _ _ ?_ _ (by assumption) | with_reducible apply refuseRemote_frame
    | with_reducible apply countDrop_frame | with_reducible apply dropTransit_frame | split

theorem goDown_frame (p : Nat) (s : State) (hs : Frame s0 s) :
    Frame s0 (goDown p s) := by
  unfold goDown
  repeat' first
    | with_reducible assumption
    | (intro x; clear_value (hxv : x = _); with_reducible refine frame_let (s0 := s0) hxv ?_ fun hx => ?_)
    | (intro x; clear_value x) | (intro _) | lift_lets -underBinder | with_reducible apply setPort_frame
    | with_reducible apply reroute_frame | with_reducible apply report_frame | with_reducible apply raise_frame
    | with_reducible apply frame_foldl | with_reducible apply frame_foldl_snd
    | with_reducible apply frame_foldl_snd_snd | split

theorem execPortSilenceTimeout_frame (port : Nat) (s : State) (hs : Frame s0 s) :
    FrameO s0 (execPortSilenceTimeout port s) := by
  unfold execPortSilenceTimeout
  repeat' first
    | with_reducible assumption | exact trivial | (intro _) | lift_lets -underBinder
    | with_reducible apply FrameO.next | with_reducible apply onPort_frame | with_reducible apply goDown_frame | split

theorem startRetrain_frame (p : Nat) (s : State) (hs : Frame s0 s) :
    Frame s0 (startRetrain p s) := by
  unfold startRetrain
  repeat' first
    | with_reducible assumption | (intro x; clear_value x) | (intro _) | lift_lets -underBinder
    | with_reducible apply report_frame | with_reducible apply setPort_frame

theorem execPortRetrainDone_frame (port : Nat) (up : Bool) (s : State) (hs : Frame s0 s) :
    FrameO s0 (execPortRetrainDone port up s) := by
  unfold execPortRetrainDone
  repeat' first
    | with_reducible assumption | exact trivial
    | (intro x; clear_value (hxv : x = _); with_reducible refine frame_let (s0 := s0) hxv ?_ fun hx => ?_)
    | (intro x; clear_value x) | (intro _) | lift_lets -underBinder | with_reducible apply FrameO.next
    | with_reducible apply onPort_frame | with_reducible apply setPort_frame | with_reducible apply goDown_frame
    | split | with_reducible apply Frame.upd

theorem towPeer_frame (p : Nat) (bs : List Byte) (s : State) (hs : Frame s0 s) :
    Frame s0 (towPeer p bs s) := by
  unfold towPeer
  repeat' first | with_reducible assumption | (intro _) | lift_lets -underBinder | with_reducible apply putOut_frame

theorem startRekey_frame (p : Nat) (s : State) (hs : Frame s0 s) :
    Frame s0 (startRekey p s) := by
  unfold startRekey
  repeat' first
    | with_reducible assumption | (intro x; clear_value x) | (intro _) | lift_lets -underBinder
    | with_reducible apply towPeer_frame | with_reducible apply setPort_frame | split

theorem rekeySettle_frame (p : Nat) (s : State) (hs : Frame s0 s) :
    Frame s0 (rekeySettle p s) := by
  unfold rekeySettle
  repeat' first
    | with_reducible assumption
    | (intro x; clear_value (hxv : x = _); with_reducible refine frame_let (s0 := s0) hxv ?_ fun hx => ?_)
    | (intro x; clear_value x) | (intro _) | lift_lets -underBinder | with_reducible apply setPort_frame
    | with_reducible apply doneCmd_frame | split

theorem execRekeyMessageReceive_frame (port peerKey : Nat) (s : State) (hs : Frame s0 s) :
    FrameO s0 (execRekeyMessageReceive port peerKey s) := by
  unfold execRekeyMessageReceive
  repeat' first
    | with_reducible assumption | exact trivial
    | (intro x; clear_value (hxv : x = _); with_reducible refine frame_let (s0 := s0) hxv ?_ fun hx => ?_)
    | (intro x; clear_value x) | (intro _) | lift_lets -underBinder | with_reducible apply FrameO.next
    | with_reducible apply onPort_frame | with_reducible apply setPort_frame | with_reducible apply towPeer_frame
    | split

theorem clearPorts_frame (p : Nat) (s : State) (hs : Frame s0 s) :
    Frame s0 (clearPorts p s) := by
  unfold clearPorts
  repeat' first
    | with_reducible assumption | (intro _) | lift_lets -underBinder | with_reducible apply setPort_frame
    | with_reducible apply frame_foldl

theorem sendNew_frame (p : Nat) (s : State) (hs : Frame s0 s) :
    Frame s0 (sendNew p s) := by
  unfold sendNew
  repeat' first
    | with_reducible assumption
    | (intro x; clear_value (hxv : x = _); with_reducible refine frame_let (s0 := s0) hxv ?_ fun hx => ?_)
    | (intro x; clear_value x) | (intro _) | lift_lets -underBinder | with_reducible apply rekeySettle_frame
    | with_reducible apply setPort_frame | with_reducible apply startRekey_frame | split

theorem execFlitTransmit_frame (port : Nat) (s : State) (hs : Frame s0 s) :
    FrameO s0 (execFlitTransmit port s) := by
  unfold execFlitTransmit
  repeat' first
    | with_reducible assumption | exact trivial | (intro _) | lift_lets -underBinder
    | with_reducible apply FrameO.next | with_reducible apply onPort_frame | with_reducible apply setPort_frame
    | with_reducible apply sendNew_frame | split

theorem tagFailure_frame (p : Nat) (s : State) (hs : Frame s0 s) :
    Frame s0 (tagFailure p s) := by
  unfold tagFailure
  repeat' first
    | with_reducible assumption | (intro x; clear_value x) | (intro _) | lift_lets -underBinder
    | with_reducible apply goDown_frame | with_reducible apply report_frame | with_reducible apply raise_frame
    | with_reducible apply setPort_frame

theorem acknowledged_frame (p : Nat) (flit : List Byte) (s : State) (hs : Frame s0 s) :
    Frame s0 (acknowledged p flit s) := by
  unfold acknowledged
  repeat' first
    | with_reducible assumption | (intro x; clear_value x) | (intro _) | lift_lets -underBinder
    | with_reducible apply startRetrain_frame | with_reducible apply setPort_frame | split

theorem goodFlit_frame (p : Nat) (flit : List Byte) (s : State) (hs : Frame s0 s) :
    Frame s0 (goodFlit p flit s) := by
  unfold goodFlit
  repeat' first
    | with_reducible assumption
    | (intro x; clear_value (hxv : x = _); with_reducible refine frame_let (s0 := s0) hxv ?_ fun hx => ?_)
    | (intro x; clear_value x) | (intro _) | lift_lets -underBinder | with_reducible apply tagFailure_frame
    | with_reducible apply acknowledged_frame | with_reducible apply rekeySettle_frame
    | with_reducible apply setPort_frame | with_reducible apply startRekey_frame | with_reducible apply take_frame
    | split

theorem execFlitReceive_frame (port : Nat) (flit : List Byte) (fec : Nat) (s : State) (hs : Frame s0 s) :
    FrameO s0 (execFlitReceive port flit fec s) := by
  unfold execFlitReceive
  repeat' first
    | with_reducible assumption | exact trivial | (intro x; clear_value x) | (intro _) | lift_lets -underBinder
    | with_reducible apply FrameO.next | with_reducible apply onPort_frame | with_reducible apply setPort_frame
    | with_reducible apply goodFlit_frame | with_reducible apply take_frame | split

theorem execLinkState_frame (cmd : Nat) (s : State) (hs : Frame s0 s) :
    FrameO s0 (execLinkState cmd s) := by
  unfold execLinkState
  repeat' first
    | with_reducible assumption | exact trivial | (intro _) | lift_lets -underBinder
    | with_reducible apply FrameO.next | with_reducible apply onCmd_frame | with_reducible apply judged_frame
    | with_reducible apply Cmd.reaching_frame | with_reducible apply doneCmd_frame
    | with_reducible apply Cmd.put_frame

theorem execLinkRekey_frame (cmd : Nat) (s : State) (hs : Frame s0 s) :
    FrameO s0 (execLinkRekey cmd s) := by
  unfold execLinkRekey
  repeat' first
    | with_reducible assumption | exact trivial
    | (intro x; clear_value (hxv : x = _); with_reducible refine frame_let (s0 := s0) hxv ?_ fun hx => ?_)
    | (intro x; clear_value x) | (intro _) | lift_lets -underBinder | with_reducible apply FrameO.next
    | with_reducible apply onCmd_frame | with_reducible apply judged_frame | with_reducible apply startRekey_frame
    | with_reducible apply updCmd_frame | with_reducible apply setPort_frame | split

theorem popMsg_frame (p vc : Nat) (rest : List Byte) (s : State) (hs : Frame s0 s) :
    Frame s0 (popMsg p vc rest s) := by
  unfold popMsg
  repeat' first
    | with_reducible assumption | (intro x; clear_value x) | (intro _) | lift_lets -underBinder
    | with_reducible apply setPort_frame

theorem onMsg_frame (p vc kind : Nat) (s : State) (f : Msg → State → State → State) (hs : Frame s0 s)
    (hf : ∀ y0 y1 y2, Frame s0 y1 → Frame s0 y2 → Frame s0 (f y0 y1 y2)) :
    FrameO s0 (onMsg p vc kind s f) := by
  unfold onMsg
  repeat' first
    | with_reducible assumption | exact trivial | (intro _) | lift_lets -underBinder | with_reducible apply hf
    | with_reducible apply FrameO.next | with_reducible apply onPort_frame | with_reducible apply popMsg_frame | split

theorem takeWrite_frame (port vc : Nat) (m : Msg) (popped : State) (waiting : State) (hpopped : Frame s0 popped)
    (hwaiting : Frame s0 waiting) :
    Frame s0 (takeWrite port vc m popped waiting) := by
  unfold takeWrite
  repeat' first
    | with_reducible assumption | (intro x; clear_value x) | (intro _) | lift_lets -underBinder
    | with_reducible apply respond_frame | with_reducible apply putPieces_frame | with_reducible apply noteWaits_frame
    | split

theorem takeRead_frame (port : Nat) (m : Msg) (popped : State) (waiting : State) (hpopped : Frame s0 popped)
    (hwaiting : Frame s0 waiting) :
    Frame s0 (takeRead port m popped waiting) := by
  unfold takeRead
  repeat' first
    | with_reducible assumption
    | (intro x; clear_value (hxv : x = _); with_reducible refine frame_let_snd (s0 := s0) hxv ?_ fun hx => ?_)
    | (intro x; clear_value x) | (intro _) | lift_lets -underBinder | with_reducible apply respond_frame
    | with_reducible apply readCharged_frame | with_reducible apply noteWaits_frame | split

theorem execWrite_frame (port : Nat) (s : State) (hs : Frame s0 s) :
    FrameO s0 (execWrite port s) := by
  unfold execWrite
  repeat' first
    | with_reducible assumption | exact trivial | (intro _) | lift_lets -underBinder
    | with_reducible apply FrameO.next | with_reducible apply onMsg_frame | with_reducible apply takeWrite_frame

theorem execRead_frame (port : Nat) (s : State) (hs : Frame s0 s) :
    FrameO s0 (execRead port s) := by
  unfold execRead
  repeat' first
    | with_reducible assumption | exact trivial | (intro _) | lift_lets -underBinder
    | with_reducible apply FrameO.next | with_reducible apply onMsg_frame | with_reducible apply takeRead_frame

theorem execBarge_frame (port : Nat) (s : State) (hs : Frame s0 s) :
    FrameO s0 (execBarge port s) := by
  unfold execBarge
  repeat' first
    | with_reducible assumption | exact trivial | (intro _) | lift_lets -underBinder
    | with_reducible apply FrameO.next | with_reducible apply onMsg_frame | with_reducible apply takeWrite_frame

theorem takeQuery_frame (m : Msg) (s : State) (hs : Frame s0 s) :
    Frame s0 (takeQuery m s) := by
  unfold takeQuery
  repeat' first
    | with_reducible assumption | (intro x; clear_value x) | (intro _) | lift_lets -underBinder
    | with_reducible apply respond_frame | with_reducible apply PTab.write_frame | split
    | with_reducible apply Frame.upd

theorem execAdmissionQuery_frame (port : Nat) (s : State) (hs : Frame s0 s) :
    FrameO s0 (execAdmissionQuery port s) := by
  unfold execAdmissionQuery
  repeat' first
    | with_reducible assumption | exact trivial | (intro _) | lift_lets -underBinder
    | with_reducible apply FrameO.next | with_reducible apply onMsg_frame | with_reducible apply takeQuery_frame

theorem countTaint_frame (cmd : Option ℕ) (n : Nat) (s : State) (hs : Frame s0 s) :
    Frame s0 (countTaint cmd n s) := by
  unfold countTaint
  repeat' first
    | with_reducible assumption | (intro _) | lift_lets -underBinder | with_reducible apply updCmd_frame | split

theorem keepFetched_frame (r : Remote) (data : List PByte) (s : State) (hs : Frame s0 s) :
    Frame s0 (keepFetched r data s) := by
  unfold keepFetched
  repeat' first
    | with_reducible assumption
    | (intro x; clear_value (hxv : x = _); with_reducible refine frame_let (s0 := s0) hxv ?_ fun hx => ?_)
    | (intro x; clear_value x) | (intro _) | lift_lets -underBinder | with_reducible apply countTaint_frame
    | with_reducible apply updEntry_frame | with_reducible apply updCmd_frame | split

theorem execReadData_frame (port : Nat) (s : State) (hs : Frame s0 s) :
    FrameO s0 (execReadData port s) := by
  unfold execReadData
  repeat' first
    | with_reducible assumption | exact trivial | (intro _) | lift_lets -underBinder
    | with_reducible apply FrameO.next | with_reducible apply onMsg_frame | with_reducible apply settleRemote_frame
    | with_reducible apply keepFetched_frame | split

theorem execWriteAcknowledgement_frame (port : Nat) (s : State) (hs : Frame s0 s) :
    FrameO s0 (execWriteAcknowledgement port s) := by
  unfold execWriteAcknowledgement
  repeat' first
    | with_reducible assumption | exact trivial | (intro _) | lift_lets -underBinder
    | with_reducible apply FrameO.next | with_reducible apply onMsg_frame | with_reducible apply settleRemote_frame
    | with_reducible apply PTab.write_frame | split

theorem execAdmissionAnswer_frame (port : Nat) (s : State) (hs : Frame s0 s) :
    FrameO s0 (execAdmissionAnswer port s) := by
  unfold execAdmissionAnswer
  repeat' first
    | with_reducible assumption | exact trivial | (intro _) | lift_lets -underBinder
    | with_reducible apply FrameO.next | with_reducible apply onMsg_frame | with_reducible apply settleRemote_frame
    | split

theorem execRefusal_frame (port : Nat) (s : State) (hs : Frame s0 s) :
    FrameO s0 (execRefusal port s) := by
  unfold execRefusal
  repeat' first
    | with_reducible assumption | exact trivial | (intro _) | lift_lets -underBinder
    | with_reducible apply FrameO.next | with_reducible apply onMsg_frame | with_reducible apply refuseRemote_frame
    | with_reducible apply PTab.write_frame | split

theorem execUnroutable_frame (port : Nat) (s : State) (hs : Frame s0 s) :
    FrameO s0 (execUnroutable port s) := by
  unfold execUnroutable
  repeat' first
    | with_reducible assumption | exact trivial | (intro _) | lift_lets -underBinder
    | with_reducible apply FrameO.next | with_reducible apply onMsg_frame | with_reducible apply refuseRemote_frame
    | split

theorem forward_frame (vc : Nat) (m : Msg) (s : State) (hs : Frame s0 s) :
    Frame s0 (forward vc m s) := by
  unfold forward
  repeat' first
    | with_reducible assumption | (intro _) | lift_lets -underBinder | with_reducible apply dropTransit_frame
    | with_reducible apply towOn_frame | with_reducible refine sendMsg_frame _ _ _ ?_ _ (by assumption) | split

theorem execMessageForward_frame (port channel : Nat) (s : State) (hs : Frame s0 s) :
    FrameO s0 (execMessageForward port channel s) := by
  unfold execMessageForward
  repeat' first
    | with_reducible assumption | exact trivial | (intro _) | lift_lets -underBinder
    | with_reducible apply FrameO.next | with_reducible apply onPort_frame | with_reducible apply forward_frame
    | with_reducible apply popMsg_frame | split

theorem broadcast_frame (but : Nat) (bs : List Byte) (s : State) (hs : Frame s0 s) :
    Frame s0 (broadcast but bs s) := by
  unfold broadcast
  repeat' first
    | with_reducible assumption | (intro _) | lift_lets -underBinder | with_reducible apply putOut_frame
    | with_reducible apply frame_foldl

theorem mapTake_frame (a : Advert) (s : State) (hs : Frame s0 s) :
    Frame s0 (mapTake a s) := by
  unfold mapTake
  repeat' first
    | with_reducible assumption | (intro x; clear_value x) | (intro _) | lift_lets -underBinder
    | with_reducible apply take_frame | split | with_reducible apply Frame.upd

theorem noteAdvert_frame (a : Advert) (s : State) (hs : Frame s0 s) :
    Frame s0 (noteAdvert a s) := by
  unfold noteAdvert
  repeat' first
    | with_reducible assumption | (intro x; clear_value x) | (intro _) | lift_lets -underBinder | split
    | with_reducible apply Frame.upd

theorem execNeighbourAdvertisementSend_frame (s : State) (hs : Frame s0 s) :
    FrameO s0 (execNeighbourAdvertisementSend s) := by
  unfold execNeighbourAdvertisementSend
  repeat' first
    | with_reducible assumption | exact trivial | (intro x; clear_value x) | (intro _) | lift_lets -underBinder
    | with_reducible apply FrameO.next | with_reducible apply sendTow_frame | with_reducible apply noteAdvert_frame
    | with_reducible apply mapTake_frame | split | with_reducible apply Frame.upd

theorem checkDup_frame (a : Advert) (s : State) (hs : Frame s0 s) :
    Frame s0 (checkDup a s) := by
  unfold checkDup
  repeat' first
    | with_reducible assumption | (intro x; clear_value x) | (intro _) | lift_lets -underBinder
    | with_reducible apply raise_frame | split | with_reducible apply Frame.upd

theorem execNeighbourAdvertisementReceive_frame (port : Nat) (advert : Advert) (s : State) (hs : Frame s0 s) :
    FrameO s0 (execNeighbourAdvertisementReceive port advert s) := by
  unfold execNeighbourAdvertisementReceive
  repeat' first
    | with_reducible assumption | exact trivial
    | (intro x; clear_value (hxv : x = _); with_reducible refine frame_let (s0 := s0) hxv ?_ fun hx => ?_)
    | (intro x; clear_value x) | (intro _) | lift_lets -underBinder | with_reducible apply FrameO.next
    | with_reducible apply onPort_frame | with_reducible apply checkDup_frame | with_reducible apply noteAdvert_frame
    | with_reducible apply broadcast_frame | with_reducible apply mapTake_frame | split

theorem execMapEntryExpire_frame (origin : W64) (s : State) (hs : Frame s0 s) :
    FrameO s0 (execMapEntryExpire origin s) := by
  unfold execMapEntryExpire
  repeat' first
    | with_reducible assumption | exact trivial | (intro x; clear_value x) | (intro _) | lift_lets -underBinder
    | with_reducible apply FrameO.next | split | with_reducible apply Frame.upd

theorem execNeighbourRead_frame (cmd : Nat) (s : State) (hs : Frame s0 s) :
    FrameO s0 (execNeighbourRead cmd s) := by
  unfold execNeighbourRead
  repeat' first
    | with_reducible assumption | exact trivial | (intro x; clear_value x) | (intro _) | lift_lets -underBinder
    | with_reducible apply FrameO.next | with_reducible apply onCmd_frame | with_reducible apply doneCmd_frame
    | with_reducible apply judged_frame | with_reducible apply Cmd.reaching_frame | with_reducible apply Cmd.put_frame
    | with_reducible apply take_frame | with_reducible apply PTab.put_frame | split

theorem execSetNodeId_frame (cmd : Nat) (s : State) (hs : Frame s0 s) :
    FrameO s0 (execSetNodeId cmd s) := by
  unfold execSetNodeId
  repeat' first
    | with_reducible assumption | exact trivial
    | (intro x; clear_value (hxv : x = _); with_reducible refine frame_let (s0 := s0) hxv ?_ fun hx => ?_)
    | (intro x; clear_value x) | (intro _) | lift_lets -underBinder | with_reducible apply FrameO.next
    | with_reducible apply onCmd_frame | with_reducible apply judged_frame | with_reducible apply doneCmd_frame
    | with_reducible apply sendHail_frame | with_reducible apply frame_foldl | with_reducible apply frame_foldl_snd
    | with_reducible apply frame_foldl_snd_snd | split | with_reducible apply Frame.upd

theorem putRoutes_frame (group : Bool) (x1 : Nat) (x2 : List (List ℕ)) (x3 : State) (hx3 : Frame s0 x3) :
    Frame s0 (putRoutes group x1 x2 x3) := by
  induction x2 generalizing x1 x3 with
  | nil =>
    unfold putRoutes
    try dsimp only
    repeat' with_reducible assumption
  | cons x xs ih =>
    unfold putRoutes
    try dsimp only
    repeat' first
      | with_reducible assumption | (intro _) | lift_lets -underBinder | with_reducible apply ih | split
      | with_reducible apply Frame.upd

theorem execRouteWrite_frame (cmd : Nat) (s : State) (hs : Frame s0 s) :
    FrameO s0 (execRouteWrite cmd s) := by
  unfold execRouteWrite
  repeat' first
    | with_reducible assumption | exact trivial | (intro _) | lift_lets -underBinder
    | with_reducible apply FrameO.next | with_reducible apply onCmd_frame | with_reducible apply judged_frame
    | with_reducible apply doneCmd_frame | with_reducible apply putRoutes_frame

theorem execFabricFence_frame (cmd : Nat) (s : State) (hs : Frame s0 s) :
    FrameO s0 (execFabricFence cmd s) := by
  unfold execFabricFence
  repeat' first
    | with_reducible assumption | exact trivial | (intro _) | lift_lets -underBinder
    | with_reducible apply FrameO.next | with_reducible apply onCmd_frame | with_reducible apply doneCmd_frame | split

end Sys2Proof.Machine
end

