-- ==== Sys2Proof/Laws/FrameRegs.lean ====
section
/-!
SUPPORT. The frame of every operation of register reads and writes, layout copies: see Laws/Frame.lean.
-/

namespace Sys2Proof.Machine

variable {s0 : State}

theorem hostRead_frame (fn off : Nat) (s : State) (hs : Frame s0 s) :
    Frame s0 (hostRead fn off s) := by
  unfold hostRead
  repeat' first
    | with_reducible assumption
    | (intro x; clear_value (hxv : x = _); with_reducible refine frame_let (s0 := s0) hxv ?_ fun hx => ?_)
    | (intro x; clear_value (hxv : x = _); with_reducible refine frame_let_snd (s0 := s0) hxv ?_ fun hx => ?_)
    | (intro x; clear_value x) | (intro _) | lift_lets -underBinder | with_reducible apply regRead_frame | split
    | with_reducible apply Frame.upd

theorem execTimeNowRead_frame (fn : Nat) (s : State) (hs : Frame s0 s) :
    FrameO s0 (execTimeNowRead fn s) := by
  unfold execTimeNowRead
  repeat' first
    | with_reducible assumption | exact trivial | (intro _) | lift_lets -underBinder
    | with_reducible apply FrameO.next | with_reducible apply onUnit_frame | with_reducible apply hostRead_frame

theorem execPpsLastRead_frame (fn : Nat) (s : State) (hs : Frame s0 s) :
    FrameO s0 (execPpsLastRead fn s) := by
  unfold execPpsLastRead
  repeat' first
    | with_reducible assumption | exact trivial | (intro _) | lift_lets -underBinder
    | with_reducible apply FrameO.next | with_reducible apply onUnit_frame | with_reducible apply hostRead_frame

theorem execEnergyRead_frame (fn : Nat) (s : State) (hs : Frame s0 s) :
    FrameO s0 (execEnergyRead fn s) := by
  unfold execEnergyRead
  repeat' first
    | with_reducible assumption | exact trivial | (intro _) | lift_lets -underBinder
    | with_reducible apply FrameO.next | with_reducible apply onUnit_frame | with_reducible apply hostRead_frame

theorem execThrottleRead_frame (fn reason : Nat) (s : State) (hs : Frame s0 s) :
    FrameO s0 (execThrottleRead fn reason s) := by
  unfold execThrottleRead
  repeat' first
    | with_reducible assumption | exact trivial | (intro _) | lift_lets -underBinder
    | with_reducible apply FrameO.next | with_reducible apply onUnit_frame | with_reducible apply hostRead_frame
    | split

theorem execTileBeatsRead_frame (fn tile : Nat) (s : State) (hs : Frame s0 s) :
    FrameO s0 (execTileBeatsRead fn tile s) := by
  unfold execTileBeatsRead
  repeat' first
    | with_reducible assumption | exact trivial | (intro _) | lift_lets -underBinder
    | with_reducible apply FrameO.next | with_reducible apply onUnit_frame | with_reducible apply hostRead_frame
    | split

theorem execBootLogRead_frame (fn phase : Nat) (s : State) (hs : Frame s0 s) :
    FrameO s0 (execBootLogRead fn phase s) := by
  unfold execBootLogRead
  repeat' first
    | with_reducible assumption | exact trivial | (intro _) | lift_lets -underBinder
    | with_reducible apply FrameO.next | with_reducible apply onUnit_frame | with_reducible apply hostRead_frame
    | split

theorem execStackCorrCountRead_frame (fn stack : Nat) (s : State) (hs : Frame s0 s) :
    FrameO s0 (execStackCorrCountRead fn stack s) := by
  unfold execStackCorrCountRead
  repeat' first
    | with_reducible assumption | exact trivial | (intro _) | lift_lets -underBinder
    | with_reducible apply FrameO.next | with_reducible apply onUnit_frame | with_reducible apply hostRead_frame
    | split

theorem execStackUncorrCountRead_frame (fn stack : Nat) (s : State) (hs : Frame s0 s) :
    FrameO s0 (execStackUncorrCountRead fn stack s) := by
  unfold execStackUncorrCountRead
  repeat' first
    | with_reducible assumption | exact trivial | (intro _) | lift_lets -underBinder
    | with_reducible apply FrameO.next | with_reducible apply onUnit_frame | with_reducible apply hostRead_frame
    | split

theorem execStackRunsRead_frame (fn stack : Nat) (s : State) (hs : Frame s0 s) :
    FrameO s0 (execStackRunsRead fn stack s) := by
  unfold execStackRunsRead
  repeat' first
    | with_reducible assumption | exact trivial | (intro _) | lift_lets -underBinder
    | with_reducible apply FrameO.next | with_reducible apply onUnit_frame | with_reducible apply hostRead_frame
    | split

theorem execStackLockWaitMaxRead_frame (fn stack : Nat) (s : State) (hs : Frame s0 s) :
    FrameO s0 (execStackLockWaitMaxRead fn stack s) := by
  unfold execStackLockWaitMaxRead
  repeat' first
    | with_reducible assumption | exact trivial | (intro _) | lift_lets -underBinder
    | with_reducible apply FrameO.next | with_reducible apply onUnit_frame | with_reducible apply hostRead_frame
    | split

theorem execFarPoisonCountRead_frame (fn : Nat) (s : State) (hs : Frame s0 s) :
    FrameO s0 (execFarPoisonCountRead fn s) := by
  unfold execFarPoisonCountRead
  repeat' first
    | with_reducible assumption | exact trivial | (intro _) | lift_lets -underBinder
    | with_reducible apply FrameO.next | with_reducible apply onUnit_frame | with_reducible apply hostRead_frame

theorem execFyantCrcRetryRead_frame (fn port : Nat) (s : State) (hs : Frame s0 s) :
    FrameO s0 (execFyantCrcRetryRead fn port s) := by
  unfold execFyantCrcRetryRead
  repeat' first
    | with_reducible assumption | exact trivial | (intro _) | lift_lets -underBinder
    | with_reducible apply FrameO.next | with_reducible apply onUnit_frame | with_reducible apply hostRead_frame
    | split

theorem execFyantFecCorrRead_frame (fn port : Nat) (s : State) (hs : Frame s0 s) :
    FrameO s0 (execFyantFecCorrRead fn port s) := by
  unfold execFyantFecCorrRead
  repeat' first
    | with_reducible assumption | exact trivial | (intro _) | lift_lets -underBinder
    | with_reducible apply FrameO.next | with_reducible apply onUnit_frame | with_reducible apply hostRead_frame
    | split

theorem execFyantRetrainsRead_frame (fn port : Nat) (s : State) (hs : Frame s0 s) :
    FrameO s0 (execFyantRetrainsRead fn port s) := by
  unfold execFyantRetrainsRead
  repeat' first
    | with_reducible assumption | exact trivial | (intro _) | lift_lets -underBinder
    | with_reducible apply FrameO.next | with_reducible apply onUnit_frame | with_reducible apply hostRead_frame
    | split

theorem execFyantTagFailRead_frame (fn port : Nat) (s : State) (hs : Frame s0 s) :
    FrameO s0 (execFyantTagFailRead fn port s) := by
  unfold execFyantTagFailRead
  repeat' first
    | with_reducible assumption | exact trivial | (intro _) | lift_lets -underBinder
    | with_reducible apply FrameO.next | with_reducible apply onUnit_frame | with_reducible apply hostRead_frame
    | split

theorem execServeFlagFallsRead_frame (fn : Nat) (s : State) (hs : Frame s0 s) :
    FrameO s0 (execServeFlagFallsRead fn s) := by
  unfold execServeFlagFallsRead
  repeat' first
    | with_reducible assumption | exact trivial | (intro _) | lift_lets -underBinder
    | with_reducible apply FrameO.next | with_reducible apply onUnit_frame | with_reducible apply hostRead_frame

theorem execServeDeferralsRead_frame (fn : Nat) (s : State) (hs : Frame s0 s) :
    FrameO s0 (execServeDeferralsRead fn s) := by
  unfold execServeDeferralsRead
  repeat' first
    | with_reducible assumption | exact trivial | (intro _) | lift_lets -underBinder
    | with_reducible apply FrameO.next | with_reducible apply onUnit_frame | with_reducible apply hostRead_frame

theorem execKvWalkSkipsRead_frame (fn part : Nat) (s : State) (hs : Frame s0 s) :
    FrameO s0 (execKvWalkSkipsRead fn part s) := by
  unfold execKvWalkSkipsRead
  repeat' first
    | with_reducible assumption | exact trivial | (intro _) | lift_lets -underBinder
    | with_reducible apply FrameO.next | with_reducible apply onUnit_frame | with_reducible apply hostRead_frame
    | split

theorem execKvCowRead_frame (fn part : Nat) (s : State) (hs : Frame s0 s) :
    FrameO s0 (execKvCowRead fn part s) := by
  unfold execKvCowRead
  repeat' first
    | with_reducible assumption | exact trivial | (intro _) | lift_lets -underBinder
    | with_reducible apply FrameO.next | with_reducible apply onUnit_frame | with_reducible apply hostRead_frame
    | split

theorem execFaultRetriesRead_frame (fn : Nat) (s : State) (hs : Frame s0 s) :
    FrameO s0 (execFaultRetriesRead fn s) := by
  unfold execFaultRetriesRead
  repeat' first
    | with_reducible assumption | exact trivial | (intro _) | lift_lets -underBinder
    | with_reducible apply FrameO.next | with_reducible apply onUnit_frame | with_reducible apply hostRead_frame

theorem execFaultRepairsRead_frame (fn : Nat) (s : State) (hs : Frame s0 s) :
    FrameO s0 (execFaultRepairsRead fn s) := by
  unfold execFaultRepairsRead
  repeat' first
    | with_reducible assumption | exact trivial | (intro _) | lift_lets -underBinder
    | with_reducible apply FrameO.next | with_reducible apply onUnit_frame | with_reducible apply hostRead_frame

theorem execFaultRepairFailsRead_frame (fn : Nat) (s : State) (hs : Frame s0 s) :
    FrameO s0 (execFaultRepairFailsRead fn s) := by
  unfold execFaultRepairFailsRead
  repeat' first
    | with_reducible assumption | exact trivial | (intro _) | lift_lets -underBinder
    | with_reducible apply FrameO.next | with_reducible apply onUnit_frame | with_reducible apply hostRead_frame

theorem execFaultPlausibilityRead_frame (fn : Nat) (s : State) (hs : Frame s0 s) :
    FrameO s0 (execFaultPlausibilityRead fn s) := by
  unfold execFaultPlausibilityRead
  repeat' first
    | with_reducible assumption | exact trivial | (intro _) | lift_lets -underBinder
    | with_reducible apply FrameO.next | with_reducible apply onUnit_frame | with_reducible apply hostRead_frame

theorem execSluiceFailRead_frame (fn part : Nat) (s : State) (hs : Frame s0 s) :
    FrameO s0 (execSluiceFailRead fn part s) := by
  unfold execSluiceFailRead
  repeat' first
    | with_reducible assumption | exact trivial | (intro _) | lift_lets -underBinder
    | with_reducible apply FrameO.next | with_reducible apply onUnit_frame | with_reducible apply hostRead_frame
    | split

theorem adminStart_frame (s : State) (hs : Frame s0 s) :
    Frame s0 (adminStart s) := by
  unfold adminStart
  repeat' first
    | with_reducible assumption | (intro x; clear_value x) | (intro _) | lift_lets -underBinder
    | with_reducible apply setQueue_frame | split | with_reducible apply Frame.upd

theorem adminCfgWrite_frame (value : W32) (s : State) (hs : Frame s0 s) :
    Frame s0 (adminCfgWrite value s) := by
  unfold adminCfgWrite
  repeat' first
    | with_reducible assumption
    | (intro x; clear_value (hxv : x = _); with_reducible refine frame_let_of (s0 := s0) hxv ?_ fun hgo => ?_)
    | (intro x; clear_value x) | (intro _) | lift_lets -underBinder | with_reducible apply hgo
    | with_reducible apply raise_frame | with_reducible apply adminStart_frame | with_reducible apply Cmd.put_frame
    | with_reducible apply PTab.put_frame | split | with_reducible apply Frame.upd

theorem execAdminQueueEnable_frame (value : W32) (s : State) (hs : Frame s0 s) :
    FrameO s0 (execAdminQueueEnable value s) := by
  unfold execAdminQueueEnable
  repeat' first
    | with_reducible assumption | exact trivial | (intro _) | lift_lets -underBinder
    | with_reducible apply FrameO.next | with_reducible apply adminCfgWrite_frame | split

theorem execAdminQueueDisable_frame (value : W32) (s : State) (hs : Frame s0 s) :
    FrameO s0 (execAdminQueueDisable value s) := by
  unfold execAdminQueueDisable
  repeat' first
    | with_reducible assumption | exact trivial | (intro _) | lift_lets -underBinder
    | with_reducible apply FrameO.next | with_reducible apply adminCfgWrite_frame | split

theorem adminDrained_frame (s : State) (hs : Frame s0 s) :
    Frame s0 (adminDrained s) := by
  unfold adminDrained
  repeat' first
    | with_reducible assumption
    | (intro x; clear_value (hxv : x = _); with_reducible refine frame_let (s0 := s0) hxv ?_ fun hx => ?_)
    | (intro x; clear_value x) | (intro _) | lift_lets -underBinder | with_reducible apply setQueue_frame
    | with_reducible apply adminStart_frame | with_reducible apply raise_frame | split
    | with_reducible apply Frame.upd

theorem execAdminQueueDrained_frame (s : State) (hs : Frame s0 s) :
    FrameO s0 (execAdminQueueDrained s) := by
  unfold execAdminQueueDrained
  repeat' first
    | with_reducible assumption | exact trivial | (intro _) | lift_lets -underBinder
    | with_reducible apply FrameO.next | with_reducible apply adminDrained_frame

theorem writeEnable_frame (fn g k : Nat) (v : W32) (s : State) (hs : Frame s0 s) :
    Frame s0 (writeEnable fn g k v s) := by
  unfold writeEnable
  repeat' first
    | with_reducible assumption | (intro x; clear_value x) | (intro _) | lift_lets -underBinder
    | with_reducible apply irqSettle_frame | with_reducible apply Cmd.put_frame | with_reducible apply PTab.put_frame
    | split | with_reducible apply Frame.upd

theorem irqWrite_frame (fn off : Nat) (v : W32) (s : State) (hs : Frame s0 s) :
    Frame s0 (irqWrite fn off v s) := by
  unfold irqWrite
  repeat' first
    | with_reducible assumption | (intro x; clear_value x) | (intro _) | lift_lets -underBinder
    | with_reducible apply irqSettle_frame | with_reducible apply setIrqFn_frame | with_reducible apply eoi_frame
    | with_reducible apply clearLeaf_frame | with_reducible apply writeEnable_frame | split

theorem bar2Base_frame (fn off : Nat) (v : W32) (s : State) (hs : Frame s0 s) :
    Frame s0 (bar2Base fn off v s) := by
  unfold bar2Base
  repeat' first
    | with_reducible assumption | (intro x; clear_value x) | (intro _) | lift_lets -underBinder
    | with_reducible apply raise_frame | split | with_reducible apply Frame.upd

theorem queueWrite_frame (off : Nat) (v : W32) (s : State) (hs : Frame s0 s) :
    Frame s0 (queueWrite off v s) := by
  unfold queueWrite
  repeat' first
    | with_reducible assumption
    | (intro x; clear_value (hxv : x = _); with_reducible refine frame_let_of (s0 := s0) hxv ?_ fun hgo => ?_)
    | (intro x; clear_value x) | (intro _) | lift_lets -underBinder | with_reducible apply hgo
    | with_reducible apply adminCfgWrite_frame | with_reducible apply Cmd.put_frame
    | with_reducible apply PTab.put_frame | split | with_reducible apply Frame.upd

theorem tagWrite_frame (fn n : Nat) (v : W32) (s : State) (hs : Frame s0 s) :
    Frame s0 (tagWrite fn n v s) := by
  unfold tagWrite
  repeat' first
    | with_reducible assumption | (intro x; clear_value x) | (intro _) | lift_lets -underBinder | split
    | with_reducible apply Frame.upd

theorem serveWrite_frame (off : Nat) (v : W32) (s : State) (hs : Frame s0 s) :
    Frame s0 (serveWrite off v s) := by
  unfold serveWrite
  repeat' first
    | with_reducible assumption | (intro x; clear_value x) | (intro _) | lift_lets -underBinder
    | with_reducible apply serveCostWrite_frame | with_reducible apply setPool_frame
    | with_reducible apply kvPoolHiWrite_frame | with_reducible apply kvPoolRelease_frame | split
    | with_reducible apply Frame.upd

theorem pfWrite_frame (off : Nat) (v : W32) (s : State) (hs : Frame s0 s) :
    Frame s0 (pfWrite off v s) := by
  unfold pfWrite
  repeat' first
    | with_reducible assumption | (intro x; clear_value x) | (intro _) | lift_lets -underBinder
    | with_reducible apply queueWrite_frame | with_reducible apply startWake_frame
    | with_reducible apply powerCfgWrite_frame | with_reducible apply serveWrite_frame
    | with_reducible apply farPartWrite_frame | split | with_reducible apply Frame.upd

theorem regWrite_frame (fn off : Nat) (v : W32) (s : State) (hs : Frame s0 s) :
    Frame s0 (regWrite fn off v s) := by
  unfold regWrite
  repeat' first
    | with_reducible assumption | (intro x; clear_value x) | (intro _) | lift_lets -underBinder
    | with_reducible apply irqWrite_frame | with_reducible apply bar2Base_frame | with_reducible apply tagWrite_frame
    | with_reducible apply pfWrite_frame | split | with_reducible apply Frame.upd

theorem execRegisterWrite_frame (fn offset : Nat) (value : W32) (s : State) (hs : Frame s0 s) :
    FrameO s0 (execRegisterWrite fn offset value s) := by
  unfold execRegisterWrite
  repeat' first
    | with_reducible assumption | exact trivial | (intro _) | lift_lets -underBinder
    | with_reducible apply FrameO.next | with_reducible apply onUnit_frame | with_reducible apply regWrite_frame
    | split

theorem execBar2BaseWrite_frame (fn offset : Nat) (value : W32) (s : State) (hs : Frame s0 s) :
    FrameO s0 (execBar2BaseWrite fn offset value s) := by
  unfold execBar2BaseWrite
  repeat' first
    | with_reducible assumption | exact trivial | (intro _) | lift_lets -underBinder
    | with_reducible apply FrameO.next | with_reducible apply onUnit_frame | with_reducible apply bar2Base_frame
    | split

theorem execIrqHoldoffExpire_frame (fn : Nat) (s : State) (hs : Frame s0 s) :
    FrameO s0 (execIrqHoldoffExpire fn s) := by
  unfold execIrqHoldoffExpire
  repeat' first
    | with_reducible assumption | exact trivial | (intro _) | lift_lets -underBinder
    | with_reducible apply FrameO.next | with_reducible apply onUnit_frame | with_reducible apply holdoffExpire_frame

theorem execIrqUnmask_frame (fn : Nat) (s : State) (hs : Frame s0 s) :
    FrameO s0 (execIrqUnmask fn s) := by
  unfold execIrqUnmask
  repeat' first
    | with_reducible assumption | exact trivial | (intro _) | lift_lets -underBinder
    | with_reducible apply FrameO.next | with_reducible apply onUnit_frame | with_reducible apply unmaskFn_frame

theorem execIrqLeafClear_frame (fn group leaf : Nat) (value : W32) (s : State) (hs : Frame s0 s) :
    FrameO s0 (execIrqLeafClear fn group leaf value s) := by
  unfold execIrqLeafClear
  repeat' first
    | with_reducible assumption | exact trivial | (intro _) | lift_lets -underBinder
    | with_reducible apply FrameO.next | with_reducible apply onUnit_frame | with_reducible apply clearLeaf_frame
    | split

theorem execIrqEoi_frame (fn : Nat) (s : State) (hs : Frame s0 s) :
    FrameO s0 (execIrqEoi fn s) := by
  unfold execIrqEoi
  repeat' first
    | with_reducible assumption | exact trivial | (intro _) | lift_lets -underBinder
    | with_reducible apply FrameO.next | with_reducible apply onUnit_frame | with_reducible apply eoi_frame | split

theorem bar2Read_frame (fn offset length : Nat) (s : State) (hs : Frame s0 s) :
    Frame s0 (bar2Read fn offset length s) := by
  unfold bar2Read
  repeat' first
    | with_reducible assumption | (intro _) | lift_lets -underBinder | with_reducible apply issue_frame
    | with_reducible apply readOnes_frame | split

theorem execBar2Read_frame (fn offset length : Nat) (s : State) (hs : Frame s0 s) :
    FrameO s0 (execBar2Read fn offset length s) := by
  unfold execBar2Read
  repeat' first
    | with_reducible assumption | exact trivial | (intro _) | lift_lets -underBinder
    | with_reducible apply FrameO.next | with_reducible apply onUnit_frame | with_reducible apply bar2Read_frame

theorem bar2Write_frame (fn offset : Nat) (data : List Byte) (s : State) (hs : Frame s0 s) :
    Frame s0 (bar2Write fn offset data s) := by
  unfold bar2Write
  repeat' first
    | with_reducible assumption | (intro _) | lift_lets -underBinder | with_reducible apply issue_frame
    | with_reducible apply PTab.write_frame | split

theorem execBar2Write_frame (fn offset : Nat) (data : List Byte) (s : State) (hs : Frame s0 s) :
    FrameO s0 (execBar2Write fn offset data s) := by
  unfold execBar2Write
  repeat' first
    | with_reducible assumption | exact trivial | (intro _) | lift_lets -underBinder
    | with_reducible apply FrameO.next | with_reducible apply onUnit_frame | with_reducible apply bar2Write_frame

theorem Cmd.writeAt_frame (c : Cmd) (a : W64) (bs : List PByte) (s : State) (hs : Frame s0 s) :
    Frame s0 (Cmd.writeAt c a bs s) := by
  unfold Cmd.writeAt
  repeat' first
    | with_reducible assumption
    | (intro x; clear_value (hxv : x = _); with_reducible refine frame_let (s0 := s0) hxv ?_ fun hx => ?_)
    | (intro x; clear_value x) | (intro _) | lift_lets -underBinder | with_reducible apply regWrite_frame
    | with_reducible apply Cmd.put_frame | with_reducible apply PTab.put_frame | split

theorem Cmd.readAt_frame (c : Cmd) (a : W64) (n : Nat) (s : State) (hs : Frame s0 s) :
    Frame s0 (Cmd.readAt c a n s).2 := by
  unfold Cmd.readAt
  repeat' first
    | with_reducible assumption
    | (intro x; clear_value (hxv : x = _); with_reducible refine frame_let_snd (s0 := s0) hxv ?_ fun hx => ?_)
    | (intro _) | lift_lets -underBinder | with_reducible apply regRead_frame | with_reducible apply carriedOver_frame
    | with_reducible apply Cmd.fetch_frame
    | with_reducible refine Machine.fetch_frame _ _ _ _ _ _ _ ?_ _ (by assumption) | split

theorem chargeVisit_frame (place : W64 → ℕ → Except AddrErr Place) (cmd : Option ℕ) (tainted : List ℕ) (line : ℤ)
    (words : List ℤ) (s : State) (hs : Frame s0 s) :
    Frame s0 (chargeVisit place cmd tainted line words s) := by
  unfold chargeVisit
  repeat' first
    | with_reducible assumption
    | (intro x; clear_value (hxv : x = _); with_reducible refine frame_let_snd (s0 := s0) hxv ?_ fun hx => ?_)
    | (intro x; clear_value x) | (intro _) | lift_lets -underBinder | with_reducible apply getPieces_frame
    | with_reducible apply charge_frame | with_reducible apply countTaint_frame | with_reducible apply take_frame
    | split

theorem chargeReads_frame (place : W64 → ℕ → Except AddrErr Place) (cmd : Option ℕ) (tainted : List ℕ) (reads : List (ℤ × ℕ))
    (s : State) (hs : Frame s0 s) :
    Frame s0 (chargeReads place cmd tainted reads s) := by
  unfold chargeReads
  repeat' first
    | with_reducible assumption | (intro x; clear_value x) | (intro _) | lift_lets -underBinder
    | with_reducible apply chargeVisit_frame | with_reducible apply Cmd.reads_frame | with_reducible apply frame_foldl
    | with_reducible apply frame_foldl_snd

theorem Cmd.withRegisters_frame (c : Cmd) (rs : List (W64 × ℕ)) (z : Memory × State) (hz : Frame s0 z.2) :
    Frame s0 (Cmd.withRegisters c rs z).2 := by
  unfold Cmd.withRegisters
  repeat' first
    | with_reducible assumption
    | (intro x; clear_value (hxv : x = _); with_reducible refine frame_let_snd (s0 := s0) hxv ?_ fun hx => ?_)
    | (intro _) | lift_lets -underBinder | with_reducible apply Cmd.readAt_frame | with_reducible apply frame_foldl
    | with_reducible apply frame_foldl_snd | with_reducible apply frame_foldl_snd_snd | split

theorem copyMove_frame (c : Cmd) (l : Layout) (s : State) (hs : Frame s0 s) :
    Frame s0 (copyMove c l s) := by
  unfold copyMove
  repeat' first
    | with_reducible assumption
    | (intro x; clear_value (hxv : x = _); with_reducible refine frame_let (s0 := s0) hxv ?_ fun hx => ?_)
    | (intro x; clear_value (hxv : x = _); with_reducible refine frame_let_snd (s0 := s0) hxv ?_ fun hx => ?_)
    | (intro x; clear_value x) | (intro _) | lift_lets -underBinder | with_reducible apply Cmd.withRegisters_frame
    | with_reducible apply chargeReads_frame | with_reducible apply finishCmd_frame
    | with_reducible apply Cmd.writeAt_frame | with_reducible apply Cmd.reads_frame | with_reducible apply frame_foldl

theorem execCopyTensor_frame (cmd : Nat) (s : State) (hs : Frame s0 s) :
    FrameO s0 (execCopyTensor cmd s) := by
  unfold execCopyTensor
  repeat' first
    | with_reducible assumption | exact trivial | (intro x; clear_value x) | (intro _) | lift_lets -underBinder
    | with_reducible apply FrameO.next | with_reducible apply onCmd_frame | with_reducible apply judged_frame
    | with_reducible apply Cmd.admit_frame | with_reducible apply Cmd.bring_frame
    | with_reducible apply Cmd.gate_frame | with_reducible apply copyMove_frame

theorem execMemCopy_frame (cmd : Nat) (s : State) (hs : Frame s0 s) :
    FrameO s0 (execMemCopy cmd s) := by
  unfold execMemCopy
  repeat' first
    | with_reducible assumption | exact trivial
    | (intro x; clear_value (hxv : x = _); with_reducible refine frame_let_snd (s0 := s0) hxv ?_ fun hx => ?_)
    | (intro x; clear_value x) | (intro _) | lift_lets -underBinder | with_reducible apply FrameO.next
    | with_reducible apply onCmd_frame | with_reducible apply doneCmd_frame | with_reducible apply judged_frame
    | with_reducible apply Cmd.remoteGate_frame | with_reducible apply Cmd.gate_frame
    | with_reducible apply Cmd.readAt_frame | with_reducible apply Cmd.writeAt_frame | split

theorem execMemFill_frame (cmd : Nat) (s : State) (hs : Frame s0 s) :
    FrameO s0 (execMemFill cmd s) := by
  unfold execMemFill
  repeat' first
    | with_reducible assumption | exact trivial | (intro x; clear_value x) | (intro _) | lift_lets -underBinder
    | with_reducible apply FrameO.next | with_reducible apply onCmd_frame | with_reducible apply doneCmd_frame
    | with_reducible apply judged_frame | with_reducible apply Cmd.remoteGate_frame
    | with_reducible apply Cmd.gate_frame | with_reducible apply Cmd.writeAt_frame | split

end Sys2Proof.Machine
end

