-- ==== Sys2Proof/Laws/FrameTile.lean ====
section
/-!
SUPPORT. The frame of every operation of programs, bundles, walks and engines: see Laws/Frame.lean.
-/

namespace Sys2Proof.Machine

variable {s0 : State}

theorem installCode_frame (code : List Byte) (s : State) (t : Nat) (hs : Frame s0 s) :
    Frame s0 (installCode code s t) := by
  unfold installCode
  repeat' first
    | with_reducible assumption | (intro x; clear_value x) | (intro _) | lift_lets -underBinder
    | with_reducible apply setTile_frame

theorem execLoadProgram_frame (cmd : Nat) (s : State) (hs : Frame s0 s) :
    FrameO s0 (execLoadProgram cmd s) := by
  unfold execLoadProgram
  repeat' first
    | with_reducible assumption | exact trivial
    | (intro x; clear_value (hxv : x = _); with_reducible refine frame_let (s0 := s0) hxv ?_ fun hx => ?_)
    | (intro x; clear_value x) | (intro _) | lift_lets -underBinder | with_reducible apply FrameO.next
    | with_reducible apply onCmd_frame | with_reducible apply judged_frame | with_reducible apply doneCmd_frame
    | with_reducible apply installCode_frame | with_reducible apply take_frame | with_reducible apply frame_foldl
    | with_reducible apply frame_foldl_snd | with_reducible apply frame_foldl_snd_snd | split
    | with_reducible apply Frame.upd

theorem takeSlots_frame (c : Cmd) (s : State) (hs : Frame s0 s) :
    Frame s0 (takeSlots c s) := by
  unfold takeSlots
  repeat' first
    | with_reducible assumption | (intro x; clear_value x) | (intro _) | lift_lets -underBinder
    | with_reducible apply updCmd_frame

theorem startTile_frame (cmd : Nat) (p : Program) (args : List Byte) (s : State) (x : Start) (hs : Frame s0 s) :
    Frame s0 (startTile cmd p args s x) := by
  unfold startTile
  repeat' first
    | with_reducible assumption | (intro x; clear_value x) | (intro _) | lift_lets -underBinder
    | with_reducible apply setTile_frame

theorem execLaunch_frame (cmd : Nat) (s : State) (hs : Frame s0 s) :
    FrameO s0 (execLaunch cmd s) := by
  unfold execLaunch
  repeat' first
    | with_reducible assumption | exact trivial
    | (intro x; clear_value (hxv : x = _); with_reducible refine frame_let (s0 := s0) hxv ?_ fun hx => ?_)
    | (intro x; clear_value (hxv : x = _); with_reducible refine frame_let_snd (s0 := s0) hxv ?_ fun hx => ?_)
    | (intro x; clear_value (hxv : x = _); with_reducible refine frame_let_fun_right (s0 := s0) hxv ?_ fun hgo => ?_)
    | (intro x; clear_value x) | (intro _) | lift_lets -underBinder | with_reducible apply hgo
    | with_reducible apply FrameO.next | with_reducible apply onCmd_frame | with_reducible apply judged_frame
    | with_reducible apply waitCmd_frame | with_reducible apply resumeCmd_frame | with_reducible apply startTile_frame
    | with_reducible apply updCmd_frame | with_reducible apply Cmd.remoteGate_frame
    | with_reducible apply Cmd.gate_frame | with_reducible apply Cmd.readAt_frame | with_reducible apply frame_foldl
    | with_reducible apply frame_foldl_snd | with_reducible apply frame_foldl_snd_snd | split

theorem unload_frame (p : Program) (s : State) (hs : Frame s0 s) :
    Frame s0 (unload p s) := by
  unfold unload
  repeat' first
    | with_reducible assumption
    | (intro x; clear_value (hxv : x = _); with_reducible refine frame_let (s0 := s0) hxv ?_ fun hx => ?_)
    | (intro x; clear_value x) | (intro _) | lift_lets -underBinder | with_reducible apply setTile_frame
    | with_reducible apply frame_foldl | with_reducible apply frame_foldl_snd
    | with_reducible apply frame_foldl_snd_snd | split | with_reducible apply Frame.upd

theorem execUnloadProgram_frame (cmd : Nat) (s : State) (hs : Frame s0 s) :
    FrameO s0 (execUnloadProgram cmd s) := by
  unfold execUnloadProgram
  repeat' first
    | with_reducible assumption | exact trivial | (intro _) | lift_lets -underBinder
    | with_reducible apply FrameO.next | with_reducible apply onCmd_frame | with_reducible apply judged_frame
    | with_reducible apply waitCmd_frame | with_reducible apply doneCmd_frame | with_reducible apply unload_frame
    | with_reducible apply resumeCmd_frame | split

theorem execSetFormatSlot_frame (cmd : Nat) (s : State) (hs : Frame s0 s) :
    FrameO s0 (execSetFormatSlot cmd s) := by
  unfold execSetFormatSlot
  repeat' first
    | with_reducible assumption | exact trivial | (intro x; clear_value x) | (intro _) | lift_lets -underBinder
    | with_reducible apply FrameO.next | with_reducible apply onCmd_frame | with_reducible apply judged_frame
    | with_reducible apply doneCmd_frame | split | with_reducible apply Frame.upd

theorem stopTile_frame (s : State) (t : Nat) (hs : Frame s0 s) :
    Frame s0 (stopTile s t) := by
  unfold stopTile
  repeat' first
    | with_reducible assumption | (intro x; clear_value x) | (intro _) | lift_lets -underBinder
    | with_reducible apply setTile_frame

theorem launchEnd_frame (cmd : Nat) (s : State) (hs : Frame s0 s) :
    Frame s0 (launchEnd cmd s) := by
  unfold launchEnd
  repeat' first
    | with_reducible assumption | (intro _) | lift_lets -underBinder | with_reducible apply doneCmd_frame
    | with_reducible apply frame_foldl | with_reducible apply frame_foldl_snd
    | with_reducible apply frame_foldl_snd_snd | split

theorem twinMismatch_frame (t : Nat) (s : State) (hs : Frame s0 s) :
    Frame s0 (twinMismatch t s) := by
  unfold twinMismatch
  repeat' first
    | with_reducible assumption
    | (intro x; clear_value (hxv : x = _); with_reducible refine frame_let (s0 := s0) hxv ?_ fun hx => ?_)
    | (intro x; clear_value x) | (intro _) | lift_lets -underBinder | with_reducible apply stopTile_frame
    | with_reducible apply report_frame | with_reducible apply launchEnd_frame | with_reducible apply updCmd_frame
    | split

theorem endTile_frame (t : Nat) (s : State) (hs : Frame s0 s) :
    Frame s0 (endTile t s) := by
  unfold endTile
  repeat' first
    | with_reducible assumption
    | (intro x; clear_value (hxv : x = _); with_reducible refine frame_let (s0 := s0) hxv ?_ fun hx => ?_)
    | (intro x; clear_value x) | (intro _) | lift_lets -underBinder | with_reducible apply setTile_frame
    | with_reducible apply launchEnd_frame | split

theorem tileFinish_frame (t : Nat) (s : State) (hs : Frame s0 s) :
    Frame s0 (tileFinish t s) := by
  unfold tileFinish
  repeat' first
    | with_reducible assumption | (intro _) | lift_lets -underBinder | with_reducible apply twinMismatch_frame
    | with_reducible apply endTile_frame | split

theorem execTileFinish_frame (tile : Nat) (s : State) (hs : Frame s0 s) :
    FrameO s0 (execTileFinish tile s) := by
  unfold execTileFinish
  repeat' first
    | with_reducible assumption | exact trivial | (intro _) | lift_lets -underBinder
    | with_reducible apply FrameO.next | with_reducible apply onUnit_frame | with_reducible apply whenRunning_frame
    | with_reducible apply tileFinish_frame

theorem issueBundle_frame (t : Nat) (s : State) (hs : Frame s0 s) :
    Frame s0 (issueBundle t s) := by
  unfold issueBundle
  repeat' first
    | with_reducible assumption
    | (intro x; clear_value (hxv : x = _); with_reducible refine frame_let_fun_right (s0 := s0) hxv ?_ fun hgo => ?_)
    | (intro x; clear_value x) | (intro _) | lift_lets -underBinder | with_reducible apply hgo
    | with_reducible apply noteJobFault_frame | with_reducible apply charge_frame | with_reducible apply setTile_frame
    | with_reducible apply issue_frame | split

theorem programTimeout_frame (cmd : Option ℕ) (s : State) (hs : Frame s0 s) :
    Frame s0 (programTimeout cmd s) := by
  unfold programTimeout
  repeat' first
    | with_reducible assumption | (intro x; clear_value x) | (intro _) | lift_lets -underBinder
    | with_reducible apply noteJobFault_frame

theorem execCcResultLand_frame (tile : Nat) (s : State) (hs : Frame s0 s) :
    FrameO s0 (execCcResultLand tile s) := by
  unfold execCcResultLand
  repeat' first
    | with_reducible assumption | exact trivial | (intro _) | lift_lets -underBinder
    | with_reducible apply FrameO.next | with_reducible apply onUnit_frame | with_reducible apply whenRunning_frame
    | with_reducible apply setTile_frame | split

theorem fillLine_frame (t l : Nat) (p : Pending) (s : State) (hs : Frame s0 s) :
    Frame s0 (fillLine t l p s) := by
  unfold fillLine
  repeat' first
    | with_reducible assumption
    | (intro x; clear_value (hxv : x = _); with_reducible refine frame_let (s0 := s0) hxv ?_ fun hx => ?_)
    | (intro x; clear_value (hxv : x = _); with_reducible refine frame_let_snd (s0 := s0) hxv ?_ fun hx => ?_)
    | (intro x; clear_value x) | (intro _) | lift_lets -underBinder | with_reducible apply programTimeout_frame
    | with_reducible apply noteWaits_frame | with_reducible apply getPieces_frame | with_reducible apply setTile_frame
    | with_reducible apply charge_frame | with_reducible apply noteJobFault_frame | split
    | with_reducible apply Frame.upd

theorem cacheFill_frame (t : Nat) (s : State) (hs : Frame s0 s) :
    Frame s0 (cacheFill t s) := by
  unfold cacheFill
  repeat' first
    | with_reducible assumption
    | (intro x; clear_value (hxv : x = _); with_reducible refine frame_let (s0 := s0) hxv ?_ fun hx => ?_)
    | (intro x; clear_value x) | (intro _) | lift_lets -underBinder | with_reducible apply fillLine_frame
    | with_reducible apply setTile_frame | split

theorem execReadCacheFill_frame (tile : Nat) (s : State) (hs : Frame s0 s) :
    FrameO s0 (execReadCacheFill tile s) := by
  unfold execReadCacheFill
  repeat' first
    | with_reducible assumption | exact trivial | (intro _) | lift_lets -underBinder
    | with_reducible apply FrameO.next | with_reducible apply onUnit_frame | with_reducible apply whenRunning_frame
    | with_reducible apply cacheFill_frame | split

theorem endWalk_frame (t : Nat) (x : Tile) (w : Walk) (s : State) (hs : Frame s0 s) :
    Frame s0 (endWalk t x w s) := by
  unfold endWalk
  repeat' first
    | with_reducible assumption
    | (intro x; clear_value (hxv : x = _); with_reducible refine frame_let (s0 := s0) hxv ?_ fun hx => ?_)
    | (intro x; clear_value x) | (intro _) | lift_lets -underBinder | with_reducible apply setTile_frame
    | with_reducible apply putTile_frame | with_reducible apply setPool_frame | with_reducible apply frame_foldl
    | with_reducible apply frame_foldl_snd | with_reducible apply frame_foldl_snd_snd | split
    | with_reducible apply Frame.upd

theorem flushGroup_frame (t : Nat) (x : Tile) (w : Walk) (d : PoolDesc) (final : Bool) (s : State) (hs : Frame s0 s) :
    Frame s0 (flushGroup t x w d final s) := by
  unfold flushGroup
  repeat' first | with_reducible assumption | (intro _) | lift_lets -underBinder | with_reducible apply setTile_frame

theorem placeEntry_frame (t : Nat) (x : Tile) (w : Walk) (d : PoolDesc) (decay e : Nat) (s : State)
    (hs : Frame s0 s) :
    Frame s0 (placeEntry t x w d decay e s) := by
  unfold placeEntry
  repeat' first
    | with_reducible assumption | (intro _) | lift_lets -underBinder | with_reducible apply flushGroup_frame
    | with_reducible apply setTile_frame | split

theorem coreReads_frame (t : Nat) (ps : List (Home × ℕ)) (s : State) (go : State → State) (hs : Frame s0 s)
    (hgo : ∀ y0, Frame s0 y0 → Frame s0 (go y0)) :
    Frame s0 (coreReads t ps s go) := by
  unfold coreReads
  repeat' first
    | with_reducible assumption | (intro _) | lift_lets -underBinder | with_reducible apply hgo
    | with_reducible apply hgo | with_reducible apply readCharged_frame | with_reducible apply noteWaits_frame
    | with_reducible apply programTimeout_frame | split

theorem walkStep_frame (t : Nat) (s : State) (hs : Frame s0 s) :
    Frame s0 (walkStep t s) := by
  unfold walkStep
  repeat' first
    | with_reducible assumption | (intro x; clear_value x) | (intro _) | lift_lets -underBinder
    | with_reducible apply endWalk_frame | with_reducible apply placeEntry_frame
    | with_reducible apply flushGroup_frame | with_reducible apply coreReads_frame
    | with_reducible apply setTile_frame | split

theorem execBundleIssue_frame (tile : Nat) (s : State) (hs : Frame s0 s) :
    FrameO s0 (execBundleIssue tile s) := by
  unfold execBundleIssue
  repeat' first
    | with_reducible assumption | exact trivial | (intro x; clear_value x) | (intro _) | lift_lets -underBinder
    | with_reducible apply FrameO.next | with_reducible apply onUnit_frame | with_reducible apply whenRunning_frame
    | with_reducible apply walkStep_frame | with_reducible apply issueBundle_frame | split

theorem localWrite_frame (t a : Nat) (bs : List PByte) (s : State) (hs : Frame s0 s) :
    Frame s0 (localWrite t a bs s) := by
  unfold localWrite
  repeat' first
    | with_reducible assumption | (intro x; clear_value x) | (intro _) | lift_lets -underBinder
    | with_reducible apply setTile_frame | with_reducible apply putTile_frame | split

theorem chargeSpans_frame (t a : Nat) (spans : List (ℕ × ℕ)) (cmd : Option ℕ) (s : State) (hs : Frame s0 s) :
    Frame s0 (chargeSpans t a spans cmd s) := by
  unfold chargeSpans
  repeat' first
    | with_reducible assumption | (intro _) | lift_lets -underBinder | with_reducible apply charge_frame
    | with_reducible apply frame_foldl

theorem tagRecord_frame (number : Nat) (tag : Option W64) (s : State) (hs : Frame s0 s) :
    Frame s0 (tagRecord number tag s) := by
  unfold tagRecord
  repeat' first
    | with_reducible assumption | (intro x; clear_value x) | (intro _) | lift_lets -underBinder | split
    | with_reducible apply Frame.upd

theorem implausible_frame (gs : List Guard) (loc : ℕ × ℕ × ℕ) (cmd : Option ℕ) (f : Option (ℕ × ℕ)) (s : State)
    (hs : Frame s0 s) :
    Frame s0 (implausible gs loc cmd f s) := by
  unfold implausible
  repeat' first
    | with_reducible assumption
    | (intro x; clear_value (hxv : x = _); with_reducible refine frame_let (s0 := s0) hxv ?_ fun hx => ?_) | (intro _)
    | lift_lets -underBinder | with_reducible apply tagRecord_frame | with_reducible apply report_frame
    | with_reducible apply updCmd_frame | split

theorem checkWritten_frame (t e : Nat) (f : Fmt) (a b n : Nat) (softmax : Bool) (norm : Bool) (s : State)
    (hs : Frame s0 s) :
    Frame s0 (checkWritten t e f a b n softmax norm s) := by
  unfold checkWritten
  repeat' first
    | with_reducible assumption | (intro x; clear_value x) | (intro _) | lift_lets -underBinder
    | with_reducible apply implausible_frame

theorem updHead_frame (t e : Nat) (f : Entry → Entry) (g : Engine → Engine) (s : State) (hs : Frame s0 s) :
    Frame s0 (updHead t e f g s) := by
  unfold updHead
  repeat' first
    | with_reducible assumption | (intro x; clear_value x) | (intro _) | lift_lets -underBinder
    | with_reducible apply setTile_frame

theorem engFault_frame (t e : Nat) (s : State) (hs : Frame s0 s) :
    Frame s0 (engFault t e s) := by
  unfold engFault
  repeat' first
    | with_reducible assumption | (intro _) | lift_lets -underBinder | with_reducible apply noteJobFault_frame

theorem repDone_frame (t e beats : Nat) (s : State) (hs : Frame s0 s) :
    Frame s0 (repDone t e beats s) := by
  unfold repDone
  repeat' first | with_reducible assumption | (intro _) | lift_lets -underBinder | with_reducible apply updHead_frame

theorem onHead_frame (tile e op : Nat) (s : State) (f : Ins → Entry → State → State) (hs : Frame s0 s)
    (hf : ∀ y0 y1 y2, Frame s0 y2 → Frame s0 (f y0 y1 y2)) :
    FrameO s0 (onHead tile e op s f) := by
  unfold onHead
  repeat' first
    | with_reducible assumption | exact trivial | (intro x; clear_value x) | (intro _) | lift_lets -underBinder
    | with_reducible apply hf | with_reducible apply FrameO.next | with_reducible apply onUnit_frame
    | with_reducible apply whenRunning_frame | split

theorem onLocal_frame (t e : Nat) (i : Ins) (s : State) (f : State → State) (hs : Frame s0 s)
    (hf : ∀ y0, Frame s0 y0 → Frame s0 (f y0)) :
    Frame s0 (onLocal t e i s f) := by
  unfold onLocal
  repeat' first
    | with_reducible assumption | (intro _) | lift_lets -underBinder | with_reducible apply hf
    | with_reducible apply engFault_frame | split

theorem source_frame (t e r code b n : Nat) (s : State) (hs : Frame s0 s) :
    Frame s0 (source t e r code b n s).2 := by
  unfold source
  repeat' first
    | with_reducible assumption | (intro x; clear_value x) | (intro _) | lift_lets -underBinder
    | with_reducible apply chargeSpans_frame | split

theorem destination_frame (t e : Nat) (i : Ins) (xs : List PVal) (s : State) (hs : Frame s0 s) :
    Frame s0 (destination t e i xs s) := by
  unfold destination
  repeat' first
    | with_reducible assumption
    | (intro x; clear_value (hxv : x = _); with_reducible refine frame_let (s0 := s0) hxv ?_ fun hx => ?_)
    | (intro x; clear_value x) | (intro _) | lift_lets -underBinder | with_reducible apply localWrite_frame
    | with_reducible apply updHead_frame | with_reducible apply checkWritten_frame | with_reducible apply frame_foldl
    | with_reducible apply frame_foldl_snd | with_reducible apply frame_foldl_snd_snd | split

theorem setupDone_frame (t e : Nat) (g : Engine → Engine) (s : State) (hs : Frame s0 s) :
    Frame s0 (setupDone t e g s) := by
  unfold setupDone
  repeat' first | with_reducible assumption | (intro _) | lift_lets -underBinder | with_reducible apply updHead_frame

theorem onSetup_frame (tile e : Nat) (ops : List ℕ) (s : State) (f : BitVec 128 → Engine → Engine) (hs : Frame s0 s) :
    FrameO s0 (onSetup tile e ops s f) := by
  unfold onSetup
  repeat' first
    | with_reducible assumption | exact trivial | (intro _) | lift_lets -underBinder
    | with_reducible apply FrameO.next | with_reducible apply onUnit_frame | with_reducible apply whenRunning_frame
    | with_reducible apply setupDone_frame | split

theorem execAset_frame (tile engine : Nat) (s : State) (hs : Frame s0 s) :
    FrameO s0 (execAset tile engine s) := by
  unfold execAset
  repeat' first
    | with_reducible assumption | exact trivial | (intro _) | lift_lets -underBinder
    | with_reducible apply FrameO.next | with_reducible apply onSetup_frame

theorem execAwrap_frame (tile engine : Nat) (s : State) (hs : Frame s0 s) :
    FrameO s0 (execAwrap tile engine s) := by
  unfold execAwrap
  repeat' first
    | with_reducible assumption | exact trivial | (intro _) | lift_lets -underBinder
    | with_reducible apply FrameO.next | with_reducible apply onSetup_frame

theorem execSeed_frame (tile engine : Nat) (s : State) (hs : Frame s0 s) :
    FrameO s0 (execSeed tile engine s) := by
  unfold execSeed
  repeat' first
    | with_reducible assumption | exact trivial | (intro _) | lift_lets -underBinder
    | with_reducible apply FrameO.next | with_reducible apply onSetup_frame

theorem execDgset_frame (tile : Nat) (s : State) (hs : Frame s0 s) :
    FrameO s0 (execDgset tile s) := by
  unfold execDgset
  repeat' first
    | with_reducible assumption | exact trivial
    | (intro x; clear_value (hxv : x = _); with_reducible refine frame_let (s0 := s0) hxv ?_ fun hx => ?_)
    | (intro x; clear_value x) | (intro _) | lift_lets -underBinder | with_reducible apply FrameO.next
    | with_reducible apply onUnit_frame | with_reducible apply whenRunning_frame
    | with_reducible apply setupDone_frame | with_reducible apply setTile_frame | split

theorem execMwload_frame (tile : Nat) (s : State) (hs : Frame s0 s) :
    FrameO s0 (execMwload tile s) := by
  unfold execMwload
  repeat' first
    | with_reducible assumption | exact trivial
    | (intro x; clear_value (hxv : x = _); with_reducible refine frame_let (s0 := s0) hxv ?_ fun hx => ?_)
    | (intro x; clear_value x) | (intro _) | lift_lets -underBinder | with_reducible apply FrameO.next
    | with_reducible apply onHead_frame | with_reducible apply onLocal_frame | with_reducible apply chargeSpans_frame
    | with_reducible apply repDone_frame | with_reducible apply updHead_frame | with_reducible apply setTile_frame
    | split

theorem put32_frame (t a : Nat) (xs : List PVal) (s : State) (hs : Frame s0 s) :
    Frame s0 (put32 t a xs s) := by
  unfold put32
  repeat' first
    | with_reducible assumption | (intro _) | lift_lets -underBinder | with_reducible apply localWrite_frame

theorem execMma_frame (tile : Nat) (s : State) (hs : Frame s0 s) :
    FrameO s0 (execMma tile s) := by
  unfold execMma
  repeat' first
    | with_reducible assumption | exact trivial
    | (intro x; clear_value (hxv : x = _); with_reducible refine frame_let (s0 := s0) hxv ?_ fun hx => ?_)
    | (intro x; clear_value (hxv : x = _); with_reducible refine frame_let_snd (s0 := s0) hxv ?_ fun hx => ?_)
    | (intro x; clear_value x) | (intro _) | lift_lets -underBinder | with_reducible apply FrameO.next
    | with_reducible apply onHead_frame | with_reducible apply onLocal_frame | with_reducible apply source_frame
    | with_reducible apply put32_frame | with_reducible apply updHead_frame | with_reducible apply repDone_frame
    | split

theorem execMdrain_frame (tile : Nat) (s : State) (hs : Frame s0 s) :
    FrameO s0 (execMdrain tile s) := by
  unfold execMdrain
  repeat' first
    | with_reducible assumption | exact trivial
    | (intro x; clear_value (hxv : x = _); with_reducible refine frame_let (s0 := s0) hxv ?_ fun hx => ?_)
    | (intro x; clear_value (hxv : x = _); with_reducible refine frame_let_snd (s0 := s0) hxv ?_ fun hx => ?_)
    | (intro x; clear_value x) | (intro _) | lift_lets -underBinder | with_reducible apply FrameO.next
    | with_reducible apply onHead_frame | with_reducible apply onLocal_frame | with_reducible apply source_frame
    | with_reducible apply localWrite_frame | with_reducible apply destination_frame
    | with_reducible apply repDone_frame | with_reducible apply updHead_frame | split

theorem vxRepeat_frame (t : Nat) (i : Ins) (two : Bool) (dst : Bool) (one : Bool) (beats : Nat)
    (op : W32 → W32 → W32 → W32) (s : State) (hs : Frame s0 s) :
    Frame s0 (vxRepeat t i two dst one beats op s) := by
  unfold vxRepeat
  repeat' first
    | with_reducible assumption
    | (intro x; clear_value (hxv : x = _); with_reducible refine frame_let_snd (s0 := s0) hxv ?_ fun hx => ?_)
    | (intro x; clear_value x) | (intro _) | lift_lets -underBinder | with_reducible apply source_frame
    | with_reducible apply repDone_frame | with_reducible apply destination_frame | split

theorem vxRow_frame (tile op : Nat) (two : Bool) (dst : Bool) (one : Bool) (f : Ins → W32 → W32 → W32 → W32)
    (s : State) (hs : Frame s0 s) :
    FrameO s0 (vxRow tile op two dst one f s) := by
  unfold vxRow
  repeat' first
    | with_reducible assumption | exact trivial | (intro _) | lift_lets -underBinder
    | with_reducible apply FrameO.next | with_reducible apply onHead_frame | with_reducible apply onLocal_frame
    | with_reducible apply vxRepeat_frame

theorem execVadd_frame (tile : Nat) (s : State) (hs : Frame s0 s) :
    FrameO s0 (execVadd tile s) := by
  unfold execVadd
  repeat' first
    | with_reducible assumption | exact trivial | (intro _) | lift_lets -underBinder
    | with_reducible apply FrameO.next | with_reducible apply vxRow_frame

theorem execVsub_frame (tile : Nat) (s : State) (hs : Frame s0 s) :
    FrameO s0 (execVsub tile s) := by
  unfold execVsub
  repeat' first
    | with_reducible assumption | exact trivial | (intro _) | lift_lets -underBinder
    | with_reducible apply FrameO.next | with_reducible apply vxRow_frame

theorem execVmul_frame (tile : Nat) (s : State) (hs : Frame s0 s) :
    FrameO s0 (execVmul tile s) := by
  unfold execVmul
  repeat' first
    | with_reducible assumption | exact trivial | (intro _) | lift_lets -underBinder
    | with_reducible apply FrameO.next | with_reducible apply vxRow_frame

theorem execVfma_frame (tile : Nat) (s : State) (hs : Frame s0 s) :
    FrameO s0 (execVfma tile s) := by
  unfold execVfma
  repeat' first
    | with_reducible assumption | exact trivial | (intro _) | lift_lets -underBinder
    | with_reducible apply FrameO.next | with_reducible apply vxRow_frame

theorem execVmax_frame (tile : Nat) (s : State) (hs : Frame s0 s) :
    FrameO s0 (execVmax tile s) := by
  unfold execVmax
  repeat' first
    | with_reducible assumption | exact trivial | (intro _) | lift_lets -underBinder
    | with_reducible apply FrameO.next | with_reducible apply vxRow_frame

theorem execVmin_frame (tile : Nat) (s : State) (hs : Frame s0 s) :
    FrameO s0 (execVmin tile s) := by
  unfold execVmin
  repeat' first
    | with_reducible assumption | exact trivial | (intro _) | lift_lets -underBinder
    | with_reducible apply FrameO.next | with_reducible apply vxRow_frame

theorem execVscale_frame (tile : Nat) (s : State) (hs : Frame s0 s) :
    FrameO s0 (execVscale tile s) := by
  unfold execVscale
  repeat' first
    | with_reducible assumption | exact trivial | (intro _) | lift_lets -underBinder
    | with_reducible apply FrameO.next | with_reducible apply vxRow_frame

theorem execVmulb_frame (tile : Nat) (s : State) (hs : Frame s0 s) :
    FrameO s0 (execVmulb tile s) := by
  unfold execVmulb
  repeat' first
    | with_reducible assumption | exact trivial | (intro _) | lift_lets -underBinder
    | with_reducible apply FrameO.next | with_reducible apply vxRow_frame

theorem execVsubb_frame (tile : Nat) (s : State) (hs : Frame s0 s) :
    FrameO s0 (execVsubb tile s) := by
  unfold execVsubb
  repeat' first
    | with_reducible assumption | exact trivial | (intro _) | lift_lets -underBinder
    | with_reducible apply FrameO.next | with_reducible apply vxRow_frame

theorem execVcvt_frame (tile : Nat) (s : State) (hs : Frame s0 s) :
    FrameO s0 (execVcvt tile s) := by
  unfold execVcvt
  repeat' first
    | with_reducible assumption | exact trivial | (intro x; clear_value x) | (intro _) | lift_lets -underBinder
    | with_reducible apply FrameO.next | with_reducible apply onHead_frame | with_reducible apply onLocal_frame
    | with_reducible apply vxRepeat_frame

theorem vxReduce_frame (t : Nat) (i : Ins) (f : W32 → W32 → W32) (s : State) (hs : Frame s0 s) :
    Frame s0 (vxReduce t i f s) := by
  unfold vxReduce
  repeat' first
    | with_reducible assumption
    | (intro x; clear_value (hxv : x = _); with_reducible refine frame_let_snd (s0 := s0) hxv ?_ fun hx => ?_)
    | (intro x; clear_value x) | (intro _) | lift_lets -underBinder | with_reducible apply source_frame
    | with_reducible apply repDone_frame | with_reducible apply destination_frame | split

theorem execVredsum_frame (tile : Nat) (s : State) (hs : Frame s0 s) :
    FrameO s0 (execVredsum tile s) := by
  unfold execVredsum
  repeat' first
    | with_reducible assumption | exact trivial | (intro _) | lift_lets -underBinder
    | with_reducible apply FrameO.next | with_reducible apply onHead_frame | with_reducible apply onLocal_frame
    | with_reducible apply vxReduce_frame

theorem execVredmax_frame (tile : Nat) (s : State) (hs : Frame s0 s) :
    FrameO s0 (execVredmax tile s) := by
  unfold execVredmax
  repeat' first
    | with_reducible assumption | exact trivial | (intro _) | lift_lets -underBinder
    | with_reducible apply FrameO.next | with_reducible apply onHead_frame | with_reducible apply onLocal_frame
    | with_reducible apply vxReduce_frame

theorem sxRow_frame (tile op : Nat) (f : W32 → W32) (s : State) (hs : Frame s0 s) :
    FrameO s0 (sxRow tile op f s) := by
  unfold sxRow
  repeat' first
    | with_reducible assumption | exact trivial
    | (intro x; clear_value (hxv : x = _); with_reducible refine frame_let_snd (s0 := s0) hxv ?_ fun hx => ?_)
    | (intro x; clear_value x) | (intro _) | lift_lets -underBinder | with_reducible apply FrameO.next
    | with_reducible apply onHead_frame | with_reducible apply onLocal_frame | with_reducible apply source_frame
    | with_reducible apply repDone_frame | with_reducible apply destination_frame

theorem execSexp_frame (tile : Nat) (s : State) (hs : Frame s0 s) :
    FrameO s0 (execSexp tile s) := by
  unfold execSexp
  repeat' first
    | with_reducible assumption | exact trivial | (intro _) | lift_lets -underBinder
    | with_reducible apply FrameO.next | with_reducible apply sxRow_frame

theorem execSlog_frame (tile : Nat) (s : State) (hs : Frame s0 s) :
    FrameO s0 (execSlog tile s) := by
  unfold execSlog
  repeat' first
    | with_reducible assumption | exact trivial | (intro _) | lift_lets -underBinder
    | with_reducible apply FrameO.next | with_reducible apply sxRow_frame

theorem execSrsqrt_frame (tile : Nat) (s : State) (hs : Frame s0 s) :
    FrameO s0 (execSrsqrt tile s) := by
  unfold execSrsqrt
  repeat' first
    | with_reducible assumption | exact trivial | (intro _) | lift_lets -underBinder
    | with_reducible apply FrameO.next | with_reducible apply sxRow_frame

theorem execSrcp_frame (tile : Nat) (s : State) (hs : Frame s0 s) :
    FrameO s0 (execSrcp tile s) := by
  unfold execSrcp
  repeat' first
    | with_reducible assumption | exact trivial | (intro _) | lift_lets -underBinder
    | with_reducible apply FrameO.next | with_reducible apply sxRow_frame

theorem execSidx_frame (tile : Nat) (s : State) (hs : Frame s0 s) :
    FrameO s0 (execSidx tile s) := by
  unfold execSidx
  repeat' first
    | with_reducible assumption | exact trivial
    | (intro x; clear_value (hxv : x = _); with_reducible refine frame_let_snd (s0 := s0) hxv ?_ fun hx => ?_)
    | (intro x; clear_value x) | (intro _) | lift_lets -underBinder | with_reducible apply FrameO.next
    | with_reducible apply onHead_frame | with_reducible apply onLocal_frame | with_reducible apply source_frame
    | with_reducible apply repDone_frame | with_reducible apply localWrite_frame

theorem execEngineInstructionComplete_frame (tile engine : Nat) (s : State) (hs : Frame s0 s) :
    FrameO s0 (execEngineInstructionComplete tile engine s) := by
  unfold execEngineInstructionComplete
  repeat' first
    | with_reducible assumption | exact trivial | (intro x; clear_value x) | (intro _) | lift_lets -underBinder
    | with_reducible apply FrameO.next | with_reducible apply onUnit_frame | with_reducible apply whenRunning_frame
    | with_reducible apply setTile_frame | split

end Sys2Proof.Machine
end

