-- ==== Sys2Proof/Laws/FrameStack.lean ====
section
/-!
SUPPORT. The frame of every operation of sub-sequencers, the data mover, flights and steps: see Laws/Frame.lean.
-/

namespace Sys2Proof.Machine

variable {s0 : State}

theorem loadQueries_frame (k : Nat) (cmd : Option ℕ) (b : DescBytes) (s : State) (hs : Frame s0 s) :
    Frame s0 (loadQueries k cmd b s).2 := by
  unfold loadQueries
  repeat' first
    | with_reducible assumption
    | (intro x; clear_value (hxv : x = _); with_reducible refine frame_let (s0 := s0) hxv ?_ fun hx => ?_)
    | (intro x; clear_value x) | (intro _) | lift_lets -underBinder | with_reducible apply charge_frame
    | with_reducible apply setStack_frame | with_reducible apply take_frame | split | with_reducible apply Frame.upd

theorem firstDesc_frame (k rep group : Nat) (dests : List Dest) (b : DescBytes) (s : State) (hs : Frame s0 s) :
    Frame s0 (firstDesc k rep group dests b s).2 := by
  unfold firstDesc
  repeat' first
    | with_reducible assumption
    | (intro x; clear_value (hxv : x = _); with_reducible refine frame_let_snd (s0 := s0) hxv ?_ fun hx => ?_)
    | (intro x; clear_value x) | (intro _) | lift_lets -underBinder | with_reducible apply loadQueries_frame
    | with_reducible apply setStack_frame

theorem queueDesc_frame (k rep : Nat) (dests : List Dest) (b : DescBytes) (s : State) (hs : Frame s0 s) :
    Frame s0 (queueDesc k rep dests b s) := by
  unfold queueDesc
  repeat' first
    | with_reducible assumption
    | (intro x; clear_value (hxv : x = _); with_reducible refine frame_let_snd (s0 := s0) hxv ?_ fun hx => ?_)
    | (intro x; clear_value x) | (intro _) | lift_lets -underBinder | with_reducible apply firstDesc_frame
    | with_reducible apply setStack_frame | split

theorem closeGroup_frame (k t id : Nat) (s : State) (hs : Frame s0 s) :
    Frame s0 (closeGroup k t id s) := by
  unfold closeGroup
  repeat' first
    | with_reducible assumption | (intro x; clear_value x) | (intro _) | lift_lets -underBinder
    | with_reducible apply setStack_frame | split

theorem dxGate_frame (t id : Nat) (ps : List (Home × ℕ)) (s : State) (go : State → State) (hs : Frame s0 s)
    (hgo : ∀ y0, Frame s0 y0 → Frame s0 (go y0)) :
    Frame s0 (dxGate t id ps s go) := by
  unfold dxGate
  repeat' first
    | with_reducible assumption | (intro _) | lift_lets -underBinder | with_reducible apply hgo
    | with_reducible apply hgo | with_reducible apply noteWaits_frame | with_reducible apply programTimeout_frame
    | split

theorem dxWrite_frame (t id : Nat) (a : W64) (bs : List PByte) (s : State) (hs : Frame s0 s) :
    Frame s0 (dxWrite t id a bs s) := by
  unfold dxWrite
  repeat' first
    | with_reducible assumption | (intro _) | lift_lets -underBinder | with_reducible apply remoteWrite_frame
    | with_reducible apply putPieces_frame | split

theorem issueLeaving_frame (t : Nat) (mate : Option (ℕ × Leaving)) (l : Leaving) (s : State) (hs : Frame s0 s) :
    Frame s0 (issueLeaving t mate l s) := by
  unfold issueLeaving
  repeat' first
    | with_reducible assumption | (intro x; clear_value x) | (intro _) | lift_lets -underBinder
    | with_reducible apply queueDesc_frame | with_reducible apply dxWrite_frame | split

theorem leave_frame (t : Nat) (l : Leaving) (s : State) (hs : Frame s0 s) :
    Frame s0 (leave t l s) := by
  unfold leave
  repeat' first
    | with_reducible assumption
    | (intro x; clear_value (hxv : x = _); with_reducible refine frame_let (s0 := s0) hxv ?_ fun hx => ?_)
    | (intro x; clear_value x) | (intro _) | lift_lets -underBinder | with_reducible apply issueLeaving_frame
    | with_reducible apply setTile_frame | with_reducible apply twinMismatch_frame | split

theorem leaveWrite_frame (t : Nat) (h : Entry) (release : Bool) (a : W64) (bs : List PByte) (s : State)
    (hs : Frame s0 s) :
    Frame s0 (leaveWrite t h release a bs s) := by
  unfold leaveWrite
  repeat' first | with_reducible assumption | (intro _) | lift_lets -underBinder | with_reducible apply leave_frame

theorem dxLocal_frame (t : Nat) (a : ℤ) (n : Nat) (s : State) (hs : Frame s0 s) :
    Frame s0 (dxLocal t a n s).2 := by
  unfold dxLocal
  repeat' first
    | with_reducible assumption | (intro x; clear_value x) | (intro _) | lift_lets -underBinder
    | with_reducible apply charge_frame

theorem dxRead_frame (t : Nat) (h : Entry) (a : W64) (n : Nat) (s : State) (go : List PByte → State → State)
    (hs : Frame s0 s) (hgo : ∀ y0 y1, Frame s0 y1 → Frame s0 (go y0 y1)) :
    Frame s0 (dxRead t h a n s go) := by
  unfold dxRead
  repeat' first
    | with_reducible assumption
    | (intro x; clear_value (hxv : x = _); with_reducible refine frame_let_snd (s0 := s0) hxv ?_ fun hx => ?_)
    | (intro _) | lift_lets -underBinder | with_reducible apply hgo | with_reducible apply hgo
    | with_reducible apply remoteRead_frame | with_reducible apply updEntry_frame | with_reducible apply dxGate_frame
    | with_reducible apply getPieces_frame | with_reducible apply charge_frame | split

theorem dcopyOut_frame (t : Nat) (i : Ins) (h : Entry) (bs : List PByte) (s : State) (hs : Frame s0 s) :
    Frame s0 (dcopyOut t i h bs s) := by
  unfold dcopyOut
  repeat' first
    | with_reducible assumption
    | (intro x; clear_value (hxv : x = _); with_reducible refine frame_let_fun (s0 := s0) hxv ?_ fun hgo => ?_)
    | (intro _) | lift_lets -underBinder | with_reducible apply hgo | with_reducible apply repDone_frame
    | with_reducible apply leaveWrite_frame | with_reducible apply localWrite_frame | split

theorem dcopy_frame (t : Nat) (i : Ins) (h : Entry) (s : State) (hs : Frame s0 s) :
    Frame s0 (dcopy t i h s) := by
  unfold dcopy
  repeat' first
    | with_reducible assumption
    | (intro x; clear_value (hxv : x = _); with_reducible refine frame_let_snd (s0 := s0) hxv ?_ fun hx => ?_)
    | (intro x; clear_value x) | (intro _) | lift_lets -underBinder | with_reducible apply engFault_frame
    | with_reducible apply repDone_frame | with_reducible apply dxGate_frame | with_reducible apply dxRead_frame
    | with_reducible apply dcopyOut_frame | with_reducible apply dxLocal_frame | split

theorem execDcopy_frame (tile : Nat) (s : State) (hs : Frame s0 s) :
    FrameO s0 (execDcopy tile s) := by
  unfold execDcopy
  repeat' first
    | with_reducible assumption | exact trivial | (intro _) | lift_lets -underBinder
    | with_reducible apply FrameO.next | with_reducible apply onHead_frame | with_reducible apply onLocal_frame
    | with_reducible apply dcopy_frame

theorem dlayoutMove_frame (t : Nat) (i : Ins) (h : Entry) (l : Layout) (s : State) (hs : Frame s0 s) :
    Frame s0 (dlayoutMove t i h l s) := by
  unfold dlayoutMove
  repeat' first
    | with_reducible assumption
    | (intro x; clear_value (hxv : x = _); with_reducible refine frame_let (s0 := s0) hxv ?_ fun hx => ?_)
    | (intro x; clear_value x) | (intro _) | lift_lets -underBinder | with_reducible apply chargeReads_frame
    | with_reducible apply updHead_frame | with_reducible apply leaveWrite_frame | with_reducible apply updCmd_frame
    | with_reducible apply repDone_frame | with_reducible apply Cmd.reads_frame | with_reducible apply frame_foldl
    | with_reducible apply frame_foldl_snd | with_reducible apply frame_foldl_snd_snd | split

theorem bringEntry_frame (t : Nat) (h : Entry) (a : W64) (n : Nat) (s : State) (hs : Frame s0 s) :
    Frame s0 (bringEntry t h a n s) := by
  unfold bringEntry
  repeat' first
    | with_reducible assumption | (intro _) | lift_lets -underBinder | with_reducible apply remoteRead_frame
    | with_reducible apply updEntry_frame | split

theorem dxBring_frame (t : Nat) (h : Entry) (k : Nat) (rs : List (W64 × ℕ)) (s : State) (go : State → State)
    (hs : Frame s0 s) (hgo : ∀ y0, Frame s0 y0 → Frame s0 (go y0)) :
    Frame s0 (dxBring t h k rs s go) := by
  unfold dxBring
  repeat' first
    | with_reducible assumption | (intro x; clear_value x) | (intro _) | lift_lets -underBinder
    | with_reducible apply hgo | with_reducible apply hgo | with_reducible apply remoteRead_frame
    | with_reducible apply updEntry_frame | with_reducible apply frame_foldl | with_reducible apply frame_foldl_snd
    | with_reducible apply frame_foldl_snd_snd | split

theorem dlayoutRun_frame (t : Nat) (i : Ins) (h : Entry) (l : Layout) (s : State) (s' : State) (hs : Frame s0 s)
    (hs' : Frame s0 s') :
    Frame s0 (dlayoutRun t i h l s s') := by
  unfold dlayoutRun
  repeat' first
    | with_reducible assumption | (intro x; clear_value x) | (intro _) | lift_lets -underBinder
    | with_reducible apply engFault_frame | with_reducible apply dxBring_frame | with_reducible apply dxGate_frame
    | with_reducible apply dlayoutMove_frame | with_reducible apply noteWaits_frame | split

theorem dlayout_frame (t : Nat) (i : Ins) (h : Entry) (g : Got) (s : State) (hs : Frame s0 s) :
    Frame s0 (dlayout t i h g s) := by
  unfold dlayout
  repeat' first
    | with_reducible assumption
    | (intro x; clear_value (hxv : x = _); with_reducible refine frame_let (s0 := s0) hxv ?_ fun hx => ?_)
    | (intro x; clear_value x) | (intro _) | lift_lets -underBinder | with_reducible apply charged_frame
    | with_reducible apply charge_frame | with_reducible apply engFault_frame | with_reducible apply repDone_frame
    | with_reducible apply bringEntry_frame | with_reducible apply dlayoutRun_frame | split

theorem execDlayout_frame (tile : Nat) (s : State) (hs : Frame s0 s) :
    FrameO s0 (execDlayout tile s) := by
  unfold execDlayout
  repeat' first
    | with_reducible assumption | exact trivial | (intro x; clear_value x) | (intro _) | lift_lets -underBinder
    | with_reducible apply FrameO.next | with_reducible apply onHead_frame | with_reducible apply onLocal_frame
    | with_reducible apply engFault_frame | with_reducible apply repDone_frame | with_reducible apply charge_frame
    | with_reducible apply dlayout_frame | split

theorem dflagset_frame (t : Nat) (i : Ins) (h : Entry) (s : State) (hs : Frame s0 s) :
    Frame s0 (dflagset t i h s) := by
  unfold dflagset
  repeat' first
    | with_reducible assumption
    | (intro x; clear_value (hxv : x = _); with_reducible refine frame_let_snd (s0 := s0) hxv ?_ fun hx => ?_)
    | (intro x; clear_value x) | (intro _) | lift_lets -underBinder | with_reducible apply engFault_frame
    | with_reducible apply dxGate_frame | with_reducible apply dxLocal_frame | with_reducible apply repDone_frame
    | with_reducible apply leaveWrite_frame | split

theorem execDflagset_frame (tile : Nat) (s : State) (hs : Frame s0 s) :
    FrameO s0 (execDflagset tile s) := by
  unfold execDflagset
  repeat' first
    | with_reducible assumption | exact trivial | (intro _) | lift_lets -underBinder
    | with_reducible apply FrameO.next | with_reducible apply onHead_frame | with_reducible apply onLocal_frame
    | with_reducible apply dflagset_frame

theorem execDflagwait_frame (tile : Nat) (s : State) (hs : Frame s0 s) :
    FrameO s0 (execDflagwait tile s) := by
  unfold execDflagwait
  repeat' first
    | with_reducible assumption | exact trivial
    | (intro x; clear_value (hxv : x = _); with_reducible refine frame_let (s0 := s0) hxv ?_ fun hx => ?_)
    | (intro x; clear_value x) | (intro _) | lift_lets -underBinder | with_reducible apply FrameO.next
    | with_reducible apply onHead_frame | with_reducible apply engFault_frame | with_reducible apply updEntry_frame
    | with_reducible apply ask_frame | split

theorem acquire_frame (t : Nat) (s : State) (hs : Frame s0 s) :
    Frame s0 (acquire t s) := by
  unfold acquire
  repeat' first
    | with_reducible assumption
    | (intro x; clear_value (hxv : x = _); with_reducible refine frame_let (s0 := s0) hxv ?_ fun hx => ?_)
    | (intro x; clear_value x) | (intro _) | lift_lets -underBinder | with_reducible apply repDone_frame
    | with_reducible apply setTile_frame

theorem execDflagwaitSatisfied_frame (tile : Nat) (s : State) (hs : Frame s0 s) :
    FrameO s0 (execDflagwaitSatisfied tile s) := by
  unfold execDflagwaitSatisfied
  repeat' first
    | with_reducible assumption | exact trivial
    | (intro x; clear_value (hxv : x = _); with_reducible refine frame_let_snd (s0 := s0) hxv ?_ fun hx => ?_)
    | (intro x; clear_value x) | (intro _) | lift_lets -underBinder | with_reducible apply FrameO.next
    | with_reducible apply onHead_frame | with_reducible apply acquire_frame | with_reducible apply ask_frame
    | with_reducible apply engFault_frame | with_reducible apply dxGate_frame | with_reducible apply getPieces_frame
    | with_reducible apply charge_frame | split

theorem execDfence_frame (tile : Nat) (s : State) (hs : Frame s0 s) :
    FrameO s0 (execDfence tile s) := by
  unfold execDfence
  repeat' first
    | with_reducible assumption | exact trivial | (intro _) | lift_lets -underBinder
    | with_reducible apply FrameO.next | with_reducible apply onHead_frame | with_reducible apply repDone_frame
    | split

theorem sendDesc_frame (t : Nat) (i : Ins) (h : Entry) (b : DescBytes) (s : State) (hs : Frame s0 s) :
    Frame s0 (sendDesc t i h b s) := by
  unfold sendDesc
  repeat' first
    | with_reducible assumption | (intro x; clear_value x) | (intro _) | lift_lets -underBinder
    | with_reducible apply engFault_frame | with_reducible apply repDone_frame | with_reducible apply leave_frame
    | split

theorem poisonedDesc_frame (t : Nat) (i : Ins) (h : Entry) (s : State) (hs : Frame s0 s) :
    Frame s0 (poisonedDesc t i h s) := by
  unfold poisonedDesc
  repeat' first
    | with_reducible assumption
    | (intro x; clear_value (hxv : x = _); with_reducible refine frame_let (s0 := s0) hxv ?_ fun hx => ?_)
    | (intro x; clear_value x) | (intro _) | lift_lets -underBinder | with_reducible apply closeGroup_frame
    | with_reducible apply repDone_frame | with_reducible apply localWrite_frame

theorem execDdesc_frame (tile : Nat) (s : State) (hs : Frame s0 s) :
    FrameO s0 (execDdesc tile s) := by
  unfold execDdesc
  repeat' first
    | with_reducible assumption | exact trivial | (intro x; clear_value x) | (intro _) | lift_lets -underBinder
    | with_reducible apply FrameO.next | with_reducible apply onHead_frame | with_reducible apply sendDesc_frame
    | with_reducible apply engFault_frame | with_reducible apply onLocal_frame
    | with_reducible apply poisonedDesc_frame | with_reducible apply charge_frame | split

theorem execTwinMatchTimeout_frame (tile : Nat) (s : State) (hs : Frame s0 s) :
    FrameO s0 (execTwinMatchTimeout tile s) := by
  unfold execTwinMatchTimeout
  repeat' first
    | with_reducible assumption | exact trivial | (intro _) | lift_lets -underBinder
    | with_reducible apply FrameO.next | with_reducible apply onUnit_frame | with_reducible apply whenRunning_frame
    | with_reducible apply twinMismatch_frame | split

theorem colRead_frame (cmd : Option ℕ) (key n : Nat) (s : State) (hs : Frame s0 s) :
    Frame s0 (colRead cmd key n s).2 := by
  unfold colRead
  repeat' first
    | with_reducible assumption
    | (intro x; clear_value (hxv : x = _); with_reducible refine frame_let_snd (s0 := s0) hxv ?_ fun hx => ?_)
    | (intro x; clear_value x) | (intro _) | lift_lets -underBinder | with_reducible apply getStack_frame
    | with_reducible apply charge_frame

theorem colReads_frame (cmd : Option ℕ) (x1 : List (ℕ × ℕ)) (x2 : State) (hx2 : Frame s0 x2) :
    Frame s0 (colReads cmd x1 x2).2 := by
  induction x1 generalizing x2 with
  | nil =>
    unfold colReads
    try dsimp only
    repeat' with_reducible assumption
  | cons x xs ih =>
    obtain ⟨p, q⟩ := x
    unfold colReads
    try dsimp only
    repeat' first
      | with_reducible assumption | (intro _) | lift_lets -underBinder | with_reducible apply colRead_frame
      | with_reducible apply ih

theorem putScore_frame (s : State) (b : DescBytes) (img : List PByte) (i : Nat) (w : W32) (bad : Bool)
    (hs : Frame s0 s) :
    Frame s0 (putScore s b img i w bad) := by
  unfold putScore
  repeat' first
    | with_reducible assumption | (intro x; clear_value x) | (intro _) | lift_lets -underBinder
    | with_reducible apply putArray_frame | split

theorem attnFullEnd_frame (b : DescBytes) (r : Run) (q : List PByte) (img : List PByte) (s : State)
    (hs : Frame s0 s) :
    Frame s0 (attnFullEnd b r q img s).2 := by
  unfold attnFullEnd
  repeat' first
    | with_reducible assumption | (intro x; clear_value x) | (intro _) | lift_lets -underBinder
    | with_reducible apply putScore_frame | with_reducible apply frame_foldl | with_reducible apply frame_foldl_snd
    | with_reducible apply frame_foldl_snd_snd | split

theorem putOutput_frame (d : Desc) (off : Nat) (bs : List PByte) (s : State) (hs : Frame s0 s) :
    Frame s0 (putOutput d off bs s) := by
  unfold putOutput
  repeat' first
    | with_reducible assumption | (intro _) | lift_lets -underBinder | with_reducible apply localWrite_frame
    | with_reducible apply frame_foldl

theorem checkOutput_frame (k : Nat) (d : Desc) (els : List (ℕ × W32)) (exempt : List (ℕ × W32)) (sum : Option W32)
    (s : State) (hs : Frame s0 s) :
    Frame s0 (checkOutput k d els exempt sum s) := by
  unfold checkOutput
  repeat' first
    | with_reducible assumption | (intro x; clear_value x) | (intro _) | lift_lets -underBinder
    | with_reducible apply implausible_frame | with_reducible apply frame_foldl

theorem attnScoreEnd_frame (k : Nat) (d : Desc) (q : List PByte) (img : List PByte) (s : State) (hs : Frame s0 s) :
    Frame s0 (attnScoreEnd k d q img s) := by
  unfold attnScoreEnd
  repeat' first
    | with_reducible assumption
    | (intro x; clear_value (hxv : x = _); with_reducible refine frame_let (s0 := s0) hxv ?_ fun hx => ?_)
    | (intro x; clear_value x) | (intro _) | lift_lets -underBinder | with_reducible apply putOutput_frame
    | with_reducible apply checkOutput_frame

theorem gemvEnd_frame (d : Desc) (qs : List PByte) (img : List PByte) (s : State) (hs : Frame s0 s) :
    Frame s0 (gemvEnd d qs img s) := by
  unfold gemvEnd
  repeat' first
    | with_reducible assumption | (intro x; clear_value x) | (intro _) | lift_lets -underBinder
    | with_reducible apply putOutput_frame

theorem reduceEnd_frame (d : Desc) (img : List PByte) (s : State) (hs : Frame s0 s) :
    Frame s0 (reduceEnd d img s) := by
  unfold reduceEnd
  repeat' first
    | with_reducible assumption | (intro x; clear_value x) | (intro _) | lift_lets -underBinder
    | with_reducible apply putOutput_frame

theorem badHeader_frame (d : Desc) (s : State) (hs : Frame s0 s) :
    Frame s0 (badHeader d s) := by
  unfold badHeader
  repeat' first
    | with_reducible assumption | (intro _) | lift_lets -underBinder | with_reducible apply badHeaderOf_frame

theorem digestEnd_frame (d : Desc) (img : List PByte) (s : State) (hs : Frame s0 s) :
    Frame s0 (digestEnd d img s) := by
  unfold digestEnd
  repeat' first
    | with_reducible assumption | (intro x; clear_value x) | (intro _) | lift_lets -underBinder
    | with_reducible apply putOutput_frame | with_reducible apply badHeader_frame | with_reducible apply take_frame
    | split

theorem decayEnd_frame (d : Desc) (img : List PByte) (s : State) (hs : Frame s0 s) :
    Frame s0 (decayEnd d img s) := by
  unfold decayEnd
  repeat' first
    | with_reducible assumption | (intro x; clear_value x) | (intro _) | lift_lets -underBinder
    | with_reducible apply putArray_frame | with_reducible apply badHeader_frame | with_reducible apply take_frame
    | with_reducible apply frame_foldl | with_reducible apply frame_foldl_snd
    | with_reducible apply frame_foldl_snd_snd | split

theorem axpyPound_frame (d : Desc) (qs : List PByte) (lo : Nat) (bs : List PByte) (s : State) (hs : Frame s0 s) :
    Frame s0 (axpyPound d qs lo bs s) := by
  unfold axpyPound
  repeat' first
    | with_reducible assumption | (intro x; clear_value x) | (intro _) | lift_lets -underBinder
    | with_reducible apply putArray_frame | with_reducible apply take_frame | split

theorem runStart_frame (k bank : Nat) (s : State) (hs : Frame s0 s) :
    Frame s0 (runStart k bank s) := by
  unfold runStart
  repeat' first
    | with_reducible assumption
    | (intro x; clear_value (hxv : x = _); with_reducible refine frame_let (s0 := s0) hxv ?_ fun hx => ?_)
    | (intro x; clear_value x) | (intro _) | lift_lets -underBinder | with_reducible apply setStack_frame
    | with_reducible apply setBank_frame | split

theorem onBank_frame (stack bank : Nat) (s : State) (f : State → State) (hs : Frame s0 s)
    (hf : ∀ y0, Frame s0 y0 → Frame s0 (f y0)) :
    FrameO s0 (onBank stack bank s f) := by
  unfold onBank
  repeat' first
    | with_reducible assumption | exact trivial | (intro _) | lift_lets -underBinder | with_reducible apply hf
    | with_reducible apply FrameO.next | with_reducible apply onUnit_frame | with_reducible apply whenRunning_frame
    | split

theorem execRunStart_frame (stack bank : Nat) (s : State) (hs : Frame s0 s) :
    FrameO s0 (execRunStart stack bank s) := by
  unfold execRunStart
  repeat' first
    | with_reducible assumption | exact trivial | (intro _) | lift_lets -underBinder
    | with_reducible apply FrameO.next | with_reducible apply onBank_frame | with_reducible apply runStart_frame

theorem poundWork_frame (k : Nat) (d : Desc) (r : Run) (qs : List PByte) (img : List PByte) (bs : List PByte)
    (cols : List Col) (last : Bool) (s : State) (hs : Frame s0 s) :
    Frame s0 (poundWork k d r qs img bs cols last s).2 := by
  unfold poundWork
  repeat' first
    | with_reducible assumption | (intro x; clear_value x) | (intro _) | lift_lets -underBinder
    | with_reducible apply attnScoreEnd_frame | with_reducible apply attnFullEnd_frame
    | with_reducible apply decayEnd_frame | with_reducible apply gemvEnd_frame | with_reducible apply axpyPound_frame
    | with_reducible apply reduceEnd_frame | with_reducible apply putArray_frame
    | with_reducible apply flushRange_frame | with_reducible apply zeroStack_frame
    | with_reducible apply digestEnd_frame | split

theorem flushBank_frame (k b : Nat) (s : State) (hs : Frame s0 s) :
    Frame s0 (flushBank k b s) := by
  unfold flushBank
  repeat' first
    | with_reducible assumption | (intro _) | lift_lets -underBinder | with_reducible apply flushWhere_frame

theorem pound_frame (flight k bank : Nat) (s : State) (hs : Frame s0 s) :
    Frame s0 (pound flight k bank s) := by
  unfold pound
  repeat' first
    | with_reducible assumption
    | (intro x; clear_value (hxv : x = _); with_reducible refine frame_let (s0 := s0) hxv ?_ fun hx => ?_)
    | (intro x; clear_value (hxv : x = _); with_reducible refine frame_let_snd (s0 := s0) hxv ?_ fun hx => ?_)
    | (intro x; clear_value x) | (intro _) | lift_lets -underBinder | with_reducible apply flushBank_frame
    | with_reducible apply colReads_frame | with_reducible apply poundWork_frame | with_reducible apply setBank_frame
    | split | with_reducible apply Frame.upd

theorem execAttnScore_frame (stack bank : Nat) (s : State) (hs : Frame s0 s) :
    FrameO s0 (execAttnScore stack bank s) := by
  unfold execAttnScore
  repeat' first
    | with_reducible assumption | exact trivial | (intro _) | lift_lets -underBinder
    | with_reducible apply FrameO.next | with_reducible apply onBank_frame | with_reducible apply pound_frame

theorem execAttnFull_frame (stack bank : Nat) (s : State) (hs : Frame s0 s) :
    FrameO s0 (execAttnFull stack bank s) := by
  unfold execAttnFull
  repeat' first
    | with_reducible assumption | exact trivial | (intro _) | lift_lets -underBinder
    | with_reducible apply FrameO.next | with_reducible apply onBank_frame | with_reducible apply pound_frame

theorem execScoreDecay_frame (stack bank : Nat) (s : State) (hs : Frame s0 s) :
    FrameO s0 (execScoreDecay stack bank s) := by
  unfold execScoreDecay
  repeat' first
    | with_reducible assumption | exact trivial | (intro _) | lift_lets -underBinder
    | with_reducible apply FrameO.next | with_reducible apply onBank_frame | with_reducible apply pound_frame

theorem execGemv_frame (stack bank : Nat) (s : State) (hs : Frame s0 s) :
    FrameO s0 (execGemv stack bank s) := by
  unfold execGemv
  repeat' first
    | with_reducible assumption | exact trivial | (intro _) | lift_lets -underBinder
    | with_reducible apply FrameO.next | with_reducible apply onBank_frame | with_reducible apply pound_frame

theorem execAxpy_frame (stack bank : Nat) (s : State) (hs : Frame s0 s) :
    FrameO s0 (execAxpy stack bank s) := by
  unfold execAxpy
  repeat' first
    | with_reducible assumption | exact trivial | (intro _) | lift_lets -underBinder
    | with_reducible apply FrameO.next | with_reducible apply onBank_frame | with_reducible apply pound_frame

theorem execReduce_frame (stack bank : Nat) (s : State) (hs : Frame s0 s) :
    FrameO s0 (execReduce stack bank s) := by
  unfold execReduce
  repeat' first
    | with_reducible assumption | exact trivial | (intro _) | lift_lets -underBinder
    | with_reducible apply FrameO.next | with_reducible apply onBank_frame | with_reducible apply pound_frame

theorem execPageCopy_frame (stack bank : Nat) (s : State) (hs : Frame s0 s) :
    FrameO s0 (execPageCopy stack bank s) := by
  unfold execPageCopy
  repeat' first
    | with_reducible assumption | exact trivial | (intro _) | lift_lets -underBinder
    | with_reducible apply FrameO.next | with_reducible apply onBank_frame | with_reducible apply pound_frame

theorem execRowZero_frame (stack bank : Nat) (s : State) (hs : Frame s0 s) :
    FrameO s0 (execRowZero stack bank s) := by
  unfold execRowZero
  repeat' first
    | with_reducible assumption | exact trivial | (intro _) | lift_lets -underBinder
    | with_reducible apply FrameO.next | with_reducible apply onBank_frame | with_reducible apply pound_frame

theorem execPageDigest_frame (stack bank : Nat) (s : State) (hs : Frame s0 s) :
    FrameO s0 (execPageDigest stack bank s) := by
  unfold execPageDigest
  repeat' first
    | with_reducible assumption | exact trivial | (intro _) | lift_lets -underBinder
    | with_reducible apply FrameO.next | with_reducible apply onBank_frame | with_reducible apply pound_frame

theorem lockBank_frame (k b : Nat) (s : State) (hs : Frame s0 s) :
    Frame s0 (lockBank k b s) := by
  unfold lockBank
  repeat' first
    | with_reducible assumption
    | (intro x; clear_value (hxv : x = _); with_reducible refine frame_let (s0 := s0) hxv ?_ fun hx => ?_)
    | (intro x; clear_value x) | (intro _) | lift_lets -underBinder | with_reducible apply flushBank_frame
    | with_reducible apply setBank_frame | with_reducible apply settleBank_frame
    | with_reducible apply serveBank_frame

theorem endRun_frame (k b : Nat) (r : Run) (d : Desc) (s : State) (hs : Frame s0 s) :
    Frame s0 (endRun k b r d s) := by
  unfold endRun
  repeat' first
    | with_reducible assumption
    | (intro x; clear_value (hxv : x = _); with_reducible refine frame_let (s0 := s0) hxv ?_ fun hx => ?_)
    | (intro x; clear_value x) | (intro _) | lift_lets -underBinder | with_reducible apply setStack_frame
    | with_reducible apply setBank_frame | split

theorem afterPound_frame (k b : Nat) (r : Run) (s : State) (hs : Frame s0 s) :
    Frame s0 (afterPound k b r s) := by
  unfold afterPound
  repeat' first
    | with_reducible assumption
    | (intro x; clear_value (hxv : x = _); with_reducible refine frame_let (s0 := s0) hxv ?_ fun hx => ?_)
    | (intro x; clear_value (hxv : x = _); with_reducible refine frame_let_fun_right (s0 := s0) hxv ?_ fun hgo => ?_)
    | (intro x; clear_value x) | (intro _) | lift_lets -underBinder | with_reducible apply hgo
    | with_reducible apply setBank_frame | with_reducible apply setStack_frame | with_reducible apply endRun_frame
    | with_reducible apply Cmd.put_frame | with_reducible apply PTab.put_frame | with_reducible apply pound_frame
    | split

theorem lock_frame (k b : Nat) (s : State) (hs : Frame s0 s) :
    Frame s0 (lock k b s) := by
  unfold lock
  repeat' first
    | with_reducible assumption
    | (intro x; clear_value (hxv : x = _); with_reducible refine frame_let (s0 := s0) hxv ?_ fun hx => ?_)
    | (intro x; clear_value x) | (intro _) | lift_lets -underBinder | with_reducible apply afterPound_frame
    | with_reducible apply setBank_frame | with_reducible apply drainAll_frame | with_reducible apply lockBank_frame
    | split

theorem execLock_frame (stack bank : Nat) (s : State) (hs : Frame s0 s) :
    FrameO s0 (execLock stack bank s) := by
  unfold execLock
  repeat' first
    | with_reducible assumption | exact trivial | (intro _) | lift_lets -underBinder
    | with_reducible apply FrameO.next | with_reducible apply onBank_frame | with_reducible apply lock_frame

theorem haltStack_frame (p : Desc → Bool) (s : State) (k : Nat) (hs : Frame s0 s) :
    Frame s0 (haltStack p s k) := by
  unfold haltStack
  repeat' first
    | with_reducible assumption
    | (intro x; clear_value (hxv : x = _); with_reducible refine frame_let (s0 := s0) hxv ?_ fun hx => ?_)
    | (intro x; clear_value (hxv : x = _); with_reducible refine frame_let_fun_left (s0 := s0) hxv ?_ fun hgo => ?_)
    | (intro x; clear_value x) | (intro _) | lift_lets -underBinder | with_reducible apply hgo
    | with_reducible apply setStack_frame | with_reducible apply lockBank_frame | with_reducible apply setBank_frame
    | with_reducible apply drainAll_frame | with_reducible apply frame_foldl

theorem haltFlights_frame (p : Desc → Bool) (s : State) (hs : Frame s0 s) :
    Frame s0 (haltFlights p s) := by
  unfold haltFlights
  repeat' first
    | with_reducible assumption | (intro _) | lift_lets -underBinder | with_reducible apply haltStack_frame
    | with_reducible apply frame_foldl

theorem putRecord_frame (k : Nat) (g : Group) (runs : List (List Partial)) (i : Nat) (s : State) (hs : Frame s0 s) :
    Frame s0 (putRecord k g runs i s) := by
  unfold putRecord
  repeat' first
    | with_reducible assumption
    | (intro x; clear_value (hxv : x = _); with_reducible refine frame_let (s0 := s0) hxv ?_ fun hx => ?_)
    | (intro x; clear_value x) | (intro _) | lift_lets -underBinder | with_reducible apply putOutput_frame
    | with_reducible apply checkOutput_frame | with_reducible apply updCmd_frame | split

theorem mergeGroup_frame (k : Nat) (s : State) (hs : Frame s0 s) :
    Frame s0 (mergeGroup k s) := by
  unfold mergeGroup
  repeat' first
    | with_reducible assumption
    | (intro x; clear_value (hxv : x = _); with_reducible refine frame_let (s0 := s0) hxv ?_ fun hx => ?_)
    | (intro x; clear_value x) | (intro _) | lift_lets -underBinder | with_reducible apply putRecord_frame
    | with_reducible apply setStack_frame | with_reducible apply frame_foldl | with_reducible apply frame_foldl_snd
    | with_reducible apply frame_foldl_snd_snd | split

theorem execMergeGroupResult_frame (stack : Nat) (s : State) (hs : Frame s0 s) :
    FrameO s0 (execMergeGroupResult stack s) := by
  unfold execMergeGroupResult
  repeat' first
    | with_reducible assumption | exact trivial | (intro _) | lift_lets -underBinder
    | with_reducible apply FrameO.next | with_reducible apply onUnit_frame | with_reducible apply whenRunning_frame
    | with_reducible apply mergeGroup_frame | split

theorem setRunning_frame (p : Nat) (m : Manifest) (s : State) (hs : Frame s0 s) :
    Frame s0 (setRunning p m s) := by
  unfold setRunning
  repeat' first
    | with_reducible assumption | (intro x; clear_value x) | (intro _) | lift_lets -underBinder | split
    | with_reducible apply Frame.upd

theorem reserveEntry_frame (p : Nat) (e : PlanEntry) (s : State) (hs : Frame s0 s) :
    ∀ z, (reserveEntry p e s) = .ok z → Frame s0 z.2.2 := by
  intro z hz
  unfold reserveEntry at hz
  try dsimp only at hz
  repeat' first
    | with_reducible assumption | with_reducible cases hz | (obtain ⟨_, _, rfl⟩ := Option.map_eq_some_iff.1 hz)
    | split at hz | (dsimp only [pure, Except.pure] at hz) | (intro _) | lift_lets -underBinder
    | with_reducible refine reserveAll_frame _ _ _ _ ?_ _ (by assumption) | with_reducible apply PTab.write_frame
    | with_reducible apply setRequest_frame

theorem reserveEntries_frame (p : Nat) (x1 : List PlanEntry) (x2 : State) (hx2 : Frame s0 x2) :
    ∀ z, (reserveEntries p x1 x2) = .ok z → Frame s0 z.2.2 := by
  induction x1 generalizing x2 with
  | nil => intro z hz; unfold reserveEntries at hz; cases hz; exact hx2
  | cons e es ih =>
    intro z hz
    unfold reserveEntries at hz
    obtain ⟨a, ha, hz⟩ := ok_bind hz
    obtain ⟨b, hb, hz⟩ := ok_bind hz
    cases hz
    exact ih _ (reserveEntry_frame _ _ _ hx2 a ha) b hb

theorem writeReserved_frame (c : Cmd) (m : Manifest) (s : State) (hs : Frame s0 s) :
    Frame s0 (writeReserved c m s) := by
  unfold writeReserved
  repeat' first
    | with_reducible assumption
    | (intro x; clear_value (hxv : x = _); with_reducible refine frame_let (s0 := s0) hxv ?_ fun hx => ?_)
    | (intro x; clear_value (hxv : x = _); with_reducible refine frame_let_fun_right2 (s0 := s0) hxv ?_ fun hgo => ?_)
    | (intro x; clear_value x) | (intro _) | lift_lets -underBinder | with_reducible apply hgo
    | with_reducible apply Cmd.store_frame | with_reducible apply Cmd.put_frame | with_reducible apply PTab.put_frame
    | with_reducible refine store_frame _ _ _ _ _ ?_ _ (by assumption) | with_reducible apply frame_foldl
    | with_reducible apply frame_foldl_snd | with_reducible apply frame_foldl_snd_snd | split

theorem reserve_frame (c : Cmd) (p : Nat) (m : Manifest) (s : State) (hs : Frame s0 s) :
    ∀ z, (reserve c p m s) = .ok z → Frame s0 z.2 := by
  intro z hz
  unfold reserve at hz
  obtain ⟨⟨es, full, t⟩, ht, hz⟩ := ok_bind hz
  have h1 : Frame s0 t := reserveEntries_frame _ _ _ hs (es, full, t) ht
  cases hz
  exact setRunning_frame _ _ _ (frame_foldl _ _ (fun t r h => pin_frame _ _ _ h) (writeReserved_frame _ _ _ h1))

theorem placeWalk_frame (s : State) (t : Nat) (hs : Frame s0 s) :
    Frame s0 (placeWalk s t) := by
  unfold placeWalk
  repeat' first
    | with_reducible assumption | (intro x; clear_value x) | (intro _) | lift_lets -underBinder
    | with_reducible apply setTile_frame

theorem stepLaunch_frame (c : Cmd) (p : Program) (m : Manifest) (s : State) (hs : Frame s0 s) :
    Frame s0 (stepLaunch c p m s) := by
  unfold stepLaunch
  repeat' first
    | with_reducible assumption | (intro _) | lift_lets -underBinder | with_reducible apply placeWalk_frame
    | with_reducible apply startTile_frame | with_reducible apply updCmd_frame | with_reducible apply frame_foldl

theorem stepGo_frame (c : Cmd) (p : Program) (part : Nat) (m : Manifest) (s : State) (hs : Frame s0 s) :
    Frame s0 (stepGo c p part m s) := by
  unfold stepGo
  repeat' first
    | with_reducible assumption
    | (intro x; clear_value (hxv : x = _); with_reducible refine frame_let (s0 := s0) hxv ?_ fun hx => ?_)
    | (intro x; clear_value x) | (intro _) | lift_lets -underBinder | with_reducible apply waitCmd_frame
    | with_reducible apply resumeCmd_frame | with_reducible apply Cmd.gate_frame
    | with_reducible apply Cmd.reads_frame | with_reducible refine reserve_frame _ _ _ _ ?_ _ (by assumption)
    | with_reducible apply stepLaunch_frame | split

theorem releaseStep_frame (p : Nat) (m : Manifest) (s : State) (hs : Frame s0 s) :
    Frame s0 (releaseStep p m s) := by
  unfold releaseStep
  repeat' first
    | with_reducible assumption
    | (intro x; clear_value (hxv : x = _); with_reducible refine frame_let (s0 := s0) hxv ?_ fun hx => ?_)
    | (intro x; clear_value x) | (intro _) | lift_lets -underBinder | with_reducible apply unpin_frame
    | with_reducible apply setRequest_frame | with_reducible apply frame_foldl | with_reducible apply frame_foldl_snd
    | with_reducible apply frame_foldl_snd_snd | split | with_reducible apply Frame.upd

theorem execStepRun_frame (cmd : Nat) (s : State) (hs : Frame s0 s) :
    FrameO s0 (execStepRun cmd s) := by
  unfold execStepRun
  repeat' first
    | with_reducible assumption | exact trivial
    | (intro x; clear_value (hxv : x = _); with_reducible refine frame_let (s0 := s0) hxv ?_ fun hx => ?_)
    | (intro x; clear_value x) | (intro _) | lift_lets -underBinder | with_reducible apply FrameO.next
    | with_reducible apply onCmd_frame | with_reducible apply stepGo_frame | with_reducible apply rejectCmd_frame
    | with_reducible apply releaseStep_frame | with_reducible apply judged_frame
    | with_reducible apply setRunning_frame | split | with_reducible apply Frame.upd

theorem settleEntry_frame (e : PlanEntry) (produced : Nat) (turnDone : Bool) (t : Nat) (s : State) (hs : Frame s0 s) :
    Frame s0 (settleEntry e produced turnDone t s) := by
  unfold settleEntry
  repeat' first
    | with_reducible assumption
    | (intro x; clear_value (hxv : x = _); with_reducible refine frame_let (s0 := s0) hxv ?_ fun hx => ?_)
    | (intro x; clear_value x) | (intro _) | lift_lets -underBinder | with_reducible apply setRequest_frame
    | with_reducible apply setCustomer_frame | split

theorem settleRun_frame (c : Cmd) (p : Nat) (m : Manifest) (s : State) (hs : Frame s0 s) :
    Frame s0 (settleRun c p m s) := by
  unfold settleRun
  repeat' first
    | with_reducible assumption
    | (intro x; clear_value (hxv : x = _); with_reducible refine frame_let (s0 := s0) hxv ?_ fun hx => ?_)
    | (intro x; clear_value (hxv : x = _); with_reducible refine frame_let_snd (s0 := s0) hxv ?_ fun hx => ?_)
    | (intro x; clear_value x) | (intro _) | lift_lets -underBinder | with_reducible apply Cmd.fetch_frame
    | with_reducible apply sealPage_frame | with_reducible apply detectFall_frame
    | with_reducible apply settleEntry_frame | with_reducible apply releaseStep_frame
    | with_reducible refine fetch_frame _ _ _ _ _ _ _ ?_ _ (by assumption) | with_reducible apply frame_foldl
    | with_reducible apply frame_foldl_snd | with_reducible apply frame_foldl_snd_snd | split

theorem settleStep_frame (c : Cmd) (p : Nat) (m : Manifest) (s : State) (hs : Frame s0 s) :
    Frame s0 (settleStep c p m s) := by
  unfold settleStep
  repeat' first
    | with_reducible assumption | (intro _) | lift_lets -underBinder | with_reducible apply doneCmd_frame
    | with_reducible apply settleRun_frame

theorem execStepRunSettle_frame (cmd : Nat) (s : State) (hs : Frame s0 s) :
    FrameO s0 (execStepRunSettle cmd s) := by
  unfold execStepRunSettle
  repeat' first
    | with_reducible assumption | exact trivial | (intro _) | lift_lets -underBinder
    | with_reducible apply FrameO.next | with_reducible apply onCmd_frame | with_reducible apply Cmd.gate_frame
    | with_reducible apply Cmd.reads_frame | with_reducible apply settleStep_frame | split

end Sys2Proof.Machine
end

