-- ==== Sys2Proof/Laws/FrameJobs.lean ====
section
/-!
SUPPORT. The frame of every operation of jobs, tenant switches, timeouts, weights and shipments: see Laws/Frame.lean.
-/

namespace Sys2Proof.Machine

variable {s0 : State}

theorem setPart_frame (s : State) (p : Nat) (x : Part) (hs : Frame s0 s) :
    Frame s0 (setPart s p x) := by
  unfold setPart
  repeat' first
    | with_reducible assumption | (intro _) | lift_lets -underBinder | split | with_reducible apply Frame.upd

theorem startLockout_frame (s : State) (hs : Frame s0 s) :
    Frame s0 (startLockout s) := by
  unfold startLockout
  repeat' first
    | with_reducible assumption | (intro x; clear_value x) | (intro _) | lift_lets -underBinder | split
    | with_reducible apply Frame.upd

theorem execPartitionOpen_frame (cmd : Nat) (s : State) (hs : Frame s0 s) :
    FrameO s0 (execPartitionOpen cmd s) := by
  unfold execPartitionOpen
  repeat' first
    | with_reducible assumption | exact trivial | (intro x; clear_value x) | (intro _) | lift_lets -underBinder
    | with_reducible apply FrameO.next | with_reducible apply onCmd_frame | with_reducible apply judged_frame
    | with_reducible apply doneCmd_frame | with_reducible apply setPart_frame
    | with_reducible apply startLockout_frame | split

theorem beginClose_frame (p : Nat) (cmd : Option ℕ) (s : State) (hs : Frame s0 s) :
    Frame s0 (beginClose p cmd s) := by
  unfold beginClose
  repeat' first
    | with_reducible assumption
    | (intro x; clear_value (hxv : x = _); with_reducible refine frame_let (s0 := s0) hxv ?_ fun hx => ?_)
    | (intro x; clear_value x) | (intro _) | lift_lets -underBinder | with_reducible apply clearPorts_frame
    | with_reducible apply setPart_frame

theorem execPartitionClose_frame (cmd : Nat) (s : State) (hs : Frame s0 s) :
    FrameO s0 (execPartitionClose cmd s) := by
  unfold execPartitionClose
  repeat' first
    | with_reducible assumption | exact trivial | (intro _) | lift_lets -underBinder
    | with_reducible apply FrameO.next | with_reducible apply onCmd_frame | with_reducible apply judged_frame
    | with_reducible apply beginClose_frame | split

theorem execJobOpen_frame (cmd : Nat) (s : State) (hs : Frame s0 s) :
    FrameO s0 (execJobOpen cmd s) := by
  unfold execJobOpen
  repeat' first
    | with_reducible assumption | exact trivial | (intro x; clear_value x) | (intro _) | lift_lets -underBinder
    | with_reducible apply FrameO.next | with_reducible apply onCmd_frame | with_reducible apply judged_frame
    | with_reducible apply doneCmd_frame | split | with_reducible apply Frame.upd

theorem execJobSlice_frame (cmd : Nat) (s : State) (hs : Frame s0 s) :
    FrameO s0 (execJobSlice cmd s) := by
  unfold execJobSlice
  repeat' first
    | with_reducible assumption | exact trivial | (intro x; clear_value x) | (intro _) | lift_lets -underBinder
    | with_reducible apply FrameO.next | with_reducible apply onCmd_frame | with_reducible apply judged_frame
    | with_reducible apply doneCmd_frame | split | with_reducible apply Frame.upd

theorem closeJob_frame (h : Nat) (s : State) (hs : Frame s0 s) :
    Frame s0 (closeJob h s) := by
  unfold closeJob
  repeat' first
    | with_reducible assumption
    | (intro x; clear_value (hxv : x = _); with_reducible refine frame_let (s0 := s0) hxv ?_ fun hx => ?_)
    | (intro x; clear_value x) | (intro _) | lift_lets -underBinder | with_reducible apply unload_frame
    | with_reducible apply closeRequest_frame | with_reducible apply frame_foldl
    | with_reducible apply frame_foldl_snd | with_reducible apply frame_foldl_snd_snd | split
    | with_reducible apply Frame.upd

theorem execJobClose_frame (cmd : Nat) (s : State) (hs : Frame s0 s) :
    FrameO s0 (execJobClose cmd s) := by
  unfold execJobClose
  repeat' first
    | with_reducible assumption | exact trivial | (intro _) | lift_lets -underBinder
    | with_reducible apply FrameO.next | with_reducible apply onCmd_frame | with_reducible apply waitCmd_frame
    | with_reducible apply Cmd.reads_frame | with_reducible apply resumeCmd_frame | with_reducible apply doneCmd_frame
    | with_reducible apply closeJob_frame | split

theorem sliceEnd_frame (p : Nat) (s : State) (hs : Frame s0 s) :
    Frame s0 (sliceEnd p s) := by
  unfold sliceEnd
  repeat' first
    | with_reducible assumption | (intro x; clear_value x) | (intro _) | lift_lets -underBinder
    | with_reducible apply setPart_frame | split

theorem execSliceEnd_frame (part : Nat) (s : State) (hs : Frame s0 s) :
    FrameO s0 (execSliceEnd part s) := by
  unfold execSliceEnd
  repeat' first
    | with_reducible assumption | exact trivial | (intro _) | lift_lets -underBinder
    | with_reducible apply FrameO.next | with_reducible apply onUnit_frame | with_reducible apply whenRunning_frame
    | with_reducible apply sliceEnd_frame

theorem saveRange_frame (j : Job) (t i off n : Nat) (s : State) (hs : Frame s0 s) :
    Frame s0 (saveRange j t i off n s) := by
  unfold saveRange
  repeat' first
    | with_reducible assumption
    | (intro x; clear_value (hxv : x = _); with_reducible refine frame_let (s0 := s0) hxv ?_ fun hx => ?_)
    | (intro x; clear_value x) | (intro _) | lift_lets -underBinder | with_reducible apply charge_frame
    | with_reducible refine store_frame _ _ _ _ _ ?_ _ (by assumption) | with_reducible apply Cmd.store_frame | split

theorem restoreRange_frame (j : Job) (t i off n : Nat) (s : State) (hs : Frame s0 s) :
    Frame s0 (restoreRange j t i off n s) := by
  unfold restoreRange
  repeat' first
    | with_reducible assumption | (intro _) | lift_lets -underBinder
    | with_reducible refine fetch_frame _ _ _ _ _ _ _ ?_ _ (by assumption) | with_reducible apply putTile_frame
    | with_reducible apply Cmd.fetch_frame | split

theorem saveTile_frame (j : Job) (s : State) (ti : ℕ × ℕ) (hs : Frame s0 s) :
    Frame s0 (saveTile j s ti) := by
  unfold saveTile
  extract_lets x ranges t
  have h1 : Frame s0 t := frame_foldl _ _ (fun t r h => saveRange_frame _ _ _ _ _ t h) hs
  clear_value t
  split
  · rename_i u hu
    exact store_frame _ _ _ _ _ h1 _ hu
  · exact h1

theorem saveJob_frame (j : Job) (s : State) (hs : Frame s0 s) :
    Frame s0 (saveJob j s) := by
  unfold saveJob
  repeat' first
    | with_reducible assumption
    | (intro x; clear_value (hxv : x = _); with_reducible refine frame_let (s0 := s0) hxv ?_ fun hx => ?_)
    | (intro x; clear_value x) | (intro _) | lift_lets -underBinder | with_reducible apply saveTile_frame
    | with_reducible apply frame_foldl | with_reducible apply frame_foldl_snd
    | with_reducible apply frame_foldl_snd_snd | split | with_reducible apply Frame.upd

theorem clearTile_frame (s : State) (t : Nat) (hs : Frame s0 s) :
    Frame s0 (clearTile s t) := by
  unfold clearTile
  repeat' first
    | with_reducible assumption
    | (intro x; clear_value (hxv : x = _); with_reducible refine frame_let (s0 := s0) hxv ?_ fun hx => ?_) | (intro _)
    | lift_lets -underBinder | with_reducible apply zeroTile_frame | with_reducible apply setTile_frame

theorem restoreTile_frame (j : Job) (s : State) (ti : ℕ × ℕ) (hs : Frame s0 s) :
    Frame s0 (restoreTile j s ti) := by
  unfold restoreTile
  repeat' first
    | with_reducible assumption
    | (intro x; clear_value (hxv : x = _); with_reducible refine frame_let (s0 := s0) hxv ?_ fun hx => ?_)
    | (intro x; clear_value (hxv : x = _); with_reducible refine frame_let_snd (s0 := s0) hxv ?_ fun hx => ?_)
    | (intro x; clear_value x) | (intro _) | lift_lets -underBinder
    | with_reducible refine fetch_frame _ _ _ _ _ _ _ ?_ _ (by assumption) | with_reducible apply setTile_frame
    | with_reducible apply restoreRange_frame | with_reducible apply Cmd.fetch_frame
    | with_reducible apply frame_foldl | with_reducible apply frame_foldl_snd
    | with_reducible apply frame_foldl_snd_snd | split

theorem emptyTile_frame (s : State) (t : Nat) (hs : Frame s0 s) :
    Frame s0 (emptyTile s t) := by
  unfold emptyTile
  repeat' first
    | with_reducible assumption
    | (intro x; clear_value (hxv : x = _); with_reducible refine frame_let (s0 := s0) hxv ?_ fun hx => ?_)
    | (intro x; clear_value x) | (intro _) | lift_lets -underBinder | with_reducible apply clearTile_frame
    | with_reducible apply setTile_frame

theorem activate_frame (j : Job) (s : State) (hs : Frame s0 s) :
    Frame s0 (activate j s) := by
  unfold activate
  repeat' first
    | with_reducible assumption
    | (intro x; clear_value (hxv : x = _); with_reducible refine frame_let (s0 := s0) hxv ?_ fun hx => ?_)
    | (intro x; clear_value x) | (intro _) | lift_lets -underBinder | with_reducible apply emptyTile_frame
    | with_reducible apply restoreTile_frame | with_reducible apply setPart_frame | with_reducible apply frame_foldl
    | with_reducible apply frame_foldl_snd | with_reducible apply frame_foldl_snd_snd | split
    | with_reducible apply Frame.upd

theorem jobSwitch_frame (p : Nat) (s : State) (hs : Frame s0 s) :
    Frame s0 (jobSwitch p s) := by
  unfold jobSwitch
  repeat' first
    | with_reducible assumption | (intro x; clear_value x) | (intro _) | lift_lets -underBinder
    | with_reducible apply activate_frame | with_reducible apply setPart_frame
    | with_reducible apply noteJobFault_frame | with_reducible apply saveJob_frame | split

theorem execJobSwitch_frame (part : Nat) (s : State) (hs : Frame s0 s) :
    FrameO s0 (execJobSwitch part s) := by
  unfold execJobSwitch
  repeat' first
    | with_reducible assumption | exact trivial | (intro _) | lift_lets -underBinder
    | with_reducible apply FrameO.next | with_reducible apply onUnit_frame | with_reducible apply whenRunning_frame
    | with_reducible apply jobSwitch_frame | split

theorem clearSsq_frame (s : State) (k : Nat) (hs : Frame s0 s) :
    Frame s0 (clearSsq s k) := by
  unfold clearSsq
  repeat' first
    | with_reducible assumption
    | (intro x; clear_value (hxv : x = _); with_reducible refine frame_let (s0 := s0) hxv ?_ fun hx => ?_)
    | (intro x; clear_value x) | (intro _) | lift_lets -underBinder | with_reducible apply haltStack_frame
    | with_reducible apply setStack_frame

theorem endSpdm_frame (fn : Nat) (s : State) (hs : Frame s0 s) :
    Frame s0 (endSpdm fn s) := by
  unfold endSpdm
  repeat' first
    | with_reducible assumption
    | (intro x; clear_value (hxv : x = _); with_reducible refine frame_let (s0 := s0) hxv ?_ fun hx => ?_)
    | (intro x; clear_value x) | (intro _) | lift_lets -underBinder | with_reducible apply setBounce_frame | split
    | with_reducible apply Frame.upd

theorem clearIod_frame (p : Nat) (s : State) (hs : Frame s0 s) :
    Frame s0 (clearIod p s) := by
  unfold clearIod
  repeat' first
    | with_reducible assumption
    | (intro x; clear_value (hxv : x = _); with_reducible refine frame_let (s0 := s0) hxv ?_ fun hx => ?_)
    | (intro x; clear_value x) | (intro _) | lift_lets -underBinder | with_reducible apply setBounce_frame
    | with_reducible apply setPart_frame | split | with_reducible apply Frame.upd

theorem switchCleared_frame (p : Nat) (s : State) (hs : Frame s0 s) :
    Frame s0 (switchCleared p s) := by
  unfold switchCleared
  repeat' first
    | with_reducible assumption
    | (intro x; clear_value (hxv : x = _); with_reducible refine frame_let (s0 := s0) hxv ?_ fun hx => ?_)
    | (intro x; clear_value x) | (intro _) | lift_lets -underBinder | with_reducible apply clearTile_frame
    | with_reducible apply clearSsq_frame | with_reducible apply clearIod_frame | with_reducible apply endSpdm_frame
    | with_reducible apply startRekey_frame | with_reducible apply clearPorts_frame
    | with_reducible apply setStack_frame | with_reducible apply setPart_frame | with_reducible apply frame_foldl
    | with_reducible apply frame_foldl_snd | with_reducible apply frame_foldl_snd_snd | split

theorem execTenantSwitchClearDone_frame (part : Nat) (s : State) (hs : Frame s0 s) :
    FrameO s0 (execTenantSwitchClearDone part s) := by
  unfold execTenantSwitchClearDone
  repeat' first
    | with_reducible assumption | exact trivial | (intro _) | lift_lets -underBinder
    | with_reducible apply FrameO.next | with_reducible apply onUnit_frame | with_reducible apply switchCleared_frame
    | split

theorem zeroWhole_frame (s : State) (k : Nat) (hs : Frame s0 s) :
    Frame s0 (zeroWhole s k) := by
  unfold zeroWhole
  repeat' first
    | with_reducible assumption | (intro _) | lift_lets -underBinder | with_reducible apply zeroPages_frame

theorem endLockout_frame (s : State) (hs : Frame s0 s) :
    Frame s0 (endLockout s) := by
  unfold endLockout
  repeat' first
    | with_reducible assumption | (intro x; clear_value x) | (intro _) | lift_lets -underBinder | split
    | with_reducible apply Frame.upd

theorem closeDone_frame (p : Nat) (s : State) (hs : Frame s0 s) :
    Frame s0 (closeDone p s) := by
  unfold closeDone
  repeat' first
    | with_reducible assumption
    | (intro x; clear_value (hxv : x = _); with_reducible refine frame_let (s0 := s0) hxv ?_ fun hx => ?_)
    | (intro x; clear_value x) | (intro _) | lift_lets -underBinder | with_reducible apply endLockout_frame
    | with_reducible apply setPart_frame | with_reducible apply setPool_frame | with_reducible apply doneCmd_frame
    | split

theorem openDone_frame (p : Nat) (s : State) (hs : Frame s0 s) :
    Frame s0 (openDone p s) := by
  unfold openDone
  repeat' first
    | with_reducible assumption
    | (intro x; clear_value (hxv : x = _); with_reducible refine frame_let (s0 := s0) hxv ?_ fun hx => ?_)
    | (intro x; clear_value x) | (intro _) | lift_lets -underBinder | with_reducible apply setPart_frame
    | with_reducible apply doneCmd_frame | split

theorem switchDone_frame (p : Nat) (s : State) (hs : Frame s0 s) :
    Frame s0 (switchDone p s) := by
  unfold switchDone
  repeat' first
    | with_reducible assumption
    | (intro x; clear_value (hxv : x = _); with_reducible refine frame_let (s0 := s0) hxv ?_ fun hx => ?_)
    | (intro x; clear_value x) | (intro _) | lift_lets -underBinder | with_reducible apply raise_frame
    | with_reducible apply zeroWhole_frame | with_reducible apply releaseHeld_frame
    | with_reducible apply closeDone_frame | with_reducible apply openDone_frame | with_reducible apply frame_foldl
    | with_reducible apply frame_foldl_snd | with_reducible apply frame_foldl_snd_snd | split

theorem execTenantSwitchMemoryDone_frame (part : Nat) (s : State) (hs : Frame s0 s) :
    FrameO s0 (execTenantSwitchMemoryDone part s) := by
  unfold execTenantSwitchMemoryDone
  repeat' first
    | with_reducible assumption | exact trivial | (intro _) | lift_lets -underBinder
    | with_reducible apply FrameO.next | with_reducible apply onUnit_frame | with_reducible apply switchDone_frame
    | split

theorem execScrubStatus_frame (cmd : Nat) (s : State) (hs : Frame s0 s) :
    FrameO s0 (execScrubStatus cmd s) := by
  unfold execScrubStatus
  repeat' first
    | with_reducible assumption | exact trivial | (intro _) | lift_lets -underBinder
    | with_reducible apply FrameO.next | with_reducible apply onCmd_frame | with_reducible apply judged_frame
    | with_reducible apply doneCmd_frame

theorem freeBytes_frame (n : Nat) (s : State) (hs : Frame s0 s) :
    Frame s0 (freeBytes n s).2 := by
  unfold freeBytes
  repeat' first
    | with_reducible assumption | (intro _) | lift_lets -underBinder | split | with_reducible apply Frame.upd

theorem spoil_frame (c : Cmd) (s : State) (hs : Frame s0 s) :
    Frame s0 (spoil c s) := by
  unfold spoil
  repeat' first
    | with_reducible assumption
    | (intro x; clear_value (hxv : x = _); with_reducible refine frame_let_snd (s0 := s0) hxv ?_ fun hx => ?_)
    | (intro _) | lift_lets -underBinder | with_reducible apply freeBytes_frame | with_reducible apply putPieces_frame
    | with_reducible apply frame_foldl | with_reducible apply frame_foldl_snd
    | with_reducible apply frame_foldl_snd_snd | split

theorem noteFaults_frame (cmd : Option ℕ) (g : Got) (s : State) (hs : Frame s0 s) :
    Frame s0 (noteFaults cmd g s) := by
  unfold noteFaults
  repeat' first
    | with_reducible assumption | (intro _) | lift_lets -underBinder | with_reducible apply report_frame
    | with_reducible apply frame_foldl

theorem readQuiet_frame (cmd : Option ℕ) (p : Nat) (a : W64) (n : Nat) (s : State) (hs : Frame s0 s) :
    ∀ z, (readQuiet cmd p a n s) = .ok z → Frame s0 z.2 := by
  intro z hz
  unfold readQuiet at hz
  try dsimp only at hz
  repeat' first
    | with_reducible assumption | with_reducible cases hz | (obtain ⟨_, _, rfl⟩ := Option.map_eq_some_iff.1 hz)
    | split at hz | (dsimp only [pure, Except.pure] at hz) | (intro _) | lift_lets -underBinder
    | with_reducible apply getPieces_frame | with_reducible apply noteFaults_frame

theorem blockDigest_frame (w : Registration) (p : Nat) (s : State) (hs : Frame s0 s) :
    ∀ z, (blockDigest w p s) = .ok z → Frame s0 z.2 := by
  intro z hz
  unfold blockDigest at hz
  obtain ⟨⟨g, u⟩, h1, hz⟩ := ok_bind hz
  dsimp only at hz
  split at hz <;> cases hz
  exact readQuiet_frame _ _ _ _ _ hs _ h1

theorem repairPage_frame (w : Registration) (p : Nat) (digest : List Byte) (s : State) (hs : Frame s0 s) :
    ∀ z, (repairPage w p digest s) = .ok z → Frame s0 z := by
  intro z hz
  unfold repairPage at hz
  dsimp only at hz
  split at hz
  · obtain ⟨_, h, _⟩ := ok_bind hz
    cases h
  · obtain ⟨⟨g, u⟩, h1, hz⟩ := ok_bind hz
    have hu : Frame s0 u := readQuiet_frame _ _ _ _ _ hs _ h1
    dsimp only at hz
    split at hz
    · obtain ⟨_, h, _⟩ := ok_bind hz
      cases h
    · split at hz
      · rename_i t ht
        cases hz
        exact Frame.upd (store_frame _ _ _ _ _ hu _ ht)
      · cases hz

theorem repairFailed_frame (s : State) (hs : Frame s0 s) :
    Frame s0 (repairFailed s) := by
  unfold repairFailed
  repeat' first
    | with_reducible assumption | (intro x; clear_value x) | (intro _) | lift_lets -underBinder
    | with_reducible apply raise_frame | split | with_reducible apply Frame.upd

theorem verifyPage_frame (c : Cmd) (w : Registration) (block : List Byte) (p : Nat) (s : State) (hs : Frame s0 s) :
    ∀ z, (verifyPage c w block p s) = .ok z → Frame s0 z.2.2 := by
  intro z hz
  unfold verifyPage at hz
  obtain ⟨⟨g, u⟩, h1, hz⟩ := ok_bind hz
  have hu : Frame s0 u := readQuiet_frame _ _ _ _ _ hs _ h1
  dsimp only at hz
  have hv := updCmd_frame c.id (fun x => { x with corrected := x.corrected + g.corrected }) u hu
  generalize updCmd c.id (fun x => { x with corrected := x.corrected + g.corrected }) u = v at hz hv
  split at hz
  · cases hz; exact hv
  · split at hz
    · rename_i t ht
      cases hz
      exact repairPage_frame _ _ _ _ hv _ ht
    · cases hz
    · cases hz
      dsimp only
      split
      · exact hv
      · exact repairFailed_frame _ hv

theorem verifyPages_frame (c : Cmd) (w : Registration) (block : List Byte) (x3 : List ℕ) (x4 : State)
    (hx4 : Frame s0 x4) :
    ∀ z, (verifyPages c w block x3 x4) = .ok z → Frame s0 z.2.2 := by
  induction x3 generalizing x4 with
  | nil => intro z hz; cases hz; exact hx4
  | cons p ps ih =>
    intro z hz
    unfold verifyPages at hz
    obtain ⟨⟨miss, bad, u⟩, h1, hz⟩ := ok_bind hz
    dsimp only at hz
    obtain ⟨⟨m, b, v⟩, h2, hz⟩ := ok_bind hz
    cases hz
    exact ih _ (verifyPage_frame _ _ _ _ _ hx4 _ h1) (m, b, v) h2

theorem verifySome_frame (c : Cmd) (w : Registration) (block : List Byte) (x3 : List ℕ) (x4 : State)
    (hx4 : Frame s0 x4) :
    Frame s0 (verifySome c w block x3 x4).2 := by
  induction x3 generalizing x4 with
  | nil =>
    unfold verifySome
    try dsimp only
    repeat' with_reducible assumption
  | cons x xs ih =>
    unfold verifySome
    try dsimp only
    repeat' first
      | with_reducible assumption | (intro _) | lift_lets -underBinder
      | with_reducible refine verifyPage_frame _ _ _ _ _ ?_ _ (by assumption) | with_reducible apply ih | split

theorem verifyTimeout_frame (c : Cmd) (s : State) (hs : Frame s0 s) :
    Frame s0 (verifyTimeout c s).2 := by
  unfold verifyTimeout
  repeat' first
    | with_reducible assumption
    | (intro x; clear_value (hxv : x = _); with_reducible refine frame_let (s0 := s0) hxv ?_ fun hx => ?_) | (intro _)
    | lift_lets -underBinder | with_reducible apply verifySome_frame | split | with_reducible apply Frame.upd

theorem letGo_frame (c : Cmd) (s : State) (hs : Frame s0 s) :
    Frame s0 (letGo c s) := by
  unfold letGo
  repeat' first
    | with_reducible assumption | (intro x; clear_value x) | (intro _) | lift_lets -underBinder
    | with_reducible apply PTab.write_frame | split | with_reducible apply Frame.upd

theorem endStep_frame (c : Cmd) (lost : Bool) (s : State) (hs : Frame s0 s) :
    Frame s0 (endStep c lost s) := by
  unfold endStep
  repeat' first
    | with_reducible assumption | (intro _) | lift_lets -underBinder | with_reducible apply releaseStep_frame
    | with_reducible apply settleRun_frame | split

theorem endTraffic_frame (c : Cmd) (s : State) (hs : Frame s0 s) :
    Frame s0 (endTraffic c s) := by
  unfold endTraffic
  repeat' first
    | with_reducible assumption | (intro _) | lift_lets -underBinder | with_reducible apply rewriteBursts_frame
    | split | with_reducible apply Frame.upd

theorem timeoutEnd_frame (c : Cmd) (s : State) (hs : Frame s0 s) :
    Frame s0 (timeoutEnd c s) := by
  unfold timeoutEnd
  repeat' first
    | with_reducible assumption
    | (intro x; clear_value (hxv : x = _); with_reducible refine frame_let (s0 := s0) hxv ?_ fun hx => ?_)
    | (intro x; clear_value (hxv : x = _); with_reducible refine frame_let_snd (s0 := s0) hxv ?_ fun hx => ?_)
    | (intro x; clear_value x) | (intro _) | lift_lets -underBinder | with_reducible apply verifyTimeout_frame
    | with_reducible apply finishCmd_frame | with_reducible apply spoil_frame | with_reducible apply endTraffic_frame
    | with_reducible apply letGo_frame | with_reducible apply endStep_frame | split | with_reducible apply Frame.upd

theorem digestPages_frame (c : Cmd) (a : W64) (bytes : Nat) (x3 : List ℕ) (x4 : State) (hx4 : Frame s0 x4) :
    Frame s0 (digestPages c a bytes x3 x4).2 := by
  induction x3 generalizing x4 with
  | nil =>
    unfold digestPages
    try dsimp only
    repeat' with_reducible assumption
  | cons x xs ih =>
    unfold digestPages
    try dsimp only
    repeat' first
      | with_reducible assumption | (intro _) | lift_lets -underBinder
      | with_reducible refine fetch_frame _ _ _ _ _ _ _ ?_ _ (by assumption) | with_reducible apply Cmd.fetch_frame
      | with_reducible apply ih

theorem registerWeights_frame (c : Cmd) (block : List Byte) (s : State) (hs : Frame s0 s) :
    Frame s0 (registerWeights c block s) := by
  unfold registerWeights
  repeat' first
    | with_reducible assumption
    | (intro x; clear_value (hxv : x = _); with_reducible refine frame_let (s0 := s0) hxv ?_ fun hx => ?_)
    | (intro x; clear_value (hxv : x = _); with_reducible refine frame_let_snd (s0 := s0) hxv ?_ fun hx => ?_)
    | (intro x; clear_value x) | (intro _) | lift_lets -underBinder | with_reducible apply digestPages_frame
    | with_reducible apply finishCmd_frame | with_reducible apply doneCmd_frame | split
    | with_reducible apply Frame.upd

theorem execRegisterWeights_frame (cmd : Nat) (s : State) (hs : Frame s0 s) :
    FrameO s0 (execRegisterWeights cmd s) := by
  unfold execRegisterWeights
  repeat' first
    | with_reducible assumption | exact trivial | (intro _) | lift_lets -underBinder
    | with_reducible apply FrameO.next | with_reducible apply onCmd_frame | with_reducible apply doneCmd_frame
    | with_reducible apply judged_frame | with_reducible apply Cmd.gate_frame
    | with_reducible apply registerWeights_frame | split

theorem execUnregisterWeights_frame (cmd : Nat) (s : State) (hs : Frame s0 s) :
    FrameO s0 (execUnregisterWeights cmd s) := by
  unfold execUnregisterWeights
  repeat' first
    | with_reducible assumption | exact trivial | (intro x; clear_value x) | (intro _) | lift_lets -underBinder
    | with_reducible apply FrameO.next | with_reducible apply onCmd_frame | with_reducible apply judged_frame
    | with_reducible apply doneCmd_frame | split | with_reducible apply Frame.upd

theorem execVerifyWeights_frame (cmd : Nat) (s : State) (hs : Frame s0 s) :
    FrameO s0 (execVerifyWeights cmd s) := by
  unfold execVerifyWeights
  repeat' first
    | with_reducible assumption | exact trivial | (intro _) | lift_lets -underBinder
    | with_reducible apply FrameO.next | with_reducible apply onCmd_frame | with_reducible apply judged_frame
    | with_reducible apply Cmd.gate_frame | with_reducible refine verifyPages_frame _ _ _ _ _ ?_ _ (by assumption)
    | with_reducible apply finishCmd_frame | split

theorem retryCmd_frame (id cls : Nat) (s : State) (hs : Frame s0 s) :
    Frame s0 (retryCmd id cls s) := by
  unfold retryCmd
  repeat' first
    | with_reducible assumption
    | (intro x; clear_value (hxv : x = _); with_reducible refine frame_let (s0 := s0) hxv ?_ fun hx => ?_)
    | (intro x; clear_value x) | (intro _) | lift_lets -underBinder | with_reducible apply haltFlights_frame
    | with_reducible apply stopTile_frame | with_reducible apply updCmd_frame | with_reducible apply PTab.write_frame
    | with_reducible apply frame_foldl | with_reducible apply frame_foldl_snd
    | with_reducible apply frame_foldl_snd_snd | split | with_reducible apply Frame.upd

theorem poisonTile_frame (t first words : Nat) (s : State) (hs : Frame s0 s) :
    Frame s0 (poisonTile t first words s) := by
  unfold poisonTile
  repeat' first
    | with_reducible assumption | (intro x; clear_value x) | (intro _) | lift_lets -underBinder
    | with_reducible apply putTile_frame

theorem poisonStack_frame (first words : Nat) (s : State) (hs : Frame s0 s) :
    Frame s0 (poisonStack first words s) := by
  unfold poisonStack
  repeat' first
    | with_reducible assumption | (intro x; clear_value x) | (intro _) | lift_lets -underBinder
    | with_reducible apply bankWrite_frame

theorem parityFault_frame (cmd : Option ℕ) (s : State) (hs : Frame s0 s) :
    Frame s0 (parityFault cmd s) := by
  unfold parityFault
  repeat' first
    | with_reducible assumption
    | (intro x; clear_value (hxv : x = _); with_reducible refine frame_let (s0 := s0) hxv ?_ fun hx => ?_)
    | (intro x; clear_value x) | (intro _) | lift_lets -underBinder | with_reducible apply report_frame
    | with_reducible apply poisonStack_frame | with_reducible apply updCmd_frame
    | with_reducible apply poisonTile_frame | split | with_reducible apply Frame.upd

theorem helperFault_frame (s : State) (hs : Frame s0 s) :
    Frame s0 (helperFault s) := by
  unfold helperFault
  repeat' first
    | with_reducible assumption | (intro _) | lift_lets -underBinder | with_reducible apply report_frame | split
    | with_reducible apply Frame.upd

theorem iodFault_frame (cls id : Nat) (s : State) (hs : Frame s0 s) :
    Frame s0 (iodFault cls id s) := by
  unfold iodFault
  repeat' first
    | with_reducible assumption | (intro x; clear_value x) | (intro _) | lift_lets -underBinder
    | with_reducible apply charge_frame | split | with_reducible apply Frame.upd

theorem commandRetry_frame (id cls : Nat) (c : Cmd) (s : State) (hs : Frame s0 s) :
    Frame s0 (commandRetry id cls c s) := by
  unfold commandRetry
  repeat' first
    | with_reducible assumption
    | (intro x; clear_value (hxv : x = _); with_reducible refine frame_let (s0 := s0) hxv ?_ fun hx => ?_) | (intro _)
    | lift_lets -underBinder | with_reducible apply parityFault_frame | with_reducible apply iodFault_frame
    | with_reducible apply retryCmd_frame | split

theorem execCommandRetry_frame (cmd cls : Nat) (s : State) (hs : Frame s0 s) :
    FrameO s0 (execCommandRetry cmd cls s) := by
  unfold execCommandRetry
  repeat' first
    | with_reducible assumption | exact trivial | (intro _) | lift_lets -underBinder
    | with_reducible apply FrameO.next | with_reducible apply whenRunning_frame
    | with_reducible apply commandRetry_frame | with_reducible apply parityFault_frame
    | with_reducible apply helperFault_frame | split

theorem retryReaders_frame (ids : List ℕ) (s : State) (hs : Frame s0 s) :
    Frame s0 (retryReaders ids s) := by
  unfold retryReaders
  repeat' first
    | with_reducible assumption | (intro _) | lift_lets -underBinder | with_reducible apply retryCmd_frame
    | with_reducible apply frame_foldl | with_reducible apply frame_foldl_snd
    | with_reducible apply frame_foldl_snd_snd | split

theorem weightRepair_frame (h p : Nat) (answers : Bool) (s : State) (hs : Frame s0 s) :
    Frame s0 (weightRepair h p answers s) := by
  unfold weightRepair
  extract_lets mine ids fs s'
  have hs' : Frame s0 s' := Frame.upd hs
  clear_value s'
  split
  · exact hs
  · split
    · exact hs'
    · rename_i w _
      have hb : ∀ z, (if answers = true then (do let (d, s) ← blockDigest w p s'; repairPage w p d s)
          else .error .bad : Except Balk State) = .ok z → Frame s0 z := by
        intro z hz
        split at hz
        · obtain ⟨⟨d, u⟩, h1, hz⟩ := ok_bind hz
          exact repairPage_frame _ _ _ _ (blockDigest_frame _ _ _ hs' _ h1) _ hz
        · cases hz
      split
      · rename_i t ht
        exact retryReaders_frame _ _ (hb _ ht)
      · exact hs
      · exact frame_foldl _ _ (fun t x ht => updCmd_frame _ _ _ ht) (repairFailed_frame _ hs')

theorem execWeightPageRepair_frame (handle page : Nat) (answers : Bool) (s : State) (hs : Frame s0 s) :
    FrameO s0 (execWeightPageRepair handle page answers s) := by
  unfold execWeightPageRepair
  repeat' first
    | with_reducible assumption | exact trivial | (intro _) | lift_lets -underBinder
    | with_reducible apply FrameO.next | with_reducible apply whenRunning_frame
    | with_reducible apply weightRepair_frame

theorem repairTimeout_frame (c : Cmd) (s : State) (hs : Frame s0 s) :
    Frame s0 (repairTimeout c s) := by
  unfold repairTimeout
  repeat' first
    | with_reducible assumption
    | (intro x; clear_value (hxv : x = _); with_reducible refine frame_let (s0 := s0) hxv ?_ fun hx => ?_)
    | (intro x; clear_value x) | (intro _) | lift_lets -underBinder | with_reducible apply weightRepair_frame
    | with_reducible apply finishCmd_frame | with_reducible apply stopTile_frame
    | with_reducible apply haltFlights_frame | with_reducible apply frame_foldl | with_reducible apply frame_foldl_snd
    | with_reducible apply frame_foldl_snd_snd | split

theorem unitHang_frame (u : HangUnit) (cmd : Option ℕ) (s : State) (hs : Frame s0 s) :
    Frame s0 (unitHang u cmd s) := by
  unfold unitHang
  repeat' first
    | with_reducible assumption
    | (intro x; clear_value (hxv : x = _); with_reducible refine frame_let (s0 := s0) hxv ?_ fun hx => ?_)
    | (intro x; clear_value x) | (intro _) | lift_lets -underBinder | with_reducible apply report_frame
    | with_reducible apply haltFlights_frame | with_reducible apply timeoutEnd_frame
    | with_reducible apply stopTile_frame | with_reducible apply frame_foldl | with_reducible apply frame_foldl_snd
    | with_reducible apply frame_foldl_snd_snd | split

theorem execUnitHang_frame (unit : HangUnit) (cmd : Option ℕ) (s : State) (hs : Frame s0 s) :
    FrameO s0 (execUnitHang unit cmd s) := by
  unfold execUnitHang
  repeat' first
    | with_reducible assumption | exact trivial | (intro _) | lift_lets -underBinder
    | with_reducible apply FrameO.next | with_reducible apply whenRunning_frame | with_reducible apply unitHang_frame
    | split

theorem jobFault_frame (s : State) (hs : Frame s0 s) :
    Frame s0 (jobFault s) := by
  unfold jobFault
  repeat' first
    | with_reducible assumption | (intro x; clear_value x) | (intro _) | lift_lets -underBinder
    | with_reducible apply beginRestart_frame | with_reducible apply report_frame | split
    | with_reducible apply Frame.upd

theorem execJobFault_frame (s : State) (hs : Frame s0 s) :
    FrameO s0 (execJobFault s) := by
  unfold execJobFault
  repeat' first
    | with_reducible assumption | exact trivial | (intro _) | lift_lets -underBinder
    | with_reducible apply FrameO.next | with_reducible apply whenRunning_frame | with_reducible apply jobFault_frame

theorem execFaultLog_frame (cmd : Nat) (s : State) (hs : Frame s0 s) :
    FrameO s0 (execFaultLog cmd s) := by
  unfold execFaultLog
  repeat' first
    | with_reducible assumption | exact trivial | (intro x; clear_value x) | (intro _) | lift_lets -underBinder
    | with_reducible apply FrameO.next | with_reducible apply onCmd_frame | with_reducible apply doneCmd_frame
    | with_reducible apply judged_frame | with_reducible apply Cmd.reaching_frame
    | with_reducible apply Cmd.writeAt_frame | split

theorem collect_frame (r : List Byte) (s : State) (hs : Frame s0 s) :
    Frame s0 (collect r s) := by
  unfold collect
  repeat' first
    | with_reducible assumption | (intro x; clear_value x) | (intro _) | lift_lets -underBinder | split
    | with_reducible apply Frame.upd

theorem exportRecord_frame (s : State) (hs : Frame s0 s) :
    Frame s0 (exportRecord s) := by
  unfold exportRecord
  repeat' first
    | with_reducible assumption
    | (intro x; clear_value (hxv : x = _); with_reducible refine frame_let (s0 := s0) hxv ?_ fun hx => ?_)
    | (intro x; clear_value x) | (intro _) | lift_lets -underBinder | with_reducible apply collect_frame
    | with_reducible apply sendTow_frame | split | with_reducible apply Frame.upd

theorem execFaultRecordExport_frame (s : State) (hs : Frame s0 s) :
    FrameO s0 (execFaultRecordExport s) := by
  unfold execFaultRecordExport
  repeat' first
    | with_reducible assumption | exact trivial | (intro _) | lift_lets -underBinder
    | with_reducible apply FrameO.next | with_reducible apply whenRunning_frame
    | with_reducible apply exportRecord_frame

theorem execFaultRecordReceive_frame (record : List Byte) (s : State) (hs : Frame s0 s) :
    FrameO s0 (execFaultRecordReceive record s) := by
  unfold execFaultRecordReceive
  repeat' first
    | with_reducible assumption | exact trivial | (intro _) | lift_lets -underBinder
    | with_reducible apply FrameO.next | with_reducible apply whenRunning_frame | with_reducible apply collect_frame

theorem execFaultResponseLoad_frame (cmd : Nat) (s : State) (hs : Frame s0 s) :
    FrameO s0 (execFaultResponseLoad cmd s) := by
  unfold execFaultResponseLoad
  repeat' first
    | with_reducible assumption | exact trivial | (intro x; clear_value x) | (intro _) | lift_lets -underBinder
    | with_reducible apply FrameO.next | with_reducible apply onCmd_frame | with_reducible apply doneCmd_frame
    | with_reducible apply judged_frame | with_reducible apply frame_foldl | with_reducible apply frame_foldl_snd
    | with_reducible apply frame_foldl_snd_snd | split | with_reducible apply Frame.upd

theorem execGuardBandLoad_frame (cmd : Nat) (s : State) (hs : Frame s0 s) :
    FrameO s0 (execGuardBandLoad cmd s) := by
  unfold execGuardBandLoad
  repeat' first
    | with_reducible assumption | exact trivial | (intro x; clear_value x) | (intro _) | lift_lets -underBinder
    | with_reducible apply FrameO.next | with_reducible apply onCmd_frame | with_reducible apply judged_frame
    | with_reducible apply doneCmd_frame | with_reducible apply setPart_frame

theorem shipPage_frame (c : Cmd) (q j e : Nat) (s : State) (hs : Frame s0 s) :
    Frame s0 (shipPage c q j e s).2 := by
  unfold shipPage
  repeat' first
    | with_reducible assumption
    | (intro x; clear_value (hxv : x = _); with_reducible refine frame_let_snd (s0 := s0) hxv ?_ fun hx => ?_)
    | (intro x; clear_value x) | (intro _) | lift_lets -underBinder | with_reducible apply getStack_frame
    | with_reducible apply charge_frame

theorem shipPages_frame (c : Cmd) (x1 : List (ℕ × ℕ × ℕ)) (x2 : State) (hx2 : Frame s0 x2) :
    Frame s0 (shipPages c x1 x2).2 := by
  induction x1 generalizing x2 with
  | nil =>
    unfold shipPages
    try dsimp only
    repeat' with_reducible assumption
  | cons x xs ih =>
    unfold shipPages
    try dsimp only
    repeat' first
      | with_reducible assumption | (intro _) | lift_lets -underBinder | with_reducible apply shipPage_frame
      | with_reducible apply ih

theorem gather_frame (c : Cmd) (r : Request) (t : PTab) (s : State) (hs : Frame s0 s) :
    Frame s0 (gather c r t s).2 := by
  unfold gather
  repeat' first
    | with_reducible assumption
    | (intro x; clear_value (hxv : x = _); with_reducible refine frame_let_snd (s0 := s0) hxv ?_ fun hx => ?_)
    | (intro x; clear_value x) | (intro _) | lift_lets -underBinder | with_reducible apply shipPages_frame

theorem landPage_frame (t : PTab) (g : ShipPage) (s : State) (hs : Frame s0 s) :
    ∀ z, (landPage t g s) = .ok z → Frame s0 z := by
  intro z hz
  unfold landPage at hz
  try dsimp only at hz
  repeat' first
    | with_reducible assumption | with_reducible cases hz | (obtain ⟨_, _, rfl⟩ := Option.map_eq_some_iff.1 hz)
    | split at hz | (dsimp only [pure, Except.pure] at hz) | (intro _) | lift_lets -underBinder
    | with_reducible refine newPage_frame _ _ _ _ _ _ _ ?_ _ (by assumption) | with_reducible apply writePage_frame
    | with_reducible apply putRec_frame | with_reducible apply PTab.put_frame

theorem landPages_frame (t : PTab) (x1 : List ShipPage) (x2 : State) (hx2 : Frame s0 x2) :
    ∀ z, (landPages t x1 x2) = .ok z → Frame s0 z := by
  induction x1 generalizing x2 with
  | nil =>
    intro z hz
    unfold landPages at hz
    try dsimp only at hz
    repeat' first | with_reducible assumption | with_reducible cases hz
  | cons x xs ih =>
    intro z hz
    unfold landPages at hz
    try dsimp only at hz
    repeat' first
      | with_reducible assumption | with_reducible cases hz | (obtain ⟨_, _, rfl⟩ := Option.map_eq_some_iff.1 hz)
      | split at hz | (dsimp only [pure, Except.pure] at hz) | (intro _) | lift_lets -underBinder
      | with_reducible refine landPage_frame _ _ _ ?_ _ (by assumption)
      | with_reducible refine ih _ ?_ _ (by assumption)

theorem land_frame (p : Nat) (x : Shipment) (s : State) (hs : Frame s0 s) :
    ∀ z, (land p x s) = some z → Frame s0 z.2 := by
  intro z hz
  unfold land at hz
  try dsimp only at hz
  repeat' first
    | with_reducible assumption | with_reducible cases hz | (obtain ⟨_, _, rfl⟩ := Option.map_eq_some_iff.1 hz)
    | split at hz | (dsimp only [pure, Except.pure] at hz) | (intro _) | lift_lets -underBinder
    | with_reducible refine landPages_frame _ _ _ ?_ _ (by assumption) | with_reducible apply PTab.write_frame
    | with_reducible apply setRequest_frame

theorem sendBarges_frame (w : Asker) (x1 : Nat) (x2 : W64) (x3 : List Byte) (x4 : State) (hx4 : Frame s0 x4) :
    Frame s0 (sendBarges w x1 x2 x3 x4) := by
  induction x1 generalizing x2 x3 x4 with
  | zero =>
    unfold sendBarges
    try dsimp only
    repeat' with_reducible assumption
  | succ k ih =>
    unfold sendBarges
    try dsimp only
    repeat' first
      | with_reducible assumption | (intro _) | lift_lets -underBinder | with_reducible apply take_frame
      | with_reducible apply ask_frame | with_reducible apply ih | split

theorem shipping_frame (c : Cmd) (r : Request) (t : PTab) (s : State) (go : Shipment → State → State)
    (hs : Frame s0 s) (hgo : ∀ y0 y1, Frame s0 y1 → Frame s0 (go y0 y1)) :
    Frame s0 (shipping c r t s go) := by
  unfold shipping
  repeat' first
    | with_reducible assumption
    | (intro x; clear_value (hxv : x = _); with_reducible refine frame_let_snd (s0 := s0) hxv ?_ fun hx => ?_)
    | (intro _) | lift_lets -underBinder | with_reducible apply hgo | with_reducible apply hgo
    | with_reducible apply Cmd.reads_frame | with_reducible apply Cmd.gate_frame | with_reducible apply gather_frame
    | with_reducible apply finishCmd_frame | split

theorem shipAway_frame (c : Cmd) (r : Request) (t : PTab) (s : State) (hs : Frame s0 s) :
    Frame s0 (shipAway c r t s) := by
  unfold shipAway
  repeat' first
    | with_reducible assumption
    | (intro x; clear_value (hxv : x = _); with_reducible refine frame_let_fun_right (s0 := s0) hxv ?_ fun hgo => ?_)
    | (intro x; clear_value x) | (intro _) | lift_lets -underBinder | with_reducible apply hgo
    | with_reducible apply updCmd_frame | with_reducible apply rejectCmd_frame
    | with_reducible apply remoteQuery_frame | with_reducible apply shipping_frame
    | with_reducible apply sendBarges_frame | split

theorem execShipKv_frame (cmd : Nat) (s : State) (hs : Frame s0 s) :
    FrameO s0 (execShipKv cmd s) := by
  unfold execShipKv
  repeat' first
    | with_reducible assumption | exact trivial | (intro _) | lift_lets -underBinder
    | with_reducible apply FrameO.next | with_reducible apply onCmd_frame | with_reducible apply Cmd.afterSteps_frame
    | with_reducible apply judged_frame | with_reducible apply shipping_frame
    | with_reducible refine land_frame _ _ _ ?_ _ (by assumption) | with_reducible apply rejectCmd_frame
    | with_reducible apply finishCmd_frame | with_reducible apply shipAway_frame | split

theorem shipEvent_frame (e : ShipEvent) (s : State) (hs : Frame s0 s) :
    Frame s0 (shipEvent e s) := by
  unfold shipEvent
  split
  · rename_i x
    have hb : ∀ z, (match shipPart x s with | some p => land p x s | none => some (Mark.notPermitted, s)) = some z →
        Frame s0 z.2 := by
      intro z hz
      split at hz
      · exact land_frame _ _ _ hs z hz
      · cases hz; exact hs
    split
    · exact hs
    · rename_i r hr
      exact sendTow_frame _ _ _ (hb r hr)
  · split
    · split
      · exact finishCmd_frame _ _ _ hs
      · exact hs
    · exact hs

theorem execShipKvDestComplete_frame (event : ShipEvent) (s : State) (hs : Frame s0 s) :
    FrameO s0 (execShipKvDestComplete event s) := by
  unfold execShipKvDestComplete
  repeat' first
    | with_reducible assumption | exact trivial | (intro _) | lift_lets -underBinder
    | with_reducible apply FrameO.next | with_reducible apply whenRunning_frame | with_reducible apply shipEvent_frame

end Sys2Proof.Machine
end

