-- ==== Sys2Proof/Laws/FrameFront.lean ====
section
/-!
SUPPORT. The frame of every operation of the Lockkeeper's front end, restart and time: see Laws/Frame.lean.
-/

namespace Sys2Proof.Machine

variable {s0 : State}

theorem ringBell_frame (fn : Nat) (b : Bell) (s : State) (hs : Frame s0 s) :
    Frame s0 (ringBell fn b s) := by
  unfold ringBell
  repeat' first
    | with_reducible assumption | (intro _) | lift_lets -underBinder | with_reducible apply issue_frame | split

theorem hostStores_frame (l : List (ℕ × Byte)) (s : State) (hs : Frame s0 s) :
    Frame s0 (hostStores l s) := by
  unfold hostStores
  exact Frame.updStore hs fun hw => Store.wf_setHost hw
    (foldl_memSet_wf _ _ _ _ ((Store.wf_iff _).1 hw).2.2.2.2.1)

theorem execSqTailWrite_frame (fn queue value : Nat) (stores : List (ℕ × Byte)) (s : State) (hs : Frame s0 s) :
    FrameO s0 (execSqTailWrite fn queue value stores s) := by
  unfold execSqTailWrite
  repeat' first
    | with_reducible assumption | exact trivial | (intro _) | lift_lets -underBinder
    | with_reducible apply FrameO.next | with_reducible apply onUnit_frame | with_reducible apply ringBell_frame
    | with_reducible apply hostStores_frame | split

theorem execReplyHeadWrite_frame (fn queue value : Nat) (s : State) (hs : Frame s0 s) :
    FrameO s0 (execReplyHeadWrite fn queue value s) := by
  unfold execReplyHeadWrite
  repeat' first
    | with_reducible assumption | exact trivial | (intro _) | lift_lets -underBinder
    | with_reducible apply FrameO.next | with_reducible apply onUnit_frame | with_reducible apply ringBell_frame
    | split

theorem stopQueue_frame (n : Nat) (s : State) (hs : Frame s0 s) :
    Frame s0 (stopQueue n s) := by
  unfold stopQueue
  repeat' first
    | with_reducible assumption | (intro x; clear_value x) | (intro _) | lift_lets -underBinder
    | with_reducible apply raise_frame | with_reducible apply setQueue_frame | split

theorem ringWrite_frame (q : Queue) (a : W64) (bs : List Byte) (ok : Bool) (s : State) (hs : Frame s0 s) :
    Frame s0 (ringWrite q a bs ok s).2 := by
  unfold ringWrite
  repeat' first
    | with_reducible assumption | (intro _) | lift_lets -underBinder | with_reducible apply putPieces_frame | split

theorem putReply_frame (n : Nat) (r : Reply) (ok : Bool) (s : State) (hs : Frame s0 s) :
    Frame s0 (putReply n r ok s).2 := by
  unfold putReply
  repeat' first
    | with_reducible assumption
    | (intro x; clear_value (hxv : x = _); with_reducible refine frame_let_snd (s0 := s0) hxv ?_ fun hx => ?_)
    | (intro x; clear_value x) | (intro _) | lift_lets -underBinder | with_reducible apply ringWrite_frame
    | with_reducible apply setQueue_frame | split

theorem putShadow_frame (n : Nat) (ok : Bool) (s : State) (hs : Frame s0 s) :
    Frame s0 (putShadow n ok s) := by
  unfold putShadow
  repeat' first
    | with_reducible assumption
    | (intro x; clear_value (hxv : x = _); with_reducible refine frame_let_snd (s0 := s0) hxv ?_ fun hx => ?_)
    | (intro x; clear_value x) | (intro _) | lift_lets -underBinder | with_reducible apply ringWrite_frame
    | with_reducible apply stopQueue_frame | split

theorem markDone_frame (n pos : Nat) (s : State) (hs : Frame s0 s) :
    Frame s0 (markDone n pos s) := by
  unfold markDone
  repeat' first
    | with_reducible assumption | (intro x; clear_value x) | (intro _) | lift_lets -underBinder
    | with_reducible apply setQueue_frame

theorem addCmd_frame (c : Cmd) (m : Option Mark) (s : State) (hs : Frame s0 s) :
    Frame s0 (addCmd c m s) := by
  unfold addCmd
  repeat' first
    | with_reducible assumption | (intro x; clear_value x) | (intro _) | lift_lets -underBinder | split
    | with_reducible apply Frame.upd

theorem bindDup_frame (n : Nat) (c : Cmd) (s : State) (hs : Frame s0 s) :
    Frame s0 (bindDup n c s) := by
  unfold bindDup
  repeat' first
    | with_reducible assumption | (intro x; clear_value x) | (intro _) | lift_lets -underBinder
    | with_reducible apply setQueue_frame

theorem judgePacket_frame (n : Nat) (bs : List Byte) (s : State) (hs : Frame s0 s) :
    Frame s0 (judgePacket n bs s) := by
  unfold judgePacket
  repeat' first
    | with_reducible assumption
    | (intro x; clear_value (hxv : x = _); with_reducible refine frame_let (s0 := s0) hxv ?_ fun hx => ?_)
    | (intro x; clear_value x) | (intro _) | lift_lets -underBinder | with_reducible apply setQueue_frame
    | with_reducible apply addCmd_frame | with_reducible apply bindDup_frame | split | with_reducible apply Frame.upd

theorem packetTake_frame (ok : Bool) (s : State) (hs : Frame s0 s) :
    Frame s0 (packetTake ok s) := by
  unfold packetTake
  repeat' first
    | with_reducible assumption
    | (intro x; clear_value (hxv : x = _); with_reducible refine frame_let (s0 := s0) hxv ?_ fun hx => ?_)
    | (intro x; clear_value (hxv : x = _); with_reducible refine frame_let_snd (s0 := s0) hxv ?_ fun hx => ?_)
    | (intro x; clear_value x) | (intro _) | lift_lets -underBinder | with_reducible apply stopQueue_frame
    | with_reducible apply noteWaits_frame | with_reducible apply getPieces_frame | with_reducible apply charge_frame
    | with_reducible apply judgePacket_frame | split

theorem execPacketTake_frame (ok : Bool) (s : State) (hs : Frame s0 s) :
    FrameO s0 (execPacketTake ok s) := by
  unfold execPacketTake
  repeat' first
    | with_reducible assumption | exact trivial | (intro _) | lift_lets -underBinder
    | with_reducible apply FrameO.next | with_reducible apply whenRunning_frame
    | with_reducible apply packetTake_frame | split

theorem beginCmd_frame (c : Cmd) (s : State) (hs : Frame s0 s) :
    Frame s0 (beginCmd c s) := by
  unfold beginCmd
  repeat' first
    | with_reducible assumption
    | (intro x; clear_value (hxv : x = _); with_reducible refine frame_let (s0 := s0) hxv ?_ fun hx => ?_)
    | (intro x; clear_value x) | (intro _) | lift_lets -underBinder | with_reducible apply updCmd_frame
    | with_reducible apply takeSlots_frame | split | with_reducible apply Frame.upd

theorem startWith_frame (c : Cmd) (s : State) (hs : Frame s0 s) :
    Frame s0 (startWith c s) := by
  unfold startWith
  repeat' first
    | with_reducible assumption | (intro _) | lift_lets -underBinder | with_reducible apply rejectCmd_frame
    | with_reducible apply beginCmd_frame | split

theorem takeExt_frame (c : Cmd) (bs : List PByte) (poisoned : Nat) (s : State) (hs : Frame s0 s) :
    Frame s0 (takeExt c bs poisoned s) := by
  unfold takeExt
  repeat' first
    | with_reducible assumption | (intro x; clear_value x) | (intro _) | lift_lets -underBinder
    | with_reducible apply rejectCmd_frame | with_reducible apply startWith_frame | with_reducible apply updCmd_frame
    | split

theorem readExt_frame (c : Cmd) (s : State) (hs : Frame s0 s) :
    Frame s0 (readExt c s) := by
  unfold readExt
  repeat' first
    | with_reducible assumption
    | (intro x; clear_value (hxv : x = _); with_reducible refine frame_let (s0 := s0) hxv ?_ fun hx => ?_)
    | (intro x; clear_value (hxv : x = _); with_reducible refine frame_let_snd (s0 := s0) hxv ?_ fun hx => ?_)
    | (intro x; clear_value x) | (intro _) | lift_lets -underBinder | with_reducible apply rejectCmd_frame
    | with_reducible apply waitCmd_frame | with_reducible apply noteWaits_frame | with_reducible apply getPieces_frame
    | with_reducible apply takeExt_frame | with_reducible apply charge_frame
    | with_reducible apply registerBytes_frame | split | with_reducible apply Frame.upd

theorem commandStart_frame (c : Cmd) (s : State) (hs : Frame s0 s) :
    Frame s0 (commandStart c s) := by
  unfold commandStart
  repeat' first
    | with_reducible assumption | (intro _) | lift_lets -underBinder | with_reducible apply rejectCmd_frame
    | with_reducible apply readExt_frame | with_reducible apply startWith_frame | split

theorem execCommandStart_frame (cmd : Nat) (s : State) (hs : Frame s0 s) :
    FrameO s0 (execCommandStart cmd s) := by
  unfold execCommandStart
  repeat' first
    | with_reducible assumption | exact trivial | (intro _) | lift_lets -underBinder
    | with_reducible apply FrameO.next | with_reducible apply whenRunning_frame
    | with_reducible apply commandStart_frame | split

theorem noteOutcome_frame (id status : Nat) (s : State) (hs : Frame s0 s) :
    Frame s0 (noteOutcome id status s) := by
  unfold noteOutcome
  repeat' first
    | with_reducible assumption | (intro x; clear_value x) | (intro _) | lift_lets -underBinder | split
    | with_reducible apply Frame.upd

theorem keepReply_frame (c : Cmd) (r : Reply) (s : State) (hs : Frame s0 s) :
    Frame s0 (keepReply c r s) := by
  unfold keepReply
  repeat' first
    | with_reducible assumption | (intro x; clear_value x) | (intro _) | lift_lets -underBinder
    | with_reducible apply setQueue_frame

theorem retire_frame (c : Cmd) (ok : Bool) (s : State) (hs : Frame s0 s) :
    Frame s0 (retire c ok s) := by
  unfold retire
  repeat' first
    | with_reducible assumption
    | (intro x; clear_value (hxv : x = _); with_reducible refine frame_let (s0 := s0) hxv ?_ fun hx => ?_)
    | (intro x; clear_value (hxv : x = _); with_reducible refine frame_let_snd (s0 := s0) hxv ?_ fun hx => ?_)
    | (intro x; clear_value x) | (intro _) | lift_lets -underBinder | with_reducible apply keepReply_frame
    | with_reducible apply noteOutcome_frame | with_reducible apply putReply_frame | with_reducible apply raise_frame
    | with_reducible apply putShadow_frame | with_reducible apply markDone_frame
    | with_reducible apply stopQueue_frame | split | with_reducible apply Frame.upd

theorem ringGate_frame (n : Nat) (s : State) (go : State → State) (hs : Frame s0 s)
    (hgo : ∀ y0, Frame s0 y0 → Frame s0 (go y0)) :
    Frame s0 (ringGate n s go) := by
  unfold ringGate
  repeat' first
    | with_reducible assumption | (intro x; clear_value x) | (intro _) | lift_lets -underBinder
    | with_reducible apply hgo | with_reducible apply hgo | with_reducible apply noteWaits_frame | split

theorem enterRetention_frame (s : State) (hs : Frame s0 s) :
    Frame s0 (enterRetention s) := by
  unfold enterRetention
  repeat' first
    | with_reducible assumption
    | (intro x; clear_value (hxv : x = _); with_reducible refine frame_let (s0 := s0) hxv ?_ fun hx => ?_)
    | (intro x; clear_value (hxv : x = _); with_reducible have hxw := store_let hxv; subst hxw)
    | (intro x; clear_value x) | (intro _) | lift_lets -underBinder | with_reducible apply endSpdm_frame
    | with_reducible apply setTile_frame | with_reducible apply flushWhere_frame
    | with_reducible apply haltStack_frame | with_reducible apply setStack_frame | with_reducible apply setPort_frame
    | with_reducible refine store_frame _ _ _ _ _ ?_ _ (by assumption) | with_reducible apply Cmd.store_frame
    | with_reducible apply frame_foldl | with_reducible apply frame_foldl_snd
    | with_reducible apply frame_foldl_snd_snd | split | with_reducible apply Frame.upd
    | with_reducible refine Frame.updFlash ?_ (fun hw => hw)
    | with_reducible refine Frame.updStore ?_ (fun hw => Store.wf_dropTile hw)

theorem dropQueue_frame (n : Nat) (s : State) (hs : Frame s0 s) :
    Frame s0 (dropQueue n s) := by
  unfold dropQueue
  repeat' first
    | with_reducible assumption | (intro x; clear_value x) | (intro _) | lift_lets -underBinder
    | with_reducible apply irqSettle_frame | split | with_reducible apply Frame.upd

theorem resetFnRegs_frame (s : State) (fn : Nat) (hs : Frame s0 s) :
    Frame s0 (resetFnRegs s fn) := by
  unfold resetFnRegs
  repeat' first
    | with_reducible assumption | (intro x; clear_value x) | (intro _) | lift_lets -underBinder
    | with_reducible apply irqSettle_frame | with_reducible apply bar2Base_frame | split
    | with_reducible apply Frame.upd

theorem closeJobs_frame (p : Nat) (s : State) (hs : Frame s0 s) :
    Frame s0 (closeJobs p s) := by
  unfold closeJobs
  repeat' first
    | with_reducible assumption | (intro _) | lift_lets -underBinder | with_reducible apply closeJob_frame
    | with_reducible apply frame_foldl

theorem finishFlr_frame (p : Nat) (s : State) (hs : Frame s0 s) :
    Frame s0 (finishFlr p s) := by
  unfold finishFlr
  repeat' first
    | with_reducible assumption
    | (intro x; clear_value (hxv : x = _); with_reducible refine frame_let (s0 := s0) hxv ?_ fun hx => ?_)
    | (intro x; clear_value x) | (intro _) | lift_lets -underBinder | with_reducible apply closeJobs_frame
    | with_reducible apply dropQueue_frame | with_reducible apply resetFnRegs_frame
    | with_reducible apply endSpdm_frame | with_reducible apply setPart_frame | with_reducible apply frame_foldl
    | with_reducible apply frame_foldl_snd | with_reducible apply frame_foldl_snd_snd | split
    | with_reducible apply Frame.upd

theorem finishDrain_frame (s : State) (hs : Frame s0 s) :
    Frame s0 (finishDrain s) := by
  unfold finishDrain
  repeat' first
    | with_reducible assumption
    | (intro x; clear_value (hxv : x = _); with_reducible refine frame_let (s0 := s0) hxv ?_ fun hx => ?_)
    | (intro x; clear_value x) | (intro _) | lift_lets -underBinder | with_reducible apply closeJobs_frame
    | with_reducible apply beginClose_frame | with_reducible apply setPart_frame
    | with_reducible apply irqSettle_frame | with_reducible apply adminStart_frame | with_reducible apply frame_foldl
    | with_reducible apply frame_foldl_snd | with_reducible apply frame_foldl_snd_snd | split
    | with_reducible apply Frame.upd

theorem settleResets_frame (s : State) (hs : Frame s0 s) :
    Frame s0 (settleResets s) := by
  unfold settleResets
  repeat' first
    | with_reducible assumption
    | (intro x; clear_value (hxv : x = _); with_reducible refine frame_let (s0 := s0) hxv ?_ fun hx => ?_) | (intro _)
    | lift_lets -underBinder | with_reducible apply finishFlr_frame | with_reducible apply finishDrain_frame
    | with_reducible apply frame_foldl | with_reducible apply frame_foldl_snd
    | with_reducible apply frame_foldl_snd_snd | split

theorem commandComplete_frame (c : Cmd) (ok : Bool) (s : State) (hs : Frame s0 s) :
    Frame s0 (commandComplete c ok s) := by
  unfold commandComplete
  repeat' first
    | with_reducible assumption
    | (intro x; clear_value (hxv : x = _); with_reducible refine frame_let (s0 := s0) hxv ?_ fun hx => ?_) | (intro _)
    | lift_lets -underBinder | with_reducible apply ringGate_frame | with_reducible apply retire_frame
    | with_reducible apply spoil_frame | with_reducible apply enterRetention_frame
    | with_reducible apply settleResets_frame | split

theorem execCommandComplete_frame (cmd : Nat) (ok : Bool) (s : State) (hs : Frame s0 s) :
    FrameO s0 (execCommandComplete cmd ok s) := by
  unfold execCommandComplete
  repeat' first
    | with_reducible assumption | exact trivial | (intro _) | lift_lets -underBinder
    | with_reducible apply FrameO.next | with_reducible apply whenRunning_frame
    | with_reducible apply commandComplete_frame | split

theorem duplicateReply_frame (n : Nat) (ok : Bool) (s : State) (hs : Frame s0 s) :
    Frame s0 (duplicateReply n ok s) := by
  unfold duplicateReply
  repeat' first
    | with_reducible assumption
    | (intro x; clear_value (hxv : x = _); with_reducible refine frame_let (s0 := s0) hxv ?_ fun hx => ?_)
    | (intro x; clear_value (hxv : x = _); with_reducible refine frame_let_snd (s0 := s0) hxv ?_ fun hx => ?_)
    | (intro x; clear_value x) | (intro _) | lift_lets -underBinder | with_reducible apply ringGate_frame
    | with_reducible apply setQueue_frame | with_reducible apply putReply_frame
    | with_reducible apply settleResets_frame | with_reducible apply putShadow_frame
    | with_reducible apply markDone_frame | with_reducible apply raise_frame | with_reducible apply stopQueue_frame
    | split

theorem execDuplicateReply_frame (queue : Nat) (ok : Bool) (s : State) (hs : Frame s0 s) :
    FrameO s0 (execDuplicateReply queue ok s) := by
  unfold execDuplicateReply
  repeat' first
    | with_reducible assumption | exact trivial | (intro _) | lift_lets -underBinder
    | with_reducible apply FrameO.next | with_reducible apply onUnit_frame | with_reducible apply whenRunning_frame
    | with_reducible apply duplicateReply_frame

theorem execQueueRingTimeout_frame (queue : Nat) (s : State) (hs : Frame s0 s) :
    FrameO s0 (execQueueRingTimeout queue s) := by
  unfold execQueueRingTimeout
  repeat' first
    | with_reducible assumption | exact trivial | (intro _) | lift_lets -underBinder
    | with_reducible apply FrameO.next | with_reducible apply onUnit_frame | with_reducible apply whenRunning_frame
    | with_reducible apply stopQueue_frame | split

theorem commandTimeout_frame (c : Cmd) (s : State) (hs : Frame s0 s) :
    Frame s0 (commandTimeout c s) := by
  unfold commandTimeout
  repeat' first
    | with_reducible assumption | (intro x; clear_value x) | (intro _) | lift_lets -underBinder
    | with_reducible apply rejectCmd_frame | with_reducible apply repairTimeout_frame
    | with_reducible apply programTimeout_frame | with_reducible apply timeoutEnd_frame | split

theorem execCommandTimeout_frame (cmd : Nat) (s : State) (hs : Frame s0 s) :
    FrameO s0 (execCommandTimeout cmd s) := by
  unfold execCommandTimeout
  repeat' first
    | with_reducible assumption | exact trivial | (intro _) | lift_lets -underBinder
    | with_reducible apply FrameO.next | with_reducible apply whenRunning_frame
    | with_reducible apply commandTimeout_frame | split

theorem execQueueCreate_frame (cmd : Nat) (s : State) (hs : Frame s0 s) :
    FrameO s0 (execQueueCreate cmd s) := by
  unfold execQueueCreate
  repeat' first
    | with_reducible assumption | exact trivial | (intro x; clear_value x) | (intro _) | lift_lets -underBinder
    | with_reducible apply FrameO.next | with_reducible apply onCmd_frame | with_reducible apply judged_frame
    | with_reducible apply doneCmd_frame | with_reducible apply irqSettle_frame | with_reducible apply setQueue_frame

theorem execQueueDelete_frame (cmd : Nat) (s : State) (hs : Frame s0 s) :
    FrameO s0 (execQueueDelete cmd s) := by
  unfold execQueueDelete
  repeat' first
    | with_reducible assumption | exact trivial | (intro x; clear_value x) | (intro _) | lift_lets -underBinder
    | with_reducible apply FrameO.next | with_reducible apply onCmd_frame | with_reducible apply judged_frame
    | with_reducible apply doneCmd_frame | with_reducible apply dropQueue_frame | with_reducible apply resumeCmd_frame
    | with_reducible apply waitCmd_frame | with_reducible apply setQueue_frame | split

theorem execIdentRead_frame (cmd : Nat) (s : State) (hs : Frame s0 s) :
    FrameO s0 (execIdentRead cmd s) := by
  unfold execIdentRead
  repeat' first
    | with_reducible assumption | exact trivial | (intro _) | lift_lets -underBinder
    | with_reducible apply FrameO.next | with_reducible apply onCmd_frame | with_reducible apply judged_frame
    | with_reducible apply Cmd.reaching_frame | with_reducible apply doneCmd_frame
    | with_reducible apply Cmd.put_frame

theorem refreshSelf_frame (on : Bool) (s : State) (hs : Frame s0 s) :
    Frame s0 (refreshSelf on s) := by
  unfold refreshSelf
  repeat' first
    | with_reducible assumption
    | (intro x; clear_value (hxv : x = _); with_reducible refine frame_let (s0 := s0) hxv ?_ fun hx => ?_)
    | (intro x; clear_value x) | (intro _) | lift_lets -underBinder | with_reducible apply flushWhere_frame
    | with_reducible apply setStack_frame | with_reducible apply frame_foldl | with_reducible apply frame_foldl_snd
    | with_reducible apply frame_foldl_snd_snd | split

theorem restartPhase_frame (p : Restart) (s : State) (f : State → State) (hs : Frame s0 s)
    (hf : ∀ y0, Frame s0 y0 → Frame s0 (f y0)) :
    FrameO s0 (restartPhase p s f) := by
  unfold restartPhase
  repeat' first
    | with_reducible assumption | exact trivial | (intro _) | lift_lets -underBinder | with_reducible apply hf
    | with_reducible apply FrameO.next | split

theorem setRestart_frame (p : Restart) (s : State) (hs : Frame s0 s) :
    Frame s0 (setRestart p s) := by
  unfold setRestart
  repeat' first
    | with_reducible assumption | (intro x; clear_value x) | (intro _) | lift_lets -underBinder | split
    | with_reducible apply Frame.upd

theorem execRestartStopDone_frame (s : State) (hs : Frame s0 s) :
    FrameO s0 (execRestartStopDone s) := by
  unfold execRestartStopDone
  repeat' first
    | with_reducible assumption | exact trivial | (intro _) | lift_lets -underBinder
    | with_reducible apply FrameO.next | with_reducible apply restartPhase_frame
    | with_reducible apply setRestart_frame | with_reducible apply stopTile_frame | with_reducible apply frame_foldl

theorem execRestartRetainDone_frame (s : State) (hs : Frame s0 s) :
    FrameO s0 (execRestartRetainDone s) := by
  unfold execRestartRetainDone
  repeat' first
    | with_reducible assumption | exact trivial | (intro _) | lift_lets -underBinder
    | with_reducible apply FrameO.next | with_reducible apply restartPhase_frame
    | with_reducible apply setRestart_frame | with_reducible apply refreshSelf_frame

theorem execRestartResetDone_frame (s : State) (hs : Frame s0 s) :
    FrameO s0 (execRestartResetDone s) := by
  unfold execRestartResetDone
  repeat' first
    | with_reducible assumption | exact trivial
    | (intro x; clear_value (hxv : x = _); with_reducible refine frame_let (s0 := s0) hxv ?_ fun hx => ?_)
    | (intro x; clear_value (hxv : x = _); with_reducible have hxw := store_let hxv; subst hxw) | (intro _)
    | lift_lets -underBinder | with_reducible apply FrameO.next | with_reducible apply restartPhase_frame
    | with_reducible apply setRestart_frame | with_reducible apply clearSsq_frame
    | with_reducible refine store_frame _ _ _ _ _ ?_ _ (by assumption) | with_reducible apply Cmd.store_frame
    | with_reducible apply frame_foldl | with_reducible apply frame_foldl_snd
    | with_reducible apply frame_foldl_snd_snd | split | with_reducible apply Frame.upd
    | with_reducible refine Frame.updFlash ?_ (fun hw => hw)
    | with_reducible refine Frame.updStore ?_ (fun hw => Store.wf_dropTile hw)

theorem discardJobs_frame (s : State) (hs : Frame s0 s) :
    Frame s0 (discardJobs s) := by
  unfold discardJobs
  repeat' first
    | with_reducible assumption
    | (intro x; clear_value (hxv : x = _); with_reducible refine frame_let (s0 := s0) hxv ?_ fun hx => ?_)
    | (intro x; clear_value x) | (intro _) | lift_lets -underBinder | with_reducible apply unpin_frame
    | with_reducible apply jobFault_frame | with_reducible apply PTab.write_frame | with_reducible apply frame_foldl
    | with_reducible apply frame_foldl_snd | with_reducible apply frame_foldl_snd_snd | split
    | with_reducible apply Frame.upd

theorem answerDups_frame (n : Nat) (s : State) (hs : Frame s0 s) :
    Frame s0 (answerDups n s) := by
  unfold answerDups
  repeat' first
    | with_reducible assumption | (intro _) | lift_lets -underBinder | with_reducible apply duplicateReply_frame
    | with_reducible apply frame_foldl

theorem loseCmd_frame (c : Cmd) (s : State) (hs : Frame s0 s) :
    Frame s0 (loseCmd c s) := by
  unfold loseCmd
  repeat' first
    | with_reducible assumption | (intro x; clear_value x) | (intro _) | lift_lets -underBinder
    | with_reducible apply answerDups_frame | with_reducible apply retire_frame | with_reducible apply letGo_frame

theorem execRestartReport_frame (s : State) (hs : Frame s0 s) :
    FrameO s0 (execRestartReport s) := by
  unfold execRestartReport
  repeat' first
    | with_reducible assumption | exact trivial
    | (intro x; clear_value (hxv : x = _); with_reducible refine frame_let (s0 := s0) hxv ?_ fun hx => ?_)
    | (intro x; clear_value x) | (intro _) | lift_lets -underBinder | with_reducible apply FrameO.next
    | with_reducible apply restartPhase_frame | with_reducible apply discardJobs_frame
    | with_reducible apply setRestart_frame | with_reducible apply refreshSelf_frame
    | with_reducible apply answerDups_frame | with_reducible apply serveAll_frame
    | with_reducible apply settleResets_frame | with_reducible apply raise_frame | with_reducible apply loseCmd_frame
    | with_reducible apply frame_foldl

theorem wakePhase_frame (p : Sleep) (s : State) (f : State → State) (hs : Frame s0 s)
    (hf : ∀ y0, Frame s0 y0 → Frame s0 (f y0)) :
    FrameO s0 (wakePhase p s f) := by
  unfold wakePhase
  repeat' first
    | with_reducible assumption | exact trivial | (intro _) | lift_lets -underBinder | with_reducible apply hf
    | with_reducible apply FrameO.next | split

theorem setSleep_frame (p : Sleep) (s : State) (hs : Frame s0 s) :
    Frame s0 (setSleep p s) := by
  unfold setSleep
  repeat' first
    | with_reducible assumption | (intro x; clear_value x) | (intro _) | lift_lets -underBinder | split
    | with_reducible apply Frame.upd

theorem execWake_frame (bell : Option Bell) (s : State) (hs : Frame s0 s) :
    FrameO s0 (execWake bell s) := by
  unfold execWake
  repeat' first
    | with_reducible assumption | exact trivial | (intro x; clear_value x) | (intro _) | lift_lets -underBinder
    | with_reducible apply FrameO.next | with_reducible apply startWake_frame | split | with_reducible apply Frame.upd

theorem execWakePowerDone_frame (s : State) (hs : Frame s0 s) :
    FrameO s0 (execWakePowerDone s) := by
  unfold execWakePowerDone
  repeat' first
    | with_reducible assumption | exact trivial | (intro _) | lift_lets -underBinder
    | with_reducible apply FrameO.next | with_reducible apply wakePhase_frame
    | with_reducible apply applyVoltage_frame | with_reducible apply powerVoltage_frame
    | with_reducible apply setSleep_frame

theorem execWakeMemoryDone_frame (s : State) (hs : Frame s0 s) :
    FrameO s0 (execWakeMemoryDone s) := by
  unfold execWakeMemoryDone
  repeat' first
    | with_reducible assumption | exact trivial
    | (intro x; clear_value (hxv : x = _); with_reducible refine frame_let (s0 := s0) hxv ?_ fun hx => ?_)
    | (intro x; clear_value x) | (intro _) | lift_lets -underBinder | with_reducible apply FrameO.next
    | with_reducible apply wakePhase_frame | with_reducible apply setSleep_frame | with_reducible apply serveAll_frame
    | with_reducible apply refreshSelf_frame | with_reducible apply setPort_frame | with_reducible apply frame_foldl
    | with_reducible apply frame_foldl_snd | with_reducible apply frame_foldl_snd_snd | split

theorem portAfterWake_frame (lost : List ℕ) (s : State) (p : Nat) (hs : Frame s0 s) :
    Frame s0 (portAfterWake lost s p) := by
  unfold portAfterWake
  repeat' first
    | with_reducible assumption | (intro x; clear_value x) | (intro _) | lift_lets -underBinder
    | with_reducible apply setPort_frame | split

theorem execWakePortsDone_frame (lost : List ℕ) (s : State) (hs : Frame s0 s) :
    FrameO s0 (execWakePortsDone lost s) := by
  unfold execWakePortsDone
  repeat' first
    | with_reducible assumption | exact trivial
    | (intro x; clear_value (hxv : x = _); with_reducible refine frame_let (s0 := s0) hxv ?_ fun hx => ?_)
    | (intro x; clear_value x) | (intro _) | lift_lets -underBinder | with_reducible apply FrameO.next
    | with_reducible apply wakePhase_frame | with_reducible apply setSleep_frame
    | with_reducible apply portAfterWake_frame | with_reducible apply frame_foldl
    | with_reducible apply frame_foldl_snd | with_reducible apply frame_foldl_snd_snd | split
    | with_reducible apply Frame.upd

theorem execWakeResumeDone_frame (s : State) (hs : Frame s0 s) :
    FrameO s0 (execWakeResumeDone s) := by
  unfold execWakeResumeDone
  repeat' first
    | with_reducible assumption | exact trivial
    | (intro x; clear_value (hxv : x = _); with_reducible refine frame_let (s0 := s0) hxv ?_ fun hx => ?_)
    | (intro x; clear_value x) | (intro _) | lift_lets -underBinder | with_reducible apply FrameO.next
    | with_reducible apply wakePhase_frame | with_reducible apply setSleep_frame | with_reducible apply raise_frame
    | with_reducible apply applyBell_frame | with_reducible apply frame_foldl | with_reducible apply frame_foldl_snd
    | with_reducible apply frame_foldl_snd_snd | split | with_reducible apply Frame.upd

theorem execReferenceClockEdge_frame (s : State) (hs : Frame s0 s) :
    FrameO s0 (execReferenceClockEdge s) := by
  unfold execReferenceClockEdge
  repeat' first
    | with_reducible assumption | exact trivial | (intro _) | lift_lets -underBinder
    | with_reducible apply FrameO.next | with_reducible apply accrue_frame | split | with_reducible apply Frame.upd

theorem startSlew_frame (d : ℤ) (s : State) (hs : Frame s0 s) :
    Frame s0 (startSlew d s) := by
  unfold startSlew
  repeat' first
    | with_reducible assumption | (intro x; clear_value x) | (intro _) | lift_lets -underBinder | split
    | with_reducible apply Frame.upd

theorem ppsEdge_frame (s : State) (hs : Frame s0 s) :
    Frame s0 (ppsEdge s) := by
  unfold ppsEdge
  repeat' first
    | with_reducible assumption
    | (intro x; clear_value (hxv : x = _); with_reducible refine frame_let (s0 := s0) hxv ?_ fun hx => ?_)
    | (intro x; clear_value x) | (intro _) | lift_lets -underBinder | with_reducible apply startSlew_frame | split
    | with_reducible apply Frame.upd

theorem execPpsEdge_frame (s : State) (hs : Frame s0 s) :
    FrameO s0 (execPpsEdge s) := by
  unfold execPpsEdge
  repeat' first
    | with_reducible assumption | exact trivial | (intro _) | lift_lets -underBinder
    | with_reducible apply FrameO.next | with_reducible apply ppsEdge_frame | split

theorem execPpsLockLapse_frame (s : State) (hs : Frame s0 s) :
    FrameO s0 (execPpsLockLapse s) := by
  unfold execPpsLockLapse
  repeat' first
    | with_reducible assumption | exact trivial | (intro x; clear_value x) | (intro _) | lift_lets -underBinder
    | with_reducible apply FrameO.next | split | with_reducible apply Frame.upd

theorem timeTick_frame (s : State) (hs : Frame s0 s) :
    Frame s0 (timeTick s) := by
  unfold timeTick
  repeat' first
    | with_reducible assumption | (intro x; clear_value x) | (intro _) | lift_lets -underBinder
    | with_reducible apply sendTow_frame | split | with_reducible apply Frame.upd

theorem execTimeExchangeTick_frame (s : State) (hs : Frame s0 s) :
    FrameO s0 (execTimeExchangeTick s) := by
  unfold execTimeExchangeTick
  repeat' first
    | with_reducible assumption | exact trivial | (intro _) | lift_lets -underBinder
    | with_reducible apply FrameO.next | with_reducible apply timeTick_frame | split

theorem execTimeRequestReceive_frame (port : Nat) (t1 : W64) (s : State) (hs : Frame s0 s) :
    FrameO s0 (execTimeRequestReceive port t1 s) := by
  unfold execTimeRequestReceive
  repeat' first
    | with_reducible assumption | exact trivial | (intro _) | lift_lets -underBinder
    | with_reducible apply FrameO.next | with_reducible apply onPort_frame | with_reducible apply sendTow_frame
    | split

theorem timeReply_frame (t1 : W64) (t2 : W64) (t3 : W64) (s : State) (hs : Frame s0 s) :
    Frame s0 (timeReply t1 t2 t3 s) := by
  unfold timeReply
  repeat' first
    | with_reducible assumption | (intro x; clear_value x) | (intro _) | lift_lets -underBinder
    | with_reducible apply startSlew_frame | split | with_reducible apply Frame.upd

theorem execTimeReplyReceive_frame (t1 : W64) (t2 : W64) (t3 : W64) (s : State) (hs : Frame s0 s) :
    FrameO s0 (execTimeReplyReceive t1 t2 t3 s) := by
  unfold execTimeReplyReceive
  repeat' first
    | with_reducible assumption | exact trivial | (intro _) | lift_lets -underBinder
    | with_reducible apply FrameO.next | with_reducible apply timeReply_frame | split

end Sys2Proof.Machine
end

