-- ==== Sys2Proof/Laws/FrameHost.lean ====
section
/-!
SUPPORT. The frame of every operation of security, start-up, SMBus and the monitor: see Laws/Frame.lean.
-/

namespace Sys2Proof.Machine

variable {s0 : State}

theorem setSpdm_frame (s : State) (fn : Nat) (x : Spdm) (hs : Frame s0 s) :
    Frame s0 (setSpdm s fn x) := by
  unfold setSpdm
  repeat' first
    | with_reducible assumption | (intro x; clear_value x) | (intro _) | lift_lets -underBinder | split
    | with_reducible apply Frame.upd

theorem mailReply_frame (fn : Nat) (bs : List Byte) (s : State) (hs : Frame s0 s) :
    Frame s0 (mailReply fn bs s) := by
  unfold mailReply
  repeat' first
    | with_reducible assumption | (intro x; clear_value x) | (intro _) | lift_lets -underBinder
    | with_reducible apply setSpdm_frame

theorem spdmReply_frame (fn code : Nat) (carried : List Byte) (s : State) (hs : Frame s0 s) :
    Frame s0 (spdmReply fn code carried s) := by
  unfold spdmReply
  repeat' first
    | with_reducible assumption | (intro _) | lift_lets -underBinder | with_reducible apply mailReply_frame

theorem spdmError_frame (fn code : Nat) (s : State) (hs : Frame s0 s) :
    Frame s0 (spdmError fn code s) := by
  unfold spdmError
  repeat' first
    | with_reducible assumption | (intro _) | lift_lets -underBinder | with_reducible apply mailReply_frame

theorem onMail_frame (fn : Nat) (s : State) (f : Spdm → State → State) (hs : Frame s0 s)
    (hf : ∀ y0 y1, Frame s0 y1 → Frame s0 (f y0 y1)) :
    FrameO s0 (onMail fn s f) := by
  unfold onMail
  repeat' first
    | with_reducible assumption | exact trivial | (intro _) | lift_lets -underBinder | with_reducible apply hf
    | with_reducible apply FrameO.next | with_reducible apply onUnit_frame | split

theorem onAgreed_frame (fn : Nat) (s : State) (f : Spdm → State → State) (hs : Frame s0 s)
    (hf : ∀ y0 y1, Frame s0 y1 → Frame s0 (f y0 y1)) :
    FrameO s0 (onAgreed fn s f) := by
  unfold onAgreed
  repeat' first
    | with_reducible assumption | exact trivial | (intro _) | lift_lets -underBinder | with_reducible apply hf
    | with_reducible apply FrameO.next | with_reducible apply onMail_frame | with_reducible apply spdmError_frame
    | split

theorem onSession_frame (fn : Nat) (s : State) (f : Spdm → State → State) (hs : Frame s0 s)
    (hf : ∀ y0 y1, Frame s0 y1 → Frame s0 (f y0 y1)) :
    FrameO s0 (onSession fn s f) := by
  unfold onSession
  repeat' first
    | with_reducible assumption | exact trivial | (intro _) | lift_lets -underBinder | with_reducible apply hf
    | with_reducible apply FrameO.next | with_reducible apply onMail_frame | with_reducible apply spdmError_frame
    | split

theorem execGetVersion_frame (fn : Nat) (s : State) (hs : Frame s0 s) :
    FrameO s0 (execGetVersion fn s) := by
  unfold execGetVersion
  repeat' first
    | with_reducible assumption | exact trivial | (intro _) | lift_lets -underBinder
    | with_reducible apply FrameO.next | with_reducible apply onMail_frame | with_reducible apply spdmReply_frame
    | with_reducible apply setSpdm_frame

theorem execGetCapabilities_frame (fn : Nat) (s : State) (hs : Frame s0 s) :
    FrameO s0 (execGetCapabilities fn s) := by
  unfold execGetCapabilities
  repeat' first
    | with_reducible assumption | exact trivial | (intro _) | lift_lets -underBinder
    | with_reducible apply FrameO.next | with_reducible apply onMail_frame | with_reducible apply spdmReply_frame
    | with_reducible apply setSpdm_frame | with_reducible apply spdmError_frame | split

theorem execNegotiateAlgorithms_frame (fn : Nat) (s : State) (hs : Frame s0 s) :
    FrameO s0 (execNegotiateAlgorithms fn s) := by
  unfold execNegotiateAlgorithms
  repeat' first
    | with_reducible assumption | exact trivial | (intro _) | lift_lets -underBinder
    | with_reducible apply FrameO.next | with_reducible apply onMail_frame | with_reducible apply spdmReply_frame
    | with_reducible apply setSpdm_frame | with_reducible apply spdmError_frame | split

theorem execGetDigests_frame (fn : Nat) (s : State) (hs : Frame s0 s) :
    FrameO s0 (execGetDigests fn s) := by
  unfold execGetDigests
  repeat' first
    | with_reducible assumption | exact trivial | (intro _) | lift_lets -underBinder
    | with_reducible apply FrameO.next | with_reducible apply onAgreed_frame | with_reducible apply spdmReply_frame

theorem execGetCertificate_frame (fn slot : Nat) (s : State) (hs : Frame s0 s) :
    FrameO s0 (execGetCertificate fn slot s) := by
  unfold execGetCertificate
  repeat' first
    | with_reducible assumption | exact trivial | (intro _) | lift_lets -underBinder
    | with_reducible apply FrameO.next | with_reducible apply onAgreed_frame | with_reducible apply spdmReply_frame
    | with_reducible apply spdmError_frame | split

theorem execChallenge_frame (fn slot : Nat) (nonce : List Byte) (s : State) (hs : Frame s0 s) :
    FrameO s0 (execChallenge fn slot nonce s) := by
  unfold execChallenge
  repeat' first
    | with_reducible assumption | exact trivial | (intro _) | lift_lets -underBinder
    | with_reducible apply FrameO.next | with_reducible apply onAgreed_frame | with_reducible apply spdmReply_frame
    | with_reducible apply spdmError_frame | split

theorem execGetMeasurements_frame (fn index : Nat) (s : State) (hs : Frame s0 s) :
    FrameO s0 (execGetMeasurements fn index s) := by
  unfold execGetMeasurements
  repeat' first
    | with_reducible assumption | exact trivial | (intro _) | lift_lets -underBinder
    | with_reducible apply FrameO.next | with_reducible apply onAgreed_frame | with_reducible apply spdmReply_frame
    | with_reducible apply spdmError_frame | split

theorem execKeyExchange_frame (fn peerKey : Nat) (s : State) (hs : Frame s0 s) :
    FrameO s0 (execKeyExchange fn peerKey s) := by
  unfold execKeyExchange
  repeat' first
    | with_reducible assumption | exact trivial
    | (intro x; clear_value (hxv : x = _); with_reducible refine frame_let (s0 := s0) hxv ?_ fun hx => ?_)
    | (intro x; clear_value x) | (intro _) | lift_lets -underBinder | with_reducible apply FrameO.next
    | with_reducible apply onAgreed_frame | with_reducible apply spdmError_frame
    | with_reducible apply spdmReply_frame | with_reducible apply setSpdm_frame | split
    | with_reducible apply Frame.upd

theorem execFinish_frame (fn : Nat) (verify : List Byte) (s : State) (hs : Frame s0 s) :
    FrameO s0 (execFinish fn verify s) := by
  unfold execFinish
  repeat' first
    | with_reducible assumption | exact trivial | (intro _) | lift_lets -underBinder
    | with_reducible apply FrameO.next | with_reducible apply onMail_frame | with_reducible apply spdmError_frame
    | with_reducible apply spdmReply_frame | with_reducible apply setSpdm_frame | split

theorem execKeyUpdate_frame (fn : Nat) (s : State) (hs : Frame s0 s) :
    FrameO s0 (execKeyUpdate fn s) := by
  unfold execKeyUpdate
  repeat' first
    | with_reducible assumption | exact trivial | (intro _) | lift_lets -underBinder
    | with_reducible apply FrameO.next | with_reducible apply onSession_frame | with_reducible apply spdmReply_frame
    | with_reducible apply setSpdm_frame

theorem execHeartbeat_frame (fn : Nat) (s : State) (hs : Frame s0 s) :
    FrameO s0 (execHeartbeat fn s) := by
  unfold execHeartbeat
  repeat' first
    | with_reducible assumption | exact trivial | (intro _) | lift_lets -underBinder
    | with_reducible apply FrameO.next | with_reducible apply onSession_frame | with_reducible apply spdmReply_frame
    | with_reducible apply setSpdm_frame

theorem execHeartbeatLapse_frame (fn : Nat) (s : State) (hs : Frame s0 s) :
    FrameO s0 (execHeartbeatLapse fn s) := by
  unfold execHeartbeatLapse
  repeat' first
    | with_reducible assumption | exact trivial | (intro x; clear_value x) | (intro _) | lift_lets -underBinder
    | with_reducible apply FrameO.next | with_reducible apply onUnit_frame | with_reducible apply endSpdm_frame
    | split

theorem execEndSession_frame (fn : Nat) (s : State) (hs : Frame s0 s) :
    FrameO s0 (execEndSession fn s) := by
  unfold execEndSession
  repeat' first
    | with_reducible assumption | exact trivial | (intro _) | lift_lets -underBinder
    | with_reducible apply FrameO.next | with_reducible apply onSession_frame | with_reducible apply spdmReply_frame
    | with_reducible apply endSpdm_frame

theorem execSluiceBind_frame (fn : Nat) (address : W64) (frames : Nat) (s : State) (hs : Frame s0 s) :
    FrameO s0 (execSluiceBind fn address frames s) := by
  unfold execSluiceBind
  repeat' first
    | with_reducible assumption | exact trivial | (intro _) | lift_lets -underBinder
    | with_reducible apply FrameO.next | with_reducible apply onSession_frame | with_reducible apply spdmError_frame
    | with_reducible apply spdmReply_frame | with_reducible apply setBounce_frame | split

theorem execDoeDiscovery_frame (fn index : Nat) (s : State) (hs : Frame s0 s) :
    FrameO s0 (execDoeDiscovery fn index s) := by
  unfold execDoeDiscovery
  repeat' first
    | with_reducible assumption | exact trivial | (intro _) | lift_lets -underBinder
    | with_reducible apply FrameO.next | with_reducible apply onMail_frame | with_reducible apply mailReply_frame

theorem execAttestReport_frame (cmd : Nat) (s : State) (hs : Frame s0 s) :
    FrameO s0 (execAttestReport cmd s) := by
  unfold execAttestReport
  repeat' first
    | with_reducible assumption | exact trivial | (intro x; clear_value x) | (intro _) | lift_lets -underBinder
    | with_reducible apply FrameO.next | with_reducible apply onCmd_frame | with_reducible apply doneCmd_frame
    | with_reducible apply judged_frame | with_reducible apply Cmd.reaching_frame | with_reducible apply Cmd.put_frame
    | with_reducible apply PTab.put_frame | with_reducible apply take_frame | split

theorem moduleReset_frame (s : State) (hs : Frame s0 s) :
    Frame s0 (moduleReset s) := by
  exact ⟨hs.pending, hs.fuse, fun hw => Store.wf_dropAll (hs.store hw), hs.flash, fun _ => rfl⟩

theorem powerGone_frame (s : State) (hs : Frame s0 s) :
    Frame s0 (powerGone s) := by
  have h := moduleReset_frame s hs
  exact ⟨h.pending, h.fuse, h.store, h.flash, h.microcode⟩

theorem execVsb18Remove_frame (s : State) (hs : Frame s0 s) :
    FrameO s0 (execVsb18Remove s) := by
  unfold execVsb18Remove
  repeat' first
    | with_reducible assumption | exact trivial | (intro _) | lift_lets -underBinder
    | with_reducible apply FrameO.next | with_reducible apply powerGone_frame | split

theorem execVsb18Apply_frame (s : State) (hs : Frame s0 s) :
    FrameO s0 (execVsb18Apply s) := by
  unfold execVsb18Apply
  repeat' first
    | with_reducible assumption | exact trivial | (intro _) | lift_lets -underBinder
    | with_reducible apply FrameO.next | split | with_reducible apply Frame.upd

theorem modReset_frame (held : Nat) (s : State) (hs : Frame s0 s) :
    Frame s0 (modReset held s) := by
  unfold modReset
  repeat' first
    | with_reducible assumption
    | (intro x; clear_value (hxv : x = _); with_reducible refine frame_let (s0 := s0) hxv ?_ fun hx => ?_)
    | (intro x; clear_value x) | (intro _) | lift_lets -underBinder | with_reducible apply moduleReset_frame | split
    | with_reducible apply Frame.upd

theorem execModRstN_frame (held : Nat) (s : State) (hs : Frame s0 s) :
    FrameO s0 (execModRstN held s) := by
  unfold execModRstN
  repeat' first
    | with_reducible assumption | exact trivial | (intro _) | lift_lets -underBinder
    | with_reducible apply FrameO.next | with_reducible apply modReset_frame | split

theorem execModRstNRelease_frame (s : State) (hs : Frame s0 s) :
    FrameO s0 (execModRstNRelease s) := by
  unfold execModRstNRelease
  repeat' first
    | with_reducible assumption | exact trivial | (intro x; clear_value x) | (intro _) | lift_lets -underBinder
    | with_reducible apply FrameO.next | split | with_reducible apply Frame.upd

theorem execVinPgFall_frame (s : State) (hs : Frame s0 s) :
    FrameO s0 (execVinPgFall s) := by
  unfold execVinPgFall
  repeat' first
    | with_reducible assumption | exact trivial
    | (intro x; clear_value (hxv : x = _); with_reducible refine frame_let (s0 := s0) hxv ?_ fun hx => ?_)
    | (intro x; clear_value x) | (intro _) | lift_lets -underBinder | with_reducible apply FrameO.next
    | with_reducible apply moduleReset_frame | split | with_reducible apply Frame.upd

theorem inPhase_frame (k : Nat) (s : State) (f : State → State) (hs : Frame s0 s) (hf : ∀ y0, Frame s0 y0 → Frame s0 (f y0)) :
    FrameO s0 (inPhase k s f) := by
  unfold inPhase
  repeat' first
    | with_reducible assumption | exact trivial | (intro _) | lift_lets -underBinder | with_reducible apply hf
    | with_reducible apply FrameO.next | split

theorem inWarmPhase_frame (k : Nat) (s : State) (f : State → State) (hs : Frame s0 s)
    (hf : ∀ y0, Frame s0 y0 → Frame s0 (f y0)) :
    FrameO s0 (inWarmPhase k s f) := by
  unfold inWarmPhase
  repeat' first
    | with_reducible assumption | exact trivial | (intro _) | lift_lets -underBinder | with_reducible apply hf
    | with_reducible apply FrameO.next | with_reducible apply inPhase_frame | split

theorem logPhase_frame (k : Nat) (s : State) (hs : Frame s0 s) :
    Frame s0 (logPhase k s) := by
  unfold logPhase
  repeat' first
    | with_reducible assumption | (intro x; clear_value x) | (intro _) | lift_lets -underBinder | split
    | with_reducible apply Frame.upd

theorem setPhase_frame (k : Nat) (s : State) (hs : Frame s0 s) :
    Frame s0 (setPhase k s) := by
  unfold setPhase
  repeat' first
    | with_reducible assumption | (intro x; clear_value x) | (intro _) | lift_lets -underBinder | split
    | with_reducible apply Frame.upd

theorem execBootStandbyDone_frame (s : State) (hs : Frame s0 s) :
    FrameO s0 (execBootStandbyDone s) := by
  unfold execBootStandbyDone
  repeat' first
    | with_reducible assumption | exact trivial | (intro _) | lift_lets -underBinder
    | with_reducible apply FrameO.next | with_reducible apply inPhase_frame | with_reducible apply setPhase_frame
    | with_reducible apply logPhase_frame

theorem halt_frame (error : Nat) (s : State) (hs : Frame s0 s) :
    Frame s0 (halt error s) := by
  unfold halt
  repeat' first
    | with_reducible assumption | (intro x; clear_value x) | (intro _) | lift_lets -underBinder | split
    | with_reducible apply Frame.upd

theorem beginPower_frame (s : State) (hs : Frame s0 s) :
    Frame s0 (beginPower s) := by
  unfold beginPower
  repeat' first
    | with_reducible assumption | (intro x; clear_value x) | (intro _) | lift_lets -underBinder | split
    | with_reducible apply Frame.upd

theorem deriveKeys_frame (fw : Bool × FlashImage) (patch : Bool × FlashImage) (s : State) (hs : Frame s0 s) :
    Frame s0 (deriveKeys fw patch s) := by
  unfold deriveKeys
  repeat' first
    | with_reducible assumption | (intro x; clear_value x) | (intro _) | lift_lets -underBinder | split
    | with_reducible apply Frame.upd

theorem loadFlights_frame (image : List Byte) (s : State) (hs : Frame s0 s) :
    Frame s0 (loadFlights image s) := by
  unfold loadFlights
  exact Frame.updMicrocode hs (memWrite_wf _ _ _ rfl)

theorem flashDone_frame (s : State) (hs : Frame s0 s) :
    Frame s0 (flashDone s) := by
  unfold flashDone
  repeat' first
    | with_reducible assumption
    | (intro x; clear_value (hxv : x = _); with_reducible refine frame_let (s0 := s0) hxv ?_ fun hx => ?_)
    | (intro x; clear_value x) | (intro _) | lift_lets -underBinder | with_reducible apply halt_frame
    | with_reducible apply loadFlights_frame | with_reducible apply logPhase_frame
    | with_reducible apply deriveKeys_frame | with_reducible apply beginPower_frame | split
    | with_reducible apply Frame.upd

theorem execBootFlashDone_frame (s : State) (hs : Frame s0 s) :
    FrameO s0 (execBootFlashDone s) := by
  unfold execBootFlashDone
  repeat' first
    | with_reducible assumption | exact trivial | (intro _) | lift_lets -underBinder
    | with_reducible apply FrameO.next | with_reducible apply inPhase_frame | with_reducible apply flashDone_frame
    | split

theorem execVinPgRise_frame (s : State) (hs : Frame s0 s) :
    FrameO s0 (execVinPgRise s) := by
  unfold execVinPgRise
  repeat' first
    | with_reducible assumption | exact trivial
    | (intro x; clear_value (hxv : x = _); with_reducible refine frame_let (s0 := s0) hxv ?_ fun hx => ?_)
    | (intro x; clear_value x) | (intro _) | lift_lets -underBinder | with_reducible apply FrameO.next
    | with_reducible apply beginPower_frame | split | with_reducible apply Frame.upd

theorem execVinPgTimeout_frame (s : State) (hs : Frame s0 s) :
    FrameO s0 (execVinPgTimeout s) := by
  unfold execVinPgTimeout
  repeat' first
    | with_reducible assumption | exact trivial | (intro _) | lift_lets -underBinder
    | with_reducible apply FrameO.next | with_reducible apply inPhase_frame | with_reducible apply halt_frame | split

theorem execBootPowerDone_frame (s : State) (hs : Frame s0 s) :
    FrameO s0 (execBootPowerDone s) := by
  unfold execBootPowerDone
  repeat' first
    | with_reducible assumption | exact trivial | (intro _) | lift_lets -underBinder
    | with_reducible apply FrameO.next | with_reducible apply inPhase_frame | with_reducible apply applyRow_frame
    | with_reducible apply applyVoltage_frame | with_reducible apply powerVoltage_frame
    | with_reducible apply setPhase_frame | with_reducible apply logPhase_frame

theorem trainStack_frame (fs : List PinAt) (s : State) (k : Nat) (hs : Frame s0 s) :
    Frame s0 (trainStack fs s k) := by
  unfold trainStack
  repeat' first
    | with_reducible assumption
    | (intro x; clear_value (hxv : x = _); with_reducible refine frame_let (s0 := s0) hxv ?_ fun hx => ?_)
    | (intro x; clear_value x) | (intro _) | lift_lets -underBinder | with_reducible apply setStack_frame
    | with_reducible apply raise_frame | with_reducible apply frame_foldl | with_reducible apply frame_foldl_snd
    | with_reducible apply frame_foldl_snd_snd | split

theorem stacksDone_frame (fs : List PinAt) (s : State) (hs : Frame s0 s) :
    Frame s0 (stacksDone fs s) := by
  unfold stacksDone
  extract_lets full t record b f u v
  have h1 : Frame s0 t := frame_foldl _ _ (fun t x h => trainStack_frame _ _ _ h) hs
  clear_value t
  have h2 : Frame s0 u := Frame.updFlash h1 fun hw => memWrite_wf _ _ _ hw
  clear_value u
  have h3 : Frame s0 v := frame_foldl _ _ (fun t x h => setPort_frame _ _ _ h) h2
  exact setPhase_frame _ _ (logPhase_frame _ _ h3)

theorem execBootStacksDone_frame (failedPins : List PinAt) (s : State) (hs : Frame s0 s) :
    FrameO s0 (execBootStacksDone failedPins s) := by
  unfold execBootStacksDone
  repeat' first
    | with_reducible assumption | exact trivial | (intro _) | lift_lets -underBinder
    | with_reducible apply FrameO.next | with_reducible apply inWarmPhase_frame
    | with_reducible apply stacksDone_frame

theorem setTime_frame (d : ℤ) (s : State) (hs : Frame s0 s) :
    Frame s0 (setTime d s) := by
  unfold setTime
  repeat' first
    | with_reducible assumption | (intro x; clear_value x) | (intro _) | lift_lets -underBinder | split
    | with_reducible apply Frame.upd

theorem linksDone_frame (correction : Option ℤ) (far0 : FarTrain) (far1 : FarTrain) (s : State) (hs : Frame s0 s) :
    Frame s0 (linksDone correction far0 far1 s) := by
  unfold linksDone
  repeat' first
    | with_reducible assumption
    | (intro x; clear_value (hxv : x = _); with_reducible refine frame_let (s0 := s0) hxv ?_ fun hx => ?_)
    | (intro x; clear_value x) | (intro _) | lift_lets -underBinder | with_reducible apply setTime_frame
    | with_reducible apply setPhase_frame | with_reducible apply logPhase_frame | split
    | with_reducible apply Frame.upd

theorem execBootLinksDone_frame (correction : Option ℤ) (far0 : FarTrain) (far1 : FarTrain) (s : State)
    (hs : Frame s0 s) :
    FrameO s0 (execBootLinksDone correction far0 far1 s) := by
  unfold execBootLinksDone
  repeat' first
    | with_reducible assumption | exact trivial | (intro _) | lift_lets -underBinder
    | with_reducible apply FrameO.next | with_reducible apply inWarmPhase_frame | with_reducible apply linksDone_frame

theorem scrubDone_frame (laps : List ℕ) (s : State) (hs : Frame s0 s) :
    Frame s0 (scrubDone laps s) := by
  unfold scrubDone
  repeat' first
    | with_reducible assumption
    | (intro x; clear_value (hxv : x = _); with_reducible refine frame_let (s0 := s0) hxv ?_ fun hx => ?_)
    | (intro x; clear_value x) | (intro _) | lift_lets -underBinder | with_reducible apply lapAll_frame
    | with_reducible apply logPhase_frame | with_reducible apply adminStart_frame | split
    | with_reducible apply Frame.upd

theorem execBootScrubDone_frame (laps : List ℕ) (s : State) (hs : Frame s0 s) :
    FrameO s0 (execBootScrubDone laps s) := by
  unfold execBootScrubDone
  repeat' first
    | with_reducible assumption | exact trivial | (intro _) | lift_lets -underBinder
    | with_reducible apply FrameO.next | with_reducible apply inWarmPhase_frame | with_reducible apply scrubDone_frame

theorem resetFunctions_frame (s : State) (hs : Frame s0 s) :
    Frame s0 (resetFunctions s) := by
  unfold resetFunctions
  repeat' first
    | with_reducible assumption
    | (intro x; clear_value (hxv : x = _); with_reducible refine frame_let (s0 := s0) hxv ?_ fun hx => ?_)
    | (intro x; clear_value x) | (intro _) | lift_lets -underBinder | with_reducible apply resetFnRegs_frame
    | with_reducible apply endSpdm_frame | with_reducible apply settleResets_frame | with_reducible apply frame_foldl
    | with_reducible apply frame_foldl_snd | with_reducible apply frame_foldl_snd_snd | split
    | with_reducible apply Frame.upd

theorem execPerstN_frame (s : State) (hs : Frame s0 s) :
    FrameO s0 (execPerstN s) := by
  unfold execPerstN
  repeat' first
    | with_reducible assumption | exact trivial
    | (intro x; clear_value (hxv : x = _); with_reducible refine frame_let (s0 := s0) hxv ?_ fun hx => ?_)
    | (intro x; clear_value x) | (intro _) | lift_lets -underBinder | with_reducible apply FrameO.next
    | with_reducible apply resetFunctions_frame | with_reducible apply endSpdm_frame
    | with_reducible apply frame_foldl | with_reducible apply frame_foldl_snd
    | with_reducible apply frame_foldl_snd_snd | split | with_reducible apply Frame.upd

theorem execPerstNRelease_frame (s : State) (hs : Frame s0 s) :
    FrameO s0 (execPerstNRelease s) := by
  unfold execPerstNRelease
  repeat' first
    | with_reducible assumption | exact trivial | (intro x; clear_value x) | (intro _) | lift_lets -underBinder
    | with_reducible apply FrameO.next | split | with_reducible apply Frame.upd

theorem functionReset_frame (fn : Nat) (s : State) (hs : Frame s0 s) :
    Frame s0 (functionReset fn s) := by
  unfold functionReset
  repeat' first
    | with_reducible assumption | (intro x; clear_value x) | (intro _) | lift_lets -underBinder
    | with_reducible apply resetFnRegs_frame | with_reducible apply endSpdm_frame
    | with_reducible apply resetFunctions_frame | with_reducible apply settleResets_frame
    | with_reducible apply setPart_frame | split

theorem execFunctionLevelReset_frame (fn : Nat) (s : State) (hs : Frame s0 s) :
    FrameO s0 (execFunctionLevelReset fn s) := by
  unfold execFunctionLevelReset
  repeat' first
    | with_reducible assumption | exact trivial | (intro _) | lift_lets -underBinder
    | with_reducible apply FrameO.next | with_reducible apply onUnit_frame | with_reducible apply functionReset_frame

theorem onSmb_frame (s : State) (f : State → State) (hs : Frame s0 s) (hf : ∀ y0, Frame s0 y0 → Frame s0 (f y0)) :
    FrameO s0 (onSmb s f) := by
  unfold onSmb
  repeat' first
    | with_reducible assumption | exact trivial | (intro _) | lift_lets -underBinder | with_reducible apply hf
    | with_reducible apply FrameO.next | split

theorem smbOut_frame (bs : List Byte) (s : State) (hs : Frame s0 s) :
    Frame s0 (smbOut bs s) := by
  unfold smbOut
  repeat' first
    | with_reducible assumption
    | (intro x; clear_value (hxv : x = _); with_reducible have hxw := flash_let hxv; subst hxw) | (intro _)
    | lift_lets -underBinder | split | with_reducible apply Frame.upd
    | with_reducible refine Frame.updFlash ?_ (fun hw => hw)

theorem execSmbStatus_frame (s : State) (hs : Frame s0 s) :
    FrameO s0 (execSmbStatus s) := by
  unfold execSmbStatus
  repeat' first
    | with_reducible assumption | exact trivial | (intro _) | lift_lets -underBinder
    | with_reducible apply FrameO.next | with_reducible apply onSmb_frame | with_reducible apply smbOut_frame

theorem execSmbPower_frame (s : State) (hs : Frame s0 s) :
    FrameO s0 (execSmbPower s) := by
  unfold execSmbPower
  repeat' first
    | with_reducible assumption | exact trivial | (intro _) | lift_lets -underBinder
    | with_reducible apply FrameO.next | with_reducible apply onSmb_frame | with_reducible apply smbOut_frame

theorem execSmbCap_frame (s : State) (hs : Frame s0 s) :
    FrameO s0 (execSmbCap s) := by
  unfold execSmbCap
  repeat' first
    | with_reducible assumption | exact trivial | (intro _) | lift_lets -underBinder
    | with_reducible apply FrameO.next | with_reducible apply onSmb_frame | with_reducible apply smbOut_frame

theorem execSmbVinCurrent_frame (s : State) (hs : Frame s0 s) :
    FrameO s0 (execSmbVinCurrent s) := by
  unfold execSmbVinCurrent
  repeat' first
    | with_reducible assumption | exact trivial | (intro _) | lift_lets -underBinder
    | with_reducible apply FrameO.next | with_reducible apply onSmb_frame | with_reducible apply smbOut_frame

theorem execSmbDieTemp_frame (s : State) (hs : Frame s0 s) :
    FrameO s0 (execSmbDieTemp s) := by
  unfold execSmbDieTemp
  repeat' first
    | with_reducible assumption | exact trivial | (intro _) | lift_lets -underBinder
    | with_reducible apply FrameO.next | with_reducible apply onSmb_frame | with_reducible apply smbOut_frame

theorem execSmbStackTemp_frame (s : State) (hs : Frame s0 s) :
    FrameO s0 (execSmbStackTemp s) := by
  unfold execSmbStackTemp
  repeat' first
    | with_reducible assumption | exact trivial | (intro _) | lift_lets -underBinder
    | with_reducible apply FrameO.next | with_reducible apply onSmb_frame | with_reducible apply smbOut_frame

theorem execSmbEnergy_frame (s : State) (hs : Frame s0 s) :
    FrameO s0 (execSmbEnergy s) := by
  unfold execSmbEnergy
  repeat' first
    | with_reducible assumption | exact trivial | (intro _) | lift_lets -underBinder
    | with_reducible apply FrameO.next | with_reducible apply onSmb_frame | with_reducible apply smbOut_frame

theorem execSmbThrottle_frame (s : State) (hs : Frame s0 s) :
    FrameO s0 (execSmbThrottle s) := by
  unfold execSmbThrottle
  repeat' first
    | with_reducible assumption | exact trivial | (intro _) | lift_lets -underBinder
    | with_reducible apply FrameO.next | with_reducible apply onSmb_frame | with_reducible apply smbOut_frame

theorem execSmbSerial_frame (s : State) (hs : Frame s0 s) :
    FrameO s0 (execSmbSerial s) := by
  unfold execSmbSerial
  repeat' first
    | with_reducible assumption | exact trivial | (intro _) | lift_lets -underBinder
    | with_reducible apply FrameO.next | with_reducible apply onSmb_frame | with_reducible apply smbOut_frame

theorem execSmbFaults_frame (s : State) (hs : Frame s0 s) :
    FrameO s0 (execSmbFaults s) := by
  unfold execSmbFaults
  repeat' first
    | with_reducible assumption | exact trivial | (intro _) | lift_lets -underBinder
    | with_reducible apply FrameO.next | with_reducible apply onSmb_frame | with_reducible apply smbOut_frame

theorem onFlash_frame (s : State) (ok : Bool) (f : State → State) (hs : Frame s0 s)
    (hf : ∀ y0, Frame s0 y0 → Frame s0 (f y0)) :
    FrameO s0 (onFlash s ok f) := by
  unfold onFlash
  repeat' first
    | with_reducible assumption | exact trivial
    | (intro x; clear_value (hxv : x = _); with_reducible have hxw := flash_let hxv; subst hxw) | (intro _)
    | lift_lets -underBinder | with_reducible apply hf | with_reducible apply FrameO.next
    | with_reducible apply onSmb_frame | split | with_reducible apply Frame.upd
    | with_reducible refine Frame.updFlash ?_ (fun hw => hw)

theorem execSmbFlashAddr_frame (address : W32) (s : State) (hs : Frame s0 s) :
    FrameO s0 (execSmbFlashAddr address s) := by
  unfold execSmbFlashAddr
  repeat' first
    | with_reducible assumption | exact trivial
    | (intro x; clear_value (hxv : x = _); with_reducible have hxw := flash_let hxv; subst hxw) | (intro _)
    | lift_lets -underBinder | with_reducible apply FrameO.next | with_reducible apply onSmb_frame | split
    | with_reducible apply Frame.upd | with_reducible refine Frame.updFlash ?_ (fun hw => hw)

theorem execSmbFlashData_frame (data : List Byte) (s : State) (hs : Frame s0 s) :
    FrameO s0 (execSmbFlashData data s) := by
  unfold execSmbFlashData
  repeat' first
    | with_reducible assumption | exact trivial
    | (intro x; clear_value (hxv : x = _); with_reducible have hxw := flash_let hxv; subst hxw)
    | (intro x; clear_value x) | (intro _) | lift_lets -underBinder | with_reducible apply FrameO.next
    | with_reducible apply onFlash_frame | split | with_reducible apply Frame.upd
    | with_reducible refine Frame.updFlash ?_ (fun hw => hw)

theorem execSmbFlashErase_frame (sectors : Nat) (s : State) (hs : Frame s0 s) :
    FrameO s0 (execSmbFlashErase sectors s) := by
  unfold execSmbFlashErase
  repeat' first
    | with_reducible assumption | exact trivial
    | (intro x; clear_value (hxv : x = _); with_reducible have hxw := flash_let hxv; subst hxw)
    | (intro x; clear_value x) | (intro _) | lift_lets -underBinder | with_reducible apply FrameO.next
    | with_reducible apply onFlash_frame | split | with_reducible apply Frame.upd
    | with_reducible refine Frame.updFlash ?_ (fun hw => hw)

theorem execSmbFlashRead_frame (count : Nat) (s : State) (hs : Frame s0 s) :
    FrameO s0 (execSmbFlashRead count s) := by
  unfold execSmbFlashRead
  repeat' first
    | with_reducible assumption | exact trivial
    | (intro x; clear_value (hxv : x = _); with_reducible have hxw := flash_let hxv; subst hxw)
    | (intro x; clear_value x) | (intro _) | lift_lets -underBinder | with_reducible apply FrameO.next
    | with_reducible apply onFlash_frame | with_reducible apply smbOut_frame | split | with_reducible apply Frame.upd
    | with_reducible refine Frame.updFlash ?_ (fun hw => hw)

theorem execSmbFlashStatus_frame (s : State) (hs : Frame s0 s) :
    FrameO s0 (execSmbFlashStatus s) := by
  unfold execSmbFlashStatus
  repeat' first
    | with_reducible assumption | exact trivial
    | (intro x; clear_value (hxv : x = _); with_reducible have hxw := flash_let hxv; subst hxw) | (intro _)
    | lift_lets -underBinder | with_reducible apply FrameO.next | with_reducible apply onSmb_frame
    | with_reducible apply smbOut_frame | split | with_reducible apply Frame.upd
    | with_reducible refine Frame.updFlash ?_ (fun hw => hw)

theorem flashWork_frame (s : State) (hs : Frame s0 s) :
    Frame s0 (flashWork s) := by
  unfold flashWork
  split
  · exact hs
  · exact Frame.updFlash hs fun hw => memWrite_wf _ _ _ (memClear_wf _ _ _ hw)

theorem execFlashOperationDone_frame (s : State) (hs : Frame s0 s) :
    FrameO s0 (execFlashOperationDone s) := by
  unfold execFlashOperationDone
  repeat' first
    | with_reducible assumption | exact trivial | (intro _) | lift_lets -underBinder
    | with_reducible apply FrameO.next | with_reducible apply onSmb_frame | with_reducible apply flashWork_frame

theorem say_frame (bs : List Byte) (s : State) (hs : Frame s0 s) :
    Frame s0 (say bs s) := by
  unfold say
  repeat' first
    | with_reducible assumption | (intro x; clear_value x) | (intro _) | lift_lets -underBinder | split
    | with_reducible apply Frame.upd

theorem answer_frame (text : String) (s : State) (hs : Frame s0 s) :
    Frame s0 (answer text s) := by
  unfold answer
  repeat' first | with_reducible assumption | (intro _) | lift_lets -underBinder | with_reducible apply say_frame

theorem takeLine_frame (line : List Byte) (s : State) (hs : Frame s0 s) :
    Frame s0 (takeLine line s) := by
  unfold takeLine
  repeat' first
    | with_reducible assumption
    | (intro x; clear_value (hxv : x = _); with_reducible refine frame_let (s0 := s0) hxv ?_ fun hx => ?_)
    | (intro x; clear_value x) | (intro _) | lift_lets -underBinder | with_reducible apply say_frame
    | with_reducible apply answer_frame | split | with_reducible apply Frame.upd

theorem monChar_frame (ch : Byte) (s : State) (hs : Frame s0 s) :
    Frame s0 (monChar ch s) := by
  unfold monChar
  repeat' first
    | with_reducible assumption
    | (intro x; clear_value (hxv : x = _); with_reducible refine frame_let (s0 := s0) hxv ?_ fun hx => ?_)
    | (intro x; clear_value x) | (intro _) | lift_lets -underBinder | with_reducible apply say_frame
    | with_reducible apply takeLine_frame | split | with_reducible apply Frame.upd

theorem execMonCharacterReceive_frame (ch : Byte) (s : State) (hs : Frame s0 s) :
    FrameO s0 (execMonCharacterReceive ch s) := by
  unfold execMonCharacterReceive
  repeat' first
    | with_reducible assumption | exact trivial | (intro _) | lift_lets -underBinder
    | with_reducible apply FrameO.next | with_reducible apply monChar_frame | split

theorem execMonSessionTimeout_frame (s : State) (hs : Frame s0 s) :
    FrameO s0 (execMonSessionTimeout s) := by
  unfold execMonSessionTimeout
  repeat' first
    | with_reducible assumption | exact trivial | (intro x; clear_value x) | (intro _) | lift_lets -underBinder
    | with_reducible apply FrameO.next | split | with_reducible apply Frame.upd

theorem onMon_frame {α : Type} (pick : MonCmd → Option α) (s : State) (f : α → State → State) (hs : Frame s0 s)
    (hf : ∀ y0 y1, Frame s0 y1 → Frame s0 (f y0 y1)) :
    FrameO s0 (onMon pick s f) := by
  unfold onMon
  repeat' first
    | with_reducible assumption | exact trivial | (intro _) | lift_lets -underBinder | with_reducible apply hf
    | with_reducible apply FrameO.next | split

theorem monDone_frame (text : String) (s : State) (hs : Frame s0 s) :
    Frame s0 (monDone text s) := by
  unfold monDone
  repeat' first
    | with_reducible assumption | (intro x; clear_value x) | (intro _) | lift_lets -underBinder
    | with_reducible apply answer_frame | split | with_reducible apply Frame.upd

theorem monAccept_frame (s : State) (hs : Frame s0 s) :
    Frame s0 (monAccept s) := by
  unfold monAccept
  repeat' first
    | with_reducible assumption | (intro x; clear_value x) | (intro _) | lift_lets -underBinder
    | with_reducible apply raise_frame | split | with_reducible apply Frame.upd

theorem monRead_frame (p : Place) (n : Nat) (s : State) (hs : Frame s0 s) :
    Frame s0 (monRead p n s).2 := by
  unfold monRead
  repeat' first
    | with_reducible assumption
    | (intro x; clear_value (hxv : x = _); with_reducible refine frame_let_snd (s0 := s0) hxv ?_ fun hx => ?_)
    | (intro _) | lift_lets -underBinder | with_reducible apply getPieces_frame | with_reducible apply noteWaits_frame
    | with_reducible apply charge_frame | with_reducible apply regRead_frame | split

theorem monWrite_frame (p : Place) (bs : List Byte) (s : State) (hs : Frame s0 s) :
    Frame s0 (monWrite p bs s) := by
  unfold monWrite
  repeat' first
    | with_reducible assumption
    | (intro x; clear_value (hxv : x = _); with_reducible refine frame_let (s0 := s0) hxv ?_ fun hx => ?_) | (intro _)
    | lift_lets -underBinder | with_reducible apply putPieces_frame | with_reducible apply noteWaits_frame
    | with_reducible apply regWrite_frame | split

theorem monAccess_frame (a : W64) (n : Nat) (s : State) (f : Place → State → State) (hs : Frame s0 s)
    (hf : ∀ y0 y1, Frame s0 y1 → Frame s0 (f y0 y1)) :
    Frame s0 (monAccess a n s f) := by
  unfold monAccess
  repeat' first
    | with_reducible assumption | (intro _) | lift_lets -underBinder | with_reducible apply hf
    | with_reducible apply monDone_frame | with_reducible apply monAccept_frame | with_reducible apply noteWaits_frame
    | split

theorem execMonPeek_frame (s : State) (hs : Frame s0 s) :
    FrameO s0 (execMonPeek s) := by
  unfold execMonPeek
  repeat' first
    | with_reducible assumption | exact trivial
    | (intro x; clear_value (hxv : x = _); with_reducible refine frame_let_snd (s0 := s0) hxv ?_ fun hx => ?_)
    | (intro _) | lift_lets -underBinder | with_reducible apply FrameO.next | with_reducible apply onMon_frame
    | with_reducible apply monAccess_frame | with_reducible apply monRead_frame | with_reducible apply monDone_frame
    | with_reducible apply say_frame

theorem execMonPoke_frame (s : State) (hs : Frame s0 s) :
    FrameO s0 (execMonPoke s) := by
  unfold execMonPoke
  repeat' first
    | with_reducible assumption | exact trivial | (intro _) | lift_lets -underBinder
    | with_reducible apply FrameO.next | with_reducible apply onMon_frame | with_reducible apply monAccess_frame
    | with_reducible apply monDone_frame | with_reducible apply raise_frame | with_reducible apply monWrite_frame

theorem execMonDump_frame (s : State) (hs : Frame s0 s) :
    FrameO s0 (execMonDump s) := by
  unfold execMonDump
  repeat' first
    | with_reducible assumption | exact trivial
    | (intro x; clear_value (hxv : x = _); with_reducible refine frame_let_snd (s0 := s0) hxv ?_ fun hx => ?_)
    | (intro _) | lift_lets -underBinder | with_reducible apply FrameO.next | with_reducible apply onMon_frame
    | with_reducible apply monDone_frame | with_reducible apply monAccept_frame | with_reducible apply monRead_frame
    | with_reducible apply say_frame | with_reducible apply noteWaits_frame | split

theorem monTgen_frame (k ch pattern mode count : Nat) (s : State) (hs : Frame s0 s) :
    Frame s0 (monTgen k ch pattern mode count s) := by
  unfold monTgen
  repeat' first
    | with_reducible assumption
    | (intro x; clear_value (hxv : x = _); with_reducible refine frame_let (s0 := s0) hxv ?_ fun hx => ?_)
    | (intro x; clear_value x) | (intro _) | lift_lets -underBinder | with_reducible apply monDone_frame
    | with_reducible apply monAccept_frame | with_reducible apply rewriteBursts_frame
    | with_reducible apply raise_frame | with_reducible apply say_frame | with_reducible apply monWrite_frame
    | with_reducible apply take_frame | split

theorem execMonTgen_frame (s : State) (hs : Frame s0 s) :
    FrameO s0 (execMonTgen s) := by
  unfold execMonTgen
  repeat' first
    | with_reducible assumption | exact trivial | (intro _) | lift_lets -underBinder
    | with_reducible apply FrameO.next | with_reducible apply onMon_frame | with_reducible apply monTgen_frame

theorem monLap_frame (s : State) (hs : Frame s0 s) :
    Frame s0 (monLap s) := by
  unfold monLap
  repeat' first
    | with_reducible assumption
    | (intro x; clear_value (hxv : x = _); with_reducible refine frame_let (s0 := s0) hxv ?_ fun hx => ?_)
    | (intro x; clear_value (hxv : x = _); with_reducible refine frame_let_snd_snd (s0 := s0) hxv ?_ fun hx => ?_)
    | (intro x; clear_value x) | (intro _) | lift_lets -underBinder | with_reducible apply monDone_frame
    | with_reducible apply lapAll_frame | with_reducible apply monAccept_frame | with_reducible apply raise_frame
    | with_reducible apply say_frame | with_reducible apply monWrite_frame | split

theorem execMonLap_frame (s : State) (hs : Frame s0 s) :
    FrameO s0 (execMonLap s) := by
  unfold execMonLap
  repeat' first
    | with_reducible assumption | exact trivial | (intro _) | lift_lets -underBinder
    | with_reducible apply FrameO.next | with_reducible apply onMon_frame | with_reducible apply monLap_frame

theorem execMonLink_frame (s : State) (hs : Frame s0 s) :
    FrameO s0 (execMonLink s) := by
  unfold execMonLink
  repeat' first
    | with_reducible assumption | exact trivial | (intro _) | lift_lets -underBinder
    | with_reducible apply FrameO.next | with_reducible apply onMon_frame | with_reducible apply monDone_frame
    | with_reducible apply say_frame | with_reducible apply monAccept_frame | split

theorem execMonFaults_frame (s : State) (hs : Frame s0 s) :
    FrameO s0 (execMonFaults s) := by
  unfold execMonFaults
  repeat' first
    | with_reducible assumption | exact trivial | (intro _) | lift_lets -underBinder
    | with_reducible apply FrameO.next | with_reducible apply onMon_frame | with_reducible apply monDone_frame
    | with_reducible apply say_frame | with_reducible apply monAccept_frame

theorem execMonIsland_frame (s : State) (hs : Frame s0 s) :
    FrameO s0 (execMonIsland s) := by
  unfold execMonIsland
  repeat' first
    | with_reducible assumption | exact trivial | (intro _) | lift_lets -underBinder
    | with_reducible apply FrameO.next | with_reducible apply onMon_frame | with_reducible apply monDone_frame
    | with_reducible apply say_frame | with_reducible apply monAccept_frame

theorem execMonBoot_frame (s : State) (hs : Frame s0 s) :
    FrameO s0 (execMonBoot s) := by
  unfold execMonBoot
  repeat' first
    | with_reducible assumption | exact trivial | (intro _) | lift_lets -underBinder
    | with_reducible apply FrameO.next | with_reducible apply onMon_frame | with_reducible apply monDone_frame
    | with_reducible apply say_frame | with_reducible apply monAccept_frame

theorem execMonQuit_frame (s : State) (hs : Frame s0 s) :
    FrameO s0 (execMonQuit s) := by
  unfold execMonQuit
  repeat' first
    | with_reducible assumption | exact trivial
    | (intro x; clear_value (hxv : x = _); with_reducible refine frame_let (s0 := s0) hxv ?_ fun hx => ?_)
    | (intro x; clear_value x) | (intro _) | lift_lets -underBinder | with_reducible apply FrameO.next
    | with_reducible apply onMon_frame | with_reducible apply monAccept_frame | with_reducible apply monDone_frame
    | split | with_reducible apply Frame.upd

end Sys2Proof.Machine
end

