-- ==== Sys2Proof/Laws/State.lean ====
section
/-!
SUPPORT. What each named update of State leaves as it was, field by field, so that no proof unfolds a record update; what
a table, a command in flight and a queue read as after an update; what an event leaves of the interrupt tree.
-/

namespace Sys2Proof.Machine

/-! ### updCmd writes front only -/

@[simp] theorem updCmd_pending (id : Nat) (f : Cmd → Cmd) (s : State) : (updCmd id f s).pending = s.pending := rfl
@[simp] theorem updCmd_fuse (id : Nat) (f : Cmd → Cmd) (s : State) : (updCmd id f s).fuse = s.fuse := rfl
@[simp] theorem updCmd_boot (id : Nat) (f : Cmd → Cmd) (s : State) : (updCmd id f s).boot = s.boot := rfl
@[simp] theorem updCmd_pins (id : Nat) (f : Cmd → Cmd) (s : State) : (updCmd id f s).pins = s.pins := rfl
@[simp] theorem updCmd_time (id : Nat) (f : Cmd → Cmd) (s : State) : (updCmd id f s).time = s.time := rfl
@[simp] theorem updCmd_irq (id : Nat) (f : Cmd → Cmd) (s : State) : (updCmd id f s).irq = s.irq := rfl
@[simp] theorem updCmd_parts (id : Nat) (f : Cmd → Cmd) (s : State) : (updCmd id f s).parts = s.parts := rfl
@[simp] theorem updCmd_jobs (id : Nat) (f : Cmd → Cmd) (s : State) : (updCmd id f s).jobs = s.jobs := rfl
@[simp] theorem updCmd_tiles (id : Nat) (f : Cmd → Cmd) (s : State) : (updCmd id f s).tiles = s.tiles := rfl
@[simp] theorem updCmd_store (id : Nat) (f : Cmd → Cmd) (s : State) : (updCmd id f s).store = s.store := rfl
@[simp] theorem updCmd_dram (id : Nat) (f : Cmd → Cmd) (s : State) : (updCmd id f s).dram = s.dram := rfl
@[simp] theorem updCmd_far (id : Nat) (f : Cmd → Cmd) (s : State) : (updCmd id f s).far = s.far := rfl
@[simp] theorem updCmd_serve (id : Nat) (f : Cmd → Cmd) (s : State) : (updCmd id f s).serve = s.serve := rfl
@[simp] theorem updCmd_fabric (id : Nat) (f : Cmd → Cmd) (s : State) : (updCmd id f s).fabric = s.fabric := rfl
@[simp] theorem updCmd_faults (id : Nat) (f : Cmd → Cmd) (s : State) : (updCmd id f s).faults = s.faults := rfl
@[simp] theorem updCmd_weights (id : Nat) (f : Cmd → Cmd) (s : State) : (updCmd id f s).weights = s.weights := rfl
@[simp] theorem updCmd_security (id : Nat) (f : Cmd → Cmd) (s : State) : (updCmd id f s).security = s.security := rfl
@[simp] theorem updCmd_pmu (id : Nat) (f : Cmd → Cmd) (s : State) : (updCmd id f s).pmu = s.pmu := rfl
@[simp] theorem updCmd_flash (id : Nat) (f : Cmd → Cmd) (s : State) : (updCmd id f s).flash = s.flash := rfl
@[simp] theorem updCmd_mon (id : Nat) (f : Cmd → Cmd) (s : State) : (updCmd id f s).mon = s.mon := rfl
@[simp] theorem updCmd_flights (id : Nat) (f : Cmd → Cmd) (s : State) : (updCmd id f s).flights = s.flights := rfl
@[simp] theorem updCmd_microcode (id : Nat) (f : Cmd → Cmd) (s : State) : (updCmd id f s).microcode = s.microcode := rfl
@[simp] theorem updCmd_free (id : Nat) (f : Cmd → Cmd) (s : State) : (updCmd id f s).free = s.free := rfl

/-! ### rejectCmd writes front only -/

@[simp] theorem rejectCmd_pending (id : Nat) (m : Mark) (s : State) : (rejectCmd id m s).pending = s.pending := rfl
@[simp] theorem rejectCmd_fuse (id : Nat) (m : Mark) (s : State) : (rejectCmd id m s).fuse = s.fuse := rfl
@[simp] theorem rejectCmd_boot (id : Nat) (m : Mark) (s : State) : (rejectCmd id m s).boot = s.boot := rfl
@[simp] theorem rejectCmd_pins (id : Nat) (m : Mark) (s : State) : (rejectCmd id m s).pins = s.pins := rfl
@[simp] theorem rejectCmd_time (id : Nat) (m : Mark) (s : State) : (rejectCmd id m s).time = s.time := rfl
@[simp] theorem rejectCmd_irq (id : Nat) (m : Mark) (s : State) : (rejectCmd id m s).irq = s.irq := rfl
@[simp] theorem rejectCmd_parts (id : Nat) (m : Mark) (s : State) : (rejectCmd id m s).parts = s.parts := rfl
@[simp] theorem rejectCmd_jobs (id : Nat) (m : Mark) (s : State) : (rejectCmd id m s).jobs = s.jobs := rfl
@[simp] theorem rejectCmd_tiles (id : Nat) (m : Mark) (s : State) : (rejectCmd id m s).tiles = s.tiles := rfl
@[simp] theorem rejectCmd_store (id : Nat) (m : Mark) (s : State) : (rejectCmd id m s).store = s.store := rfl
@[simp] theorem rejectCmd_dram (id : Nat) (m : Mark) (s : State) : (rejectCmd id m s).dram = s.dram := rfl
@[simp] theorem rejectCmd_far (id : Nat) (m : Mark) (s : State) : (rejectCmd id m s).far = s.far := rfl
@[simp] theorem rejectCmd_serve (id : Nat) (m : Mark) (s : State) : (rejectCmd id m s).serve = s.serve := rfl
@[simp] theorem rejectCmd_fabric (id : Nat) (m : Mark) (s : State) : (rejectCmd id m s).fabric = s.fabric := rfl
@[simp] theorem rejectCmd_faults (id : Nat) (m : Mark) (s : State) : (rejectCmd id m s).faults = s.faults := rfl
@[simp] theorem rejectCmd_weights (id : Nat) (m : Mark) (s : State) : (rejectCmd id m s).weights = s.weights := rfl
@[simp] theorem rejectCmd_security (id : Nat) (m : Mark) (s : State) : (rejectCmd id m s).security = s.security := rfl
@[simp] theorem rejectCmd_pmu (id : Nat) (m : Mark) (s : State) : (rejectCmd id m s).pmu = s.pmu := rfl
@[simp] theorem rejectCmd_flash (id : Nat) (m : Mark) (s : State) : (rejectCmd id m s).flash = s.flash := rfl
@[simp] theorem rejectCmd_mon (id : Nat) (m : Mark) (s : State) : (rejectCmd id m s).mon = s.mon := rfl
@[simp] theorem rejectCmd_flights (id : Nat) (m : Mark) (s : State) : (rejectCmd id m s).flights = s.flights := rfl
@[simp] theorem rejectCmd_microcode (id : Nat) (m : Mark) (s : State) : (rejectCmd id m s).microcode = s.microcode := rfl
@[simp] theorem rejectCmd_free (id : Nat) (m : Mark) (s : State) : (rejectCmd id m s).free = s.free := rfl

/-! ### finishCmd writes front only -/

@[simp] theorem finishCmd_pending (id : Nat) (ms : List Mark) (s : State) : (finishCmd id ms s).pending = s.pending := rfl
@[simp] theorem finishCmd_fuse (id : Nat) (ms : List Mark) (s : State) : (finishCmd id ms s).fuse = s.fuse := rfl
@[simp] theorem finishCmd_boot (id : Nat) (ms : List Mark) (s : State) : (finishCmd id ms s).boot = s.boot := rfl
@[simp] theorem finishCmd_pins (id : Nat) (ms : List Mark) (s : State) : (finishCmd id ms s).pins = s.pins := rfl
@[simp] theorem finishCmd_time (id : Nat) (ms : List Mark) (s : State) : (finishCmd id ms s).time = s.time := rfl
@[simp] theorem finishCmd_irq (id : Nat) (ms : List Mark) (s : State) : (finishCmd id ms s).irq = s.irq := rfl
@[simp] theorem finishCmd_parts (id : Nat) (ms : List Mark) (s : State) : (finishCmd id ms s).parts = s.parts := rfl
@[simp] theorem finishCmd_jobs (id : Nat) (ms : List Mark) (s : State) : (finishCmd id ms s).jobs = s.jobs := rfl
@[simp] theorem finishCmd_tiles (id : Nat) (ms : List Mark) (s : State) : (finishCmd id ms s).tiles = s.tiles := rfl
@[simp] theorem finishCmd_store (id : Nat) (ms : List Mark) (s : State) : (finishCmd id ms s).store = s.store := rfl
@[simp] theorem finishCmd_dram (id : Nat) (ms : List Mark) (s : State) : (finishCmd id ms s).dram = s.dram := rfl
@[simp] theorem finishCmd_far (id : Nat) (ms : List Mark) (s : State) : (finishCmd id ms s).far = s.far := rfl
@[simp] theorem finishCmd_serve (id : Nat) (ms : List Mark) (s : State) : (finishCmd id ms s).serve = s.serve := rfl
@[simp] theorem finishCmd_fabric (id : Nat) (ms : List Mark) (s : State) : (finishCmd id ms s).fabric = s.fabric := rfl
@[simp] theorem finishCmd_faults (id : Nat) (ms : List Mark) (s : State) : (finishCmd id ms s).faults = s.faults := rfl
@[simp] theorem finishCmd_weights (id : Nat) (ms : List Mark) (s : State) : (finishCmd id ms s).weights = s.weights := rfl
@[simp] theorem finishCmd_security (id : Nat) (ms : List Mark) (s : State) : (finishCmd id ms s).security = s.security := rfl
@[simp] theorem finishCmd_pmu (id : Nat) (ms : List Mark) (s : State) : (finishCmd id ms s).pmu = s.pmu := rfl
@[simp] theorem finishCmd_flash (id : Nat) (ms : List Mark) (s : State) : (finishCmd id ms s).flash = s.flash := rfl
@[simp] theorem finishCmd_mon (id : Nat) (ms : List Mark) (s : State) : (finishCmd id ms s).mon = s.mon := rfl
@[simp] theorem finishCmd_flights (id : Nat) (ms : List Mark) (s : State) : (finishCmd id ms s).flights = s.flights := rfl
@[simp] theorem finishCmd_microcode (id : Nat) (ms : List Mark) (s : State) : (finishCmd id ms s).microcode = s.microcode := rfl
@[simp] theorem finishCmd_free (id : Nat) (ms : List Mark) (s : State) : (finishCmd id ms s).free = s.free := rfl

/-! ### doneCmd writes front only -/

@[simp] theorem doneCmd_pending (id n : Nat) (s : State) : (doneCmd id n s).pending = s.pending := rfl
@[simp] theorem doneCmd_fuse (id n : Nat) (s : State) : (doneCmd id n s).fuse = s.fuse := rfl
@[simp] theorem doneCmd_boot (id n : Nat) (s : State) : (doneCmd id n s).boot = s.boot := rfl
@[simp] theorem doneCmd_pins (id n : Nat) (s : State) : (doneCmd id n s).pins = s.pins := rfl
@[simp] theorem doneCmd_time (id n : Nat) (s : State) : (doneCmd id n s).time = s.time := rfl
@[simp] theorem doneCmd_irq (id n : Nat) (s : State) : (doneCmd id n s).irq = s.irq := rfl
@[simp] theorem doneCmd_parts (id n : Nat) (s : State) : (doneCmd id n s).parts = s.parts := rfl
@[simp] theorem doneCmd_jobs (id n : Nat) (s : State) : (doneCmd id n s).jobs = s.jobs := rfl
@[simp] theorem doneCmd_tiles (id n : Nat) (s : State) : (doneCmd id n s).tiles = s.tiles := rfl
@[simp] theorem doneCmd_store (id n : Nat) (s : State) : (doneCmd id n s).store = s.store := rfl
@[simp] theorem doneCmd_dram (id n : Nat) (s : State) : (doneCmd id n s).dram = s.dram := rfl
@[simp] theorem doneCmd_far (id n : Nat) (s : State) : (doneCmd id n s).far = s.far := rfl
@[simp] theorem doneCmd_serve (id n : Nat) (s : State) : (doneCmd id n s).serve = s.serve := rfl
@[simp] theorem doneCmd_fabric (id n : Nat) (s : State) : (doneCmd id n s).fabric = s.fabric := rfl
@[simp] theorem doneCmd_faults (id n : Nat) (s : State) : (doneCmd id n s).faults = s.faults := rfl
@[simp] theorem doneCmd_weights (id n : Nat) (s : State) : (doneCmd id n s).weights = s.weights := rfl
@[simp] theorem doneCmd_security (id n : Nat) (s : State) : (doneCmd id n s).security = s.security := rfl
@[simp] theorem doneCmd_pmu (id n : Nat) (s : State) : (doneCmd id n s).pmu = s.pmu := rfl
@[simp] theorem doneCmd_flash (id n : Nat) (s : State) : (doneCmd id n s).flash = s.flash := rfl
@[simp] theorem doneCmd_mon (id n : Nat) (s : State) : (doneCmd id n s).mon = s.mon := rfl
@[simp] theorem doneCmd_flights (id n : Nat) (s : State) : (doneCmd id n s).flights = s.flights := rfl
@[simp] theorem doneCmd_microcode (id n : Nat) (s : State) : (doneCmd id n s).microcode = s.microcode := rfl
@[simp] theorem doneCmd_free (id n : Nat) (s : State) : (doneCmd id n s).free = s.free := rfl

/-! ### waitCmd writes front only -/

@[simp] theorem waitCmd_pending (id : Nat) (s : State) : (waitCmd id s).pending = s.pending := rfl
@[simp] theorem waitCmd_fuse (id : Nat) (s : State) : (waitCmd id s).fuse = s.fuse := rfl
@[simp] theorem waitCmd_boot (id : Nat) (s : State) : (waitCmd id s).boot = s.boot := rfl
@[simp] theorem waitCmd_pins (id : Nat) (s : State) : (waitCmd id s).pins = s.pins := rfl
@[simp] theorem waitCmd_time (id : Nat) (s : State) : (waitCmd id s).time = s.time := rfl
@[simp] theorem waitCmd_irq (id : Nat) (s : State) : (waitCmd id s).irq = s.irq := rfl
@[simp] theorem waitCmd_parts (id : Nat) (s : State) : (waitCmd id s).parts = s.parts := rfl
@[simp] theorem waitCmd_jobs (id : Nat) (s : State) : (waitCmd id s).jobs = s.jobs := rfl
@[simp] theorem waitCmd_tiles (id : Nat) (s : State) : (waitCmd id s).tiles = s.tiles := rfl
@[simp] theorem waitCmd_store (id : Nat) (s : State) : (waitCmd id s).store = s.store := rfl
@[simp] theorem waitCmd_dram (id : Nat) (s : State) : (waitCmd id s).dram = s.dram := rfl
@[simp] theorem waitCmd_far (id : Nat) (s : State) : (waitCmd id s).far = s.far := rfl
@[simp] theorem waitCmd_serve (id : Nat) (s : State) : (waitCmd id s).serve = s.serve := rfl
@[simp] theorem waitCmd_fabric (id : Nat) (s : State) : (waitCmd id s).fabric = s.fabric := rfl
@[simp] theorem waitCmd_faults (id : Nat) (s : State) : (waitCmd id s).faults = s.faults := rfl
@[simp] theorem waitCmd_weights (id : Nat) (s : State) : (waitCmd id s).weights = s.weights := rfl
@[simp] theorem waitCmd_security (id : Nat) (s : State) : (waitCmd id s).security = s.security := rfl
@[simp] theorem waitCmd_pmu (id : Nat) (s : State) : (waitCmd id s).pmu = s.pmu := rfl
@[simp] theorem waitCmd_flash (id : Nat) (s : State) : (waitCmd id s).flash = s.flash := rfl
@[simp] theorem waitCmd_mon (id : Nat) (s : State) : (waitCmd id s).mon = s.mon := rfl
@[simp] theorem waitCmd_flights (id : Nat) (s : State) : (waitCmd id s).flights = s.flights := rfl
@[simp] theorem waitCmd_microcode (id : Nat) (s : State) : (waitCmd id s).microcode = s.microcode := rfl
@[simp] theorem waitCmd_free (id : Nat) (s : State) : (waitCmd id s).free = s.free := rfl

/-! ### resumeCmd writes front only -/

@[simp] theorem resumeCmd_pending (id : Nat) (s : State) : (resumeCmd id s).pending = s.pending := rfl
@[simp] theorem resumeCmd_fuse (id : Nat) (s : State) : (resumeCmd id s).fuse = s.fuse := rfl
@[simp] theorem resumeCmd_boot (id : Nat) (s : State) : (resumeCmd id s).boot = s.boot := rfl
@[simp] theorem resumeCmd_pins (id : Nat) (s : State) : (resumeCmd id s).pins = s.pins := rfl
@[simp] theorem resumeCmd_time (id : Nat) (s : State) : (resumeCmd id s).time = s.time := rfl
@[simp] theorem resumeCmd_irq (id : Nat) (s : State) : (resumeCmd id s).irq = s.irq := rfl
@[simp] theorem resumeCmd_parts (id : Nat) (s : State) : (resumeCmd id s).parts = s.parts := rfl
@[simp] theorem resumeCmd_jobs (id : Nat) (s : State) : (resumeCmd id s).jobs = s.jobs := rfl
@[simp] theorem resumeCmd_tiles (id : Nat) (s : State) : (resumeCmd id s).tiles = s.tiles := rfl
@[simp] theorem resumeCmd_store (id : Nat) (s : State) : (resumeCmd id s).store = s.store := rfl
@[simp] theorem resumeCmd_dram (id : Nat) (s : State) : (resumeCmd id s).dram = s.dram := rfl
@[simp] theorem resumeCmd_far (id : Nat) (s : State) : (resumeCmd id s).far = s.far := rfl
@[simp] theorem resumeCmd_serve (id : Nat) (s : State) : (resumeCmd id s).serve = s.serve := rfl
@[simp] theorem resumeCmd_fabric (id : Nat) (s : State) : (resumeCmd id s).fabric = s.fabric := rfl
@[simp] theorem resumeCmd_faults (id : Nat) (s : State) : (resumeCmd id s).faults = s.faults := rfl
@[simp] theorem resumeCmd_weights (id : Nat) (s : State) : (resumeCmd id s).weights = s.weights := rfl
@[simp] theorem resumeCmd_security (id : Nat) (s : State) : (resumeCmd id s).security = s.security := rfl
@[simp] theorem resumeCmd_pmu (id : Nat) (s : State) : (resumeCmd id s).pmu = s.pmu := rfl
@[simp] theorem resumeCmd_flash (id : Nat) (s : State) : (resumeCmd id s).flash = s.flash := rfl
@[simp] theorem resumeCmd_mon (id : Nat) (s : State) : (resumeCmd id s).mon = s.mon := rfl
@[simp] theorem resumeCmd_flights (id : Nat) (s : State) : (resumeCmd id s).flights = s.flights := rfl
@[simp] theorem resumeCmd_microcode (id : Nat) (s : State) : (resumeCmd id s).microcode = s.microcode := rfl
@[simp] theorem resumeCmd_free (id : Nat) (s : State) : (resumeCmd id s).free = s.free := rfl

/-! ### setQueue writes front only -/

@[simp] theorem setQueue_pending (s : State) (q : Nat) (x : Queue) : (setQueue s q x).pending = s.pending := rfl
@[simp] theorem setQueue_fuse (s : State) (q : Nat) (x : Queue) : (setQueue s q x).fuse = s.fuse := rfl
@[simp] theorem setQueue_boot (s : State) (q : Nat) (x : Queue) : (setQueue s q x).boot = s.boot := rfl
@[simp] theorem setQueue_pins (s : State) (q : Nat) (x : Queue) : (setQueue s q x).pins = s.pins := rfl
@[simp] theorem setQueue_time (s : State) (q : Nat) (x : Queue) : (setQueue s q x).time = s.time := rfl
@[simp] theorem setQueue_irq (s : State) (q : Nat) (x : Queue) : (setQueue s q x).irq = s.irq := rfl
@[simp] theorem setQueue_parts (s : State) (q : Nat) (x : Queue) : (setQueue s q x).parts = s.parts := rfl
@[simp] theorem setQueue_jobs (s : State) (q : Nat) (x : Queue) : (setQueue s q x).jobs = s.jobs := rfl
@[simp] theorem setQueue_tiles (s : State) (q : Nat) (x : Queue) : (setQueue s q x).tiles = s.tiles := rfl
@[simp] theorem setQueue_store (s : State) (q : Nat) (x : Queue) : (setQueue s q x).store = s.store := rfl
@[simp] theorem setQueue_dram (s : State) (q : Nat) (x : Queue) : (setQueue s q x).dram = s.dram := rfl
@[simp] theorem setQueue_far (s : State) (q : Nat) (x : Queue) : (setQueue s q x).far = s.far := rfl
@[simp] theorem setQueue_serve (s : State) (q : Nat) (x : Queue) : (setQueue s q x).serve = s.serve := rfl
@[simp] theorem setQueue_fabric (s : State) (q : Nat) (x : Queue) : (setQueue s q x).fabric = s.fabric := rfl
@[simp] theorem setQueue_faults (s : State) (q : Nat) (x : Queue) : (setQueue s q x).faults = s.faults := rfl
@[simp] theorem setQueue_weights (s : State) (q : Nat) (x : Queue) : (setQueue s q x).weights = s.weights := rfl
@[simp] theorem setQueue_security (s : State) (q : Nat) (x : Queue) : (setQueue s q x).security = s.security := rfl
@[simp] theorem setQueue_pmu (s : State) (q : Nat) (x : Queue) : (setQueue s q x).pmu = s.pmu := rfl
@[simp] theorem setQueue_flash (s : State) (q : Nat) (x : Queue) : (setQueue s q x).flash = s.flash := rfl
@[simp] theorem setQueue_mon (s : State) (q : Nat) (x : Queue) : (setQueue s q x).mon = s.mon := rfl
@[simp] theorem setQueue_flights (s : State) (q : Nat) (x : Queue) : (setQueue s q x).flights = s.flights := rfl
@[simp] theorem setQueue_microcode (s : State) (q : Nat) (x : Queue) : (setQueue s q x).microcode = s.microcode := rfl
@[simp] theorem setQueue_free (s : State) (q : Nat) (x : Queue) : (setQueue s q x).free = s.free := rfl

/-! ### setIrqFn writes irq only -/

@[simp] theorem setIrqFn_pending (s : State) (n : Nat) (x : IrqFn) : (setIrqFn s n x).pending = s.pending := rfl
@[simp] theorem setIrqFn_fuse (s : State) (n : Nat) (x : IrqFn) : (setIrqFn s n x).fuse = s.fuse := rfl
@[simp] theorem setIrqFn_boot (s : State) (n : Nat) (x : IrqFn) : (setIrqFn s n x).boot = s.boot := rfl
@[simp] theorem setIrqFn_pins (s : State) (n : Nat) (x : IrqFn) : (setIrqFn s n x).pins = s.pins := rfl
@[simp] theorem setIrqFn_time (s : State) (n : Nat) (x : IrqFn) : (setIrqFn s n x).time = s.time := rfl
@[simp] theorem setIrqFn_front (s : State) (n : Nat) (x : IrqFn) : (setIrqFn s n x).front = s.front := rfl
@[simp] theorem setIrqFn_parts (s : State) (n : Nat) (x : IrqFn) : (setIrqFn s n x).parts = s.parts := rfl
@[simp] theorem setIrqFn_jobs (s : State) (n : Nat) (x : IrqFn) : (setIrqFn s n x).jobs = s.jobs := rfl
@[simp] theorem setIrqFn_tiles (s : State) (n : Nat) (x : IrqFn) : (setIrqFn s n x).tiles = s.tiles := rfl
@[simp] theorem setIrqFn_store (s : State) (n : Nat) (x : IrqFn) : (setIrqFn s n x).store = s.store := rfl
@[simp] theorem setIrqFn_dram (s : State) (n : Nat) (x : IrqFn) : (setIrqFn s n x).dram = s.dram := rfl
@[simp] theorem setIrqFn_far (s : State) (n : Nat) (x : IrqFn) : (setIrqFn s n x).far = s.far := rfl
@[simp] theorem setIrqFn_serve (s : State) (n : Nat) (x : IrqFn) : (setIrqFn s n x).serve = s.serve := rfl
@[simp] theorem setIrqFn_fabric (s : State) (n : Nat) (x : IrqFn) : (setIrqFn s n x).fabric = s.fabric := rfl
@[simp] theorem setIrqFn_faults (s : State) (n : Nat) (x : IrqFn) : (setIrqFn s n x).faults = s.faults := rfl
@[simp] theorem setIrqFn_weights (s : State) (n : Nat) (x : IrqFn) : (setIrqFn s n x).weights = s.weights := rfl
@[simp] theorem setIrqFn_security (s : State) (n : Nat) (x : IrqFn) : (setIrqFn s n x).security = s.security := rfl
@[simp] theorem setIrqFn_pmu (s : State) (n : Nat) (x : IrqFn) : (setIrqFn s n x).pmu = s.pmu := rfl
@[simp] theorem setIrqFn_flash (s : State) (n : Nat) (x : IrqFn) : (setIrqFn s n x).flash = s.flash := rfl
@[simp] theorem setIrqFn_mon (s : State) (n : Nat) (x : IrqFn) : (setIrqFn s n x).mon = s.mon := rfl
@[simp] theorem setIrqFn_flights (s : State) (n : Nat) (x : IrqFn) : (setIrqFn s n x).flights = s.flights := rfl
@[simp] theorem setIrqFn_microcode (s : State) (n : Nat) (x : IrqFn) : (setIrqFn s n x).microcode = s.microcode := rfl
@[simp] theorem setIrqFn_free (s : State) (n : Nat) (x : IrqFn) : (setIrqFn s n x).free = s.free := rfl

/-! ### setPart writes parts only -/

@[simp] theorem setPart_pending (s : State) (p : Nat) (x : Part) : (setPart s p x).pending = s.pending := rfl
@[simp] theorem setPart_fuse (s : State) (p : Nat) (x : Part) : (setPart s p x).fuse = s.fuse := rfl
@[simp] theorem setPart_boot (s : State) (p : Nat) (x : Part) : (setPart s p x).boot = s.boot := rfl
@[simp] theorem setPart_pins (s : State) (p : Nat) (x : Part) : (setPart s p x).pins = s.pins := rfl
@[simp] theorem setPart_time (s : State) (p : Nat) (x : Part) : (setPart s p x).time = s.time := rfl
@[simp] theorem setPart_irq (s : State) (p : Nat) (x : Part) : (setPart s p x).irq = s.irq := rfl
@[simp] theorem setPart_front (s : State) (p : Nat) (x : Part) : (setPart s p x).front = s.front := rfl
@[simp] theorem setPart_jobs (s : State) (p : Nat) (x : Part) : (setPart s p x).jobs = s.jobs := rfl
@[simp] theorem setPart_tiles (s : State) (p : Nat) (x : Part) : (setPart s p x).tiles = s.tiles := rfl
@[simp] theorem setPart_store (s : State) (p : Nat) (x : Part) : (setPart s p x).store = s.store := rfl
@[simp] theorem setPart_dram (s : State) (p : Nat) (x : Part) : (setPart s p x).dram = s.dram := rfl
@[simp] theorem setPart_far (s : State) (p : Nat) (x : Part) : (setPart s p x).far = s.far := rfl
@[simp] theorem setPart_serve (s : State) (p : Nat) (x : Part) : (setPart s p x).serve = s.serve := rfl
@[simp] theorem setPart_fabric (s : State) (p : Nat) (x : Part) : (setPart s p x).fabric = s.fabric := rfl
@[simp] theorem setPart_faults (s : State) (p : Nat) (x : Part) : (setPart s p x).faults = s.faults := rfl
@[simp] theorem setPart_weights (s : State) (p : Nat) (x : Part) : (setPart s p x).weights = s.weights := rfl
@[simp] theorem setPart_security (s : State) (p : Nat) (x : Part) : (setPart s p x).security = s.security := rfl
@[simp] theorem setPart_pmu (s : State) (p : Nat) (x : Part) : (setPart s p x).pmu = s.pmu := rfl
@[simp] theorem setPart_flash (s : State) (p : Nat) (x : Part) : (setPart s p x).flash = s.flash := rfl
@[simp] theorem setPart_mon (s : State) (p : Nat) (x : Part) : (setPart s p x).mon = s.mon := rfl
@[simp] theorem setPart_flights (s : State) (p : Nat) (x : Part) : (setPart s p x).flights = s.flights := rfl
@[simp] theorem setPart_microcode (s : State) (p : Nat) (x : Part) : (setPart s p x).microcode = s.microcode := rfl
@[simp] theorem setPart_free (s : State) (p : Nat) (x : Part) : (setPart s p x).free = s.free := rfl

/-! ### setStack writes dram only -/

@[simp] theorem setStack_pending (s : State) (k : Nat) (x : Stack) : (setStack s k x).pending = s.pending := rfl
@[simp] theorem setStack_fuse (s : State) (k : Nat) (x : Stack) : (setStack s k x).fuse = s.fuse := rfl
@[simp] theorem setStack_boot (s : State) (k : Nat) (x : Stack) : (setStack s k x).boot = s.boot := rfl
@[simp] theorem setStack_pins (s : State) (k : Nat) (x : Stack) : (setStack s k x).pins = s.pins := rfl
@[simp] theorem setStack_time (s : State) (k : Nat) (x : Stack) : (setStack s k x).time = s.time := rfl
@[simp] theorem setStack_irq (s : State) (k : Nat) (x : Stack) : (setStack s k x).irq = s.irq := rfl
@[simp] theorem setStack_front (s : State) (k : Nat) (x : Stack) : (setStack s k x).front = s.front := rfl
@[simp] theorem setStack_parts (s : State) (k : Nat) (x : Stack) : (setStack s k x).parts = s.parts := rfl
@[simp] theorem setStack_jobs (s : State) (k : Nat) (x : Stack) : (setStack s k x).jobs = s.jobs := rfl
@[simp] theorem setStack_tiles (s : State) (k : Nat) (x : Stack) : (setStack s k x).tiles = s.tiles := rfl
@[simp] theorem setStack_store (s : State) (k : Nat) (x : Stack) : (setStack s k x).store = s.store := rfl
@[simp] theorem setStack_far (s : State) (k : Nat) (x : Stack) : (setStack s k x).far = s.far := rfl
@[simp] theorem setStack_serve (s : State) (k : Nat) (x : Stack) : (setStack s k x).serve = s.serve := rfl
@[simp] theorem setStack_fabric (s : State) (k : Nat) (x : Stack) : (setStack s k x).fabric = s.fabric := rfl
@[simp] theorem setStack_faults (s : State) (k : Nat) (x : Stack) : (setStack s k x).faults = s.faults := rfl
@[simp] theorem setStack_weights (s : State) (k : Nat) (x : Stack) : (setStack s k x).weights = s.weights := rfl
@[simp] theorem setStack_security (s : State) (k : Nat) (x : Stack) : (setStack s k x).security = s.security := rfl
@[simp] theorem setStack_pmu (s : State) (k : Nat) (x : Stack) : (setStack s k x).pmu = s.pmu := rfl
@[simp] theorem setStack_flash (s : State) (k : Nat) (x : Stack) : (setStack s k x).flash = s.flash := rfl
@[simp] theorem setStack_mon (s : State) (k : Nat) (x : Stack) : (setStack s k x).mon = s.mon := rfl
@[simp] theorem setStack_flights (s : State) (k : Nat) (x : Stack) : (setStack s k x).flights = s.flights := rfl
@[simp] theorem setStack_microcode (s : State) (k : Nat) (x : Stack) : (setStack s k x).microcode = s.microcode := rfl
@[simp] theorem setStack_free (s : State) (k : Nat) (x : Stack) : (setStack s k x).free = s.free := rfl

/-! ### setBank writes dram only -/

@[simp] theorem setBank_pending (s : State) (k b : Nat) (x : Bank) : (setBank s k b x).pending = s.pending := rfl
@[simp] theorem setBank_fuse (s : State) (k b : Nat) (x : Bank) : (setBank s k b x).fuse = s.fuse := rfl
@[simp] theorem setBank_boot (s : State) (k b : Nat) (x : Bank) : (setBank s k b x).boot = s.boot := rfl
@[simp] theorem setBank_pins (s : State) (k b : Nat) (x : Bank) : (setBank s k b x).pins = s.pins := rfl
@[simp] theorem setBank_time (s : State) (k b : Nat) (x : Bank) : (setBank s k b x).time = s.time := rfl
@[simp] theorem setBank_irq (s : State) (k b : Nat) (x : Bank) : (setBank s k b x).irq = s.irq := rfl
@[simp] theorem setBank_front (s : State) (k b : Nat) (x : Bank) : (setBank s k b x).front = s.front := rfl
@[simp] theorem setBank_parts (s : State) (k b : Nat) (x : Bank) : (setBank s k b x).parts = s.parts := rfl
@[simp] theorem setBank_jobs (s : State) (k b : Nat) (x : Bank) : (setBank s k b x).jobs = s.jobs := rfl
@[simp] theorem setBank_tiles (s : State) (k b : Nat) (x : Bank) : (setBank s k b x).tiles = s.tiles := rfl
@[simp] theorem setBank_store (s : State) (k b : Nat) (x : Bank) : (setBank s k b x).store = s.store := rfl
@[simp] theorem setBank_far (s : State) (k b : Nat) (x : Bank) : (setBank s k b x).far = s.far := rfl
@[simp] theorem setBank_serve (s : State) (k b : Nat) (x : Bank) : (setBank s k b x).serve = s.serve := rfl
@[simp] theorem setBank_fabric (s : State) (k b : Nat) (x : Bank) : (setBank s k b x).fabric = s.fabric := rfl
@[simp] theorem setBank_faults (s : State) (k b : Nat) (x : Bank) : (setBank s k b x).faults = s.faults := rfl
@[simp] theorem setBank_weights (s : State) (k b : Nat) (x : Bank) : (setBank s k b x).weights = s.weights := rfl
@[simp] theorem setBank_security (s : State) (k b : Nat) (x : Bank) : (setBank s k b x).security = s.security := rfl
@[simp] theorem setBank_pmu (s : State) (k b : Nat) (x : Bank) : (setBank s k b x).pmu = s.pmu := rfl
@[simp] theorem setBank_flash (s : State) (k b : Nat) (x : Bank) : (setBank s k b x).flash = s.flash := rfl
@[simp] theorem setBank_mon (s : State) (k b : Nat) (x : Bank) : (setBank s k b x).mon = s.mon := rfl
@[simp] theorem setBank_flights (s : State) (k b : Nat) (x : Bank) : (setBank s k b x).flights = s.flights := rfl
@[simp] theorem setBank_microcode (s : State) (k b : Nat) (x : Bank) : (setBank s k b x).microcode = s.microcode := rfl
@[simp] theorem setBank_free (s : State) (k b : Nat) (x : Bank) : (setBank s k b x).free = s.free := rfl

/-! ### setTile writes tiles only -/

@[simp] theorem setTile_pending (s : State) (t : Nat) (x : Tile) : (setTile s t x).pending = s.pending := rfl
@[simp] theorem setTile_fuse (s : State) (t : Nat) (x : Tile) : (setTile s t x).fuse = s.fuse := rfl
@[simp] theorem setTile_boot (s : State) (t : Nat) (x : Tile) : (setTile s t x).boot = s.boot := rfl
@[simp] theorem setTile_pins (s : State) (t : Nat) (x : Tile) : (setTile s t x).pins = s.pins := rfl
@[simp] theorem setTile_time (s : State) (t : Nat) (x : Tile) : (setTile s t x).time = s.time := rfl
@[simp] theorem setTile_irq (s : State) (t : Nat) (x : Tile) : (setTile s t x).irq = s.irq := rfl
@[simp] theorem setTile_front (s : State) (t : Nat) (x : Tile) : (setTile s t x).front = s.front := rfl
@[simp] theorem setTile_parts (s : State) (t : Nat) (x : Tile) : (setTile s t x).parts = s.parts := rfl
@[simp] theorem setTile_jobs (s : State) (t : Nat) (x : Tile) : (setTile s t x).jobs = s.jobs := rfl
@[simp] theorem setTile_store (s : State) (t : Nat) (x : Tile) : (setTile s t x).store = s.store := rfl
@[simp] theorem setTile_dram (s : State) (t : Nat) (x : Tile) : (setTile s t x).dram = s.dram := rfl
@[simp] theorem setTile_far (s : State) (t : Nat) (x : Tile) : (setTile s t x).far = s.far := rfl
@[simp] theorem setTile_serve (s : State) (t : Nat) (x : Tile) : (setTile s t x).serve = s.serve := rfl
@[simp] theorem setTile_fabric (s : State) (t : Nat) (x : Tile) : (setTile s t x).fabric = s.fabric := rfl
@[simp] theorem setTile_faults (s : State) (t : Nat) (x : Tile) : (setTile s t x).faults = s.faults := rfl
@[simp] theorem setTile_weights (s : State) (t : Nat) (x : Tile) : (setTile s t x).weights = s.weights := rfl
@[simp] theorem setTile_security (s : State) (t : Nat) (x : Tile) : (setTile s t x).security = s.security := rfl
@[simp] theorem setTile_pmu (s : State) (t : Nat) (x : Tile) : (setTile s t x).pmu = s.pmu := rfl
@[simp] theorem setTile_flash (s : State) (t : Nat) (x : Tile) : (setTile s t x).flash = s.flash := rfl
@[simp] theorem setTile_mon (s : State) (t : Nat) (x : Tile) : (setTile s t x).mon = s.mon := rfl
@[simp] theorem setTile_flights (s : State) (t : Nat) (x : Tile) : (setTile s t x).flights = s.flights := rfl
@[simp] theorem setTile_microcode (s : State) (t : Nat) (x : Tile) : (setTile s t x).microcode = s.microcode := rfl
@[simp] theorem setTile_free (s : State) (t : Nat) (x : Tile) : (setTile s t x).free = s.free := rfl

/-! ### setBounce writes security only -/

@[simp] theorem setBounce_pending (s : State) (p : Nat) (x : Bounce) : (setBounce s p x).pending = s.pending := rfl
@[simp] theorem setBounce_fuse (s : State) (p : Nat) (x : Bounce) : (setBounce s p x).fuse = s.fuse := rfl
@[simp] theorem setBounce_boot (s : State) (p : Nat) (x : Bounce) : (setBounce s p x).boot = s.boot := rfl
@[simp] theorem setBounce_pins (s : State) (p : Nat) (x : Bounce) : (setBounce s p x).pins = s.pins := rfl
@[simp] theorem setBounce_time (s : State) (p : Nat) (x : Bounce) : (setBounce s p x).time = s.time := rfl
@[simp] theorem setBounce_irq (s : State) (p : Nat) (x : Bounce) : (setBounce s p x).irq = s.irq := rfl
@[simp] theorem setBounce_front (s : State) (p : Nat) (x : Bounce) : (setBounce s p x).front = s.front := rfl
@[simp] theorem setBounce_parts (s : State) (p : Nat) (x : Bounce) : (setBounce s p x).parts = s.parts := rfl
@[simp] theorem setBounce_jobs (s : State) (p : Nat) (x : Bounce) : (setBounce s p x).jobs = s.jobs := rfl
@[simp] theorem setBounce_tiles (s : State) (p : Nat) (x : Bounce) : (setBounce s p x).tiles = s.tiles := rfl
@[simp] theorem setBounce_store (s : State) (p : Nat) (x : Bounce) : (setBounce s p x).store = s.store := rfl
@[simp] theorem setBounce_dram (s : State) (p : Nat) (x : Bounce) : (setBounce s p x).dram = s.dram := rfl
@[simp] theorem setBounce_far (s : State) (p : Nat) (x : Bounce) : (setBounce s p x).far = s.far := rfl
@[simp] theorem setBounce_serve (s : State) (p : Nat) (x : Bounce) : (setBounce s p x).serve = s.serve := rfl
@[simp] theorem setBounce_fabric (s : State) (p : Nat) (x : Bounce) : (setBounce s p x).fabric = s.fabric := rfl
@[simp] theorem setBounce_faults (s : State) (p : Nat) (x : Bounce) : (setBounce s p x).faults = s.faults := rfl
@[simp] theorem setBounce_weights (s : State) (p : Nat) (x : Bounce) : (setBounce s p x).weights = s.weights := rfl
@[simp] theorem setBounce_pmu (s : State) (p : Nat) (x : Bounce) : (setBounce s p x).pmu = s.pmu := rfl
@[simp] theorem setBounce_flash (s : State) (p : Nat) (x : Bounce) : (setBounce s p x).flash = s.flash := rfl
@[simp] theorem setBounce_mon (s : State) (p : Nat) (x : Bounce) : (setBounce s p x).mon = s.mon := rfl
@[simp] theorem setBounce_flights (s : State) (p : Nat) (x : Bounce) : (setBounce s p x).flights = s.flights := rfl
@[simp] theorem setBounce_microcode (s : State) (p : Nat) (x : Bounce) : (setBounce s p x).microcode = s.microcode := rfl
@[simp] theorem setBounce_free (s : State) (p : Nat) (x : Bounce) : (setBounce s p x).free = s.free := rfl

/-! ### setSpdm writes security only -/

@[simp] theorem setSpdm_pending (s : State) (n : Nat) (x : Spdm) : (setSpdm s n x).pending = s.pending := rfl
@[simp] theorem setSpdm_fuse (s : State) (n : Nat) (x : Spdm) : (setSpdm s n x).fuse = s.fuse := rfl
@[simp] theorem setSpdm_boot (s : State) (n : Nat) (x : Spdm) : (setSpdm s n x).boot = s.boot := rfl
@[simp] theorem setSpdm_pins (s : State) (n : Nat) (x : Spdm) : (setSpdm s n x).pins = s.pins := rfl
@[simp] theorem setSpdm_time (s : State) (n : Nat) (x : Spdm) : (setSpdm s n x).time = s.time := rfl
@[simp] theorem setSpdm_irq (s : State) (n : Nat) (x : Spdm) : (setSpdm s n x).irq = s.irq := rfl
@[simp] theorem setSpdm_front (s : State) (n : Nat) (x : Spdm) : (setSpdm s n x).front = s.front := rfl
@[simp] theorem setSpdm_parts (s : State) (n : Nat) (x : Spdm) : (setSpdm s n x).parts = s.parts := rfl
@[simp] theorem setSpdm_jobs (s : State) (n : Nat) (x : Spdm) : (setSpdm s n x).jobs = s.jobs := rfl
@[simp] theorem setSpdm_tiles (s : State) (n : Nat) (x : Spdm) : (setSpdm s n x).tiles = s.tiles := rfl
@[simp] theorem setSpdm_store (s : State) (n : Nat) (x : Spdm) : (setSpdm s n x).store = s.store := rfl
@[simp] theorem setSpdm_dram (s : State) (n : Nat) (x : Spdm) : (setSpdm s n x).dram = s.dram := rfl
@[simp] theorem setSpdm_far (s : State) (n : Nat) (x : Spdm) : (setSpdm s n x).far = s.far := rfl
@[simp] theorem setSpdm_serve (s : State) (n : Nat) (x : Spdm) : (setSpdm s n x).serve = s.serve := rfl
@[simp] theorem setSpdm_fabric (s : State) (n : Nat) (x : Spdm) : (setSpdm s n x).fabric = s.fabric := rfl
@[simp] theorem setSpdm_faults (s : State) (n : Nat) (x : Spdm) : (setSpdm s n x).faults = s.faults := rfl
@[simp] theorem setSpdm_weights (s : State) (n : Nat) (x : Spdm) : (setSpdm s n x).weights = s.weights := rfl
@[simp] theorem setSpdm_pmu (s : State) (n : Nat) (x : Spdm) : (setSpdm s n x).pmu = s.pmu := rfl
@[simp] theorem setSpdm_flash (s : State) (n : Nat) (x : Spdm) : (setSpdm s n x).flash = s.flash := rfl
@[simp] theorem setSpdm_mon (s : State) (n : Nat) (x : Spdm) : (setSpdm s n x).mon = s.mon := rfl
@[simp] theorem setSpdm_flights (s : State) (n : Nat) (x : Spdm) : (setSpdm s n x).flights = s.flights := rfl
@[simp] theorem setSpdm_microcode (s : State) (n : Nat) (x : Spdm) : (setSpdm s n x).microcode = s.microcode := rfl
@[simp] theorem setSpdm_free (s : State) (n : Nat) (x : Spdm) : (setSpdm s n x).free = s.free := rfl

/-! ### setPool writes serve only -/

@[simp] theorem setPool_pending (s : State) (p : Nat) (x : Pool) : (setPool s p x).pending = s.pending := rfl
@[simp] theorem setPool_fuse (s : State) (p : Nat) (x : Pool) : (setPool s p x).fuse = s.fuse := rfl
@[simp] theorem setPool_boot (s : State) (p : Nat) (x : Pool) : (setPool s p x).boot = s.boot := rfl
@[simp] theorem setPool_pins (s : State) (p : Nat) (x : Pool) : (setPool s p x).pins = s.pins := rfl
@[simp] theorem setPool_time (s : State) (p : Nat) (x : Pool) : (setPool s p x).time = s.time := rfl
@[simp] theorem setPool_irq (s : State) (p : Nat) (x : Pool) : (setPool s p x).irq = s.irq := rfl
@[simp] theorem setPool_front (s : State) (p : Nat) (x : Pool) : (setPool s p x).front = s.front := rfl
@[simp] theorem setPool_parts (s : State) (p : Nat) (x : Pool) : (setPool s p x).parts = s.parts := rfl
@[simp] theorem setPool_jobs (s : State) (p : Nat) (x : Pool) : (setPool s p x).jobs = s.jobs := rfl
@[simp] theorem setPool_tiles (s : State) (p : Nat) (x : Pool) : (setPool s p x).tiles = s.tiles := rfl
@[simp] theorem setPool_store (s : State) (p : Nat) (x : Pool) : (setPool s p x).store = s.store := rfl
@[simp] theorem setPool_dram (s : State) (p : Nat) (x : Pool) : (setPool s p x).dram = s.dram := rfl
@[simp] theorem setPool_far (s : State) (p : Nat) (x : Pool) : (setPool s p x).far = s.far := rfl
@[simp] theorem setPool_fabric (s : State) (p : Nat) (x : Pool) : (setPool s p x).fabric = s.fabric := rfl
@[simp] theorem setPool_faults (s : State) (p : Nat) (x : Pool) : (setPool s p x).faults = s.faults := rfl
@[simp] theorem setPool_weights (s : State) (p : Nat) (x : Pool) : (setPool s p x).weights = s.weights := rfl
@[simp] theorem setPool_security (s : State) (p : Nat) (x : Pool) : (setPool s p x).security = s.security := rfl
@[simp] theorem setPool_pmu (s : State) (p : Nat) (x : Pool) : (setPool s p x).pmu = s.pmu := rfl
@[simp] theorem setPool_flash (s : State) (p : Nat) (x : Pool) : (setPool s p x).flash = s.flash := rfl
@[simp] theorem setPool_mon (s : State) (p : Nat) (x : Pool) : (setPool s p x).mon = s.mon := rfl
@[simp] theorem setPool_flights (s : State) (p : Nat) (x : Pool) : (setPool s p x).flights = s.flights := rfl
@[simp] theorem setPool_microcode (s : State) (p : Nat) (x : Pool) : (setPool s p x).microcode = s.microcode := rfl
@[simp] theorem setPool_free (s : State) (p : Nat) (x : Pool) : (setPool s p x).free = s.free := rfl

/-! ### setRequest writes serve only -/

@[simp] theorem setRequest_pending (s : State) (r : Nat) (x : Request) : (setRequest s r x).pending = s.pending := rfl
@[simp] theorem setRequest_fuse (s : State) (r : Nat) (x : Request) : (setRequest s r x).fuse = s.fuse := rfl
@[simp] theorem setRequest_boot (s : State) (r : Nat) (x : Request) : (setRequest s r x).boot = s.boot := rfl
@[simp] theorem setRequest_pins (s : State) (r : Nat) (x : Request) : (setRequest s r x).pins = s.pins := rfl
@[simp] theorem setRequest_time (s : State) (r : Nat) (x : Request) : (setRequest s r x).time = s.time := rfl
@[simp] theorem setRequest_irq (s : State) (r : Nat) (x : Request) : (setRequest s r x).irq = s.irq := rfl
@[simp] theorem setRequest_front (s : State) (r : Nat) (x : Request) : (setRequest s r x).front = s.front := rfl
@[simp] theorem setRequest_parts (s : State) (r : Nat) (x : Request) : (setRequest s r x).parts = s.parts := rfl
@[simp] theorem setRequest_jobs (s : State) (r : Nat) (x : Request) : (setRequest s r x).jobs = s.jobs := rfl
@[simp] theorem setRequest_tiles (s : State) (r : Nat) (x : Request) : (setRequest s r x).tiles = s.tiles := rfl
@[simp] theorem setRequest_store (s : State) (r : Nat) (x : Request) : (setRequest s r x).store = s.store := rfl
@[simp] theorem setRequest_dram (s : State) (r : Nat) (x : Request) : (setRequest s r x).dram = s.dram := rfl
@[simp] theorem setRequest_far (s : State) (r : Nat) (x : Request) : (setRequest s r x).far = s.far := rfl
@[simp] theorem setRequest_fabric (s : State) (r : Nat) (x : Request) : (setRequest s r x).fabric = s.fabric := rfl
@[simp] theorem setRequest_faults (s : State) (r : Nat) (x : Request) : (setRequest s r x).faults = s.faults := rfl
@[simp] theorem setRequest_weights (s : State) (r : Nat) (x : Request) : (setRequest s r x).weights = s.weights := rfl
@[simp] theorem setRequest_security (s : State) (r : Nat) (x : Request) : (setRequest s r x).security = s.security := rfl
@[simp] theorem setRequest_pmu (s : State) (r : Nat) (x : Request) : (setRequest s r x).pmu = s.pmu := rfl
@[simp] theorem setRequest_flash (s : State) (r : Nat) (x : Request) : (setRequest s r x).flash = s.flash := rfl
@[simp] theorem setRequest_mon (s : State) (r : Nat) (x : Request) : (setRequest s r x).mon = s.mon := rfl
@[simp] theorem setRequest_flights (s : State) (r : Nat) (x : Request) : (setRequest s r x).flights = s.flights := rfl
@[simp] theorem setRequest_microcode (s : State) (r : Nat) (x : Request) : (setRequest s r x).microcode = s.microcode := rfl
@[simp] theorem setRequest_free (s : State) (r : Nat) (x : Request) : (setRequest s r x).free = s.free := rfl

/-! ### setCustomer writes serve only -/

@[simp] theorem setCustomer_pending (s : State) (n : Nat) (x : Customer) : (setCustomer s n x).pending = s.pending := rfl
@[simp] theorem setCustomer_fuse (s : State) (n : Nat) (x : Customer) : (setCustomer s n x).fuse = s.fuse := rfl
@[simp] theorem setCustomer_boot (s : State) (n : Nat) (x : Customer) : (setCustomer s n x).boot = s.boot := rfl
@[simp] theorem setCustomer_pins (s : State) (n : Nat) (x : Customer) : (setCustomer s n x).pins = s.pins := rfl
@[simp] theorem setCustomer_time (s : State) (n : Nat) (x : Customer) : (setCustomer s n x).time = s.time := rfl
@[simp] theorem setCustomer_irq (s : State) (n : Nat) (x : Customer) : (setCustomer s n x).irq = s.irq := rfl
@[simp] theorem setCustomer_front (s : State) (n : Nat) (x : Customer) : (setCustomer s n x).front = s.front := rfl
@[simp] theorem setCustomer_parts (s : State) (n : Nat) (x : Customer) : (setCustomer s n x).parts = s.parts := rfl
@[simp] theorem setCustomer_jobs (s : State) (n : Nat) (x : Customer) : (setCustomer s n x).jobs = s.jobs := rfl
@[simp] theorem setCustomer_tiles (s : State) (n : Nat) (x : Customer) : (setCustomer s n x).tiles = s.tiles := rfl
@[simp] theorem setCustomer_store (s : State) (n : Nat) (x : Customer) : (setCustomer s n x).store = s.store := rfl
@[simp] theorem setCustomer_dram (s : State) (n : Nat) (x : Customer) : (setCustomer s n x).dram = s.dram := rfl
@[simp] theorem setCustomer_far (s : State) (n : Nat) (x : Customer) : (setCustomer s n x).far = s.far := rfl
@[simp] theorem setCustomer_fabric (s : State) (n : Nat) (x : Customer) : (setCustomer s n x).fabric = s.fabric := rfl
@[simp] theorem setCustomer_faults (s : State) (n : Nat) (x : Customer) : (setCustomer s n x).faults = s.faults := rfl
@[simp] theorem setCustomer_weights (s : State) (n : Nat) (x : Customer) : (setCustomer s n x).weights = s.weights := rfl
@[simp] theorem setCustomer_security (s : State) (n : Nat) (x : Customer) : (setCustomer s n x).security = s.security := rfl
@[simp] theorem setCustomer_pmu (s : State) (n : Nat) (x : Customer) : (setCustomer s n x).pmu = s.pmu := rfl
@[simp] theorem setCustomer_flash (s : State) (n : Nat) (x : Customer) : (setCustomer s n x).flash = s.flash := rfl
@[simp] theorem setCustomer_mon (s : State) (n : Nat) (x : Customer) : (setCustomer s n x).mon = s.mon := rfl
@[simp] theorem setCustomer_flights (s : State) (n : Nat) (x : Customer) : (setCustomer s n x).flights = s.flights := rfl
@[simp] theorem setCustomer_microcode (s : State) (n : Nat) (x : Customer) : (setCustomer s n x).microcode = s.microcode := rfl
@[simp] theorem setCustomer_free (s : State) (n : Nat) (x : Customer) : (setCustomer s n x).free = s.free := rfl

/-! ### setRunning writes serve only -/

@[simp] theorem setRunning_pending (p : Nat) (m : Manifest) (s : State) : (setRunning p m s).pending = s.pending := rfl
@[simp] theorem setRunning_fuse (p : Nat) (m : Manifest) (s : State) : (setRunning p m s).fuse = s.fuse := rfl
@[simp] theorem setRunning_boot (p : Nat) (m : Manifest) (s : State) : (setRunning p m s).boot = s.boot := rfl
@[simp] theorem setRunning_pins (p : Nat) (m : Manifest) (s : State) : (setRunning p m s).pins = s.pins := rfl
@[simp] theorem setRunning_time (p : Nat) (m : Manifest) (s : State) : (setRunning p m s).time = s.time := rfl
@[simp] theorem setRunning_irq (p : Nat) (m : Manifest) (s : State) : (setRunning p m s).irq = s.irq := rfl
@[simp] theorem setRunning_front (p : Nat) (m : Manifest) (s : State) : (setRunning p m s).front = s.front := rfl
@[simp] theorem setRunning_parts (p : Nat) (m : Manifest) (s : State) : (setRunning p m s).parts = s.parts := rfl
@[simp] theorem setRunning_jobs (p : Nat) (m : Manifest) (s : State) : (setRunning p m s).jobs = s.jobs := rfl
@[simp] theorem setRunning_tiles (p : Nat) (m : Manifest) (s : State) : (setRunning p m s).tiles = s.tiles := rfl
@[simp] theorem setRunning_store (p : Nat) (m : Manifest) (s : State) : (setRunning p m s).store = s.store := rfl
@[simp] theorem setRunning_dram (p : Nat) (m : Manifest) (s : State) : (setRunning p m s).dram = s.dram := rfl
@[simp] theorem setRunning_far (p : Nat) (m : Manifest) (s : State) : (setRunning p m s).far = s.far := rfl
@[simp] theorem setRunning_fabric (p : Nat) (m : Manifest) (s : State) : (setRunning p m s).fabric = s.fabric := rfl
@[simp] theorem setRunning_faults (p : Nat) (m : Manifest) (s : State) : (setRunning p m s).faults = s.faults := rfl
@[simp] theorem setRunning_weights (p : Nat) (m : Manifest) (s : State) : (setRunning p m s).weights = s.weights := rfl
@[simp] theorem setRunning_security (p : Nat) (m : Manifest) (s : State) : (setRunning p m s).security = s.security := rfl
@[simp] theorem setRunning_pmu (p : Nat) (m : Manifest) (s : State) : (setRunning p m s).pmu = s.pmu := rfl
@[simp] theorem setRunning_flash (p : Nat) (m : Manifest) (s : State) : (setRunning p m s).flash = s.flash := rfl
@[simp] theorem setRunning_mon (p : Nat) (m : Manifest) (s : State) : (setRunning p m s).mon = s.mon := rfl
@[simp] theorem setRunning_flights (p : Nat) (m : Manifest) (s : State) : (setRunning p m s).flights = s.flights := rfl
@[simp] theorem setRunning_microcode (p : Nat) (m : Manifest) (s : State) : (setRunning p m s).microcode = s.microcode := rfl
@[simp] theorem setRunning_free (p : Nat) (m : Manifest) (s : State) : (setRunning p m s).free = s.free := rfl

/-! ### setPort writes fabric only -/

@[simp] theorem setPort_pending (s : State) (p : Nat) (x : Port) : (setPort s p x).pending = s.pending := rfl
@[simp] theorem setPort_fuse (s : State) (p : Nat) (x : Port) : (setPort s p x).fuse = s.fuse := rfl
@[simp] theorem setPort_boot (s : State) (p : Nat) (x : Port) : (setPort s p x).boot = s.boot := rfl
@[simp] theorem setPort_pins (s : State) (p : Nat) (x : Port) : (setPort s p x).pins = s.pins := rfl
@[simp] theorem setPort_time (s : State) (p : Nat) (x : Port) : (setPort s p x).time = s.time := rfl
@[simp] theorem setPort_irq (s : State) (p : Nat) (x : Port) : (setPort s p x).irq = s.irq := rfl
@[simp] theorem setPort_front (s : State) (p : Nat) (x : Port) : (setPort s p x).front = s.front := rfl
@[simp] theorem setPort_parts (s : State) (p : Nat) (x : Port) : (setPort s p x).parts = s.parts := rfl
@[simp] theorem setPort_jobs (s : State) (p : Nat) (x : Port) : (setPort s p x).jobs = s.jobs := rfl
@[simp] theorem setPort_tiles (s : State) (p : Nat) (x : Port) : (setPort s p x).tiles = s.tiles := rfl
@[simp] theorem setPort_store (s : State) (p : Nat) (x : Port) : (setPort s p x).store = s.store := rfl
@[simp] theorem setPort_dram (s : State) (p : Nat) (x : Port) : (setPort s p x).dram = s.dram := rfl
@[simp] theorem setPort_far (s : State) (p : Nat) (x : Port) : (setPort s p x).far = s.far := rfl
@[simp] theorem setPort_serve (s : State) (p : Nat) (x : Port) : (setPort s p x).serve = s.serve := rfl
@[simp] theorem setPort_faults (s : State) (p : Nat) (x : Port) : (setPort s p x).faults = s.faults := rfl
@[simp] theorem setPort_weights (s : State) (p : Nat) (x : Port) : (setPort s p x).weights = s.weights := rfl
@[simp] theorem setPort_security (s : State) (p : Nat) (x : Port) : (setPort s p x).security = s.security := rfl
@[simp] theorem setPort_pmu (s : State) (p : Nat) (x : Port) : (setPort s p x).pmu = s.pmu := rfl
@[simp] theorem setPort_flash (s : State) (p : Nat) (x : Port) : (setPort s p x).flash = s.flash := rfl
@[simp] theorem setPort_mon (s : State) (p : Nat) (x : Port) : (setPort s p x).mon = s.mon := rfl
@[simp] theorem setPort_flights (s : State) (p : Nat) (x : Port) : (setPort s p x).flights = s.flights := rfl
@[simp] theorem setPort_microcode (s : State) (p : Nat) (x : Port) : (setPort s p x).microcode = s.microcode := rfl
@[simp] theorem setPort_free (s : State) (p : Nat) (x : Port) : (setPort s p x).free = s.free := rfl

/-! ### setIsland writes pmu only -/

@[simp] theorem setIsland_pending (s : State) (n : Nat) (x : Island) : (setIsland s n x).pending = s.pending := rfl
@[simp] theorem setIsland_fuse (s : State) (n : Nat) (x : Island) : (setIsland s n x).fuse = s.fuse := rfl
@[simp] theorem setIsland_boot (s : State) (n : Nat) (x : Island) : (setIsland s n x).boot = s.boot := rfl
@[simp] theorem setIsland_pins (s : State) (n : Nat) (x : Island) : (setIsland s n x).pins = s.pins := rfl
@[simp] theorem setIsland_time (s : State) (n : Nat) (x : Island) : (setIsland s n x).time = s.time := rfl
@[simp] theorem setIsland_irq (s : State) (n : Nat) (x : Island) : (setIsland s n x).irq = s.irq := rfl
@[simp] theorem setIsland_front (s : State) (n : Nat) (x : Island) : (setIsland s n x).front = s.front := rfl
@[simp] theorem setIsland_parts (s : State) (n : Nat) (x : Island) : (setIsland s n x).parts = s.parts := rfl
@[simp] theorem setIsland_jobs (s : State) (n : Nat) (x : Island) : (setIsland s n x).jobs = s.jobs := rfl
@[simp] theorem setIsland_tiles (s : State) (n : Nat) (x : Island) : (setIsland s n x).tiles = s.tiles := rfl
@[simp] theorem setIsland_store (s : State) (n : Nat) (x : Island) : (setIsland s n x).store = s.store := rfl
@[simp] theorem setIsland_dram (s : State) (n : Nat) (x : Island) : (setIsland s n x).dram = s.dram := rfl
@[simp] theorem setIsland_far (s : State) (n : Nat) (x : Island) : (setIsland s n x).far = s.far := rfl
@[simp] theorem setIsland_serve (s : State) (n : Nat) (x : Island) : (setIsland s n x).serve = s.serve := rfl
@[simp] theorem setIsland_fabric (s : State) (n : Nat) (x : Island) : (setIsland s n x).fabric = s.fabric := rfl
@[simp] theorem setIsland_faults (s : State) (n : Nat) (x : Island) : (setIsland s n x).faults = s.faults := rfl
@[simp] theorem setIsland_weights (s : State) (n : Nat) (x : Island) : (setIsland s n x).weights = s.weights := rfl
@[simp] theorem setIsland_security (s : State) (n : Nat) (x : Island) : (setIsland s n x).security = s.security := rfl
@[simp] theorem setIsland_flash (s : State) (n : Nat) (x : Island) : (setIsland s n x).flash = s.flash := rfl
@[simp] theorem setIsland_mon (s : State) (n : Nat) (x : Island) : (setIsland s n x).mon = s.mon := rfl
@[simp] theorem setIsland_flights (s : State) (n : Nat) (x : Island) : (setIsland s n x).flights = s.flights := rfl
@[simp] theorem setIsland_microcode (s : State) (n : Nat) (x : Island) : (setIsland s n x).microcode = s.microcode := rfl
@[simp] theorem setIsland_free (s : State) (n : Nat) (x : Island) : (setIsland s n x).free = s.free := rfl

/-! ### setLend writes pmu only -/

@[simp] theorem setLend_pending (s : State) (l : Lend) : (setLend s l).pending = s.pending := rfl
@[simp] theorem setLend_fuse (s : State) (l : Lend) : (setLend s l).fuse = s.fuse := rfl
@[simp] theorem setLend_boot (s : State) (l : Lend) : (setLend s l).boot = s.boot := rfl
@[simp] theorem setLend_pins (s : State) (l : Lend) : (setLend s l).pins = s.pins := rfl
@[simp] theorem setLend_time (s : State) (l : Lend) : (setLend s l).time = s.time := rfl
@[simp] theorem setLend_irq (s : State) (l : Lend) : (setLend s l).irq = s.irq := rfl
@[simp] theorem setLend_front (s : State) (l : Lend) : (setLend s l).front = s.front := rfl
@[simp] theorem setLend_parts (s : State) (l : Lend) : (setLend s l).parts = s.parts := rfl
@[simp] theorem setLend_jobs (s : State) (l : Lend) : (setLend s l).jobs = s.jobs := rfl
@[simp] theorem setLend_tiles (s : State) (l : Lend) : (setLend s l).tiles = s.tiles := rfl
@[simp] theorem setLend_store (s : State) (l : Lend) : (setLend s l).store = s.store := rfl
@[simp] theorem setLend_dram (s : State) (l : Lend) : (setLend s l).dram = s.dram := rfl
@[simp] theorem setLend_far (s : State) (l : Lend) : (setLend s l).far = s.far := rfl
@[simp] theorem setLend_serve (s : State) (l : Lend) : (setLend s l).serve = s.serve := rfl
@[simp] theorem setLend_fabric (s : State) (l : Lend) : (setLend s l).fabric = s.fabric := rfl
@[simp] theorem setLend_faults (s : State) (l : Lend) : (setLend s l).faults = s.faults := rfl
@[simp] theorem setLend_weights (s : State) (l : Lend) : (setLend s l).weights = s.weights := rfl
@[simp] theorem setLend_security (s : State) (l : Lend) : (setLend s l).security = s.security := rfl
@[simp] theorem setLend_flash (s : State) (l : Lend) : (setLend s l).flash = s.flash := rfl
@[simp] theorem setLend_mon (s : State) (l : Lend) : (setLend s l).mon = s.mon := rfl
@[simp] theorem setLend_flights (s : State) (l : Lend) : (setLend s l).flights = s.flights := rfl
@[simp] theorem setLend_microcode (s : State) (l : Lend) : (setLend s l).microcode = s.microcode := rfl
@[simp] theorem setLend_free (s : State) (l : Lend) : (setLend s l).free = s.free := rfl

/-! ### setNet writes pmu only -/

@[simp] theorem setNet_pending (n : Int) (s : State) : (setNet n s).pending = s.pending := rfl
@[simp] theorem setNet_fuse (n : Int) (s : State) : (setNet n s).fuse = s.fuse := rfl
@[simp] theorem setNet_boot (n : Int) (s : State) : (setNet n s).boot = s.boot := rfl
@[simp] theorem setNet_pins (n : Int) (s : State) : (setNet n s).pins = s.pins := rfl
@[simp] theorem setNet_time (n : Int) (s : State) : (setNet n s).time = s.time := rfl
@[simp] theorem setNet_irq (n : Int) (s : State) : (setNet n s).irq = s.irq := rfl
@[simp] theorem setNet_front (n : Int) (s : State) : (setNet n s).front = s.front := rfl
@[simp] theorem setNet_parts (n : Int) (s : State) : (setNet n s).parts = s.parts := rfl
@[simp] theorem setNet_jobs (n : Int) (s : State) : (setNet n s).jobs = s.jobs := rfl
@[simp] theorem setNet_tiles (n : Int) (s : State) : (setNet n s).tiles = s.tiles := rfl
@[simp] theorem setNet_store (n : Int) (s : State) : (setNet n s).store = s.store := rfl
@[simp] theorem setNet_dram (n : Int) (s : State) : (setNet n s).dram = s.dram := rfl
@[simp] theorem setNet_far (n : Int) (s : State) : (setNet n s).far = s.far := rfl
@[simp] theorem setNet_serve (n : Int) (s : State) : (setNet n s).serve = s.serve := rfl
@[simp] theorem setNet_fabric (n : Int) (s : State) : (setNet n s).fabric = s.fabric := rfl
@[simp] theorem setNet_faults (n : Int) (s : State) : (setNet n s).faults = s.faults := rfl
@[simp] theorem setNet_weights (n : Int) (s : State) : (setNet n s).weights = s.weights := rfl
@[simp] theorem setNet_security (n : Int) (s : State) : (setNet n s).security = s.security := rfl
@[simp] theorem setNet_flash (n : Int) (s : State) : (setNet n s).flash = s.flash := rfl
@[simp] theorem setNet_mon (n : Int) (s : State) : (setNet n s).mon = s.mon := rfl
@[simp] theorem setNet_flights (n : Int) (s : State) : (setNet n s).flights = s.flights := rfl
@[simp] theorem setNet_microcode (n : Int) (s : State) : (setNet n s).microcode = s.microcode := rfl
@[simp] theorem setNet_free (n : Int) (s : State) : (setNet n s).free = s.free := rfl

/-! ### setSleep writes pmu only -/

@[simp] theorem setSleep_pending (p : Sleep) (s : State) : (setSleep p s).pending = s.pending := rfl
@[simp] theorem setSleep_fuse (p : Sleep) (s : State) : (setSleep p s).fuse = s.fuse := rfl
@[simp] theorem setSleep_boot (p : Sleep) (s : State) : (setSleep p s).boot = s.boot := rfl
@[simp] theorem setSleep_pins (p : Sleep) (s : State) : (setSleep p s).pins = s.pins := rfl
@[simp] theorem setSleep_time (p : Sleep) (s : State) : (setSleep p s).time = s.time := rfl
@[simp] theorem setSleep_irq (p : Sleep) (s : State) : (setSleep p s).irq = s.irq := rfl
@[simp] theorem setSleep_front (p : Sleep) (s : State) : (setSleep p s).front = s.front := rfl
@[simp] theorem setSleep_parts (p : Sleep) (s : State) : (setSleep p s).parts = s.parts := rfl
@[simp] theorem setSleep_jobs (p : Sleep) (s : State) : (setSleep p s).jobs = s.jobs := rfl
@[simp] theorem setSleep_tiles (p : Sleep) (s : State) : (setSleep p s).tiles = s.tiles := rfl
@[simp] theorem setSleep_store (p : Sleep) (s : State) : (setSleep p s).store = s.store := rfl
@[simp] theorem setSleep_dram (p : Sleep) (s : State) : (setSleep p s).dram = s.dram := rfl
@[simp] theorem setSleep_far (p : Sleep) (s : State) : (setSleep p s).far = s.far := rfl
@[simp] theorem setSleep_serve (p : Sleep) (s : State) : (setSleep p s).serve = s.serve := rfl
@[simp] theorem setSleep_fabric (p : Sleep) (s : State) : (setSleep p s).fabric = s.fabric := rfl
@[simp] theorem setSleep_faults (p : Sleep) (s : State) : (setSleep p s).faults = s.faults := rfl
@[simp] theorem setSleep_weights (p : Sleep) (s : State) : (setSleep p s).weights = s.weights := rfl
@[simp] theorem setSleep_security (p : Sleep) (s : State) : (setSleep p s).security = s.security := rfl
@[simp] theorem setSleep_flash (p : Sleep) (s : State) : (setSleep p s).flash = s.flash := rfl
@[simp] theorem setSleep_mon (p : Sleep) (s : State) : (setSleep p s).mon = s.mon := rfl
@[simp] theorem setSleep_flights (p : Sleep) (s : State) : (setSleep p s).flights = s.flights := rfl
@[simp] theorem setSleep_microcode (p : Sleep) (s : State) : (setSleep p s).microcode = s.microcode := rfl
@[simp] theorem setSleep_free (p : Sleep) (s : State) : (setSleep p s).free = s.free := rfl

/-! ### setRestart writes faults only -/

@[simp] theorem setRestart_pending (p : Restart) (s : State) : (setRestart p s).pending = s.pending := rfl
@[simp] theorem setRestart_fuse (p : Restart) (s : State) : (setRestart p s).fuse = s.fuse := rfl
@[simp] theorem setRestart_boot (p : Restart) (s : State) : (setRestart p s).boot = s.boot := rfl
@[simp] theorem setRestart_pins (p : Restart) (s : State) : (setRestart p s).pins = s.pins := rfl
@[simp] theorem setRestart_time (p : Restart) (s : State) : (setRestart p s).time = s.time := rfl
@[simp] theorem setRestart_irq (p : Restart) (s : State) : (setRestart p s).irq = s.irq := rfl
@[simp] theorem setRestart_front (p : Restart) (s : State) : (setRestart p s).front = s.front := rfl
@[simp] theorem setRestart_parts (p : Restart) (s : State) : (setRestart p s).parts = s.parts := rfl
@[simp] theorem setRestart_jobs (p : Restart) (s : State) : (setRestart p s).jobs = s.jobs := rfl
@[simp] theorem setRestart_tiles (p : Restart) (s : State) : (setRestart p s).tiles = s.tiles := rfl
@[simp] theorem setRestart_store (p : Restart) (s : State) : (setRestart p s).store = s.store := rfl
@[simp] theorem setRestart_dram (p : Restart) (s : State) : (setRestart p s).dram = s.dram := rfl
@[simp] theorem setRestart_far (p : Restart) (s : State) : (setRestart p s).far = s.far := rfl
@[simp] theorem setRestart_serve (p : Restart) (s : State) : (setRestart p s).serve = s.serve := rfl
@[simp] theorem setRestart_fabric (p : Restart) (s : State) : (setRestart p s).fabric = s.fabric := rfl
@[simp] theorem setRestart_weights (p : Restart) (s : State) : (setRestart p s).weights = s.weights := rfl
@[simp] theorem setRestart_security (p : Restart) (s : State) : (setRestart p s).security = s.security := rfl
@[simp] theorem setRestart_pmu (p : Restart) (s : State) : (setRestart p s).pmu = s.pmu := rfl
@[simp] theorem setRestart_flash (p : Restart) (s : State) : (setRestart p s).flash = s.flash := rfl
@[simp] theorem setRestart_mon (p : Restart) (s : State) : (setRestart p s).mon = s.mon := rfl
@[simp] theorem setRestart_flights (p : Restart) (s : State) : (setRestart p s).flights = s.flights := rfl
@[simp] theorem setRestart_microcode (p : Restart) (s : State) : (setRestart p s).microcode = s.microcode := rfl
@[simp] theorem setRestart_free (p : Restart) (s : State) : (setRestart p s).free = s.free := rfl

/-! ### setPhase writes boot only -/

@[simp] theorem setPhase_pending (k : Nat) (s : State) : (setPhase k s).pending = s.pending := rfl
@[simp] theorem setPhase_fuse (k : Nat) (s : State) : (setPhase k s).fuse = s.fuse := rfl
@[simp] theorem setPhase_pins (k : Nat) (s : State) : (setPhase k s).pins = s.pins := rfl
@[simp] theorem setPhase_time (k : Nat) (s : State) : (setPhase k s).time = s.time := rfl
@[simp] theorem setPhase_irq (k : Nat) (s : State) : (setPhase k s).irq = s.irq := rfl
@[simp] theorem setPhase_front (k : Nat) (s : State) : (setPhase k s).front = s.front := rfl
@[simp] theorem setPhase_parts (k : Nat) (s : State) : (setPhase k s).parts = s.parts := rfl
@[simp] theorem setPhase_jobs (k : Nat) (s : State) : (setPhase k s).jobs = s.jobs := rfl
@[simp] theorem setPhase_tiles (k : Nat) (s : State) : (setPhase k s).tiles = s.tiles := rfl
@[simp] theorem setPhase_store (k : Nat) (s : State) : (setPhase k s).store = s.store := rfl
@[simp] theorem setPhase_dram (k : Nat) (s : State) : (setPhase k s).dram = s.dram := rfl
@[simp] theorem setPhase_far (k : Nat) (s : State) : (setPhase k s).far = s.far := rfl
@[simp] theorem setPhase_serve (k : Nat) (s : State) : (setPhase k s).serve = s.serve := rfl
@[simp] theorem setPhase_fabric (k : Nat) (s : State) : (setPhase k s).fabric = s.fabric := rfl
@[simp] theorem setPhase_faults (k : Nat) (s : State) : (setPhase k s).faults = s.faults := rfl
@[simp] theorem setPhase_weights (k : Nat) (s : State) : (setPhase k s).weights = s.weights := rfl
@[simp] theorem setPhase_security (k : Nat) (s : State) : (setPhase k s).security = s.security := rfl
@[simp] theorem setPhase_pmu (k : Nat) (s : State) : (setPhase k s).pmu = s.pmu := rfl
@[simp] theorem setPhase_flash (k : Nat) (s : State) : (setPhase k s).flash = s.flash := rfl
@[simp] theorem setPhase_mon (k : Nat) (s : State) : (setPhase k s).mon = s.mon := rfl
@[simp] theorem setPhase_flights (k : Nat) (s : State) : (setPhase k s).flights = s.flights := rfl
@[simp] theorem setPhase_microcode (k : Nat) (s : State) : (setPhase k s).microcode = s.microcode := rfl
@[simp] theorem setPhase_free (k : Nat) (s : State) : (setPhase k s).free = s.free := rfl

/-! ### smbOut writes flash only -/

@[simp] theorem smbOut_pending (bs : List Byte) (s : State) : (smbOut bs s).pending = s.pending := rfl
@[simp] theorem smbOut_fuse (bs : List Byte) (s : State) : (smbOut bs s).fuse = s.fuse := rfl
@[simp] theorem smbOut_boot (bs : List Byte) (s : State) : (smbOut bs s).boot = s.boot := rfl
@[simp] theorem smbOut_pins (bs : List Byte) (s : State) : (smbOut bs s).pins = s.pins := rfl
@[simp] theorem smbOut_time (bs : List Byte) (s : State) : (smbOut bs s).time = s.time := rfl
@[simp] theorem smbOut_irq (bs : List Byte) (s : State) : (smbOut bs s).irq = s.irq := rfl
@[simp] theorem smbOut_front (bs : List Byte) (s : State) : (smbOut bs s).front = s.front := rfl
@[simp] theorem smbOut_parts (bs : List Byte) (s : State) : (smbOut bs s).parts = s.parts := rfl
@[simp] theorem smbOut_jobs (bs : List Byte) (s : State) : (smbOut bs s).jobs = s.jobs := rfl
@[simp] theorem smbOut_tiles (bs : List Byte) (s : State) : (smbOut bs s).tiles = s.tiles := rfl
@[simp] theorem smbOut_store (bs : List Byte) (s : State) : (smbOut bs s).store = s.store := rfl
@[simp] theorem smbOut_dram (bs : List Byte) (s : State) : (smbOut bs s).dram = s.dram := rfl
@[simp] theorem smbOut_far (bs : List Byte) (s : State) : (smbOut bs s).far = s.far := rfl
@[simp] theorem smbOut_serve (bs : List Byte) (s : State) : (smbOut bs s).serve = s.serve := rfl
@[simp] theorem smbOut_fabric (bs : List Byte) (s : State) : (smbOut bs s).fabric = s.fabric := rfl
@[simp] theorem smbOut_faults (bs : List Byte) (s : State) : (smbOut bs s).faults = s.faults := rfl
@[simp] theorem smbOut_weights (bs : List Byte) (s : State) : (smbOut bs s).weights = s.weights := rfl
@[simp] theorem smbOut_security (bs : List Byte) (s : State) : (smbOut bs s).security = s.security := rfl
@[simp] theorem smbOut_pmu (bs : List Byte) (s : State) : (smbOut bs s).pmu = s.pmu := rfl
@[simp] theorem smbOut_mon (bs : List Byte) (s : State) : (smbOut bs s).mon = s.mon := rfl
@[simp] theorem smbOut_flights (bs : List Byte) (s : State) : (smbOut bs s).flights = s.flights := rfl
@[simp] theorem smbOut_microcode (bs : List Byte) (s : State) : (smbOut bs s).microcode = s.microcode := rfl
@[simp] theorem smbOut_free (bs : List Byte) (s : State) : (smbOut bs s).free = s.free := rfl

/-! ### say writes mon only -/

@[simp] theorem say_pending (bs : List Byte) (s : State) : (say bs s).pending = s.pending := rfl
@[simp] theorem say_fuse (bs : List Byte) (s : State) : (say bs s).fuse = s.fuse := rfl
@[simp] theorem say_boot (bs : List Byte) (s : State) : (say bs s).boot = s.boot := rfl
@[simp] theorem say_pins (bs : List Byte) (s : State) : (say bs s).pins = s.pins := rfl
@[simp] theorem say_time (bs : List Byte) (s : State) : (say bs s).time = s.time := rfl
@[simp] theorem say_irq (bs : List Byte) (s : State) : (say bs s).irq = s.irq := rfl
@[simp] theorem say_front (bs : List Byte) (s : State) : (say bs s).front = s.front := rfl
@[simp] theorem say_parts (bs : List Byte) (s : State) : (say bs s).parts = s.parts := rfl
@[simp] theorem say_jobs (bs : List Byte) (s : State) : (say bs s).jobs = s.jobs := rfl
@[simp] theorem say_tiles (bs : List Byte) (s : State) : (say bs s).tiles = s.tiles := rfl
@[simp] theorem say_store (bs : List Byte) (s : State) : (say bs s).store = s.store := rfl
@[simp] theorem say_dram (bs : List Byte) (s : State) : (say bs s).dram = s.dram := rfl
@[simp] theorem say_far (bs : List Byte) (s : State) : (say bs s).far = s.far := rfl
@[simp] theorem say_serve (bs : List Byte) (s : State) : (say bs s).serve = s.serve := rfl
@[simp] theorem say_fabric (bs : List Byte) (s : State) : (say bs s).fabric = s.fabric := rfl
@[simp] theorem say_faults (bs : List Byte) (s : State) : (say bs s).faults = s.faults := rfl
@[simp] theorem say_weights (bs : List Byte) (s : State) : (say bs s).weights = s.weights := rfl
@[simp] theorem say_security (bs : List Byte) (s : State) : (say bs s).security = s.security := rfl
@[simp] theorem say_pmu (bs : List Byte) (s : State) : (say bs s).pmu = s.pmu := rfl
@[simp] theorem say_flash (bs : List Byte) (s : State) : (say bs s).flash = s.flash := rfl
@[simp] theorem say_flights (bs : List Byte) (s : State) : (say bs s).flights = s.flights := rfl
@[simp] theorem say_microcode (bs : List Byte) (s : State) : (say bs s).microcode = s.microcode := rfl
@[simp] theorem say_free (bs : List Byte) (s : State) : (say bs s).free = s.free := rfl

/-! ### putHost writes store only -/

@[simp] theorem putHost_pending (a : Nat) (bs : List PByte) (s : State) : (putHost a bs s).pending = s.pending := rfl
@[simp] theorem putHost_fuse (a : Nat) (bs : List PByte) (s : State) : (putHost a bs s).fuse = s.fuse := rfl
@[simp] theorem putHost_boot (a : Nat) (bs : List PByte) (s : State) : (putHost a bs s).boot = s.boot := rfl
@[simp] theorem putHost_pins (a : Nat) (bs : List PByte) (s : State) : (putHost a bs s).pins = s.pins := rfl
@[simp] theorem putHost_time (a : Nat) (bs : List PByte) (s : State) : (putHost a bs s).time = s.time := rfl
@[simp] theorem putHost_irq (a : Nat) (bs : List PByte) (s : State) : (putHost a bs s).irq = s.irq := rfl
@[simp] theorem putHost_front (a : Nat) (bs : List PByte) (s : State) : (putHost a bs s).front = s.front := rfl
@[simp] theorem putHost_parts (a : Nat) (bs : List PByte) (s : State) : (putHost a bs s).parts = s.parts := rfl
@[simp] theorem putHost_jobs (a : Nat) (bs : List PByte) (s : State) : (putHost a bs s).jobs = s.jobs := rfl
@[simp] theorem putHost_tiles (a : Nat) (bs : List PByte) (s : State) : (putHost a bs s).tiles = s.tiles := rfl
@[simp] theorem putHost_dram (a : Nat) (bs : List PByte) (s : State) : (putHost a bs s).dram = s.dram := rfl
@[simp] theorem putHost_far (a : Nat) (bs : List PByte) (s : State) : (putHost a bs s).far = s.far := rfl
@[simp] theorem putHost_serve (a : Nat) (bs : List PByte) (s : State) : (putHost a bs s).serve = s.serve := rfl
@[simp] theorem putHost_fabric (a : Nat) (bs : List PByte) (s : State) : (putHost a bs s).fabric = s.fabric := rfl
@[simp] theorem putHost_faults (a : Nat) (bs : List PByte) (s : State) : (putHost a bs s).faults = s.faults := rfl
@[simp] theorem putHost_weights (a : Nat) (bs : List PByte) (s : State) : (putHost a bs s).weights = s.weights := rfl
@[simp] theorem putHost_security (a : Nat) (bs : List PByte) (s : State) : (putHost a bs s).security = s.security := rfl
@[simp] theorem putHost_pmu (a : Nat) (bs : List PByte) (s : State) : (putHost a bs s).pmu = s.pmu := rfl
@[simp] theorem putHost_flash (a : Nat) (bs : List PByte) (s : State) : (putHost a bs s).flash = s.flash := rfl
@[simp] theorem putHost_mon (a : Nat) (bs : List PByte) (s : State) : (putHost a bs s).mon = s.mon := rfl
@[simp] theorem putHost_flights (a : Nat) (bs : List PByte) (s : State) : (putHost a bs s).flights = s.flights := rfl
@[simp] theorem putHost_microcode (a : Nat) (bs : List PByte) (s : State) : (putHost a bs s).microcode = s.microcode := rfl
@[simp] theorem putHost_free (a : Nat) (bs : List PByte) (s : State) : (putHost a bs s).free = s.free := rfl

/-! ### Tables, with no condition on the table -/

theorem tabGet_tabSet_ne {α : Type} [DecidableEq α] (d : α) (t : Tab α) (k j : Nat) (v : α) (h : j ≠ k) :
    tabGet d (tabSet d t k v) j = tabGet d t j := by
  induction t with
  | nil => unfold tabSet; split <;> simp [tabGet, Ne.symm h]
  | cons p t ih =>
    obtain ⟨i, w⟩ := p
    unfold tabSet
    split
    · split <;> simp [tabGet, Ne.symm h]
    · split
      · rename_i h1 h2
        subst h2
        split <;> simp [tabGet, Ne.symm h]
      · simp [tabGet, ih]

theorem tabGet_tabSet_eq {α : Type} [DecidableEq α] (d : α) (t : Tab α) (k : Nat) (v : α) (h : v ≠ d) :
    tabGet d (tabSet d t k v) k = v := by
  induction t with
  | nil => simp [tabSet, h, tabGet]
  | cons p t ih =>
    obtain ⟨i, w⟩ := p
    unfold tabSet
    split
    · simp [tabGet]
    · split
      · simp [tabGet]
      · rename_i h1 h2
        have : i ≠ k := fun e => h2 e.symm
        simp [tabGet, ih, this]

/-- What a table of present entries reads as after one is put. -/
theorem tabGet_tabPut {α : Type} (d : α) (t : Tab α) (k : Nat) (v : α) (j : Nat) :
    tabGet d (tabPut t k v) j = if j = k then v else tabGet d t j := by
  induction t with
  | nil => by_cases h : j = k <;> simp [tabPut, tabGet, h, Ne.symm]
  | cons p t ih =>
    obtain ⟨i, w⟩ := p
    by_cases h : j = k
    · subst h
      unfold tabPut
      split
      · simp [tabGet]
      · split
        · simp [tabGet]
        · rename_i h1 h2
          simp [tabGet, ih, Ne.symm h2]
    · unfold tabPut
      split
      · simp [tabGet, Ne.symm h]
      · split
        · rename_i h1 h2
          subst h2
          simp [tabGet, Ne.symm h]
        · simp [tabGet, ih, h]

/-! ### Commands in flight -/

theorem find_updWhere (l : List Cmd) (f : Cmd → Cmd) (p j : Nat) (hf : ∀ y, (f y).id = y.id) :
    (updWhere (·.id == p) f l).find? (·.id == j) =
      (l.find? (·.id == j)).map fun y => if y.id == p then f y else y := by
  induction l with
  | nil => rfl
  | cons y l ih =>
    have e0 : (if y.id == p then f y else y).id = y.id := by split <;> simp [hf]
    simp only [updWhere] at ih
    simp only [updWhere, List.map_cons, List.find?_cons, e0, ih]
    cases (y.id == j) <;> rfl

/-- What is left of a command when one of them is changed. -/
theorem cmdAt_updCmd (p j : Nat) (f : Cmd → Cmd) (s : State) (hf : ∀ y, (f y).id = y.id) :
    cmdAt (updCmd p f s) j = (cmdAt s j).map fun y => if y.id == p then f y else y :=
  find_updWhere s.front.cmds f p j hf

theorem cmdAt_id {s : State} {j : Nat} {c : Cmd} (h : cmdAt s j = some c) : c.id = j := by
  simpa using List.find?_some h

/-! ### Queues -/

theorem queueAt_setQueue (s : State) (q j : Nat) (x : Queue) :
    queueAt (setQueue s q x) j = if j = q then x else queueAt s j := by
  unfold queueAt setQueue; exact tabGet_tabPut _ s.front.queues q x j

/-! ### Events and the interrupt tree (R466-R470) -/

theorem irqFn_setIrqFn (s : State) (n : Nat) (x : IrqFn) (h : n < 5) : irqFn (setIrqFn s n x) n = x := by
  simp [irqFn, setIrqFn, h]

theorem armFn_leaves (s : State) (n : Nat) : (armFn s n).front = s.front ∧ (armFn s n).irq.queue = s.irq.queue ∧
    ∀ g, groupLeaf (armFn s n).irq g = groupLeaf s.irq g := by
  unfold armFn; dsimp only
  split <;> refine ⟨rfl, rfl, ?_⟩ <;> intro g <;> rfl

theorem armFn_fold_leaves (l : List Nat) (s : State) : (l.foldl armFn s).front = s.front ∧
    (l.foldl armFn s).irq.queue = s.irq.queue ∧ ∀ g, groupLeaf (l.foldl armFn s).irq g = groupLeaf s.irq g := by
  induction l generalizing s with
  | nil => exact ⟨rfl, rfl, fun _ => rfl⟩
  | cons x l ih =>
    have h := armFn_leaves s x
    have k := ih (armFn s x)
    exact ⟨k.1.trans h.1, k.2.1.trans h.2.1, fun g => (k.2.2 g).trans (h.2.2 g)⟩

/-- Settling the tree changes no leaf and nothing outside it but the IRQ_N pin. -/
theorem irqSettle_leaves (s : State) : (irqSettle s).front = s.front ∧ (irqSettle s).irq.queue = s.irq.queue ∧
    ∀ g, groupLeaf (irqSettle s).irq g = groupLeaf s.irq g := by
  have h := armFn_fold_leaves (List.range 5) s
  unfold irqSettle; dsimp only
  split <;> exact h

end Sys2Proof.Machine
end

