-- ==== Sys2Proof/Laws/Rows.lean ====
section
/-!
SUPPORT. What a row does once it acts: each shared shape of a meaning (a command's row, a check, a gate, an engine's head, a
port, a message, a mailbox) as one equation under the conditions that Safety names.
-/

namespace Sys2Proof.Machine

/-! ## Packet commands -/

theorem onCmd_runs {s : State} {op id : Nat} {c : Cmd} (h : Runs s op id c) (f : Cmd → State → State) :
    onCmd op id s f = .next (f c s) := by
  obtain ⟨a, b, d, e⟩ := h
  simp [onCmd, a, b, d, e]

theorem judged_finds {α : Type} (c : Cmd) (chk : Chk α) (s : State) (go : α → State → State) (x : α)
    (ps : List (Home × Nat)) (h : Finds c s chk x ps) : judged c chk s go = go x (touch c ps s) := by
  unfold judged; simp only [h.1, h.2]

theorem judged_rejects {α : Type} (c : Cmd) (chk : Chk α) (s : State) (go : α → State → State) (m : Mark)
    (ps : List (Home × Nat)) (h : Rejects c s chk m ps) : judged c chk s go = rejectCmd c.id m (touch c ps s) := by
  unfold judged; simp only [h.1, h.2]

@[simp] theorem touch_nil (c : Cmd) (s : State) : touch c [] s = s := by
  simp [touch, charged, noteWaits, bankKeys]

theorem admit_admits {c : Cmd} {s : State} {rs : List (W64 × Nat × Bool)} (h : c.Admits s rs) (go : State → State) :
    c.seekAdmission rs s go = go s := by
  unfold Cmd.seekAdmission
  rcases h with h | h <;> simp [h]

theorem bring_holds {c : Cmd} {s : State} {k : Nat} {rs : List (W64 × Nat)} (h : c.Holds s k rs) (go : State → State) :
    c.bring k rs s go = go s := by
  unfold Cmd.bring
  rcases h with h | ⟨h1, h2⟩
  · simp [h]
  · simp [h1, Nat.not_le.2 h2]

theorem remoteGate_admitted {c : Cmd} {s : State} {rs : List (W64 × Nat × Bool)} (h : c.Admitted s rs)
    (go : State → State) : c.remoteGate rs s go = go s := by
  rw [Cmd.remoteGate, admit_admits h.1, bring_holds h.2]

theorem gate_reached {c : Cmd} {s : State} {ps : List (Home × Nat)} (h : reachOf s (.command c.id) ps = .go) (go : State → State) :
    c.gate ps s go = go (noteWaits (.command c.id) ps s) := by
  unfold Cmd.gate; simp only [h]

theorem gate_reaches {c : Cmd} {ps : List (Home × Nat)} {s t : State} (h : c.Reaches ps s t) (go : State → State) :
    c.gate ps s go = go t := by
  rw [gate_reached h.1, h.2]

theorem reads_reads {c : Cmd} {ps : List (Home × Nat)} {s t : State} (h : c.Reads ps s t) (go : State → State) :
    c.reads ps s go = go t := by
  unfold Cmd.reads; rw [gate_reached h.1, h.2]

theorem reaching_admitted {c : Cmd} {s : State} {a : W64} {n : Nat} (h1 : c.Admitted s [(a, n, true)])
    (h2 : reachOf s (.command c.id) (c.pieces s a n) = .go) (go : State → State) :
    c.reaching a n s go = go (noteWaits (.command c.id) (c.pieces s a n) s) := by
  unfold Cmd.reaching; rw [remoteGate_admitted h1, gate_reached h2]

theorem afterSteps_free {c : Cmd} {s : State} {rs : List Nat} (h : stepRunHolds s c rs = false) (go : State → State) :
    c.afterSteps s rs go = go (resumeCmd c.id s) := by simp [Cmd.afterSteps, h]

theorem afterSteps_held {c : Cmd} {s : State} {rs : List Nat} (h : stepRunHolds s c rs = true) (go : State → State) :
    c.afterSteps s rs go = waitCmd c.id s := by simp [Cmd.afterSteps, h]

/-! ## Engines -/

theorem onHead_atHead {s : State} {t e op : Nat} {h : Entry} (a : AtHead s t e op h) (f : Ins → Entry → State → State) :
    onHead t e op s f = .next (f (Ins.of h.word) h s) := by
  obtain ⟨a1, a2, a3, a0, a4, a5, a6, a7, a8⟩ := a
  simp [onHead, onUnit, a1, whenRunning, a2, a3, a0, a4, a5, a6, a7, a8]

theorem onLocal_inside {t e : Nat} {i : Ins} {s : State} (h : operandsOk s t e i = true) (f : State → State) :
    onLocal t e i s f = f s := by simp [onLocal, h]

theorem onLocal_outside {t e : Nat} {i : Ins} {s : State} (h : operandsOk s t e i = false) (f : State → State) :
    onLocal t e i s f = engFault t e s := by simp [onLocal, h]

/-! ## Ports, messages, mailboxes -/

theorem onPort_present {p : Nat} {s : State} (h1 : p < 16) (h2 : linksOn s = true) (h3 : portPresent s p = true)
    (f : Port → State → State) : onPort p s f = .next (f (portAt s p) s) := by simp [onPort, onUnit, h1, h2, h3]

theorem onMsg_arrived {s : State} {p vc k : Nat} {m : Msg} {rest : List Byte} (h : Arrived s p vc m rest) (hk : m.kind = k)
    (f : Msg → State → State → State) : onMsg p vc k s f = .next (f m (popMsg p vc rest s) s) := by
  obtain ⟨a, b, c, d, e⟩ := h
  simp [onMsg, onPort_present a b c, d, e, hk]

theorem onMail_up {fn : Nat} {s : State} (h1 : fn < 5) (h2 : hostUp s = true) (f : Spdm → State → State) :
    onMail fn s f = .next (f (spdmAt s fn) s) := by simp [onMail, onUnit, h1, h2]

theorem onAgreed_up {fn : Nat} {s : State} (h1 : fn < 5) (h2 : hostUp s = true) (h3 : (spdmAt s fn).negotiated = true)
    (f : Spdm → State → State) : onAgreed fn s f = .next (f (spdmAt s fn) s) := by
  simp only [onAgreed, onMail_up h1 h2, h3, if_true]

theorem onAgreed_early {fn : Nat} {s : State} (h1 : fn < 5) (h2 : hostUp s = true) (h3 : (spdmAt s fn).negotiated = false)
    (f : Spdm → State → State) : onAgreed fn s f = .next (spdmError fn errUnexpected s) := by
  simp [onAgreed, onMail_up h1 h2, h3]

theorem onSession_up {fn : Nat} {s : State} (h1 : fn < 5) (h2 : hostUp s = true) (h3 : (spdmAt s fn).established = true)
    (f : Spdm → State → State) : onSession fn s f = .next (f (spdmAt s fn) s) := by
  simp only [onSession, onMail_up h1 h2, h3, if_true]

theorem onSession_none {fn : Nat} {s : State} (h1 : fn < 5) (h2 : hostUp s = true) (h3 : (spdmAt s fn).established = false)
    (f : Spdm → State → State) : onSession fn s f = .next (spdmError fn errUnexpected s) := by
  simp [onSession, onMail_up h1 h2, h3]

end Sys2Proof.Machine
end

