-- ==== Sys2Proof/Tests/Slice0.lean ====
section
/-!
SUPPORT. Small tests of single commands, and for every statement of Certificates/Slice0 a witness that its hypotheses can be met, clause by clause.
-/

namespace Sys2Proof.Tests

open Sys2Proof.Machine

-- One test after another: checked side by side, their kernel evaluations need more threads than the memory holds.
set_option Elab.async false

/-! ## Small states -/

/-- The flight table's nine built-in entries, without names and microcode. -/
def flights : Tab FlightEntry :=
  (builtinFlights.zipIdx 0).map fun e => (e.2, { flags := BitVec.ofNat 8 e.1.1, banks := e.1.2.1, columns := e.1.2.2.1,
                                                 formats := BitVec.ofNat 32 ((e.1.2.2.2.map (2 ^ ·)).sum) })

/-- A module that has started up: VSB18 applied, phase 6, READY. -/
def up : State := { State.reset with boot := { State.reset.boot with phase := 6, ready := true }, flights := flights }

/-- Partition 0 open with the whole module, and its job 1 active. -/
def open0 : State :=
  { up with
    parts := [(0, { isOpen := true, vf := 1, active := some 1 })]
    jobs := { up.jobs with jobs := [⟨1, 0, 0, 2000, 2000, false, [], false⟩], nextJob := 2 }
    front := { up.front with queues := [(0, { active := true, sizeLog2 := 4 }), (1, { part := 0, active := true, sizeLog2 := 4 })] } }

/-- Parameter bytes: value `v` in the `n` bytes from packet byte `a`, for each (a, n, v) given. -/
def args (l : List (Nat × Nat × Nat)) : List Byte :=
  (List.range 48).map fun i => match l.find? fun x => x.1 ≤ i + 16 && i + 16 < x.1 + x.2.1 with
    | some x => BitVec.ofNat 8 (x.2.2 / 256 ^ (i + 16 - x.1))
    | none => 0

def ones : List Byte := List.replicate 48 0xFF

/-- Command 1, of opcode `op` with parameters `ps`, of job 1 on queue 1, started. -/
def cmd (op : Nat) (ps : List Byte) : Cmd :=
  { id := 1, queue := 1, seq := 1, opcode := op, part := 0, job := 1, params := ps, phase := .started }

/-- `s` with these commands in flight. -/
def flying (cs : List Cmd) (s : State) : State := { s with front := { s.front with cmds := cs } }

/-- `s` with command 1 alone in flight. -/
def at_ (op : Nat) (ps : List Byte) (s : State := open0) : State := flying [cmd op ps] s

/-- A check of `c` in `s` passes, with the control data that it reads reached. -/
def finds {α : Type} (c : Cmd) (s : State) (chk : Chk α) : Bool := match (ExceptT.run chk).run [] with
  | (.ok _, ps) => c.finds ps s = .go
  | _ => false

/-- A check passes and reads no control data. -/
def findsBare {α : Type} (chk : Chk α) : Bool := match (ExceptT.run chk).run [] with
  | (.ok _, []) => true
  | _ => false

/-- A check of `c` in `s` rejects, with the control data that it reads reached. -/
def rejects {α : Type} (c : Cmd) (s : State) (chk : Chk α) : Bool := match (ExceptT.run chk).run [] with
  | (.error (.status _), ps) => c.finds ps s = .go
  | _ => false

theorem finds_nil (c : Cmd) (s : State) : c.finds [] s = .go := by unfold Cmd.finds; split <;> rfl

theorem finds_of {α : Type} {c : Cmd} {s : State} {chk : Chk α} (h : finds c s chk = true) : ∃ x ps, Finds c s chk x ps := by
  unfold finds at h; unfold Finds; split at h
  · exact ⟨_, _, by assumption, by simpa using h⟩
  · cases h

theorem finds_bare {α : Type} {c : Cmd} {s : State} {chk : Chk α} (h : findsBare chk = true) : ∃ x, Finds c s chk x [] := by
  unfold findsBare at h; unfold Finds; split at h
  · exact ⟨_, by assumption, finds_nil c s⟩
  · cases h

theorem rejects_of {α : Type} {c : Cmd} {s : State} {chk : Chk α} (h : rejects c s chk = true) :
    ∃ m ps, Rejects c s chk m ps := by
  unfold rejects at h; unfold Rejects; split at h
  · exact ⟨_, _, by assumption, by simpa using h⟩
  · cases h

/-- Command 1 runs in `at_ op ps s` and its check rejects it. -/
structure Fails {α : Type} (op : Nat) (chk : State → Cmd → Chk α) (ps : List Byte := ones) (s : State := open0) : Prop where
  runs : Runs (at_ op ps s) op 1 (cmd op ps)
  rejects : ∃ m qs, Rejects (cmd op ps) (at_ op ps s) (chk (at_ op ps s) (cmd op ps)) m qs

theorem fails_of {α : Type} {op : Nat} {chk : State → Cmd → Chk α} {ps : List Byte} {s : State} (hr : running s = true)
    (h : rejects (cmd op ps) (at_ op ps s) (chk (at_ op ps s) (cmd op ps)) = true) : Fails op chk ps s :=
  ⟨⟨hr, rfl, rfl, rfl⟩, rejects_of h⟩

theorem runs_at {op : Nat} {ps : List Byte} {s : State} (hr : running s = true) : Runs (at_ op ps s) op 1 (cmd op ps) :=
  ⟨hr, rfl, rfl, rfl⟩

/-! ## Steps and reset -/

theorem wit_StepTakesTheFrontCommand : ({ up with pending := [.bootFlashDone] } : State).pending = .bootFlashDone :: [] ∧
    up.pending = [] := ⟨rfl, rfl⟩

theorem wit_MemoriesStayCanonical : (∃ t, step up = .next t) ∧ Canonical up := ⟨⟨_, rfl⟩, by unfold Canonical; decide⟩

theorem wit_StepsTakeOneCommand : ∃ t, step { up with pending := [.bootFlashDone, .vinPgRise] } = .next t := ⟨_, rfl⟩

theorem wit_WellFormedCommandsComplete : (Instr.irqUnmask 4).wf = true ∧ exec (.irqUnmask 5) up = .fault .noSuchUnit ∧
    (Instr.irqUnmask 5).wf = false := ⟨by decide, rfl, by decide⟩

theorem wit_FailedChecksReject :
    Fails 0x0101 queueCreateChk ∧ Fails 0x0102 queueDeleteChk ∧ Fails 0x0301 loadChk ∧ Fails 0x0304 (fun _ c => formatSlotChk c) ∧
    Fails 0x0901 identChk ∧
    Fails 0x0408 (fun s c => namedChk s c 16) (zeros 48) ∧ Fails 0x040B (fun s c => namedChk s c 16) (zeros 48) ∧
    Fails 0x040C (fun s c => namedChk s c 16) (zeros 48) ∧ Fails 0x040E (fun s c => namedChk s c 16) (zeros 48) ∧
    Fails 0x040F (fun s c => namedChk s c 16) (zeros 48) ∧
    Fails 0x0105 jobOpenChk ∧ Fails 0x0201 memCopyChk ∧ Fails 0x0203 layoutChk ∧
    Fails 0x0204 scrubRangeChk ∧ Fails 0x0205 kvBoundaryChk ∧ Fails 0x0206 checkbitChk ∧ Fails 0x0303 unloadChk ∧
    Fails 0x0401 customerChk ∧ Fails 0x0402 openChk ∧ Fails 0x0404 chunkChk ∧ Fails 0x0405 planChk ∧ Fails 0x040C insertChk ∧
    Fails 0x040D setChk ∧ Fails 0x0501 registerChk ∧ Fails 0x0502 weightChk ∧ Fails 0x0503 verifyChk ∧ Fails 0x0403 closeChk ∧
    Fails 0x0602 setNodeChk ∧ Fails 0x0603 routeChk ∧ Fails 0x0604 linkStateChk ∧ Fails 0x0701 (fun _ c => setCapChk c) ∧
    Fails 0x0702 setProfileChk ∧ Fails 0x0703 lendChk ∧ Fails 0x0705 powerReadChk ∧ Fails 0x0801 attestChk ∧
    Fails 0x0903 responseChk ∧ Fails 0x0904 guardChk ∧ Fails 0x0905 trafficChk ∧ Fails 0x0906 scrubLapChk ∧
    Fails 0x0202 (fun s c => c.checkRanges s [(16, c.addr 16, c.at 24 8)]) ∧
    Fails 0x0601 (fun s c => c.checkRanges s [(16, c.addr 16, c.at 24 4)]) ∧
    Fails 0x0902 (fun s c => c.checkRanges s [(16, c.addr 16, c.at 24 4)]) ∧
    Fails 0x0107 (fun _ c => need (500 ≤ c.at 16 4 && c.at 16 4 ≤ 100000) (c.bad 16)) ∧
    Fails 0x0704 (fun s _ => need (!anyJob s && !anySwitch s) .busy) ∧
    Fails 0x0802 (fun _ c => need (c.at 16 1 < 4) (c.bad 16)) ∧ Fails 0x0605 linkRekeyChk ∧ Fails 0x0302 launchChk ∧
    Fails 0x0406 stepRunChk ∧ Fails 0x0103 openPartChk ∧ Fails 0x0104 closePartChk ∧ Fails 0x0407 forkChk ∧
    Fails 0x0408 editChk ∧ Fails 0x0409 (fun s c => requestChk s c 16) ∧ Fails 0x040A (fun s c => requestChk s c 16) ∧
    Fails 0x040B lookupChk ∧ Fails 0x040E (fun s c => requestChk s c 16) ∧ Fails 0x040F (fun s c => requestChk s c 16) ∧
    Fails 0x0410 shipChk ∧ Fails 0x0411 adoptChk ∧
    (∀ op ∈ [0x0103, 0x0104, 0x0407, 0x040B, 0x0411], (cmd op ones).progress ≠ 1 ∧ (cmd op ones).tiles = [] ∧
      runOf (at_ op ones) 1 = none ∧ (at_ op ones).parts.any (fun x => x.2.switchCmd = some 1) = false ∧
      stepRunHolds (at_ op ones) (cmd op ones) (cmd op ones).names = false) ∧
    ((cmd 0 (zeros 48)).at 32 4 = 0 ∧ (cmd 0 (zeros 48)).at 24 4 = 0 ∧ (cmd 0x0410 ones).progress < 2 ∧
      opening (at_ 0x0704 ones) = false) ∧
    (cmd 0 ones).at 24 8 ≠ 0 ∧ (cmd 0 ones).at 20 2 ≠ 0 ∧ (cmd 0 ones).at 32 8 ≠ 0 ∧ cmdAt (at_ 0 ones) 1 = some (cmd 0 ones) := by
  repeat' apply And.intro
  all_goals first | exact fails_of rfl (by decide +kernel) | decide +kernel

/-! ## Memories, doorbells, packets -/

theorem wit_CodedWritesReadBack : tabWf 0 ([(1, 7)] : Tab (BitVec 16)) = true ∧ (7 / 8 < 8 / 8 ∧ (8 + 8 + 7) / 8 ≤ 16 / 8) ∧
    (8 % 8 = 0 ∧ ((zeros 8).map fun b => (b, false)).all (fun b : PByte => !b.2) = true) ∧
    (9 % 8 + [(3, false)].length ≤ 8 ∧ ([(3, false)] : List PByte) ≠ [] ∧
      (decodeMark (tabGet 0 ([(1, 7)] : Tab (BitVec 16)) (9 / 8))).poison = true) := by decide +kernel

theorem wit_WritesReadBack : open0.store.wf = true ∧ zeros 8 ≠ [] ∧ (zeros 8).length % 8 = 0 ∧
    (stackAt open0 (keyStack 0)).degraded = false ∧ keyStack (0 + 8) = keyStack 0 ∧
    (stackAt open0 (keyStack 0)).merges = [] ∧ open0.store.farPoison.contains (56 / 64) = false ∧ 56 % 64 + (zeros 8).length ≤ 64 ∧
    (zeros 64).length = 64 := by decide +kernel

/-- An access of function `fn` waits for a lock. -/
def hostHeld (fn : Nat) : State :=
  { open0 with front := { open0.front with hostWaits := open0.front.hostWaits.setIfInBounds fn 1 } }

theorem wit_DoorbellsMoveTheQueue : hostUp open0 = true ∧ open0.boot.ready = true ∧ open0.pmu.sleep = .awake ∧
    (∀ fn ∈ [0, 1], ownsQueue open0 fn 1 = true) ∧ bellsLive open0 1 = true ∧ 15 < (queueAt open0 1).size ∧ Prompt 1 open0 ∧
    hostWaitsOf 1 (hostHeld 1) ≠ 0 := by unfold Prompt; decide +kernel

theorem wit_DoorbellRangeIsIgnored : hostUp open0 = true ∧ open0.boot.ready = true ∧ open0.pmu.sleep = .awake ∧
    (∀ fn ∈ [0, 1], ownsQueue open0 fn 1 = true) ∧ bellsLive open0 1 = true ∧ (queueAt open0 1).size ≤ 16 ∧ Prompt 1 open0 := by
  unfold Prompt; decide +kernel

/-- A packet's first 64 bytes: version 1, sequence number 1, queue 1, partition 0. -/
def packet : List Byte := [0, 0, 0, 1, 1, 0, 0, 0, 1, 0, 0] ++ zeros 53

/-- Queue 1 with one packet waiting and its rings in host memory; `open0` otherwise. -/
def ringing : State := { open0 with front := { open0.front with queues := [(1, { part := 0, active := true, sizeLog2 := 4, sqTail := 1
                                                                                 sqBase := mkAddr 3 0, replyBase := mkAddr 3 4096
                                                                                 shadow := mkAddr 3 8192 })] } }

/-- A taken command in the place of a started one. -/
def taken (op : Nat) (ps : List Byte) : Cmd := { cmd op ps with phase := .taken }

/-- A MEM-COPY's parameters with a source in space 0x1. -/
def copySpace1 : List Byte := args [(16, 8, (mkAddr 1 0).toNat), (24, 8, (mkAddr 3 0).toNat), (32, 8, 8)]

theorem wit_PacketsBecomeCommands :
    (running ringing = true ∧ ringing.boot.draining = false ∧ pickQueue ringing = some 1 ∧
      ∃ ps, ringPieces ringing (queueAt ringing 1) (plus (queueAt ringing 1).sqBase (64 * (queueAt ringing 1).sqHead)) 64 = some ps ∧
        reachOf ringing (.rings 1) ps = .go ∧ (getPieces false ps (noteWaits (.rings 1) ps ringing)).1.poisoned = 0) ∧
    (field packet 3 1 = 1 ∧ field packet 8 2 = 1 ∧ field packet 10 1 = (queueAt ringing 1).part ∧
      (queueAt ringing 1).judge (BitVec.ofNat 32 (field packet 4 4)) = .accept ∧
      ({ queueAt ringing 1 with newest := some 1, window := [(1, none)] } : Queue).judge
        (BitVec.ofNat 32 (field packet 4 4)) = .duplicate) ∧
    (cmdAt (flying [{ taken 0x0201 ones with job := 2 }] open0) 1 = some { taken 0x0201 ones with job := 2 } ∧
      headFault open0 { taken 0x0201 ones with job := 2 } = some (.badParam 12)) ∧
    (cmdAt (flying [taken 0x0302 (zeros 48)] open0) 1 = some (taken 0x0302 (zeros 48)) ∧
      turnToStart (flying [taken 0x0302 (zeros 48)] open0) (taken 0x0302 (zeros 48)) = true ∧
      headFault open0 (taken 0x0302 (zeros 48)) = none ∧ (taken 0x0302 (zeros 48)).ext = false ∧
      (taken 0x0302 (zeros 48)).homeless = false ∧
      ({ taken 0x0201 copySpace1 with job := 0 } : Cmd).homeless = true ∧ headFault open0 { taken 0x0201 copySpace1 with job := 0 } = none ∧ jobRuns open0 1 = true ∧
      (opRow 0x0302).bind (·.stray (zeros 48)) = none ∧
      unitHeld (flying [taken 0x0302 (zeros 48)] open0) (taken 0x0302 (zeros 48)) = false) := by
  refine ⟨⟨by decide +kernel, by decide +kernel, by decide +kernel, _, rfl, by decide +kernel, by decide +kernel⟩,
    by decide +kernel, by decide +kernel, by decide +kernel⟩

/-- Each packet that is turned away: another version, another queue, another partition, an old number, an opcode not listed,
one of queue 0, another length. -/
theorem wit_packetsTurnedAway :
    (let p (v q part : Byte) : List Byte := [0, 0, 0, v, 1, 0, 0, 0, q, 0, part] ++ zeros 53
     field (p 2 1 0) 3 1 ≠ 1 ∧ field (p 1 2 0) 8 2 ≠ 1 ∧ field (p 1 1 1) 10 1 ≠ (queueAt ringing 1).part) ∧
    (({ queueAt ringing 1 with newest := some 5000 } : Queue).judge 1 = .stale ∧ (queueAt ringing 1).judge 1 = .accept) ∧
    (opRow 0 = none ∧ (opRow 0x0103).map (·.q0) = some true ∧ (opRow 0x0201).map (fun r => (r.q0, r.units)) = some (false, 3) ∧
      bit 0 4 = false ∧ bit 0x10 4 = true ∧ 2 < max 1 3) ∧
    (({ newest := none } : Queue).newest = none ∧ 1 ≤ ((2 : W32) - 1).toNat ∧ ((1 : W32) - 0).toNat ≤ 4095 ∧
      ([(0, none)] : List (W32 × Option (BitVec 8))).any (·.1 == 0) = true ∧ 4096 ≤ ((5000 : W32) - 1).toNat ∧
      2 ^ 31 ≤ ((1 : W32) - 5000).toNat) ∧
    ((opRow 0x0302).bind (·.stray (List.replicate 48 1)) ≠ none ∧
      (cmdAt (flying [taken 0x0302 []] open0) 1).isSome = true) := by decide +kernel

/-- A LINK-STATE of port 0 held by an earlier one that has not ended. -/
theorem wit_heldCommand : (let c := { taken 0x0604 (zeros 48) with id := 2 }
    let s := flying [cmd 0x0604 (zeros 48), c] open0
    cmdAt s 2 = some c ∧ unitHeld s c = true ∧ turnToStart s c = true ∧ headFault s c = none ∧ c.homeless = false ∧
      jobRuns s c.job = true ∧ (opRow 0x0604).bind (·.stray (zeros 48)) = none) := by decide +kernel

/-- Device time `t`. -/
def atTime (t : Nat) (s : State) : State := { s with time := { s.time with now := BitVec.ofNat 64 t } }

def ended : Cmd := { cmd 0x0201 ones with phase := .ended, marks := [.done 0] }

theorem wit_CommandsEnd :
    (cmdAt (flying [ended] ringing) 1 = some ended ∧ ended.due = none ∧ ended.spoil = false ∧ ended.opcode ≠ 0x0704 ∧
      (queueAt (flying [ended] ringing) 1).dups.any (·.reply.isSome) = false ∧
      ∃ ps, ringPieces (flying [ended] ringing) (queueAt (flying [ended] ringing) 1)
          (replyAddr (queueAt (flying [ended] ringing) 1)) 32 = some ps ∧
        reachOf (flying [ended] ringing) (.rings 1) ps = .go) ∧
    (ended.reply.status = 0 ∧ ended.flag flagReply = false ∧ ({ ended with flags := 0xFF } : Cmd).flag flagReply = true ∧
      dropping ringing (queueAt ringing 1) = false ∧
      ringPieces ringing (queueAt ringing 1) (replyAddr (queueAt ringing 1)) 32 = some [(.host 4096, 32)] ∧
      ringPieces ringing (queueAt ringing 1) (queueAt ringing 1).shadow 16 = some [(.host 8192, 16)]) ∧
    (([⟨1, 2, false, some {}⟩] : List Dup).find? (·.reply.isSome) = some ⟨1, 2, false, some {}⟩) ∧
    (running (atTime 100000000 open0) = true ∧ counted (atTime 100000000 open0) (cmd 0 ones) = 100000000 ∧
      (queueAt open0 1).timeout = 100000000 ∧ ({ taken 0 ones with waitSince := some 0 } : Cmd).waitSince = some 0 ∧
      0 + (queueAt open0 1).timeout ≤ now (atTime 100000000 open0)) ∧
    (bellsLive open0 1 = true ∧ (queueAt open0 1).stopped = false) ∧
    (({ ended with due := some 2 } : Cmd).due = some 2 ∧ repairPending open0 1 = false) := by
  refine ⟨⟨by decide +kernel, by decide +kernel, by decide +kernel, by decide +kernel, by decide +kernel, _, rfl, by decide +kernel⟩,
    by decide +kernel, by decide +kernel, by decide +kernel, by decide +kernel, by decide +kernel⟩

theorem wit_CountersAreRead : hostUp open0 = true ∧ open0.boot.ready = true ∧ open0.pmu.sleep = .awake ∧
    tileHidden 0 511 open0 = false ∧ tileHidden 1 0 open0 = false ∧ pimStack open0 0 = true ∧ open0.security.lockout = false ∧
    ({ open0 with security := { open0.security with lockout := true } } : State).security.lockout = true ∧
    portPresent open0 15 = true ∧ seesPart 0 3 open0 = true ∧ seesPart 1 0 open0 = true ∧ seesPart 1 3 open0 = false := by
  decide +kernel

/-- A module that is starting up, with its host. -/
def before : State := { State.reset with boot := { State.reset.boot with phase := 3 } }

theorem wit_beforeReady : hostUp before = true ∧ before.boot.ready = false ∧ (queueAt before 0).active = false ∧
    standbyBlock 0x9000 = false ∧ bits 0x00100384 22 16 = 16 ∧ bits 0x00100384 15 0 = 900 := by decide +kernel

theorem wit_AdminQueueStartsAndStops : hostUp up = true ∧
    ({ cfg := ((0x40000 ||| 0x80000000) &&& 0x800FFFFF : W32) } : Admin).good = true ∧ (queueAt up 0).active = false ∧
    ({ cfg := ((0 ||| 0x80000000) &&& 0x800FFFFF : W32) } : Admin).good = false ∧
    ((queueAt open0 0).active = true ∧ open0.front.admin.enabled = false ∧ open0.front.admin.enablePending = false ∧
      open0.front.cmds.any (·.queue == 0) = false ∧ (queueAt open0 0).dups = []) := by decide +kernel

/-- Partition 1's far range is GiB 1, of 2 served. -/
def farSet : State := { up with far := { up.far with up0 := true, cap0 := 2, base := [(1, 1)], size := [(0, 1), (1, 1)] } }

theorem wit_RegistersAreWritten : up.jobs.jobs = [] ∧ open0.jobs.jobs ≠ [] ∧ serving up = true ∧ jobIn up 0 = false ∧
    jobIn open0 0 = true ∧ (3 : W32).getLsbD 0 = true ∧
    (gib * (0 + tabGet 0 farSet.far.size 0) ≤ farServed farSet ∧ ∀ q < 4, q ≠ 0 →
      farOverlap { farSet.far with base := tabSet 0 farSet.far.base 0 0 } 0 q = false) ∧
    farOverlap { farSet.far with base := tabSet 0 farSet.far.base 0 1 } 0 1 = true ∧
    (600 ≤ bits 0x02580258 15 0 ∧ bits 0x02580258 15 0 ≤ bits 0x02580258 31 16 ∧ bits 0x03200258 31 16 = 800) ∧
    bits 0x03210258 31 16 = 801 := by decide +kernel

/-- `s` with bank 0 of stack 0 in a pound. -/
def pounding (s : State := open0) : State :=
  { s with dram := [(0, { trained := true, banks := [(0, { run := some { number := 0, group := 0, descs := [], inPound := true } })] })] }

theorem wit_Bar2ReachesMemory :
    (nodeOf (mkAddr 5 0) = 0xFFFF ∧ spaceOf (mkAddr 5 0) = 5 ∧ spaceOf (mkAddr 2 0) = 2 ∧
      (mkAddr 5 0).toNat / 2 ^ 34 * 2 ^ 34 = (mkAddr 5 0).toNat) ∧
    (Prompt 0 open0 ∧ bar2Served 0 8 open0 = true ∧
      resolve open0 .host (bar2PartOf 0 open0) (bar2Addr 0 0 open0) 8 = .ok (.near [(.stack 0, 8)]) ∧
      bankBlocks open0 (.host 0) 0 = false) ∧
    (bar2Served 0 8 (pounding) = true ∧
      resolve (pounding) .host (bar2PartOf 0 (pounding)) (bar2Addr 0 0 (pounding)) 8 = .ok (.near [(.stack 0, 8)]) ∧
      bankBlocks pounding (.host 0) 0 = true) ∧
    (bar2Served 0 8 up = true ∧ resolve up .host (bar2PartOf 0 up) (bar2Addr 0 0 up) 8 = .error .denied) := by
  unfold Prompt; decide +kernel

/-! ## Interrupts, resets, start-up -/

/-- Function 0 has a REPLY of queue 1 pending and due at time 0. -/
def dueNow : State :=
  { up with irq := { up.irq with queue := up.irq.queue.set 0 ⟨2, 0xFFFFFFFF⟩, fns := up.irq.fns.set 0 { enable := 1, due := some 0 } } }

theorem wit_InterruptsAreDelivered :
    ((irqFn dueNow 0).due = some 0 ∧ 0 ≤ now dueNow ∧ irqPending dueNow 0 = true) ∧
    (irqPending { dueNow with irq := { dueNow.irq with queue := up.irq.queue } } 0 = false) ∧
    (hostUp dueNow = true ∧ (irqFn dueNow 0).fired = false ∧ ({ fired := true } : IrqFn).fired = true) := by decide +kernel

theorem wit_leafClears : hostUp up = true ∧ 1 ≤ 7 ∧ leafMask up 1 0 8 = 0 := by decide +kernel

theorem wit_EventsSetLeafBits : 1 ≤ Cause.restart.place.1 ∧ Cause.attach.place.1 = 7 ∧ up.security.lockout = false ∧
    ({ up with security := { up.security with lockout := true } } : State).security.lockout = true := by decide +kernel

/-- The pins of a powered module. -/
def powered : State := { up with pins := { up.pins with pwrEn := true, vinPg := true } }

theorem wit_ResetsAndPinsAct :
    (powered.boot.vsb = true ∧ powered.pins.modRstN = true ∧ powered.pins.pwrEn = true ∧ powered.pins.perstN = true ∧
      (powered.boot.vsb && !powered.boot.inReset && powered.boot.ready) = true) ∧
    (({ vsb := false } : Boot).vsb = false ∧ State.reset.pins.pwrEn = false ∧ State.reset.boot.ready = false ∧
      State.reset.pins.perstN = true) ∧
    (hostUp open0 = true ∧ open0.boot.ready = true ∧ partOfFn open0 1 = some 0 ∧ partOfFn open0 2 = none) ∧
    (hostUp before = true ∧ before.boot.ready = false ∧ before.pins.perstN = true) := by decide +kernel

/-- In phase `n` of a start-up, with PWR_EN high from phase 2 on. -/
def starting (n : Nat) : State :=
  { State.reset with boot := { State.reset.boot with phase := n }, pins := { State.reset.pins with pwrEn := 2 ≤ n } }

theorem wit_StartUpReachesReady :
    (∀ n ∈ [0, 1, 2, 3, 4, 5], (starting n).boot.vsb = true ∧ (starting n).boot.inReset = false ∧
      (starting n).boot.halted = false ∧ (starting n).boot.ready = false ∧ (starting n).boot.phase = n ∧
      (starting n).pins.thermN = true) ∧
    ((starting 1).pins.pwrEn = false ∧ ({ State.reset.pins with pwrEn := true }).vinPg = false ∧
      (starting 1).boot.pwrEnAt + 100000000 ≤ now (atTime 100000000 (starting 1))) ∧
    (chooseImage (imageAt (starting 1) 0x10000 1 0x600000) (imageAt (starting 1) 0x810000 1 0x600000) = none) := by
  decide +kernel

/-- A 128-byte image header of a kind, version 0, of no bytes. -/
def header (kind : Nat) : List Byte := toLe 4 0x4B465731 ++ toLe 1 kind ++ zeros 123

/-- Phase 1, with a firmware image and a patch in the A slots of flash. -/
def flashed : State :=
  { starting 1 with flash := { (starting 1).flash with bytes :=
      ((header 1).zipIdx 0x10000 ++ (header 2).zipIdx 0x1010000).map fun x => (x.2, x.1 ^^^ 0xFF) } }

/-- The images that the signature check lets through are chosen. -/
theorem wit_images (k : Nat) (h : Config.imageSigned ((header k).take 32) ((header k).drop 32) = true) :
    (k = 1 → chooseImage (imageAt flashed 0x10000 1 0x600000) (imageAt flashed 0x810000 1 0x600000) = some (false, ⟨0, header 1⟩)) ∧
    (k = 2 → chooseImage (imageAt flashed 0x1010000 2 65408) (imageAt flashed 0x1020000 2 65408) = some (false, ⟨0, header 2⟩)) := by
  constructor <;> intro hk <;> subst hk
  · have e : flashRead flashed 0x10000 128 = header 1 := by decide +kernel
    have e2 : field (flashRead flashed 0x810000 128) 0 4 ≠ 0x4B465731 := by decide +kernel
    have e3 : field (header 1) 16 4 = 0 := by decide +kernel
    have e4 : ((header 1).drop 32).take 96 = (header 1).drop 32 := by decide +kernel
    have e5 : imageAt flashed 0x810000 1 0x600000 = none := by simp [imageAt, e2]
    have e6 : (field (header 1) 0 4 = 0x4B465731 && field (header 1) 4 1 = 1 && zeroIn (header 1) 5 8 && zeroIn (header 1) 20 32 &&
        decide (field (header 1) 16 4 ≤ 0x600000) && decide (flashed.fuse.minSecurity ≤ field (header 1) 12 4)) = true := by decide +kernel
    have e7 : imageAt flashed 0x10000 1 0x600000 = some ⟨0, header 1⟩ := by
      simp only [imageAt, e]
      rw [if_pos (by simpa using e6), e3, e4]
      have : flashRead flashed (0x10000 + 128) 0 = [] := by decide +kernel
      rw [this, List.append_nil, if_pos h]; rfl
    rw [e5, e7]; rfl
  · have e : flashRead flashed 0x1010000 128 = header 2 := by decide +kernel
    have e2 : field (flashRead flashed 0x1020000 128) 0 4 ≠ 0x4B465731 := by decide +kernel
    have e3 : field (header 2) 16 4 = 0 := by decide +kernel
    have e4 : ((header 2).drop 32).take 96 = (header 2).drop 32 := by decide +kernel
    have e5 : imageAt flashed 0x1020000 2 65408 = none := by simp [imageAt, e2]
    have e6 : (field (header 2) 0 4 = 0x4B465731 && field (header 2) 4 1 = 2 && zeroIn (header 2) 5 8 && zeroIn (header 2) 20 32 &&
        decide (field (header 2) 16 4 ≤ 65408) && decide (flashed.fuse.minSecurity ≤ field (header 2) 12 4)) = true := by decide +kernel
    have e7 : imageAt flashed 0x1010000 2 65408 = some ⟨0, header 2⟩ := by
      simp only [imageAt, e]
      rw [if_pos (by simpa using e6), e3, e4]
      have : flashRead flashed (0x1010000 + 128) 0 = [] := by decide +kernel
      rw [this, List.append_nil, if_pos h]; rfl
    rw [e5, e7]; rfl

/-! ## Queues, partitions, jobs, copies, programs -/

/-- Command 1 runs in `at_ op ps s`, and its check passes without reading control data. -/
structure Acts {α : Type} (op : Nat) (chk : State → Cmd → Chk α) (ps : List Byte) (s : State := open0) : Prop where
  runs : Runs (at_ op ps s) op 1 (cmd op ps)
  finds : ∃ x, Finds (cmd op ps) (at_ op ps s) (chk (at_ op ps s) (cmd op ps)) x []

theorem acts_of {α : Type} {op : Nat} {chk : State → Cmd → Chk α} {ps : List Byte} {s : State} (hr : running s = true)
    (h : findsBare (chk (at_ op ps s) (cmd op ps)) = true) : Acts op chk ps s :=
  ⟨⟨hr, rfl, rfl, rfl⟩, finds_bare h⟩

/-- The same for a check that reads control data. -/
structure Reads {α : Type} (op : Nat) (chk : State → Cmd → Chk α) (ps : List Byte) (s : State := open0) : Prop where
  runs : Runs (at_ op ps s) op 1 (cmd op ps)
  finds : ∃ x qs, Finds (cmd op ps) (at_ op ps s) (chk (at_ op ps s) (cmd op ps)) x qs

/-- A check of `c` in `s` passes with a value of this kind, with the control data that it reads reached. -/
def findsSuch {α : Type} (q : α → Bool) (c : Cmd) (s : State) (chk : Chk α) : Bool := match (ExceptT.run chk).run [] with
  | (.ok x, ps) => q x && c.finds ps s = .go
  | _ => false

theorem reads_of {α : Type} {op : Nat} {chk : State → Cmd → Chk α} {ps : List Byte} {s : State} (hr : running s = true)
    (h : finds (cmd op ps) (at_ op ps s) (chk (at_ op ps s) (cmd op ps)) = true) : Reads op chk ps s :=
  ⟨⟨hr, rfl, rfl, rfl⟩, finds_of h⟩

/-- Nothing of partition 0 but that it is open. -/
def bare : State := { up with parts := [(0, { isOpen := true, vf := 1 })] }

/-- `open0` with an idle queue 255. -/
def spare : State := { open0 with front := { open0.front with queues := open0.front.queues ++ [(255, { part := 0, active := true })] } }

theorem wit_QueuesAndPartitionsOpenAndClose :
    Acts 0x0101 queueCreateChk (args [(16, 2, 255), (19, 1, 12), (24, 8, (mkAddr 3 0).toNat), (32, 8, (mkAddr 0 0).toNat), (40, 8, (mkAddr 3 16).toNat)]) ∧
    (tabHas spare.front.queues 255 = true ∧ queueIdle (at_ 0x0102 (args [(16, 2, 255)]) spare) 255 = true ∧
      queueIdle (at_ 0x0102 (args [(16, 2, 1)]) spare) 1 = false) ∧
    Acts 0x0103 openPartChk (args [(16, 1, 2), (17, 1, 3), (19, 1, 4)]) up ∧
    Acts 0x0103 openPartChk (args [(16, 1, 0), (18, 1, 1), (19, 1, 1)]) up ∧
    (up.parts.any (fun x => x.2.switchCmd = some 1) = false ∧ (partAt bare 0).isOpen = true ∧ jobIn bare 0 = false ∧
      queueOf bare 0 = false) := by
  refine ⟨acts_of rfl (by decide +kernel), by decide +kernel, acts_of rfl (by decide +kernel), acts_of rfl (by decide +kernel),
    by decide +kernel⟩

/-- Job 2 beside job 1, with a command ready, at 2 ms; `a` is the active job. -/
def two (a : Option Nat) (done : Bool) : State :=
  atTime 2000000 { open0 with
    parts := [(0, { isOpen := true, vf := 1, active := a, sliceOver := done })]
    jobs := { open0.jobs with jobs := open0.jobs.jobs ++ [⟨2, 0, 0, 2000, 2000, false, [], false⟩] }
    front := { open0.front with cmds := [{ taken 0x0201 ones with job := 2 }] } }

theorem wit_JobsRunInSlices :
    Acts 0x0105 jobOpenChk (args [(16, 8, (mkAddr 0 4096).toNat), (24, 4, 100000), (28, 1, 1)]) ∧
    ((cmd 0x0107 (args [(16, 4, 500)])).at 16 4 = 500 ∧ (cmd 0x0107 (args [(16, 4, 499)])).at 16 4 = 499) ∧
    (jobBusy (at_ 0x0106 []) 1 1 = false ∧ reachOf (resumeCmd 1 (at_ 0x0106 [])) (.command 1)
      (((at_ 0x0106 []).serve.requests.filter (·.2.job == 1)).flatMap fun r => closeReads r.1 (at_ 0x0106 [])) = .go ∧ jobBusy (flying [cmd 0x0106 [], { cmd 0x0201 [] with id := 2 }] open0) 1 1 = true) ∧
    (((partAt (two (some 1) false) 0).active.bind (jobAt (two (some 1) false))).map (·.slice) = some 2000 ∧
      (partAt (two (some 1) false) 0).activatedAt + 1000 * 2000 ≤ now (two (some 1) false) ∧
      nextJob (two (some 1) false) 0 = some 2 ∧ nextJob (atTime 2000000 open0) 0 = none) ∧
    (((nextJob (two none false) 0).bind (jobAt (two none false))).isSome = true) ∧
    ((partAt (two (some 1) true) 0).sliceOver = true ∧ jobBusy (two (some 1) true) 1 (2 ^ 64) = false ∧
      ((nextJob (two (some 1) true) 0).bind (jobAt (two (some 1) true))).isSome = true ∧
      ((jobAt (two (some 1) true) 1).bind (badRanges (two (some 1) true))) = none) := by
  refine ⟨acts_of rfl (by decide +kernel), by decide +kernel, by decide +kernel, by decide +kernel, by decide +kernel, by decide +kernel⟩

def switching (x : Switch) : State := { up with parts := [(0, { shape := 2, vf := 1, switch := x })] }

theorem wit_TenantSwitchesRun : (partAt (switching .clear) 0).switch = .clear ∧ running (switching .clear) = true ∧
    (partAt (switching .memory) 0).switch = .memory ∧
    (∀ k ∈ shapeStacks (partAt (switching .memory) 0).shape (partAt (switching .memory) 0).index,
      (stackAt (switching .memory) k).scrubLeft = 0) ∧
    (shapeStacks (partAt (switching .memory) 0).shape (partAt (switching .memory) 0).index).any (fun k =>
      (stackAt { switching .memory with dram := [(6, { scrubLeft := 4 })] } k).scrubLeft ≠ 0) = true ∧
    (cmd 0x0802 (args [(16, 1, 3)])).at 16 1 < 4 := by decide +kernel

/-- A one-element e8 tensor descriptor at the head of a 128-byte block: base, format 2, rank 1. -/
def tensor (base : W64) (code : Nat) : List Byte :=
  toLe 8 base.toNat ++ toLe 1 code ++ toLe 1 1 ++ zeros 6 ++ toLe 4 1 ++ toLe 5 1 ++ zeros 3 ++ toLe 4 1 ++ zeros 96

/-- `open0` with two tensor descriptors in host memory. -/
def tensors : State := { open0 with store := { open0.store with
  host := memWrite (memWrite [] 0 (tensor (mkAddr 3 0x1000) 2)) 128 (tensor (mkAddr 3 0x2000) 2) } }

def copyArgs : List Byte := args [(16, 8, (mkAddr 3 0x1000).toNat), (24, 8, (mkAddr 1 0).toNat), (32, 8, 8)]
def fillArgs : List Byte := args [(16, 8, (mkAddr 1 0x37FFF8).toNat), (24, 8, 8), (32, 4, 7)]
def layoutArgs : List Byte := args [(16, 8, (mkAddr 3 0).toNat), (24, 8, (mkAddr 3 128).toNat)]

theorem wit_CopiesMoveBytes :
    Acts 0x0201 memCopyChk copyArgs ∧ (cmd 0x0201 (zeros 48)).at 32 8 = 0 ∧ (cmd 0x0201 copyArgs).at 32 8 = 8 ∧
    ((cmd 0x0201 copyArgs).remotes open0 [(mkAddr 3 0x1000, 8, false), (mkAddr 1 0, 8, true)] = [] ∧
      reachOf open0 (.command 1) ((cmd 0x0201 copyArgs).pieces open0 (mkAddr 3 0x1000) 8 ++ (cmd 0x0201 copyArgs).pieces open0 (mkAddr 1 0) 8) = .go) ∧
    Acts 0x0202 (fun s c => c.checkRanges s [(16, c.addr 16, c.at 24 8)]) fillArgs ∧
    ((cmd 0x0202 fillArgs).at 24 8 = 8 ∧ (cmd 0x0202 fillArgs).remotes open0 [(mkAddr 1 0x37FFF8, 8, true)] = [] ∧
      reachOf open0 (.command 1) ((cmd 0x0202 fillArgs).pieces open0 (mkAddr 1 0x37FFF8) 8) = .go) ∧
    Reads 0x0203 layoutChk layoutArgs tensors ∧
    findsSuch (fun l => let c := cmd 0x0203 layoutArgs
        let s := touch c [] (at_ 0x0203 layoutArgs tensors)
        let rs := l.sourceRuns (l.index (viewOf s (c.place s) c.fetched c.tainted))
        c.remotes s l.ranges = [] && c.remotes s (l.indexRuns.map fun r => (r.1, r.2, false)) = [] &&
          reachOf s (.command c.id) (c.nearOf s l.indexRuns) = .go && rs ≠ [] && c.remotes s (rs.map fun r => (r.1, r.2, false)) = [] &&
          reachOf s (.command c.id) (c.nearOf s (l.indexRuns ++ rs) ++
            (l.ranges.filter (·.2.2)).flatMap (fun r => c.pieces s r.1 r.2.1)) = .go)
      (cmd 0x0203 layoutArgs) (at_ 0x0203 layoutArgs tensors) (layoutChk (at_ 0x0203 layoutArgs tensors) (cmd 0x0203 layoutArgs)) = true := by
  refine ⟨acts_of rfl (by decide +kernel), by decide +kernel, by decide +kernel, by decide +kernel, acts_of rfl (by decide +kernel),
    by decide +kernel, reads_of rfl (by decide +kernel), by decide +kernel⟩

def kvArgs : List Byte := args [(16, 1, 15), (20, 4, 384)]
def rawArgs : List Byte := args [(16, 8, (mkAddr 1 8).toNat), (24, 8, 5), (32, 2, 7)]
def genArgs : List Byte := args [(16, 1, 15), (17, 1, 31), (18, 1, 6), (19, 1, 3), (24, 8, 1), (32, 8, (mkAddr 3 64).toNat)]

theorem wit_StacksAreTested :
    Acts 0x0205 kvBoundaryChk (args [(16, 1, 5), (20, 4, 384)]) bare ∧ (stackAt bare 5).row ≠ 4 ∧
    (stackAt { bare with dram := [(5, { rowTemp := 4 })] } 5).row = 4 ∧
    Acts 0x0206 checkbitChk rawArgs ∧ reachOf open0 (.command 1) ((cmd 0x0206 rawArgs).pieces open0 (mkAddr 1 8) 8) = .go ∧
    Acts 0x0905 trafficChk genArgs bare ∧
    ((cmd 0x0905 genArgs).remotes bare [(mkAddr 3 64, 256, true)] = [] ∧ 32 * min (8 * (cmd 0x0905 genArgs).at 24 8) 1024 = 256 ∧
      reachOf bare (.command 1) ((cmd 0x0905 genArgs).pieces bare (mkAddr 3 64) 256) = .go) := by
  refine ⟨acts_of rfl (by decide +kernel), by decide +kernel, by decide +kernel, acts_of rfl (by decide +kernel), by decide +kernel,
    acts_of rfl (by decide +kernel), by decide +kernel⟩

def scrubArgs : List Byte := args [(16, 8, (mkAddr 1 0).toNat), (24, 8, 64), (32, 8, (mkAddr 3 64).toNat)]
def lapArgs : List Byte := args [(16, 8, (mkAddr 3 64).toNat)]

theorem wit_ScrubsReport :
    Acts 0x0204 scrubRangeChk scrubArgs ∧ (cmd 0x0204 scrubArgs).pieces open0 (mkAddr 1 0) 64 = [(.tile 0, 64)] ∧
    ((cmd 0x0204 scrubArgs).remotes open0 [(mkAddr 3 64, 64, true)] = [] ∧ reachOf open0 (.command 1) [(.tile 0, 64)] = .go ∧
      reachOf open0 (.command 1) ((cmd 0x0204 scrubArgs).pieces open0 (mkAddr 3 64) 64) = .go) ∧
    Acts 0x0204 scrubRangeChk (args [(16, 8, (mkAddr 1 0).toNat)]) ∧
    Acts 0x0906 scrubLapChk lapArgs bare ∧
    ((cmd 0x0906 lapArgs).remotes bare [(mkAddr 3 64, 1088, true)] = [] ∧
      reachOf bare (.command 1) ((cmd 0x0906 lapArgs).pieces bare (mkAddr 3 64) 1088) = .go ∧ running bare = true ∧ bare.jobs.jobs = []) := by
  refine ⟨acts_of rfl (by decide +kernel), by decide +kernel, by decide +kernel, acts_of rfl (by decide +kernel),
    acts_of rfl (by decide +kernel), by decide +kernel⟩

/-- A program image of one code word, and `open0` with it in host memory, in tiles 0 and 1, and with those two idle. -/
def image : List Byte := toLe 4 0x4B545031 ++ toLe 4 1 ++ toLe 4 4 ++ zeros 24

def loaded : State := { open0 with
  store := { open0.store with host := memWrite [] 0 image }
  jobs := { open0.jobs with programs := [⟨1, 1, 0, [0, 1], zeros 4, [], 0, 0, 0⟩], nextProgram := 2 } }

def loadArgs : List Byte := args [(16, 8, (mkAddr 3 0).toNat), (24, 4, 36), (28, 2, 2), (30, 2, 1)]
def loadNone : List Byte := args [(16, 8, (mkAddr 3 0).toNat), (28, 2, 2), (30, 2, 1)]
def launchArgs : List Byte := args [(16, 4, 1), (22, 2, 2), (32, 1, 1)]
def launchWith : List Byte := args [(16, 4, 1), (22, 2, 1), (24, 8, (mkAddr 3 0).toNat)]

/-- Tile 0 runs command 1's program, which it has left. -/
def halted : State := { at_ 0x0302 launchArgs loaded with
  tiles := [(0, { program := some 1, running := true, cmd := some 1 })]
  front := { loaded.front with cmds := [{ cmd 0x0302 launchArgs with tiles := [0] }] } }

theorem wit_ProgramsLaunchAndFinish :
    findsSuch Option.isSome (cmd 0x0301 loadArgs) (at_ 0x0301 loadArgs loaded)
      (loadChk (at_ 0x0301 loadArgs loaded) (cmd 0x0301 loadArgs)) = true ∧
    findsSuch Option.isNone (cmd 0x0301 loadNone) (at_ 0x0301 loadNone loaded)
      (loadChk (at_ 0x0301 loadNone loaded) (cmd 0x0301 loadNone)) = true ∧ reachOf loaded (.command 1) ((cmd 0x0301 loadArgs).pieces loaded (mkAddr 3 0) 36) = .go ∧
    ((programAt loaded 1).map (·.job) = some 1 ∧ (programAt loaded 1).map (programQueues loaded) = some [] ∧
      (programAt loaded 1).map (programQueues halted) = some [1]) ∧
    Acts 0x0304 (fun _ c => formatSlotChk c) (args [(16, 1, 15), (17, 1, 8), (18, 1, 7), (20, 2, 256), (22, 1, 2)]) ∧
    Acts 0x0302 launchChk launchArgs loaded ∧ Acts 0x0302 launchChk launchWith loaded ∧
    ((selection loaded 0 2).any (fun t => (tileAt loaded t).running) = false ∧ (cmd 0x0302 launchArgs).addr 24 = 0 ∧
      (selection loaded 0 2).any (fun t => (tileAt halted t).running) = true ∧ (cmd 0x0302 launchWith).addr 24 ≠ 0 ∧
      (let s1 := resumeCmd 1 (at_ 0x0302 launchWith loaded)
       (cmd 0x0302 launchWith).remotes s1 [(mkAddr 3 0, 256, false)] = [] ∧
        reachOf s1 (.command 1) ((cmd 0x0302 launchWith).pieces s1 (mkAddr 3 0) 256) = .go)) ∧
    (cmdAt (at_ 0x0302 launchWith loaded) 1).isSome = true ∧
    (tileDone loaded 0 = false ∧ tileDone halted 0 = true ∧ (tileAt halted 0).twin = none ∧ (tileAt halted 0).cmd = some 1 ∧
      cmdAt halted 1 = some { cmd 0x0302 launchArgs with tiles := [0] } ∧
      tileDone { open0 with tiles := [(511, { running := true })] } 511 = true) := by
  refine ⟨by decide +kernel, by decide +kernel, by decide +kernel, by decide +kernel, acts_of rfl (by decide +kernel),
    acts_of rfl (by decide +kernel), acts_of rfl (by decide +kernel), by decide +kernel, by decide +kernel, by decide +kernel⟩

/-! ## Tiles and engines -/

/-- A tile that runs command 1, with the engine queue `q` of engine `e` and the address register 1 at `base`. -/
def running0 (e : Nat) (q : List Entry) (base : Int := 0) (s : State := open0) : State :=
  { s with tiles := [(0, ({ running := true, halted := false, cmd := some 1, codeWords := 1 } : Tile).setEngine e
      { queue := q, aregs := tabSet {} [] 1 { base := base } })] }

/-- An instruction word: opcode, one repeat, address registers `d` `a` and 1, formats 16, flags, immediate. -/
def word (op d a flags imm : Nat) (rep : Nat := 1) : BitVec 128 :=
  BitVec.ofNat 128 (2 ^ 120 * op + 2 ^ 104 * rep + 2 ^ 100 * d + 2 ^ 96 * a + 2 ^ 92 + 2 ^ 87 * 16 + 2 ^ 82 * 16 + 2 ^ 77 * 16 +
    2 ^ 56 * flags + imm)

/-- A queued entry of a word. -/
def entry (w : BitVec 128) : Entry := { id := 0, word := w }

/-- A word of `op` is at the head of engine `e`, with its operands inside or (with register 1) outside the local ranges. -/
structure Heads (e op flags imm : Nat) (base : Int := 0) (s : State := open0) (ok : Bool := true) : Prop where
  head : AtHead (running0 e [entry (word op 1 1 flags imm)] base s) 0 e op (entry (word op 1 1 flags imm))
  operands : operandsOk (running0 e [entry (word op 1 1 flags imm)] base s) 0 e (Ins.of (word op 1 1 flags imm)) = ok

theorem wit_TilesIssueAndSetUpEngines :
    (running (running0 0 []) = true ∧ frozen (running0 0 []) 0 = false ∧ (tileAt (running0 0 []) 0).land = tileAt (running0 0 []) 0 ∧
      (tileAt (running0 0 []) 0).halted = false ∧ (tileAt (running0 0 []) 0).miss = none ∧ (tileAt (running0 0 []) 0).pc ≠ walkWord) ∧
    tileOp (running0 0 []) 0 ≠ 0x0406 ∧
    ((readBundle (tileAt (running0 0 []) 0) 0).all (fun b => b.bad (tileAt (running0 0 []) 0) (fun w => w < 1) = none &&
        b.mem = none && !b.waits (tileAt (running0 0 []) 0) && b.branch = none) = true ∧
      (readBundle (tileAt (running0 0 []) 0) 0).isSome = true ∧ readBundle (tileAt (running0 0 []) 0) 1 = none ∧
      (readBundle { tileAt (running0 0 []) 0 with imem := [(1, 0x10)] } 0).any (fun b => b.waits (tileAt (running0 0 [entry 0]) 0)) =
        true) ∧
    ((loadLines 8 0xFFFF300000000000).find? (fun l => (lineOf (tileAt (running0 0 []) 0) l).isNone) = some 288226802738921472 ∧
      (loadLines 8 0xFFFF30000000003C).find? (fun l => (lineOf (tileAt (running0 0 []) 0) l).isNone) = some 288226802738921472 ∧
      (cacheBytes (tileAt (fillLine 0 288226802738921472 ⟨8, 0, 1, 0xFFFF300000000000⟩ (running0 0 [])) 0) 8 0xFFFF300000000000).isSome = true ∧
      (cacheBytes (tileAt (fillLine 0 288226802738921472 ⟨8, 0, 1, 0xFFFF30000000003C⟩ (running0 0 [])) 0) 8 0xFFFF30000000003C).isNone = true) ∧
    (tileAt { running0 0 [] with tiles := [(0, { running := true, miss := some ⟨8, 0, 1, 0xFFFF300000000000⟩ })] } 0).miss.isSome = true ∧
    (∀ op ∈ [1, 2, 3, 4], headOf (running0 3 [entry (word op 0 0 0 0)]) 0 3 = some (entry (word op 0 0 0 0)) ∧
      (Ins.of (word op 0 0 0 0)).op = op ∧ (entry (word op 0 0 0 0)).finished = false) ∧
    (entryDone open0 0 0 { entry 0 with finished := true } = true ∧ entryDone open0 0 0 (entry 0) = false ∧
      (Ins.of (word 0x10 1 1 0 0 0)).rep = 0 ∧ (Ins.of (word 0x10 1 1 0 0 0)).op = 0x10) := by
  refine ⟨by decide +kernel, by decide +kernel, by decide +kernel, by decide +kernel, by decide +kernel, by decide +kernel,
    by decide +kernel⟩

/-- A bundle with one memory slot and one branch. -/
def slots (m br : Nat) : Bundle := ⟨0, 0, 3, [(0, ⟨0, true, 1, 0, 5⟩)], some ⟨m, 1, 0, 8⟩, some ⟨br, 1, 0, 0⟩, []⟩

/-- A tile whose read cache holds the line of address 0. -/
def cached : Tile := { cache := [(0, clean (zeros 64))] }

/-- Every slot of a bundle occurs, each global load with its line in the cache or without it; results land in order of beat
and of slot. -/
theorem wit_slotsLeaveResults :
    (∀ m ∈ [0, 1, 2, 3, 4, 8, 9, 0xA, 0xC, 0xD, 0xE], (slots m 0).mem = some ⟨m, 1, 0, 8⟩) ∧
    (∀ r ∈ [0, 1, 2, 3, 4, 5, 6, 7, 0xF], (slots 0 r).branch = some ⟨r, 1, 0, 0⟩) ∧ (slots 0 0).alus ≠ [] ∧
    ({ slots 0 0 with mem := none, branch := none } : Bundle).mem = none ∧
    (({} : Tile).reg 0 = 0 ∧ ({ regs := [(1, 5)] } : Tile).reg 1 ≠ 0 ∧ (({ regs := [(1, -1)] } : Tile).reg 1).toInt < 0) ∧
    (∀ m ∈ [8, 9, 0xA], ({ landing := [⟨2, 2, 1, 7⟩] } : Tile).landing = [⟨2, 2, 1, 7⟩] ∧ cacheBytes {} m 0 = none) ∧
    (∀ m ∈ [8, 9, 0xA], (cacheBytes cached m 0).isSome = true) ∧
    (({ beats := 3, landing := [⟨2, 3, 1, 7⟩, ⟨2, 0, 1, 8⟩] } : Tile).landing = [⟨2, 3, 1, 7⟩, ⟨2, 0, 1, 8⟩]) := by
  decide +kernel

theorem wit_operandsOutside : (∀ c ∈ [(0, 0x10), (0, 0x11), (0, 0x12), (1, 0x10), (1, 0x11), (1, 0x12), (1, 0x13), (1, 0x14), (1, 0x15),
    (1, 0x16), (1, 0x17), (1, 0x18), (1, 0x19), (1, 0x1A), (1, 0x1B), (2, 0x10), (2, 0x11), (2, 0x12), (2, 0x13), (2, 0x14)],
    Heads c.1 c.2 0 0 0x380000 open0 false) ∧ Heads 0 0x10 0 0 2 open0 false := by
  constructor
  · intro c hc
    simp only [List.mem_cons, List.not_mem_nil, or_false] at hc
    rcases hc with rfl | rfl | rfl | rfl | rfl | rfl | rfl | rfl | rfl | rfl | rfl | rfl | rfl | rfl | rfl | rfl | rfl | rfl | rfl |
      rfl <;> exact ⟨by unfold AtHead; decide +kernel, by decide +kernel⟩
  · exact ⟨by unfold AtHead; decide +kernel, by decide +kernel⟩

theorem wit_MatrixEngineRuns : Heads 0 0x10 0 0 ∧ Heads 0 0x11 2 0 ∧ Heads 0 0x12 1 0 ∧
    (formatOf [] 16).isSome = true := ⟨⟨by unfold AtHead; decide +kernel, by decide +kernel⟩,
  ⟨by unfold AtHead; decide +kernel, by decide +kernel⟩, ⟨by unfold AtHead; decide +kernel, by decide +kernel⟩, by decide +kernel⟩

theorem wit_VectorElementwiseRuns : ∀ op ∈ [0x10, 0x11, 0x12, 0x13, 0x14, 0x15, 0x16, 0x17, 0x18, 0x19], Heads 1 op 0 0 := by
  intro op hop
  simp only [List.mem_cons, List.not_mem_nil, or_false] at hop
  rcases hop with rfl | rfl | rfl | rfl | rfl | rfl | rfl | rfl | rfl | rfl <;>
    exact ⟨by unfold AtHead; decide +kernel, by decide +kernel⟩

theorem wit_ReductionsAndFunctionsRun : Heads 1 0x1A 0 0 ∧ Heads 1 0x1B 0 0 ∧ bit (Ins.of (word 0x1A 1 1 0 0)).flags 0 = false ∧
    ∀ op ∈ [0x10, 0x11, 0x12, 0x13, 0x14], Heads 2 op 0 0 := by
  refine ⟨⟨by unfold AtHead; decide +kernel, by decide +kernel⟩, ⟨by unfold AtHead; decide +kernel, by decide +kernel⟩, by decide +kernel, ?_⟩
  intro op hop
  simp only [List.mem_cons, List.not_mem_nil, or_false] at hop
  rcases hop with rfl | rfl | rfl | rfl | rfl <;> exact ⟨by unfold AtHead; decide +kernel, by decide +kernel⟩

/-- `running0` with group base 0 at host address 0, and tile 0's scratchpad holding a copy block of the tensors there. -/
def moving (q : List Entry) (s : State := tensors) : State :=
  let x := running0 3 q 0 s
  { x with tiles := x.tiles.map fun t => (t.1, { t.2 with gbase := [(0, mkAddr 3 0x3000)] })
           store := { x.store with tile := memWrite [] 0 (layoutArgs.take 32) } }

/-- The mover of `moving` at one word. -/
def mover (op flags imm : Nat) : State := moving [entry (word op 1 1 flags imm)]

/-- The same with its group base at an address that no partition has. -/
def lost (op flags imm : Nat) : State := running0 3 [entry (word op 1 1 flags imm)]

/-- The mover with a write to another node not yet acknowledged. -/
def held (op flags imm : Nat) : State := { mover op flags imm with
  fabric := { up.fabric with remote := [⟨0, 1, .write, some 1, 1, some 0, 0, 0, 4⟩] } }

/-- A check passes, or rejects, whatever it has read. -/
def passes {α : Type} (chk : Chk α) : Bool := match (ExceptT.run chk).run [] with
  | (.ok _, _) => true
  | _ => false

def fails {α : Type} (chk : Chk α) : Bool := match (ExceptT.run chk).run [] with
  | (.error (.status _), _) => true
  | _ => false

theorem wit_DataMoverRuns :
    Heads 3 0x10 0 0 ∧ Heads 3 0x10 0 64 ∧ Heads 3 0x10 2 64 ∧ Heads 3 0x10 16 64 ∧
    (dxOk (mover 0x10 2 64) 0 (globalAddr (mover 0x10 2 64) 0 (Ins.of (word 0x10 1 1 2 64)) 1) 64 = true ∧
      dxOk (lost 0x10 2 64) 0 (globalAddr (lost 0x10 2 64) 0 (Ins.of (word 0x10 1 1 2 64)) 1) 64 = false ∧
      reachOf (mover 0x10 2 64) (.engine 0 0) (dxPieces (mover 0x10 2 64) 0 (mkAddr 3 0x3000) 64) = .go ∧
      dxRemote (mover 0x10 1 64) 0 (mkAddr 3 0x3000) 64 = false ∧
      canRelease (mover 0x10 2 64) 0 = true ∧ canRelease (held 0x10 16 64) 0 = false) ∧
    (AtHead (mover 0x11 0 0) 0 3 0x11 (entry (word 0x11 1 1 0 0)) ∧
      operandsOk (mover 0x11 0 0) 0 3 (Ins.of (word 0x11 1 1 0 0)) = true ∧
      opAddress (mover 0x11 0 0) 0 3 1 % 32 = 0 ∧ (localRead 0 0 32 true (mover 0x11 0 0)).poisoned = 0 ∧
      (opRow 0x0203).all (fun r => (r.stray (localRead 0 0 32 true (mover 0x11 0 0)).bytes).isNone) = true) ∧
    passes (layoutChk (mover 0x11 0 0) (blockCmd (mover 0x11 0 0) 0 (localRead 0 0 32 true (mover 0x11 0 0)).bytes)) = true ∧
    (∀ r ∈ [(mkAddr 3 0x1000, 1), (mkAddr 3 0x2000, 1)], dxRemote (mover 0x11 0 0) 0 r.1 r.2 = false ∧
      (match dxPlace (mover 0x11 0 0) 0 r.1 r.2 with | .ok _ => true | _ => false) = true ∧
      reachOf (mover 0x11 0 0) (.engine 0 0) (dxPieces (mover 0x11 0 0) 0 r.1 r.2) = .go) ∧
    fails (layoutChk (lost 0x11 0 0) (blockCmd (lost 0x11 0 0) 0 ones)) = true ∧
    (∀ op ∈ [0x12, 0x13, 0x14], AtHead (mover op 0 0) 0 3 op (entry (word op 1 1 0 0)) ∧
      operandsOk (mover op 0 0) 0 3 (Ins.of (word op 1 1 0 0)) = true ∧
      dxOk (mover op 0 0) 0 (globalAddr (mover op 0 0) 0 (Ins.of (word op 1 1 0 0)) 1) 8 = true ∧
      dxRemote (mover op 0 0) 0 (mkAddr 3 0x3000) 8 = false ∧
      reachOf (mover op 0 0) (.engine 0 0) (dxPieces (mover op 0 0) 0 (mkAddr 3 0x3000) 8) = .go) ∧
    (flagMet (Ins.of (word 0x13 0 1 0 0)) 0 = true ∧ flagMet (Ins.of (word 0x13 0 1 0 1)) 0 = false) ∧
    AtHead (moving [{ entry (word 0x13 1 1 0 0) with sent := true }]) 0 3 0x13 { entry (word 0x13 1 1 0 0) with sent := true } ∧
    canRelease (held 0x14 0 0) 0 = false := by
  refine ⟨⟨by unfold AtHead; decide +kernel, by decide +kernel⟩, ⟨by unfold AtHead; decide +kernel, by decide +kernel⟩,
    ⟨by unfold AtHead; decide +kernel, by decide +kernel⟩, ⟨by unfold AtHead; decide +kernel, by decide +kernel⟩,
    by decide +kernel, by unfold AtHead; decide +kernel, by decide +kernel, by decide +kernel, by decide +kernel, ?_,
    by decide +kernel, by unfold AtHead; decide +kernel, by decide +kernel⟩
  intro op hop
  simp only [List.mem_cons, List.not_mem_nil, or_false] at hop
  rcases hop with rfl | rfl | rfl <;> (unfold AtHead; decide +kernel)

/-! ## Stacks -/

/-- A descriptor of flight `f` for bank 0 of stack 0: one row, count 1. -/
def desc (f : Nat) : List Byte := toLe 8 (mkAddr 5 0).toNat ++ toLe 1 f ++ zeros 7 ++ toLe 2 1 ++ toLe 2 (if f = 3 then 64 else 0) ++ zeros 44

/-- Stack 0 with its boundary at 0, its banks' runs and its queue. -/
def stacked (q : List Desc) (bs : Tab Bank) (s : State := open0) : State :=
  { s with dram := [(0, { trained := true, boundary := 0, queue := q, banks := bs })] }

def sending (bs : List Byte) : State :=
  let s := running0 3 [entry (word 0x15 1 1 0 0)] 0 (stacked [] [])
  { s with store := { s.store with tile := memWrite [] 0 bs } }

def waiting (t : Nat) : State :=
  atTime t { open0 with tiles := [(511, { running := true, leaving := [⟨0, 0, false, none, 0, 0, [], 0⟩] })] }

theorem wit_RunsAreSentAndStart :
    (AtHead (sending (desc 7)) 0 3 0x15 (entry (word 0x15 1 1 0 0)) ∧
      operandsOk (sending (desc 7)) 0 3 (Ins.of (word 0x15 1 1 0 0)) = true ∧ queueFull (sending (desc 7)) 0 = false ∧
      (tileAt (sending (desc 7)) 0).leaving = [] ∧ opAddress (sending (desc 7)) 0 3 1 % 64 = 0 ∧
      (localRead 0 0 64 true (sending (desc 7))).poisoned = 0) ∧
    (descOk (sending (desc 7)) (tilePartNum (sending (desc 7)) 0) 0 0 0 1 none (desc 7) = true ∧
      descOk (sending (desc 9)) (tilePartNum (sending (desc 9)) 0) 0 0 0 1 none (desc 9) = false ∧
      (localRead 0 0 64 true { sending (desc 7) with store := { (sending (desc 7)).store with tileMark := [(0, 7)] } }).poisoned ≠ 0) ∧
    (frozen (waiting 100000) 511 = false ∧ (tileAt (waiting 100000) 511).leaving ≠ [] ∧ now (waiting 100000) = 100000 ∧
      now (waiting 99999) < 0 + 100000) ∧
    ((stackAt (stacked [⟨desc 7, [], 0, 0, 0, []⟩] []) 0).queue.find? (fun d => descBank d.bytes = 0) = some ⟨desc 7, [], 0, 0, 0, []⟩ ∧
      ssqOn (stacked [⟨desc 7, [], 0, 0, 0, []⟩] []) 0 = true ∧ bankIdle (stacked [⟨desc 7, [], 0, 0, 0, []⟩] []) 0 0 = true ∧
      partnerBank (desc 7) 0 = none ∧ spaceHeld (stackAt (stacked [⟨desc 7, [], 0, 0, 0, []⟩] []) 0) 0 = true ∧
      activeIn (stackAt (stacked [] []) 0) none + 1 ≤ rowBudget (stackAt (stacked [] []) 0).row ∧
      activeIn (stackAt (stacked [] []) 0) (some 0) + 1 ≤ rowBudget (stackAt (stacked [] []) 0).row / 32) ∧
    ssqOn { stacked [⟨desc 7, [], 0, 0, 0, []⟩] [] with dram := [(0, { rowTemp := 4 })] } 0 = false := by
  refine ⟨by unfold AtHead; decide +kernel, by decide +kernel, by decide +kernel, by decide +kernel, by decide +kernel⟩

/-- Bank 0 of stack 0 runs one descriptor of flight `f`, in a pound or not. -/
def busy (f : Nat) (inP : Bool) : State := stacked [] [(0, { run := some { number := 0, group := 0, descs := [⟨desc f, [], 0, 0, 0, []⟩], inPound := inP } })]

/-- A closed merge group of stack 0 whose one run has ended. -/
def merged : State := { open0 with dram := [(0, { groups := [⟨0, true, [0], [(0, [])], ⟨desc 1, [], 0, 0, 0, []⟩, 0⟩] })] }

theorem wit_PoundsAndLocks :
    (∀ f < 9, ((bankAt (busy f false) 0 0).run.map (·.descs)) = some [⟨desc f, [], 0, 0, 0, []⟩] ∧ dFlight (desc f) = f ∧
      ssqOn (busy f false) 0 = true ∧ partnerBank (desc f) 0 = none ∧
      dueDesc (busy f false) ⟨desc f, [], 0, 0, 0, []⟩ = false ∧ lockOf (busy f false) 0 0 = [] ∧
      ((poundsOf (desc f) { number := 0, group := 0, descs := [⟨desc f, [], 0, 0, 0, []⟩] }
        (flushBank 0 0 (busy f false)))[0]?).isSome = true) ∧
    ((bankAt (busy 7 true) 0 0).run.map (·.inPound) = some true ∧ (bankAt (busy 7 false) 0 1).run = none) ∧
    (merged.faults.jobFault = none ∧ ((stackAt merged 0).groups.find? (fun g =>
      dFlight g.last.bytes = 1 && g.closed && g.results.length = g.runs.length)).isSome = true) := by decide +kernel

/-- The phases of the restart and of the wake. -/
def restarting (x : Restart) : State := { open0 with faults := { open0.faults with restart := x } }
def waking (x : Sleep) : State := { open0 with pmu := { open0.pmu with sleep := x } }

theorem wit_RestartsAndWakesRun :
    (running { open0 with faults := { open0.faults with jobFault := some (0, 0, 4) } } = true) ∧
    (∀ x ∈ [Restart.stop, .retain, .reset, .resume], (restarting x).boot.vsb = true ∧ (restarting x).boot.inReset = false ∧
      (restarting x).faults.restart = x) ∧
    (∀ x ∈ [Sleep.asleep, .power, .memory, .ports, .resume], (waking x).boot.vsb = true ∧ (waking x).boot.inReset = false ∧
      (waking x).boot.pciDown = false ∧ (waking x).boot.ready = true ∧ (waking x).pmu.sleep = x) := by decide +kernel

theorem wit_StacksAndFarLinksAreKept :
    ((stackAt (stacked [] []) 0).failed = false ∧ (stackAt (stacked [] []) 0).selfRefresh = false ∧
      (stackAt (stacked [] []) 0).trained = true ∧ running (stacked [] []) = true) ∧
    (portUp { up with far := { up.far with up1 := true } } 1 = true ∧
      portRetrains { up with far := { up.far with retraining1 := true } } 1 = true) := by decide +kernel
/-! ## Serving and KV -/

/-- The header of a page table of one layer, one head and a page, with a hash list of one at 0x8000. -/
def tableBytes (used : Nat) : List Byte :=
  toLe 2 1 ++ toLe 1 1 ++ [0] ++ toLe 4 1 ++ toLe 4 used ++ toLe 4 0 ++ toLe 2 1 ++ toLe 2 0xFFFF ++ toLe 4 0 ++ toLe 8 (mkAddr 0 0x8000).toNat ++
    toLe 4 1 ++ zeros 28

def request (t : Nat) : Request :=
  { customer := 0, part := 0, job := 1, firstTarget := 1, betweenTarget := 1, table := t }

/-- `open0` with an accepted pool of one layer and one head, two requests with tables at 0 and 4096 (an adopting third
at 4096), and customer 0. -/
def pooled (used : Nat := 0) : State :=
  let s := { open0 with
    dram := [(0, { boundary := 383 })]
    serve := { open0.serve with
      pools := [(0, { accepted := true, desc := { layers := 1, heads := 1, records := 0x4000, count := 4, tree := 0x10000, nodes := 1025 } })]
      requests := [(0, request 0), (1, request 4096), (2, { request 4096 with adopting := true })]
      customers := [(0, { rate := 1, burst := 1, grace := 0, part := 0, level := 65536, lastRefill := 0 })] } }
  poke 0 0 (tableBytes used) (poke 0 4096 (tableBytes 0) s)

/-- The bytes of a new table. -/
def newTable : List Byte := toLe 2 1 ++ toLe 1 1 ++ [0] ++ toLe 4 1 ++ zeros 8 ++ toLe 2 1 ++ zeros 46

def openArgs (adopt : Nat) : List Byte :=
  args [(18, 2, 0xFFFF), (20, 4, 1), (24, 4, 1), (28, 8, (mkAddr 0 0x2000).toNat), (36, 1, adopt)]

/-- A set of no pages, installed as set 0. -/
def withSet : State := setPool (poke 0 0x2000 newTable (pooled)) 0 { poolAt pooled 0 with sets := [(0, ⟨0, 0, []⟩)] }

/-- A STEP-RUN of request 0 that started before command 1 (order 1) and is not over. -/
def stepping (c : Cmd) : State :=
  flying [c, { cmd 0x0406 [] with id := 9 }]
    { pooled with serve := { (pooled).serve with
      running := [(0, { address := 0, number := 1, time := 0, beats := 0, budget := 0, deferred := 0
                        entries := [⟨0, 0, false, false, false, false, 0, 0, 0, false, 0⟩], cmd := 9 })] } }

theorem wit_RequestsOpenAndClose :
    Acts 0x0401 customerChk (args [(16, 2, 4095)]) pooled ∧ Reads 0x0402 openChk (openArgs 0) (poke 0 0x2000 newTable (pooled)) ∧
    Reads 0x0402 openChk (openArgs 1) (poke 0 0x2000 newTable (pooled)) ∧
    Reads 0x0402 openChk (args [(20, 4, 1), (24, 4, 1), (28, 8, (mkAddr 0 0x2000).toNat)]) withSet ∧
    (bit ((cmd 0x0402 (openArgs 0)).at 36 1) 0 = false ∧ bit ((cmd 0x0402 (openArgs 1)).at 36 1) 0 = true ∧
      tabFind (poolAt (pooled) 0).sets 0xFFFF = none ∧ (tabFind (poolAt withSet 0).sets 0).isSome = true) ∧
    (stepRunHolds (stepping { cmd 0x0403 (zeros 48) with order := 1 }) { cmd 0x0403 (zeros 48) with order := 1 } [0] = true ∧
      stepRunHolds (at_ 0x0403 (zeros 48) pooled) (cmd 0x0403 (zeros 48)) [0] = false ∧
      (requestAt (resumeCmd 1 (at_ 0x0403 (zeros 48) pooled)) 0).map (·.part) = some 0 ∧
      findsBare (closeChk (at_ 0x0403 (zeros 48) pooled) (cmd 0x0403 (zeros 48))) = true ∧
      (poolAt (pooled) 0).accepted = true ∧ reachOf (pooled) (.command 1) (closeReads 0 (pooled)) = .go) := by
  refine ⟨acts_of rfl (by decide +kernel), reads_of rfl (by decide +kernel), reads_of rfl (by decide +kernel),
    reads_of rfl (by decide +kernel), by decide +kernel, by decide +kernel⟩

/-- Request 0's table with one page of one position, the one page of a pool whose records are all in use. -/
def full (entry_ : Nat) (r : Rec) : State :=
  let s := setPool (pooled 1) 0 { poolAt (pooled 1) 0 with desc := { (poolAt (pooled 1) 0).desc with count := 2 } }
  putRec 0 1 r (poke 0 64 (toLe 8 entry_) { bankWrite (pageKey 383) (clean (toLe 64 1)) s with dram := [] })

def packed : State := full (mkEntry 383 0 1) { owners := 1, flags := 1, location := mkEntry 383 0 0 }
def moved : State := full 1 { owners := 1, flags := 5 }

def chunkArgs : List Byte := args [(20, 2, 512), (22, 1, 1), (24, 8, (mkAddr 0 0).toNat)]
def planArgs : List Byte := args [(16, 8, (mkAddr 0 0x9000).toNat), (24, 4, 100), (28, 2, 1)]
def stepArgs : List Byte := args [(16, 4, 1), (24, 8, (mkAddr 0 0x9000).toNat)]

/-- A manifest of no entries, planned for command 1's program, or taken by command 1. -/
def plan (taken : Bool) : Manifest :=
  { address := mkAddr 0 0x9000, number := 1, time := 0, beats := 0, budget := 0, deferred := 0, entries := [], used := taken, cmd := 1 }

/-- `s` with stack 0 in row 4. -/
def row4 (s : State) : State := { s with dram := [(0, { boundary := 383, rowTemp := 4 })] }

def planned : State := { loaded with serve := { loaded.serve with manifests := [(0, plan false)] } }
def runningStep : State :=
  { flying [{ cmd 0x0406 stepArgs with tiles := [0, 1] }] planned with serve := { planned.serve with running := [(0, plan true)] } }

theorem wit_StepsAreRun :
    Acts 0x0404 chunkChk chunkArgs pooled ∧ (cmd 0x0404 (zeros 48)).at 20 2 = 0 ∧ (cmd 0x0404 chunkArgs).at 20 2 = 512 ∧
    Acts 0x0405 planChk planArgs pooled ∧
    (reachOf (pooled) (.command 1) ((cmd 0x0405 planArgs).pieces (pooled) (mkAddr 0 0x9000) 96) = .go ∧ (cmd 0x0405 planArgs).at 28 2 = 1) ∧
    Acts 0x0406 stepRunChk stepArgs planned ∧
    (runOf (at_ 0x0406 stepArgs planned) 1 = none ∧
      (programAt planned 1).map (stepWaits (at_ 0x0406 stepArgs planned) (cmd 0x0406 stepArgs) · (plan true)) = some false ∧
      (programAt planned 1).map (stepWaits { at_ 0x0406 stepArgs planned with tiles := halted.tiles } (cmd 0x0406 stepArgs) · (plan true)) =
        some true ∧
      reachOf planned (.command 1) ((cmd 0x0406 stepArgs).pieces planned (mkAddr 0 0x9000) 64) = .go ∧
      stepTables 0 (plan true) planned = [] ∧ (match reserve (cmd 0x0406 stepArgs) 0 (plan true) planned with | .ok _ => true | _ => false) = true) ∧
    rowHeld ((readTab 0 0 (row4 packed)).allPages (row4 packed)) (row4 packed) = true ∧
    (runOf runningStep 1 = some (0, plan true) ∧ programAt { runningStep with jobs := { runningStep.jobs with programs := [] } } 1 = none) ∧
    (cmdAt runningStep 1 = some { cmd 0x0406 stepArgs with tiles := [0, 1] } ∧
      [0, 1].any (fun t => (tileAt runningStep t).running) = false ∧ runOf runningStep 1 = some (0, plan true) ∧
      rowHeld ((plan true).sealed 0 runningStep) runningStep = false ∧
      reachOf runningStep (.command 1) (digestPieces (poolAt runningStep 0).desc ((plan true).sealed 0 runningStep)) = .go ∧
      rowHeld (({ plan true with filled := [1] } : Manifest).sealed 0 (row4 packed)) (row4 packed) = true) := by
  refine ⟨acts_of rfl (by decide +kernel), by decide +kernel, by decide +kernel, acts_of rfl (by decide +kernel),
    by decide +kernel, acts_of rfl (by decide +kernel), by decide +kernel, by decide +kernel⟩

theorem wit_PageTablesAreEdited :
    (stepRunHolds (at_ 0x0407 [] pooled) (cmd 0x0407 []) (cmd 0x0407 []).names = false) ∧
    Reads 0x0407 forkChk (args [(20, 4, 1)]) pooled ∧
    Reads 0x0408 editChk (args [(24, 8, (mkAddr 0 0xA000).toNat), (32, 4, 1)]) (poke 0 0xA000 [1] (pooled)) ∧
    (Reads 0x0408 (fun s c => namedChk s c 16) (zeros 48) pooled ∧ Reads 0x040E (fun s c => namedChk s c 16) (zeros 48) pooled ∧
      Reads 0x040F (fun s c => namedChk s c 16) (zeros 48) pooled) ∧
    Reads 0x0409 (fun s c => requestChk s c 16) (zeros 48) pooled ∧ Reads 0x040A (fun s c => requestChk s c 16) (zeros 48) packed ∧
    (compactAll (readTab 0 0 packed) (pairs (poolAt packed 0).desc) packed = none ∧
      (compactAll (readTab 0 0 (pooled)) (pairs (poolAt (pooled) 0).desc) (pooled)).isSome = true) ∧
    Reads 0x0411 adoptChk (args [(16, 4, 2)]) pooled ∧
    Reads 0x040F (fun s c => requestChk s c 16) (args [(24, 4, 1)]) moved ∧ Reads 0x040E (fun s c => requestChk s c 16) (args [(24, 4, 1)]) moved ∧
    ((poolAt moved 0).desc.farBytes = 0 ∧
      ((rangePlaces (readTab 0 0 moved) 1 0 1).foldl (fun a x => promoteOne (readTab 0 0 moved) 1 x a) ({}, moved)).1.stop = some .full ∧
      ((rangePlaces (readTab 0 0 moved) 1 0 0).foldl (fun a x => promoteOne (readTab 0 0 moved) 1 x a) ({}, moved)).1.stop = none) := by
  refine ⟨by decide +kernel, reads_of rfl (by decide +kernel), reads_of rfl (by decide +kernel),
    ⟨reads_of rfl (by decide +kernel), reads_of rfl (by decide +kernel), reads_of rfl (by decide +kernel)⟩, reads_of rfl (by decide +kernel),
    reads_of rfl (by decide +kernel), by decide +kernel, reads_of rfl (by decide +kernel), reads_of rfl (by decide +kernel),
    reads_of rfl (by decide +kernel), by decide +kernel⟩

/-- The reads of a row by command 1 are reached. -/
def got (s : State) (ps : List (Home × Nat)) : Bool := reachOf s (.command 1) ps = .go

theorem wit_PageTablesReadAndWait :
    (got (pooled) ((readTab 0 0 (pooled)).reads (pooled)) = true ∧
      got packed ((readTab 0 0 packed).reads packed ++ scanPieces (readTab 0 0 packed) packed ++ vectorPieces (readTab 0 0 packed) packed) = true ∧
      got packed ((readTab 0 0 packed).reads packed ++ maskPieces (readTab 0 0 packed) packed) = true ∧
      got packed (scorePieces (readTab 0 0 packed) packed) = true ∧
      got packed ((readTab 0 0 packed).reads packed ++ pagePieces ((readTab 0 0 packed).allPages packed) 0 16 ++
        digestPieces (poolAt packed 0).desc ((readTab 0 0 packed).allPages packed)) = true ∧
      got packed (pagePieces ((readTab 0 0 packed).allPages packed) 64 128) = true) ∧
    (Reads 0x0408 editChk (args [(24, 8, (mkAddr 0 0xA000).toNat), (32, 4, 0)]) (poke 0 0xA000 [1] (pooled)) ∧
      Reads 0x040A (fun s c => requestChk s c 16) (zeros 48) pooled ∧
      rowHeld (newlyFull (readTab 0 0 (pooled)) (pooled) (pooled)) (pooled) = false) ∧
    (rowHeld (newlyFull { readTab 0 0 packed with off := 0 } (pooled) (row4 (full (mkEntry 383 31 1) { flags := 1 }))) (row4 (pooled)) = true ∧
      rowHeld ((readTab 0 4096 (pooled)).allPages (pooled)) (pooled) = false ∧
      rowHeld ((readTab 0 0 (row4 packed)).allPages (row4 packed)) (row4 packed) = true) ∧
    ((rangePlaces (readTab 0 0 packed) 1 0 1).foldl (fun a x => demoteOne (readTab 0 0 packed) x a) ({}, packed)).1.stop = none := by
  refine ⟨by decide +kernel, ⟨reads_of rfl (by decide +kernel), reads_of rfl (by decide +kernel), by decide +kernel⟩, by decide +kernel,
    by decide +kernel⟩

/-- A prefix set's image of one page, and a pool with no record left for it. -/
def setImage (n : Nat) : List Byte :=
  toLe 4 n ++ toLe 2 1 ++ toLe 1 1 ++ [0] ++ toLe 4 n ++ zeros 52 ++ toLe 8 (mkEntry 383 31 0)
def setArgs : List Byte := args [(16, 2, 1023), (24, 8, (mkAddr 0 0xA000).toNat)]
def noRecord : State := setPool (pooled) 0 { poolAt (pooled) 0 with desc := { (poolAt (pooled) 0).desc with count := 1 } }

theorem wit_PrefixesAreShared :
    Reads 0x040B lookupChk (args [(24, 8, (mkAddr 0 0xA000).toNat), (32, 4, 1)]) pooled ∧
    (Reads 0x040B (fun s c => namedChk s c 16) (zeros 48) pooled ∧ Reads 0x040C (fun s c => namedChk s c 16) (zeros 48) pooled) ∧
    Reads 0x040C insertChk (args [(24, 4, 1)]) pooled ∧
    Reads 0x040D setChk setArgs (poke 0 0xA000 (setImage 0) (pooled)) ∧ installPages 1 0 [] (pooled) = some ([], pooled) ∧
    Reads 0x040D setChk setArgs (poke 0 0xA000 (toLe 4 32 ++ (setImage 1).drop 4) noRecord) ∧
    installPages 1 0 [mkEntry 383 31 0] noRecord = none ∧ tabFind (poolAt (pooled) 0).sets 1023 = none ∧
    (tabFind (poolAt withSet 0).sets 0).isSome = true := by
  refine ⟨reads_of rfl (by decide +kernel), ⟨reads_of rfl (by decide +kernel), reads_of rfl (by decide +kernel)⟩,
    reads_of rfl (by decide +kernel), reads_of rfl (by decide +kernel), by decide +kernel,
    reads_of rfl (by decide +kernel), by decide +kernel, by decide +kernel, by decide +kernel⟩

def shipArgs : List Byte := args [(20, 2, 0xFFFF), (24, 4, 1)]

/-- One valid page in request 0's table, poisoned. -/
def tainted : State :=
  let s := poke 0 64 (toLe 8 (mkEntry 383 0 1)) (pooled 1)
  { s with store := { s.store with stackMark := tabSet 0 s.store.stackMark (pageKey 383 / 8) 7 } }

/-- A shipment of no pages to request 1 from node 5. -/
def shipment : Shipment := ⟨5, 0, 1, 1, 1, 1, 0, 0, 0, 0, 1, false, 0, 0, 1, 1, []⟩

theorem wit_PrefixesReadAndWait :
    Reads 0x040B lookupChk (args [(24, 8, (mkAddr 0 0xA000).toNat), (32, 4, 0)]) pooled ∧
    Reads 0x040C insertChk (args [(24, 4, 0)]) pooled ∧
    got (pooled) (nodePieces 0 [rootOf 0xFFFF] (pooled) ++ (readTab 0 0 (pooled)).reads (pooled) ++ scanPieces (readTab 0 0 (pooled)) (pooled)) = true ∧
    ((attachAll 1 [] (readTab 0 0 (pooled)) (pooled)).2.1 = none ∧
      (attachAll 1 [1025] { readTab 0 0 (pooled) with cap := 0 } (pooled)).2.1 = some .full) ∧
    ((installPages 1 0 [mkEntry 383 31 0] (pooled)).isSome = true ∧ rowHeld [383] (row4 (pooled)) = true ∧ rowHeld [383] (pooled) = false ∧
      got (pooled) (digestPieces (poolAt (pooled) 0).desc [383]) = true) := by
  refine ⟨reads_of rfl (by decide +kernel), reads_of rfl (by decide +kernel), by decide +kernel, by decide +kernel, by decide +kernel⟩

theorem wit_ShipmentsLand :
    Reads 0x0410 shipChk shipArgs pooled ∧ (cmd 0x0410 shipArgs).at 20 2 = ownNode (pooled) ∧ (cmd 0x0410 shipArgs).at 20 2 = 0xFFFF ∧
    (cmd 0x0410 shipArgs).progress < 2 ∧
    Reads 0x0410 shipChk (args [(20, 2, 5), (24, 4, 1)]) { pooled with fabric := { (pooled).fabric with node := some 4 } } ∧
    ((gather (cmd 0x0410 shipArgs) (request 0) (readTab 0 0 (pooled)) (pooled)).1.pages.any (·.poisoned) = false ∧
      (gather (cmd 0x0410 shipArgs) (request 0) (readTab 0 0 tainted) tainted).1.pages.any (·.poisoned) = true) ∧
    ((land 0 shipment (pooled)).map (·.1.status) = some 0 ∧ (land 0 { shipment with request := 7 } (pooled)).map (·.1.status) = some 0x11) ∧
    got (pooled) ((readTab 0 0 (pooled)).reads (pooled) ++
      pagePieces ((readTab 0 0 (pooled)).allPages (pooled)) 0 (poolAt (pooled) 0).desc.pageBytes) = true ∧
    (shipPart shipment (pooled) = none ∧
      shipPart shipment { pooled with fabric := { (pooled).fabric with admission := [(0, 0xA4080005)] } } = some 0) ∧
    (requestAt (pooled) ((cmd 0x0410 shipArgs).at 16 4)).isSome = true ∧ ({ cmd 0x0410 shipArgs with progress := 2 } : Cmd).progress = 2 := by
  refine ⟨reads_of rfl (by decide +kernel), by decide +kernel, by decide +kernel, by decide +kernel, reads_of rfl (by decide +kernel),
    by decide +kernel, by decide +kernel, by decide +kernel, by decide +kernel, by decide +kernel⟩

/-- A landed page that was sealed stands in row 4: the landing waits for its digest's reads. -/
theorem wit_landingsWait : rowHeld (checkedPages (readTab 0 0 packed) { shipment with pages := [⟨0, 0, 1, true, 0, false, []⟩] } packed)
    (row4 packed) = true := by decide +kernel

def registerArgs : List Byte := args [(16, 8, (mkAddr 0 0).toNat), (24, 8, 64), (32, 8, (mkAddr 0 0x10000).toNat)]

/-- A registration of one page whose bytes at offset 0 are `open0`'s. -/
def handle1 : Registration :=
  { handle := 1, part := 0, address := mkAddr 0 0, bytes := 64, digests := mkAddr 0 0x10000, backing := mkAddr 3 0, top := 0 }

/-- Handle 1 registered, its page 0 under repair for command 1. -/
def weighted : State :=
  { open0 with
    weights := [handle1]
    faults := { open0.faults with repairing := [(1, 0, some 1)] } }

theorem wit_WeightsAreRegistered :
    Reads 0x0501 registerChk registerArgs ∧ (cmd 0x0501 (zeros 48)).at 24 8 = 0 ∧ (cmd 0x0501 registerArgs).at 24 8 = 64 ∧
    reachOf open0 (.command 1) ((cmd 0x0501 registerArgs).pieces open0 (mkAddr 0 0) 64 ++
      (cmd 0x0501 registerArgs).pieces open0 (mkAddr 0 0x10000) 96) = .go ∧
    ((weightAt weighted 1).map (·.part) = some 0 ∧ reachOf weighted (.command 1) ((cmd 0x0503 []).pieces weighted (mkAddr 0 0) 64) = .go ∧
      running weighted = true ∧ (weighted.faults.repairing.filter fun r => r.1 = 1 && r.2.1 = 0) ≠ []) := by
  refine ⟨reads_of rfl (by decide +kernel), by decide +kernel, by decide +kernel, by decide +kernel, by decide +kernel⟩

theorem wit_WeightsAreVerified :
    Reads 0x0503 verifyChk (args [(16, 4, 1)]) weighted ∧
    (match verifyPages (cmd 0x0503 []) { handle1 with backing := 0 } [] [0]
        { weighted with store := { weighted.store with stackMark := [(0, 7)] } } with
      | .ok (1, 1, _) => true | _ => false) = true ∧
    (match verifyPages (cmd 0x0503 []) { handle1 with address := mkAddr 5 0 } [] [0] weighted with
      | .error _ => true | _ => false) = true ∧
    (match blockDigest handle1 0 weighted with | .ok _ => true | _ => false) = true ∧
    (match repairPage { handle1 with backing := 0 } 0 [] weighted with | .error b => decide (b ≠ .wait) | _ => false) = true := by
  refine ⟨reads_of rfl (by decide +kernel), by decide +kernel⟩

/-- With these bytes of a page poisoned REGISTER-WEIGHTS only counts them; which digest a page has is the hash's to say. -/
theorem wit_poisonedWeights :
    (cmdAt (digestPages (cmd 0x0501 registerArgs) (mkAddr 0 0) 64 [0] (at_ 0x0501 registerArgs)).2 1).any (fun x => x.poisoned ≠ 0) = false ∧
    (cmdAt (digestPages (cmd 0x0501 registerArgs) (mkAddr 0 0) 64 [0] (at_ 0x0501 registerArgs { open0 with
      store := { open0.store with stackMark := [(0, 7)] } })).2 1).any (fun x => x.poisoned ≠ 0) = true := by decide +kernel

def responseArgs : List Byte := args [(16, 8, (mkAddr 0 0xA000).toNat), (24, 2, 1)]

/-- A record that waits for its export, with the collector at a node. -/
def exporting (node : W32) : State :=
  let s := { open0 with faults := { open0.faults with collectorOn := true, collectorNode := node.setWidth 16
                                                      responses := [(7, { (responseOf open0 7) with exportIt := true })] } }
  report 7 (0, 0, 3) none 1 s

theorem wit_FaultsAreReported :
    (hangReal (.island 23) = true ∧ running (at_ 0x0201 ones) = true ∧ (report 9 (hangLoc .bridge) (some 1) 1 (at_ 0x0201 ones)).faults.restart = .none ∧
      (cmdAt (report 9 (hangLoc .bridge) (some 1) 1 (flying [{ cmd 0x0201 ones with retried := some 9 }] open0)) 1).any (fun x => x.due = some 9) =
        false) ∧
    ((∀ u ∈ [.island 23, .bridge], canHang (at_ 0x0201 ones) u = true ∧ (cmd 0x0201 ones).on (at_ 0x0201 ones) u = true) ∧
      cmdAt open0 7 = none ∧ canHang (at_ 0x0201 ones) (.ssq 0) = false ∧ canHang (at_ 0x0201 ones) (.island 0) = false) ∧
    ((cmd 0x0902 []).at 24 4 = 0 ∧ (cmd 0x0903 []).at 24 2 = 0 ∧ (cmd 0x0902 []).remotes open0 [(mkAddr 3 0, 4096, true)] = [] ∧
      got open0 ((cmd 0x0902 []).pieces open0 (mkAddr 3 0) 4096) = true) ∧
    ((exporting 0xFFFF).faults.records.any (fun r => !r.exported && (responseOf (exporting 0xFFFF) r.cls).exportIt) = true ∧
      (exporting 0xFFFF).faults.collectorOn = true ∧ (exporting 0xFFFF).faults.collectorNode.toNat = ownNode (exporting 0xFFFF) ∧
      (exporting 5).faults.collectorNode.toNat ≠ ownNode (exporting 5)) ∧
    Acts 0x0902 (fun s c => c.checkRanges s [(16, c.addr 16, c.at 24 4)]) (args [(16, 8, (mkAddr 3 0).toNat), (24, 4, 4096)]) ∧
    Reads 0x0903 responseChk responseArgs (poke 0 0xA000 [1, 0, 0, 0, 1, 0, 1] open0) ∧
    Reads 0x0904 guardChk responseArgs (poke 0 0xA000 (toLe 4 0 ++ toLe 4 64) open0) ∧
    Acts 0x0901 (fun s c => c.checkRanges s [(16, c.addr 16, 512)]) (args [(16, 8, (mkAddr 3 64).toNat)]) ∧
    ((cmd 0x0901 (args [(16, 8, (mkAddr 3 64).toNat)])).at 16 8 % 64 = 0 ∧
      (cmd 0x0901 []).remotes open0 [(mkAddr 3 64, 512, true)] = [] ∧ reachOf open0 (.command 1) ((cmd 0x0901 []).pieces open0 (mkAddr 3 64) 512) = .go) := by
  refine ⟨by decide +kernel, by decide +kernel, by decide +kernel, by decide +kernel, acts_of rfl (by decide +kernel), reads_of rfl (by decide +kernel),
    reads_of rfl (by decide +kernel), acts_of rfl (by decide +kernel), by decide +kernel⟩

/-! ## Fabric -/

/-- Port 0 in this condition. -/
def linked (x : Port) (s : State := open0) : State := { s with fabric := { s.fabric with ports := [(0, x)] } }

theorem wit_PortsComeUpAndGoDown :
    (∀ x ∈ [PortState.training, .down, .up, .hailing], linksOn (linked { state := x }) = true ∧
      portPresent (linked { state := x }) 0 = true ∧ (portAt (linked { state := x }) 0).state = x) ∧
    ((portAt (linked { state := .up, peerSerial := 7 }) 0).peerSerial = 7 ∧
      (portAt (linked { state := .up, retraining := true }) 0).retraining = true ∧
      (linked { state := .up, heard := 5 }).time.now = 0 ∧ (portAt (linked { state := .up, heard := 5 }) 0).heard + 1000000 > now (linked {}) ∧
      (portAt (linked { state := .up }) 0).heard + 1000000 ≤ now (atTime 1000000 (linked { state := .up })) ∧
      (portAt (linked { state := .up, rekeying := true, awaitKey := true }) 0).awaitKey = true ∧
      (portAt (linked { state := .up }) 0).rekeying = false) := by decide +kernel

/-- Whatever a HAIL carries, the peer is verified or it is not, and one of the statement's clauses is about it. -/
theorem wit_peers (h : Hail) : Config.peerVerified h.chain h.ephemeral h.signature = true ∨
    Config.peerVerified h.chain h.ephemeral h.signature = false := by
  cases Config.peerVerified h.chain h.ephemeral h.signature <;> simp

/-- A flit of this first byte and zeros, with the right CRC. -/
def flit (b : Byte) : List Byte := (b :: zeros 247) ++ toLe 8 (crc64 (b :: zeros 247))

theorem crcBit_lt {c : Nat} (h : c < 2 ^ 64) : crcBit c < 2 ^ 64 := by
  unfold crcBit; split
  · exact Nat.xor_lt_two_pow (Nat.mod_lt _ (by decide)) (by decide)
  · omega

theorem crcByte_lt {c : Nat} (h : c < 2 ^ 64) (b : Byte) : crcByte c b < 2 ^ 64 := by
  unfold crcByte
  have hb := b.isLt
  exact crcBit_lt (crcBit_lt (crcBit_lt (crcBit_lt (crcBit_lt (crcBit_lt (crcBit_lt (crcBit_lt
    (Nat.xor_lt_two_pow h (by omega)))))))))

theorem crcFold_lt (bs : List Byte) : ∀ {c : Nat}, c < 2 ^ 64 → bs.foldl crcByte c < 2 ^ 64 := by
  induction bs with
  | nil => intro c h; exact h
  | cons b bs ih => intro c h; rw [List.foldl_cons]; exact ih (crcByte_lt h b)

theorem leNat_toLe (n : Nat) : ∀ v, v < 256 ^ n → leNat (toLe n v) = v := by
  induction n with
  | zero => intro v h; simp [toLe, leNat]; omega
  | succ n ih =>
    intro v h
    rw [toLe, leNat, ih _ (by rw [Nat.pow_succ] at h; omega), BitVec.toNat_ofNat]
    omega

theorem flit_crc (b : Byte) : field (flit b) 248 8 = crc64 ((flit b).take 248) := by
  have h : (b :: zeros 247).length = 248 := by rw [List.length_cons, zeros, List.length_replicate]
  have h1 : (flit b).drop 248 = toLe 8 (crc64 (b :: zeros 247)) := List.drop_left' h
  have h2 : (flit b).take 248 = b :: zeros 247 := List.take_left' h
  have h3 : ((toLe 8 (crc64 (b :: zeros 247))).take 8) = toLe 8 (crc64 (b :: zeros 247)) := rfl
  rw [field, h1, h2, h3]
  exact leNat_toLe 8 _ (crcFold_lt _ (by decide))

theorem flit_head (b : Byte) : field (flit b) 0 1 = b.toNat ∧ field (flit b) 2 2 = 0 ∧ (flit b).length = 256 := by
  refine ⟨?_, ?_, by rw [flit, List.length_append, List.length_cons, zeros, List.length_replicate]; rfl⟩
  · have : (flit b).take 1 = [b] := rfl
    simp [field, this, leNat]
  · have : ((flit b).drop 2).take 2 = [0, 0] := rfl
    simp [field, this, leNat]

theorem crc_zeros (n : Nat) : crc64 (zeros n) = 0 := by
  unfold crc64 zeros
  induction n with
  | zero => rfl
  | succ n ih =>
    have e : crcByte 0 0 = 0 := by decide
    rw [List.replicate_succ, List.foldl_cons, e, ih]

theorem wit_FlitsAreExchanged :
    ((linksOn (linked { state := .up }) && portPresent (linked { state := .up }) 0) = true ∧
      (portAt (linked { state := .up, resend := [[1]] }) 0).resend = [1] :: [] ∧
      (portAt (linked { state := .up }) 0).resend = [] ∧ (portAt (linked { state := .up }) 0).replay.length < 1024 ∧
      (portAt (linked { state := .up }) 0).retraining = false) ∧
    field (zeros 248 ++ 1 :: zeros 7) 248 8 ≠ crc64 ((zeros 248 ++ 1 :: zeros 7).take 248) ∧
    field (flit 12) 248 8 = crc64 ((flit 12).take 248) ∧ field (flit 12) 0 1 / 4 % 4 = 3 ∧
    field (flit 0) 248 8 = crc64 ((flit 0).take 248) ∧ field (flit 0) 0 1 / 4 % 4 ≠ 3 := by
  refine ⟨by decide +kernel, ?_, flit_crc _, by rw [(flit_head 12).1]; decide, flit_crc _, by rw [(flit_head 0).1]; decide⟩
  have e : (zeros 248 ++ 1 :: zeros 7).take 248 = zeros 248 := List.take_left' (by rw [zeros, List.length_replicate])
  rw [e, crc_zeros]; decide +kernel

/-- Every hypothesis but the wrong tag is met here, and that one as soon as the tag function gives anything but the flit's
own bytes. -/
theorem wit_WrongTagsTakePortsDown :
    (linksOn (linked { state := .up }) = true ∧ portPresent (linked { state := .up }) 0 = true ∧
      (portAt (linked { state := .up }) 0).state = .up ∧ (portAt (linked { state := .up }) 0).retraining = false) ∧
    (flit 0).length = 256 ∧ field (flit 0) 248 8 = crc64 ((flit 0).take 248) ∧ field (flit 0) 0 1 / 4 % 4 ≠ 3 ∧
    BitVec.ofNat 16 (field (flit 0) 2 2) = (portAt (linked { state := .up }) 0).rxNext ∧
    rxKey { state := .up } (bit (field (flit 0) 0 1) 4) = some {} := by
  refine ⟨by decide +kernel, (flit_head 0).2.2, flit_crc _, by rw [(flit_head 0).1]; decide, by rw [(flit_head 0).2.1]; decide,
    by rw [(flit_head 0).1]; decide⟩

/-- The whole of them with no key for the flit's epoch: no tag is right then. -/
theorem wit_noKey : (∀ k : LinkKey, rxKey { state := .up, rx := { epoch := true } } (bit (field (flit 0) 0 1) 4) = some k →
    ((flit 0).drop 232).take 16 ≠ gcmTagBytes k.key k.nonce ((flit 0).take 8) (((flit 0).drop 8).take 224)) ∧
    BitVec.ofNat 16 (field (flit 0) 2 2) = (portAt (linked { state := .up, rx := { epoch := true } }) 0).rxNext := by
  refine ⟨fun k h => ?_, by rw [(flit_head 0).2.1]; decide⟩
  have e : rxKey { state := .up, rx := { epoch := true } } (bit (field (flit 0) 0 1) 4) = none := by rw [(flit_head 0).1]; decide
  rw [e] at h; cases h

/-- Node 4, with node 3 (serial 9) as the time reference behind port 0. -/
def timed : State :=
  linked { state := .up, peerSerial := 9 } { open0 with fabric := { open0.fabric with
    node := some 4, map := [⟨9, 3, 1, 0, false, ⟨0, 1, 0, 4, 2⟩⟩] } }
def noded : State := { open0 with fabric := { open0.fabric with node := some 4 } }

theorem wit_DeviceTimeAdvances :
    (up.boot.vsb = true ∧ timeParent up = none ∧ up.time.slewLeft = 0 ∧ 999 ≤ up.time.sinceSlew) ∧
    (let s : State := atTime 2000000000 { up with time := { up.time with ppsSeen := true, ppsLast := 1000000000 } }
     (s.time.ppsSeen && decide (-1000 ≤ (now s : Int) - s.time.ppsLast.toNat - 1000000000)) = true ∧ timeParent s = none) ∧
    (let s : State := atTime 3000000000 { up with time := { up.time with ppsLock := true } }
     s.time.ppsLock = true ∧ (now s : Int) - s.time.ppsLast.toNat - 1000000000 > 1000) ∧
    (linksOn open0 = true ∧ open0.fabric.node = none) ∧
    (isReference { timed with fabric := { timed.fabric with ports := [] } } = false ∧
      timeParent { timed with fabric := { timed.fabric with ports := [] } } = none) ∧
    (linksOn noded = true ∧ noded.fabric.node ≠ none ∧ isReference noded = true) ∧
    (linksOn timed = true ∧ timed.fabric.node ≠ none ∧ isReference timed = false ∧ timeParent timed = some 0 ∧
      portPresent timed 0 = true ∧ (portAt timed 0).state = .up) := by decide +kernel

/-- A message of node 5 for this module, and for node 7. -/
def message (kind n : Nat) (data : List PByte) (dest : Nat := 0xFFFF) (hops : Nat := 1) : Msg :=
  ⟨dest, 5, 0, hops, 0, kind, n, 1, mkAddr 0 0, data, none⟩

/-- It stands on channel `vc` of port 0; `e` is admission entry 0. -/
def arriving (vc : Nat) (m : Msg) (e : W32 := 0xE0880005) : State :=
  let s := linked { state := .up, rxq := (#v[[], [], [], []] : Vector (List Byte) 4).setIfInBounds vc m.bytes }
  { s with fabric := { s.fabric with admission := [(0, e)], remote := [⟨1, 5, .read, none, 1, none, 0, 0, 8⟩, ⟨1, 5, .write, none, 1, none, 0, 0, 8⟩, ⟨1, 5, .query, none, 1, none, 0, 0, 8⟩] } }

/-- Where a message on channel `vc` is served, admitted and refused. -/
def served (vc : Nat) (m : Msg) (write : Bool) : Bool :=
  let s := arriving vc m
  linksOn s && portPresent s 0 && takeMsg ((portAt s 0).rxq[vc]?.getD []) == some (m, []) && m.dest == ownNode s &&
    (match reachesHere (popMsg 0 vc [] s) m write with
      | some ps => reachOf (popMsg 0 vc [] s) (.port 0 vc) ps == .go
      | none => false) && (reachesHere (popMsg 0 vc [] (arriving vc m 0)) m write).isNone

def toNode7 (vc hops : Nat) (routed : Bool) : State :=
  let s := arriving vc (message 0 8 (clean (zeros 8)) 7 hops)
  if routed then { s with fabric := { s.fabric with node := some 4, member := [(7, [0])] } } else s

theorem wit_MessagesAreServed :
    (served 0 (message 0 8 (clean (zeros 8))) true = true ∧ served 2 (message 7 8 (clean (zeros 8))) true = true ∧
      served 0 (message 1 8 []) false = true ∧ served 0 (message 5 8 [(1, false)]) true = true ∧ served 0 (message 5 8 [(0, false)]) false = true) ∧
    (arriving 0 (message 5 8 [(1, false)])).fabric.grants = [] ∧
    (∀ x ∈ [(2, 8, clean (zeros 8), [RemoteKind.read]), (3, 0, [], [.write, .barge]), (6, 0, [], [.query]), (4, 0, [], [.write, .read, .query, .barge])],
      let m := message x.1 x.2.1 x.2.2.1
      takeMsg ((portAt (arriving vcResponse m) 0).rxq[vcResponse]?.getD []) = some (m, []) ∧ m.dest = ownNode (arriving vcResponse m) ∧
        (asked (popMsg 0 vcResponse [] (arriving vcResponse m)) m x.2.2.2).isSome = true) ∧
    ((arriving vcResponse (message 8 0 [])).fabric.remote.any (·.tag == 1) = true ∧
      takeMsg ((portAt (arriving vcResponse (message 8 0 [])) 0).rxq[vcResponse]?.getD []) = some (message 8 0 [], [])) ∧
    (∀ r ∈ [true, false], ∀ h ∈ [0, 1],
      takeMsg ((portAt (toNode7 0 h r) 0).rxq[0]?.getD []) = some (message 0 8 (clean (zeros 8)) 7 h, []) ∧
        (message 0 8 (clean (zeros 8)) 7 h).dest ≠ ownNode (toNode7 0 h r) ∧
        (sendMsg 0 (message 0 8 (clean (zeros 8)) 7 (h - 1)) (popMsg 0 0 [] (toNode7 0 h r))).isSome = r) := by
  refine ⟨by decide +kernel, by decide +kernel, by decide +kernel, by decide +kernel, by decide +kernel⟩

theorem wit_MessagesWait :
    (∀ m ∈ [message 0 8 (clean (zeros 8)), message 1 8 []], Arrived (pounding (arriving 0 m)) 0 0 m [] ∧
      (reachesHere (popMsg 0 0 [] (pounding (arriving 0 m))) m (m.kind == 0)).map
        (reachOf (popMsg 0 0 [] (pounding (arriving 0 m))) (.port 0 0)) = some .wait) ∧
    ((admissionOf (arriving 0 (message 5 8 [(1, false)])) (message 5 8 [(1, false)]) true).any (fun q =>
      (reaches (arriving 0 (message 5 8 [(1, false)])) { message 5 8 [(1, false)] with agent := 513, addr := mkAddr 1 0 } q).isNone) = true) ∧
    takeMsg ((portAt (arriving 3 (message 10 0 [] 7)) 0).rxq[vcTowpath]?.getD []) = some (message 10 0 [] 7, []) := by
  refine ⟨?_, by decide +kernel, by decide +kernel⟩
  intro m h
  simp only [List.mem_cons, List.not_mem_nil, or_false] at h
  rcases h with rfl | rfl <;> exact ⟨by unfold Arrived; decide +kernel, by decide +kernel⟩

/-- An advertisement of serial 9, and a module that has seen its numbers 1 and 2 at time 0. -/
def heard : State := { open0 with fabric := { open0.fabric with origins := [(9, 1, 0), (9, 2, 0)] } }
def advert (n : W32) : Advert := ⟨9, 3, n, false, []⟩

theorem wit_FabricIsMappedAndSet :
    (linksOn open0 = true ∧ open0.fabric.origins.any (fun o => o.1 = (advert 1).serial && o.2.1 = (advert 1).number) = false) ∧
    (heard.fabric.origins.any (fun o => o.1 = 9 && o.2.1 = (0 : W32)) = false ∧
      heard.fabric.origins.any (fun o => o.1 = 9 && (0 : W32).toNat < o.2.1.toNat) = true) ∧
    (heard.fabric.origins.filter (·.1 == 9) ≠ [] ∧
      (heard.fabric.origins.filter (·.1 == 9)).all (fun x => x.2.2 + 100000000 ≤ now (atTime 100000000 heard)) = true) ∧
    ((cmd 0x0601 []).at 24 4 = 0) ∧
    Acts 0x0601 (fun s c => c.checkRanges s [(16, c.addr 16, 32)]) (args [(16, 8, (mkAddr 3 0).toNat), (24, 4, 32)]) ∧
    ((cmd 0x0601 (args [(24, 4, 32)])).at 24 4 = 32 ∧ (cmd 0x0601 []).remotes open0 [(mkAddr 3 0, 32, true)] = [] ∧
      reachOf open0 (.command 1) ((cmd 0x0601 []).pieces open0 (mkAddr 3 0) 32) = .go) ∧
    Acts 0x0602 setNodeChk (args [(16, 2, 0xFFFD)]) bare ∧
    Reads 0x0603 routeChk (args [(16, 1, 1), (17, 1, 255), (18, 2, 1), (24, 8, (mkAddr 0 0xA000).toNat)]) ∧
    Acts 0x0604 linkStateChk (args [(16, 1, 15), (24, 8, (mkAddr 3 0).toNat)]) ∧
    ((cmd 0x0604 []).remotes open0 [(mkAddr 3 0, 64, true)] = [] ∧ reachOf open0 (.command 1) ((cmd 0x0604 []).pieces open0 (mkAddr 3 0) 64) = .go) ∧
    Acts 0x0605 linkRekeyChk (args []) (linked { state := .up }) ∧
    ((cmd 0x0605 []).progress ≠ 1 ∧ (portAt (linked { state := .up }) 0).rekeying = false) ∧
    (fenced open0 (cmd 0x0606 []) = false ∧ fenced (arriving 0 (message 0 0 [])) (cmd 0x0606 []) = true) := by
  refine ⟨by decide +kernel, by decide +kernel, by decide +kernel, by decide +kernel, acts_of rfl (by decide +kernel), by decide +kernel,
    acts_of rfl (by decide +kernel), reads_of rfl (by decide +kernel), acts_of rfl (by decide +kernel), by decide +kernel,
    acts_of rfl (by decide +kernel), by decide +kernel, by decide +kernel⟩

/-! ## Power -/

theorem wit_PowerIsSetAndRead :
    Acts 0x0701 (fun _ c => setCapChk c) (args [(16, 4, 900)]) ∧ Acts 0x0701 (fun _ c => setCapChk c) (args [(16, 4, 1900)]) ∧
    Acts 0x0702 setProfileChk (args [(16, 1, 1)]) bare ∧ (cmd 0x0703 []).at 20 2 = 0 ∧
    Reads 0x0703 lendChk (args [(20, 2, 2), (24, 8, (mkAddr 0 0xA000).toNat)]) (poke 0 0xA000 [4, 0, 5, 0] noded) ∧
    (anyJob bare = false ∧ anySwitch bare = false ∧ opening bare = false ∧
      opening (flying [cmd 0x0704 [], { cmd 0x0105 [] with id := 2 }] bare) = true) ∧
    Acts 0x0705 powerReadChk (args [(16, 8, (mkAddr 3 64).toNat)]) ∧
    ((cmd 0x0705 []).remotes open0 [(mkAddr 3 64, 128, true)] = [] ∧ reachOf open0 (.command 1) ((cmd 0x0705 []).pieces open0 (mkAddr 3 64) 128) = .go) ∧
    (up.pins.capAlertN = true ∧ up.boot.vsb = true ∧ ({ State.reset with boot := { State.reset.boot with vsb := false } } : State).boot.vsb = false) := by
  refine ⟨acts_of rfl (by decide +kernel), acts_of rfl (by decide +kernel), acts_of rfl (by decide +kernel), by decide +kernel,
    reads_of rfl (by decide +kernel), by decide +kernel, acts_of rfl (by decide +kernel), by decide +kernel, by decide +kernel⟩

/-- The PMU at 20 ms, with these settings. -/
def limited (x : Pmu) : State := atTime 20000000 { up with pmu := x }

theorem wit_LimitersHold :
    (pmuOn up = true ∧ pmuOn { up with pmu := { up.pmu with sleep := .asleep } } = false ∧ up.boot.vsb = true) ∧
    (let share := capInForce up * (shares up.pmu.profile).2.1
     100 * 2000 > share ∧ 125 * 0 < share ∧ (100 * (share / 100) ≤ share ∧ share ≤ 125 * (share / 100)) ∧
       pmuOn (limited { up.pmu with rowLow := some 9000000 }) = true ∧ 9000000 + 10000000 ≤ now (limited up.pmu)) ∧
    (mayRelease (measureCurrent 1049 1200 (limited { up.pmu with calmSince := some 0 })) = true ∧
      mayRelease (measureCurrent 1100 1200 (limited { up.pmu with calmSince := some 0 })) = false) ∧
    690 + 30 ≤ (islandAt { up with pmu := { up.pmu with islands := [(23, { setMv := 720, fromMv := 720 })] } } 23).setAt (now up) ∧
    (∀ t ∈ [19998000, 19998001], ({ up.pmu with gateClosed := #v[false, true], steady := #v[none, some t] } : Pmu).gateClosed[1]? = some true ∧
      ({ up.pmu with steady := #v[none, some t] } : Pmu).steady[1]? = some (some t) ∧
      decide (t + 2000 ≤ now (limited up.pmu)) = (t == 19998000)) ∧
    (up.pmu.trip = false ∧ ({ up.pmu with trip := true } : Pmu).trip = true) := by decide +kernel

/-- Node `n` in pool 1 of nodes 4 and 5, at `t` ms. -/
def lending (n t : Nat) (l : Lend := {}) : State :=
  atTime (1000000 * t) { up with
    fabric := { up.fabric with node := some (BitVec.ofNat 16 n) }, pmu := { up.pmu with lend := { l with pool := some 1, members := [4, 5] } } }

theorem wit_PoolsLendPower :
    (∀ n ∈ [4, 5], running (lending n 3 { recent := [(4, 1), (5, 1)] }) = true ∧
      (lending n 3 { recent := [(4, 1), (5, 1)] }).pmu.lend.pool ≠ none ∧
      now (lending n 3) / 1000000 > (lending n 3).pmu.lend.tick) ∧
    coordinator (lending 4 3 { recent := [(4, 3), (5, 3)], tick := 3 }) = ownNode (lending 4 3) ∧
    coordinator (lending 5 3 { recent := [(4, 3), (5, 3)], tick := 3 }) ≠ ownNode (lending 5 3) ∧
    (1000000 * 2 + 500000 ≤ now (lending 4 3) ∧ 1000000 * 2 + 200000 ≤ now (lending 4 3) ∧ (910 : Int) ≤ (lending 4 3).pmu.setCap + (lending 4 3).pmu.lend.net) ∧
    (transfer { slacks := [(4, 0, 1000), (5, 9, 1000)] }).map (·.2) = some 4 ∧
    (coordinator (lending 4 3 { recent := [(4, 3)], tick := 3, took := true, transfer := some (5, 4) }) = 4 ∧
      (lending 4 3 { transfer := some (5, 4) }).pmu.lend.transfer.map (·.1) = some 5 ∧ (lending 4 3).pmu.lend.moved = false) ∧
    (({ received := 10, lent := 10 } : Lend).received ≠ 0 ∧ ({ received := 10, lent := 10 } : Lend).lent ≠ 0 ∧
      max (lending 4 10).pmu.lend.lastRenew (lending 4 10).pmu.lend.lentAt + 10000000 ≤ now (lending 4 10)) := by decide +kernel

/-! ## Security, SMBus, monitor -/

/-- Function 1 with these SPDM settings, of the module's partition 0 without a queue. -/
def spdm (x : Spdm) : State :=
  { bare with security := { bare.security with spdm := bare.security.spdm.setIfInBounds 1 x } }

theorem wit_MailboxesAnswer : hostUp (spdm { versioned := true }) = true ∧ (spdmAt (spdm { versioned := true }) 1).versioned = true ∧
    (spdmAt (spdm { capable := true }) 1).capable = true ∧ (spdmAt (spdm { negotiated := true }) 1).negotiated = true ∧
    (spdmAt (spdm {}) 4).negotiated = false := by decide +kernel

def reportArgs : List Byte := args [(16, 8, (mkAddr 3 0).toNat), (24, 4, 16384)]

/-- FINISH's two cases are both met: which of them by given data is the MAC's to say. -/
theorem wit_SessionsBindSluices :
    ((spdmAt (spdm { negotiated := true }) 1).session = none ∧ (spdmAt (spdm { negotiated := true, session := some 0 }) 1).session.isSome = true ∧
      (spdmAt (spdm { session := some 0 }) 1).established = false) ∧
    ((spdmAt (spdm { session := some 0, established := true }) 1).established = true ∧ partOfFn (spdm {}) 1 = some 0 ∧
      queueOf (spdm {}) 0 = false ∧ (4096 : W64).toNat % 4096 = 0 ∧ partOfFn up 1 = none) ∧
    ((spdmAt (spdm { session := some 0 }) 1).session.isSome = true) ∧
    (cmd 0x0801 (zeros 48)).at 24 4 = 0 ∧ (cmd 0x0801 reportArgs).at 24 4 ≠ 0 ∧ Acts 0x0801 attestChk reportArgs ∧ (cmd 0x0801 []).remotes open0 [(mkAddr 3 0, 16384, true)] = [] ∧
    reachOf open0 (.command 1) ((cmd 0x0801 []).pieces open0 (mkAddr 3 0) 16384) = .go := by
  refine ⟨by decide +kernel, by decide +kernel, by decide +kernel, by decide +kernel, by decide +kernel, acts_of rfl (by decide +kernel),
    by decide +kernel, by decide +kernel⟩

/-- A function that has heard nothing for one heartbeat period, whatever that period is. -/
theorem wit_heartbeat : ({ lastHeard := 0, session := some 0 } : Spdm).lastHeard + Config.heartbeatNs ≤ Config.heartbeatNs := by simp

theorem wit_SmbusReadsAndPrograms : up.boot.vsb = true ∧ up.boot.inReset = false ∧ up.security.lockout = false ∧ up.flash.busy = false ∧
    flashMay up 0x10000 32 = true ∧ flashMay up 0x80FFE0 32 = true ∧ flashMay up 0x80FFE1 32 = false ∧ 0x10000 % 65536 = 0 ∧
    flashMay up 0x10000 (65536 * 128) = true ∧ ({ up.flash with busy := true } : Flash).busy = true ∧
    ({ up.flash with work := some (0x10000, 1, []) } : Flash).work = some (0x10000, 1, []) := by decide +kernel

/-- The monitor with a command to run. -/
def told (c : MonCmd) : State := { open0 with mon := { open0.mon with todo := some c } }

theorem wit_MonitorRuns :
    (monOn open0 = true ∧ open0.security.lockout = false ∧ (told .lap).mon.todo = some .lap ∧ portPresent open0 15 = true) ∧
    ((mkAddr 4 0x20).toNat % 8 = 0 ∧ (mkAddr 4 0x24).toNat % 8 ≠ 0) ∧
    (let s : State := atTime 60000000000 { open0 with mon := { open0.mon with session := true } }
     s.mon.session = true ∧ s.mon.lastLine + 60000000000 ≤ now s) := by decide +kernel

theorem wit_monReach : monReach (mkAddr 3 0) 8 (told (.peek (mkAddr 3 0) 8)) = .go (.near [(.stack 0, 8)]) ∨
    ∃ p, monReach (mkAddr 3 0) 8 (told (.peek (mkAddr 3 0) 8)) = .go p := by
  right
  exact ⟨_, rfl⟩

theorem wit_monWait : (match monReach (mkAddr 0 0) 8 (pounding (told (.peek (mkAddr 0 0) 8))) with | .wait _ => true | _ => false) = true := by
  decide +kernel

theorem wit_monErr : monReach (BitVec.ofNat 64 (5 * 2 ^ 48)) 8 (told (.peek (BitVec.ofNat 64 (5 * 2 ^ 48)) 8)) = .err "err addr" := rfl

theorem wit_MonitorIsLockedOut :
    (let s : State := { open0 with mon := { open0.mon with line := [0x61] }, security := { open0.security with lockout := true } }
     monOn s = true ∧ s.security.lockout = true ∧ s.mon.line = [0x61] ∧ s.mon.line ≠ []) ∧
    ({ open0.fuse with debugFused := true } : Fuse).debugFused = true := by decide +kernel

/-! ## The rows of whole families -/

theorem wit_PowerRowsComplete :
    Acts 0x0701 (fun _ c => setCapChk c) (args [(16, 4, 900)]) ∧ Acts 0x0702 setProfileChk (args [(16, 1, 1)]) bare ∧
    (cmd 0x0703 []).at 20 2 = 0 ∧
    Reads 0x0703 lendChk (args [(20, 2, 2), (24, 8, (mkAddr 0 0xA000).toNat)]) (poke 0 0xA000 [4, 0, 5, 0] noded) ∧
    Runs (at_ 0x0704 [] bare) 0x0704 1 (cmd 0x0704 []) ∧ (anyJob bare = false ∧ anySwitch bare = false ∧ opening bare = false ∧
      opening (flying [cmd 0x0704 [], { cmd 0x0105 [] with id := 2 }] bare) = true) ∧
    Acts 0x0705 powerReadChk (args [(16, 8, (mkAddr 3 64).toNat)]) ∧
    (up.pins.capAlertN = true ∧ pmuOn up = true ∧ running up = true) := by
  refine ⟨acts_of rfl (by decide +kernel), acts_of rfl (by decide +kernel), by decide +kernel, reads_of rfl (by decide +kernel),
    runs_at rfl, by decide +kernel, acts_of rfl (by decide +kernel), by decide +kernel⟩

theorem wit_MailboxRowsComplete : hostUp (spdm {}) = true ∧ (spdmAt (spdm { versioned := true }) 1).versioned = true ∧
    (spdmAt (spdm { capable := true }) 1).capable = true ∧ (spdmAt (spdm { negotiated := true }) 1).negotiated = true ∧
    (spdmAt (spdm { session := some 0, established := true }) 1).established = true := by decide +kernel

/-! ## Well-formedness: each check refuses a term -/

theorem test_wf_refuses1 : ([
    .sqTailWrite 5 0 0 [], .sqTailWrite 0 256 0 [], .replyHeadWrite 5 0 0, .replyHeadWrite 0 256 0, .duplicateReply 256 true,
    .bundleIssue 512, .ccResultLand 512, .readCacheFill 512, .aset 512 0, .aset 0 4, .awrap 512 0, .awrap 0 4, .seed 512 0,
    .seed 0 4, .dgset 512, .mwload 512, .mma 512, .mdrain 512, .vadd 512, .vsub 512, .vmul 512, .vfma 512, .vmax 512, .vmin 512]
    : List Instr).all (fun i => !i.wf) = true := by decide

theorem test_wf_refuses2 : ([
    .vscale 512, .vcvt 512, .vmulb 512, .vsubb 512, .vredsum 512, .vredmax 512, .sexp 512, .slog 512, .srsqrt 512, .srcp 512,
    .sidx 512, .dcopy 512, .dlayout 512, .dflagset 512, .dflagwait 512, .dflagwaitSatisfied 512, .dfence 512, .ddesc 512,
    .twinMatchTimeout 512, .engineInstructionComplete 512 0, .engineInstructionComplete 0 4, .tileFinish 512, .sliceEnd 4,
    .jobSwitch 4]
    : List Instr).all (fun i => !i.wf) = true := by decide

theorem test_wf_refuses3 : ([
    .runStart 16 0, .runStart 0 8192, .attnScore 16 0, .attnScore 0 8192, .attnFull 16 0, .attnFull 0 8192, .scoreDecay 16 0,
    .scoreDecay 0 8192, .gemv 16 0, .gemv 0 8192, .axpy 16 0, .axpy 0 8192, .reduce 16 0, .reduce 0 8192, .pageCopy 16 0,
    .pageCopy 0 8192, .rowZero 16 0, .rowZero 0 8192, .pageDigest 16 0, .pageDigest 0 8192, .lock 16 0, .lock 0 8192,
    .mergeGroupResult 16, .refreshDue 16 0]
    : List Instr).all (fun i => !i.wf) = true := by decide

theorem test_wf_refuses4 : ([
    .refreshDue 0 8192, .mergeBufferFlush 16 0, .mergeBufferFlush 0 32, .stackRowChange 16 0, .refreshRateChange 16 0,
    .tenantSwitchClearDone 4, .tenantSwitchMemoryDone 4, .farLinkDown 2, .farLinkRetrainDone 2 true true, .portTrained 16 0,
    .hailReceive 16 ⟨0, 0, 0, [], 0, []⟩, .flitTransmit 16, .flitReceive 16 [] 0, .portRetrainDone 16 true,
    .portSilenceTimeout 16, .rekeyMessageReceive 16 0, .write 16, .read 16, .readData 16, .writeAcknowledgement 16,
    .refusal 16, .admissionQuery 16, .admissionAnswer 16, .barge 16]
    : List Instr).all (fun i => !i.wf) = true := by decide

theorem test_wf_refuses5 : ([
    .unroutable 16, .messageForward 16 0, .messageForward 0 4, .neighbourAdvertisementReceive 16 ⟨0, 0, 0, false, []⟩,
    .timeRequestReceive 16 0, .slack 65536 0 0 0, .taken 65536 0, .droopTrip 24 0, .droopRelease 2, .irqHoldoffExpire 5,
    .irqUnmask 5, .irqLeafClear 5 0 0 0, .irqLeafClear 0 8 0 0, .irqLeafClear 0 0 9 0, .irqEoi 5, .kvPoolHiWrite 5 0 0,
    .kvPoolHiWrite 0 4 0, .kvPoolRelease 5 0 0, .kvPoolRelease 0 4 0, .farPartWrite 5 0 0, .farPartWrite 0 (2 ^ 24) 0,
    .powerCfgWrite 5 0 0, .powerCfgWrite 0 (2 ^ 24) 0, .serveCostWrite 5 0 0]
    : List Instr).all (fun i => !i.wf) = true := by decide

theorem test_wf_refuses6 : ([
    .serveCostWrite 0 (2 ^ 24) 0, .bar2BaseWrite 5 0 0, .bar2BaseWrite 0 (2 ^ 24) 0, .registerWrite 5 0 0,
    .registerWrite 0 (2 ^ 24) 0, .bar2Read 5 0 0, .bar2Read 0 (2 ^ 39) 0, .bar2Write 5 0 [], .bar2Write 0 (2 ^ 39) [],
    .timeNowRead 5, .ppsLastRead 5, .energyRead 5, .throttleRead 5 0, .throttleRead 0 6, .tileBeatsRead 5 0,
    .tileBeatsRead 0 512, .bootLogRead 5 0, .bootLogRead 0 7, .stackCorrCountRead 5 0, .stackCorrCountRead 0 16,
    .stackUncorrCountRead 5 0, .stackUncorrCountRead 0 16, .stackRunsRead 5 0, .stackRunsRead 0 16]
    : List Instr).all (fun i => !i.wf) = true := by decide

theorem test_wf_refuses7 : ([
    .stackLockWaitMaxRead 5 0, .stackLockWaitMaxRead 0 16, .farPoisonCountRead 5, .fyantCrcRetryRead 5 0,
    .fyantCrcRetryRead 0 16, .fyantFecCorrRead 5 0, .fyantFecCorrRead 0 16, .fyantRetrainsRead 5 0, .fyantRetrainsRead 0 16,
    .fyantTagFailRead 5 0, .fyantTagFailRead 0 16, .serveFlagFallsRead 5, .serveDeferralsRead 5, .kvWalkSkipsRead 5 0,
    .kvWalkSkipsRead 0 4, .kvCowRead 5 0, .kvCowRead 0 4, .faultRetriesRead 5, .faultRepairsRead 5, .faultRepairFailsRead 5,
    .faultPlausibilityRead 5, .sluiceFailRead 5 0, .sluiceFailRead 0 4, .getVersion 5]
    : List Instr).all (fun i => !i.wf) = true := by decide

theorem test_wf_refuses8 : ([
    .getCapabilities 5, .negotiateAlgorithms 5, .getDigests 5, .getCertificate 5 0, .challenge 5 0 [], .getMeasurements 5 0,
    .keyExchange 5 0, .finish 5 [], .keyUpdate 5, .heartbeat 5, .heartbeatLapse 5, .endSession 5, .sluiceBind 5 0 0,
    .functionLevelReset 5, .doeDiscovery 5 0, .queueRingTimeout 256, .unitHang (.island 24) none, .unitHang (.ssq 16) none]
    : List Instr).all (fun i => !i.wf) = true := by decide

/-! ## Worked examples of the spec -/

/-- 02, worked example of the packet: SCRUB-RANGE's packet. -/
theorem test_packet_fields :
    let c := parsePacket 0 5 ([0x04, 0x02, 0x06, 0x01, 0x2B, 0x1A, 0, 0, 5, 0, 1, 3, 7, 0, 0, 0, 0, 0, 0, 0x40, 0, 0, 0xFF, 0xFF,
      0, 0, 0, 0x40, 0, 0, 0, 0, 0, 0, 0x12, 0, 0, 0x30, 0xFF, 0xFF] ++ zeros 24)
    c.opcode = 0x204 ∧ c.flags = 6 ∧ c.seq = 0x1A2B ∧ c.part = 1 ∧ c.units8 = 3 ∧ c.job = 7 ∧
      c.at 16 8 = 0xFFFF000040000000 ∧ c.at 24 8 = 0x40000000 ∧ c.at 32 8 = 0xFFFF300000120000 := by decide +kernel

/-- 02, the same example's repeats: a duplicate inside the window, a stale number below it. -/
theorem test_replay_window :
    ({ newest := some 0x1E13, window := [(0x1A2B, none)] } : Queue).judge 0x1A2B = .duplicate ∧
    ({ newest := some 0x2E00, window := [] } : Queue).judge 0x1A2B = .stale := by decide +kernel

/-- 04, worked example of MZ encoding: the 28 bytes of an MZ6 block. -/
theorem test_mz6_block :
    (mzEncode 6 { rnd := .even, inf := true } (List.replicate 32 0) ((List.range 32).map fun i => dec32 (match i with
      | 0 => 0x3E99999A | 1 => 0xBEF0A3D7 | 2 => 0x3D800000 | 3 => 0xBDCCCCCD | 9 => 0x414B3333 | 17 => 0x3F000000
      | 31 => 0xBF000000 | _ => 0))).area =
      [0x7E, 0x09, 0x5A, 0x4A, 0x4A, 0x2C, 0xF4, 0, 0, 0, 0, 0, 0, 0, 0, 0, 0, 0x04, 0, 0, 0, 0, 0, 0, 0, 0, 0, 0xC0] := by
  decide +kernel

/-- 08, worked example of the interleave: two offsets of a whole-module view with every boundary of a PIM stack at 64. -/
theorem test_interleave :
    let s : State := { up with dram := [0, 1, 2, 3, 4, 5, 8, 9, 10, 11, 12, 13].map fun k => (k, { boundary := 64 }) }
    (interleave s (List.range 16) 21274).map (fun x => unitKey x.1 x.2) = some (stackKey 10 17 41 0) ∧
      (interleave s (List.range 16) 34078720).map (fun x => unitKey x.1 x.2) = some (stackKey 6 0 0 0x110000) := by
  decide +kernel

/-- 10, worked example of the page table entry: that of page index 101 of bank 77, channel 12, stack 3. -/
theorem test_table_entry : mkEntry (512 * (256 * (32 * 3 + 12) + 77) + 101) 63 0x4D2A5 = 0x8D89A657E004D2A5 := by decide

/-- 13, worked example: node 0x0105's tile 40 sends to node 0x0212 by port 5, and tile 41 by port 6. -/
theorem test_route :
    let s : State := { up with fabric := { up.fabric with
      node := some 0x105, group := [(2, [4, 5, 6, 7])], ports := [4, 5, 6, 7].map fun p => (p, { state := .up }) } }
    routePort s ⟨0x212, 0x105, 0, 3, 40, 0, 8, 1, 0, [], none⟩ = some 5 ∧ routePort s ⟨0x212, 0x105, 0, 3, 41, 0, 8, 1, 0, [], none⟩ = some 6 := by
  decide +kernel

/-- 16, worked example: the cap loop's steps from duty 16. -/
theorem test_cap_loop : nextDuty 16 544 65000 = 19 ∧ nextDuty 19 580 65000 = 21 ∧ nextDuty 21 604 65000 = 22 ∧
    nextDuty 22 616 65000 = 23 ∧ nextDuty 23 628 65000 = 23 := by decide
end Sys2Proof.Tests
end

section
/-!
The statements of scope: BAR2 accesses (R476) and start-up (R481 to R489).
-/

namespace Sys2Proof.Machine

/-! ## Rows of a unit -/

theorem exec_bar2BaseWrite_meaning (fn off : Nat) (v : W32) (s : State) :
    exec (.bar2BaseWrite fn off v) s = execBar2BaseWrite fn off v s := rfl

theorem exec_bar2Read_meaning (fn off n : Nat) (s : State) :
    exec (.bar2Read fn off n) s = execBar2Read fn off n s := rfl

theorem exec_bar2Write_meaning (fn off : Nat) (bs : List Byte) (s : State) :
    exec (.bar2Write fn off bs) s = execBar2Write fn off bs s := rfl

theorem onUnit_inside {limit n : Nat} (h : n < limit) (s : State) (f : State → State) :
    onUnit limit n s f = .next (f s) := if_pos h

/-! ## The base of a BAR2 window (R476) -/

/-- The base that a write of one half of BAR2_BASE asks for: that half replaced, the bits below the window's size 0. -/
def askedBase (fn off : Nat) (v : W32) (s : State) : W64 :=
  let old := s.front.bar2Base[fn]?.getD 0
  let joined : W64 := if off = 0x2100 then old.extractLsb' 32 32 ++ v else v ++ old.extractLsb' 0 32
  BitVec.ofNat 64 (joined.toNat / 2 ^ s.front.bar2Size * 2 ^ s.front.bar2Size)

theorem bar2Base_asked (fn off : Nat) (v : W32) (s : State) :
    bar2Base fn off v s =
      if nodeOf (askedBase fn off v s) = 0xFFFF && (spaceOf (askedBase fn off v s) = 0 ||
          spaceOf (askedBase fn off v s) = 1 || spaceOf (askedBase fn off v s) = 5) then
        { s with front := { s.front with bar2Base := s.front.bar2Base.setIfInBounds fn (askedBase fn off v s) } }
      else raise .addrErr s := rfl

theorem bar2Base_taken {fn off : Nat} {v : W32} {s : State} (node : nodeOf (askedBase fn off v s) = 0xFFFF)
    (space : spaceOf (askedBase fn off v s) = 0 ∨ spaceOf (askedBase fn off v s) = 1 ∨ spaceOf (askedBase fn off v s) = 5) :
    bar2Base fn off v s =
      { s with front := { s.front with bar2Base := s.front.bar2Base.setIfInBounds fn (askedBase fn off v s) } } := by
  rw [bar2Base_asked, if_pos (by simpa [node, or_assoc] using space)]

theorem bar2Base_ignored {fn off : Nat} {v : W32} {s : State}
    (bad : nodeOf (askedBase fn off v s) ≠ 0xFFFF ∨ (spaceOf (askedBase fn off v s) ≠ 0 ∧
      spaceOf (askedBase fn off v s) ≠ 1 ∧ spaceOf (askedBase fn off v s) ≠ 5)) :
    bar2Base fn off v s = raise .addrErr s := by
  have refused : ¬ (nodeOf (askedBase fn off v s) = 0xFFFF && (spaceOf (askedBase fn off v s) = 0 ||
      spaceOf (askedBase fn off v s) = 1 || spaceOf (askedBase fn off v s) = 5)) = true := by
    rcases bad with node | ⟨no0, no1, no5⟩
    · simp [node]
    · simp [no0, no1, no5]
  rw [bar2Base_asked, if_neg refused]

/-- After READY and awake, BAR0 serves every offset. -/
theorem offServed_ready {s : State} (ready : s.boot.ready = true) (awake : s.pmu.sleep = .awake) (off : Nat) :
    offServed off s = true := by simp [offServed, ready, awake]

theorem exec_bar2BaseWrite {s : State} {fn off : Nat} (up : hostUp s = true) (ready : s.boot.ready = true)
    (awake : s.pmu.sleep = .awake) (inside : fn < 5) (reg : off = 0x2100 ∨ off = 0x2104) (v : W32) :
    exec (.bar2BaseWrite fn off v) s = .next (bar2Base fn off v s) := by
  have acts : (hostUp s && offServed off s && (off = 0x2100 || off = 0x2104)) = true := by
    simp [up, offServed_ready ready awake, reg]
  rw [exec_bar2BaseWrite_meaning, execBar2BaseWrite, onUnit_inside inside, if_pos acts]

/-! ## What a function issues (R188) -/

/-- With nothing of the function ahead of it, an access takes effect at once. -/
theorem issue_prompt {fn : Nat} {s : State} (h : Prompt fn s) (p : Post) : issue fn p s = takePost fn p s := by
  obtain ⟨waits, posts⟩ := h
  simp [issue, waits, posts]

theorem exec_bar2Write {fn off : Nat} {s : State} {bs : List Byte} (inside : fn < 5) (prompt : Prompt fn s)
    (served : bar2Served off bs.length s = true) :
    exec (.bar2Write fn off bs) s = .next (takePost fn (.write (bar2Addr fn off s) bs) s) := by
  rw [exec_bar2Write_meaning, execBar2Write, onUnit_inside inside, bar2Write, if_pos served, issue_prompt prompt]

theorem exec_bar2Read {fn off n : Nat} {s : State} (inside : fn < 5) (prompt : Prompt fn s)
    (served : bar2Served off n s = true) :
    exec (.bar2Read fn off n) s = .next (takePost fn (.read (bar2Addr fn off s) n) s) := by
  rw [exec_bar2Read_meaning, execBar2Read, onUnit_inside inside, bar2Read, if_pos served, issue_prompt prompt]

/-! ## An access of one piece, and one in error (R184, R211, R263) -/

/-- An access to one place is that place's piece, with all of its data. -/
theorem hostPieces_single (fn : Nat) (write : Bool) (data : List Byte) (h : Home) (n : Nat) (s : State) :
    hostPieces fn write data [(h, n)] 0 s = hostPiece fn h write (data.take n) 0 n s := rfl

theorem takePost_write_piece {fn : Nat} {a : W64} {bs : List Byte} {h : Home} {s : State}
    (found : resolve s .host (bar2PartOf fn s) a bs.length = .ok (.near [(h, bs.length)])) :
    takePost fn (.write a bs) s = hostPiece fn h true bs 0 bs.length s := by
  simp only [takePost, found, hostPieces_single, List.take_length]

theorem takePost_write_error {fn : Nat} {a : W64} {bs : List Byte} {e : AddrErr} {s : State}
    (bad : resolve s .host (bar2PartOf fn s) a bs.length = .error e) :
    takePost fn (.write a bs) s = raise .addrErr s := by
  simp only [takePost, bad]

theorem takePost_read_piece {fn n : Nat} {a : W64} {h : Home} {s : State}
    (found : resolve s .host (bar2PartOf fn s) a n = .ok (.near [(h, n)])) :
    takePost fn (.read a n) s = hostPiece fn h false [] 0 n (readOnes n s) := by
  simp only [takePost, found, hostPieces_single, List.take_nil]

theorem takePost_read_error {fn n : Nat} {a : W64} {e : AddrErr} {s : State}
    (bad : resolve s .host (bar2PartOf fn s) a n = .error e) :
    takePost fn (.read a n) s = readOnes n (raise .addrErr s) := by
  simp only [takePost, bad]

/-- A piece is served at once unless it lies in a bank that blocks it. -/
theorem hostPiece_served {fn : Nat} {h : Home} {s : State}
    (free : ∀ key, h = .stack key → bankBlocks s (.host fn) key = false) (write : Bool) (data : List Byte) (place n : Nat) :
    hostPiece fn h write data place n s = hostServe h write data place n s := by
  cases h with
  | stack key => simp [hostPiece, free key rfl]
  | tile _ | far _ _ | host _ | frame _ _ _ => rfl

/-- A piece in a bank that blocks it joins those that wait there (R263). -/
theorem hostPiece_waits {fn key : Nat} {s : State} (blocked : bankBlocks s (.host fn) key = true) (write : Bool)
    (data : List Byte) (place n : Nat) :
    hostPiece fn (.stack key) write data place n s =
      setHostWaits fn (hostWaitsOf fn s + 1) (setBank s (keyStack key) (bankNum key)
        { bankAt s (keyStack key) (bankNum key) with waiting := (bankAt s (keyStack key) (bankNum key)).waiting ++
          [⟨.host fn, key, write, data, place, n, now s⟩] }) := by
  simp [hostPiece, blocked]

theorem bankBlocks_readOnes (n : Nat) (s : State) (who : Agent) (key : Nat) :
    bankBlocks (readOnes n s) who key = bankBlocks s who key := rfl

/-! ## Phases of a start-up (R481) -/

/-- A start-up stands in phase `k`, which can end. -/
structure StartUp (k : Nat) (s : State) : Prop where
  vsb : s.boot.vsb = true
  noReset : s.boot.inReset = false
  noHalt : s.boot.halted = false
  notReady : s.boot.ready = false
  phase : s.boot.phase = k

theorem inPhase_startUp {k : Nat} {s : State} (h : StartUp k s) (f : State → State) : inPhase k s f = .next (f s) := by
  obtain ⟨vsb, noReset, noHalt, notReady, phase⟩ := h
  simp [inPhase, vsb, noReset, noHalt, notReady, phase]

theorem inWarmPhase_startUp {k : Nat} {s : State} (h : StartUp k s) (warm : s.pins.thermN = true) (f : State → State) :
    inWarmPhase k s f = .next (f s) := by
  rw [inWarmPhase, inPhase_startUp h, if_pos warm]

theorem exec_bootStandbyDone_meaning (s : State) : exec .bootStandbyDone s = execBootStandbyDone s := rfl

theorem exec_bootFlashDone_meaning (s : State) : exec .bootFlashDone s = execBootFlashDone s := rfl

theorem exec_vinPgRise_meaning (s : State) : exec .vinPgRise s = execVinPgRise s := rfl

theorem exec_vinPgTimeout_meaning (s : State) : exec .vinPgTimeout s = execVinPgTimeout s := rfl

theorem exec_bootPowerDone_meaning (s : State) : exec .bootPowerDone s = execBootPowerDone s := rfl

theorem exec_bootStacksDone_meaning (fs : List PinAt) (s : State) :
    exec (.bootStacksDone fs) s = execBootStacksDone fs s := rfl

theorem exec_bootLinksDone_meaning (c : Option Int) (f0 f1 : FarTrain) (s : State) :
    exec (.bootLinksDone c f0 f1) s = execBootLinksDone c f0 f1 s := rfl

theorem exec_bootScrubDone_meaning (laps : List Nat) (s : State) :
    exec (.bootScrubDone laps) s = execBootScrubDone laps s := rfl

theorem exec_bootStandbyDone {s : State} (h : StartUp 0 s) :
    exec .bootStandbyDone s = .next (setPhase 1 (logPhase 0 s)) := by
  rw [exec_bootStandbyDone_meaning, execBootStandbyDone, inPhase_startUp h]

theorem exec_vinPgRise {s : State} (h : StartUp 1 s) (on : s.pins.pwrEn = true) :
    exec .vinPgRise s = .next (beginPower { s with pins := { s.pins with vinPg := true } }) := by
  obtain ⟨vsb, _, noHalt, _, phase⟩ := h
  simp [exec_vinPgRise_meaning, execVinPgRise, vsb, noHalt, on, phase]

theorem exec_vinPgTimeout {s : State} (h : StartUp 1 s) (on : s.pins.pwrEn = true) (low : s.pins.vinPg = false)
    (late : s.boot.pwrEnAt + 100000000 ≤ now s) : exec .vinPgTimeout s = .next (halt 3 s) := by
  simp [exec_vinPgTimeout_meaning, execVinPgTimeout, inPhase_startUp h, on, low, late]

theorem exec_bootFlashDone {s : State} (h : StartUp 1 s) (off : s.pins.pwrEn = false) :
    exec .bootFlashDone s = .next (flashDone s) := by
  simp [exec_bootFlashDone_meaning, execBootFlashDone, inPhase_startUp h, off]

theorem exec_bootPowerDone {s : State} (h : StartUp 2 s) :
    exec .bootPowerDone s = .next (applyRow (applyVoltage (powerVoltage (setPhase 3 (logPhase 2 s))))) := by
  rw [exec_bootPowerDone_meaning, execBootPowerDone, inPhase_startUp h]

theorem exec_bootStacksDone {s : State} (h : StartUp 3 s) (warm : s.pins.thermN = true) (fs : List PinAt) :
    exec (.bootStacksDone fs) s = .next (stacksDone fs s) := by
  rw [exec_bootStacksDone_meaning, execBootStacksDone, inWarmPhase_startUp h warm]

theorem exec_bootLinksDone {s : State} (h : StartUp 4 s) (warm : s.pins.thermN = true) (c : Option Int)
    (f0 f1 : FarTrain) : exec (.bootLinksDone c f0 f1) s = .next (linksDone c f0 f1 s) := by
  rw [exec_bootLinksDone_meaning, execBootLinksDone, inWarmPhase_startUp h warm]

theorem exec_bootScrubDone {s : State} (h : StartUp 5 s) (warm : s.pins.thermN = true) (laps : List Nat) :
    exec (.bootScrubDone laps) s = .next (scrubDone laps s) := by
  rw [exec_bootScrubDone_meaning, execBootScrubDone, inWarmPhase_startUp h warm]

/-! ## The choice of images (R427, R483) -/

/-- With a firmware image and a patch chosen: the keys are derived, the flights are loaded, PWR_EN goes high. -/
def imagesTaken (fw patch : Bool × FlashImage) (s : State) : State :=
  let t := loadFlights fw.2.bytes (logPhase 1 (deriveKeys fw patch s))
  { t with pins := { t.pins with pwrEn := true }, boot := { t.boot with pwrEnAt := now t } }

theorem flashDone_chosen {s : State} {fw patch : Bool × FlashImage}
    (hfw : chooseImage (imageAt s 0x10000 1 0x600000) (imageAt s 0x810000 1 0x600000) = some fw)
    (hpatch : chooseImage (imageAt s 0x1010000 2 65408) (imageAt s 0x1020000 2 65408) = some patch) :
    flashDone s = if s.pins.vinPg then beginPower (imagesTaken fw patch s) else imagesTaken fw patch s := by
  simp only [flashDone, hfw, hpatch]; rfl

theorem flashDone_noFirmware {s : State}
    (noImage : chooseImage (imageAt s 0x10000 1 0x600000) (imageAt s 0x810000 1 0x600000) = none) :
    flashDone s = halt 1 s := by
  simp only [flashDone, noImage]

theorem chooseImage_two (a b : FlashImage) :
    chooseImage (some a) (some b) = some (if a.version < b.version then (true, b) else (false, a)) :=
  (apply_ite some _ _ _).symm

/-! ## Links and device time (R486) -/

/-- Device time as BOOT_LINKS_DONE leaves it: corrected where there is a correction and a port that is up (log 73). -/
def corrected (c : Option Int) (s : State) : State :=
  match c with
  | some d => if (List.range 16).any fun p => (portAt s p).state = PortState.up then setTime d s else s
  | none => s

theorem linksDone_time (c : Option Int) (f0 f1 : FarTrain) (s : State) :
    (linksDone c f0 f1 s).time = (corrected c s).time := rfl

theorem linksDone_timeSet (c : Option Int) (f0 f1 : FarTrain) (s : State) :
    (linksDone c f0 f1 s).boot.timeSet = (corrected c s).boot.timeSet := rfl

theorem corrected_noPort {s : State} (down : ∀ p < 16, (portAt s p).state ≠ .up) (c : Option Int) : corrected c s = s := by
  cases c with
  | none => rfl
  | some d => exact if_neg (by simpa using down)

theorem corrected_port {s : State} (up : ∃ p < 16, (portAt s p).state = .up) (d : Int) :
    corrected (some d) s = setTime d s :=
  if_pos (by simpa using up)

/-! ## READY (R487, R488) -/

theorem adminStart_boot (s : State) : (adminStart s).boot = s.boot := rfl

theorem scrubDone_ready (laps : List Nat) (s : State) :
    (scrubDone laps s).boot.ready = true ∧ (scrubDone laps s).boot.phase = 6 := by
  unfold scrubDone
  dsimp only
  split
  · rw [adminStart_boot]; exact ⟨rfl, rfl⟩
  · exact ⟨rfl, rfl⟩

/-! ## The obligations -/

/-- Settles O17: a base write is judged by the base it asks for; an access of a prompt function takes effect at once, as
its one piece or as an address error. -/
theorem bar2ReachesMemory : Obligations.Bar2ReachesMemory := by
  unfold Obligations.Bar2ReachesMemory
  refine ⟨?base, fun s fn off inside prompt => ⟨?write, ?writeError, ?read, ?readError⟩⟩
  case base =>
    intro s fn v old new up ready awake inside hold off half
    have reg : off = 0x2100 ∨ off = 0x2104 := half.imp And.left And.left
    have asked : new = askedBase fn off v s := by
      rcases half with ⟨rfl, hnew⟩ | ⟨rfl, hnew⟩ <;> rw [hnew, hold] <;> rfl
    rw [exec_bar2BaseWrite up ready awake inside reg, asked]
    refine ⟨fun node space => ?_, fun bad => ?_⟩
    · rw [bar2Base_taken node space]
    · rw [bar2Base_ignored bad]
  case write =>
    intro bs h served found
    rw [exec_bar2Write inside prompt served, takePost_write_piece found]
    refine ⟨fun free => ?_, fun key k b hkey blocked hk hb => ?_⟩
    · rw [hostPiece_served free]; rfl
    · subst hkey hb hk
      rw [hostPiece_waits blocked, prompt.1]
  case writeError =>
    intro bs e served bad
    rw [exec_bar2Write inside prompt served, takePost_write_error bad]
  case read =>
    intro n h r served found free hr
    have free' : ∀ key, h = .stack key → bankBlocks (readOnes n s) (.host fn) key = false :=
      fun key hkey => (bankBlocks_readOnes n s _ key).trans (free key hkey)
    rw [exec_bar2Read inside prompt served, takePost_read_piece found, hostPiece_served free', hr]
    rfl
  case readError =>
    intro n e served bad
    rw [exec_bar2Read inside prompt served, takePost_read_error bad]
    exact ⟨_, rfl, rfl, rfl⟩

/-- Settles O21: in its phase each row of a start-up acts, and what it leaves is read off its meaning; device time is
corrected only by a peer behind an up port. -/
theorem startUpReachesReady : Obligations.StartUpReachesReady := by
  unfold Obligations.StartUpReachesReady
  refine ⟨fun s vsb noReset noHalt notReady => ?phases, fun s vsb noReset noHalt notReady phase off => ?flash,
    fun s vsb noReset noHalt notReady warm => ?warmPhases⟩
  case phases =>
    have start {k : Nat} (h : s.boot.phase = k) : StartUp k s := ⟨vsb, noReset, noHalt, notReady, h⟩
    refine ⟨fun h => ?_, fun h on => ?_, fun h on low late => ?_, fun h => ?_⟩
    · rw [exec_bootStandbyDone (start h)]; rfl
    · rw [exec_vinPgRise (start h) on]; rfl
    · rw [exec_vinPgTimeout (start h) on low late]; rfl
    · rw [exec_bootPowerDone (start h)]; rfl
  case flash =>
    rw [exec_bootFlashDone ⟨vsb, noReset, noHalt, notReady, phase⟩ off]
    refine ⟨fun fw patch hfw hpatch => ⟨_, rfl, ?chosen⟩, fun noImage => ?noFirmware, chooseImage_two⟩
    case chosen =>
      rw [flashDone_chosen hfw hpatch]
      cases s.pins.vinPg with
      | true => exact ⟨rfl, rfl, rfl, rfl, rfl, rfl, rfl, rfl, rfl, rfl, rfl, rfl, rfl⟩
      | false => exact ⟨rfl, rfl, rfl, rfl, rfl, rfl, phase, rfl, rfl, rfl, rfl, rfl, rfl⟩
    case noFirmware => rw [flashDone_noFirmware noImage]; rfl
  case warmPhases =>
    have start {k : Nat} (h : s.boot.phase = k) : StartUp k s := ⟨vsb, noReset, noHalt, notReady, h⟩
    refine ⟨fun h fs => ⟨exec_bootStacksDone (start h) warm fs, rfl⟩, fun h c f0 f1 =>
      ⟨exec_bootLinksDone (start h) warm c f0 f1, rfl, fun down => ?noPort, fun d hc up => ?upPort, rfl, rfl, rfl, rfl⟩,
      fun h laps => ⟨exec_bootScrubDone (start h) warm laps, scrubDone_ready laps s⟩⟩
    case noPort =>
      rw [linksDone_time, linksDone_timeSet, corrected_noPort down]
      exact ⟨rfl, rfl⟩
    case upPort =>
      rw [linksDone_time, linksDone_timeSet, hc, corrected_port up]
      exact ⟨rfl, rfl⟩

end Sys2Proof.Machine
end

section
/-!
What the statements on command packets share: when a row acts, and what an update leaves of the commands in flight.
-/

namespace Sys2Proof.Machine

/-! ## Rows that act -/

theorem whenRunning_runs {s : State} (h : running s = true) (f : State → State) : whenRunning s f = f s := if_pos h

/-- A row that acts, and what its meaning comes to. -/
theorem onCmd_comes {s t : State} {op id : Nat} {c : Cmd} {f : Cmd → State → State} (h : Runs s op id c)
    (comes : f c s = t) : onCmd op id s f = .next t := by
  rw [onCmd_runs h, comes]

theorem whenZero_zero {c : Cmd} {n : Nat} (h : n = 0) (s go : State) :
    c.whenZero n s go = judged c (namedChk s c 16) s fun _ s => doneCmd c.id 0 s := if_pos h

theorem whenZero_nonzero {c : Cmd} {n : Nat} (h : n ≠ 0) (s go : State) : c.whenZero n s go = go := if_neg h

/-! ## Checks that read no control data -/

theorem need_true {p : Bool} (h : p = true) (m : Mark) : need p m = pure () := if_pos h

/-- A check that answers without reading control data finds it. -/
theorem finds_of_pure {α : Type} {c : Cmd} {s : State} {chk : Chk α} {x : α} (h : chk = pure x) : Finds c s chk x [] := by
  subst h
  exact ⟨rfl, by simp [Cmd.finds, reachOf]⟩

/-- What a row does once its check has found what it needs, with no control data read. -/
theorem judged_found {α : Type} {c : Cmd} {s : State} {chk : Chk α} {x : α} (h : Finds c s chk x [])
    (go : α → State → State) : judged c chk s go = go x s := by
  rw [judged_finds c chk s go x [] h, touch_nil]

/-! ## Commands in flight -/

/-- Another command stays as it was when one is changed. -/
theorem cmdAt_updCmd_ne {p j : Nat} (h : j ≠ p) (f : Cmd → Cmd) (s : State) (hf : ∀ y, (f y).id = y.id) :
    cmdAt (updCmd p f s) j = cmdAt s j := by
  rw [cmdAt_updCmd p j f s hf]
  cases at_j : cmdAt s j with
  | none => rfl
  | some y => simp [cmdAt_id at_j, h]

theorem cmdAt_updCmd_eq {p : Nat} {x : Cmd} {s : State} (h : cmdAt s p = some x) (f : Cmd → Cmd)
    (hf : ∀ y, (f y).id = y.id) : cmdAt (updCmd p f s) p = some (f x) := by
  simp [cmdAt_updCmd p p f s hf, h, cmdAt_id h]

theorem cmdAt_of_cmds {s t : State} (h : t.front.cmds = s.front.cmds) (id : Nat) : cmdAt t id = cmdAt s id := by
  rw [cmdAt, h, cmdAt]

end Sys2Proof.Machine
end

section
/-!
The commands in flight under what does not name one: faults charged to none, memories, a function's accesses, locks, halts.
-/

namespace Sys2Proof.Machine

/-! ## What keeps the commands in flight -/

theorem foldl_cmds {α : Type} {f : State → α → State} (keeps : ∀ s x, (f s x).front.cmds = s.front.cmds) (l : List α)
    (s : State) : (l.foldl f s).front.cmds = s.front.cmds := by
  induction l generalizing s with
  | nil => rfl
  | cons x l ih => rw [List.foldl_cons, ih, keeps]

theorem setStack_cmds (s : State) (k : Nat) (x : Stack) : (setStack s k x).front.cmds = s.front.cmds := rfl

theorem setBank_cmds (s : State) (k b : Nat) (x : Bank) : (setBank s k b x).front.cmds = s.front.cmds := rfl

theorem raise_front (c : Cause) (s : State) : (raise c s).front = s.front := by
  unfold raise
  dsimp only
  split
  · rfl
  · exact (irqSettle_leaves _).1

theorem beginRestart_front (s : State) : (beginRestart s).front = s.front := by
  unfold beginRestart
  split <;> rfl

/-- A fault that is charged to no command changes none. -/
theorem report_front (cls : Nat) (loc : Nat × Nat × Nat) (n : Nat) (s : State) :
    (report cls loc none n s).front = s.front := by
  unfold report
  split
  · rfl
  dsimp only
  split <;> simp only [apply_ite State.front, beginRestart_front, raise_front, ite_self]

theorem charge_none_cmds (g : Got) (s : State) : (charge none g s).front.cmds = s.front.cmds :=
  foldl_cmds (fun s n => by rw [report_front]) g.notes s

/-! ### Stacks -/

theorem sense_cmds (key n : Nat) (s : State) : (sense key n s).front.cmds = s.front.cmds := by
  unfold sense
  split <;> rfl

theorem countStack_cmds (key corr bad : Nat) (s : State) : (countStack key corr bad s).front.cmds = s.front.cmds := by
  unfold countStack
  split <;> rfl

theorem notePin_cmds (s : State) (e : Nat × Nat) : (notePin s e).front.cmds = s.front.cmds := by
  unfold notePin
  dsimp only
  split
  · rfl
  · rw [report_front, setStack_cmds]

theorem mergeRead_cmds (w : Nat) (s : State) : (mergeRead w s).front.cmds = s.front.cmds := by
  unfold mergeRead
  dsimp only
  split
  · exact sense_cmds _ _ s
  · split <;> split <;> simp only [report_front, foldl_cmds notePin_cmds, countStack_cmds, sense_cmds]

theorem putArray_cmds (key : Nat) (bs : List PByte) (s : State) : (putArray key bs s).front.cmds = s.front.cmds :=
  sense_cmds key bs.length s

theorem flushEntry_cmds (e : Merge) (s : State) : (flushEntry e s).front.cmds = s.front.cmds := by
  unfold flushEntry
  refine foldl_cmds (fun s w => ?_) _ s
  dsimp only
  split
  · exact putArray_cmds _ _ s
  split
  · rfl
  · rw [foldl_cmds fun s p => putArray_cmds _ _ s, mergeRead_cmds]

theorem flushWhere_cmds (k : Nat) (p : Merge → Bool) (s : State) : (flushWhere k p s).front.cmds = s.front.cmds := by
  unfold flushWhere
  dsimp only
  split
  · rfl
  · rw [foldl_cmds fun s e => flushEntry_cmds e s, setStack_cmds]

theorem flushRange_cmds (key n : Nat) (s : State) : (flushRange key n s).front.cmds = s.front.cmds :=
  flushWhere_cmds _ _ s

theorem narrow_cmds (key : Nat) (bs : List Byte) (s : State) : (narrow key bs s).front.cmds = s.front.cmds := by
  unfold narrow
  dsimp only
  split
  · rfl
  · rw [setStack_cmds]
    split
    · split
      · exact flushWhere_cmds _ _ s
      · rfl
    · rfl

theorem putPart_cmds (key : Nat) (bs : List PByte) (s : State) : (putPart key bs s).front.cmds = s.front.cmds := by
  unfold putPart
  split
  · rfl
  split
  · rw [putArray_cmds, mergeRead_cmds, flushRange_cmds]
  · exact narrow_cmds _ _ s

theorem putStack_cmds (key : Nat) (bs : List PByte) (s : State) : (putStack key bs s).front.cmds = s.front.cmds := by
  unfold putStack
  dsimp only
  rw [putPart_cmds]
  split <;> simp only [putArray_cmds, flushRange_cmds, putPart_cmds]

theorem getStack_cmds (line : Bool) (key n : Nat) (s : State) : (getStack line key n s).2.front.cmds = s.front.cmds := by
  unfold getStack
  dsimp only
  rw [foldl_cmds notePin_cmds, countStack_cmds, sense_cmds, flushRange_cmds]

/-! ### Tiles, far memory, frames -/

theorem tileMergeRead_cmds (s : State) (w : Nat) : (tileMergeRead s w).front.cmds = s.front.cmds := by
  unfold tileMergeRead
  dsimp only
  split <;> split <;> simp only [report_front]

theorem putTile_cmds (key : Nat) (bs : List PByte) (s : State) : (putTile key bs s).front.cmds = s.front.cmds := by
  unfold putTile
  split
  · rfl
  · exact foldl_cmds tileMergeRead_cmds _ s

theorem getFar_cmds (mfa key n : Nat) (s : State) : (getFar mfa key n s).2.front.cmds = s.front.cmds := by
  unfold getFar
  dsimp only
  split <;> rfl

theorem putFar_cmds (mfa key : Nat) (bs : List PByte) (s : State) : (putFar mfa key bs s).front.cmds = s.front.cmds := by
  unfold putFar
  dsimp only
  split <;> simp only [report_front]

theorem sluiceFail_cmds (p : Nat) (s : State) : (sluiceFail p s).front.cmds = s.front.cmds := by
  rw [sluiceFail, raise_front]; rfl

theorem getFrame_cmds (p f byte n : Nat) (s : State) : (getFrame p f byte n s).2.front.cmds = s.front.cmds := by
  unfold getFrame
  split
  · rfl
  · exact sluiceFail_cmds p s

theorem putFrame_cmds (p f byte : Nat) (bs : List PByte) (s : State) :
    (putFrame p f byte bs s).front.cmds = s.front.cmds := by
  unfold putFrame
  dsimp only
  split
  · rfl
  split
  · rfl
  · exact sluiceFail_cmds p s

/-! ### Pieces -/

theorem getHome_cmds (line : Bool) (h : Home) (n : Nat) (s : State) : (getHome line h n s).2.front.cmds = s.front.cmds := by
  cases h with
  | stack key => exact getStack_cmds line key n s
  | tile key => rfl
  | far m key => exact getFar_cmds m key n s
  | host a => rfl
  | frame p f b => exact getFrame_cmds p f b n s

theorem putHome_cmds (h : Home) (bs : List PByte) (s : State) : (putHome h bs s).front.cmds = s.front.cmds := by
  cases h with
  | stack key => exact putStack_cmds key bs s
  | tile key => exact putTile_cmds key bs s
  | far m key =>
    dsimp only [putHome]
    split
    · rfl
    · exact putFar_cmds m key bs s
  | host a => rfl
  | frame p f b =>
    dsimp only [putHome]
    split
    · rfl
    · exact putFrame_cmds p f b bs s

theorem getPieces_cmds (line : Bool) (ps : List (Home × Nat)) (s : State) :
    (getPieces line ps s).2.front.cmds = s.front.cmds := by
  induction ps generalizing s with
  | nil => rfl
  | cons p ps ih => rw [getPieces, ih, getHome_cmds]

theorem readCharged_none_cmds (line : Bool) (ps : List (Home × Nat)) (s : State) :
    (readCharged line none ps s).2.front.cmds = s.front.cmds := by
  rw [readCharged, charge_none_cmds, getPieces_cmds]

/-! ### What a function has issued -/

theorem hostServe_cmds (h : Home) (write : Bool) (data : List Byte) (place n : Nat) (s : State) :
    (hostServe h write data place n s).front.cmds = s.front.cmds := by
  unfold hostServe
  split
  · exact putHome_cmds h (clean data) s
  · exact readCharged_none_cmds false [(h, n)] s

theorem hostPiece_cmds (fn : Nat) (h : Home) (write : Bool) (data : List Byte) (place n : Nat) (s : State) :
    (hostPiece fn h write data place n s).front.cmds = s.front.cmds := by
  unfold hostPiece
  split
  · split
    · rfl
    · exact hostServe_cmds _ write data place n s
  · exact hostServe_cmds h write data place n s

theorem hostPieces_cmds (fn : Nat) (write : Bool) (data : List Byte) (ps : List (Home × Nat)) (place : Nat) (s : State) :
    (hostPieces fn write data ps place s).front.cmds = s.front.cmds := by
  induction ps generalizing place s with
  | nil => rfl
  | cons p ps ih => rw [hostPieces, ih, hostPiece_cmds]

theorem applyBell_cmds (b : Bell) (s : State) : (applyBell b s).front.cmds = s.front.cmds := by
  unfold applyBell
  dsimp only
  split
  · rfl
  split
  · rw [raise_front]
  · rfl

theorem startWake_front (s : State) : (startWake s).front = s.front := by
  unfold startWake
  split <;> rfl

theorem takeBell_cmds (b : Bell) (s : State) : (takeBell b s).front.cmds = s.front.cmds := by
  unfold takeBell
  split
  · exact applyBell_cmds b s
  · rw [startWake_front]

theorem takePost_cmds (fn : Nat) (p : Post) (s : State) : (takePost fn p s).front.cmds = s.front.cmds := by
  unfold takePost
  split
  · split
    · exact hostPieces_cmds _ _ _ _ _ s
    · rw [raise_front]
  · split
    · exact hostPieces_cmds _ _ _ _ _ _
    · show (raise .addrErr s).front.cmds = s.front.cmds
      rw [raise_front]
  · exact takeBell_cmds _ s

theorem drainPosts_cmds (fn fuel : Nat) (s : State) : (drainPosts fn fuel s).front.cmds = s.front.cmds := by
  induction fuel generalizing s with
  | zero => rfl
  | succ fuel ih =>
    unfold drainPosts
    split
    · rfl
    split
    · rfl
    · exact (ih _).trans (takePost_cmds _ _ _)

theorem drainAll_cmds (s : State) : (drainAll s).front.cmds = s.front.cmds := by
  unfold drainAll
  exact foldl_cmds (fun s fn => drainPosts_cmds fn _ s) _ s

/-! ### Locks and flights -/

theorem countWait_cmds (k dt : Nat) (s : State) : (countWait k dt s).front.cmds = s.front.cmds := by
  unfold countWait
  dsimp only
  split <;> rfl

theorem serveBank_cmds (k b n : Nat) (s : State) : (serveBank k b n s).front.cmds = s.front.cmds := by
  unfold serveBank
  rw [foldl_cmds fun s w => countWait_cmds k _ s, setBank_cmds]

theorem settle_cmds (k b fuel : Nat) (s : State) : (settle k b fuel s).front.cmds = s.front.cmds := by
  induction fuel generalizing s with
  | zero => rfl
  | succ fuel ih =>
    unfold settle
    split
    · split
      · exact (ih _).trans (hostServe_cmds _ _ _ _ _ _)
      · rfl
    · split
      · rfl
      · exact (ih _).trans (serveBank_cmds k b _ s)

theorem settleBank_cmds (k b : Nat) (s : State) : (settleBank k b s).front.cmds = s.front.cmds := settle_cmds k b _ s

theorem lockBank_cmds (k b : Nat) (s : State) : (lockBank k b s).front.cmds = s.front.cmds := by
  unfold lockBank flushBank
  dsimp only
  rw [settleBank_cmds, serveBank_cmds, flushWhere_cmds, setBank_cmds]

theorem haltStack_cmds (p : Desc → Bool) (s : State) (k : Nat) : (haltStack p s k).front.cmds = s.front.cmds := by
  unfold haltStack
  dsimp only
  rw [drainAll_cmds, foldl_cmds fun s b => (lockBank_cmds k b _).trans (setBank_cmds s k b _), setStack_cmds]

theorem haltFlights_cmds (p : Desc → Bool) (s : State) : (haltFlights p s).front.cmds = s.front.cmds := by
  unfold haltFlights
  exact foldl_cmds (haltStack_cmds p) _ s

theorem stopTile_cmds (s : State) (t : Nat) : (stopTile s t).front.cmds = s.front.cmds := rfl

end Sys2Proof.Machine
end

section
/-!
A failed check rejects its command (R48, R52, R55, R292).
-/

namespace Sys2Proof.Machine

/-! ## Rows that judge a check (R48, R55) -/

/-- A command whose row comes to the judging of a check on `s1` is rejected by what fails the check. -/
theorem rejectsWith_of_judged {α : Type} {s1 s : State} {id op : Nat} {c : Cmd} {chk : Chk α} {i : Instr}
    {go : α → State → State} (acts : Runs s op id c → exec i s = .next (judged c chk s1 go)) :
    RejectsWith s1 s id c op chk i := by
  intro m ps runs rejects
  rw [acts runs, judged_rejects c chk s1 go m ps rejects]

/-- Settles O7: each row is its check's `judged`, once what stands before the check is out of the way. -/
theorem failedChecksReject : Obligations.FailedChecksReject := by
  unfold Obligations.FailedChecksReject
  rintro s _ id c rfl
  refine ⟨?rows, fun unswitched => ?partitions, fun free => ?afterSteps,
    fun free => ?close, fun m t x found => ?rejected⟩
  case rows =>
    refine ⟨?_, ?_, ?_, fun h => ?memCopy, ?_, ?_, ?_, ?_, ?_, ?_, ?_, ?_, ?_, ?_, ?_, fun h => ?prefixInsert,
      fun h => ?prefixInsertZero, ?_, fun h => ?registerWeights, ?_, ?_, ?_, ?_, ?_, ?_, ?_, fun h => ?lendPool, ?_,
      fun h => ?attestReport, ?_, fun h => ?responseLoad, ?_, ?_, ?_, fun h => ?memFill, fun h => ?neighbourRead,
      fun h => ?faultLog, ?_, fun h => ?sleep, ?_, fun h => ?linkRekey, fun h => ?launch, fun h idle => ?stepRun⟩
    case memCopy | registerWeights | lendPool | attestReport | responseLoad | memFill | neighbourRead | faultLog |
        linkRekey => exact rejectsWith_of_judged fun runs => by unfold exec; exact onCmd_comes runs (if_neg h)
    case prefixInsert => exact rejectsWith_of_judged fun runs => by unfold exec; exact onCmd_comes runs (whenZero_nonzero h _ _)
    case prefixInsertZero => exact rejectsWith_of_judged fun runs => by unfold exec; exact onCmd_comes runs (whenZero_zero h _ _)
    case sleep => exact rejectsWith_of_judged fun runs => by unfold exec; exact onCmd_comes runs (if_neg (by simp [h]))
    case launch => exact rejectsWith_of_judged fun runs => by unfold exec; exact onCmd_comes runs (if_neg (not_not_intro h))
    case stepRun =>
      exact rejectsWith_of_judged fun runs => by
        unfold exec; exact onCmd_comes runs ((if_neg (not_not_intro h)).trans (by simp only [idle]; rfl))
    all_goals exact rejectsWith_of_judged fun runs => by unfold exec; exact onCmd_runs runs _
  case partitions =>
    have mine : ¬ (s.parts.any fun x => decide (x.2.switchCmd = some c.id)) = true := by simp [unswitched]
    constructor <;> exact rejectsWith_of_judged fun runs => by unfold exec; exact onCmd_comes runs (if_neg mine)
  case afterSteps =>
    refine ⟨?_, fun h => ?editPages, ?_, ?_, fun h => ?lookup, fun h => ⟨?promote, ?demote⟩,
      fun h => ⟨?editPagesZero, ?lookupZero⟩, fun h => ⟨?promoteZero, ?demoteZero⟩, fun h => ?shipKv, ?_⟩
    case editPages | lookup | promote | demote =>
      exact rejectsWith_of_judged fun runs => by
        unfold exec; exact onCmd_comes runs ((afterSteps_free free _).trans (whenZero_nonzero h _ _))
    case editPagesZero | lookupZero | promoteZero | demoteZero =>
      exact rejectsWith_of_judged fun runs => by
        unfold exec; exact onCmd_comes runs ((afterSteps_free free _).trans (whenZero_zero h _ _))
    case shipKv =>
      exact rejectsWith_of_judged fun runs => by
        unfold exec; exact onCmd_comes runs ((if_neg (Nat.not_le.2 h)).trans (afterSteps_free free _))
    all_goals exact rejectsWith_of_judged fun runs => by unfold exec; exact onCmd_comes runs (afterSteps_free free _)
  case close => exact rejectsWith_of_judged fun runs => by unfold exec; exact onCmd_comes runs (afterSteps_free free _)
  case rejected =>
    exact ⟨cmdAt_updCmd_eq found _ fun _ => rfl, fun j other => cmdAt_updCmd_ne other _ t fun _ => rfl, rfl⟩

end Sys2Proof.Machine
end

section
/-!
Packets leave their ring and start as commands (R28, R35 to R43, R48 to R51, R99).
-/

namespace Sys2Proof.Machine

/-! ## Taking a packet (R28, R35) -/

theorem packetTake_takes {s : State} {n : Nat} {ps : List (Home × Nat)} {g : Got × State} (turn : pickQueue s = some n)
    (slot : ringPieces s (queueAt s n) (plus (queueAt s n).sqBase (64 * (queueAt s n).sqHead)) 64 = some ps)
    (free : reachOf s (.rings n) ps = .go) (read : g = getPieces false ps (noteWaits (.rings n) ps s))
    (sound : g.1.poisoned = 0) : packetTake true s = judgePacket n g.1.bytes (charge none g.1 g.2) := by
  subst read
  simp [packetTake, turn, slot, free, sound]

/-! ## Judging a packet (R41, R42, R48 to R51) -/

/-- The state once packet `c` has left its slot of queue `n` and stands last in the ring order. -/
def slotFreed (n : Nat) (c : Cmd) (s : State) : State :=
  setQueue { s with front := { s.front with nextCmd := s.front.nextCmd + 1, last := if n = 0 then s.front.last else n } } n
    { queueAt s n with
      sqHead := ((queueAt s n).sqHead + 1) % (queueAt s n).size, order := (queueAt s n).order ++ [⟨c.id, c.seq, false⟩] }

theorem queueAt_slotFreed (n : Nat) (c : Cmd) (s : State) : queueAt (slotFreed n c s) n = { queueAt s n with
    sqHead := ((queueAt s n).sqHead + 1) % (queueAt s n).size
    order := (queueAt s n).order ++ [⟨c.id, c.seq, false⟩] } := by
  rw [slotFreed, queueAt_setQueue, if_pos rfl]

/-- A packet judged: turned away for its version, its address or its number, bound as a duplicate, or taken as a command
that steps 4 to 6 of R48 may still reject. -/
theorem judgePacket_eq (n : Nat) (bs : List Byte) (s : State) : ∀ c, c = parsePacket s.front.nextCmd n bs →
    judgePacket n bs s =
      if field bs 3 1 ≠ 1 then addCmd { c with kept := false } (some (.badParam 3)) (slotFreed n c s)
      else if field bs 8 2 ≠ n || c.part ≠ (queueAt s n).part then
        addCmd { c with kept := false } (some ⟨0x14, 2, 0⟩) (slotFreed n c s)
      else match (queueAt s n).judge c.seq with
        | .stale => addCmd { c with kept := false } (some ⟨0x13, 0, 0⟩) (slotFreed n c s)
        | .duplicate => bindDup n c (slotFreed n c s)
        | .accept => addCmd c (packetFault c)
          (setQueue (slotFreed n c s) n ((queueAt (slotFreed n c s) n).accept c.seq)) := by
  rintro c rfl
  rfl

section
variable {n : Nat} {bs : List Byte} {s : State} {c : Cmd} (parsed : c = parsePacket s.front.nextCmd n bs)
include parsed

theorem judgePacket_version (bad : field bs 3 1 ≠ 1) :
    judgePacket n bs s = addCmd { c with kept := false } (some (.badParam 3)) (slotFreed n c s) := by
  rw [judgePacket_eq n bs s c parsed, if_pos bad]

theorem judgePacket_elsewhere (version : field bs 3 1 = 1)
    (other : field bs 8 2 ≠ n ∨ field bs 10 1 ≠ (queueAt s n).part) :
    judgePacket n bs s = addCmd { c with kept := false } (some ⟨0x14, 2, 0⟩) (slotFreed n c s) := by
  have part : c.part = field bs 10 1 := by rw [parsed]; rfl
  rw [judgePacket_eq n bs s c parsed, if_neg (not_not_intro version), if_pos (by simpa [part] using other)]

variable (version : field bs 3 1 = 1) (queue : field bs 8 2 = n) (part : field bs 10 1 = (queueAt s n).part)
include version queue part

theorem judgePacket_addressed : judgePacket n bs s = match (queueAt s n).judge c.seq with
    | .stale => addCmd { c with kept := false } (some ⟨0x13, 0, 0⟩) (slotFreed n c s)
    | .duplicate => bindDup n c (slotFreed n c s)
    | .accept => addCmd c (packetFault c)
      (setQueue (slotFreed n c s) n ((queueAt (slotFreed n c s) n).accept c.seq)) := by
  have samePart : c.part = (queueAt s n).part := by rw [← part, parsed]; rfl
  rw [judgePacket_eq n bs s c parsed, if_neg (not_not_intro version), if_neg (by simp [queue, samePart])]

theorem judgePacket_stale (judged : (queueAt s n).judge c.seq = .stale) :
    judgePacket n bs s = addCmd { c with kept := false } (some ⟨0x13, 0, 0⟩) (slotFreed n c s) := by
  simp only [judgePacket_addressed parsed version queue part, judged]

theorem judgePacket_duplicate (judged : (queueAt s n).judge c.seq = .duplicate) :
    judgePacket n bs s = bindDup n c (slotFreed n c s) := by
  simp only [judgePacket_addressed parsed version queue part, judged]

theorem judgePacket_accept (judged : (queueAt s n).judge c.seq = .accept) :
    judgePacket n bs s = addCmd c (packetFault c)
      (setQueue (slotFreed n c s) n ((queueAt (slotFreed n c s) n).accept c.seq)) := by
  simp only [judgePacket_addressed parsed version queue part, judged]

end

theorem queueAt_addCmd (c : Cmd) (m : Option Mark) (s : State) (n : Nat) :
    queueAt (addCmd c m s) n = queueAt s n := rfl

theorem queueAt_bindDup (n : Nat) (c : Cmd) (s : State) : ∃ d, queueAt (bindDup n c s) n =
    { queueAt s n with dups := (queueAt s n).dups ++ [d] } := by
  rw [bindDup, queueAt_setQueue, if_pos rfl]
  exact ⟨_, rfl⟩

/-- Whatever is said of the packet, the head moves on one slot. -/
theorem judgePacket_sqHead (n : Nat) (bs : List Byte) (s : State) :
    (queueAt (judgePacket n bs s) n).sqHead = ((queueAt s n).sqHead + 1) % (queueAt s n).size := by
  rw [judgePacket_eq n bs s _ rfl]
  split
  · rw [queueAt_addCmd, queueAt_slotFreed]
  split
  · rw [queueAt_addCmd, queueAt_slotFreed]
  split
  · rw [queueAt_addCmd, queueAt_slotFreed]
  · obtain ⟨d, bound⟩ := queueAt_bindDup n (parsePacket s.front.nextCmd n bs) (slotFreed n (parsePacket s.front.nextCmd n bs) s)
    rw [bound, queueAt_slotFreed]
  · rw [queueAt_addCmd, queueAt_setQueue, if_pos rfl, queueAt_slotFreed]; rfl

theorem addCmd_cmds (c : Cmd) (m : Option Mark) (s : State) : ∃ d, (addCmd c m s).front.cmds = s.front.cmds ++ [d] ∧
    d.seq = c.seq ∧ d.opcode = c.opcode ∧ d.queue = c.queue ∧ (d.rejected = false → d.phase = c.phase) := by
  cases m with
  | none => exact ⟨c, rfl, rfl, rfl, rfl, fun _ => rfl⟩
  | some m => exact ⟨_, rfl, rfl, rfl, rfl, nofun⟩

/-- A packet that enters ended, after changes to the front end that keep the commands in flight, is turned away. -/
theorem addCmd_turnedAway {s u : State} {c : Cmd} (frame : u = { s with front := u.front })
    (cmds : u.front.cmds = s.front.cmds) (kept : Bool) (m : Mark) :
    TurnedAway s (addCmd { c with kept := kept } (some m) u) c m := by
  have time : now u = now s := by rw [frame]; rfl
  refine ⟨?_, kept, ?_⟩
  · rw [addCmd, frame]
  · simp only [addCmd, cmds, time]

/-- The packet is turned away where the new number is accepted and step 4, 5 or 6 of R48 fails. -/
theorem addCmd_fault_turnedAway {s : State} {n : Nat} {c d : Cmd} {q : Queue} {m : Mark} (fault : packetFault c = some m) :
    TurnedAway s (addCmd c (packetFault c) (setQueue (slotFreed n d s) n q)) c m := by
  rw [fault]
  exact addCmd_turnedAway rfl rfl c.kept m

section
variable {c : Cmd} {r : OpRow}

theorem packetFault_opcode (unlisted : opRow c.opcode = none) : packetFault c = some ⟨0x10, 0, 0⟩ := by
  simp only [packetFault, unlisted]

variable (listed : opRow c.opcode = some r)
include listed

theorem packetFault_queue (admin : r.q0 = true) (other : c.queue ≠ 0) : packetFault c = some ⟨0x14, 5, 0⟩ := by
  simp [packetFault, listed, admin, other]

/-- Where queue 0 or an opcode of every queue passes step 5, the parameter length decides. -/
theorem packetFault_allowed (allowed : r.q0 = false ∨ c.queue = 0) : packetFault c =
    if !c.ext then (if c.units8 = r.units then none else some ⟨0x12, r.units, 0⟩)
    else if c.units8 < max 1 r.units then some ⟨0x12, max 1 r.units, 0⟩ else none := by
  have here : ¬ (r.q0 && decide (c.queue ≠ 0)) = true := by
    rcases allowed with h | h <;> simp [h]
  simp only [packetFault, listed]
  rw [if_neg here]

theorem packetFault_units (allowed : r.q0 = false ∨ c.queue = 0) (plain : c.ext = false) (units : c.units8 ≠ r.units) :
    packetFault c = some ⟨0x12, r.units, 0⟩ := by
  simp [packetFault_allowed listed allowed, plain, units]

theorem packetFault_extUnits (allowed : r.q0 = false ∨ c.queue = 0) (ext : c.ext = true)
    (units : c.units8 < max 1 r.units) : packetFault c = some ⟨0x12, max 1 r.units, 0⟩ := by
  rw [packetFault_allowed listed allowed, if_neg (by simp [ext]), if_pos units]

end

/-! ## The replay window (R50) -/

section
variable {q : Queue} {n x : W32}

theorem judge_first (none : q.newest = none) : q.judge x = .accept := by simp only [Queue.judge, none]

theorem judge_newer (newest : q.newest = some n) (lo : 1 ≤ (x - n).toNat) (hi : (x - n).toNat ≤ 2 ^ 31 - 1) :
    q.judge x = .accept := by
  simp only [Queue.judge, newest, decide_eq_true lo, decide_eq_true hi, Bool.and_self, if_true]

/-- A number in the window is not ahead of the newest one. -/
theorem not_newer_of_inWindow (inside : (n - x).toNat ≤ 4095) : ¬ (1 ≤ (x - n).toNat ∧ (x - n).toNat ≤ 2 ^ 31 - 1) := by
  bv_omega

theorem judge_inWindow (newest : q.newest = some n) (inside : (n - x).toNat ≤ 4095) :
    q.judge x = if q.window.any (·.1 == x) then .duplicate else .accept := by
  have old := not_newer_of_inWindow inside
  simp only [Queue.judge, newest]
  rw [if_neg (by simpa using old), if_pos inside]

theorem judge_stale (newest : q.newest = some n) (older : 4096 ≤ (n - x).toNat) (behind : 2 ^ 31 ≤ (x - n).toNat) :
    q.judge x = .stale := by
  simp only [Queue.judge, newest]
  have old : ¬ (decide (1 ≤ (x - n).toNat) && decide ((x - n).toNat ≤ 2 ^ 31 - 1)) = true := by
    simp only [Bool.and_eq_true, decide_eq_true_eq]
    omega
  rw [if_neg old, if_neg (Nat.not_le.2 older)]

end

/-! ## Starting a command (R36 to R38, R43, R99) -/

theorem exec_commandStart_taken {s : State} {id : Nat} {c : Cmd} (runs : running s = true) (found : cmdAt s id = some c)
    (taken : c.phase = .taken) : exec (.commandStart id) s = .next (commandStart c s) := by
  unfold exec
  simp [execCommandStart, whenRunning_runs runs, found, taken]

theorem commandStart_headFault {s : State} {c : Cmd} {m : Mark} (turn : turnToStart s c = true)
    (fault : headFault s c = some m) : commandStart c s = rejectCmd c.id m s := by
  simp [commandStart, turn, fault]

/-- A command whose header passes, whose job runs and whose parameters are at hand starts with them. -/
theorem commandStart_startWith {s : State} {c : Cmd} (turn : turnToStart s c = true) (sound : headFault s c = none)
    (job : c.job = 0 ∨ jobRuns s c.job = true) (atHand : c.ext = false ∨ c.blockRead = true) :
    commandStart c s = startWith c s := by
  have resident : ¬ (decide (c.job ≠ 0) && !jobRuns s c.job) = true := by
    rcases job with job | job <;> simp [job]
  have read : ¬ (c.ext && !c.blockRead) = true := by
    rcases atHand with ext | ext <;> simp [ext]
  simp only [commandStart, turn, sound]
  rw [if_neg resident, if_neg read]
  rfl

theorem startWith_homeless {s : State} {c : Cmd} (h : c.homeless = true) :
    startWith c s = rejectCmd c.id (.badParam 12) s := if_pos h

theorem startWith_stray {s : State} {c : Cmd} {off : Nat} (home : c.homeless = false)
    (stray : (opRow c.opcode).bind (·.stray c.params) = some off) : startWith c s = rejectCmd c.id (c.bad off) s := by
  simp [startWith, home, stray]

theorem startWith_clean {s : State} {c : Cmd} (home : c.homeless = false)
    (clean : (opRow c.opcode).bind (·.stray c.params) = none) :
    startWith c s = if unitHeld s c then s else beginCmd c s := by
  simp [startWith, home, clean]

theorem cmdAt_takeSlots {u : State} {c x : Cmd} (h : cmdAt u c.id = some x) : cmdAt (takeSlots c u) c.id = some { x with
    slots := some (x.slots.getD (partAt u c.part).slots), guards := some (x.guards.getD (partAt u c.part).guards) } :=
  cmdAt_updCmd_eq h _ fun _ => rfl

/-- Settles O12: the packet's slot is freed first, then each step of R48 either turns it away or passes it on; a taken
command starts once its header and its parameters pass. -/
theorem packetsBecomeCommands : Obligations.PacketsBecomeCommands := by
  unfold Obligations.PacketsBecomeCommands
  refine ⟨⟨?take, fun s n bs => judgePacket_sqHead n bs s, ?accept, ?duplicate, ?turnedAway, ?window⟩, ?start,
    fun u c x => cmdAt_takeSlots⟩
  case take =>
    intro s n ps runs undrained turn slot free g read sound
    unfold exec execPacketTake
    simp only [whenRunning_runs runs, undrained, ← packetTake_takes turn slot free read sound]
    rfl
  case accept =>
    intro s n bs version queue part judged
    rw [judgePacket_accept rfl version queue part judged]
    obtain ⟨d, cmds, seq, opcode, at_queue, phase⟩ := addCmd_cmds (parsePacket s.front.nextCmd n bs)
      (packetFault (parsePacket s.front.nextCmd n bs)) _
    exact ⟨d, cmds, seq, opcode, at_queue, phase⟩
  case duplicate =>
    intro s n bs version queue part judged
    rw [judgePacket_duplicate rfl version queue part judged]
    obtain ⟨d, bound⟩ := queueAt_bindDup n (parsePacket s.front.nextCmd n bs)
      (slotFreed n (parsePacket s.front.nextCmd n bs) s)
    refine ⟨rfl, ?_⟩
    rw [bound, queueAt_slotFreed]
    exact List.length_append
  case turnedAway =>
    rintro s _ n bs c parsed rfl
    refine ⟨fun bad => ?version, fun version => ⟨fun other => ?elsewhere, fun queue part =>
      ⟨fun judged => ?stale, fun judged => ?accepted⟩⟩⟩
    case version => rw [judgePacket_version parsed bad]; exact addCmd_turnedAway rfl rfl false _
    case elsewhere => rw [judgePacket_elsewhere parsed version other]; exact addCmd_turnedAway rfl rfl false _
    case stale => rw [judgePacket_stale parsed version queue part judged]; exact addCmd_turnedAway rfl rfl false _
    case accepted =>
      rw [judgePacket_accept parsed version queue part judged]
      have atQueue : c.queue = n := by rw [parsed]; rfl
      have opcode : c.opcode = field bs 0 2 := by rw [parsed]; rfl
      have ext : c.ext = bit (field bs 2 1) 4 := by rw [parsed]; rfl
      have units : c.units8 = field bs 11 1 := by rw [parsed]; rfl
      rw [← opcode, ← ext, ← units, ← atQueue]
      exact ⟨fun unlisted => addCmd_fault_turnedAway (packetFault_opcode unlisted), fun r listed =>
        ⟨fun admin other => addCmd_fault_turnedAway (packetFault_queue listed admin other), fun allowed =>
          ⟨fun plain bad => addCmd_fault_turnedAway (packetFault_units listed allowed plain bad),
            fun extended bad => addCmd_fault_turnedAway (packetFault_extUnits listed allowed extended bad)⟩⟩⟩
  case window =>
    exact fun q n x => ⟨judge_first, fun newest => ⟨judge_newer newest,
      fun inside taken => (judge_inWindow newest inside).trans (if_pos taken),
      fun inside free => (judge_inWindow newest inside).trans (if_neg (by simp [free])), judge_stale newest⟩⟩
  case start =>
    intro s id c runs found taken turn
    rw [exec_commandStart_taken runs found taken]
    refine ⟨fun m fault => by rw [commandStart_headFault turn fault], fun sound job atHand homeless => ?homeless,
      fun sound job atHand home clean free u hu => ?starts, fun sound job atHand home =>
        ⟨fun off stray => ?stray, fun clean held => ?held⟩⟩
    all_goals rw [commandStart_startWith turn sound job atHand]
    case homeless => rw [startWith_homeless homeless]
    case stray => rw [startWith_stray home stray]
    case held => rw [startWith_clean home clean, if_pos held]
    case starts =>
      rw [startWith_clean home clean, if_neg (by simp [free]), hu]
      refine ⟨fun noLaunch noStep => ?plain, fun takes => ?takesSlots⟩
      case plain => simp [beginCmd, noLaunch, noStep]; rfl
      case takesSlots => simp [beginCmd, takes]; rfl

end Sys2Proof.Machine
end

section
/-!
Commands end, reply, time out and are retried (R29, R30, R39, R44 to R46, R51, R54, R397, R505).
-/

namespace Sys2Proof.Machine

/-! ## Rows of the front end -/

theorem exec_commandComplete_meaning (id : Nat) (ok : Bool) (s : State) :
    exec (.commandComplete id ok) s = execCommandComplete id ok s := rfl

theorem exec_duplicateReply_meaning (n : Nat) (ok : Bool) (s : State) :
    exec (.duplicateReply n ok) s = execDuplicateReply n ok s := rfl

theorem exec_commandTimeout_meaning (id : Nat) (s : State) : exec (.commandTimeout id) s = execCommandTimeout id s := rfl

theorem exec_commandRetry_meaning (id cls : Nat) (s : State) :
    exec (.commandRetry id cls) s = execCommandRetry id cls s := rfl

theorem exec_queueRingTimeout_meaning (n : Nat) (s : State) : exec (.queueRingTimeout n) s = execQueueRingTimeout n s := rfl

/-! ## The reply and the shadow (R27, R54) -/

@[simp] theorem toLe_length (n v : Nat) : (toLe n v).length = n := by
  induction n generalizing v with
  | zero => rfl
  | succ n ih => simp [toLe, ih]

theorem reply_bytes_length (r : Reply) : r.bytes.length = 32 := by simp [Reply.bytes]

/-- Clean bytes go to the host as they are. -/
theorem hostBytes_clean (a : Nat) (bs : List Byte) : hostBytes a (clean bs) = bs := by
  have sound : ¬ (clean bs).any (·.2) = true := by simp [clean]
  rw [hostBytes, if_neg sound]
  simp [clean, Function.comp_def]

theorem putPieces_host {a n : Nat} {bs : List Byte} (whole : bs.length = n) (s : State) :
    putPieces [(.host a, n)] (clean bs) s = putHost a (clean bs) s := by
  have all : (clean bs).take n = clean bs := List.take_of_length_le (by simp [clean, whole])
  simp only [putPieces, putHome, all]

theorem memRead_putHost {a n : Nat} {bs : List Byte} (whole : bs.length = n) (s : State) :
    memRead (putHost a (clean bs) s).store.host a n = bs := by
  subst whole
  simp only [putHost, hostBytes_clean, memRead_memWrite_same]

/-- A write to a ring or shadow in host memory that the host accepts. -/
theorem ringWrite_host {s : State} {q : Queue} {a : W64} {h n : Nat} {bs : List Byte} (kept : dropping s q = false)
    (whole : bs.length = n) (place : ringPieces s q a n = some [(.host h, n)]) :
    ringWrite q a bs true s = (true, putHost h (clean bs) s) := by
  subst whole
  simp [ringWrite, kept, place, sluiceBad, putPieces_host rfl]

theorem putReply_host {s : State} {n h : Nat} {r : Reply} {q : Queue} (at_q : q = queueAt s n) (kept : dropping s q = false)
    (place : ringPieces s q (replyAddr q) 32 = some [(.host h, 32)]) :
    putReply n r true s = (true, setQueue (putHost h (clean r.bytes) s) n
      { q with replyTail := (q.replyTail + 1) % q.size }) := by
  subst at_q
  simp [putReply, ringWrite_host kept (reply_bytes_length r) place]
  rfl

theorem putShadow_host {s : State} {n h : Nat} {q : Queue} (at_q : q = queueAt s n) (kept : dropping s q = false)
    (place : ringPieces s q q.shadow 16 = some [(.host h, 16)]) : putShadow n true s =
      putHost h (clean (toLe 4 q.sqHead ++ toLe 4 q.replyTail ++ toLe 4 q.retired.toNat ++ zeros 4)) s := by
  subst at_q
  have whole : (toLe 4 (queueAt s n).sqHead ++ toLe 4 (queueAt s n).replyTail ++ toLe 4 (queueAt s n).retired.toNat ++
    zeros 4).length = 16 := by simp [zeros]
  simp only [putShadow, ringWrite_host kept whole place, if_true]

/-! ## Completing (R45, R46, R51) -/

theorem ringGate_go {s : State} {n : Nat} {ps : List (Home × Nat)}
    (place : ringPieces s (queueAt s n) (replyAddr (queueAt s n)) 32 = some ps) (free : reachOf s (.rings n) ps = .go)
    (go : State → State) : ringGate n s go = go (noteWaits (.rings n) ps s) := by
  simp [ringGate, place, free]

theorem exec_commandComplete_ended {s : State} {id : Nat} {c : Cmd} (runs : running s = true) (found : cmdAt s id = some c)
    (ended : c.phase = .ended) (ok : Bool) : exec (.commandComplete id ok) s = .next (commandComplete c ok s) := by
  simp [exec_commandComplete_meaning, execCommandComplete, whenRunning_runs runs, found, ended]

/-- A command other than SLEEP, with no retry due, no duplicate to answer first and nothing to spoil, leaves the block. -/
theorem commandComplete_retires {s : State} {c : Cmd} {ps : List (Home × Nat)} (settled : c.due = none)
    (sound : c.spoil = false) (awake : c.opcode ≠ 0x0704) (noDup : (queueAt s c.queue).dups.any (·.reply.isSome) = false)
    (place : ringPieces s (queueAt s c.queue) (replyAddr (queueAt s c.queue)) 32 = some ps)
    (free : reachOf s (.rings c.queue) ps = .go) (ok : Bool) :
    commandComplete c ok s = settleResets (retire c ok (noteWaits (.rings c.queue) ps s)) := by
  have mayGo : ¬ (c.due.isSome || (queueAt s c.queue).dups.any (·.reply.isSome)) = true := by simp [settled, noDup]
  rw [commandComplete, if_neg mayGo, if_neg (by simp [awake]), ringGate_go place free]
  simp [sound, awake]

theorem retire_silent {s : State} {c : Cmd} (ok : Bool) (done : c.reply.status = 0) (quiet : c.flag flagReply = false) :
    retire c ok s = putShadow c.queue ok (markDone c.queue c.id
      { keepReply c c.reply (noteOutcome c.id 0 s) with
        front := { (keepReply c c.reply (noteOutcome c.id 0 s)).front with cmds := s.front.cmds.filter (·.id != c.id) } }) := by
  simp [retire, done, quiet]
  rfl

theorem retire_replied {s u s1 : State} {ok : Bool} {c : Cmd} {w : Bool × State}
    (replies : c.reply.status ≠ 0 ∨ c.flag flagReply = true)
    (hu : u = keepReply c c.reply (noteOutcome c.id c.reply.status.toNat s))
    (hs1 : s1 = { u with front := { u.front with cmds := u.front.cmds.filter (·.id != c.id) } })
    (hw : w = putReply c.queue c.reply ok s1) :
    retire c ok s = if w.1 then putShadow c.queue ok (markDone c.queue c.id
      (if c.flag flagInterrupt && !replyDropped s1 (queueAt s1 c.queue) then raise (.reply c.queue) w.2 else w.2))
      else stopQueue c.queue w.2 := by
  subst hw hs1 hu
  have writes : (decide (c.reply.status ≠ 0) || c.flag flagReply) = true := by simpa using replies
  rw [retire]
  simp only
  rw [if_pos writes]

theorem duplicateReply_found {s : State} {n : Nat} {ok : Bool} {d : Dup} {r : Reply} {ps : List (Home × Nat)} {u : State}
    {w : Bool × State} (found : (queueAt s n).dups.find? (·.reply.isSome) = some d) (reply : d.reply = some r)
    (place : ringPieces s (queueAt s n) (replyAddr (queueAt s n)) 32 = some ps) (free : reachOf s (.rings n) ps = .go)
    (hu : u = setQueue (noteWaits (.rings n) ps s) n { queueAt (noteWaits (.rings n) ps s) n with
      dups := (queueAt s n).dups.filter (·.pos != d.pos) })
    (hw : w = putReply n { r with status := 3, detail := r.status } ok u) :
    duplicateReply n ok s = settleResets (if w.1 then putShadow n ok (markDone n d.pos
      (if d.interrupt && !replyDropped u (queueAt u n) then raise (.reply n) w.2 else w.2)) else stopQueue n w.2) := by
  subst hw hu
  rw [duplicateReply]
  simp only [found, reply, ringGate_go place free, Option.getD_some]
  exact (apply_ite settleResets _ _ _).symm

/-! ## Timeouts and retries (R39, R44, R397) -/

theorem exec_commandTimeout_found {s : State} {id : Nat} {c : Cmd} (runs : running s = true) (found : cmdAt s id = some c) :
    exec (.commandTimeout id) s = .next (commandTimeout c s) := by
  simp [exec_commandTimeout_meaning, execCommandTimeout, whenRunning_runs runs, found]

theorem commandTimeout_started {s : State} {c : Cmd} (started : c.phase = .started)
    (late : (queueAt s c.queue).timeout ≤ counted s c) : commandTimeout c s =
      if c.due.isSome then repairTimeout c s
      else if c.tiles.any fun t => (tileAt s t).running then programTimeout (some c.id) s else timeoutEnd c s := by
  simp only [commandTimeout, started]
  rw [if_neg (Nat.not_lt.2 late)]

theorem commandTimeout_taken {s : State} {c : Cmd} {t : Nat} (taken : c.phase = .taken) (since : c.waitSince = some t)
    (late : t + (queueAt s c.queue).timeout ≤ now s) : commandTimeout c s = rejectCmd c.id (.timeout 0) s := by
  simp only [commandTimeout, taken, since]
  rw [if_pos late]

theorem stopQueue_running {s : State} {n : Nat} (live : bellsLive s n = true) (going : (queueAt s n).stopped = false) :
    stopQueue n s = raise .ringErr (setQueue s n { queueAt s n with stopped := true }) := by
  have listed : tabHas s.front.queues n = true := by
    unfold bellsLive at live
    exact (Bool.and_eq_true _ _ ▸ live).1
  simp [stopQueue, going, listed]

/-- A retry that is due and waits for no repair is not a fault of its own. -/
theorem commandRetry_due {s : State} {id cls : Nat} {c : Cmd} (found : cmdAt s id = some c) (due : c.due = some cls)
    (repaired : repairPending s id = false) : commandRetry id cls c s = retryCmd id cls s := by
  simp [commandRetry, found, due, repaired]

/-- Stopping a command's runs and tiles leaves the command itself for the retry to set back. -/
theorem cmdAt_retryCmd {s : State} {id : Nat} {c : Cmd} (found : cmdAt s id = some c) (cls : Nat) :
    cmdAt (retryCmd id cls s) id = some { c with
      phase := if c.ext && !c.blockRead then .taken else .started, rejected := false, marks := [], corrected := 0
      poisoned := 0, poisonClass := 0, clipped := 0, empty := 0, progress := 0, tiles := [], admitted := none
      awaiting := [], fetched := [], tainted := [], blocks := [], asking := none, ctl := 0, touched := false
      parity := none, due := none, retried := some cls } := by
  unfold retryCmd
  simp only [found]
  refine cmdAt_updCmd_eq ?_ _ fun _ => rfl
  rw [← found]
  refine cmdAt_of_cmds ?_ id
  show (List.foldl stopTile _ c.tiles).front.cmds = _
  rw [foldl_cmds stopTile_cmds, haltFlights_cmds]

/-- Settles O13: an ended command retires through the reply, the ring order and the shadow; a started or taken one times out
by its phase; a due retry sets the command back. -/
theorem commandsEnd : Obligations.CommandsEnd := by
  unfold Obligations.CommandsEnd
  refine ⟨⟨?complete, fun s ok c done quiet => retire_silent ok done quiet, ?replied, ?written, fun c => ⟨rfl, rfl, rfl, rfl, rfl⟩,
    ?duplicate⟩, ⟨?started, ?taken, ?rings⟩, ?retry⟩
  case complete =>
    rintro s id ok c ps _ runs found ended settled sound awake noDup place free rfl
    rw [exec_commandComplete_ended runs found ended, commandComplete_retires settled sound awake noDup place free]
  case replied =>
    intro s u s1 ok c w replies hu hs1 hw
    rw [retire_replied replies hu hs1 hw]
    exact ⟨fun written => if_pos written, fun lost => if_neg (by simp [lost])⟩
  case written =>
    intro s n r q at_q kept
    refine ⟨fun a place => ⟨_, putReply_host at_q kept place, ?tail, ?bytes⟩, fun a place => ?shadow⟩
    case tail => rw [queueAt_setQueue, if_pos rfl]
    case bytes => exact memRead_putHost (reply_bytes_length r) s
    case shadow =>
      rw [putShadow_host at_q kept place]
      exact memRead_putHost (by simp [zeros]) s
  case duplicate =>
    rintro s n ok d r ps _ unit runs found reply place free rfl
    refine ⟨_, _, rfl, rfl, ?_⟩
    rw [exec_duplicateReply_meaning, execDuplicateReply, onUnit_inside unit, whenRunning_runs runs, duplicateReply_found found reply place free rfl rfl]
  case started =>
    intro s id c runs found started late
    rw [exec_commandTimeout_found runs found, commandTimeout_started started late]
  case taken =>
    intro s id c t runs found taken since late
    rw [exec_commandTimeout_found runs found, commandTimeout_taken taken since late]
  case rings =>
    intro s n unit runs live going
    rw [exec_queueRingTimeout_meaning, execQueueRingTimeout, onUnit_inside unit, whenRunning_runs runs, if_pos live, stopQueue_running live going]
  case retry =>
    intro s id cls c runs found untaken due repaired
    refine ⟨?_, _, cmdAt_retryCmd found cls, rfl, rfl, rfl, ?_, rfl, rfl, rfl⟩
    · simp [exec_commandRetry_meaning, execCommandRetry, whenRunning_runs runs, found, untaken, commandRetry_due found due repaired]
    · simp [Cmd.retriable]

end Sys2Proof.Machine
end

section
/-!
The admin queue's registers and the doorbells (R28 to R34, R196, R488).
-/

namespace Sys2Proof.Machine

/-! ## Rows of the host's writes -/

theorem exec_adminQueueEnable_meaning (v : W32) (s : State) :
    exec (.adminQueueEnable v) s = execAdminQueueEnable v s := rfl

theorem exec_adminQueueDisable_meaning (v : W32) (s : State) :
    exec (.adminQueueDisable v) s = execAdminQueueDisable v s := rfl

theorem exec_adminQueueDrained_meaning (s : State) : exec .adminQueueDrained s = .next (adminDrained s) := rfl

theorem exec_sqTailWrite_meaning (fn q v : Nat) (stores : List (Nat × Byte)) (s : State) :
    exec (.sqTailWrite fn q v stores) s = execSqTailWrite fn q v stores s := rfl

theorem exec_replyHeadWrite_meaning (fn q v : Nat) (s : State) :
    exec (.replyHeadWrite fn q v) s = execReplyHeadWrite fn q v s := rfl

theorem exec_sqTailWrite {fn q : Nat} (unit : fn < 5) (queue : q < 256) (v : Nat) (stores : List (Nat × Byte)) (s : State) :
    exec (.sqTailWrite fn q v stores) s = .next (ringBell fn ⟨q, false, v⟩ (hostStores stores s)) := by
  rw [exec_sqTailWrite_meaning, execSqTailWrite, if_pos queue, onUnit_inside unit]

theorem exec_replyHeadWrite {fn q : Nat} (unit : fn < 5) (queue : q < 256) (v : Nat) (s : State) :
    exec (.replyHeadWrite fn q v) s = .next (ringBell fn ⟨q, true, v⟩ s) := by
  rw [exec_replyHeadWrite_meaning, execReplyHeadWrite, if_pos queue, onUnit_inside unit]

theorem exec_adminQueueEnable_served {s : State} (up : hostUp s = true) (served : offServed 0x2018 s = true) (v : W32) :
    exec (.adminQueueEnable v) s = .next (adminCfgWrite (v ||| 0x80000000) s) := by
  rw [exec_adminQueueEnable_meaning, execAdminQueueEnable, up, served]; rfl

theorem exec_adminQueueDisable_served {s : State} (up : hostUp s = true) (served : offServed 0x2018 s = true) (v : W32) :
    exec (.adminQueueDisable v) s = .next (adminCfgWrite (v &&& 0x7FFFFFFF) s) := by
  rw [exec_adminQueueDisable_meaning, execAdminQueueDisable, up, served]; rfl

/-! ## QUEUE.ADMIN_CFG (R33, R34, R488) -/

/-- The admin registers after ADMIN_CFG is written, before anything starts or waits. -/
def adminWritten (value : W32) (s : State) : Admin :=
  { s.front.admin with cfg := value &&& 0x800FFFFF, enablePending := false }

def setAdmin (a : Admin) (s : State) : State := { s with front := { s.front with admin := a } }

theorem enabled_of_set (v : W32) (s : State) : (adminWritten (v ||| 0x80000000) s).enabled = true := by
  simp [adminWritten, Admin.enabled]

theorem not_enabled_of_cleared (v : W32) (s : State) : (adminWritten (v &&& 0x7FFFFFFF) s).enabled = false := by
  simp [adminWritten, Admin.enabled]

theorem adminCfgWrite_disables {value : W32} {s : State} (off : (adminWritten value s).enabled = false) :
    adminCfgWrite value s = setAdmin { adminWritten value s with halting := (queueAt s 0).active } s :=
  if_pos (by rw [Bool.not_eq_true']; exact off)

section
variable {value : W32} {s : State} (on : (adminWritten value s).enabled = true)
include on

theorem adminCfgWrite_pends (active : (queueAt s 0).active = true) : adminCfgWrite value s =
    setAdmin { adminWritten value s with enablePending := s.front.admin.halting } s :=
  (if_neg (by rw [Bool.not_eq_true', Bool.not_eq_false]; exact on)).trans (if_pos active)

variable (inactive : (queueAt s 0).active = false)
include inactive

theorem adminCfgWrite_judges : adminCfgWrite value s =
    if !(adminWritten value s).good then raise .adminCfg (setAdmin (adminWritten value s) s)
    else if s.boot.ready then adminStart (setAdmin (adminWritten value s) s) else setAdmin (adminWritten value s) s :=
  (if_neg (by rw [Bool.not_eq_true', Bool.not_eq_false]; exact on)).trans (if_neg (by simp [inactive]))

theorem adminCfgWrite_bad (bad : (adminWritten value s).good = false) :
    adminCfgWrite value s = raise .adminCfg (setAdmin (adminWritten value s) s) := by
  rw [adminCfgWrite_judges on inactive, bad]; rfl

theorem adminCfgWrite_early (good : (adminWritten value s).good = true) (early : s.boot.ready = false) :
    adminCfgWrite value s = setAdmin (adminWritten value s) s := by
  rw [adminCfgWrite_judges on inactive, good, early]; rfl

theorem adminCfgWrite_starts (good : (adminWritten value s).good = true) (ready : s.boot.ready = true) :
    adminCfgWrite value s = adminStart (setAdmin (adminWritten value s) s) := by
  rw [adminCfgWrite_judges on inactive, good, ready]; rfl

end

theorem queueAt_adminStart (s : State) : queueAt (adminStart s) 0 =
    { part := 0xFF, sizeLog2 := bits s.front.admin.cfg.toNat 19 16, timeout := timeoutNs (bits s.front.admin.cfg.toNat 15 0)
      sqBase := s.front.admin.sqHi ++ s.front.admin.sqLo, replyBase := s.front.admin.replyHi ++ s.front.admin.replyLo
      shadow := s.front.admin.shadowHi ++ s.front.admin.shadowLo, active := true } := by
  unfold adminStart
  rw [queueAt_setQueue, if_pos rfl]

theorem adminDrained_done {s : State} (active : (queueAt s 0).active = true) (halting : s.front.admin.halting = true)
    (idle : s.front.cmds.any (·.queue == 0) = false) (noDups : (queueAt s 0).dups = []) : ∀ t,
    t = setQueue (setAdmin { s.front.admin with halting := false, enablePending := false } s) 0
      { queueAt s 0 with active := false } →
    adminDrained s = if s.front.admin.enablePending = false then t
      else if s.front.admin.good then adminStart t else raise .adminCfg t := by
  rintro t rfl
  have drained : ¬ (!(queueAt s 0).active || !s.front.admin.halting || s.front.cmds.any (·.queue == 0) ||
      decide ((queueAt s 0).dups ≠ [])) = true := by simp [active, halting, idle, noDups]
  unfold adminDrained
  simp only
  rw [if_neg drained]
  cases s.front.admin.enablePending <;> rfl

/-! ## Doorbells (R28 to R32, R196) -/

theorem ringBell_early {fn : Nat} {s : State} (early : s.boot.ready = false) (b : Bell) : ringBell fn b s = s :=
  if_pos (by simp [early])

/-- Settles O15: a write of ADMIN_CFG disables, waits for the drain, is judged bad, or starts the queue, and before READY
starts nothing. -/
theorem adminQueueStartsAndStops : Obligations.AdminQueueStartsAndStops := by
  unfold Obligations.AdminQueueStartsAndStops
  refine ⟨fun s v a up early inactive => ?early, fun s up ready awake => ?ready⟩
  case early =>
    have served : offServed 0x2018 s = true := by simp [offServed, early]
    have on := enabled_of_set v s
    refine ⟨?enable, ?disable, fun fn q unit queue => ⟨?tail, ?head⟩⟩
    case enable =>
      rintro rfl
      rw [exec_adminQueueEnable_served up served]
      exact ⟨fun good => congrArg _ (adminCfgWrite_early on inactive good early),
        fun bad => congrArg _ (adminCfgWrite_bad on inactive bad)⟩
    case disable =>
      rw [exec_adminQueueDisable_served up served, adminCfgWrite_disables (not_enabled_of_cleared v s), inactive]
      rfl
    case tail => rw [exec_sqTailWrite unit queue]; exact congrArg _ (ringBell_early early _)
    case head => rw [exec_replyHeadWrite unit queue, ringBell_early early]
  case ready =>
    have served := offServed_ready ready awake 0x2018
    refine ⟨?enable, fun v => ?disable, ?drained⟩
    case enable =>
      rintro v _ rfl
      have on := enabled_of_set v s
      rw [exec_adminQueueEnable_served up served]
      exact ⟨fun good inactive => ⟨congrArg _ (adminCfgWrite_starts on inactive good ready), queueAt_adminStart _⟩,
        fun active => congrArg _ (adminCfgWrite_pends on active),
        fun bad inactive => congrArg _ (adminCfgWrite_bad on inactive bad)⟩
    case disable =>
      rw [exec_adminQueueDisable_served up served, adminCfgWrite_disables (not_enabled_of_cleared v s)]
      rfl
    case drained =>
      rintro t active halting idle noDups ht
      rw [exec_adminQueueDrained_meaning, adminDrained_done active halting idle noDups t ht]

end Sys2Proof.Machine
end

section
/-!
Doorbells after READY: the indices they move, and values out of range (R28 to R32, R196).
-/

namespace Sys2Proof.Machine

theorem ringBell_issued {fn : Nat} {b : Bell} {s : State} (up : hostUp s = true) (ready : s.boot.ready = true)
    (owns : ownsQueue s fn b.queue = true) : ringBell fn b s = issue fn (.bell b) s :=
  if_neg (by simp [up, ready, owns])

/-- Behind an access of its own that waits, what a function issues waits too (R188, R196). -/
theorem issue_waits {fn : Nat} {s : State} (waits : hostWaitsOf fn s ≠ 0) (p : Post) :
    issue fn p s = setPosts fn (s.front.posts[fn]?.getD [] ++ [p]) s :=
  if_neg (by simp [waits])

theorem takeBell_awake {s : State} (awake : s.pmu.sleep = .awake) (b : Bell) : takeBell b s = applyBell b s := if_pos awake

theorem applyBell_inRange {b : Bell} {s : State} (live : bellsLive s b.queue = true)
    (inside : b.value < (queueAt s b.queue).size) : applyBell b s = setQueue s b.queue
      (if b.replyHead then { queueAt s b.queue with replyHead := b.value }
       else { queueAt s b.queue with sqTail := b.value }) := by
  unfold applyBell
  simp only
  rw [if_neg (by simp [live]), if_neg (Nat.not_le.2 inside)]

theorem applyBell_outOfRange {b : Bell} {s : State} (live : bellsLive s b.queue = true)
    (outside : (queueAt s b.queue).size ≤ b.value) : applyBell b s = raise .doorbellRange s := by
  unfold applyBell
  simp only
  rw [if_neg (by simp [live]), if_pos outside]

/-- A doorbell write of a function with nothing ahead of it, in an awake module after READY. -/
theorem ringBell_prompt {fn : Nat} {b : Bell} {s : State} (up : hostUp s = true) (ready : s.boot.ready = true)
    (awake : s.pmu.sleep = .awake) (owns : ownsQueue s fn b.queue = true) (prompt : Prompt fn s) :
    ringBell fn b s = applyBell b s := by
  rw [ringBell_issued up ready owns, issue_prompt prompt, takePost, takeBell_awake awake]

theorem setLeafBit_queue (k b : Nat) (s : State) : (setLeafBit 0 k b s).irq.queue =
    s.irq.queue.setIfInBounds k ⟨(s.irq.queue[k]?.getD ⟨0, 0⟩).cause ||| BitVec.ofNat 32 (2 ^ b),
      (s.irq.queue[k]?.getD ⟨0, 0⟩).enable⟩ := (irqSettle_leaves _).2.1

/-- DOORBELL_RANGE stands in leaf 8 of the QUEUE group (R466). -/
theorem raise_doorbellRange_cause (s : State) :
    ((raise .doorbellRange s).irq.queue[8]).cause.getLsbD 0 = true := by
  have sets : raise .doorbellRange s = setLeafBit 0 8 0 s := by simp [raise, Cause.place]
  simp [sets, setLeafBit_queue]

/-- Settles O10: a doorbell of a function with nothing ahead of it moves its index; behind a waiting access it is kept. -/
theorem doorbellsMoveTheQueue : Obligations.DoorbellsMoveTheQueue := by
  unfold Obligations.DoorbellsMoveTheQueue
  intro s fn queue v unit number up ready awake owns live inside
  refine ⟨fun prompt => ⟨fun stores => ?tail, ?head⟩, fun waits => ?waits⟩
  case tail =>
    have rung : ringBell fn ⟨queue, false, v⟩ (hostStores stores s) =
        applyBell ⟨queue, false, v⟩ (hostStores stores s) := ringBell_prompt up ready awake owns prompt
    have moved := applyBell_inRange (s := hostStores stores s) (b := ⟨queue, false, v⟩) live inside
    rw [exec_sqTailWrite unit number, rung, moved]
    rfl
  case head =>
    rw [exec_replyHeadWrite unit number, ringBell_prompt up ready awake owns prompt,
      applyBell_inRange live inside]
    rfl
  case waits => rw [exec_replyHeadWrite unit number, ringBell_issued up ready owns, issue_waits waits]

/-- Settles O11: a value out of range only raises DOORBELL_RANGE. -/
theorem doorbellRangeIsIgnored : Obligations.DoorbellRangeIsIgnored := by
  unfold Obligations.DoorbellRangeIsIgnored
  intro s fn queue v stores unit number up ready awake owns live prompt outside
  have rung : ringBell fn ⟨queue, false, v⟩ (hostStores stores s) =
      applyBell ⟨queue, false, v⟩ (hostStores stores s) := ringBell_prompt up ready awake owns prompt
  have refused := applyBell_outOfRange (s := hostStores stores s) (b := ⟨queue, false, v⟩) live outside
  refine ⟨⟨raise .doorbellRange (hostStores stores s), ?tail, raise_front _ _, raise_doorbellRange_cause _⟩,
    raise .doorbellRange s, ?head, raise_front _ _, raise_doorbellRange_cause _⟩
  case tail => rw [exec_sqTailWrite unit number, rung, refused]
  case head =>
    rw [exec_replyHeadWrite unit number, ringBell_prompt up ready awake owns prompt, applyBell_outOfRange live outside]

end Sys2Proof.Machine
end

section
/-!
What VSB18's rise leaves (R33, R78, R465, R467, R489).
-/

namespace Sys2Proof.Machine

/-- The leaves of the QUEUE group at reset: no cause, every defined bit enabled. -/
theorem reset_replyLeaves : ∀ k < 8, State.reset.irq.queue[k]? = some ⟨0, 0xFFFFFFFF⟩ := by decide

/-- Settles O2: each value is the one that the reset state lists. -/
theorem resetLeavesTheMachine : Obligations.ResetLeavesTheMachine := by
  unfold Obligations.ResetLeavesTheMachine
  exact ⟨rfl, rfl, rfl, rfl, rfl, rfl, rfl, rfl, fun _ _ => rfl, rfl, rfl, reset_replyLeaves, rfl, rfl, rfl, rfl, rfl, rfl,
    rfl, rfl, rfl, rfl, rfl, rfl, rfl, rfl, rfl, rfl, rfl⟩

end Sys2Proof.Machine
end

section
/-!
Register writes, in range and out of it (R33, R232, R272, R273, R322, R338, R418, R455, R458, R465, R467, R476, R488).
-/

namespace Sys2Proof.Machine

/-! ## Rows of single registers -/

theorem exec_registerWrite_meaning (fn off : Nat) (v : W32) (s : State) :
    exec (.registerWrite fn off v) s = execRegisterWrite fn off v s := rfl

theorem exec_powerCfgWrite_meaning (fn off : Nat) (v : W32) (s : State) :
    exec (.powerCfgWrite fn off v) s = onUnit 5 fn s (powerCfgWrite fn off v) := rfl

theorem exec_farPartWrite_meaning (fn off : Nat) (v : W32) (s : State) :
    exec (.farPartWrite fn off v) s = onUnit 5 fn s (farPartWrite fn off v) := rfl

theorem exec_serveCostWrite_meaning (fn off : Nat) (v : W32) (s : State) :
    exec (.serveCostWrite fn off v) s = onUnit 5 fn s (serveCostWrite fn off v) := rfl

theorem exec_kvPoolHiWrite_meaning (fn p : Nat) (v : W32) (s : State) :
    exec (.kvPoolHiWrite fn p v) s = execKvPoolHiWrite fn p v s := rfl

theorem exec_kvPoolRelease_meaning (fn p : Nat) (v : W32) (s : State) :
    exec (.kvPoolRelease fn p v) s = execKvPoolRelease fn p v s := rfl

section
variable {fn : Nat} (unit : fn < 5) (off : Nat) (v : W32) (s : State)
include unit

theorem exec_powerCfgWrite : exec (.powerCfgWrite fn off v) s = .next (powerCfgWrite fn off v s) := by
  rw [exec_powerCfgWrite_meaning, onUnit_inside unit]

theorem exec_farPartWrite : exec (.farPartWrite fn off v) s = .next (farPartWrite fn off v s) := by
  rw [exec_farPartWrite_meaning, onUnit_inside unit]

theorem exec_serveCostWrite : exec (.serveCostWrite fn off v) s = .next (serveCostWrite fn off v s) := by
  rw [exec_serveCostWrite_meaning, onUnit_inside unit]

variable {p : Nat} (part : p < 4)
include part

theorem exec_kvPoolHiWrite : exec (.kvPoolHiWrite fn p v) s = .next (kvPoolHiWrite fn p v s) := by
  rw [exec_kvPoolHiWrite_meaning, execKvPoolHiWrite, if_pos part, onUnit_inside unit]

theorem exec_kvPoolRelease : exec (.kvPoolRelease fn p v) s = .next (kvPoolRelease fn p v s) := by
  rw [exec_kvPoolRelease_meaning, execKvPoolRelease, if_pos part, onUnit_inside unit]

end

/-! ## REGISTER_WRITE -/

theorem exec_registerWrite {fn off : Nat} {s : State} (unit : fn < 5) (inside : off < 2 ^ 24) (up : hostUp s = true)
    (v : W32) : exec (.registerWrite fn off v) s = .next (regWrite fn off v s) := by
  rw [exec_registerWrite_meaning, execRegisterWrite, if_pos inside, onUnit_inside unit, if_pos up]

theorem regWrite_unserved {off : Nat} {s : State} (unserved : offServed off s = false) (fn : Nat) (v : W32) :
    regWrite fn off v s = s := if_pos (by simp [unserved])

/-- An aligned offset of a register that only the physical function has: none of IRQ, BAR2_BASE, FAULT.TAG, RECORD_SEL. -/
def physicalOffset (off : Nat) : Bool :=
  off % 4 = 0 && !(0x1000 ≤ off && off < 0x2000) && !(off = 0x2100 || off = 0x2104) && !(0x6040 ≤ off && off < 0x6050) &&
    !(off = 0x800C)

theorem regWrite_physicalOffset {off : Nat} {s : State} (served : offServed off s = true)
    (plain : physicalOffset off = true) (fn : Nat) (v : W32) :
    regWrite fn off v s = if fn ≠ 0 then s else pfWrite off v s := by
  simp only [physicalOffset, Bool.and_eq_true, Bool.not_eq_true', decide_eq_true_eq, decide_eq_false_iff_not] at plain
  obtain ⟨⟨⟨⟨aligned, noIrq⟩, noBase⟩, noTag⟩, noSel⟩ := plain
  simp [regWrite, served, aligned, noIrq, noBase, noTag, noSel]

theorem regWrite_irq {off : Nat} {s : State} (served : offServed off s = true)
    (block : (off % 4 = 0 && 0x1000 ≤ off && off < 0x2000) = true) (fn : Nat) (v : W32) :
    regWrite fn off v s = irqWrite fn off v s := by
  simp only [Bool.and_eq_true, decide_eq_true_eq] at block
  obtain ⟨⟨aligned, lo⟩, hi⟩ := block
  simp [regWrite, served, aligned, lo, hi]

theorem regWrite_recordSel {s : State} (served : offServed 0x800C s = true) (fn : Nat) (v : W32) :
    regWrite fn 0x800C v s =
      { s with serve := { s.serve with recordSel := s.serve.recordSel.setIfInBounds fn (v &&& 0x8000FFFF) } } := by
  simp [regWrite, served]

theorem exec_registerWrite_physical {off : Nat} {s : State} (up : hostUp s = true) (served : offServed off s = true)
    (plain : physicalOffset off = true) (inside : off < 2 ^ 24) (v : W32) :
    exec (.registerWrite 0 off v) s = .next (pfWrite off v s) := by
  rw [exec_registerWrite (by decide) inside up, regWrite_physicalOffset served plain]
  rfl

theorem exec_registerWrite_virtual {fn off : Nat} {s : State} (virt : fn ≠ 0) (unit : fn < 5) (up : hostUp s = true)
    (served : offServed off s = true) (plain : physicalOffset off = true) (inside : off < 2 ^ 24) (v : W32) :
    exec (.registerWrite fn off v) s = .next s := by
  rw [exec_registerWrite unit inside up, regWrite_physicalOffset served plain, if_pos virt]

theorem pfWrite_interleave (v : W32) (s : State) : pfWrite 0x30004 v s =
    if anyJob s then s else { s with far := { s.far with interleave := v.getLsbD 0 } } := rfl

/-! ## Before READY (R465, R488) -/

theorem offServed_early {off : Nat} {s : State} (early : s.boot.ready = false)
    (block : standbyBlock off = true ∨ 0x2000 ≤ off ∧ off ≤ 0x201B) : offServed off s = true := by
  simp [offServed, early, block]

theorem offServed_early_false {off : Nat} {s : State} (early : s.boot.ready = false) (block : standbyBlock off = false)
    (other : off < 0x2000 ∨ 0x201C ≤ off) : offServed off s = false := by
  simp [offServed, early, block]
  omega

theorem serving_early {s : State} (early : s.boot.ready = false) : serving s = false := by simp [serving, early]

/-! ## The physical function's registers in range and out of it -/

theorem powerCfgWrite_virtual {fn : Nat} (virt : fn ≠ 0) (off : Nat) (v : W32) (s : State) : powerCfgWrite fn off v s = s :=
  if_pos (by simp [virt])

section
variable {s : State} (up : hostUp s = true) {v : W32}
include up

theorem powerCfgWrite_served (off : Nat) : powerCfgWrite 0 off v s =
    if off = 0x5008 then
      (if 1 ≤ bits v.toNat 22 16 && bits v.toNat 22 16 ≤ 64 && 900 ≤ bits v.toNat 15 0 && bits v.toNat 15 0 ≤ 1900 then
        { s with pmu := { s.pmu with extDuty := bits v.toNat 22 16, extWatts := bits v.toNat 15 0 } } else raise .cfgErr s)
    else if off = 0x500C then
      (if 600 ≤ bits v.toNat 15 0 && bits v.toNat 15 0 ≤ bits v.toNat 31 16 && bits v.toNat 31 16 ≤ 800 then
        { s with pmu := { s.pmu with vset := bits v.toNat 31 16, vfloor := bits v.toNat 15 0 } } else raise .cfgErr s)
    else s :=
  if_neg (by simp [powerServed, up])

theorem powerCfgWrite_limits (d1 : 1 ≤ bits v.toNat 22 16) (d2 : bits v.toNat 22 16 ≤ 64) (w1 : 900 ≤ bits v.toNat 15 0)
    (w2 : bits v.toNat 15 0 ≤ 1900) : powerCfgWrite 0 0x5008 v s =
      { s with pmu := { s.pmu with extDuty := bits v.toNat 22 16, extWatts := bits v.toNat 15 0 } } := by
  rw [powerCfgWrite_served up, if_pos rfl, if_pos (by simp [d1, d2, w1, w2])]

theorem powerCfgWrite_voltages (lo : 600 ≤ bits v.toNat 15 0) (order : bits v.toNat 15 0 ≤ bits v.toNat 31 16)
    (hi : bits v.toNat 31 16 ≤ 800) : powerCfgWrite 0 0x500C v s =
      { s with pmu := { s.pmu with vset := bits v.toNat 31 16, vfloor := bits v.toNat 15 0 } } := by
  rw [powerCfgWrite_served up, if_neg (by decide), if_pos rfl, if_pos (by simp [lo, order, hi])]

theorem powerCfgWrite_badVoltages
    (bad : bits v.toNat 15 0 < 600 ∨ bits v.toNat 31 16 < bits v.toNat 15 0 ∨ 800 < bits v.toNat 31 16) :
    powerCfgWrite 0 0x500C v s = raise .cfgErr s := by
  have outside : ¬ (600 ≤ bits v.toNat 15 0 && bits v.toNat 15 0 ≤ bits v.toNat 31 16 && bits v.toNat 31 16 ≤ 800) = true := by
    simp only [Bool.and_eq_true, decide_eq_true_eq]
    omega
  rw [powerCfgWrite_served up, if_neg (by decide), if_pos rfl, if_neg outside]

end

theorem farPartWrite_dropped {fn off : Nat} {s : State} (v : W32)
    (dropped : fn ≠ 0 ∨ jobIn s ((off - 0x30100) / 8) = true ∨ s.boot.ready = false) : farPartWrite fn off v s = s :=
  if_pos (by rcases dropped with h | h | h <;> simp [h])

theorem serveCostWrite_dropped {fn : Nat} {s : State} (dropped : fn ≠ 0 ∨ serving s = false) (off : Nat) (v : W32) :
    serveCostWrite fn off v s = s :=
  if_pos (by rcases dropped with h | h <;> simp [h])

theorem kvPoolHiWrite_dropped {fn p : Nat} {s : State} (dropped : fn ≠ 0 ∨ serving s = false ∨ jobIn s p = true)
    (v : W32) : kvPoolHiWrite fn p v s = s :=
  if_pos (by rcases dropped with h | h | h <;> simp [h])

theorem kvPoolRelease_dropped {fn p : Nat} {s : State} (dropped : fn ≠ 0 ∨ serving s = false ∨ jobIn s p = true)
    (v : W32) : kvPoolRelease fn p v s = s :=
  if_pos (by rcases dropped with h | h | h <;> simp [h])

theorem kvPoolHiWrite_checks {p : Nat} {s : State} (serves : serving s = true) (free : jobIn s p = false) (v : W32) :
    kvPoolHiWrite 0 p v s = checkPool p (setPool s p { poolAt s p with hi := v &&& 0xFFF }) :=
  if_neg (by simp [serves, free])

theorem kvPoolRelease_releases {p : Nat} {s : State} {v : W32} (serves : serving s = true) (free : jobIn s p = false)
    (release : v.getLsbD 0 = true) : kvPoolRelease 0 p v s = releasePool p s :=
  if_neg (by simp [serves, free, release])

/-- Setting the planning registers of a partition. -/
def setPlanning (p : Nat) (x : Planning) (s : State) : State :=
  { s with serve := { s.serve with planning := tabSet {} s.serve.planning p x } }

section
variable {s : State} (serves : serving s = true) {p k : Nat} (part : p < 4) (reg : k < 16) (v : W32)
include serves part reg

/-- A served write of the planning register at `k` of a partition's sixteen bytes. -/
theorem serveCostWrite_acts : ¬ (decide ((0 : Nat) ≠ 0) || !serving s || decide (0x8100 + 16 * p + k < 0x8100) ||
    decide ((0x8100 + 16 * p + k - 0x8100) / 16 > 3)) = true := by
  simp [serves]
  omega

end

section
variable {s : State} (serves : serving s = true) {p : Nat} (part : p < 4) {v : W32}
include serves part

theorem serveCostWrite_base (v : W32) : serveCostWrite 0 (0x8100 + 16 * p) v s =
    setPlanning p { tabGet ({} : Planning) s.serve.planning p with base := v } s := by
  have index : (0x8100 + 16 * p - 0x8100) / 16 = p := by omega
  have place : (0x8100 + 16 * p) % 16 = 0 := by omega
  have acts := serveCostWrite_acts serves part (k := 0) (by decide)
  simp only [Nat.add_zero] at acts
  unfold serveCostWrite
  simp only
  rw [if_neg acts, place, index]
  rfl

theorem serveCostWrite_decode (nonzero : v ≠ 0) : serveCostWrite 0 (0x8100 + 16 * p + 4) v s =
    setPlanning p { tabGet ({} : Planning) s.serve.planning p with decode := v } s := by
  have index : (0x8100 + 16 * p + 4 - 0x8100) / 16 = p := by omega
  have place : (0x8100 + 16 * p + 4) % 16 = 4 := by omega
  unfold serveCostWrite
  simp only
  rw [if_neg (serveCostWrite_acts serves part (by decide)), place, index]
  exact if_neg nonzero

/-- A per-position cost of 0 is ignored. -/
theorem serveCostWrite_zeroCost {k : Nat} (cost : k = 4 ∨ k = 8) : serveCostWrite 0 (0x8100 + 16 * p + k) 0 s = s := by
  have place : (0x8100 + 16 * p + k) % 16 = k := by omega
  unfold serveCostWrite
  simp only
  rw [if_neg (serveCostWrite_acts serves part (by omega)), place]
  rcases cost with rfl | rfl <;> rfl

end

/-- A far range's base register, with no job resident: the range is judged as it would then stand. -/
theorem farPartWrite_base {s : State} (serves : serving s = true) {p : Nat} (part : p < 4) (free : jobIn s p = false)
    (v : W32) : ∀ f, f = { s.far with base := tabSet 0 s.far.base p (v.toNat % 2 ^ 15) } →
    farPartWrite 0 (0x30100 + 8 * p) v s =
      if (tabGet 0 f.size p ≠ 0 && gib * (tabGet 0 f.base p + tabGet 0 f.size p) > farServed s) ||
          (List.range 4).any (fun q => q ≠ p && farOverlap f p q) then raise .farCfg s
      else { s with far := f } := by
  rintro f rfl
  have index : (0x30100 + 8 * p - 0x30100) / 8 = p := by omega
  have even : (0x30100 + 8 * p) % 8 = 0 := by omega
  have aligned : (0x30100 + 8 * p) % 4 = 0 := by omega
  simp only [serving, Bool.and_eq_true, decide_eq_true_eq] at serves
  obtain ⟨⟨_, ready⟩, awake⟩ := serves
  have acts : ¬ (decide ((0 : Nat) ≠ 0) || decide (0x30100 + 8 * p < 0x30100) || decide (p > 3) ||
      decide ((0x30100 + 8 * p) % 4 ≠ 0) || jobIn s p || !s.boot.ready || decide (s.pmu.sleep ≠ .awake)) = true := by
    simp [aligned, free, ready, awake]
    omega
  unfold farPartWrite
  simp only [index, even, if_true]
  rw [if_neg acts]

section
variable {s : State} (serves : serving s = true) {p : Nat} (part : p < 4) (free : jobIn s p = false) {v : W32} {f : Far}
  (written : f = { s.far with base := tabSet 0 s.far.base p (v.toNat % 2 ^ 15) })
include serves part free written

theorem farPartWrite_taken
    (inside : tabGet 0 f.size p = 0 ∨ gib * (tabGet 0 f.base p + tabGet 0 f.size p) ≤ farServed s)
    (apart : ∀ q < 4, q ≠ p → farOverlap f p q = false) :
    farPartWrite 0 (0x30100 + 8 * p) v s = { s with far := f } := by
  have near : (decide (tabGet 0 f.size p ≠ 0) &&
      decide (gib * (tabGet 0 f.base p + tabGet 0 f.size p) > farServed s)) = false := by
    rcases inside with h | h <;> simp [h]
  have alone : ((List.range 4).any fun q => decide (q ≠ p) && farOverlap f p q) = false := by
    rw [List.any_eq_false]
    intro q hq
    by_cases same : q = p
    · simp [same]
    · simp [apart q (List.mem_range.1 hq) same]
  rw [farPartWrite_base serves part free v f written, near, alone]
  rfl

theorem farPartWrite_overlaps {q : Nat} (other : q < 4) (ne : q ≠ p) (overlap : farOverlap f p q = true) :
    farPartWrite 0 (0x30100 + 8 * p) v s = raise .farCfg s := by
  have meets : ((List.range 4).any fun q => decide (q ≠ p) && farOverlap f p q) = true :=
    List.any_eq_true.2 ⟨q, List.mem_range.2 other, by simp [ne, overlap]⟩
  rw [farPartWrite_base serves part free v f written, meets, Bool.or_true, if_pos rfl]

end

/-- Settles O16: each write is its register's own, where the function has the register and it is served; out of range it is
ignored with its cause. -/
theorem registersAreWritten : Obligations.RegistersAreWritten := by
  unfold Obligations.RegistersAreWritten
  refine ⟨fun s v up early => ?early, fun s v up ready awake => ?ready, fun s v serves => ?serving⟩
  case early =>
    have dark : serving s = false := serving_early early
    have noBar2 (fn off n : Nat) : bar2Served off n s = false := by simp [bar2Served, dark]
    have noBase (fn off : Nat) : ¬ (hostUp s && offServed off s && (decide (off = 0x2100) || decide (off = 0x2104))) = true := by
      intro acts
      simp only [Bool.and_eq_true, Bool.or_eq_true, decide_eq_true_eq] at acts
      obtain ⟨⟨_, served⟩, rfl | rfl⟩ := acts
      all_goals simp [offServed, early, standbyBlock] at served
    refine ⟨?sqLo, ?shadowHi, ?collector, fun d w hd hw d1 d2 w1 w2 => ?power, fun fn unit off block other inside => ?outside,
      fun fn unit off => ⟨?base, ?bar2⟩, fun fn unit off => ⟨?far, ?cost, fun p part => ⟨?poolHi, ?poolRelease⟩⟩⟩
    case sqLo =>
      exact exec_registerWrite_physical up (offServed_early early (.inr (by decide))) (by decide) (by decide) v
    case shadowHi =>
      exact exec_registerWrite_physical up (offServed_early early (.inr (by decide))) (by decide) (by decide) v
    case collector =>
      exact exec_registerWrite_physical up (offServed_early early (.inl (by decide))) (by decide) (by decide) v
    case power =>
      subst hd hw
      rw [exec_powerCfgWrite (by decide), powerCfgWrite_limits up d1 d2 w1 w2]
    case outside => rw [exec_registerWrite unit inside up, regWrite_unserved (offServed_early_false early block other)]
    case base => rw [exec_bar2BaseWrite_meaning, execBar2BaseWrite, onUnit_inside unit, if_neg (noBase fn off)]
    case bar2 =>
      rw [exec_bar2Write_meaning, execBar2Write, onUnit_inside unit, bar2Write, noBar2 fn off]
      rfl
    case far => rw [exec_farPartWrite unit, farPartWrite_dropped v (.inr (.inr early))]
    case cost => rw [exec_serveCostWrite unit, serveCostWrite_dropped (.inr dark)]
    case poolHi => rw [exec_kvPoolHiWrite unit v s part, kvPoolHiWrite_dropped (.inr (.inl dark))]
    case poolRelease => rw [exec_kvPoolRelease unit v s part, kvPoolRelease_dropped (.inr (.inl dark))]
  case ready =>
    have served := offServed_ready ready awake
    have physical {off : Nat} (plain : physicalOffset off = true) (inside : off < 2 ^ 24) :=
      exec_registerWrite_physical up (served off) plain inside v
    refine ⟨physical (off := 0x2000) (by decide) (by decide), physical (off := 0x2004) (by decide) (by decide),
      physical (off := 0x2008) (by decide) (by decide), physical (off := 0x200C) (by decide) (by decide),
      physical (off := 0x2010) (by decide) (by decide), physical (off := 0x2014) (by decide) (by decide),
      physical (off := 0x2108) (by decide) (by decide), physical (off := 0x6008) (by decide) (by decide),
      physical (off := 0x8000) (by decide) (by decide), fun noJob => ?interleave, fun job => ?resident,
      fun fn unit => ⟨?recordSel, ?holdoff, ?enable⟩, fun fn virt unit => ?virtual⟩
    case interleave => rw [physical (by decide) (by decide), pfWrite_interleave, if_neg (by simp [anyJob, noJob])]
    case resident => rw [physical (by decide) (by decide), pfWrite_interleave, if_pos (by simp [anyJob, job])]
    case recordSel => rw [exec_registerWrite unit (by decide) up, regWrite_recordSel (served _)]
    case holdoff => rw [exec_registerWrite unit (by decide) up, regWrite_irq (served _) (by decide)]; rfl
    case enable => rw [exec_registerWrite unit (by decide) up, regWrite_irq (served _) (by decide)]; rfl
    case virtual =>
      have dropped {off : Nat} (plain : physicalOffset off = true) (inside : off < 2 ^ 24) :=
        exec_registerWrite_virtual virt unit up (served off) plain inside v
      exact ⟨dropped (by decide) (by decide), dropped (by decide) (by decide), dropped (by decide) (by decide),
        dropped (by decide) (by decide), dropped (by decide) (by decide), dropped (by decide) (by decide)⟩
  case serving =>
    refine ⟨fun p part free => ⟨?poolHi, fun release => ?release, fun f written => ⟨fun inside apart => ?taken,
      fun q other ne overlap => ?overlaps⟩⟩, fun p part job => ⟨?poolHeld, ?releaseHeld, ?farHeld⟩, fun p part pl hpl => ?costs,
      fun hi lo hhi hlo => ⟨fun l o h up => ?voltages, fun up bad => ?badVoltages⟩, fun fn virt unit off =>
        ⟨?power, ?cost, ?far, fun p part => ⟨?poolVirtual, ?releaseVirtual⟩⟩⟩
    case poolHi => rw [exec_kvPoolHiWrite (by decide) v s part, kvPoolHiWrite_checks serves free]
    case release => rw [exec_kvPoolRelease (by decide) v s part, kvPoolRelease_releases serves free release]
    case taken => rw [exec_farPartWrite (by decide), farPartWrite_taken serves part free written inside apart]
    case overlaps => rw [exec_farPartWrite (by decide), farPartWrite_overlaps serves part free written other ne overlap]
    case poolHeld => rw [exec_kvPoolHiWrite (by decide) v s part, kvPoolHiWrite_dropped (.inr (.inr job))]
    case releaseHeld => rw [exec_kvPoolRelease (by decide) v s part, kvPoolRelease_dropped (.inr (.inr job))]
    case farHeld =>
      have index : (0x30100 + 8 * p - 0x30100) / 8 = p := by omega
      rw [exec_farPartWrite (by decide), farPartWrite_dropped v (.inr (.inl (by rw [index, job])))]
    case costs =>
      subst hpl
      have at8104 : 0x8104 + 16 * p = 0x8100 + 16 * p + 4 := by omega
      have at8108 : 0x8108 + 16 * p = 0x8100 + 16 * p + 8 := by omega
      rw [exec_serveCostWrite (by decide), exec_serveCostWrite (by decide), exec_serveCostWrite (by decide), at8104, at8108]
      refine ⟨congrArg _ (serveCostWrite_base serves part v), fun nonzero =>
        congrArg _ (serveCostWrite_decode serves part nonzero), ?_⟩
      rintro rfl
      exact ⟨congrArg _ (serveCostWrite_zeroCost serves part (.inl rfl)),
        congrArg _ (serveCostWrite_zeroCost serves part (.inr rfl))⟩
    case voltages =>
      subst hhi hlo
      rw [exec_powerCfgWrite (by decide), powerCfgWrite_voltages up l o h]
    case badVoltages =>
      subst hhi hlo
      rw [exec_powerCfgWrite (by decide), powerCfgWrite_badVoltages up bad]
    case power => rw [exec_powerCfgWrite unit, powerCfgWrite_virtual virt]
    case cost => rw [exec_serveCostWrite unit, serveCostWrite_dropped (.inl virt)]
    case far => rw [exec_farPartWrite unit, farPartWrite_dropped v (.inl virt)]
    case poolVirtual => rw [exec_kvPoolHiWrite unit v s part, kvPoolHiWrite_dropped (.inl virt)]
    case releaseVirtual => rw [exec_kvPoolRelease unit v s part, kvPoolRelease_dropped (.inl virt)]

end Sys2Proof.Machine
end

section
/-!
Queues and partitions are made and taken away (R26, R340, R342, R424, R441, R507).
-/

namespace Sys2Proof.Machine

theorem exec_queueCreate_meaning (id : Nat) (s : State) : exec (.queueCreate id) s = execQueueCreate id s := rfl

theorem exec_queueDelete_meaning (id : Nat) (s : State) : exec (.queueDelete id) s = execQueueDelete id s := rfl

theorem exec_partitionOpen_meaning (id : Nat) (s : State) : exec (.partitionOpen id) s = execPartitionOpen id s := rfl

theorem exec_partitionClose_meaning (id : Nat) (s : State) : exec (.partitionClose id) s = execPartitionClose id s := rfl

/-! ## The rows' conditions -/

theorem closePartChk_passes {s : State} {c : Cmd} (number : c.at 16 1 < 4) (isOpen : (partAt s (c.at 16 1)).isOpen = true)
    (noJob : jobIn s (c.at 16 1) = false) (noQueue : queueOf s (c.at 16 1) = false) : closePartChk s c = pure () := by
  rw [closePartChk, need_true (by simp [number, isOpen]), need_true (by simp [noJob, noQueue])]
  rfl

/-- No tenant switch of the command runs yet: its row comes to its check. -/
theorem not_switching {s : State} {c : Cmd} (unswitched : s.parts.any (fun x => x.2.switchCmd = some c.id) = false) :
    ¬ (s.parts.any fun x => decide (x.2.switchCmd = some c.id)) = true := by simp [unswitched]

/-- Settles O22: with its check passed each row makes, opens, takes away or begins to close what it names. -/
theorem queuesAndPartitionsOpenAndClose : Obligations.QueuesAndPartitionsOpenAndClose := by
  unfold Obligations.QueuesAndPartitionsOpenAndClose
  refine ⟨fun s id c => ⟨fun runs finds => ?create, fun runs finds => ?delete⟩,
    fun s id c unswitched => ⟨fun runs finds p hp => ?openPart, fun runs number isOpen noJob noQueue u hu => ?closePart⟩⟩
  case create =>
    rw [exec_queueCreate_meaning, execQueueCreate, onCmd_runs runs, judged_found finds]
  case delete =>
    rw [exec_queueDelete_meaning, execQueueDelete, onCmd_runs runs, judged_found finds]
    exact ⟨fun idle => congrArg _ (if_pos idle), fun busy => congrArg _ (if_neg (by simp [busy]))⟩
  case openPart =>
    subst hp
    rw [exec_partitionOpen_meaning, execPartitionOpen, onCmd_runs runs, if_neg (not_switching unswitched),
      judged_found finds]
    exact ⟨fun plain => congrArg _ (if_pos plain), fun confidential => congrArg _ (if_neg (by simp [confidential]))⟩
  case closePart =>
    subst hu
    rw [exec_partitionClose_meaning, execPartitionClose, onCmd_runs runs, if_neg (not_switching unswitched),
      judged_found (finds_of_pure (closePartChk_passes number isOpen noJob noQueue))]
    rfl

end Sys2Proof.Machine
end

section
/-!
Hangs, fault records and where they go, responses, guard bands, identification (R56 to R58, R393, R394, R404, R416 to R421).
-/

namespace Sys2Proof.Machine

theorem exec_unitHang_meaning (u : HangUnit) (cmd : Option Nat) (s : State) :
    exec (.unitHang u cmd) s = execUnitHang u cmd s := rfl

theorem exec_faultRecordExport_meaning (s : State) :
    exec .faultRecordExport s = .next (whenRunning s exportRecord) := rfl

theorem exec_faultRecordReceive_meaning (b : List Byte) (s : State) :
    exec (.faultRecordReceive b) s = .next (whenRunning s (collect b)) := rfl

theorem exec_faultLog_meaning (id : Nat) (s : State) : exec (.faultLog id) s = execFaultLog id s := rfl

theorem exec_faultResponseLoad_meaning (id : Nat) (s : State) :
    exec (.faultResponseLoad id) s = execFaultResponseLoad id s := rfl

theorem exec_guardBandLoad_meaning (id : Nat) (s : State) : exec (.guardBandLoad id) s = execGuardBandLoad id s := rfl

theorem exec_identRead_meaning (id : Nat) (s : State) : exec (.identRead id) s = execIdentRead id s := rfl

/-! ## Hangs (R393, R394) -/

theorem exec_unitHang_hangs {s : State} {u : HangUnit} (runs : running s = true) (real : hangReal u = true)
    (can : canHang s u = true) (cmd : Option Nat) : exec (.unitHang u cmd) s = .next (unitHang u cmd s) := by
  rw [exec_unitHang_meaning, execUnitHang, if_pos real, whenRunning_runs runs, if_pos can]

theorem exec_unitHang_idle {s : State} {u : HangUnit} (runs : running s = true) (real : hangReal u = true)
    (cannot : canHang s u = false) (cmd : Option Nat) : exec (.unitHang u cmd) s = .next s := by
  rw [exec_unitHang_meaning, execUnitHang, if_pos real, whenRunning_runs runs, if_neg (by simp [cannot])]

theorem unitHang_none (u : HangUnit) (s : State) : unitHang u none s = report 9 (hangLoc u) none 1 s := rfl

/-- A hang charged to a command that runs on the unit, and that is not to be retried, times the command out. -/
theorem unitHang_timesOut {u : HangUnit} {s s1 : State} {c : Cmd} (found : cmdAt s c.id = some c)
    (started : c.phase = .started) (onUnit : c.on s u = true) (reported : s1 = report 9 (hangLoc u) (some c.id) 1 s)
    (noRestart : s1.faults.restart = .none) (noRetry : (cmdAt s1 c.id).any (fun x => x.due = some 9) = false) :
    unitHang u (some c.id) s = timeoutEnd c (c.tiles.foldl stopTile
      (haltFlights (fun d => d.dests.any fun x => c.tiles.contains x.tile) s1)) := by
  subst reported
  have charged : ((some c.id).bind (cmdAt s)).filter (fun c => c.phase == .started && c.on s u) = some c := by
    simp [found, started, onUnit]
  unfold unitHang
  simp only [charged, Option.map_some]
  rw [if_neg (by simp [noRestart, noRetry])]

/-! ## Records (R393, R420, R421) -/

theorem exec_commandRetry_helper {s : State} {n : Nat} (runs : running s = true) (none : cmdAt s n = none) :
    exec (.commandRetry n 13) s = .next (helperFault s) := by
  rw [exec_commandRetry_meaning, execCommandRetry, whenRunning_runs runs, none]
  rfl

theorem exportRecord_sends {s s1 : State} {r : Record} (on : s.faults.collectorOn = true)
    (first : s.faults.records.find? (fun r => !r.exported && (responseOf s r.cls).exportIt) = some r)
    (marked : s1 = { s with faults := { s.faults with
      records := updWhere (·.number == r.number) (fun x => { x with exported := true }) s.faults.records } }) :
    exportRecord s = if s.faults.collectorNode.toNat = ownNode s then collect (recordBytes s r) s1
      else sendTow s.faults.collectorNode.toNat
        (toLe 4 10 ++ toLe 2 (recordBytes s r).length ++ recordBytes s r) s1 := by
  subst marked
  unfold exportRecord
  rw [if_neg (by simp [on])]
  simp only [first]
  rfl

/-! ## IDENT-READ (R56 to R58) -/

/-- An aligned destination that passes its range check passes IDENT-READ's. -/
theorem identChk_aligned {s : State} {c : Cmd} (aligned : c.at 16 8 % 64 = 0) :
    identChk s c = c.checkRanges s [(16, c.addr 16, 512)] := by
  rw [identChk, need_true (by simp [aligned]), pure_bind]

/-- Settles O44: a hang is reported and may end its command; a record is sent once; each load puts what its check found. -/
theorem faultsAreReported : Obligations.FaultsAreReported := by
  unfold Obligations.FaultsAreReported
  refine ⟨fun s id c => ⟨fun runs => ?faults, fun runs => ?log, fun runs => ?responses, fun es ps s1 runs finds hs1 => ?guards⟩,
    fun s id c runs aligned finds admitted free s1 hs1 => ?ident⟩
  case faults =>
    refine ⟨fun u real can => ?hang, fun u h real cannot => exec_unitHang_idle runs real cannot h, fun n none => ?helper,
      fun u s1 real can found started onUnit hid reported noRestart noRetry => ?timeout, fun r s1 on first marked => ?sends,
      fun b all hall => ?receive⟩
    case hang => rw [exec_unitHang_hangs runs real can, unitHang_none]
    case helper => rw [exec_commandRetry_helper runs none]; rfl
    case timeout =>
      subst hid
      rw [exec_unitHang_hangs runs real can, unitHang_timesOut found started onUnit reported noRestart noRetry]
    case sends =>
      rw [exec_faultRecordExport_meaning, whenRunning_runs runs, exportRecord_sends on first marked]
      exact ⟨fun here => congrArg _ (if_pos here), fun elsewhere => congrArg _ (if_neg elsewhere)⟩
    case receive =>
      subst hall
      rw [exec_faultRecordReceive_meaning, whenRunning_runs runs]
      rfl
  case log =>
    rw [exec_faultLog_meaning, execFaultLog, onCmd_runs runs]
    refine ⟨fun zero => congrArg _ (if_pos zero), fun n s1 rs hn nonzero finds admitted reaches hrs => ?_⟩
    obtain ⟨free, hs1⟩ := reaches
    subst hn hrs hs1
    simp only
    rw [if_neg nonzero, judged_found finds, reaching_admitted admitted free]
  case responses =>
    rw [exec_faultResponseLoad_meaning, execFaultResponseLoad, onCmd_runs runs]
    refine ⟨fun zero => congrArg _ (if_pos zero), fun es ps s1 nonzero finds hs1 => ?_⟩
    subst hs1
    rw [if_neg nonzero, judged_finds _ _ _ _ _ _ finds]
  case guards =>
    subst hs1
    rw [exec_guardBandLoad_meaning, execGuardBandLoad, onCmd_runs runs, judged_finds _ _ _ _ _ _ finds]
  case ident =>
    subst hs1
    rw [← identChk_aligned aligned] at finds
    rw [exec_identRead_meaning, execIdentRead, onCmd_runs runs, judged_found finds, reaching_admitted admitted free]
    rfl

end Sys2Proof.Machine
end

section
/-!
Run descriptors and the runs they start (R135, R239, R241, R245, R247, R249, R250, R406, R407, R504).
-/

namespace Sys2Proof.Machine

theorem exec_ddesc_meaning (t : Nat) (s : State) : exec (.ddesc t) s = execDdesc t s := rfl

theorem exec_twinMatchTimeout_meaning (t : Nat) (s : State) :
    exec (.twinMatchTimeout t) s = execTwinMatchTimeout t s := rfl

theorem exec_runStart_meaning (k b : Nat) (s : State) : exec (.runStart k b) s = onBank k b s (runStart k b) := rfl

theorem onBank_runs {k b : Nat} {s : State} (stack : k < 16) (bank : b < 8192) (runs : running s = true)
    (f : State → State) : onBank k b s f = .next (f s) := by
  rw [onBank, if_pos bank, onUnit_inside stack, whenRunning_runs runs]

/-! ## DDESC (R135, R249, R504) -/

/-- A DDESC at the head, with room at its SSQ, nothing held for a twin and no walk, comes to reading its descriptor. -/
theorem exec_ddesc_reads {s : State} {t : Nat} {h : Entry} (head : AtHead s t 3 0x15 h)
    (inside : operandsOk s t 3 (Ins.of h.word) = true) (room : queueFull s ((Ins.of h.word).imm % 16) = false)
    (matched : (tileAt s t).leaving = []) (noWalk : h.walk = [])
    (aligned : opAddress s t 3 (Ins.of h.word).as_ % 64 = 0) : ∀ g s1,
    g = localRead t (opAddress s t 3 (Ins.of h.word).as_).toNat 64 true s → s1 = charge (tileAt s t).cmd g s →
    exec (.ddesc t) s = .next (if g.poisoned ≠ 0 then poisonedDesc t (Ins.of h.word) h s1
      else sendDesc t (Ins.of h.word) h g.bytes s1) := by
  rintro _ _ rfl rfl
  have goes : ¬ (queueFull s ((Ins.of h.word).imm % 16) || decide ((tileAt s t).leaving ≠ [])) = true := by
    simp [room, matched]
  have noEntry : h.walk[h.done]? = none := by simp [noWalk]
  rw [exec_ddesc_meaning, execDdesc, onHead_atHead head, if_neg goes]
  simp only [noEntry, onLocal_inside inside]
  rw [if_neg (by simp [aligned])]

theorem sendDesc_sends {t : Nat} {i : Ins} {h : Entry} {b : DescBytes} {s : State}
    (ok : descOk s (tilePartNum s t) (i.imm % 16) (bits i.imm 31 16) h.done i.rep
      (openGroup (stackAt s (i.imm % 16)) t h.id) b = true) :
    sendDesc t i h b s = repDone t 3 1 (leave t
      { entry := h.id, rep := h.done, release := false, desc := some (i.imm % 16), address := dTarget b
        out := (ddescOut s t i h).toNat, data := clean b, since := now s } s) :=
  if_neg (by simp [ok])

theorem sendDesc_faults {t : Nat} {i : Ins} {h : Entry} {b : DescBytes} {s : State}
    (bad : descOk s (tilePartNum s t) (i.imm % 16) (bits i.imm 31 16) h.done i.rep
      (openGroup (stackAt s (i.imm % 16)) t h.id) b = false) : sendDesc t i h b s = engFault t 3 s :=
  if_pos (by simp [bad])

/-! ## A leaving write that stays unmatched (R407) -/

theorem exec_twinMatchTimeout_held {s : State} {t : Nat} {l : Leaving} {ls : List Leaving} (unit : t < 512)
    (runs : running s = true) (live : frozen s t = false) (held : (tileAt s t).leaving = l :: ls) :
    exec (.twinMatchTimeout t) s = .next (if l.since + 100000 ≤ now s then twinMismatch t s else s) := by
  rw [exec_twinMatchTimeout_meaning, execTwinMatchTimeout, onUnit_inside unit, whenRunning_runs runs,
    if_neg (by simp [live]), held]

/-! ## RUN_START (R239, R241, R249, R250) -/

section
variable {s : State} {k b : Nat} {d : Desc} (first : (stackAt s k).queue.find? (fun d => descBank d.bytes = b) = some d)
include first

theorem runStart_off (off : ssqOn s k = false) : runStart k b s = s := by
  unfold runStart
  simp only [first]
  exact if_pos (by simp [off])

theorem runStart_starts (on : ssqOn s k = true) (idle : bankIdle s k b = true) (single : partnerBank d.bytes b = none)
    (space : spaceHeld (stackAt s k) d.run = true)
    (budget : activeIn (stackAt s k) none + 1 ≤ rowBudget (stackAt s k).row)
    (channel : activeIn (stackAt s k) (some (b / 256)) + 1 ≤ rowBudget (stackAt s k).row / 32) : ∀ u,
    u = setStack s k { stackAt s k with queue := (stackAt s k).queue.filter fun x => x.run ≠ d.run } →
    runStart k b s = setBank u k b { bankAt u k b with
      unit := (if d.block = [] then (bankAt u k b).unit else
        { (bankAt u k b).unit with operand := d.block ++ (bankAt u k b).unit.operand.drop d.block.length })
      run := some { number := d.run, group := d.group
                    descs := (stackAt s k).queue.filter fun x => x.run = d.run
                    partials := if dFlight d.bytes = 1 then freshPartials d.bytes else [] } } := by
  rintro u rfl
  unfold runStart
  simp only [first, single]
  rw [if_neg (by simp [on, idle, space]; omega)]

end

/-- Settles O34: a DDESC reads its descriptor and sends it, faults or leaves poison; the front descriptor of an idle bank
starts its run. -/
theorem runsAreSentAndStart : Obligations.RunsAreSentAndStart := by
  unfold Obligations.RunsAreSentAndStart
  refine ⟨fun s t h i hi => ⟨fun head inside room matched noWalk aligned g s1 hg hs1 => ?ddesc,
    fun l ls unit runs live held => ?unmatched⟩, fun s k b d stack bank runs first => ?start⟩
  case ddesc =>
    subst hi
    rw [exec_ddesc_reads head inside room matched noWalk aligned g s1 hg hs1]
    refine ⟨fun poisoned => congrArg _ (if_pos poisoned), fun sound ok => ?sends, fun sound bad => ?faults⟩
    case sends => rw [if_neg (not_not_intro sound), sendDesc_sends ok]
    case faults => rw [if_neg (not_not_intro sound), sendDesc_faults bad]
  case unmatched =>
    rw [exec_twinMatchTimeout_held unit runs live held]
    exact ⟨fun late => congrArg _ (if_pos late), fun early => congrArg _ (if_neg (Nat.not_le.2 early))⟩
  case start =>
    rw [exec_runStart_meaning, onBank_runs stack bank runs]
    exact ⟨fun off => congrArg _ (runStart_off first off), fun on idle single space budget channel =>
      ⟨_, rfl, congrArg _ (runStart_starts first on idle single space budget channel _ rfl)⟩⟩

end Sys2Proof.Machine
end

section
/-!
The DX engine: copies, layout copies, flags and fences (R112, R121, R128, R135, R171 to R174, R192 to R194, R504).
-/

namespace Sys2Proof.Machine

theorem exec_dcopy_meaning (t : Nat) (s : State) : exec (.dcopy t) s = execDcopy t s := rfl

theorem exec_dlayout_meaning (t : Nat) (s : State) : exec (.dlayout t) s = execDlayout t s := rfl

theorem exec_dflagset_meaning (t : Nat) (s : State) : exec (.dflagset t) s = execDflagset t s := rfl

theorem exec_dflagwait_meaning (t : Nat) (s : State) : exec (.dflagwait t) s = execDflagwait t s := rfl

theorem exec_dflagwaitSatisfied_meaning (t : Nat) (s : State) :
    exec (.dflagwaitSatisfied t) s = execDflagwaitSatisfied t s := rfl

theorem exec_dfence_meaning (t : Nat) (s : State) : exec (.dfence t) s = execDfence t s := rfl

theorem dxGate_go {t id : Nat} {ps : List (Home × Nat)} {s : State} (free : reachOf s (.engine t id) ps = .go)
    (go : State → State) : dxGate t id ps s go = go (noteWaits (.engine t id) ps s) := by
  simp only [dxGate, free]

/-- No release is asked for, or the DX's earlier writes are visible (R192). -/
theorem release_free {i : Ins} {s : State} {t : Nat} (free : bit i.flags 4 = false ∨ canRelease s t = true) :
    ¬ (bit i.flags 4 && !canRelease s t) = true := by
  rcases free with h | h <;> simp [h]

/-! ## DCOPY (R112, R128, R135, R192) -/

section
variable {s : State} {t : Nat} {h : Entry} {i : Ins}

theorem exec_dcopy_inside (word : i = Ins.of h.word) (head : AtHead s t 3 0x10 h) (inside : operandsOk s t 3 i = true) :
    exec (.dcopy t) s = .next (dcopy t i h s) := by
  subst word
  rw [exec_dcopy_meaning, execDcopy, onHead_atHead head, onLocal_inside inside]

theorem dcopy_faults
    (outside : (bit i.flags 0 = true ∧ dxOk s t (globalAddr s t i i.as_) (max i.imm 1) = false) ∨
      (bit i.flags 1 = true ∧ dxOk s t (globalAddr s t i i.ad) (max i.imm 1) = false)) :
    dcopy t i h s = engFault t 3 s :=
  if_pos (by rcases outside with ⟨side, bad⟩ | ⟨side, bad⟩ <;> simp [side, bad])

section
variable (source : bit i.flags 0 = true → dxOk s t (globalAddr s t i i.as_) (max i.imm 1) = true)
  (target : bit i.flags 1 = true → dxOk s t (globalAddr s t i i.ad) (max i.imm 1) = true)
include source target

theorem dcopy_reaches : dcopy t i h s =
    if i.imm = 0 then repDone t 3 0 s
    else if bit i.flags 4 && !canRelease s t then s
    else dxGate t h.id (if bit i.flags 1 then dxPieces s t (globalAddr s t i i.ad) i.imm else []) s fun s' =>
      if bit i.flags 0 then dxRead t h (globalAddr s t i i.as_) i.imm s' (dcopyOut t i h)
      else dcopyOut t i h (dxLocal t (opAddress s' t 3 i.as_) i.imm s').1 (dxLocal t (opAddress s' t 3 i.as_) i.imm s').2 := by
  refine if_neg ?_
  simp only [Bool.or_eq_true, Bool.and_eq_true, Bool.not_eq_true']
  rintro (⟨side, bad⟩ | ⟨side, bad⟩)
  · simp [source side] at bad
  · simp [target side] at bad

theorem dcopy_empty (empty : i.imm = 0) : dcopy t i h s = repDone t 3 0 s := by
  rw [dcopy_reaches source target, if_pos empty]

variable (bytes : i.imm ≠ 0)
include bytes

theorem dcopy_waits (release : bit i.flags 4 = true) (unseen : canRelease s t = false) : dcopy t i h s = s := by
  rw [dcopy_reaches source target, if_neg bytes, if_pos (by simp [release, unseen])]

variable (release : bit i.flags 4 = false ∨ canRelease s t = true) {ps : List (Home × Nat)} {s1 : State}
  (pieces : ps = if bit i.flags 1 then dxPieces s t (globalAddr s t i i.ad) i.imm else [])
  (free : reachOf s (.engine t h.id) ps = .go) (hs1 : s1 = noteWaits (.engine t h.id) ps s)
include release pieces free hs1

theorem dcopy_fromLocal (side : bit i.flags 0 = false) : dcopy t i h s =
    dcopyOut t i h (dxLocal t (opAddress s1 t 3 i.as_) i.imm s1).1 (dxLocal t (opAddress s1 t 3 i.as_) i.imm s1).2 := by
  subst hs1 pieces
  rw [dcopy_reaches source target, if_neg bytes, if_neg (release_free release), dxGate_go free, if_neg (by simp [side])]

theorem dcopy_fromGlobal (side : bit i.flags 0 = true) (near : dxRemote s1 t (globalAddr s t i i.as_) i.imm = false)
    {qs : List (Home × Nat)} {s2 : State} (sources : qs = dxPieces s1 t (globalAddr s t i i.as_) i.imm)
    (reached : reachOf s1 (.engine t h.id) qs = .go) (hs2 : s2 = noteWaits (.engine t h.id) qs s1) : ∀ g,
    g = getPieces true (dxPieces s2 t (globalAddr s t i i.as_) i.imm) s2 →
    dcopy t i h s = dcopyOut t i h g.1.data (charge (tileAt s2 t).cmd g.1 g.2) := by
  rintro g rfl
  subst hs2 sources
  subst hs1 pieces
  rw [dcopy_reaches source target, if_neg bytes, if_neg (release_free release), dxGate_go free, if_pos side, dxRead,
    if_neg (by simp [near]), dxGate_go reached]

end
end

theorem dcopyOut_eq (t : Nat) (i : Ins) (h : Entry) (bs : List PByte) (s : State) : dcopyOut t i h bs s =
    repDone t 3 (lines64 i.imm) (if bit i.flags 1
      then leaveWrite t h (bit i.flags 4) (globalAddr s t i i.ad) bs s else localWrite t (opAddress s t 3 i.ad).toNat bs s) :=
  (apply_ite (repDone t 3 (lines64 i.imm)) _ _ _).symm

/-! ## DLAYOUT (R171 to R174, R504) -/

section
variable {s : State} {t : Nat} {h : Entry} {i : Ins} {g : Got}

theorem exec_dlayout_aligned (word : i = Ins.of h.word) (head : AtHead s t 3 0x11 h) (inside : operandsOk s t 3 i = true)
    (aligned : opAddress s t 3 i.as_ % 32 = 0) (block : g = localRead t (opAddress s t 3 i.as_).toNat 32 true s) :
    exec (.dlayout t) s = .next (if g.poisoned ≠ 0 then repDone t 3 1 (charge (tileAt s t).cmd g s)
      else dlayout t i h g s) := by
  subst word block
  rw [exec_dlayout_meaning, execDlayout, onHead_atHead head, onLocal_inside inside, if_neg (by simp [aligned])]

variable {c : Cmd} {ps : List (Home × Nat)} {s1 : State}
  (fields : (opRow 0x0203).all (fun r => (r.stray g.bytes).isNone) = true)
  (command : c = { blockCmd s t g.bytes with blocks := h.blocks })
  (charges : s1 = charged { c with touched := h.sent } ps (if h.sent then s else charge (tileAt s t).cmd g s))
include fields command charges

/-- A copy block whose reserved bytes are 0 and whose check answers a status: poisoned control data moves nothing, what
else COPY-TENSOR would reject is a job fault. -/
theorem dlayout_rejects {m : Mark} (judged : (ExceptT.run (layoutChk s c)).run [] = (.error (.status m), ps)) :
    dlayout t i h g s = if m.status = 0x30 then repDone t 3 (controlBeats (c.at 32 1)) s1 else engFault t 3 s1 := by
  subst command charges
  cases row : opRow 0x0203 with
  | none => simp only [dlayout, row, judged]; rfl
  | some r =>
    rw [row] at fields
    have clean : (r.stray g.bytes).isSome = false := by simpa using fields
    simp only [dlayout, row, clean, judged]; rfl

theorem dlayout_passes {l : Layout} (judged : (ExceptT.run (layoutChk s c)).run [] = (.ok l, ps)) :
    dlayout t i h g s = dlayoutRun t i h l s s1 := by
  subst command charges
  cases row : opRow 0x0203 with
  | none => simp only [dlayout, row, judged]; rfl
  | some r =>
    rw [row] at fields
    have clean : (r.stray g.bytes).isSome = false := by simpa using fields
    simp only [dlayout, row, clean, judged]; rfl

end

/-- What a layout copy reads at a stage is here, or has come. -/
theorem dxBring_ready {t k : Nat} {h : Entry} {rs : List (W64 × Nat)} {s : State} (arrived : h.awaiting = [])
    (ready : k ≤ h.stage ∨ ∀ r ∈ rs, dxRemote s t r.1 r.2 = false) (go : State → State) : dxBring t h k rs s go = go s := by
  unfold dxBring
  rcases ready with stage | near
  · simp [arrived, Nat.not_lt.2 stage]
  · have here : (rs.filter fun r => dxRemote s t r.1 r.2) = [] := by simpa [List.filter_eq_nil_iff] using near
    simp [here]

section
variable {s s1 : State} {t : Nat} {h : Entry} {i : Ins} {l : Layout} {rs : List (W64 × Nat × Bool)}
  {index near : List (Home × Nat)} {ss : List (W64 × Nat)}

/-- A checked layout copy moves once its ranges are its partition's, its control data and sources are at hand and nothing
holds up what it reaches. -/
theorem dlayoutRun_moves (arrived : h.awaiting = []) (release : bit i.flags 4 = false ∨ canRelease s t = true)
    (hrs : rs = l.ranges.filter (fun r => r.2.1 ≠ 0)) (placed : ∀ r ∈ rs, ∃ p, dxPlace s t r.1 r.2.1 = .ok p)
    (hindex : index = l.indexRuns.flatMap (fun r => dxPieces s t r.1 r.2))
    (indexFree : reachOf s (.engine t h.id) index = .go)
    (indexHere : 1 ≤ h.stage ∨ ∀ r ∈ l.indexRuns, dxRemote s1 t r.1 r.2 = false)
    (hss : ss = l.sourceRuns (l.index (viewOf s (fun a n => dxPlace s t a n) h.fetched h.tainted)))
    (sourceHere : 2 ≤ h.stage ∨ ∀ r ∈ ss, dxRemote s1 t r.1 r.2 = false)
    (hnear : near = index ++ ss.flatMap (fun r => dxPieces s t r.1 r.2) ++
      (rs.filter (·.2.2)).flatMap (fun r => dxPieces s t r.1 r.2.1))
    (free : reachOf s (.engine t h.id) near = .go) :
    dlayoutRun t i h l s s1 = dlayoutMove t i h l (noteWaits (.engine t h.id) near s1) := by
  have outs : ((rs.filter (·.2.2)).map fun r => (r.1, r.2.1)).flatMap (fun r => dxPieces s t r.1 r.2) =
      (rs.filter (·.2.2)).flatMap fun r => dxPieces s t r.1 r.2.1 := by rw [List.flatMap_map]
  subst hrs hindex hss hnear
  unfold dlayoutRun
  simp only [outs]
  refine (if_neg ?reachable).trans ?moves
  case reachable =>
    rw [List.any_eq_true]
    rintro ⟨r, mem, bad⟩
    obtain ⟨p, place⟩ := placed r mem
    simp [place] at bad
  case moves =>
    rw [if_neg (release_free release), if_neg (not_not_intro arrived), dxBring_ready arrived indexHere,
      dxGate_go indexFree, dxBring_ready arrived sourceHere, dxGate_go free]

end

/-- Where an address lies does not depend on what a DX waits for. -/
theorem dxRemote_updEntry (t u id n : Nat) (a : W64) (f : Entry → Entry) (s : State) :
    dxRemote (updEntry u id f s) t a n = dxRemote s t a n := rfl

/-! ## Flags and fences (R121, R192 to R194) -/

section
variable {s : State} {t : Nat} {h : Entry} {i : Ins} (word : i = Ins.of h.word)
include word

theorem exec_dflagset_releases (head : AtHead s t 3 0x12 h) (inside : operandsOk s t 3 i = true)
    (ok : dxOk s t (globalAddr s t i i.ad) 8 = true) (visible : canRelease s t = true) {ps : List (Home × Nat)} {s1 : State}
    (pieces : ps = dxPieces s t (globalAddr s t i i.ad) 8) (free : reachOf s (.engine t h.id) ps = .go)
    (hs1 : s1 = noteWaits (.engine t h.id) ps s) : exec (.dflagset t) s =
      .next (repDone t 3 1 (leaveWrite t h true (globalAddr s t i i.ad)
        (dxLocal t (opAddress s1 t 3 i.as_) 8 s1).1 (dxLocal t (opAddress s1 t 3 i.as_) 8 s1).2)) := by
  subst word pieces hs1
  rw [exec_dflagset_meaning, execDflagset, onHead_atHead head, onLocal_inside inside, dflagset]
  simp only
  rw [if_neg (by simp [ok]), if_neg (by simp [visible]), dxGate_go free]

theorem exec_dflagwait_begins (head : AtHead s t 3 0x13 h) (ok : dxOk s t (globalAddr s t i i.as_) 8 = true)
    (fresh : h.sent = false) (near : dxRemote s t (globalAddr s t i i.as_) 8 = false) :
    exec (.dflagwait t) s = .next (updEntry t h.id (fun e => { e with sent := true }) s) := by
  subst word
  rw [exec_dflagwait_meaning, execDflagwait, onHead_atHead head]
  simp only
  rw [if_neg (by simp [ok]), if_neg (by simp [fresh]), if_neg (by simp [dxRemote_updEntry, near])]

theorem exec_dflagwaitSatisfied_observes (head : AtHead s t 3 0x13 h) (ok : dxOk s t (globalAddr s t i i.as_) 8 = true)
    (waits : h.sent = true) (near : dxRemote s t (globalAddr s t i i.as_) 8 = false) {ps : List (Home × Nat)} {s1 : State}
    (pieces : ps = dxPieces s t (globalAddr s t i i.as_) 8) (free : reachOf s (.engine t h.id) ps = .go)
    (hs1 : s1 = noteWaits (.engine t h.id) ps s) {r : Got × State}
    (read : r = getPieces true (dxPieces s1 t (globalAddr s t i i.as_) 8) s1) :
    exec (.dflagwaitSatisfied t) s =
      .next (if flagMet i (leNat r.1.bytes) then acquire t (charge (tileAt s1 t).cmd r.1 r.2) else s1) := by
  subst word read pieces hs1
  rw [exec_dflagwaitSatisfied_meaning, execDflagwaitSatisfied, onHead_atHead head]
  simp only
  rw [if_neg (by simp [waits]), if_neg (by simp [near]), if_neg (by simp [ok]), dxGate_go free]

end

theorem exec_dfence_head {s : State} {t : Nat} {h : Entry} (head : AtHead s t 3 0x14 h) :
    exec (.dfence t) s = .next (if canRelease s t then repDone t 3 1 s else s) := by
  rw [exec_dfence_meaning, execDfence, onHead_atHead head]

/-- Settles O33: each DX row is judged, held until what it reaches is free and its earlier writes are visible, then acts. -/
theorem dataMoverRuns : Obligations.DataMoverRuns := by
  unfold Obligations.DataMoverRuns
  refine ⟨?dcopy, ?dlayout, ?flags⟩
  case dcopy =>
    rintro s t h i _ _ _ word head inside rfl rfl rfl
    rw [exec_dcopy_inside word head inside]
    refine ⟨fun outside => congrArg _ (dcopy_faults outside), fun source target => ⟨fun empty => ?empty,
      fun bytes unreleased unseen => ?waits, fun ps s1 bytes release pieces free hs1 => ⟨fun side => ⟨_, rfl, ?fromLocal⟩,
        fun side near qs s2 sources reached hs2 => ⟨_, rfl, ?fromGlobal⟩⟩⟩, fun bs u => dcopyOut_eq t i h bs u⟩
    case empty => rw [dcopy_empty source target empty]
    case waits => rw [dcopy_waits source target bytes unreleased unseen]
    case fromLocal => rw [dcopy_fromLocal source target bytes release pieces free hs1 side]
    case fromGlobal =>
      rw [dcopy_fromGlobal source target bytes release pieces free hs1 side near sources reached hs2 _ rfl]
  case dlayout =>
    rintro s t h i g c ps s1 _ word head inside aligned rfl block
    rw [exec_dlayout_aligned word head inside aligned block]
    refine ⟨fun poisoned => congrArg _ (if_pos poisoned), fun sound fields command charges => ⟨fun m judged => ?rejects,
      fun l rs index ss near judged arrived release hrs placed hindex indexFree indexHere hss sourceHere hnear free => ?moves⟩⟩
    case rejects => rw [if_neg (not_not_intro sound), dlayout_rejects fields command charges judged]
    case moves =>
      rw [if_neg (not_not_intro sound), dlayout_passes fields command charges judged,
        dlayoutRun_moves arrived release hrs placed hindex indexFree indexHere hss sourceHere hnear free]
  case flags =>
    rintro s t h i _ word rfl
    refine ⟨fun ps s1 head inside ok visible pieces free hs1 => ⟨_, rfl,
        exec_dflagset_releases word head inside ok visible pieces free hs1⟩,
      fun head ok fresh near => exec_dflagwait_begins word head ok fresh near,
      fun ps s1 r head ok waits near pieces free hs1 read => ?observes, fun v => apply_ite id _ _ _, fun head => ?fence⟩
    case observes =>
      rw [exec_dflagwaitSatisfied_observes word head ok waits near pieces free hs1 read]
      exact ⟨fun met => congrArg _ (if_pos met), fun unmet => congrArg _ (if_neg (by simp [unmet]))⟩
    case fence =>
      rw [exec_dfence_head head]
      exact ⟨fun visible => congrArg _ (if_pos visible), fun unseen => congrArg _ (if_neg (by simp [unseen]))⟩

end Sys2Proof.Machine
end

section
/-!
The commands on page tables: FORK-SEQUENCE, EDIT-PAGES, EVICT, COMPACT, DEMOTE, PROMOTE, ADOPT-PAGES (R286, R291-R308).
-/

namespace Sys2Proof.Machine

theorem exec_forkSequence_meaning (id : Nat) (s : State) : exec (.forkSequence id) s = execForkSequence id s := rfl

theorem exec_editPages_meaning (id : Nat) (s : State) : exec (.editPages id) s = execEditPages id s := rfl

theorem exec_evict_meaning (id : Nat) (s : State) : exec (.evict id) s = execEvict id s := rfl

theorem exec_compact_meaning (id : Nat) (s : State) : exec (.compact id) s = execCompact id s := rfl

theorem exec_demote_meaning (id : Nat) (s : State) : exec (.demote id) s = execDemote id s := rfl

theorem exec_promote_meaning (id : Nat) (s : State) : exec (.promote id) s = execPromote id s := rfl

theorem exec_adoptPages_meaning (id : Nat) (s : State) : exec (.adoptPages id) s = execAdoptPages id s := rfl

/-! ## Rows that wait for the steps before them -/

/-- A row that acts, with no step left that names one of its requests (R292). -/
theorem onCmd_freed {s : State} {op id : Nat} {c : Cmd} (runs : Runs s op id c)
    (free : stepRunHolds s c c.names = false) (f : Cmd → State → State) :
    onCmd op id s (fun c s => c.afterSteps s c.names (f c)) = .next (f c (resumeCmd c.id s)) :=
  onCmd_comes runs (afterSteps_free free _)

theorem scans_scans {c : Cmd} {ps : List (Home × Nat)} {s t : State} (h : c.Scans ps s t) (go : State → State) :
    c.scans ps s go = go t := by
  obtain ⟨reached, r, rfl, rfl⟩ := h
  rw [Cmd.scans, gate_reached reached]

/-- A count of 0: the request found, the command ends (R58). -/
theorem whenZero_found {c : Cmd} {n : Nat} {s : State} {r : Request} {ps : List (Home × Nat)} (zero : n = 0)
    (finds : Finds c s (namedChk s c 16) r ps) (go : State) : c.whenZero n s go = doneCmd c.id 0 (touch c ps s) := by
  rw [whenZero_zero zero, judged_finds _ _ _ _ _ _ finds]

/-! ## The tables' rows

A command's requests are free of steps, and its check has found what it needs. -/

section
variable {s0 : State} {id : Nat} {c : Cmd} (free : stepRunHolds s0 c c.names = false)
include free

theorem exec_forkSequence_shares {t u : PTab} {ps : List (Home × Nat)} {s1 : State} (runs : Runs s0 0x0407 id c)
    (finds : Finds c (resumeCmd c.id s0) (forkChk (resumeCmd c.id s0) c) (t, u) ps)
    (reads : c.Reads (t.reads (touch c ps (resumeCmd c.id s0))) (touch c ps (resumeCmd c.id s0)) s1) {rs : List Nat}
    (hrs : rs = tableRecords t (pairs (poolAt s1 c.part).desc) s1) :
    exec (.forkSequence id) s0 = .next (doneCmd c.id rs.length (({ u with
      used := t.used, next := t.next, set := t.set, setPositions := t.setPositions } : PTab).write
      (rs.foldl (fun s r => addOwner c.part r s)
        ((List.range (pairs (poolAt s1 c.part).desc)).foldl (fun s q => forkPair t u q s) s1)))) := by
  subst hrs
  rw [exec_forkSequence_meaning, execForkSequence, onCmd_freed runs free, judged_finds _ _ _ _ _ _ finds,
    reads_reads reads]

theorem exec_editPages_applies {t : PTab} {es : List Edit} {ps : List (Home × Nat)} {s1 s2 : State}
    (runs : Runs s0 0x0408 id c) (nonzero : c.at 32 4 ≠ 0)
    (finds : Finds c (resumeCmd c.id s0) (editChk (resumeCmd c.id s0) c) (t, es) ps)
    (hs1 : s1 = touch c ps (resumeCmd c.id s0))
    (reads : c.Reads (t.reads s1 ++ recPieces c.part ((es.filter (·.op = 0)).map fun e => entRecord e.entry) s1) s1 s2) :
    exec (.editPages id) s0 = .next (doneCmd c.id es.length (t.fixUsed (es.foldl (fun s e => e.apply t s) s2))) := by
  subst hs1
  rw [exec_editPages_meaning, execEditPages, onCmd_freed runs free, whenZero_nonzero nonzero,
    judged_finds _ _ _ _ _ _ finds, reads_reads reads]

theorem exec_evict_clears {r : Request} {t : PTab} {ps : List (Home × Nat)} {s2 s3 s1 : State} (runs : Runs s0 0x0409 id c)
    (finds : Finds c (resumeCmd c.id s0) (requestChk (resumeCmd c.id s0) c 16) (r, t) ps)
    (hs2 : s2 = touch c ps (resumeCmd c.id s0)) (reads : c.Reads (t.reads s2 ++ maskPieces t s2) s2 s3)
    (scans : c.Scans (scorePieces t s3) s3 s1) {out : List (Nat × List Live)}
    (hout : out = (List.range (pairs (poolAt s1 c.part).desc)).map fun q =>
      (q, evicted (pairLive t q s1) (c.at 20 4) (c.at 24 2) (c.at 26 2))) :
    exec (.evict id) s0 = .next (doneCmd c.id (out.map fun x => x.2.length).sum
      (out.foldl (fun s x => clearLive t x.1 x.2 s) s1)) := by
  subst hs2 hout
  rw [exec_evict_meaning, execEvict, onCmd_freed runs free, judged_finds _ _ _ _ _ _ finds, reads_reads reads,
    scans_scans scans]

/-! ### COMPACT -/

section
variable {r : Request} {t : PTab} {ps : List (Home × Nat)} {s1 : State} (runs : Runs s0 0x040A id c)
  (finds : Finds c (resumeCmd c.id s0) (requestChk (resumeCmd c.id s0) c 16) (r, t) ps)
  (hs1 : s1 = touch c ps (resumeCmd c.id s0))
include runs finds hs1

theorem exec_compact_noPage (fails : compactAll t (pairs (poolAt s1 c.part).desc) s1 = none) :
    exec (.compact id) s0 = .next (rejectCmd c.id .busy s1) := by
  subst hs1
  rw [exec_compact_meaning, execCompact, onCmd_freed runs free, judged_finds _ _ _ _ _ _ finds]
  simp only [fails]

variable {n : Int} {s2 : State} (packs : compactAll t (pairs (poolAt s1 c.part).desc) s1 = some (n, s2))
include packs

theorem exec_compact_held (held : rowHeld (newlyFull t s1 s2) s1 = true) : exec (.compact id) s0 = .next s1 := by
  subst hs1
  rw [exec_compact_meaning, execCompact, onCmd_freed runs free, judged_finds _ _ _ _ _ _ finds]
  simp only [packs]
  rw [if_pos held]

theorem exec_compact_packs (unheld : rowHeld (newlyFull t s1 s2) s1 = false) {n3 : Int} {s3 s4 : State}
    (reads : c.Reads (t.reads s1 ++ scanPieces t s1 ++ vectorPieces t s1) s1 s3)
    (packs3 : compactAll t (pairs (poolAt s3 c.part).desc) s3 = some (n3, s4)) :
    exec (.compact id) s0 = .next (doneCmd c.id n3.toNat (t.fixUsed s4)) := by
  subst hs1
  rw [exec_compact_meaning, execCompact, onCmd_freed runs free, judged_finds _ _ _ _ _ _ finds]
  simp only [packs]
  rw [if_neg (by simp [unheld]), reads_reads reads]
  simp only [packs3]

end

/-! ### ADOPT-PAGES -/

section
variable {r : Request} {t : PTab} {ps : List (Home × Nat)} {s1 : State} (runs : Runs s0 0x0411 id c)
  (finds : Finds c (resumeCmd c.id s0) (adoptChk (resumeCmd c.id s0) c) (r, t) ps)
  (hs1 : s1 = touch c ps (resumeCmd c.id s0))
include runs finds hs1

theorem exec_adoptPages_held (held : rowHeld (t.allPages s1) s1 = true) : exec (.adoptPages id) s0 = .next s1 := by
  subst hs1
  rw [exec_adoptPages_meaning, execAdoptPages, onCmd_freed runs free, judged_finds _ _ _ _ _ _ finds]
  exact congrArg _ (if_pos held)

theorem exec_adoptPages_verifies (unheld : rowHeld (t.allPages s1) s1 = false) {s2 : State} {d : PoolDesc}
    (hd : d = (poolAt s1 c.part).desc)
    (scans : c.Scans (t.reads s1 ++ pagePieces (t.allPages s1) 0 16 ++ digestPieces d (t.allPages s1)) s1 s2)
    {z : Nat × Nat × State}
    (hz : z = (List.range (pairs d)).foldl (fun (a : Nat × Nat × State) q =>
      let y := adoptPair t q (t.used + 1) 0 a.2.2
      (a.1 + y.1, a.2.1 + y.2.1, y.2.2)) (0, 0, s2)) :
    exec (.adoptPages id) s0 = .next (finishCmd c.id
      (.done z.1 :: if z.2.1 = 0 then [] else [⟨0x30, 4, z.2.1⟩])
      (setRequest (({ t with
        used := t.highest d z.2.2 t.used
        next := if pairs d = 0 then 0
          else (List.range (pairs d)).foldl (fun a q => min a (pairNext t q z.2.2)) (2 ^ 32) % 2 ^ 32 } : PTab).write z.2.2)
        (c.at 16 4) { r with adopting := false })) := by
  subst hs1 hd hz
  rw [exec_adoptPages_meaning, execAdoptPages, onCmd_freed runs free, judged_finds _ _ _ _ _ _ finds]
  exact congrArg _ ((if_neg (by simp [unheld])).trans (scans_scans scans _))

end

/-! ### DEMOTE and PROMOTE -/

section
variable {r : Request} {t : PTab} {ps : List (Home × Nat)} {s1 : State} {d : PoolDesc} {places : List (Nat × Nat)}
  (finds : Finds c (resumeCmd c.id s0) (requestChk (resumeCmd c.id s0) c 16) (r, t) ps)
  (hs1 : s1 = touch c ps (resumeCmd c.id s0)) (hd : d = (poolAt s1 c.part).desc)
  (hplaces : places = rangePlaces t (pairs d) (c.at 20 4) (c.at 24 4)) (nonzero : c.at 24 4 ≠ 0)
include finds hs1 hd hplaces nonzero

theorem exec_demote_moves (runs : Runs s0 0x040F id c) {pages : List Nat} {s2 : State}
    (hpages : pages = ((places.map fun x => t.get x.1 x.2 s1).filter entValid).map entPage)
    (reads : c.Reads (t.reads s1 ++ pagePieces pages 0 d.pageBytes) s1 s2) :
    exec (.demote id) s0 = .next (c.moves d (places.foldl (fun a x => demoteOne t x a) ({}, s2)) s1) := by
  subst hs1 hd hplaces hpages
  rw [exec_demote_meaning, execDemote, onCmd_freed runs free, whenZero_nonzero nonzero, judged_finds _ _ _ _ _ _ finds]
  exact congrArg _ (reads_reads reads _)

theorem exec_promote_moves (runs : Runs s0 0x040E id c) {s2 : State} (reads : c.Reads (t.reads s1) s1 s2) :
    exec (.promote id) s0 = .next (c.moves d (places.foldl (fun a x => promoteOne t c.id x a) ({}, s2)) s1) := by
  subst hs1 hd hplaces
  rw [exec_promote_meaning, execPromote, onCmd_freed runs free, whenZero_nonzero nonzero, judged_finds _ _ _ _ _ _ finds]
  exact congrArg _ (reads_reads reads _)

end

/-! ### A count of 0 -/

section
variable {r : Request} {ps : List (Home × Nat)}
  (finds : Finds c (resumeCmd c.id s0) (namedChk (resumeCmd c.id s0) c 16) r ps)
include finds

theorem exec_editPages_none (runs : Runs s0 0x0408 id c) (zero : c.at 32 4 = 0) :
    exec (.editPages id) s0 = .next (doneCmd c.id 0 (touch c ps (resumeCmd c.id s0))) := by
  rw [exec_editPages_meaning, execEditPages, onCmd_freed runs free, whenZero_found zero finds]

theorem exec_demote_none (runs : Runs s0 0x040F id c) (zero : c.at 24 4 = 0) :
    exec (.demote id) s0 = .next (doneCmd c.id 0 (touch c ps (resumeCmd c.id s0))) := by
  rw [exec_demote_meaning, execDemote, onCmd_freed runs free, whenZero_found zero finds]

theorem exec_promote_none (runs : Runs s0 0x040E id c) (zero : c.at 24 4 = 0) :
    exec (.promote id) s0 = .next (doneCmd c.id 0 (touch c ps (resumeCmd c.id s0))) := by
  rw [exec_promote_meaning, execPromote, onCmd_freed runs free, whenZero_found zero finds]

end

end

/-! ## How moved pages are answered -/

theorem moves_full_none (c : Cmd) (d : PoolDesc) (n : Nat) (z s : State) :
    c.moves d (⟨n, 0, some .full⟩, z) s = rejectCmd c.id .busy s := rfl

theorem moves_full_failed (c : Cmd) (d : PoolDesc) (n : Nat) {bad : Nat} (nonzero : bad ≠ 0) (z s : State) :
    c.moves d (⟨n, bad, some .full⟩, z) s = finishCmd c.id [.busy, ⟨0x30, 4, bad⟩]
      { s with faults := z.faults, irq := z.irq, front := z.front, far := z.far } := if_neg nonzero

/-- Settles O40: each row, its requests free of steps and its check passed, reads what it names, then makes its edit. -/
theorem pageTablesAreEdited : Obligations.PageTablesAreEdited := by
  unfold Obligations.PageTablesAreEdited
  refine ⟨?edits, ?moved, ?counts, ?answers⟩
  case edits =>
    rintro s0 s id c free rfl
    exact ⟨fun t u ps s1 rs runs finds reads hrs => exec_forkSequence_shares free runs finds reads hrs,
      fun t es ps s1 runs nonzero finds hs1 s2 reads => exec_editPages_applies free runs nonzero finds hs1 reads,
      fun r t ps s2 s3 s1 out runs finds hs2 reads scans hout => exec_evict_clears free runs finds hs2 reads scans hout,
      fun r t ps s1 runs finds hs1 => ⟨exec_compact_noPage free runs finds hs1,
        fun n s2 packs => ⟨exec_compact_held free runs finds hs1 packs,
          fun s3 n3 s4 unheld reads packs3 => exec_compact_packs free runs finds hs1 packs unheld reads packs3⟩⟩,
      fun r t ps s1 runs finds hs1 held => exec_adoptPages_held free runs finds hs1 held,
      fun r t ps s1 s2 d z runs finds hs1 hd unheld scans hz =>
        exec_adoptPages_verifies free runs finds hs1 unheld hd scans hz⟩
  case moved =>
    rintro s0 s id c free rfl r t ps s1 d places finds hs1 hd hplaces
    exact ⟨fun pages s2 runs nonzero hpages reads =>
        exec_demote_moves free finds hs1 hd hplaces nonzero runs hpages reads,
      fun s2 runs nonzero reads => exec_promote_moves free finds hs1 hd hplaces nonzero runs reads⟩
  case counts =>
    rintro s0 s id c free rfl r ps finds
    exact ⟨exec_editPages_none free finds, exec_demote_none free finds, exec_promote_none free finds⟩
  case answers =>
    intro c d n bad z s
    refine ⟨rfl, ?_, fun nonzero => moves_full_failed c d n nonzero z s, rfl, rfl⟩
    rintro rfl
    exact moves_full_none c d n z s

end Sys2Proof.Machine
end

section
/-!
Supply, reset pins, PERST_N and function-level resets (R78, R420, R438, R460, R490 to R493).
-/

namespace Sys2Proof.Machine

theorem exec_vsb18Remove_meaning (s : State) : exec .vsb18Remove s = execVsb18Remove s := rfl

theorem exec_vsb18Apply_meaning (s : State) : exec .vsb18Apply s = execVsb18Apply s := rfl

theorem exec_modRstN_meaning (h : Nat) (s : State) : exec (.modRstN h) s = execModRstN h s := rfl

theorem exec_modRstNRelease_meaning (s : State) : exec .modRstNRelease s = execModRstNRelease s := rfl

theorem exec_vinPgFall_meaning (s : State) : exec .vinPgFall s = execVinPgFall s := rfl

theorem exec_perstN_meaning (s : State) : exec .perstN s = execPerstN s := rfl

theorem exec_perstNRelease_meaning (s : State) : exec .perstNRelease s = execPerstNRelease s := rfl

theorem exec_functionLevelReset_meaning (fn : Nat) (s : State) :
    exec (.functionLevelReset fn) s = execFunctionLevelReset fn s := rfl

/-! ## What the resets of the module leave (R78, R420, R438, R460, R490) -/

/-- `t` holds what is outside the module's own volatile state as `s` does, and of that state nothing that runs: no queue, no
command, no word of a stack or tile; it is not READY. -/
structure ResetFrom (s t : State) : Prop where
  ready : t.boot.ready = false
  queues : t.front.queues = []
  cmds : t.front.cmds = []
  stack : t.store.stack = []
  tile : t.store.tile = []
  host : t.store.host = s.store.host
  flash : t.flash.bytes = s.flash.bytes
  fuse : t.fuse = s.fuse

/-- What a module reset keeps besides, while VSB18 stays: device time, the records, the energy count, the secret and keys. -/
structure KeepsStandby (s t : State) : Prop where
  now : t.time.now = s.time.now
  records : t.faults.records = s.faults.records
  energy : t.pmu.energy = s.pmu.energy
  firstSecret : t.boot.firstSecret = s.boot.firstSecret
  identityKey : t.boot.identityKey = s.boot.identityKey
  aliasKey : t.boot.aliasKey = s.boot.aliasKey

theorem moduleReset_resets (s : State) : ResetFrom s (moduleReset s) := ⟨rfl, rfl, rfl, rfl, rfl, rfl, rfl, rfl⟩

theorem moduleReset_keeps (s : State) : KeepsStandby s (moduleReset s) := ⟨rfl, rfl, rfl, rfl, rfl, rfl⟩

theorem powerGone_resets (s : State) : ResetFrom s (powerGone s) := ⟨rfl, rfl, rfl, rfl, rfl, rfl, rfl, rfl⟩

/-- A module reset that lasts until MOD_RST_N rises. -/
def heldReset (s : State) : State :=
  let r := moduleReset s
  { r with pins := { r.pins with modRstN := false }, boot := { r.boot with inReset := true } }

/-! ## VSB18, MOD_RST_N, VIN_PG (R78, R490, R491) -/

theorem exec_vsb18Remove {s : State} (on : s.boot.vsb = true) : exec .vsb18Remove s = .next (powerGone s) := by
  rw [exec_vsb18Remove_meaning, execVsb18Remove, if_pos on]

theorem exec_vsb18Apply {s : State} (off : s.boot.vsb = false) : exec .vsb18Apply s =
    .next { s with time := {}, boot := { pciDown := !s.pins.perstN, inReset := !s.pins.modRstN } } := by
  rw [exec_vsb18Apply_meaning, execVsb18Apply, if_neg (by simp [off])]

theorem exec_modRstN {s : State} (high : s.pins.modRstN = true) (h : Nat) : exec (.modRstN h) s = .next (modReset h s) := by
  rw [exec_modRstN_meaning, execModRstN, if_pos high]

theorem modReset_short {h : Nat} (short : h < 1000) (s : State) : modReset h s = s := if_pos short

theorem modReset_long {h : Nat} (long : 10000 ≤ h) {s : State} (on : s.boot.vsb = true) : modReset h s = heldReset s := by
  rw [modReset, if_neg (by omega), if_neg (by omega), if_pos on, on, heldReset]

theorem exec_vinPgFall_resets {s : State} (on : s.boot.vsb = true) (powered : s.pins.pwrEn = true) : exec .vinPgFall s =
    .next { moduleReset s with pins := { (moduleReset s).pins with vinPg := false } } := by
  rw [exec_vinPgFall_meaning, execVinPgFall, if_pos (by simp [on, powered])]

theorem exec_vinPgFall_unpowered {s : State} (unpowered : s.pins.pwrEn = false) :
    exec .vinPgFall s = .next { s with pins := { s.pins with vinPg := false } } := by
  rw [exec_vinPgFall_meaning, execVinPgFall, if_neg (by simp [unpowered])]

/-! ## PERST_N and Function Level Reset (R492, R493) -/

/-- PERST_N low: the host is away. -/
def hostAway (s : State) : State :=
  { s with pins := { s.pins with perstN := false }, boot := { s.boot with pciDown := true } }

theorem exec_perstN_falls {s : State} (high : s.pins.perstN = true) : exec .perstN s =
    .next (if s.boot.vsb && !s.boot.inReset && s.boot.ready then resetFunctions (hostAway s)
      else (List.range 5).foldl (fun s fn => endSpdm fn s) (hostAway s)) := by
  rw [exec_perstN_meaning, execPerstN, if_neg (by simp [high])]
  rfl

theorem exec_functionLevelReset {fn : Nat} (unit : fn < 5) (s : State) :
    exec (.functionLevelReset fn) s = .next (functionReset fn s) := by
  rw [exec_functionLevelReset_meaning, execFunctionLevelReset, onUnit_inside unit]

section
variable {s : State} (up : hostUp s = true)
include up

theorem functionReset_early (early : s.boot.ready = false) (fn : Nat) :
    functionReset fn s = resetFnRegs (endSpdm fn s) fn := by
  rw [functionReset, if_neg (by simp [up]), if_pos (by simp [early])]

variable (ready : s.boot.ready = true)
include ready

theorem functionReset_physical : functionReset 0 s = resetFunctions s := by
  rw [functionReset, if_neg (by simp [up]), if_neg (by simp [ready]), if_pos rfl]

variable {fn : Nat} (virt : fn ≠ 0)
include virt

theorem functionReset_owner {p : Nat} (owns : partOfFn s fn = some p) :
    functionReset fn s = settleResets (setPart s p { partAt s p with resetting := true }) := by
  rw [functionReset, if_neg (by simp [up]), if_neg (by simp [ready]), if_neg virt]
  simp only [owns]

theorem functionReset_noPartition (unowned : partOfFn s fn = none) :
    functionReset fn s = resetFnRegs (endSpdm fn s) fn := by
  rw [functionReset, if_neg (by simp [up]), if_neg (by simp [ready]), if_neg virt]
  simp only [unowned]

end

/-- Settles O20: each pin's row is a module reset, the loss of all that VSB18 feeds, or a reset of functions; what these
leave is read off `ResetFrom` and `KeepsStandby`. -/
theorem resetsAndPinsAct : Obligations.ResetsAndPinsAct := by
  unfold Obligations.ResetsAndPinsAct
  refine ⟨fun s => ⟨fun on => ⟨_, exec_vsb18Remove on, ?vsbGone⟩, exec_vsb18Apply, fun high h short => ?pulse,
      fun high on h long => ⟨_, exec_modRstN high h, ?held⟩, exec_modRstNRelease_meaning s,
      fun on powered => ⟨_, exec_vinPgFall_resets on powered, ?supply⟩, exec_vinPgFall_unpowered⟩,
    fun s => ⟨fun high ready => ?perst, fun high early => ?perstEarly, fun up early fn unit => ?early,
      exec_perstNRelease_meaning s, fun up ready => ⟨?physical, fun fn virt unit =>
        ⟨fun p owns => ?owner, fun unowned => ?noPart⟩⟩⟩⟩
  case vsbGone =>
    have r := powerGone_resets s
    exact ⟨rfl, r.ready, rfl, rfl, rfl, rfl, rfl, r.queues, r.cmds, r.stack, r.tile, r.host, r.flash, r.fuse⟩
  case pulse => rw [exec_modRstN high, modReset_short short]
  case held =>
    rw [modReset_long long on]
    have r := moduleReset_resets s
    have k := moduleReset_keeps s
    exact ⟨rfl, rfl, rfl, r.ready, rfl, k.now, k.records, k.energy, k.firstSecret, k.identityKey, k.aliasKey, r.queues,
      r.cmds, r.stack, r.tile, r.host, r.flash, r.fuse⟩
  case supply =>
    have r := moduleReset_resets s
    have k := moduleReset_keeps s
    exact ⟨rfl, rfl, rfl, r.ready, k.now, k.records, r.cmds, r.stack⟩
  case perst => rw [exec_perstN_falls high, if_pos ready, hostAway]
  case perstEarly => rw [exec_perstN_falls high, if_neg (by simp [early]), hostAway]
  case early => rw [exec_functionLevelReset unit, functionReset_early up early]
  case physical => rw [exec_functionLevelReset (by decide), functionReset_physical up ready]
  case owner => rw [exec_functionLevelReset unit, functionReset_owner up ready virt owns]
  case noPart => rw [exec_functionLevelReset unit, functionReset_noPartition up ready virt unowned]

end Sys2Proof.Machine
end

section
/-!
Counter reads: a low half latches its high half, a count is returned and cleared (R82, R145, R212, R229, R235, R269, R272,
R338, R390, R422, R425, R437, R460, R465, R475, R478, R489).
-/

namespace Sys2Proof.Machine

/-! ## Rows of counter reads -/

theorem exec_timeNowRead_meaning (fn : Nat) (s : State) :
    exec (.timeNowRead fn) s = onUnit 5 fn s (hostRead fn 0x4000) := rfl

theorem exec_ppsLastRead_meaning (fn : Nat) (s : State) :
    exec (.ppsLastRead fn) s = onUnit 5 fn s (hostRead fn 0x4010) := rfl

theorem exec_energyRead_meaning (fn : Nat) (s : State) : exec (.energyRead fn) s = onUnit 5 fn s (hostRead fn 0x5010) := rfl

theorem exec_throttleRead {r : Nat} (reason : r < 6) (fn : Nat) (s : State) :
    exec (.throttleRead fn r) s = onUnit 5 fn s (hostRead fn (0x5020 + 8 * r)) := if_pos reason

theorem exec_tileBeatsRead {t : Nat} (tile : t < 512) (fn : Nat) (s : State) :
    exec (.tileBeatsRead fn t) s = onUnit 5 fn s (hostRead fn (0x40004 + 256 * t)) := if_pos tile

theorem exec_bootLogRead {k : Nat} (phase : k < 7) (fn : Nat) (s : State) :
    exec (.bootLogRead fn k) s = onUnit 5 fn s (hostRead fn (0x20 + 8 * k)) := if_pos phase

theorem exec_stackReads {k : Nat} (stack : k < 16) (fn : Nat) (s : State) :
    exec (.stackCorrCountRead fn k) s = onUnit 5 fn s (hostRead fn (0x10008 + 4096 * k)) ∧
    exec (.stackUncorrCountRead fn k) s = onUnit 5 fn s (hostRead fn (0x1000C + 4096 * k)) ∧
    exec (.stackRunsRead fn k) s = onUnit 5 fn s (hostRead fn (0x10024 + 4096 * k)) ∧
    exec (.stackLockWaitMaxRead fn k) s = onUnit 5 fn s (hostRead fn (0x10028 + 4096 * k)) :=
  ⟨if_pos stack, if_pos stack, if_pos stack, if_pos stack⟩

theorem exec_fyantReads {p : Nat} (port : p < 16) (fn : Nat) (s : State) :
    exec (.fyantCrcRetryRead fn p) s = onUnit 5 fn s (hostRead fn (0x20010 + 4096 * p)) ∧
    exec (.fyantFecCorrRead fn p) s = onUnit 5 fn s (hostRead fn (0x20014 + 4096 * p)) ∧
    exec (.fyantRetrainsRead fn p) s = onUnit 5 fn s (hostRead fn (0x20018 + 4096 * p)) ∧
    exec (.fyantTagFailRead fn p) s = onUnit 5 fn s (hostRead fn (0x2001C + 4096 * p)) :=
  ⟨if_pos port, if_pos port, if_pos port, if_pos port⟩

theorem exec_farPoisonCountRead_meaning (fn : Nat) (s : State) :
    exec (.farPoisonCountRead fn) s = onUnit 5 fn s (hostRead fn 0x30010) := rfl

theorem exec_serveReads (fn : Nat) (s : State) :
    exec (.serveFlagFallsRead fn) s = onUnit 5 fn s (hostRead fn 0x8004) ∧
    exec (.serveDeferralsRead fn) s = onUnit 5 fn s (hostRead fn 0x8008) := ⟨rfl, rfl⟩

theorem exec_faultReads (fn : Nat) (s : State) :
    exec (.faultRetriesRead fn) s = onUnit 5 fn s (hostRead fn 0x600C) ∧
    exec (.faultRepairsRead fn) s = onUnit 5 fn s (hostRead fn 0x6010) ∧
    exec (.faultRepairFailsRead fn) s = onUnit 5 fn s (hostRead fn 0x6014) ∧
    exec (.faultPlausibilityRead fn) s = onUnit 5 fn s (hostRead fn 0x6018) := ⟨rfl, rfl, rfl, rfl⟩

theorem exec_kvReads {p : Nat} (part : p < 4) (fn : Nat) (s : State) :
    exec (.kvWalkSkipsRead fn p) s = onUnit 5 fn s (hostRead fn (0x8810 + 64 * p)) ∧
    exec (.kvCowRead fn p) s = onUnit 5 fn s (hostRead fn (0x8814 + 64 * p)) := ⟨if_pos part, if_pos part⟩

theorem exec_sluiceFailRead {p : Nat} (part : p < 4) (fn : Nat) (s : State) :
    exec (.sluiceFailRead fn p) s = onUnit 5 fn s (hostRead fn (0x7010 + 4 * p)) := if_pos part

/-! ## Where reads latch, where they clear -/

/-- From FAULT to the far tier, a read latches nothing. -/
theorem latchAfter_clearing {off : Nat} (lo : 0x6000 ≤ off) (hi : off < 0x40000) (fn : Nat) (s : State) :
    latchAfter fn off s = s := by
  have noTime : off ≠ 0x4000 ∧ off ≠ 0x4010 := by omega
  have noLog : ¬ off < 0x058 := by omega
  have noTile : ¬ 0x40000 ≤ off := by omega
  have noPower : off ≠ 0x5010 ∧ ¬ off < 0x5050 := by omega
  simp [latchAfter, noTime, noLog, noTile, noPower]

/-- Of POWER too, a virtual function latches nothing. -/
theorem latchAfter_virtual {off fn : Nat} (virt : fn ≠ 0) (lo : 0x5000 ≤ off) (hi : off < 0x40000) (s : State) :
    latchAfter fn off s = s := by
  have noTime : off ≠ 0x4000 ∧ off ≠ 0x4010 := by omega
  have noLog : ¬ off < 0x058 := by omega
  have noTile : ¬ 0x40000 ≤ off := by omega
  simp [latchAfter, noTime, noLog, noTile, virt]

theorem latchAfter_throttle {r : Nat} (reason : r < 6) (s : State) : latchAfter 0 (0x5020 + 8 * r) s =
    { s with pmu := { s.pmu with
      throttleHi := s.pmu.throttleHi.setIfInBounds r (BitVec.ofNat 32 (throttleUs s r / 2 ^ 32)) } } := by
  have noTime : 0x5020 + 8 * r ≠ 0x4000 ∧ 0x5020 + 8 * r ≠ 0x4010 := by omega
  have noLog : ¬ 0x5020 + 8 * r < 0x058 := by omega
  have noTile : ¬ 0x40000 ≤ 0x5020 + 8 * r := by omega
  have noEnergy : 0x5020 + 8 * r ≠ 0x5010 := by omega
  have throttle : 0x5020 + 8 * r < 0x5050 ∧ (0x5020 + 8 * r) % 8 = 0 := by omega
  simp [latchAfter, noTime, noLog, noTile, noEnergy, throttle]

theorem latchAfter_bootLog {k : Nat} (phase : k < 7) (fn : Nat) (s : State) : latchAfter fn (0x20 + 8 * k) s =
    { s with boot := { s.boot with
      logHi := tabSet 0 s.boot.logHi k (BitVec.ofNat 32 ((tabGet 0 s.boot.log k).toNat / 2 ^ 32)) } } := by
  have noTime : 0x20 + 8 * k ≠ 0x4000 ∧ 0x20 + 8 * k ≠ 0x4010 := by omega
  have log : 0x20 + 8 * k < 0x058 ∧ (0x20 + 8 * k) % 8 = 0 := by omega
  simp [latchAfter, noTime, log]

theorem latchAfter_tileBeats {fn t : Nat} {s : State} (tile : t < 512) (shown : tileHidden fn t s = false) :
    latchAfter fn (0x40004 + 256 * t) s =
      setTile s t { tileAt s t with beatsHi := BitVec.ofNat 32 ((tileAt s t).count / 2 ^ 32) } := by
  have noTime : 0x40004 + 256 * t ≠ 0x4000 ∧ 0x40004 + 256 * t ≠ 0x4010 := by omega
  have noLog : ¬ 0x40004 + 256 * t < 0x058 := by omega
  have beats : 0x40000 ≤ 0x40004 + 256 * t ∧ 0x40004 + 256 * t < 0x60000 ∧ (0x40004 + 256 * t) % 256 = 4 := by omega
  have index : (0x40004 + 256 * t - 0x40000) / 256 = t := by omega
  simp [latchAfter, noTime, noLog, beats, index, shown]

/-- Below FAULT and from the tiles on, a read clears nothing. -/
theorem clearAfter_latching {off : Nat} (outside : off < 0x6000 ∨ 0x40000 ≤ off) (fn : Nat) (s : State) :
    clearAfter fn off s = s := by
  have noServe : ¬ (0x8000 ≤ off ∧ off < 0x9000) := by omega
  have noFault : ¬ (0x6000 ≤ off ∧ off < 0x7000) := by omega
  have noSluice : ¬ ((0x7010 ≤ off ∧ off < 0x7020) ∧ off % 4 = 0) := by omega
  have noStack : ¬ (0x10000 ≤ off ∧ off < 0x20000) := by omega
  have noPort : ¬ (0x20000 ≤ off ∧ off < 0x30000) := by omega
  have noFar : off ≠ 0x30010 := by omega
  simp [clearAfter, noServe, noFault, noSluice, noStack, noPort, noFar]

/-- Outside SERVE, a virtual function's read clears nothing (R475). -/
theorem clearAfter_virtual {off fn : Nat} (virt : fn ≠ 0) (outside : off < 0x8000 ∨ 0x9000 ≤ off) (s : State) :
    clearAfter fn off s = s := by
  have noServe : ¬ (0x8000 ≤ off ∧ off < 0x9000) := by omega
  simp [clearAfter, noServe, virt]

theorem clearAfter_serve {off : Nat} (lo : 0x8000 ≤ off) (hi : off < 0x9000) (fn : Nat) (s : State) :
    clearAfter fn off s = clearServe fn off s := if_pos (by simp [lo, hi])

theorem clearAfter_sluiceFail {p : Nat} (part : p < 4) (s : State) :
    clearAfter 0 (0x7010 + 4 * p) s = setBounce s p { bounceAt s p with fails := 0 } := by
  have noServe : ¬ 0x8000 ≤ 0x7010 + 4 * p := by omega
  have noFault : ¬ 0x7010 + 4 * p < 0x7000 := by omega
  have sluice : 0x7010 + 4 * p < 0x7020 ∧ (0x7010 + 4 * p) % 4 = 0 := by omega
  simp [clearAfter, noServe, noFault, sluice]

section
variable {k r off : Nat} (unit : k < 16) (reg : r < 4096) (s : State)
include unit reg

theorem clearAfter_stack (place : off = 0x10000 + 4096 * k + r) : clearAfter 0 off s = clearStack k r s := by
  have noServe : ¬ off < 0x9000 := by omega
  have noFault : ¬ off < 0x7000 := by omega
  have noSluice : ¬ off < 0x7020 := by omega
  have stack : 0x10000 ≤ off ∧ off < 0x20000 := by omega
  have index : (off - 0x10000) / 4096 = k := by omega
  have register : off % 4096 = r := by omega
  simp [clearAfter, noServe, noFault, noSluice, stack, index, register]

theorem clearAfter_port (place : off = 0x20000 + 4096 * k + r) (present : portPresent s k = true) :
    clearAfter 0 off s = clearPort k r s := by
  have noServe : ¬ off < 0x9000 := by omega
  have noFault : ¬ off < 0x7000 := by omega
  have noSluice : ¬ off < 0x7020 := by omega
  have noStack : ¬ off < 0x20000 := by omega
  have port : 0x20000 ≤ off ∧ off < 0x30000 := by omega
  have index : (off - 0x20000) / 4096 = k := by omega
  have register : off % 4096 = r := by omega
  simp [clearAfter, noServe, noFault, noSluice, noStack, port, index, register, present]

end

/-! ## What counters read as -/

/-- A word as its number reads back as that word. -/
theorem ofNat_word (w : W32) : BitVec.ofNat 32 w.toNat = w := by rw [BitVec.ofNat_toNat, BitVec.setWidth_eq]

section
variable {k r off : Nat} (unit : k < 16) (reg : r < 4096) (aligned : r % 4 = 0) (s : State)
include unit reg aligned

theorem regValue_stack (place : off = 0x10000 + 4096 * k + r) : regValue 0 off s = stackValue k r s := by
  have word : off % 4 = 0 := by omega
  have below : ∀ n ≤ 0x10000, ¬ off < n := by omega
  have noTile : ¬ 0x40000 ≤ off := by omega
  have stack : off < 0x20000 := by omega
  have index : (off - 0x10000) / 4096 = k := by omega
  have register : off % 4096 = r := by omega
  simp [regValue, word, below, noTile, stack, index, register]

theorem regValue_port (place : off = 0x20000 + 4096 * k + r) : regValue 0 off s = fyantValue k r s := by
  have word : off % 4 = 0 := by omega
  have below : ∀ n ≤ 0x20000, ¬ off < n := by omega
  have noTile : ¬ 0x40000 ≤ off := by omega
  have port : off < 0x30000 := by omega
  have index : (off - 0x20000) / 4096 = k := by omega
  have register : off % 4096 = r := by omega
  simp [regValue, word, below, noTile, port, index, register]

end

theorem regValue_serve {off : Nat} (word : off % 4 = 0) (lo : 0x8000 ≤ off) (hi : off < 0x9000) (fn : Nat) (s : State) :
    regValue fn off s = serveValue fn off s := by
  have below : ∀ n ≤ 0x8000, ¬ off < n := by omega
  simp [regValue, word, below, hi]

/-- A virtual function reads 0 of the registers that only the physical function has (R475). -/
theorem regValue_virtual {off fn : Nat} (virt : fn ≠ 0) (word : off % 4 = 0) (block : (0x5000 ≤ off ∧ off < 0x6040) ∨
    (0x7000 ≤ off ∧ off < 0x8000) ∨ (0x10000 ≤ off ∧ off < 0x40000)) (s : State) : regValue fn off s = 0 := by
  rcases block with ⟨lo, hi⟩ | ⟨lo, hi⟩ | ⟨lo, hi⟩
  · have below : ∀ n ≤ 0x5000, ¬ off < n := by omega
    have noTag : ¬ 0x6040 ≤ off := by omega
    have fault : off < 0x7000 := by omega
    simp [regValue, word, below, fault, faultValue, noTag, virt]
  · have below : ∀ n ≤ 0x7000, ¬ off < n := by omega
    simp [regValue, word, below, hi, virt]
  · have below : ∀ n ≤ 0x10000, ¬ off < n := by omega
    have noTile : ¬ 0x40000 ≤ off := by omega
    simp [regValue, word, below, noTile, virt]

theorem identValue_log {k : Nat} (phase : k < 7) (s : State) :
    identValue (0x20 + 8 * k) s = (tabGet 0 s.boot.log k).toNat % 2 ^ 32 := by
  have index : (0x20 + 8 * k - 0x20) / 8 = k := by omega
  unfold identValue
  split
  case h_11 => rw [if_pos (by simp; omega), if_pos (by omega), index]
  all_goals omega

theorem regValue_bootLog {k : Nat} (phase : k < 7) (fn : Nat) (s : State) :
    regValue fn (0x20 + 8 * k) s = (tabGet 0 s.boot.log k).toNat % 2 ^ 32 := by
  have word : (0x20 + 8 * k) % 4 = 0 := by omega
  have ident : 0x20 + 8 * k < 0x1000 := by omega
  rw [regValue, if_neg (not_not_intro word), if_pos ident, identValue_log phase]

theorem powerValue_throttle {r : Nat} (reason : r < 6) (s : State) :
    powerValue (0x5020 + 8 * r) s = throttleUs s r % 2 ^ 32 := by
  have index : (0x5020 + 8 * r - 0x5020) / 8 = r := by omega
  unfold powerValue
  split
  case h_7 => rw [if_pos (by simp; omega), if_pos (by omega), index]
  all_goals omega

theorem regValue_throttle {r : Nat} (reason : r < 6) (s : State) :
    regValue 0 (0x5020 + 8 * r) s = throttleUs s r % 2 ^ 32 := by
  have word : (0x5020 + 8 * r) % 4 = 0 := by omega
  have below : ∀ n ≤ 0x5000, ¬ 0x5020 + 8 * r < n := by omega
  have power : 0x5020 + 8 * r < 0x6000 := by omega
  simp [regValue, word, below, power, powerValue_throttle reason]

theorem regValue_tileBeats {fn t : Nat} {s : State} (tile : t < 512) (shown : tileHidden fn t s = false) :
    regValue fn (0x40004 + 256 * t) s = (tileAt s t).count % 2 ^ 32 := by
  have word : (0x40004 + 256 * t) % 4 = 0 := by omega
  have below : ∀ n ≤ 0x40000, ¬ 0x40004 + 256 * t < n := by omega
  have block : 0x40000 ≤ 0x40004 + 256 * t ∧ 0x40004 + 256 * t < 0x60000 := by omega
  have index : (0x40004 + 256 * t - 0x40000) / 256 = t := by omega
  have register : (0x40004 + 256 * t) % 256 = 4 := by omega
  simp [regValue, word, below, block, index, register, tileValue, shown]

theorem regValue_sluiceFail {p : Nat} (part : p < 4) (s : State) :
    regValue 0 (0x7010 + 4 * p) s = (bounceAt s p).fails.toNat := by
  have word : (0x7010 + 4 * p) % 4 = 0 := by omega
  have below : ∀ n ≤ 0x7000, ¬ 0x7010 + 4 * p < n := by omega
  have security : 0x7010 + 4 * p < 0x8000 := by omega
  have noStatus : 0x7010 + 4 * p ≠ 0x7000 := by omega
  have fails : 0x7010 + 4 * p < 0x7020 := by omega
  simp [regValue, word, below, security, securityValue, noStatus, fails]

/-- The register of the pool of partition `p` at `r` of its 64 bytes, as who sees the partition reads it (R272). -/
theorem regValue_kv {p r fn off : Nat} {s : State} (part : p < 4) (reg : r < 64) (aligned : r % 4 = 0)
    (place : off = 0x8800 + 64 * p + r) : regValue fn off s = if seesPart fn p s then kvValue off s else 0 := by
  have noRecord : ¬ off < 0x8080 := by omega
  have noPlanning : ¬ off < 0x8140 := by omega
  have pool : 0x8800 ≤ off ∧ off < 0x8900 := by omega
  have index : (off - 0x8800) / 64 = p := by omega
  rw [regValue_serve (by omega) (by omega) (by omega)]
  simp [serveValue, noRecord, noPlanning, pool, index]

theorem kvValue_walkSkips {p off : Nat} (place : off = 0x8800 + 64 * p + 0x10) (s : State) :
    kvValue off s = (poolAt s p).walkSkips.toNat := by
  have index : (off - 0x8800) / 64 = p := by omega
  have register : off % 64 = 0x10 := by omega
  simp only [kvValue, index, register]

theorem kvValue_cow {p off : Nat} (place : off = 0x8800 + 64 * p + 0x14) (s : State) :
    kvValue off s = (poolAt s p).cow.toNat := by
  have index : (off - 0x8800) / 64 = p := by omega
  have register : off % 64 = 0x14 := by omega
  simp only [kvValue, index, register]

theorem clearServe_counts {p fn : Nat} {s : State} (part : p < 4) (sees : seesPart fn p s = true) :
    clearServe fn (0x8810 + 64 * p) s = setPool s p { poolAt s p with walkSkips := 0 } ∧
    clearServe fn (0x8814 + 64 * p) s = setPool s p { poolAt s p with cow := 0 } := by
  have skips : 0x8810 + 64 * p < 0x8900 ∧ (0x8810 + 64 * p - 0x8800) / 64 = p ∧ (0x8810 + 64 * p) % 64 = 0x10 := by omega
  have cow : 0x8814 + 64 * p < 0x8900 ∧ (0x8814 + 64 * p - 0x8800) / 64 = p ∧ (0x8814 + 64 * p) % 64 = 0x14 := by omega
  have above : 0x8800 ≤ 0x8810 + 64 * p ∧ 0x8800 ≤ 0x8814 + 64 * p := by omega
  simp [clearServe, skips, cow, above, sees]

theorem clearServe_hidden {p r fn off : Nat} {s : State} (part : p < 4) (reg : r < 64) (place : off = 0x8800 + 64 * p + r)
    (hidden : seesPart fn p s = false) : clearServe fn off s = s := by
  have pool : 0x8800 ≤ off ∧ off < 0x8900 := by omega
  have index : (off - 0x8800) / 64 = p := by omega
  simp [clearServe, pool, index, hidden]

theorem clearServe_virtual {fn : Nat} (virt : fn ≠ 0) {off : Nat} (flags : off < 0x8800) (s : State) :
    clearServe fn off s = s := by
  have noPool : ¬ 0x8800 ≤ off := by omega
  simp [clearServe, noPool, virt]

theorem serveValue_virtual {fn : Nat} (virt : fn ≠ 0) {off : Nat} (flags : off = 0x8004 ∨ off = 0x8008) (s : State) :
    serveValue fn off s = 0 := by
  rcases flags with rfl | rfl <;> simp [serveValue, virt]

theorem ofNat_flagFalls (a b : BitVec 16) : BitVec.ofNat 32 (2 ^ 16 * a.toNat + b.toNat) = a ++ b := by
  apply BitVec.eq_of_toNat_eq
  rw [BitVec.toNat_append, ← Nat.shiftLeft_add_eq_or_of_lt b.isLt, BitVec.toNat_ofNat, Nat.shiftLeft_eq]
  omega

/-! ## A read of a served counter -/

section
variable {s : State} (up : hostUp s = true) (ready : s.boot.ready = true) (awake : s.pmu.sleep = .awake)
include up ready awake

/-- A read by an existing function of an aligned register answers its value, and leaves what it latches and clears. -/
theorem onUnit_hostRead {fn off : Nat} (unit : fn < 5) (aligned : off % 4 = 0) : onUnit 5 fn s (hostRead fn off) =
    answered (BitVec.ofNat 32 (regValue fn off s)) (clearAfter fn off (latchAfter fn off s)) := by
  rw [onUnit_inside unit, hostRead, if_pos up, regRead, if_pos (offServed_ready ready awake off), if_pos aligned, answered]

/-- A low half answers, and latches its high half. -/
theorem lowHalf_read {fn off n : Nat} {t : State} (unit : fn < 5) (aligned : off % 4 = 0)
    (outside : off < 0x6000 ∨ 0x40000 ≤ off) (value : regValue fn off s = n) (latches : latchAfter fn off s = t) :
    onUnit 5 fn s (hostRead fn off) = answered (BitVec.ofNat 32 n) t := by
  rw [onUnit_hostRead up ready awake unit aligned, value, latches, clearAfter_latching outside]

/-- A count answers, and is cleared. -/
theorem count_read {fn off : Nat} {w : W32} {t : State} (unit : fn < 5) (aligned : off % 4 = 0) (lo : 0x6000 ≤ off)
    (hi : off < 0x40000) (value : regValue fn off s = w.toNat) (clears : clearAfter fn off s = t) :
    onUnit 5 fn s (hostRead fn off) = answered w t := by
  rw [onUnit_hostRead up ready awake unit aligned, value, latchAfter_clearing lo hi, clears, ofNat_word]

/-- A virtual function's read of what only the physical function has answers 0, and changes nothing (R475). -/
theorem virtual_read {fn off : Nat} (virt : fn ≠ 0) (unit : fn < 5) (aligned : off % 4 = 0)
    (block : (0x5000 ≤ off ∧ off < 0x6040) ∨ (0x7000 ≤ off ∧ off < 0x8000) ∨ (0x10000 ≤ off ∧ off < 0x40000)) :
    onUnit 5 fn s (hostRead fn off) = answered 0 s := by
  rw [onUnit_hostRead up ready awake unit aligned, regValue_virtual virt aligned block,
    latchAfter_virtual virt (by omega) (by omega), clearAfter_virtual virt (by omega)]
  rfl

/-- A virtual function's read of the flag falls or the deferrals likewise (log 30). -/
theorem serve_virtual_read {fn off : Nat} (virt : fn ≠ 0) (unit : fn < 5) (flags : off = 0x8004 ∨ off = 0x8008) :
    onUnit 5 fn s (hostRead fn off) = answered 0 s := by
  have aligned : off % 4 = 0 := by omega
  exact count_read up ready awake unit aligned (by omega) (by omega)
    ((regValue_serve aligned (by omega) (by omega) fn s).trans (serveValue_virtual virt flags s))
    ((clearAfter_serve (by omega) (by omega) fn s).trans (clearServe_virtual virt (by omega) s))

/-! ## Stacks (R212, R229, R269, R425) -/

/-- The physical function's read of register `r` of stack `k`. -/
theorem stack_read {k r : Nat} (stack : k < 16) (reg : r < 4096) (aligned : r % 4 = 0) {off : Nat}
    (place : off = 0x10000 + 4096 * k + r) {w : W32} (value : stackValue k r s = w.toNat) :
    onUnit 5 0 s (hostRead 0 off) = answered w (clearStack k r s) :=
  count_read up ready awake (by decide) (by omega) (by omega) (by omega)
    ((regValue_stack stack reg aligned s place).trans value) (clearAfter_stack stack reg s place)

section
variable {k : Nat} (stack : k < 16)
include stack

theorem exec_stackErrorReads :
    exec (.stackCorrCountRead 0 k) s = answered (stackAt s k).corr (setStack s k { stackAt s k with corr := 0 }) ∧
    exec (.stackUncorrCountRead 0 k) s = answered (stackAt s k).uncorr (setStack s k { stackAt s k with uncorr := 0 }) := by
  obtain ⟨corr, uncorr, -, -⟩ := exec_stackReads stack 0 s
  exact ⟨corr.trans (stack_read up ready awake stack (r := 0x008) (by decide) (by decide) (by omega) rfl),
    uncorr.trans (stack_read up ready awake stack (r := 0x00C) (by decide) (by decide) (by omega) rfl)⟩

theorem exec_stackRunReads (pim : pimStack s k = true) (unlocked : s.security.lockout = false) :
    exec (.stackRunsRead 0 k) s = answered (stackAt s k).runs (setStack s k { stackAt s k with runs := 0 }) ∧
    exec (.stackLockWaitMaxRead 0 k) s =
      answered (stackAt s k).lockWait (setStack s k { stackAt s k with lockWait := 0 }) := by
  obtain ⟨-, -, runs, lockWait⟩ := exec_stackReads stack 0 s
  have shown : (pimStack s k && !s.security.lockout) = true := by simp [pim, unlocked]
  have noLockout : ¬ s.security.lockout = true := by simp [unlocked]
  rw [runs, lockWait,
    stack_read up ready awake stack (r := 0x024) (by decide) (by decide) (by omega) (if_pos shown),
    stack_read up ready awake stack (r := 0x028) (by decide) (by decide) (by omega) (if_pos shown)]
  exact ⟨congrArg _ (if_neg noLockout), congrArg _ (if_neg noLockout)⟩

/-- During the lockout the counts of a stack's runs and waits read 0 and stay (R425). -/
theorem exec_stackRunReads_lockout (lockout : s.security.lockout = true) :
    exec (.stackRunsRead 0 k) s = answered 0 s ∧ exec (.stackLockWaitMaxRead 0 k) s = answered 0 s := by
  obtain ⟨-, -, runs, lockWait⟩ := exec_stackReads stack 0 s
  have hidden : ¬ (pimStack s k && !s.security.lockout) = true := by simp [lockout]
  rw [runs, lockWait,
    stack_read up ready awake stack (r := 0x024) (w := 0) (by decide) (by decide) (by omega) (if_neg hidden),
    stack_read up ready awake stack (r := 0x028) (w := 0) (by decide) (by decide) (by omega) (if_neg hidden)]
  exact ⟨congrArg _ (if_pos lockout), congrArg _ (if_pos lockout)⟩

theorem exec_stackReads_virtual {fn : Nat} (virt : fn ≠ 0) (unit : fn < 5) :
    exec (.stackCorrCountRead fn k) s = answered 0 s ∧ exec (.stackUncorrCountRead fn k) s = answered 0 s ∧
    exec (.stackRunsRead fn k) s = answered 0 s ∧ exec (.stackLockWaitMaxRead fn k) s = answered 0 s := by
  obtain ⟨corr, uncorr, runs, lockWait⟩ := exec_stackReads stack fn s
  rw [corr, uncorr, runs, lockWait]
  refine ⟨?_, ?_, ?_, ?_⟩ <;> exact virtual_read up ready awake virt unit (by omega) (by omega)

end

/-! ## Ports (R390) -/

/-- The physical function's read of register `r` of the present port `p`. -/
theorem port_read {p r : Nat} (port : p < 16) (present : portPresent s p = true) (reg : r < 4096) (aligned : r % 4 = 0)
    {off : Nat} (place : off = 0x20000 + 4096 * p + r) {w : W32} (value : fyantValue p r s = w.toNat) :
    onUnit 5 0 s (hostRead 0 off) = answered w (clearPort p r s) :=
  count_read up ready awake (by decide) (by omega) (by omega) (by omega)
    ((regValue_port port reg aligned s place).trans value) (clearAfter_port port reg s place present)

section
variable {p : Nat} (port : p < 16)
include port

theorem exec_fyantReads_physical (present : portPresent s p = true) :
    exec (.fyantCrcRetryRead 0 p) s = answered (portAt s p).crcRetry (setPort s p { portAt s p with crcRetry := 0 }) ∧
    exec (.fyantFecCorrRead 0 p) s = answered (portAt s p).fecCorr (setPort s p { portAt s p with fecCorr := 0 }) ∧
    exec (.fyantRetrainsRead 0 p) s = answered (portAt s p).retrains (setPort s p { portAt s p with retrains := 0 }) ∧
    exec (.fyantTagFailRead 0 p) s = answered (portAt s p).tagFail (setPort s p { portAt s p with tagFail := 0 }) := by
  obtain ⟨crc, fec, retrains, tags⟩ := exec_fyantReads port 0 s
  have shown : ¬ (!portPresent s p) = true := by simp [present]
  exact ⟨crc.trans (port_read up ready awake port present (r := 0x010) (by decide) (by decide) (by omega) (if_neg shown)),
    fec.trans (port_read up ready awake port present (r := 0x014) (by decide) (by decide) (by omega) (if_neg shown)),
    retrains.trans (port_read up ready awake port present (r := 0x018) (by decide) (by decide) (by omega) (if_neg shown)),
    tags.trans (port_read up ready awake port present (r := 0x01C) (by decide) (by decide) (by omega) (if_neg shown))⟩

theorem exec_fyantReads_virtual {fn : Nat} (virt : fn ≠ 0) (unit : fn < 5) :
    exec (.fyantCrcRetryRead fn p) s = answered 0 s ∧ exec (.fyantFecCorrRead fn p) s = answered 0 s ∧
    exec (.fyantRetrainsRead fn p) s = answered 0 s ∧ exec (.fyantTagFailRead fn p) s = answered 0 s := by
  obtain ⟨crc, fec, retrains, tags⟩ := exec_fyantReads port fn s
  rw [crc, fec, retrains, tags]
  refine ⟨?_, ?_, ?_, ?_⟩ <;> exact virtual_read up ready awake virt unit (by omega) (by omega)

end

/-! ## The far tier, faults, serving, Sluice (R235, R338, R422, R437) -/

theorem exec_farPoisonCountRead :
    exec (.farPoisonCountRead 0) s = answered s.far.poisonCount { s with far := { s.far with poisonCount := 0 } } := by
  rw [exec_farPoisonCountRead_meaning]
  exact count_read up ready awake (by decide) (by decide) (by decide) (by decide) rfl rfl

theorem exec_faultReads_physical :
    exec (.faultRetriesRead 0) s = answered s.faults.retries { s with faults := { s.faults with retries := 0 } } ∧
    exec (.faultRepairsRead 0) s = answered s.faults.repairs { s with faults := { s.faults with repairs := 0 } } ∧
    exec (.faultRepairFailsRead 0) s =
      answered s.faults.repairFails { s with faults := { s.faults with repairFails := 0 } } ∧
    exec (.faultPlausibilityRead 0) s =
      answered s.faults.plausibility { s with faults := { s.faults with plausibility := 0 } } := by
  obtain ⟨retries, repairs, repairFails, plausibility⟩ := exec_faultReads 0 s
  rw [retries, repairs, repairFails, plausibility]
  refine ⟨?_, ?_, ?_, ?_⟩ <;>
    exact count_read up ready awake (by decide) (by decide) (by decide) (by decide) rfl rfl

theorem exec_faultReads_virtual {fn : Nat} (virt : fn ≠ 0) (unit : fn < 5) :
    exec (.faultRetriesRead fn) s = answered 0 s ∧ exec (.faultRepairsRead fn) s = answered 0 s ∧
    exec (.faultRepairFailsRead fn) s = answered 0 s ∧ exec (.faultPlausibilityRead fn) s = answered 0 s := by
  obtain ⟨retries, repairs, repairFails, plausibility⟩ := exec_faultReads fn s
  rw [retries, repairs, repairFails, plausibility]
  refine ⟨?_, ?_, ?_, ?_⟩ <;> exact virtual_read up ready awake virt unit (by decide) (by decide)

theorem exec_serveFlagFallsRead : exec (.serveFlagFallsRead 0) s = answered (s.serve.fallsFirst ++ s.serve.fallsBetween)
    { s with serve := { s.serve with fallsFirst := 0, fallsBetween := 0 } } := by
  rw [(exec_serveReads 0 s).1, onUnit_hostRead up ready awake (by decide) (by decide), ← ofNat_flagFalls]
  rfl

theorem exec_serveDeferralsRead : exec (.serveDeferralsRead 0) s =
    answered s.serve.deferrals { s with serve := { s.serve with deferrals := 0 } } := by
  rw [(exec_serveReads 0 s).2]
  exact count_read up ready awake (by decide) (by decide) (by decide) (by decide) rfl rfl

theorem exec_sluiceFailRead_physical {p : Nat} (part : p < 4) : exec (.sluiceFailRead 0 p) s =
    answered (bounceAt s p).fails (setBounce s p { bounceAt s p with fails := 0 }) := by
  rw [exec_sluiceFailRead part]
  exact count_read up ready awake (by decide) (by omega) (by omega) (by omega) (regValue_sluiceFail part s)
    (clearAfter_sluiceFail part s)

/-! ## Pools (R272) -/

section
variable {p fn : Nat} (part : p < 4) (unit : fn < 5)
include part unit

/-- Who sees a partition reads and clears its pool's counts. -/
theorem exec_kvReads_seen (sees : seesPart fn p s = true) :
    exec (.kvWalkSkipsRead fn p) s = answered (poolAt s p).walkSkips (setPool s p { poolAt s p with walkSkips := 0 }) ∧
    exec (.kvCowRead fn p) s = answered (poolAt s p).cow (setPool s p { poolAt s p with cow := 0 }) := by
  obtain ⟨skips, cow⟩ := exec_kvReads part fn s
  obtain ⟨skipsClear, cowClear⟩ := clearServe_counts part sees
  have value {r off : Nat} (reg : r < 64) (aligned : r % 4 = 0) (place : off = 0x8800 + 64 * p + r) :
      regValue fn off s = kvValue off s := by rw [regValue_kv part reg aligned place, if_pos sees]
  rw [skips, cow]
  exact ⟨count_read up ready awake unit (by omega) (by omega) (by omega)
      ((value (r := 0x10) (by decide) (by decide) (by omega)).trans (kvValue_walkSkips (by omega) s))
      ((clearAfter_serve (by omega) (by omega) fn s).trans skipsClear),
    count_read up ready awake unit (by omega) (by omega) (by omega)
      ((value (r := 0x14) (by decide) (by decide) (by omega)).trans (kvValue_cow (by omega) s))
      ((clearAfter_serve (by omega) (by omega) fn s).trans cowClear)⟩

/-- A read of a pool's count by who does not see its partition. -/
theorem kv_hidden_read (hidden : seesPart fn p s = false) {r off : Nat} (reg : r < 64) (aligned : r % 4 = 0)
    (place : off = 0x8800 + 64 * p + r) : onUnit 5 fn s (hostRead fn off) = answered 0 s :=
  count_read up ready awake unit (by omega) (by omega) (by omega)
    (by rw [regValue_kv part reg aligned place, hidden]; rfl)
    ((clearAfter_serve (by omega) (by omega) fn s).trans (clearServe_hidden part reg place hidden))

theorem exec_kvReads_hidden (hidden : seesPart fn p s = false) :
    exec (.kvWalkSkipsRead fn p) s = answered 0 s ∧ exec (.kvCowRead fn p) s = answered 0 s := by
  obtain ⟨skips, cow⟩ := exec_kvReads part fn s
  exact ⟨skips.trans (kv_hidden_read up ready awake part unit hidden (r := 0x10) (by decide) (by decide) (by omega)),
    cow.trans (kv_hidden_read up ready awake part unit hidden (r := 0x14) (by decide) (by decide) (by omega))⟩

end
end

/-- Settles O14: a read below FAULT or of a tile is a low half's, which latches; one from FAULT to the far tier is a count's,
which clears; a virtual function's is a 0 that leaves the machine as it was, but of its own partition's pool. -/
theorem countersAreRead : Obligations.CountersAreRead := by
  unfold Obligations.CountersAreRead
  refine ⟨fun s fn up ready awake unit => ?halves, fun s up ready awake => ?units, fun s up ready awake => ?shared⟩
  case halves =>
    have half {fn off n : Nat} {t : State} := lowHalf_read up ready awake (fn := fn) (off := off) (n := n) (t := t)
    refine ⟨?now, ?pps, ?energy, fun r reason => ?throttle, fun t tile shown => ?beats,
      fun virt => ⟨?noEnergy, fun r reason => ?noThrottle⟩, fun k phase => ?log⟩
    case now =>
      rw [exec_timeNowRead_meaning]
      exact half unit (by decide) (by decide) rfl rfl
    case pps =>
      rw [exec_ppsLastRead_meaning]
      exact half unit (by decide) (by decide) rfl rfl
    case energy =>
      rw [exec_energyRead_meaning]
      exact half (by decide) (by decide) (by decide) rfl rfl
    case throttle =>
      rw [exec_throttleRead reason]
      exact half (by decide) (by omega) (by omega) (regValue_throttle reason s) (latchAfter_throttle reason s)
    case beats =>
      rw [exec_tileBeatsRead tile]
      exact half unit (by omega) (by omega) (regValue_tileBeats tile shown) (latchAfter_tileBeats tile shown)
    case noEnergy =>
      rw [exec_energyRead_meaning]
      exact virtual_read up ready awake virt unit (by decide) (by decide)
    case noThrottle =>
      rw [exec_throttleRead reason]
      exact virtual_read up ready awake virt unit (by omega) (by omega)
    case log =>
      rw [exec_bootLogRead phase]
      exact half unit (by omega) (by omega) (regValue_bootLog phase fn s) (latchAfter_bootLog phase fn s)
  case units =>
    refine ⟨fun k stack => ?stack, fun p port present => ?port, exec_farPoisonCountRead up ready awake,
      fun fn virt unit => ?farVirtual⟩
    case stack =>
      obtain ⟨corr, uncorr⟩ := exec_stackErrorReads up ready awake stack
      exact ⟨corr, uncorr, exec_stackRunReads up ready awake stack, exec_stackRunReads_lockout up ready awake stack,
        fun fn virt unit => exec_stackReads_virtual up ready awake stack virt unit⟩
    case port =>
      obtain ⟨crc, fec, retrains, tags⟩ := exec_fyantReads_physical up ready awake port present
      exact ⟨crc, fec, retrains, tags, fun fn virt unit => exec_fyantReads_virtual up ready awake port virt unit⟩
    case farVirtual =>
      rw [exec_farPoisonCountRead_meaning]
      exact virtual_read up ready awake virt unit (by decide) (by decide)
  case shared =>
    obtain ⟨retries, repairs, repairFails, plausibility⟩ := exec_faultReads_physical up ready awake
    refine ⟨exec_serveFlagFallsRead up ready awake, exec_serveDeferralsRead up ready awake, retries, repairs, repairFails,
      plausibility, fun p part => exec_sluiceFailRead_physical up ready awake part,
      fun p part fn unit sees => exec_kvReads_seen up ready awake part unit sees,
      fun p part fn unit hidden => exec_kvReads_hidden up ready awake part unit hidden, fun fn virt unit => ?virtual⟩
    case virtual =>
      obtain ⟨falls, deferrals⟩ := exec_serveReads fn s
      obtain ⟨noRetries, noRepairs, noRepairFails, noPlausibility⟩ := exec_faultReads_virtual up ready awake virt unit
      refine ⟨falls.trans (serve_virtual_read up ready awake virt unit (.inl rfl)),
        deferrals.trans (serve_virtual_read up ready awake virt unit (.inr rfl)), noRetries, noRepairs, noRepairFails,
        noPlausibility, fun p part => ?sluice⟩
      rw [exec_sluiceFailRead part]
      exact virtual_read up ready awake virt unit (by omega) (by omega)

end Sys2Proof.Machine
end

section
/-!
Bundles: what each slot leaves, results that land, rows of a tile's control core (R70, R71, R73, R115, R117 to R119, R122).
-/

namespace Sys2Proof.Machine

/-! ## What a push leaves -/

/-- `y` has the registers, memories and read cache of `x`, its miss, its results to land and its beat. -/
structure SameCore (x y : Tile) : Prop where
  regs : y.regs = x.regs
  imem : y.imem = x.imem
  priv : y.priv = x.priv
  cache : y.cache = x.cache
  miss : y.miss = x.miss
  landing : y.landing = x.landing
  beats : y.beats = x.beats

theorem SameCore.refl (x : Tile) : SameCore x x := ⟨rfl, rfl, rfl, rfl, rfl, rfl, rfl⟩

theorem SameCore.trans {x y z : Tile} (first : SameCore x y) (rest : SameCore y z) : SameCore x z :=
  ⟨rest.regs.trans first.regs, rest.imem.trans first.imem, rest.priv.trans first.priv, rest.cache.trans first.cache,
    rest.miss.trans first.miss, rest.landing.trans first.landing, rest.beats.trans first.beats⟩

theorem setEngine_sameCore (x : Tile) (e : Nat) (v : Engine) : SameCore x (x.setEngine e v) := by
  unfold Tile.setEngine
  split <;> exact ⟨rfl, rfl, rfl, rfl, rfl, rfl, rfl⟩

theorem pushEntry_sameCore (n : Nat) (x : Tile) (p : Nat × BitVec 128) : SameCore x (pushEntry n x p) := by
  obtain ⟨regs, imem, priv, cache, miss, landing, beats⟩ := setEngine_sameCore x p.1 { x.engine p.1 with
    queue := (x.engine p.1).queue ++
      [{ id := x.nextEntry, word := p.2, beat := n, regions := regionsOf x p.1 (Ins.of p.2) }] }
  exact ⟨regs, imem, priv, cache, miss, landing, beats⟩

theorem pushes_sameCore (n : Nat) (ps : List (Nat × BitVec 128)) (x : Tile) : SameCore x (ps.foldl (pushEntry n) x) := by
  induction ps generalizing x with
  | nil => exact .refl x
  | cons p ps ih => exact (pushEntry_sameCore n x p).trans (ih _)

/-- A tile once a bundle's results are set to land and its words are pushed, before its memory slot acts. -/
def Bundle.pushed (b : Bundle) (x : Tile) : Tile :=
  (b.entries x).foldl (pushEntry x.beats) { x with landing := x.landing ++ b.results x }

theorem pushed_sameCore (b : Bundle) (x : Tile) :
    SameCore { x with landing := x.landing ++ b.results x } (b.pushed x) := pushes_sameCore _ _ _

/-! ## The memory slot (R119, R121) -/

/-- What a memory slot of a tile that was `x` does to `y`. -/
def Mem.effect (m : Mem) (x y : Tile) : Tile :=
  if m.isStore then { y with priv := memWrite y.priv (m.address x).toNat (toLe (Mem.size m.op) (x.reg m.d).toNat) }
  else if m.isGlobal then globalLoad m y
  else if m.op = 0xC then { y with cache := [] } else y

section
variable {m : Mem} {x y : Tile}

theorem effect_store (store : m.op = 3 ∨ m.op = 4) : m.effect x y =
    { y with priv := memWrite y.priv (m.address x).toNat (toLe (Mem.size m.op) (x.reg m.d).toNat) } :=
  if_pos (by simpa [Mem.isStore] using store)

theorem effect_global (lo : 8 ≤ m.op) (hi : m.op ≤ 0xA) : m.effect x y = globalLoad m y := by
  have noStore : ¬ m.isStore = true := by simp [Mem.isStore]; omega
  rw [Mem.effect, if_neg noStore, if_pos (by simp [Mem.isGlobal, lo, hi])]

theorem effect_invg (invg : m.op = 0xC) : m.effect x y = { y with cache := [] } := by
  simp [Mem.effect, Mem.isStore, Mem.isGlobal, invg]

end

theorem globalLoad_hit {m : Mem} {y : Tile} {bs : List PByte} (hit : cacheBytes y m.op (m.address y) = some bs) :
    globalLoad m y = { y with landing := y.landing ++ [⟨y.beats + 2, 2, m.d, loadValue m.op (bs.map (·.1))⟩] } := by
  simp only [globalLoad, hit]

theorem globalLoad_miss {m : Mem} {y : Tile} (miss : cacheBytes y m.op (m.address y) = none) :
    globalLoad m y = { y with miss := some ⟨m.op, y.beats, m.d, m.address y⟩ } := by
  simp only [globalLoad, miss]

/-- `z` is `y` but for its miss and for more results to land: what a global load leaves. -/
structure LoadOnly (y z : Tile) : Prop where
  regs : z.regs = y.regs
  imem : z.imem = y.imem
  priv : z.priv = y.priv
  cache : z.cache = y.cache
  landing : ∀ r ∈ y.landing, r ∈ z.landing

theorem globalLoad_loadOnly (m : Mem) (y : Tile) : LoadOnly y (globalLoad m y) := by
  cases held : cacheBytes y m.op (m.address y) with
  | some bs => rw [globalLoad_hit held]; exact ⟨rfl, rfl, rfl, rfl, fun r mem => List.mem_append_left _ mem⟩
  | none => rw [globalLoad_miss held]; exact ⟨rfl, rfl, rfl, rfl, fun r mem => mem⟩

/-- No memory slot changes registers or code, or takes back a result. -/
theorem effect_keeps (m : Mem) (x y : Tile) : (m.effect x y).regs = y.regs ∧ (m.effect x y).imem = y.imem ∧
    ∀ r ∈ y.landing, r ∈ (m.effect x y).landing := by
  have load := globalLoad_loadOnly m y
  unfold Mem.effect
  split
  · exact ⟨rfl, rfl, fun r mem => mem⟩
  split
  · exact ⟨load.regs, load.imem, load.landing⟩
  split <;> exact ⟨rfl, rfl, fun r mem => mem⟩

theorem effect_priv {m : Mem} (noStore : m.op ≠ 3 ∧ m.op ≠ 4) (x y : Tile) : (m.effect x y).priv = y.priv := by
  unfold Mem.effect
  rw [if_neg (by simpa [Mem.isStore] using noStore)]
  split
  · exact (globalLoad_loadOnly m y).priv
  split <;> rfl

theorem effect_cache {m : Mem} (noInvg : m.op ≠ 0xC) (x y : Tile) : (m.effect x y).cache = y.cache := by
  unfold Mem.effect
  split
  · rfl
  split
  · exact (globalLoad_loadOnly m y).cache
  · rfl

/-! ## What a bundle leaves (R115, R117, R122, R123) -/

/-- `y` shows the registers, memories, cache, miss and results to land of `z`. -/
structure Shows (z y : Tile) : Prop where
  regs : y.regs = z.regs
  imem : y.imem = z.imem
  priv : y.priv = z.priv
  cache : y.cache = z.cache
  miss : y.miss = z.miss
  landing : y.landing = z.landing

theorem bundleIssue_noMem {b : Bundle} (noMem : b.mem = none) (x : Tile) : Shows (b.pushed x) (b.issue x) := by
  unfold Bundle.issue
  simp only [noMem]
  exact ⟨rfl, rfl, rfl, rfl, rfl, rfl⟩

theorem bundleIssue_mem {b : Bundle} {m : Mem} (mem : b.mem = some m) (x : Tile) :
    Shows (m.effect x (b.pushed x)) (b.issue x) := by
  unfold Bundle.issue
  simp only [mem]
  exact ⟨rfl, rfl, rfl, rfl, rfl, rfl⟩

theorem bundleIssue_noBranch {b : Bundle} (noBranch : b.branch = none) (x : Tile) :
    (b.issue x).pc = x.pc + b.words ∧ (b.issue x).halted = false := by
  constructor <;> simp [Bundle.issue, noBranch]

theorem bundleIssue_branch {b : Bundle} {r : Branch} (branch : b.branch = some r) (x : Tile) :
    (b.issue x).pc = (r.next x).getD (x.pc + b.words) ∧ (b.issue x).halted = decide (r.op = 0xF) := by
  constructor <;> simp [Bundle.issue, branch, Branch.isHalt]

theorem bundleIssue_beats (b : Bundle) (x : Tile) : (b.issue x).beats = x.beats + 1 + b.idle := rfl

/-- Registers change only where a result lands; code never. -/
theorem bundleIssue_regs (b : Bundle) (x : Tile) : (b.issue x).regs = x.regs ∧ (b.issue x).imem = x.imem := by
  have core := pushed_sameCore b x
  cases mem : b.mem with
  | none =>
    have shows := bundleIssue_noMem mem x
    exact ⟨shows.regs.trans core.regs, shows.imem.trans core.imem⟩
  | some m =>
    have shows := bundleIssue_mem mem x
    obtain ⟨regs, imem, -⟩ := effect_keeps m x (b.pushed x)
    exact ⟨(shows.regs.trans regs).trans core.regs, (shows.imem.trans imem).trans core.imem⟩

/-- The results of a bundle's slots that are known as it issues are set to land. -/
theorem bundleIssue_lands {b : Bundle} {x : Tile} {r : Landing} (result : r ∈ b.results x) :
    r ∈ (b.issue x).landing := by
  have pushed : r ∈ (b.pushed x).landing := by
    rw [(pushed_sameCore b x).landing]
    exact List.mem_append_right _ result
  cases mem : b.mem with
  | none => rw [(bundleIssue_noMem mem x).landing]; exact pushed
  | some m =>
    obtain ⟨-, -, landing⟩ := effect_keeps m x (b.pushed x)
    rw [(bundleIssue_mem mem x).landing]
    exact landing r pushed

theorem results_alu {b : Bundle} {k : Nat} {a : Alu} (slot : (k, a) ∈ b.alus) (x : Tile) :
    ⟨x.beats + a.latency, k, a.d, a.value x⟩ ∈ b.results x :=
  List.mem_append_left _ (List.mem_append_left _ (List.mem_map.2 ⟨(k, a), slot, rfl⟩))

theorem results_load {b : Bundle} {m : Mem} (mem : b.mem = some m) (load : m.op ≤ 2) (x : Tile) :
    ⟨x.beats + 2, 2, m.d, loadValue m.op (memRead x.priv (m.address x).toNat (Mem.size m.op))⟩ ∈ b.results x := by
  simp [Bundle.results, mem, load]

theorem results_call {b : Bundle} {r : Branch} (branch : b.branch = some r) (call : r.op = 5) (x : Tile) :
    ⟨x.beats + 1, 3, 31, BitVec.ofNat 64 (x.pc + b.words)⟩ ∈ b.results x := by
  simp [Bundle.results, branch, call]

theorem results_djnz {b : Bundle} {r : Branch} (branch : b.branch = some r) (djnz : r.op = 7) (x : Tile) :
    ⟨x.beats + 1, 3, r.c, x.reg r.c - 1⟩ ∈ b.results x := by
  simp [Bundle.results, branch, djnz]

theorem entries_abase {b : Bundle} {m : Mem} (mem : b.mem = some m) (abase : m.op = 0xD) (x : Tile) :
    (bits m.off 17 16, abaseWord (m.off % 16) (x.reg m.d).toNat) ∈ b.entries x := by
  simp [Bundle.entries, mem, abase]

theorem entries_gbase {b : Bundle} {m : Mem} (mem : b.mem = some m) (gbase : m.op = 0xE) (x : Tile) :
    (3, gbaseWord m.off (x.reg m.d)) ∈ b.entries x := by
  simp [Bundle.entries, mem, gbase]

/-! ## Global loads (R70, R71, R119) -/

theorem cacheBytes_pushed (b : Bundle) (x : Tile) (op : Nat) (a : W64) :
    cacheBytes (b.pushed x) op a = cacheBytes x op a := by
  have cache : (b.pushed x).cache = x.cache := (pushed_sameCore b x).cache
  have line : lineOf (b.pushed x) = lineOf x := funext fun l => by rw [lineOf, cache, lineOf]
  rw [cacheBytes, line, cacheBytes]

theorem address_pushed (b : Bundle) (m : Mem) (x : Tile) : m.address (b.pushed x) = m.address x := by
  have regs : (b.pushed x).regs = x.regs := (pushed_sameCore b x).regs
  simp [Mem.address, Tile.reg, regs]

section
variable {b : Bundle} {m : Mem} (mem : b.mem = some m) (lo : 8 ≤ m.op) (hi : m.op ≤ 0xA) {x : Tile}
include mem lo hi

theorem bundleIssue_hit {bs : List PByte} (hit : cacheBytes x m.op (m.address x) = some bs) :
    ⟨x.beats + 2, 2, m.d, loadValue m.op (bs.map (·.1))⟩ ∈ (b.issue x).landing ∧ (b.issue x).miss = x.miss := by
  have core := pushed_sameCore b x
  have shows := bundleIssue_mem mem x
  have held : cacheBytes (b.pushed x) m.op (m.address (b.pushed x)) = some bs := by
    rw [address_pushed, cacheBytes_pushed, hit]
  rw [effect_global lo hi, globalLoad_hit held] at shows
  refine ⟨?_, shows.miss.trans core.miss⟩
  rw [shows.landing, core.beats]
  exact List.mem_append_right _ (List.mem_singleton.2 rfl)

theorem bundleIssue_miss (miss : cacheBytes x m.op (m.address x) = none) :
    (b.issue x).miss = some ⟨m.op, x.beats, m.d, m.address x⟩ := by
  have shows := bundleIssue_mem mem x
  have held : cacheBytes (b.pushed x) m.op (m.address (b.pushed x)) = none := by
    rw [address_pushed, cacheBytes_pushed, miss]
  rw [effect_global lo hi, globalLoad_miss held, address_pushed, (pushed_sameCore b x).beats] at shows
  exact shows.miss

end

/-! ## Where a branch goes (R122) -/

theorem next_always {r : Branch} (always : r.op = 0 ∨ r.op = 5) (x : Tile) : r.next x = some r.target := by
  rcases always with op | op <;> simp [Branch.next, op]

theorem next_indirect {r : Branch} (op : r.op = 6) (x : Tile) : r.next x = some (x.reg r.c).toNat := by
  simp [Branch.next, op]

theorem getD_taken (p : Prop) [Decidable p] (target next : Nat) :
    (if p then some target else none).getD next = if p then target else next := by split <;> rfl

/-- A conditional branch goes to its target where its register meets its condition, else to the next bundle. -/
theorem next_conditional (r : Branch) (x : Tile) (next : Nat) :
    (r.op = 1 → (r.next x).getD next = if x.reg r.c = 0 then r.target else next) ∧
    (r.op = 2 → (r.next x).getD next = if x.reg r.c ≠ 0 then r.target else next) ∧
    (r.op = 3 → (r.next x).getD next = if (x.reg r.c).toInt < 0 then r.target else next) ∧
    (r.op = 4 → (r.next x).getD next = if 0 ≤ (x.reg r.c).toInt then r.target else next) ∧
    (r.op = 7 → (r.next x).getD next = if x.reg r.c - 1 ≠ 0 then r.target else next) := by
  refine ⟨fun op => ?_, fun op => ?_, fun op => ?_, fun op => ?_, fun op => ?_⟩ <;>
    simp only [Branch.next, op, decide_eq_true_eq, getD_taken]

/-! ## The slots of a bundle, one by one -/

section
variable {b : Bundle} {m : Mem} (mem : b.mem = some m) {x : Tile}
include mem

theorem bundleIssue_load (load : m.op ≤ 2) :
    ⟨x.beats + 2, 2, m.d, loadValue m.op (memRead x.priv (m.address x).toNat (Mem.size m.op))⟩ ∈ (b.issue x).landing :=
  bundleIssue_lands (results_load mem load x)

theorem bundleIssue_store (store : m.op = 3 ∨ m.op = 4) : (b.issue x).priv =
    memWrite x.priv (m.address x).toNat (toLe (Mem.size m.op) (x.reg m.d).toNat) := by
  have shows := bundleIssue_mem mem x
  rw [effect_store store] at shows
  rw [shows.priv, (pushed_sameCore b x).priv]

theorem bundleIssue_priv (noStore : m.op ≠ 3 ∧ m.op ≠ 4) : (b.issue x).priv = x.priv := by
  rw [(bundleIssue_mem mem x).priv, effect_priv noStore, (pushed_sameCore b x).priv]

theorem bundleIssue_invg (invg : m.op = 0xC) : (b.issue x).cache = [] := by
  rw [(bundleIssue_mem mem x).cache, effect_invg invg]

theorem bundleIssue_cache (noInvg : m.op ≠ 0xC) : (b.issue x).cache = x.cache := by
  rw [(bundleIssue_mem mem x).cache, effect_cache noInvg, (pushed_sameCore b x).cache]

end

theorem bundleIssue_noMem_memories {b : Bundle} (noMem : b.mem = none) (x : Tile) :
    (b.issue x).priv = x.priv ∧ (b.issue x).cache = x.cache := by
  have shows := bundleIssue_noMem noMem x
  have core := pushed_sameCore b x
  exact ⟨shows.priv.trans core.priv, shows.cache.trans core.cache⟩

end Sys2Proof.Machine
end

section
/-!
Rows of a tile: results that land, bundles that issue, lines that arrive, set-up instructions, completion, operands outside
the local ranges (R70, R71, R73, R102, R111, R115, R117, R125, R126, R128, R136, R139).
-/

namespace Sys2Proof.Machine

/-! ## Landing (R70, R73, R117) -/

theorem land_early {x : Tile} {u : Landing} (one : x.landing = [u]) (early : x.beats < u.beat) : x.land = x := by
  have undue : ¬ u.beat ≤ x.beats := Nat.not_le.2 early
  have same : { x with landing := [u] } = x := by rw [← one]
  simpa [Tile.land, one, undue] using same

theorem land_one {x : Tile} {u : Landing} (one : x.landing = [u]) (due : u.beat ≤ x.beats) :
    x.land = { x with regs := putReg x.regs u.reg u.value, landing := [] } := by
  simp [Tile.land, one, due, insertBy]

/-- Two results that are due land in their order, whichever was set to land first. -/
theorem land_two {x : Tile} {u v : Landing} (two : x.landing = [u, v] ∨ x.landing = [v, u]) (dueU : u.beat ≤ x.beats)
    (dueV : v.beat ≤ x.beats) (before : u.beat < v.beat ∨ (u.beat = v.beat ∧ u.slot < v.slot)) :
    x.land.regs = putReg (putReg x.regs u.reg u.value) v.reg v.value := by
  have first : landsBefore u v = true := by simpa [landsBefore] using before
  have notFirst : landsBefore v u = false := by
    simp [landsBefore]
    omega
  rcases two with order | order <;> simp [Tile.land, order, dueU, dueV, insertBy, first, notFirst]

theorem putReg_c0 (rs : Tab W64) (w : W64) : putReg rs 0 w = rs := if_pos rfl

theorem putReg_reads {r : Nat} {w : W64} (nonzero : w ≠ 0) (notC0 : r ≠ 0) (rs : Tab W64) :
    tabGet 0 (putReg rs r w) r = w ∧ ∀ q, q ≠ r → tabGet 0 (putReg rs r w) q = tabGet 0 rs q := by
  rw [putReg, if_neg notC0]
  exact ⟨tabGet_tabSet_eq 0 rs r w nonzero, fun q other => tabGet_tabSet_ne 0 rs r q w other⟩

/-! ## Rows of the control core (R70, R71, R115, R136) -/

theorem exec_bundleIssue_meaning (t : Nat) (s : State) : exec (.bundleIssue t) s = execBundleIssue t s := rfl

theorem exec_ccResultLand_meaning (t : Nat) (s : State) : exec (.ccResultLand t) s = execCcResultLand t s := rfl

theorem exec_readCacheFill_meaning (t : Nat) (s : State) : exec (.readCacheFill t) s = execReadCacheFill t s := rfl

section
variable {s : State} {t : Nat} (tile : t < 512) (runs : running s = true) (free : frozen s t = false)
include tile runs free

theorem exec_bundleIssue (going : (tileAt s t).halted = false) (noMiss : (tileAt s t).miss = none)
    (noWalk : (tileAt s t).pc ≠ walkWord ∨ tileOp s t ≠ 0x0406) :
    exec (.bundleIssue t) s = .next (issueBundle t s) := by
  have acts : ¬ (frozen s t || (tileAt s t).halted || (tileAt s t).miss.isSome) = true := by simp [free, going, noMiss]
  have noVisit : ¬ (decide ((tileAt s t).pc = walkWord) && decide (tileOp s t = 0x0406)) = true := by
    rcases noWalk with h | h <;> simp [h]
  rw [exec_bundleIssue_meaning, execBundleIssue, onUnit_inside tile, whenRunning_runs runs]
  simp only
  rw [if_neg acts, if_neg noVisit]

theorem exec_ccResultLand_lands (noMiss : (tileAt s t).miss = none) :
    exec (.ccResultLand t) s = .next (setTile s t (tileAt s t).land) := by
  rw [exec_ccResultLand_meaning, execCcResultLand, onUnit_inside tile, whenRunning_runs runs,
    if_neg (by simp [free, noMiss])]

theorem exec_readCacheFill : exec (.readCacheFill t) s = .next (cacheFill t s) := by
  rw [exec_readCacheFill_meaning, execReadCacheFill, onUnit_inside tile, whenRunning_runs runs, if_neg (by simp [free])]

end

/-- While a load has frozen the core nothing lands (R71). -/
theorem exec_ccResultLand_frozen {s : State} {t : Nat} (tile : t < 512) (runs : running s = true)
    (miss : (tileAt s t).miss.isSome = true) : exec (.ccResultLand t) s = .next s := by
  rw [exec_ccResultLand_meaning, execCcResultLand, onUnit_inside tile, whenRunning_runs runs, if_pos (by simp [miss])]

section
variable {s : State} {t : Nat} {x : Tile} (landed : x = (tileAt s t).land)
include landed

/-- No bundle at the program counter is a job fault of the core (R136). -/
theorem issueBundle_noBundle (missing : readBundle x x.pc = none) :
    issueBundle t s = noteJobFault (0, t, 4) x.cmd s := by
  subst landed
  unfold issueBundle
  simp only [missing]

/-- A legal bundle issues unless something keeps it. -/
theorem issueBundle_legal {b : Bundle} (read : readBundle x x.pc = some b)
    (legal : b.bad x (fun w => w < x.codeWords || (w = walkWord && tileOp s t = 0x0406)) = none)
    (reaches : ∀ m, b.mem = some m → (m.private_ && !m.privOk x) = false ∧ (m.isGlobal && ccDenied s t m x) = false) :
    issueBundle t s = if b.waits x then s else charge x.cmd (hitGot s t b x) (setTile s t (b.issue x)) := by
  subst landed
  unfold issueBundle
  simp only [read, legal]
  refine if_neg ?_
  cases mem : b.mem with
  | none => simp
  | some m =>
    obtain ⟨privateOk, globalOk⟩ := reaches m mem
    simp [privateOk, globalOk]

end

theorem hitGot_noMem {b : Bundle} (noMem : b.mem = none) (s : State) (t : Nat) (x : Tile) : hitGot s t b x = {} := by
  simp only [hitGot, noMem]

section
variable {s : State} {t l : Nat} {p : Pending} (miss : (tileAt s t).miss = some p)
  (line : (loadLines p.op p.address).find? (fun l => (lineOf (tileAt s t) l).isNone) = some l)
include miss line

/-- With its last line here, the load's result is set to land (R71). -/
theorem cacheFill_resumes {bs : List PByte}
    (held : cacheBytes (tileAt (fillLine t l p s) t) p.op p.address = some bs) :
    cacheFill t s = setTile (fillLine t l p s) t ((tileAt (fillLine t l p s) t).resume p bs) := by
  simp only [cacheFill, miss, line, held]

theorem cacheFill_waits (missing : cacheBytes (tileAt (fillLine t l p s) t) p.op p.address = none) :
    cacheFill t s = fillLine t l p s := by
  simp only [cacheFill, miss, line, missing]

end

/-! ## Set-up instructions and completion (R102, R125, R126, R139) -/

theorem exec_aset_meaning (t e : Nat) (s : State) : exec (.aset t e) s = execAset t e s := rfl

theorem exec_awrap_meaning (t e : Nat) (s : State) : exec (.awrap t e) s = execAwrap t e s := rfl

theorem exec_seed_meaning (t e : Nat) (s : State) : exec (.seed t e) s = execSeed t e s := rfl

theorem exec_dgset_meaning (t : Nat) (s : State) : exec (.dgset t) s = execDgset t s := rfl

theorem exec_engineInstructionComplete_meaning (t e : Nat) (s : State) :
    exec (.engineInstructionComplete t e) s = execEngineInstructionComplete t e s := rfl

section
variable {s : State} {t e : Nat} {h : Entry} (tile : t < 512) (engine : e < 4) (runs : running s = true)
  (free : frozen s t = false) (head : headOf s t e = some h)
include tile engine runs free head

/-- A set-up instruction at the head of its queue acts, and is finished. -/
theorem onSetup_head {ops : List Nat} (listed : ops.contains (Ins.of h.word).op = true) (unfinished : h.finished = false)
    (f : BitVec 128 → Engine → Engine) : onSetup t e ops s f = .next (setupDone t e (f h.word) s) := by
  have acts : ¬ (frozen s t || decide (4 ≤ e)) = true := by simp [free, engine]
  have fires : (ops.contains (Ins.of h.word).op && !h.finished) = true := by rw [listed, unfinished]; rfl
  rw [onSetup, onUnit_inside tile, whenRunning_runs runs, if_neg acts]
  simp only [head, fires, if_true]

theorem exec_engineInstructionComplete : exec (.engineInstructionComplete t e) s = .next
    (if entryDone s t e h then setTile s t ((tileAt s t).setEngine e
      { (tileAt s t).engine e with queue := ((tileAt s t).engine e).queue.drop 1 }) else s) := by
  have acts : ¬ (frozen s t || decide (4 ≤ e)) = true := by simp [free, engine]
  rw [exec_engineInstructionComplete_meaning, execEngineInstructionComplete, onUnit_inside tile, whenRunning_runs runs,
    if_neg acts]
  simp only [head]

end

theorem exec_dgset_head {s : State} {t : Nat} {h : Entry} (tile : t < 512) (runs : running s = true)
    (free : frozen s t = false) (head : headOf s t 3 = some h) (op : (Ins.of h.word).op = 4)
    (unfinished : h.finished = false) : ∀ u, u = setupDone t 3 id s → exec (.dgset t) s =
      .next (setTile u t { tileAt u t with
        gbase := tabSet 0 (tileAt u t).gbase (bits h.word.toNat 119 118) (h.word.setWidth 64) }) := by
  rintro _ rfl
  rw [exec_dgset_meaning, execDgset, onUnit_inside tile, whenRunning_runs runs, if_neg (by simp [free])]
  simp only [head]
  rw [if_pos (by simp [op, unfinished])]

/-- An instruction of repeat 0 is done as it stands. -/
theorem entryDone_noRepeat {h : Entry} (instr : 0x10 ≤ (Ins.of h.word).op) (noRepeat : (Ins.of h.word).rep = 0) (s : State)
    (t e : Nat) : entryDone s t e h = true := by
  simp [entryDone, instr, noRepeat]

/-- A repeat whose operands leave the local ranges is a job fault of its engine (R128, R136). -/
theorem onHead_outside {s : State} {t e op : Nat} {h : Entry} (head : AtHead s t e op h)
    (outside : operandsOk s t e (Ins.of h.word) = false) (f : Ins → Entry → State → State) :
    (onHead t e op s fun i h s => onLocal t e i s (f i h)) = .next (noteJobFault (0, t, e) (tileAt s t).cmd s) := by
  rw [onHead_atHead head, onLocal_outside outside, engFault]

/-- Settles O29: a bundle's slots are read off what it leaves after its pushes, results land in their order, and each row of
a tile acts at the head of what it serves. -/
theorem tilesIssueAndSetUpEngines : Obligations.TilesIssueAndSetUpEngines := by
  unfold Obligations.TilesIssueAndSetUpEngines
  refine ⟨?bundle, ?alu, fun x u v => ⟨fun one => ⟨land_early one, land_one one⟩, land_two,
    fun rs r w nonzero => ⟨putReg_c0 rs w, fun notC0 => putReg_reads nonzero notC0 rs⟩⟩, ?core, ?engines, ?outside⟩
  case bundle =>
    rintro b x _ rfl
    obtain ⟨regs, imem⟩ := bundleIssue_regs b x
    refine ⟨fun k a slot => bundleIssue_lands (results_alu slot x), fun m ad mem place => ?mem,
      fun noMem => bundleIssue_noMem_memories noMem x, fun noBranch => bundleIssue_noBranch noBranch x,
      fun r branch => ?branch, regs, imem⟩
    case mem =>
      have address : m.address x = BitVec.ofNat 64 ad := by rw [place, BitVec.ofNat_toNat, BitVec.setWidth_eq, Mem.address]
      subst place
      have load (op : m.op ≤ 2) := bundleIssue_load mem (x := x) op
      have store (op : m.op = 3 ∨ m.op = 4) := bundleIssue_store mem (x := x) op
      refine ⟨fun op => ?ld, fun op => ?lw, fun op => ?lwu, fun op => ?sd, fun op => ?sw,
        fun noSd noSw => bundleIssue_priv mem ⟨noSd, noSw⟩, bundleIssue_invg mem, bundleIssue_cache mem,
        fun lo hi n _ => ⟨fun bs hit => ?hit, fun miss => ?miss⟩, fun op => entries_abase mem op x,
        fun op => entries_gbase mem op x⟩
      case ld | lw | lwu =>
        have lands := load (by omega)
        rw [op] at lands
        exact lands
      case sd | sw =>
        have stored := store (by omega)
        rw [op] at stored
        exact stored
      case hit =>
        rw [← address] at hit
        exact bundleIssue_hit mem lo hi hit
      case miss =>
        rw [← address] at miss ⊢
        exact bundleIssue_miss mem lo hi miss
    case branch =>
      obtain ⟨pc, halted⟩ := bundleIssue_branch branch x
      obtain ⟨zero, nonzero, negative, atLeast, count⟩ := next_conditional r x (x.pc + b.words)
      rw [pc]
      exact ⟨fun op => by rw [next_always op]; rfl, fun op => by rw [next_indirect op]; rfl, zero, nonzero, negative,
        atLeast, fun op => ⟨count op, bundleIssue_lands (results_djnz branch op x)⟩,
        fun op => bundleIssue_lands (results_call branch op x), halted⟩
  case alu =>
    intro a b o listed
    simp only [List.mem_cons, List.not_mem_nil, or_false] at listed
    rcases listed with rfl | rfl | rfl | rfl | rfl | rfl | rfl | rfl | rfl | rfl | rfl | rfl | rfl | rfl | rfl | rfl <;> rfl
  case core =>
    intro s t x tile runs free landed
    refine ⟨fun going noMiss noWalk => ⟨fun b read legal reaches => ⟨fun waits => ?waits, fun issues => ?issues,
        fun noMem => hitGot_noMem noMem s t x, bundleIssue_beats b x, fun noBranch => (bundleIssue_noBranch noBranch x).1⟩,
        fun missing => ?noBundle⟩,
      fun noMiss => ?lands, exec_ccResultLand_frozen tile runs, fun p l miss line => ⟨_, rfl, fun bs held => ?resumes,
        fun missing => ?more⟩⟩
    case waits =>
      rw [exec_bundleIssue tile runs free going noMiss noWalk, issueBundle_legal landed read legal reaches, if_pos waits]
    case issues =>
      rw [exec_bundleIssue tile runs free going noMiss noWalk, issueBundle_legal landed read legal reaches,
        if_neg (by simp [issues])]
    case noBundle => rw [exec_bundleIssue tile runs free going noMiss noWalk, issueBundle_noBundle landed missing]
    case lands => rw [exec_ccResultLand_lands tile runs free noMiss, landed]
    case resumes => rw [exec_readCacheFill tile runs free, cacheFill_resumes miss line held]
    case more => rw [exec_readCacheFill tile runs free, cacheFill_waits miss line missing]
  case engines =>
    intro s t e h tile engine runs free head
    have setup {ops : List Nat} (listed : ops.contains (Ins.of h.word).op = true) (unfinished : h.finished = false) :=
      onSetup_head tile engine runs free head listed unfinished
    refine ⟨fun unfinished op => ?aset, fun unfinished op => ?awrap, fun unfinished op => ?seed,
      fun dx unfinished op => ⟨_, rfl, ?dgset⟩, fun done => ?done,
      fun instr noRepeat => entryDone_noRepeat instr noRepeat s t e, fun undone => ?undone⟩
    case aset => rw [exec_aset_meaning, execAset, setup (by simp [op]) unfinished]
    case awrap => rw [exec_awrap_meaning, execAwrap, setup (by simp [op]) unfinished]
    case seed => rw [exec_seed_meaning, execSeed, setup (by simp [op]) unfinished]
    case dgset =>
      subst dx
      rw [exec_dgset_head tile runs free head op unfinished _ rfl]
    case done => rw [exec_engineInstructionComplete tile engine runs free head, if_pos done]
    case undone => rw [exec_engineInstructionComplete tile engine runs free head, if_neg (by simp [undone])]
  case outside =>
    intro s t h c listed head outside
    simp only [List.mem_cons, List.not_mem_nil, or_false] at listed
    rcases listed with rfl | rfl | rfl | rfl | rfl | rfl | rfl | rfl | rfl | rfl | rfl | rfl | rfl | rfl | rfl | rfl | rfl |
      rfl | rfl | rfl
    all_goals
      unfold exec
      dsimp only [execVadd, execVsub, execVmul, execVfma, execVmax, execVmin, execVscale, execVmulb, execVsubb, execSexp,
        execSlog, execSrsqrt, execSrcp]
      exact onHead_outside head outside _

end Sys2Proof.Machine
end

section
/-!
Device time: reference edges, PPS edges and the time exchange (R79 to R82, R385, R386).
-/

namespace Sys2Proof.Machine

theorem exec_referenceClockEdge_meaning (s : State) : exec .referenceClockEdge s = execReferenceClockEdge s := rfl

theorem exec_ppsEdge_meaning (s : State) : exec .ppsEdge s = execPpsEdge s := rfl

theorem exec_ppsLockLapse_meaning (s : State) : exec .ppsLockLapse s = execPpsLockLapse s := rfl

theorem exec_timeExchangeTick_meaning (s : State) : exec .timeExchangeTick s = execTimeExchangeTick s := rfl

theorem exec_timeRequestReceive_meaning (p : Nat) (t1 : W64) (s : State) :
    exec (.timeRequestReceive p t1) s = execTimeRequestReceive p t1 s := rfl

theorem exec_timeReplyReceive_meaning (t1 t2 t3 : W64) (s : State) :
    exec (.timeReplyReceive t1 t2 t3) s = execTimeReplyReceive t1 t2 t3 s := rfl

/-! ## Reference edges and the slew (R79) -/

theorem exec_referenceClockEdge {s : State} (on : s.boot.vsb = true) :
    exec .referenceClockEdge s = .next (accrue (edgeStep s.time) { s with time := s.time.edge }) := by
  rw [exec_referenceClockEdge_meaning, execReferenceClockEdge, if_pos on]

theorem edgeStep_noSlew {t : Time} (still : t.slewLeft = 0) : edgeStep t = 10 := if_pos (by simp [still])

/-- At least 999 edges after the last slewed one, the next is slewed, the way the correction goes. -/
theorem edgeStep_slewed {t : Time} (spaced : 999 ≤ t.sinceSlew) (slews : t.slewLeft ≠ 0) :
    edgeStep t = if t.slewLeft > 0 then 11 else 9 :=
  if_neg (by simp [slews, slewSpacing, Nat.not_lt.2 spaced])

/-! ## PPS (R81, R82) -/

/-- A PPS edge is recorded, with whether it locks. -/
def ppsRecorded (locks : Bool) (s : State) : State :=
  { s with time := { s.time with ppsLast := s.time.now, ppsSeen := true, ppsLock := locks } }

/-- An edge locks when one was seen before it and it comes within 1 µs of 1 s after that. -/
def ppsLocks (s : State) : Bool := s.time.ppsSeen && decide (-1000 ≤ ppsError s) && decide (ppsError s ≤ 1000)

theorem exec_ppsEdge {s : State} (on : s.boot.vsb = true) : exec .ppsEdge s =
    .next (if ppsLocks s && (timeParent (ppsRecorded (ppsLocks s) s)).isNone
      then startSlew (Config.ppsSlew (ppsError s)) (ppsRecorded (ppsLocks s) s) else ppsRecorded (ppsLocks s) s) := by
  rw [exec_ppsEdge_meaning, execPpsEdge, if_pos on]
  rfl

theorem exec_ppsLockLapse {s : State} (locked : s.time.ppsLock = true) (late : ppsError s > 1000) :
    exec .ppsLockLapse s = .next { s with time := { s.time with ppsLock := false } } := by
  rw [exec_ppsLockLapse_meaning, execPpsLockLapse, if_pos (by simp [locked, late])]

/-! ## The exchange (R80, R385, R386) -/

theorem isReference_noNode {s : State} (noNode : s.fabric.node = none) : isReference s = false := by
  simp [isReference, noNode]

section
variable {s : State} (links : linksOn s = true)
include links

theorem exec_timeExchangeTick : exec .timeExchangeTick s = .next (timeTick s) := by
  rw [exec_timeExchangeTick_meaning, execTimeExchangeTick, if_pos links]

theorem exec_timeReplyReceive (node : s.fabric.node.isSome = true) (parent : (timeParent s).isSome = true)
    (t1 t2 t3 : W64) : exec (.timeReplyReceive t1 t2 t3) s = .next (timeReply t1 t2 t3 s) := by
  rw [exec_timeReplyReceive_meaning, execTimeReplyReceive, if_pos (by simp [links, node, parent])]

theorem exec_timeRequestReceive {p : Nat} (port : p < 16) (present : portPresent s p = true)
    (up : (portAt s p).state = .up) (node : s.fabric.node.isSome = true) (t1 : W64) :
    exec (.timeRequestReceive p t1) s = .next (sendTow (onePort p) (timeReplyBytes t1 (now s)) s) := by
  rw [exec_timeRequestReceive_meaning, execTimeRequestReceive, onPort_present port links present,
    if_pos (by simp [up, node])]

end

theorem timeTick_reference {s : State} (node : s.fabric.node.isSome = true) (reference : isReference s = true) :
    timeTick s = { s with time := { s.time with synced := true, asked := false, offset := 0 } } :=
  if_pos (by simp [reference, node])

theorem timeTick_asks {s : State} (node : s.fabric.node.isSome = true) (other : isReference s = false) {p : Nat}
    (parent : timeParent s = some p) : timeTick s = sendTow (onePort p) timeRequestBytes
      { s with time := { s.time with synced := s.time.synced && !s.time.asked, asked := true } } := by
  simp only [timeTick, other, node, parent, Bool.false_and, Bool.false_eq_true, if_true, if_false]

/-- No node ID, or no time parent: there is no one to ask (log 63). -/
theorem timeTick_alone {s : State} (other : isReference s = false)
    (alone : (if s.fabric.node.isSome then timeParent s else none) = none) :
    timeTick s = { s with time := { s.time with synced := false, asked := false } } := by
  simp only [timeTick, other, alone, Bool.false_and, Bool.false_eq_true, if_false]

/-- Settles O48: an edge adds its step, a PPS edge is recorded and locks by its error, and the exchange asks, answers and
slews by who the module is. -/
theorem deviceTimeAdvances : Obligations.DeviceTimeAdvances := by
  unfold Obligations.DeviceTimeAdvances
  refine fun s => ⟨fun on => ⟨exec_referenceClockEdge on, ?pps⟩, edgeStep_noSlew,
    fun spaced => ⟨fun ahead => ?faster, fun behind => ?slower⟩, exec_ppsLockLapse,
    fun links => ⟨fun alone => ?alone, fun node reference => ?reference, fun p node other parent => ?asks,
      fun p t1 port present up node => exec_timeRequestReceive links port present up (Option.isSome_iff_ne_none.2 node) t1,
      fun t1 t2 t3 d node parent hd => ?reply⟩⟩
  case pps =>
    rintro e l rfl hl s1 hs1
    have locks : ppsLocks s = l := hl.symm
    have recorded : ppsRecorded (ppsLocks s) s = s1 := by rw [locks, hs1]; rfl
    rw [exec_ppsEdge on, recorded, locks]
    refine ⟨fun locked noParent => congrArg _ (if_pos (by simp [locked, noParent])), fun free => congrArg _ (if_neg ?_)⟩
    rcases free with unlocked | parent
    · simp [unlocked]
    · simp [Option.isSome_iff_ne_none.1 parent]
  case faster => rw [edgeStep_slewed spaced (by omega), if_pos ahead]
  case slower => rw [edgeStep_slewed spaced (by omega), if_neg (by omega)]
  case alone =>
    rw [exec_timeExchangeTick links]
    rcases alone with noNode | ⟨other, noParent⟩
    · rw [timeTick_alone (isReference_noNode noNode) (by simp [noNode])]
    · rw [timeTick_alone other (by simp [noParent])]
  case reference => rw [exec_timeExchangeTick links, timeTick_reference (Option.isSome_iff_ne_none.2 node) reference]
  case asks => rw [exec_timeExchangeTick links, timeTick_asks (Option.isSome_iff_ne_none.2 node) other parent]
  case reply =>
    subst hd
    rw [exec_timeReplyReceive links (Option.isSome_iff_ne_none.2 node) parent]
    rfl

end Sys2Proof.Machine
end

section
/-!
Programs are loaded, launched on their tiles, and finish (R97, R99, R102, R126, R142 to R147).
-/

namespace Sys2Proof.Machine

theorem exec_loadProgram_meaning (id : Nat) (s : State) : exec (.loadProgram id) s = execLoadProgram id s := rfl

theorem exec_unloadProgram_meaning (id : Nat) (s : State) : exec (.unloadProgram id) s = execUnloadProgram id s := rfl

theorem exec_setFormatSlot_meaning (id : Nat) (s : State) : exec (.setFormatSlot id) s = execSetFormatSlot id s := rfl

theorem exec_launch_meaning (id : Nat) (s : State) : exec (.launch id) s = execLaunch id s := rfl

theorem exec_tileFinish_meaning (t : Nat) (s : State) : exec (.tileFinish t) s = execTileFinish t s := rfl

/-! ## Tiles -/

theorem tileAt_setTile_ne {t u : Nat} (other : t ≠ u) (s : State) (x : Tile) :
    tileAt (setTile s u x) t = tileAt s t := tabGet_tabSet_ne ({} : Tile) s.tiles u t x other

theorem tileAt_setTile_running {x : Tile} (runs : x.running = true) (s : State) (t : Nat) :
    tileAt (setTile s t x) t = x :=
  tabGet_tabSet_eq ({} : Tile) s.tiles t x fun idle => by simp [idle] at runs

/-! ## UNLOAD-PROGRAM (R147) -/

section
variable {s : State} {c : Cmd} {p : Program} (found : programAt s (c.at 16 4) = some p) (owned : p.job = c.job)
include found owned

/-- A program of the command's job is judged by the queues of the commands that run it. -/
theorem unloadChk_owned : unloadChk s c =
    (do need ((programQueues s p).all (· = c.queue)) .busy; pure p) := by
  simp only [unloadChk, found]
  rw [need_true (by simp [owned])]
  rfl

theorem unloadChk_finds (mine : ∀ q ∈ programQueues s p, q = c.queue) : Finds c s (unloadChk s c) p [] := by
  refine finds_of_pure ?_
  rw [unloadChk_owned found owned, need_true (by simpa using mine)]
  rfl

/-- A command of another queue runs the program (R147). -/
theorem unloadChk_rejects {q : Nat} (runs : q ∈ programQueues s p) (other : q ≠ c.queue) :
    Rejects c s (unloadChk s c) .busy [] := by
  have shared : ¬ (programQueues s p).all (· = c.queue) = true := by
    simpa using ⟨q, runs, other⟩
  rw [unloadChk_owned found owned, need, if_neg shared]
  exact ⟨rfl, by simp [Cmd.finds, reachOf]⟩

end

/-- A program that passes its check is freed once no command runs it. -/
theorem exec_unloadProgram_found {s : State} {id : Nat} {c : Cmd} {p : Program} (runs : Runs s 0x0303 id c)
    (finds : Finds c s (unloadChk s c) p []) : exec (.unloadProgram id) s = .next
      (if programQueues s p ≠ [] then waitCmd c.id s else doneCmd c.id 0 (unload p (resumeCmd c.id s))) := by
  rw [exec_unloadProgram_meaning, execUnloadProgram, onCmd_runs runs, judged_found finds]

/-! ## LAUNCH (R99, R126, R144, R146) -/

/-- The tiles of a LAUNCH start, each with the argument block `args`. -/
def launchTiles (c : Cmd) (p : Program) (sel : List Nat) (args : List Byte) (s : State) : State :=
  (if c.at 32 1 = 1 then twinStarts sel else plainStarts sel).foldl (startTile c.id p args)
    (updCmd c.id (fun y => { y with tiles := sel }) s)

section
variable {s : State} {id : Nat} {c : Cmd} {p : Program} {sel : List Nat} (runs : Runs s 0x0302 id c)
  (fresh : c.tiles = []) (finds : Finds c s (launchChk s c) (p, sel) [])
include runs fresh finds

theorem exec_launch_waits (busy : sel.any (fun t => (tileAt s t).running) = true) :
    exec (.launch id) s = .next (waitCmd c.id s) := by
  rw [exec_launch_meaning, execLaunch, onCmd_runs runs, if_neg (not_not_intro fresh), judged_found finds]
  exact congrArg _ (if_pos busy)

section
variable (idle : sel.any (fun t => (tileAt s t).running) = false)
include idle

theorem exec_launch_noArgs (noArgs : c.addr 24 = 0) :
    exec (.launch id) s = .next (launchTiles c p sel [] (resumeCmd c.id s)) := by
  rw [exec_launch_meaning, execLaunch, onCmd_runs runs, if_neg (not_not_intro fresh), judged_found finds]
  simp only [idle, noArgs, Bool.false_eq_true, if_false, if_true]
  rfl

/-- The argument block is read once no link and no lock holds it up. -/
theorem exec_launch_args (args : c.addr 24 ≠ 0) {s1 : State} (resumed : s1 = resumeCmd c.id s)
    (admitted : c.Admitted s1 [(c.addr 24, 256, false)]) {ps : List (Home × Nat)} (pieces : ps = c.pieces s1 (c.addr 24) 256)
    (free : reachOf s1 (.command c.id) ps = .go) :
    ∀ r, r = c.readAt (c.addr 24) 256 (noteWaits (.command c.id) ps s1) →
      exec (.launch id) s = .next (launchTiles c p sel (r.1.map (·.1)) r.2) := by
  rintro _ rfl
  subst resumed pieces
  rw [exec_launch_meaning, execLaunch, onCmd_runs runs, if_neg (not_not_intro fresh), judged_found finds]
  simp only [idle, args, Bool.false_eq_true, if_false]
  rw [remoteGate_admitted admitted, gate_reached free]
  rfl

end
end

theorem tileAt_startTile_ne {t : Nat} {x : Start} (other : t ≠ x.tile) (cmd : Nat) (p : Program) (args : List Byte)
    (s : State) : tileAt (startTile cmd p args s x) t = tileAt s t := tileAt_setTile_ne other s _

/-- A command runs with the slots and guard bands that it took at its start (R99, R405). -/
theorem slotsFor_found {s : State} {cmd : Nat} {y : Cmd} (found : cmdAt s cmd = some y) (part : Nat) :
    slotsFor s cmd part = y.slots.getD (partAt s part).slots ∧
      guardsFor s cmd part = y.guards.getD (partAt s part).guards := by
  rw [slotsFor, guardsFor, found]
  exact ⟨rfl, rfl⟩

/-! ## Finishing (R145) -/

section
variable {s : State} {t : Nat} (tile : t < 512) (runs : running s = true)
include tile runs

theorem exec_tileFinish : exec (.tileFinish t) s = .next (tileFinish t s) := by
  rw [exec_tileFinish_meaning, execTileFinish, onUnit_inside tile, whenRunning_runs runs]

theorem exec_tileFinish_goesOn (more : tileDone s t = false) : exec (.tileFinish t) s = .next s := by
  rw [exec_tileFinish tile runs, tileFinish, if_pos (by simp [more])]

/-- A finished tile without a twin ends. -/
theorem exec_tileFinish_ends (done : tileDone s t = true) (alone : (tileAt s t).twin = none) :
    exec (.tileFinish t) s = .next (endTile t s) := by
  rw [exec_tileFinish tile runs, tileFinish, if_neg (by simp [done]), if_neg (by simp [alone])]

end

/-- The tile no longer runs, and the beats of its latest MWLOAD have passed. -/
def tileEnded (t : Nat) (s : State) : State :=
  setTile s t { tileAt s t with running := false, mx := (tileAt s t).mx.loadDone }

theorem endTile_noCmd {s : State} {t : Nat} (noCmd : (tileAt s t).cmd = none) : endTile t s = tileEnded t s := by
  simp only [endTile, tileEnded, noCmd]

theorem endTile_cmd {s : State} {t id : Nat} (cmd : (tileAt s t).cmd = some id) :
    endTile t s = launchEnd id (tileEnded t s) := by
  simp only [endTile, tileEnded, cmd]

/-- With none of its tiles left running a LAUNCH completes with the largest of their beat counts. -/
theorem launchEnd_last {s : State} {id : Nat} {c : Cmd} (found : cmdAt s id = some c) (launch : c.opcode = 0x0302)
    (started : c.phase = .started) (last : c.tiles.any (fun u => (tileAt s u).running) = false) :
    launchEnd id s = doneCmd id (c.tiles.foldl (fun a u => max a (tileAt s u).count) 0) s := by
  simp only [launchEnd, found]
  exact if_pos (by simp only [launch, started, last]; rfl)

/-- Settles O28: each row acts by what its check finds; a started tile is read off its start, and a finished one ends the
LAUNCH whose last tile it is. -/
theorem programsLaunchAndFinish : Obligations.ProgramsLaunchAndFinish := by
  unfold Obligations.ProgramsLaunchAndFinish
  refine ⟨fun s id c => ⟨fun ps runs finds => ?loadsNone, fun h bs sel ps runs finds => ⟨_, _, rfl, rfl, ?loads⟩,
      fun p runs found owned => ⟨fun unused => ?frees, fun used mine => ?waits, fun q uses other => ?busy⟩,
      fun x runs finds => ?slot⟩,
    fun s id c p sel runs fresh finds => ⟨exec_launch_waits runs fresh finds,
      fun s1 ps idle resumed pieces => ⟨fun noArgs => ?noArgs, fun args admitted free =>
        ⟨_, rfl, exec_launch_args runs fresh finds idle args resumed admitted pieces free _ rfl⟩⟩,
      fun u x args => ?starts⟩,
    fun s t tile runs => ⟨exec_tileFinish_goesOn tile runs, fun done alone noCmd => ?ends,
      fun id c s1 done alone cmd found launch started ended last => ?completes⟩⟩
  case loadsNone =>
    rw [exec_loadProgram_meaning, execLoadProgram, onCmd_runs runs, judged_finds c _ s _ none ps finds]
  case loads =>
    rw [exec_loadProgram_meaning, execLoadProgram, onCmd_runs runs, judged_finds c _ s _ _ ps finds]
  case frees =>
    rw [exec_unloadProgram_found runs (unloadChk_finds found owned (by simp [unused])), if_neg (not_not_intro unused)]
  case waits => rw [exec_unloadProgram_found runs (unloadChk_finds found owned mine), if_pos used]
  case busy =>
    rw [exec_unloadProgram_meaning, execUnloadProgram, onCmd_runs runs,
      judged_rejects c _ s _ .busy [] (unloadChk_rejects found owned uses other), touch_nil]
  case slot =>
    rw [exec_setFormatSlot_meaning, execSetFormatSlot, onCmd_runs runs, judged_found finds]
    rfl
  case noArgs =>
    rw [resumed]
    exact exec_launch_noArgs runs fresh finds idle noArgs
  case starts =>
    have started : tileAt (startTile c.id p args u x) x.tile = _ := tileAt_setTile_running (by rfl) u x.tile
    rw [started]
    exact ⟨rfl, rfl, rfl, rfl, rfl, rfl, rfl, fun y found => slotsFor_found found p.part,
      fun t other => tileAt_startTile_ne other c.id p args u⟩
  case ends =>
    rw [exec_tileFinish_ends tile runs done alone, endTile_noCmd noCmd]
    rfl
  case completes =>
    subst ended
    rw [exec_tileFinish_ends tile runs done alone, endTile_cmd cmd]
    exact congrArg _ (launchEnd_last found launch started last)

end Sys2Proof.Machine
end

section
/-!
The MX, VX and SX instructions: one repeat of each, on operands inside the local ranges (R105 to R110, R131 to R134).
-/

namespace Sys2Proof.Machine

theorem exec_mwload_meaning (t : Nat) (s : State) : exec (.mwload t) s = execMwload t s := rfl

theorem exec_mma_meaning (t : Nat) (s : State) : exec (.mma t) s = execMma t s := rfl

theorem exec_mdrain_meaning (t : Nat) (s : State) : exec (.mdrain t) s = execMdrain t s := rfl

theorem exec_vcvt_meaning (t : Nat) (s : State) : exec (.vcvt t) s = execVcvt t s := rfl

theorem exec_vredsum_meaning (t : Nat) (s : State) : exec (.vredsum t) s = execVredsum t s := rfl

theorem exec_vredmax_meaning (t : Nat) (s : State) : exec (.vredmax t) s = execVredmax t s := rfl

theorem exec_sidx_meaning (t : Nat) (s : State) : exec (.sidx t) s = execSidx t s := rfl

/-- A row of an engine at the head of its queue, with its operands inside the local ranges, acts on them (R128). -/
theorem onHead_inside {s : State} {t e op : Nat} {h : Entry} {i : Ins} (word : i = Ins.of h.word)
    (head : AtHead s t e op h) (inside : operandsOk s t e i = true) (f : Ins → Entry → State → State) :
    (onHead t e op s fun i h s => onLocal t e i s (f i h)) = .next (f i h s) := by
  subst word
  rw [onHead_atHead head, onLocal_inside inside]

/-! ## MX (R107, R131) -/

section
variable {s : State} {t : Nat} {h : Entry} {i : Ins} (word : i = Ins.of h.word) (inside : operandsOk s t 0 i = true)
include word inside

/-- MWLOAD fills the buffer that BUF names; its 32 beats are then hidden beside those of others (R131). -/
theorem exec_mwload_loads (head : AtHead s t 0 0x10 h) {f : Fmt} (format : formatOf (tileAt s t).slots i.fs = some f)
    {k a : Nat} (rows : k = kCode (bits i.flags 2 1)) (place : a = (opAddress s t 0 i.as_).toNat) {bs : List PByte}
    (bytes : bs = (List.range 64).flatMap (fun r => bufferRow f (tileReader s t) (a + r * f.rowBytes k) i.bs k)) {s1 : State}
    (loaded : s1 = updHead t 0 id (fun en => { en.loadDone with load := 32, loading := i.flags % 2 })
      (repDone t 0 0 (chargeSpans t a (tileSpans (tileAt s t).slots i.fs i.bs k) (tileAt s t).cmd s))) :
    exec (.mwload t) s = .next (setTile s1 t (if i.flags % 2 = 0
      then { tileAt s1 t with wbuf0 := { loaded := true, format := i.fs, k := k, bytes := bs } }
      else { tileAt s1 t with wbuf1 := { loaded := true, format := i.fs, k := k, bytes := bs } })) := by
  subst rows place bytes loaded
  rw [exec_mwload_meaning, execMwload, onHead_inside word head inside]
  simp only [format]

theorem exec_mma_adds (head : AtHead s t 0 0x11 h) {f : Fmt} (format : formatOf (tileAt s t).slots i.ft = some f)
    {w : Weights} (buffer : w = wbufAt (tileAt s t) (i.flags % 2)) {row old : List Val × State}
    (source_row : row = source t 0 i.as_ i.fs i.bs w.k s)
    (source_old : old = (if bit i.flags 1 then (List.replicate 64 ⟨0, .fin false 0 0, false⟩, row.2)
      else source t 0 i.ad 16 0 64 row.2)) :
    exec (.mma t) s = .next (repDone t 0 1
      (updHead t 0 id (fun en => if en.loading = i.flags % 2 then en.loadDone else mxBeat en)
        (put32 t (opAddress s t 0 i.ad).toNat
          ((old.1.zipIdx 0).map fun o => accumulator (bit i.flags 1) o.1 row.1 (weightRow f w o.2)) old.2))) := by
  subst buffer source_row source_old
  rw [exec_mma_meaning, execMma, onHead_inside word head inside]
  simp only [format]

theorem exec_mdrain_converts (head : AtHead s t 0 0x12 h) {src : List Val × State}
    (sums : src = source t 0 i.as_ 16 0 64 s) {s1 : State}
    (cleared : s1 = if bit i.flags 0 then localWrite t (opAddress s t 0 i.as_).toNat (clean (zeros 256)) src.2 else src.2) :
    exec (.mdrain t) s = .next (repDone t 0 1
      (updHead t 0 id mxBeat (destination t 0 i (src.1.map fun v => (v.num, v.bad)) s1))) := by
  subst sums cleared
  rw [exec_mdrain_meaning, execMdrain, onHead_inside word head inside]

end

/-- With ZERO the old accumulator does not enter the sum: neither its value nor its poison (R107). -/
theorem accumulator_zero (old : Val) (row ws : List Val) : accumulator true old row ws =
    (dec32 (r32 (dot (row.map (·.num)) (ws.map (·.num)))), row.any (·.bad) || ws.any (·.bad)) := by
  simp [accumulator]

/-- Settles O30: each MX row acts on operands inside the local ranges. -/
theorem matrixEngineRuns : Obligations.MatrixEngineRuns := by
  unfold Obligations.MatrixEngineRuns
  intro s t h i word inside
  exact ⟨fun f k a bs s1 head format rows place bytes loaded =>
      exec_mwload_loads word inside head format rows place bytes loaded,
    fun f w row old head format buffer source_row source_old =>
      exec_mma_adds word inside head format buffer source_row source_old,
    fun src s1 head sums cleared => exec_mdrain_converts word inside head sums cleared,
    fun row ws old => accumulator_zero old row ws⟩

/-! ## VX (R105, R106, R109, R132, R133) -/

section
variable {s : State} {t op : Nat} {h : Entry} {i : Ins} (word : i = Ins.of h.word) (inside : operandsOk s t 1 i = true)
include word inside

/-- One repeat of an elementwise row. -/
theorem vxRow_head (head : AtHead s t 1 op h) (two dst one : Bool) (f : Ins → W32 → W32 → W32 → W32) :
    vxRow t op two dst one f s = .next (vxRepeat t i two dst one 1 (f i) s) := by
  rw [vxRow, onHead_inside word head inside]

/-- A beat counts with the first of the repeats that VCVT completes in it. -/
theorem exec_vcvt_converts (head : AtHead s t 1 0x17 h) : exec (.vcvt t) s = .next (vxRepeat t i false false false
    (if h.done % cvtPerBeat (tileAt s t).slots i = 0 then 1 else 0) (fun a _ _ => a) s) := by
  rw [exec_vcvt_meaning, execVcvt, onHead_inside word head inside]

theorem exec_vredsum_folds (head : AtHead s t 1 0x1A h) : exec (.vredsum t) s = .next (vxReduce t i add32 s) := by
  rw [exec_vredsum_meaning, execVredsum, onHead_inside word head inside]

theorem exec_vredmax_folds (head : AtHead s t 1 0x1B h) : exec (.vredmax t) s = .next (vxReduce t i max32 s) := by
  rw [exec_vredmax_meaning, execVredmax, onHead_inside word head inside]

end

/-- Without ACC the old destination does not enter the fold (R133). -/
theorem vxReduce_fresh {i : Ins} (fresh : bit i.flags 0 = false) (t : Nat) (f : W32 → W32 → W32) (s : State) :
    ∀ a, a = source t 1 i.as_ i.fs i.bs 64 s → vxReduce t i f s = repDone t 1 1 (destination t 1 i
      [(dec32 (treeReduce f (a.1.map (as32 i.mode))), a.1.any (·.bad))] a.2) := by
  rintro _ rfl
  simp only [vxReduce, fresh, Bool.false_eq_true, if_false]

/-- Settles O31: each elementwise row is `vxRow` with its binary32 operation, and VCVT counts its beats by its formats. -/
theorem vectorElementwiseRuns : Obligations.VectorElementwiseRuns := by
  unfold Obligations.VectorElementwiseRuns
  intro s t op h i head word inside
  have row := vxRow_head word inside head
  refine ⟨?add, ?sub, ?mul, ?fma, ?max, ?min, ?scale, ?cvt, ?mulb, ?subb⟩
  case cvt =>
    rintro rfl
    exact exec_vcvt_converts word inside head
  case add => rintro rfl; exact row true false false fun _ a b _ => add32 a b
  case sub => rintro rfl; exact row true false false fun _ a b _ => sub32 a b
  case mul => rintro rfl; exact row true false false fun _ a b _ => mul32 a b
  case fma => rintro rfl; exact row true true false fun _ a b d => fma32 a b d
  case max => rintro rfl; exact row true false false fun _ a b _ => max32 a b
  case min => rintro rfl; exact row true false false fun _ a b _ => min32 a b
  case scale =>
    rintro rfl
    exact row false false false fun i a _ _ =>
      fma32 a (BitVec.ofNat 32 i.imm) (BitVec.ofNat 32 (2 ^ 16 * bits i.imm 47 32))
  case mulb => rintro rfl; exact row true false true fun _ a b _ => mul32 a b
  case subb => rintro rfl; exact row true false true fun _ a b _ => sub32 a b

/-! ## SX (R110, R134) -/

section
variable {s : State} {t op : Nat} {h : Entry} {i : Ins} (word : i = Ins.of h.word) (inside : operandsOk s t 2 i = true)
include word inside

/-- One repeat of f(s × p). -/
theorem sxRow_head (head : AtHead s t 2 op h) (f : W32 → W32) : ∀ a, a = source t 2 i.as_ i.fs i.bs 64 s →
    sxRow t op f s = .next (repDone t 2 4 (destination t 2 i
      (a.1.map fun v => (dec32 (f (mul32 (as32 i.mode v) (BitVec.ofNat 32 i.imm))), v.bad)) a.2)) := by
  rintro _ rfl
  rw [sxRow, onHead_inside word head inside]

theorem exec_sidx_multiplies (head : AtHead s t 2 0x14 h) : ∀ a, a = source t 2 i.as_ 16 0 64 s →
    exec (.sidx t) s = .next (repDone t 2 4 (localWrite t (opAddress s t 2 i.ad).toNat
      (a.1.flatMap fun v => (toLe 4 (BitVec.ofNat 32 v.code * BitVec.ofNat 32 i.imm +
        BitVec.ofInt 32 (signed 24 (bits i.imm 55 32))).toNat).map fun b => (b, v.bad)) a.2)) := by
  rintro _ rfl
  rw [exec_sidx_meaning, execSidx, onHead_inside word head inside]

end

/-- Settles O32: a reduction folds by its operation, and each SX function's row is `sxRow` with it. -/
theorem reductionsAndFunctionsRun : Obligations.ReductionsAndFunctionsRun := by
  unfold Obligations.ReductionsAndFunctionsRun
  refine fun s t h i word => ⟨fun inside => ⟨exec_vredsum_folds word inside, exec_vredmax_folds word inside,
      fun f a operand fresh => vxReduce_fresh fresh t f s a operand⟩,
    fun inside => ⟨fun a operand c listed head => ?functions,
      fun a operand head => exec_sidx_multiplies word inside head a operand⟩⟩
  case functions =>
    have row := sxRow_head word inside head c.2.2 a operand
    simp only [List.mem_cons, List.not_mem_nil, or_false] at listed
    rcases listed with rfl | rfl | rfl | rfl <;> exact row

end Sys2Proof.Machine
end

section
/-!
Copies and fills move the bytes they name (R149, R170, R175).
-/

namespace Sys2Proof.Machine

theorem exec_memCopy_meaning (id : Nat) (s : State) : exec (.memCopy id) s = execMemCopy id s := rfl

theorem exec_memFill_meaning (id : Nat) (s : State) : exec (.memFill id) s = execMemFill id s := rfl

theorem exec_copyTensor_meaning (id : Nat) (s : State) : exec (.copyTensor id) s = execCopyTensor id s := rfl

/-! ## MEM-COPY and MEM-FILL (R58, R175) -/

section
variable {s : State} {id : Nat} {c : Cmd}

/-- A copy of no bytes completes before its check (log 66). -/
theorem exec_memCopy_noBytes (runs : Runs s 0x0201 id c) (empty : c.at 32 8 = 0) :
    exec (.memCopy id) s = .next (doneCmd c.id 0 s) := by
  rw [exec_memCopy_meaning, execMemCopy, onCmd_runs runs, if_pos empty]

/-- A fill of no bytes completes before its check (log 66). -/
theorem exec_memFill_noBytes (runs : Runs s 0x0202 id c) (empty : c.at 24 8 = 0) :
    exec (.memFill id) s = .next (doneCmd c.id 0 s) := by
  rw [exec_memFill_meaning, execMemFill, onCmd_runs runs, if_pos empty]

/-- A checked copy whose ranges are admitted and reached writes what it read. -/
theorem exec_memCopy_moves {n : Nat} (runs : Runs s 0x0201 id c) (count : n = c.at 32 8) (nonempty : n ≠ 0)
    (finds : Finds c s (memCopyChk s c) () [])
    (admitted : c.Admitted s [(c.addr 16, n, false), (c.addr 24, n, true)]) {ps : List (Home × Nat)}
    (pieces : ps = c.pieces s (c.addr 16) n ++ c.pieces s (c.addr 24) n) (free : reachOf s (.command c.id) ps = .go) :
    ∀ r, r = c.readAt (c.addr 16) n (noteWaits (.command c.id) ps s) →
      exec (.memCopy id) s = .next (doneCmd c.id n (c.writeAt (c.addr 24) r.1 r.2)) := by
  rintro _ rfl
  subst count pieces
  rw [exec_memCopy_meaning, execMemCopy, onCmd_runs runs, if_neg nonempty, judged_found finds,
    remoteGate_admitted admitted, gate_reached free]

/-- A checked fill whose range is admitted and reached writes its pattern there. -/
theorem exec_memFill_repeats {n : Nat} (runs : Runs s 0x0202 id c) (count : n = c.at 24 8) (nonempty : n ≠ 0)
    (finds : Finds c s (c.checkRanges s [(16, c.addr 16, n)]) () []) (admitted : c.Admitted s [(c.addr 16, n, true)])
    (free : reachOf s (.command c.id) (c.pieces s (c.addr 16) n) = .go) :
    exec (.memFill id) s = .next (doneCmd c.id n (c.writeAt (c.addr 16) (clean (pattern (c.at 32 4) n))
      (noteWaits (.command c.id) (c.pieces s (c.addr 16) n) s))) := by
  subst count
  rw [exec_memFill_meaning, execMemFill, onCmd_runs runs, if_neg nonempty, judged_found finds,
    remoteGate_admitted admitted, gate_reached free]

end

/-! ## COPY-TENSOR (R149, R170, R183) -/

/-- A checked layout passes its stages in turn: it is admitted to its ranges, holds what it uses of its index and reaches
it, holds what that index takes of its source, and reaches all that it touches; then its elements move. -/
theorem exec_copyTensor_moves {s s1 : State} {id : Nat} {c : Cmd} {l : Layout} {ps ws : List (Home × Nat)}
    {rs : List (W64 × Nat)} (runs : Runs s 0x0203 id c) (finds : Finds c s (layoutChk s c) l ps)
    (touched : s1 = touch c ps s) (admits : c.Admits s1 l.ranges) (holdsIndex : c.Holds s1 1 l.indexRuns)
    (freeIndex : reachOf s1 (.command c.id) (c.nearOf s1 l.indexRuns) = .go)
    (source : rs = l.sourceRuns (l.index (viewOf s1 (c.place s1) c.fetched c.tainted))) (holdsSource : c.Holds s1 2 rs)
    (all : ws = c.nearOf s1 (l.indexRuns ++ rs) ++ (l.ranges.filter (·.2.2)).flatMap (fun r => c.pieces s1 r.1 r.2.1))
    (free : reachOf s1 (.command c.id) ws = .go) :
    exec (.copyTensor id) s = .next (copyMove c l (noteWaits (.command c.id) ws s1)) := by
  subst touched source all
  rw [exec_copyTensor_meaning, execCopyTensor, onCmd_runs runs, judged_finds c _ s _ l ps finds, admit_admits admits,
    bring_holds holdsIndex, gate_reached freeIndex, bring_holds holdsSource, gate_reached free]

/-- Settles O25: a row of no bytes ends first; otherwise it acts once its check, its admissions and its gates let it
through, and COPY-TENSOR then does what `copyMove` does. -/
theorem copiesMoveBytes : Obligations.CopiesMoveBytes := by
  unfold Obligations.CopiesMoveBytes
  refine fun s id n c => ⟨fun runs count empty => exec_memCopy_noBytes runs (count ▸ empty),
    fun runs count nonempty finds admitted free =>
      ⟨_, rfl, exec_memCopy_moves runs count nonempty finds admitted rfl free _ rfl⟩,
    fun runs count empty => exec_memFill_noBytes runs (count ▸ empty), exec_memFill_repeats,
    fun l ps s1 rs ws runs finds touched admits holdsIndex freeIndex source holdsSource all free =>
      ⟨_, _, _, rfl, rfl, rfl, ?copies⟩⟩
  case copies =>
    exact exec_copyTensor_moves runs finds touched admits holdsIndex freeIndex source holdsSource all free

end Sys2Proof.Machine
end

section
/-!
What the module writes to a memory reads back, and the rest of that memory stays (R198, R211, R233, R234).
-/

namespace Sys2Proof.Machine

/-! ## Bytes without poison -/

@[simp] theorem clean_length (bs : List Byte) : (clean bs).length = bs.length := by simp [clean]

@[simp] theorem clean_bytes (bs : List Byte) : (clean bs).map (·.1) = bs := by simp [clean, Function.comp_def]

@[simp] theorem clean_any_poison (bs : List Byte) : (clean bs).any (·.2) = false := by simp [clean]

@[simp] theorem clean_eq_nil {bs : List Byte} : clean bs = [] ↔ bs = [] := by simp [clean]

/-! ## Whole words (R211, R213) -/

section
variable {a : Nat} {bs : List Byte} (aligned : a % 8 = 0) (whole : bs.length % 8 = 0)
include aligned whole

/-- A write of whole words leaves no part of a word before or after them. -/
theorem cutWords_whole : cutWords a (clean bs) = ([], clean bs, []) := by
  have all : bs.length / 8 * 8 = bs.length := Nat.div_mul_cancel (Nat.dvd_of_mod_eq_zero whole)
  simp [cutWords, aligned, all, List.take_of_length_le]

theorem partWords_whole (nonempty : bs ≠ []) : partWords a bs.length = [] := by
  have long : 8 ≤ bs.length := by
    have := List.length_pos_iff.2 nonempty
    omega
  have ends : (a + bs.length) % 8 = 0 := by omega
  simp [partWords, aligned, ends, long]

theorem putCoded_whole (nonempty : bs ≠ []) (m : Memory) (marks : Tab (BitVec 16)) :
    putCoded m marks a (clean bs) = putWhole m marks a (clean bs) := by
  simp [putCoded, cutWords_whole aligned whole, nonempty]

/-- Words written clean carry no mark. -/
theorem marksIn_putWhole (m : Memory) (marks : Tab (BitVec 16)) :
    marksIn (putWhole m marks a (clean bs)).2 a bs.length = [] := by
  have outside : ∀ x ∈ (putWhole m marks a (clean bs)).2, ¬ (a / 8 ≤ x.1 ∧ x.1 < (a + bs.length + 7) / 8) := by
    intro x listed
    simp only [putWhole, wholeMarks, clean_any_poison, clean_length, List.append_nil, List.mem_append, List.mem_filter,
      decide_eq_true_eq, Bool.false_eq_true, if_false] at listed
    omega
  simpa [marksIn] using outside

/-- Whole words written clean to a coded memory decode to what was written. -/
theorem codedBytes_putCoded_whole (nonempty : bs ≠ []) (t : Nat) (m : Memory) (marks : Tab (BitVec 16)) :
    codedBytes t (putCoded m marks a (clean bs)).1 (putCoded m marks a (clean bs)).2 a bs.length = clean bs := by
  rw [putCoded_whole aligned whole nonempty, codedBytes, if_pos (marksIn_putWhole aligned whole m marks), putWhole,
    clean_bytes, memRead_memWrite_same]

end

/-! ## Tiles (R211) -/

/-- A write of whole words to a tile reads no word before it writes them. -/
theorem putTile_whole {k : Nat} {bs : List Byte} (aligned : k % 8 = 0) (whole : bs.length % 8 = 0) (nonempty : bs ≠ [])
    (s : State) : (putTile k (clean bs) s).store = { s.store with
      tile := (putCoded s.store.tile s.store.tileMark k (clean bs)).1,
      tileMark := (putCoded s.store.tile s.store.tileMark k (clean bs)).2 } := by
  simp [putTile, nonempty, partWords_whole aligned whole nonempty, noteBlocks, setTile]

theorem getTile_data (line : Bool) (k n : Nat) (s : State) :
    (getTile line k n s).data = codedBytes (now s) s.store.tile s.store.tileMark k n := rfl

/-! ## Stacks (R211, R217) -/

/-- The stack of a byte has all its pins and holds no narrow write back. -/
structure Settled (s : State) (key : Nat) : Prop where
  sound : (stackAt s (keyStack key)).degraded = false
  flushed : (stackAt s (keyStack key)).merges = []

section
variable {s : State} {key : Nat} (settled : Settled s key)
include settled

theorem flushRange_settled (n : Nat) : flushRange key n s = s := by
  simp [flushRange, flushWhere, settled.flushed]

theorem sense_settled (n : Nat) : sense key n s = s := by simp [sense, settled.sound]

theorem getStack_settled_data (n : Nat) :
    (getStack false key n s).1.data = codedBytes (now s) s.store.stack s.store.stackMark key n := by
  simp [getStack, flushRange_settled settled, sense_settled settled]

/-- A write of whole words to a settled stack goes to the array as it is. -/
theorem putStack_settled {bs : List Byte} (aligned : key % 8 = 0) (whole : bs.length % 8 = 0) (nonempty : bs ≠ []) :
    putStack key (clean bs) s = { s with store := { s.store with
      stack := (putCoded s.store.stack s.store.stackMark key (clean bs)).1,
      stackMark := (putCoded s.store.stack s.store.stackMark key (clean bs)).2 } } := by
  simp [putStack, cutWords_whole aligned whole, putPart, nonempty, flushRange_settled settled, putArray,
    sense_settled settled]

/-- A stack settles by its own state, whatever its array holds. -/
theorem Settled.withStore (x : Store) : Settled { s with store := x } key := ⟨settled.sound, settled.flushed⟩

end

/-! ## Far lines (R233, R234) -/

/-- A far line as a write of its part leaves it: the bytes written, among what was there under that key pair. -/
def farMerged (m key : Nat) (bs : List Byte) (s : State) : List Byte :=
  (farLineBytes s (m / 64) key).take (m % 64) ++ bs ++ (farLineBytes s (m / 64) key).drop (m % 64 + bs.length)

theorem farLineBytes_length (s : State) (line key : Nat) : (farLineBytes s line key).length = 64 := by
  unfold farLineBytes
  split <;> simp

section
variable {m : Nat} {bs : List Byte}

theorem farMerged_length (inside : m % 64 + bs.length ≤ 64) (key : Nat) (s : State) :
    (farMerged m key bs s).length = 64 := by
  simp only [farMerged, List.length_append, List.length_take, List.length_drop, farLineBytes_length]
  omega

theorem farMerged_part (key : Nat) (s : State) : ((farMerged m key bs s).drop (m % 64)).take bs.length = bs := by
  have before : ((farLineBytes s (m / 64) key).take (m % 64)).length = m % 64 := by
    rw [List.length_take, farLineBytes_length]
    omega
  rw [farMerged, List.append_assoc, List.drop_left' before, List.take_left]

/-- A clean write to a line that is not poisoned, or of a whole line: the line is written and holds no poison. -/
theorem putFar_clean {s : State} (sound : s.store.farPoison.contains (m / 64) = false ∨ bs.length = 64) (key : Nat) :
    putFar m key (clean bs) s = { s with store := { s.store with
      far := memWrite s.store.far (64 * (m / 64)) (farMerged m key bs s),
      farLine := tabSet 0 s.store.farLine (m / 64) key, farPoison := s.store.farPoison.filter (· != m / 64) } } := by
  have unmerged : (s.store.farPoison.contains (m / 64) && decide (bs.length < 64)) = false := by
    rcases sound with sound | full
    · rw [sound, Bool.false_and]
    · simp [full]
  simp only [putFar, clean_length, clean_any_poison, clean_bytes, unmerged, farMerged, Bool.or_false, Bool.false_eq_true,
    if_false]

end

/-- A line that is not poisoned reads, under the key pair it was written with, as its bytes. -/
theorem getFar_clean_data {s : State} {m key : Nat} (sound : s.store.farPoison.contains (m / 64) = false)
    (keyed : tabGet 0 s.store.farLine (m / 64) = key) (n : Nat) :
    (getFar m key n s).1.data = clean (((memRead s.store.far (64 * (m / 64)) 64).drop (m % 64)).take n) := by
  simp only [getFar, sound, farLineBytes, keyed, Bool.false_eq_true, if_false, if_true]

/-- Settles O9: each write of clean bytes is one write to its memory, with no mark and no poison left where it went. -/
theorem writesReadBack : Obligations.WritesReadBack := by
  unfold Obligations.WritesReadBack
  refine fun s bs canonical nonempty => ⟨fun a => ⟨memRead_putHost rfl s, fun x outside => ?host⟩,
    fun k aligned whole => ?tile, fun k aligned whole sound _ flushed => ?stack, fun m key t inside sound ht => ?far⟩
  case host =>
    rw [putHost, hostBytes_clean, memGet_memWrite, if_neg (by omega)]
  case tile =>
    rw [getTile_data, putTile_whole aligned whole nonempty]
    exact ⟨codedBytes_putCoded_whole aligned whole nonempty _ _ _, rfl, rfl⟩
  case stack =>
    have settled : Settled s k := ⟨sound, flushed⟩
    rw [putStack_settled settled aligned whole nonempty, getStack_settled_data (settled.withStore _)]
    exact ⟨codedBytes_putCoded_whole aligned whole nonempty _ _ _, rfl, rfl⟩
  case far =>
    obtain ⟨-, -, -, -, -, -, lines⟩ := (Store.wf_iff s.store).1 canonical
    have length := farMerged_length inside key s
    have keyed : tabGet 0 (tabSet 0 s.store.farLine (m / 64) key) (m / 64) = key := by
      rw [tabGet_tabSet 0 _ _ _ _ lines, if_pos rfl]
    subst ht
    rw [putFar_clean sound]
    refine ⟨?_, rfl, rfl, fun l other => ⟨?_, ?_, ?_⟩⟩
    · rw [getFar_clean_data (by simp) keyed]
      have written := memRead_memWrite_same s.store.far (64 * (m / 64)) (farMerged m key bs s)
      rw [length] at written
      rw [written, farMerged_part]
    · exact memRead_memWrite_other _ _ _ _ _ (by omega)
    · exact tabGet_tabSet_ne 0 _ _ _ _ other
    · simp [other]

end Sys2Proof.Machine
end

section
/-!
Messages of other modules are served, answered, settled or sent on (R181, R183, R372, R378 to R380, R382, R383).
-/

namespace Sys2Proof.Machine

theorem exec_write_meaning (p : Nat) (s : State) : exec (.write p) s = execWrite p s := rfl

theorem exec_barge_meaning (p : Nat) (s : State) : exec (.barge p) s = execBarge p s := rfl

theorem exec_read_meaning (p : Nat) (s : State) : exec (.read p) s = execRead p s := rfl

theorem exec_admissionQuery_meaning (p : Nat) (s : State) : exec (.admissionQuery p) s = execAdmissionQuery p s := rfl

theorem exec_readData_meaning (p : Nat) (s : State) : exec (.readData p) s = execReadData p s := rfl

theorem exec_writeAcknowledgement_meaning (p : Nat) (s : State) :
    exec (.writeAcknowledgement p) s = execWriteAcknowledgement p s := rfl

theorem exec_admissionAnswer_meaning (p : Nat) (s : State) : exec (.admissionAnswer p) s = execAdmissionAnswer p s := rfl

theorem exec_refusal_meaning (p : Nat) (s : State) : exec (.refusal p) s = execRefusal p s := rfl

theorem exec_unroutable_meaning (p : Nat) (s : State) : exec (.unroutable p) s = execUnroutable p s := rfl

theorem exec_messageForward_meaning (p vc : Nat) (s : State) :
    exec (.messageForward p vc) s = execMessageForward p vc s := rfl

/-! ## Requests (R181, R382, R383)

`popped` is the state without the message, `waiting` the state in which it still waits. -/

section
variable {p vc : Nat} {m : Msg} {popped waiting : State}

theorem takeWrite_refused (refused : reachesHere popped m true = none) :
    takeWrite p vc m popped waiting = respond m 4 0 [] popped := by
  simp only [takeWrite, refused]

theorem takeRead_refused (refused : reachesHere popped m false = none) :
    takeRead p m popped waiting = respond m 4 0 [] popped := by
  simp only [takeRead, refused]

section
variable {ps : List (Home × Nat)}

theorem takeWrite_served (reached : reachesHere popped m true = some ps) (free : reachOf popped (.port p vc) ps = .go) :
    takeWrite p vc m popped waiting = respond { m with place := letIn popped m true } 3 0 []
      (putPieces ps m.data (noteWaits (.port p vc) ps popped)) := by
  simp only [takeWrite, reached, free]

theorem takeWrite_waits (reached : reachesHere popped m true = some ps) (held : reachOf popped (.port p vc) ps = .wait) :
    takeWrite p vc m popped waiting = noteWaits (.port p vc) ps waiting := by
  simp only [takeWrite, reached, held]

theorem takeRead_served (reached : reachesHere popped m false = some ps)
    (free : reachOf popped (.port p vcRequest) ps = .go) : ∀ r,
    r = readCharged false none ps (noteWaits (.port p vcRequest) ps popped) →
    takeRead p m popped waiting = respond { m with place := letIn popped m false } 2 m.length r.1.data r.2 := by
  rintro _ rfl
  simp only [takeRead, reached, free]

theorem takeRead_waits (reached : reachesHere popped m false = some ps)
    (held : reachOf popped (.port p vcRequest) ps = .wait) :
    takeRead p m popped waiting = noteWaits (.port p vcRequest) ps waiting := by
  simp only [takeRead, reached, held]

end

/-! ### Queries

The first data byte of a query says whether it asks to write (log 15). -/

section
variable {s : State} {write : Bool} (direction : write = decide ((m.data.headD (0, false)).1 ≠ 0))
include direction

theorem takeQuery_notAdmitted (shut : admissionOf s m write = none) : takeQuery m s = respond m 4 0 [] s := by
  subst direction
  simp only [takeQuery, shut]

theorem takeQuery_unreached {q : Nat} (admitted : admissionOf s m write = some q) (nowhere : reaches s m q = none) :
    takeQuery m s = respond m 4 0 [] s := by
  subst direction
  simp only [takeQuery, admitted, nowhere, Option.isNone_none, if_true]

theorem takeQuery_granted {q : Nat} (admitted : admissionOf s m write = some q) (reached : reaches s m q ≠ none) : ∀ g,
    g = Grant.mk m.src m.part m.agent m.addr m.length write q (tagSlot m.tag) →
    takeQuery m s = respond m 6 0 []
      { s with fabric := { s.fabric with grants := s.fabric.grants.filter (· != g) ++ [g] } } := by
  rintro _ rfl
  subst direction
  simp only [takeQuery, admitted, Option.isNone_iff_eq_none, reached, if_false]

end

end

/-! ## Responses (R183, R380, R383) -/

section
variable {s s1 : State} {p : Nat} {m : Msg} {rest : List Byte} {r : Remote} (popped : s1 = popMsg p vcResponse rest s)
  (arrived : Arrived s p vcResponse m rest)
include popped arrived

theorem exec_readData_settles (kind : m.kind = 2) (asks : asked s1 m [.read] = some r) :
    exec (.readData p) s = .next (settleRemote r.tag (keepFetched r m.data s1)) := by
  subst popped
  rw [exec_readData_meaning, execReadData, onMsg_arrived arrived kind]
  simp only [asks]

theorem exec_writeAcknowledgement_settles (kind : m.kind = 3) (asks : asked s1 m [.write, .barge] = some r) :
    exec (.writeAcknowledgement p) s = .next (settleRemote r.tag s1) := by
  subst popped
  rw [exec_writeAcknowledgement_meaning, execWriteAcknowledgement, onMsg_arrived arrived kind]
  simp only [asks]

theorem exec_admissionAnswer_settles (kind : m.kind = 6) (asks : asked s1 m [.query] = some r) :
    exec (.admissionAnswer p) s = .next (settleRemote r.tag s1) := by
  subst popped
  rw [exec_admissionAnswer_meaning, execAdmissionAnswer, onMsg_arrived arrived kind]
  simp only [asks]

theorem exec_refusal_refuses (kind : m.kind = 4) (asks : asked s1 m [.write, .read, .query, .barge] = some r) :
    exec (.refusal p) s = .next (refuseRemote r.tag s1) := by
  subst popped
  rw [exec_refusal_meaning, execRefusal, onMsg_arrived arrived kind]
  simp only [asks]

theorem exec_unroutable_refuses (kind : m.kind = 8) (outstanding : s1.fabric.remote.any (·.tag == m.tag) = true) :
    exec (.unroutable p) s = .next (refuseRemote m.tag s1) := by
  subst popped
  rw [exec_unroutable_meaning, execUnroutable, onMsg_arrived arrived kind, if_pos outstanding]

end

/-! ## Transit (R378 to R380) -/

/-- The message at the front of a channel of a present port, when it is for another module, is taken and sent on. -/
theorem exec_messageForward_sendsOn {s : State} {p vc : Nat} {m : Msg} {rest : List Byte} (port : p < 16)
    (on : linksOn s = true) (present : portPresent s p = true) (channel : vc < 4)
    (front : takeMsg ((portAt s p).rxq[vc]?.getD []) = some (m, rest)) (elsewhere : m.dest ≠ ownNode s) :
    exec (.messageForward p vc) s = .next (forward vc m (popMsg p vc rest s)) := by
  rw [exec_messageForward_meaning, execMessageForward, onPort_present port on present, if_neg (Nat.not_le.2 channel)]
  simp only [front, elsewhere, if_false]

section
variable {vc : Nat} {m : Msg} {s : State}

theorem forward_noHops (spent : m.hops = 0) : forward vc m s = dropTransit vc m s := if_pos spent

theorem forward_towpath (hops : m.hops ≠ 0) (tow : vc = vcTowpath) :
    forward vc m s = towOn { m with hops := m.hops - 1 } s := by
  rw [forward, if_neg hops, if_pos tow]

theorem forward_routed {s2 : State} (hops : m.hops ≠ 0) (data : vc ≠ vcTowpath)
    (route : sendMsg vc { m with hops := m.hops - 1 } s = some s2) : forward vc m s = s2 := by
  rw [forward, if_neg hops, if_neg data, route]

theorem forward_noRoute (hops : m.hops ≠ 0) (data : vc ≠ vcTowpath)
    (lost : sendMsg vc { m with hops := m.hops - 1 } s = none) : forward vc m s = dropTransit vc m s := by
  rw [forward, if_neg hops, if_neg data, lost]

end

/-- Settles O49: a row takes its message from its channel, and what it does next is what the admission, the outstanding
accesses or the route say. -/
theorem messagesAreServed : Obligations.MessagesAreServed := by
  unfold Obligations.MessagesAreServed
  refine ⟨fun s p vc m rest s1 arrived popped => ⟨fun i row => ?write, fun request kind => ?read,
      fun request kind w direction => ?query⟩,
    fun s p vc m rest s1 popped => ⟨fun r arrived response => ?responses,
      fun port on present channel front elsewhere => ?transit⟩⟩
  case write =>
    have takes : exec i s = .next (takeWrite p vc m s1 s) := by
      subst popped
      rcases row with ⟨rfl, rfl, kind⟩ | ⟨rfl, rfl, kind⟩
      · rw [exec_write_meaning, execWrite, onMsg_arrived arrived kind]
      · rw [exec_barge_meaning, execBarge, onMsg_arrived arrived kind]
    rw [takes]
    exact ⟨fun refused => congrArg _ (takeWrite_refused refused), fun ps reached =>
      ⟨fun free => congrArg _ (takeWrite_served reached free), fun held => congrArg _ (takeWrite_waits reached held)⟩⟩
  case read =>
    have takes : exec (.read p) s = .next (takeRead p m s1 s) := by
      subst popped request
      rw [exec_read_meaning, execRead, onMsg_arrived arrived kind]
    subst request
    rw [takes]
    exact ⟨fun refused => congrArg _ (takeRead_refused refused), fun ps reached =>
      ⟨fun r free read => congrArg _ (takeRead_served reached free r read),
        fun held => congrArg _ (takeRead_waits reached held)⟩⟩
  case query =>
    have takes : exec (.admissionQuery p) s = .next (takeQuery m s1) := by
      subst popped request
      rw [exec_admissionQuery_meaning, execAdmissionQuery, onMsg_arrived arrived kind]
    rw [takes]
    exact ⟨fun shut => congrArg _ (takeQuery_notAdmitted direction shut), fun q g admitted grant =>
      ⟨fun nowhere => congrArg _ (takeQuery_unreached direction admitted nowhere),
        fun reached => congrArg _ (takeQuery_granted direction admitted reached g grant)⟩⟩
  case responses =>
    subst response
    exact ⟨exec_readData_settles popped arrived, exec_writeAcknowledgement_settles popped arrived,
      exec_admissionAnswer_settles popped arrived, exec_refusal_refuses popped arrived,
      exec_unroutable_refuses popped arrived⟩
  case transit =>
    rw [exec_messageForward_sendsOn port on present channel front elsewhere, ← popped]
    exact ⟨fun spent => congrArg _ (forward_noHops spent), fun hops tow => congrArg _ (forward_towpath hops tow),
      fun s2 hops data route => congrArg _ (forward_routed hops data route),
      fun hops data lost => congrArg _ (forward_noRoute hops data lost)⟩

end Sys2Proof.Machine
end

section
/-!
Advertisements, the fabric map and the fabric commands (R194, R370, R375 to R378, R391).
-/

namespace Sys2Proof.Machine

theorem exec_neighbourAdvertisementSend_meaning (s : State) :
    exec .neighbourAdvertisementSend s = execNeighbourAdvertisementSend s := rfl

theorem exec_neighbourAdvertisementReceive_meaning (p : Nat) (a : Advert) (s : State) :
    exec (.neighbourAdvertisementReceive p a) s = execNeighbourAdvertisementReceive p a s := rfl

theorem exec_mapEntryExpire_meaning (o : W64) (s : State) : exec (.mapEntryExpire o) s = execMapEntryExpire o s := rfl

theorem exec_neighbourRead_meaning (id : Nat) (s : State) : exec (.neighbourRead id) s = execNeighbourRead id s := rfl

theorem exec_setNodeId_meaning (id : Nat) (s : State) : exec (.setNodeId id) s = execSetNodeId id s := rfl

theorem exec_routeWrite_meaning (id : Nat) (s : State) : exec (.routeWrite id) s = execRouteWrite id s := rfl

theorem exec_linkState_meaning (id : Nat) (s : State) : exec (.linkState id) s = execLinkState id s := rfl

theorem exec_linkRekey_meaning (id : Nat) (s : State) : exec (.linkRekey id) s = execLinkRekey id s := rfl

theorem exec_fabricFence_meaning (id : Nat) (s : State) : exec (.fabricFence id) s = execFabricFence id s := rfl

/-! ## Advertisements and the map (R375 to R377) -/

section
variable {s : State}

theorem exec_neighbourAdvertisementSend_sends (on : linksOn s = true) : ∀ a, a = ownAdvert s →
    exec .neighbourAdvertisementSend s = .next (sendTow everyPort (advertBytes a) (noteAdvert a (mapTake a
      { s with fabric := { s.fabric with advNumber := s.fabric.advNumber + 1 } }))) := by
  rintro _ rfl
  rw [exec_neighbourAdvertisementSend_meaning, execNeighbourAdvertisementSend, if_neg (by simp [on])]
  rfl

section
variable {p : Nat} {a : Advert} (port : p < 16) (on : linksOn s = true) (present : portPresent s p = true)
  (up : (portAt s p).state = .up)
  (unseen : s.fabric.origins.any (fun o => o.1 = a.serial && o.2.1 = a.number) = false)
include port on present up unseen

/-- An advertisement not seen before is remembered and passed on; the map takes it unless a later one of its origin has
come (log 38). -/
theorem exec_neighbourAdvertisementReceive_unseen : exec (.neighbourAdvertisementReceive p a) s =
    .next (broadcast p (advertBytes a)
      (if !s.fabric.origins.any (fun o => o.1 = a.serial && a.number.toNat < o.2.1.toNat) then
        mapTake a (checkDup a (noteAdvert a s)) else checkDup a (noteAdvert a s))) := by
  rw [exec_neighbourAdvertisementReceive_meaning, execNeighbourAdvertisementReceive, onPort_present port on present,
    if_neg (by simp only [up, unseen]; decide)]

theorem exec_neighbourAdvertisementReceive_newest
    (newest : s.fabric.origins.any (fun o => o.1 = a.serial && a.number.toNat < o.2.1.toNat) = false) :
    exec (.neighbourAdvertisementReceive p a) s =
      .next (broadcast p (advertBytes a) (mapTake a (checkDup a (noteAdvert a s)))) := by
  rw [exec_neighbourAdvertisementReceive_unseen port on present up unseen, newest]
  rfl

theorem exec_neighbourAdvertisementReceive_overtaken
    (later : s.fabric.origins.any (fun o => o.1 = a.serial && a.number.toNat < o.2.1.toNat) = true) :
    exec (.neighbourAdvertisementReceive p a) s =
      .next (broadcast p (advertBytes a) (checkDup a (noteAdvert a s))) := by
  rw [exec_neighbourAdvertisementReceive_unseen port on present up unseen, later]
  rfl

end

theorem exec_mapEntryExpire_expires {o : W64} (known : s.fabric.origins.filter (·.1 == o) ≠ [])
    (silent : (s.fabric.origins.filter (·.1 == o)).all (fun x => x.2.2 + 100000000 ≤ now s) = true) :
    exec (.mapEntryExpire o) s = .next { s with fabric := { s.fabric with
      map := s.fabric.map.filter (·.serial != o), origins := s.fabric.origins.filter (·.1 != o) } } := by
  rw [exec_mapEntryExpire_meaning, execMapEntryExpire, if_pos (by rw [silent]; simpa using known)]

end

/-! ## The fabric commands -/

section
variable {s : State} {id : Nat} {c : Cmd}

/-! ### NEIGHBOUR-READ (R377) -/

theorem exec_neighbourRead_noBytes (runs : Runs s 0x0601 id c) (empty : c.at 24 4 = 0) :
    exec (.neighbourRead id) s = .next (doneCmd c.id (2 ^ 32 * s.fabric.map.length) s) := by
  rw [exec_neighbourRead_meaning, execNeighbourRead, onCmd_runs runs, if_pos empty]

theorem exec_neighbourRead_writes {n : Nat} {s1 : State} (runs : Runs s 0x0601 id c) (count : c.at 24 4 = n)
    (nonempty : n ≠ 0) (finds : Finds c s (c.checkRanges s [(16, c.addr 16, n)]) () [])
    (admitted : c.Admitted s [(c.addr 16, n, true)]) (reaches : c.Reaches (c.pieces s (c.addr 16) n) s s1) :
    exec (.neighbourRead id) s = .next (doneCmd c.id
      (2 ^ 32 * s1.fabric.map.length + (s1.fabric.map.take (n / 32)).length)
      (c.put (c.addr 16) (clean ((s1.fabric.map.take (n / 32)).flatMap (MapEntry.bytes (now s1)))) s1)) := by
  obtain ⟨free, rfl⟩ := reaches
  subst count
  rw [exec_neighbourRead_meaning, execNeighbourRead, onCmd_runs runs, if_neg nonempty, judged_found finds,
    reaching_admitted admitted free]

/-! ### SET-NODE-ID and ROUTE-WRITE (R375, R376, R378) -/

theorem setNodeChk_passes (valid : c.at 16 2 < 0xFFFE) (idle : anyJob s = false) : setNodeChk s c = pure () := by
  rw [setNodeChk, need_true (by simp [valid]), need_true (by simp [idle])]
  rfl

theorem exec_setNodeId_takes (runs : Runs s 0x0602 id c) (valid : c.at 16 2 < 0xFFFE) (idle : anyJob s = false) : ∀ s1,
    s1 = { s with fabric := { s.fabric with node := some (BitVec.ofNat 16 (c.at 16 2)), dup := false } } →
    exec (.setNodeId id) s = .next (doneCmd c.id 0 (((List.range 16).filter fun p => (portAt s1 p).state = .up).foldl
      (fun s p => sendHail p s) s1)) := by
  rintro _ rfl
  rw [exec_setNodeId_meaning, execSetNodeId, onCmd_runs runs, judged_found (finds_of_pure (setNodeChk_passes valid idle))]

theorem exec_routeWrite_installs {es : List (List Nat)} {ps : List (Home × Nat)} (runs : Runs s 0x0603 id c)
    (finds : Finds c s (routeChk s c) es ps) : exec (.routeWrite id) s =
      .next (doneCmd c.id es.length (putRoutes (c.at 16 1 = 0) (c.at 17 1) es (touch c ps s))) := by
  rw [exec_routeWrite_meaning, execRouteWrite, onCmd_runs runs, judged_finds c _ s _ es ps finds]

/-! ### LINK-STATE and LINK-REKEY (R370, R391) -/

theorem exec_linkState_writes {s1 : State} (runs : Runs s 0x0604 id c) (finds : Finds c s (linkStateChk s c) () [])
    (admitted : c.Admitted s [(c.addr 24, 64, true)]) (reaches : c.Reaches (c.pieces s (c.addr 24) 64) s s1) :
    exec (.linkState id) s =
      .next (doneCmd c.id 0 (c.put (c.addr 24) (clean (linkRecord (c.at 16 1) s1)) s1)) := by
  obtain ⟨free, rfl⟩ := reaches
  rw [exec_linkState_meaning, execLinkState, onCmd_runs runs, judged_found finds, reaching_admitted admitted free]

theorem exec_linkRekey_starts {s1 : State} (runs : Runs s 0x0605 id c) (first : c.progress ≠ 1)
    (finds : Finds c s (linkRekeyChk s c) () []) (quiet : (portAt s (c.at 16 1)).rekeying = false)
    (started : s1 = startRekey (c.at 16 1) (updCmd c.id (fun x => { x with progress := 1 }) s)) :
    exec (.linkRekey id) s =
      .next (setPort s1 (c.at 16 1) { portAt s1 (c.at 16 1) with rekeyCmd := some c.id }) := by
  subst started
  rw [exec_linkRekey_meaning, execLinkRekey, onCmd_runs runs, if_neg first, judged_found finds,
    if_neg (by simp [quiet])]

/-! ### FABRIC-FENCE (R194) -/

theorem exec_fabricFence_ends (runs : Runs s 0x0606 id c) (clear : fenced s c = false) :
    exec (.fabricFence id) s = .next (doneCmd c.id 0 s) := by
  rw [exec_fabricFence_meaning, execFabricFence, onCmd_runs runs, if_neg (by simp [clear])]

theorem exec_fabricFence_waits (runs : Runs s 0x0606 id c) (outstanding : fenced s c = true) :
    exec (.fabricFence id) s = .next s := by
  rw [exec_fabricFence_meaning, execFabricFence, onCmd_runs runs, if_pos outstanding]

end

/-- Settles O50: an advertisement is judged by what its origin has sent before; a fabric command acts once its check, its
admission and its reach let it through. -/
theorem fabricIsMappedAndSet : Obligations.FabricIsMappedAndSet := by
  unfold Obligations.FabricIsMappedAndSet
  refine ⟨fun s => ⟨fun a on own => exec_neighbourAdvertisementSend_sends on a own,
      fun p a port on present up unseen => ⟨exec_neighbourAdvertisementReceive_newest port on present up unseen,
        exec_neighbourAdvertisementReceive_overtaken port on present up unseen⟩,
      fun o known silent => exec_mapEntryExpire_expires known silent⟩,
    fun s id c => ⟨fun runs => ⟨exec_neighbourRead_noBytes runs, fun n s1 => exec_neighbourRead_writes runs⟩,
      exec_setNodeId_takes, fun es ps => exec_routeWrite_installs, fun s1 => exec_linkState_writes,
      fun s1 => exec_linkRekey_starts, fun runs => ⟨exec_fabricFence_ends runs, exec_fabricFence_waits runs⟩⟩⟩

end Sys2Proof.Machine
end

section
/-!
A write to a coded memory: the words it leaves, and the poison that a part of a word keeps (R208, R211, R213, R218).
-/

namespace Sys2Proof.Machine

/-! ## Tables whose parts follow one another -/

theorem tabHas_eq_false {α : Type} {t : Tab α} {k : Nat} (unlisted : ∀ p ∈ t, p.1 ≠ k) : tabHas t k = false := by
  rw [← Bool.not_eq_true, tabHas_iff]
  exact fun ⟨p, listed, key⟩ => unlisted p listed key

theorem tabGet_append_left {α : Type} (d : α) {t u : Tab α} {k : Nat} (unlisted : ∀ p ∈ u, p.1 ≠ k) :
    tabGet d (t ++ u) k = tabGet d t k := by
  rw [tabGet_append]
  split
  · rfl
  · next noKey => rw [tabGet_of_not_has d u k (tabHas_eq_false unlisted), tabGet_of_not_has d t k (by simpa using noKey)]

theorem tabGet_append_right {α : Type} (d : α) {t u : Tab α} {k : Nat} (unlisted : ∀ p ∈ t, p.1 ≠ k) :
    tabGet d (t ++ u) k = tabGet d u k := by
  rw [tabGet_append, if_neg (by simp [tabHas_eq_false unlisted])]

/-! ## The words that a write leaves -/

/-- The coded memory `q` is `p`, data and check bits, in every word but `lo` to `hi - 1`. -/
def SameOutside (lo hi : Nat) (p q : Memory × Tab (BitVec 16)) : Prop :=
  ∀ x, x / 8 < lo ∨ hi ≤ x / 8 → memGet q.1 x = memGet p.1 x ∧ tabGet 0 q.2 (x / 8) = tabGet 0 p.2 (x / 8)

section
variable {lo hi : Nat} {p q r : Memory × Tab (BitVec 16)}

theorem SameOutside.refl : SameOutside lo hi p p := fun _ _ => ⟨rfl, rfl⟩

theorem SameOutside.trans (first : SameOutside lo hi p q) (second : SameOutside lo hi q r) : SameOutside lo hi p r :=
  fun x outside => ⟨(second x outside).1.trans (first x outside).1, (second x outside).2.trans (first x outside).2⟩

theorem SameOutside.widen {lo' hi' : Nat} (same : SameOutside lo hi p q) (low : lo' ≤ lo) (high : hi ≤ hi') :
    SameOutside lo' hi' p q := fun x outside => same x (by omega)

end

theorem memGet_memWrite_outside {a x : Nat} {bs : List Byte} (outside : x < a ∨ a + bs.length ≤ x) (m : Memory) :
    memGet (memWrite m a bs) x = memGet m x := by
  rw [memGet_memWrite, if_neg (by omega)]

section
variable {a : Nat} {bs : List PByte}

/-- A write inside one word leaves every other word, also where it corrects its own (R218). -/
theorem putWord_sameOutside (inside : a % 8 + bs.length ≤ 8) (m : Memory) (marks : Tab (BitVec 16)) :
    SameOutside (a / 8) (a / 8 + 1) (m, marks) (putWord m marks a bs) := by
  intro x outside
  refine ⟨?_, tabGet_tabSet_ne 0 _ _ _ _ (by omega)⟩
  refine (memGet_memWrite_outside (by simp only [List.length_map]; omega) _).trans ?_
  split
  · rfl
  · exact memGet_memWrite_outside (by simp only [List.length_map, List.length_range]; omega) m

theorem putWhole_sameOutside (aligned : a % 8 = 0) (whole : bs.length % 8 = 0) (m : Memory) (marks : Tab (BitVec 16)) :
    SameOutside (a / 8) (a / 8 + bs.length / 8) (m, marks) (putWhole m marks a bs) := by
  intro x outside
  refine ⟨memGet_memWrite_outside (by simp only [List.length_map]; omega) m, ?_⟩
  have written : ∀ p ∈ wholeMarks (a / 8) bs, p.1 ≠ x / 8 := fun p listed => by
    have := wholeMarks_mem _ _ p listed
    omega
  rw [putWhole]
  rcases outside with below | above
  · rw [tabGet_append_left 0 (by simp; omega), tabGet_append_left 0 written,
      tabGet_filter 0 (fun w => decide (w < a / 8)), if_pos (by simpa using below)]
  · rw [tabGet_append_right 0 (fun p listed => ?_), tabGet_filter 0 (fun w => decide (a / 8 + bs.length / 8 ≤ w)),
      if_pos (by simpa using above)]
    rcases List.mem_append.1 listed with before | listed
    · have := (List.mem_filter.1 before).2
      simp only [decide_eq_true_eq] at this
      omega
    · exact written p listed

/-! ## The parts of a write -/

theorem cutWords_head_length : (cutWords a bs).1.length = min ((8 - a % 8) % 8) bs.length := by simp [cutWords]

theorem cutWords_whole_length :
    (cutWords a bs).2.1.length = (bs.length - min ((8 - a % 8) % 8) bs.length) / 8 * 8 := by
  simp [cutWords]
  omega

theorem cutWords_tail_length :
    (cutWords a bs).2.2.length = (bs.length - min ((8 - a % 8) % 8) bs.length) % 8 := by
  simp [cutWords]
  omega

/-- A write leaves every word that it does not touch. -/
theorem putCoded_sameOutside (a : Nat) (bs : List PByte) (m : Memory) (marks : Tab (BitVec 16)) :
    SameOutside (a / 8) ((a + bs.length + 7) / 8) (m, marks) (putCoded m marks a bs) := by
  unfold putCoded
  extract_lets c r1 r2
  have head : c.1.length = _ := cutWords_head_length
  have whole : c.2.1.length = _ := cutWords_whole_length
  have tail : c.2.2.length = _ := cutWords_tail_length
  have first : SameOutside (a / 8) ((a + bs.length + 7) / 8) (m, marks) r1 := by
    dsimp only [r1]
    split
    · exact .refl
    · next nonempty =>
      have := List.length_pos_iff.2 nonempty
      exact (putWord_sameOutside (by omega) m marks).widen le_rfl (by omega)
  have second : SameOutside (a / 8) ((a + bs.length + 7) / 8) r1 r2 := by
    dsimp only [r2]
    split
    · exact .refl
    · next nonempty =>
      have := List.length_pos_iff.2 nonempty
      exact (putWhole_sameOutside (by omega) (by omega) r1.1 r1.2).widen (by omega) (by omega)
  refine (first.trans second).trans ?_
  split
  · exact .refl
  · next nonempty =>
    have := List.length_pos_iff.2 nonempty
    exact (putWord_sameOutside (by omega) r2.1 r2.2).widen (by omega) (by omega)

theorem codedBytes_none (t : Nat) (m : Memory) (marks : Tab (BitVec 16)) (a : Nat) : codedBytes t m marks a 0 = [] := by
  unfold codedBytes
  split
  · simp [memRead_eq]
  · rfl

/-- Bytes that are all without poison are clean bytes. -/
theorem clean_of_noPoison (sound : bs.all (fun b => !b.2) = true) : clean (bs.map (·.1)) = bs := by
  rw [clean, List.map_map]
  refine (List.map_congr_left fun b listed => ?_).trans (List.map_id bs)
  have : b.2 = false := by simpa using List.all_eq_true.1 sound b listed
  exact Prod.ext rfl this.symm

/-! ## A part of a word -/

/-- A write of fewer bytes than a word, within one word, is a write of that word's part. -/
theorem putCoded_part (nonempty : bs ≠ []) (short : bs.length < 8) (inside : a % 8 + bs.length ≤ 8) (m : Memory)
    (marks : Tab (BitVec 16)) : putCoded m marks a bs = putWord m marks a bs := by
  by_cases aligned : a % 8 = 0
  · have parts : cutWords a bs = ([], [], bs) := by
      simp [cutWords, aligned, Nat.div_eq_of_lt short]
    simp [putCoded, parts, nonempty]
  · have before : min ((8 - a % 8) % 8) bs.length = bs.length := by omega
    have parts : cutWords a bs = (bs, [], []) := by simp [cutWords, before]
    simp [putCoded, parts, nonempty]

theorem decodeMark_poisonMark : (decodeMark poisonMark).poison = true := by decide +kernel

/-- A part of a word that read poisoned is written with poison 1 (R211). -/
theorem putWord_keepsPoison (short : bs.length < 8) {marks : Tab (BitVec 16)}
    (poisoned : (decodeMark (tabGet 0 marks (a / 8))).poison = true) (m : Memory) :
    (decodeMark (tabGet 0 (putWord m marks a bs).2 (a / 8))).poison = true := by
  have marked : (putWord m marks a bs).2 = tabSet 0 marks (a / 8) poisonMark :=
    congrArg (tabSet 0 marks (a / 8)) (if_pos (by simp only [poisoned, Nat.ne_of_lt short]; simp))
  rw [marked, tabGet_tabSet_eq 0 _ _ poisonMark (checkOf_poison_ne 0), decodeMark_poisonMark]

theorem wordByte_poison {m : Memory} {marks : Tab (BitVec 16)}
    (poisoned : (decodeMark (tabGet 0 marks (a / 8))).poison = true) (t : Nat) : (wordByte t m marks a).2 = true := by
  simp only [wordByte, poisoned, if_true]

end

/-- Settles O8: each of the three parts of a write touches only its own words, whole clean words carry no mark, and a part
of a poisoned word is marked with poison. None of this needs the table's canonical form. -/
theorem codedWritesReadBack : Obligations.CodedWritesReadBack := by
  unfold Obligations.CodedWritesReadBack
  refine fun t m marks a bs _ => ⟨putCoded_sameOutside a bs m marks, fun aligned whole sound => ?readsBack,
    fun nonempty short inside poisoned => ?poisoned⟩
  case readsBack =>
    rcases eq_or_ne bs [] with rfl | nonempty
    · exact codedBytes_none t _ _ a
    · have written := codedBytes_putCoded_whole (a := a) (bs := bs.map (·.1)) aligned (by simpa using whole)
        (by simpa using nonempty) t m marks
      rwa [clean_of_noPoison sound, List.length_map] at written
  case poisoned =>
    rw [putCoded_part nonempty short inside]
    exact wordByte_poison (putWord_keepsPoison short poisoned m) t

end Sys2Proof.Machine
end

section
/-!
The tests of the stacks: SET-KV-BOUNDARY, CHECKBIT-WRITE and TRAFFIC-GEN (R205, R207, R214, R219, R227, R228, R241).
-/

namespace Sys2Proof.Machine

theorem exec_setKvBoundary_meaning (id : Nat) (s : State) : exec (.setKvBoundary id) s = execSetKvBoundary id s := rfl

theorem exec_checkbitWrite_meaning (id : Nat) (s : State) : exec (.checkbitWrite id) s = execCheckbitWrite id s := rfl

theorem exec_trafficGen_meaning (id : Nat) (s : State) : exec (.trafficGen id) s = execTrafficGen id s := rfl

section
variable {s : State} {id : Nat} {c : Cmd}

/-! ## SET-KV-BOUNDARY (R205, R207) -/

section
variable {k b : Nat} (runs : Runs s 0x0205 id c) (finds : Finds c s (kvBoundaryChk s c) (k, b) [])
include runs finds

/-- The pages between the old boundary and the new one are zeroed before the boundary moves. -/
theorem exec_setKvBoundary_moves (works : (stackAt s k).row ≠ 4) : ∀ u,
    u = zeroPages k (min (stackAt s k).boundary b) (max (stackAt s k).boundary b) s →
    exec (.setKvBoundary id) s = .next (doneCmd c.id 0 (setStack u k { stackAt u k with boundary := b })) := by
  rintro _ rfl
  rw [exec_setKvBoundary_meaning, execSetKvBoundary, onCmd_runs runs, judged_found finds]
  exact congrArg _ (if_neg works)

theorem exec_setKvBoundary_waits (hot : (stackAt s k).row = 4) : exec (.setKvBoundary id) s = .next s := by
  rw [exec_setKvBoundary_meaning, execSetKvBoundary, onCmd_runs runs, judged_found finds]
  exact congrArg _ (if_pos hot)

end

/-! ## CHECKBIT-WRITE (R219) -/

theorem exec_checkbitWrite_puts {ps : List (Home × Nat)} (runs : Runs s 0x0206 id c)
    (finds : Finds c s (checkbitChk s c) ps []) (free : reachOf s (.command c.id) ps = .go) :
    exec (.checkbitWrite id) s = .next (doneCmd c.id 0 (ps.foldl
      (fun s p => putRawWord p.1 (c.at 24 8) (BitVec.ofNat 16 (c.at 32 2)) s) (noteWaits (.command c.id) ps s))) := by
  rw [exec_checkbitWrite_meaning, execCheckbitWrite, onCmd_runs runs, judged_found finds, gate_reached free]

/-- A word put raw into a tile deviates by what its given check bits differ from those of its data. -/
theorem putRawWord_tile_mark (d : Nat) (k : BitVec 16) (a : Nat) (s : State) :
    (putRawWord (.tile a) d k s).store.tileMark =
      tabSet 0 (putTile a (clean (toLe 8 d)) s).store.tileMark (a / 8) (k ^^^ checkOf (BitVec.ofNat 64 d) false) := rfl

/-! ## TRAFFIC-GEN (R227, R228) -/

theorem zeroStack_time (key n : Nat) (s : State) : (zeroStack key n s).time = s.time := by
  unfold zeroStack
  extract_lets t k st
  split <;> rfl

theorem rewriteBursts_time (k ch mode count : Nat) (s : State) : (rewriteBursts k ch mode count s).time = s.time := by
  unfold rewriteBursts
  induction List.range count generalizing s with
  | nil => rfl
  | cons i is ih => rw [List.foldl_cons, ih, zeroStack_time]

/-- The generator finds the mismatching words, leaves zeros in its bursts, and stores the first 1,024 records. -/
theorem exec_trafficGen_captures {ps : List (Home × Nat)} (runs : Runs s 0x0905 id c)
    (finds : Finds c s (trafficChk s c) () [])
    (admitted : c.Admitted s [(c.addr 32, 32 * min (8 * c.at 24 8) 1024, true)])
    (pieces : ps = c.pieces s (c.addr 32) (32 * min (8 * c.at 24 8) 1024)) (free : reachOf s (.command c.id) ps = .go) :
    ∀ s1 es out, s1 = noteWaits (.command c.id) ps s →
      es = rawErrors s1 (c.at 16 1) (c.at 17 1) (c.at 18 1) (c.at 19 1) (c.at 24 8) →
      out = (es.take 1024).flatMap (captureRecord (now s1)) →
      exec (.trafficGen id) s = .next (doneCmd c.id es.length
        (if out = [] then rewriteBursts (c.at 16 1) (c.at 17 1) (c.at 19 1) (c.at 24 8) s1
         else c.put (c.addr 32) (clean out) (rewriteBursts (c.at 16 1) (c.at 17 1) (c.at 19 1) (c.at 24 8) s1))) := by
  rintro s1 es _ started errors rfl
  have sameTime : now (rewriteBursts (c.at 16 1) (c.at 17 1) (c.at 19 1) (c.at 24 8) s1) = now s1 := by
    rw [now, rewriteBursts_time, now]
  rw [exec_trafficGen_meaning, execTrafficGen, onCmd_runs runs, judged_found finds,
    reaching_admitted admitted (pieces ▸ free), ← pieces, ← started]
  simp only [← errors, sameTime]

end

/-- Settles O26: a test of the stacks acts once its check, its admission and its reach let it through; TRAFFIC-GEN
captures at the time it starts, which zeroing its bursts leaves. -/
theorem stacksAreTested : Obligations.StacksAreTested := by
  unfold Obligations.StacksAreTested
  refine ⟨fun s id c => ⟨fun k b runs finds => ⟨fun works => ⟨_, rfl, ?moves⟩, exec_setKvBoundary_waits runs finds⟩,
      fun ps => exec_checkbitWrite_puts, fun d k a _ => putRawWord_tile_mark d k a s⟩,
    fun s id c runs finds admitted ps pieces free => ⟨_, _, _, rfl, rfl, rfl, ?captures⟩⟩
  case moves => exact exec_setKvBoundary_moves runs finds works _ rfl
  case captures => exact exec_trafficGen_captures runs finds admitted pieces free _ _ _ rfl rfl rfl

end Sys2Proof.Machine
end

section
/-!
Scrubbing by command and by the idle scrubber (R220 to R223, R487, R508).
-/

namespace Sys2Proof.Machine

theorem exec_scrubRange_meaning (id : Nat) (s : State) : exec (.scrubRange id) s = execScrubRange id s := rfl

theorem exec_scrubLap_meaning (id : Nat) (s : State) : exec (.scrubLap id) s = execScrubLap id s := rfl

theorem exec_idleScrubLapEnd_meaning (laps : List Nat) (s : State) :
    exec (.idleScrubLapEnd laps) s = execIdleScrubLapEnd laps s := rfl

section
variable {s : State} {id : Nat} {c : Cmd}

/-! ## SCRUB-RANGE (R221, R508) -/

/-- The address that a summary gives for the first uncorrectable word of a range; all ones where there is none. -/
theorem firstAddress_eq (space : Nat) (first : Option Nat) :
    (match first with | some a => (mkAddr space (a % 2 ^ 44)).toNat | none => 2 ^ 64 - 1) =
      (first.map fun a => (mkAddr space (a % 2 ^ 44)).toNat).getD (2 ^ 64 - 1) := by
  cases first <;> rfl

/-- Once it reaches its summary's place and its pieces, the command scrubs, writes the summary, and answers the
uncorrectable words. -/
theorem exec_scrubRange_scrubs {ps : List (Home × Nat)} {s1 s2 : State} (runs : Runs s 0x0204 id c)
    (finds : Finds c s (scrubRangeChk s c) ps []) (nonempty : ps ≠ []) (admitted : c.Admitted s [(c.addr 32, 64, true)])
    (summary : c.Reaches (c.pieces s (c.addr 32) 64) s s1) (range : c.Reaches ps s1 s2) : ∃ r first,
    r = scrubPieces (some c.id) ps (c.addr 16).toNat s2 ∧
    first = (r.1.first.map fun a => (mkAddr (spaceOf (c.addr 16)) (a % 2 ^ 44)).toNat).getD (2 ^ 64 - 1) ∧
    exec (.scrubRange id) s = .next (finishCmd c.id (scrubMarks r.1 r.1.bad)
      (c.put (c.addr 32) (clean (scrubSummary r.1 first c.start (now s2 - c.start))) r.2)) := by
  obtain ⟨free, rfl⟩ := summary
  refine ⟨_, _, rfl, rfl, ?_⟩
  rw [exec_scrubRange_meaning, execScrubRange, onCmd_runs runs, judged_found finds, if_neg nonempty,
    reaching_admitted admitted free, gate_reaches range, ← firstAddress_eq]
    <;> rfl

theorem exec_scrubRange_noPieces (runs : Runs s 0x0204 id c) (finds : Finds c s (scrubRangeChk s c) [] []) :
    exec (.scrubRange id) s = .next (doneCmd c.id 0 s) := by
  rw [exec_scrubRange_meaning, execScrubRange, onCmd_runs runs, judged_found finds, if_pos rfl]

/-! ## Laps (R222, R223, R487) -/

/-- A lap's report is the summary of all of it, then one for each stack, zeros for a stack out of service. -/
theorem exec_scrubLap_reports (runs : Runs s 0x0906 id c) (finds : Finds c s (scrubLapChk s c) () [])
    (admitted : c.Admitted s [(c.addr 16, 1088, true)])
    (free : reachOf s (.command c.id) (c.pieces s (c.addr 16) 1088) = .go) : ∃ s1 r line,
    s1 = noteWaits (.command c.id) (c.pieces s (c.addr 16) 1088) s ∧
    r = lapAll (some c.id) (fun _ => (now s1 - c.start) / 1000) s1 ∧
    line = (fun x : Scrub => scrubSummary x (x.first.getD (2 ^ 64 - 1)) c.start (now s1 - c.start)) ∧
    exec (.scrubLap id) s = .next (finishCmd c.id (scrubMarks r.2.1 (now s1 - c.start))
      (c.put (c.addr 16) (clean (line r.2.1 ++ (List.range 16).flatMap fun k =>
        match tabFind r.1 k with | some x => line x | none => zeros 64)) r.2.2)) := by
  refine ⟨_, _, _, rfl, rfl, rfl, ?_⟩
  rw [exec_scrubLap_meaning, execScrubLap, onCmd_runs runs, judged_found finds, reaching_admitted admitted free]
    <;> rfl

theorem exec_idleScrubLapEnd_laps (runs : running s = true) (idle : s.jobs.jobs = []) (laps : List Nat) :
    exec (.idleScrubLapEnd laps) s = .next (lapAll none (fun k => laps[k]?.getD 0) s).2.2 := by
  rw [exec_idleScrubLapEnd_meaning, execIdleScrubLapEnd, if_pos (by simp [runs, anyJob, idle])]

end

/-- Settles O27: a scrub acts once its check, its admission and its reach let it through; the idle scrubber's lap needs a
running module with no job. -/
theorem scrubsReport : Obligations.ScrubsReport := by
  unfold Obligations.ScrubsReport
  exact fun s id c => ⟨fun ps s1 s2 => exec_scrubRange_scrubs, exec_scrubRange_noPieces, exec_scrubLap_reports,
    fun laps runs idle => exec_idleScrubLapEnd_laps runs idle laps⟩

end Sys2Proof.Machine
end

section
/-!
Flights in pounds, the locks after them, and merge groups (R217, R249, R251 to R263).
-/

namespace Sys2Proof.Machine

/-! ## What the rows mean -/

/-- Each of the nine rows is a pound of its own flight. -/
theorem exec_pound_meaning {c : Instr} {k b f : Nat}
    (row : (c, f) ∈ [(Instr.attnScore k b, 0), (.attnFull k b, 1), (.scoreDecay k b, 2), (.gemv k b, 3), (.axpy k b, 4),
      (.reduce k b, 5), (.pageCopy k b, 6), (.rowZero k b, 7), (.pageDigest k b, 8)]) (s : State) :
    exec c s = onBank k b s (pound f k b) := by
  simp only [List.mem_cons, Prod.mk.injEq, List.not_mem_nil, or_false] at row
  rcases row with ⟨rfl, rfl⟩ | ⟨rfl, rfl⟩ | ⟨rfl, rfl⟩ | ⟨rfl, rfl⟩ | ⟨rfl, rfl⟩ | ⟨rfl, rfl⟩ | ⟨rfl, rfl⟩ | ⟨rfl, rfl⟩ |
    ⟨rfl, rfl⟩ <;> rfl

theorem exec_lock_meaning (k b : Nat) (s : State) : exec (.lock k b) s = onBank k b s (lock k b) := rfl

theorem exec_mergeGroupResult_meaning (k : Nat) (s : State) :
    exec (.mergeGroupResult k) s = execMergeGroupResult k s := rfl

/-! ## Pounds (R217, R261) -/

section
variable {s : State} {k b : Nat} {r : Run} {d : Desc} {ds : List Desc} (busy : (bankAt s k b).run = some r)
  (front : r.descs = d :: ds)
include busy front

theorem pound_idle {f : Nat} (stands : dFlight d.bytes ≠ f ∨ r.inPound = true ∨ ssqOn s k = false) :
    pound f k b s = s := by
  unfold pound
  simp only [busy, front]
  rw [if_pos]
  rcases stands with other | inPound | off
  · simp [other]
  · simp [inPound]
  · simp [off]

/-- A pound that nothing holds up flushes its bank's merge entries, reads its columns, does its work, and leaves the bank
in the pound. -/
theorem pound_runs (outside : r.inPound = false) (on : ssqOn s k = true) (single : partnerBank d.bytes b = none)
    (kept : dueDesc s d = false) (unlocked : lockOf s k b = []) {s1 : State} {ps : List (List Col)} {cols : List Col}
    (flushed : s1 = flushBank k b s) (cut : ps = poundsOf d.bytes r s1) (next : ps[r.pound]? = some cols) : ∀ q img p x,
    q = colReads (descCmd s1 d) (readsOf cols) s1 →
    img = (if dFlight d.bytes = 4 || dFlight d.bytes = 6 then [] else r.image ++ q.1) →
    p = poundWork k d r (bankAt q.2 k b).unit.operand img q.1 cols (r.pound + 1 = ps.length) q.2 →
    x = bankAt p.2 k b →
    pound (dFlight d.bytes) k b s = setBank { p.2 with free := p.2.free + 1 } k b { x with
      run := some { r with pound := r.pound + 1, inPound := true, image := img, partials := p.1 }
      unit := x.unit.after p.2.free q.1 } := by
  rintro _ _ _ _ rfl rfl rfl rfl
  subst flushed cut
  unfold pound
  simp only [busy, front, single]
  rw [if_neg (by simp [outside, on, kept, unlocked])]
  simp only [next]
  rfl

/-! ## Locks (R262, R263) -/

theorem lock_pound (inPound : r.inPound = true) (single : partnerBank d.bytes b = none) :
    lock k b s = drainAll (lockBank k b (afterPound k b r s)) := by
  unfold lock
  simp only [busy, front, List.head?_cons, Option.bind_some, single, inPound, if_true]

end

theorem lock_noRun {s : State} {k b : Nat} (idle : (bankAt s k b).run = none) : lock k b s = s := by
  unfold lock
  simp only [idle]

/-- With pounds of its flight still to come, a run only leaves its pound. -/
theorem afterPound_more {s : State} {k b : Nat} {r : Run} {d : Desc} {ds : List Desc} (front : r.descs = d :: ds)
    (more : r.pound < (poundsOf d.bytes r s).length) :
    afterPound k b r s = setBank s k b { bankAt s k b with run := some { r with inPound := false } } := by
  unfold afterPound
  simp only [front, more, if_true]

/-! ## Columns cut into pounds (R261) -/

/-- What may stand gathered for the next pound: at most one column, however many its steps, or columns within the limit. -/
def Gathered (limit : Nat) (cols : List Col) : Prop := cols.length ≤ 1 ∨ (cols.map (·.steps)).sum ≤ limit

section
variable {limit : Nat} {cur : List Col}

theorem Gathered.pound (gathered : Gathered limit cur) (nonempty : cur ≠ []) :
    cur.reverse.length = 1 ∨ (cur.reverse.map (·.steps)).sum ≤ limit := by
  have := List.length_pos_iff.2 nonempty
  rw [List.length_reverse, List.map_reverse, List.sum_reverse]
  exact gathered.imp_left fun one => by omega

theorem Gathered.cons {c : Col} (fits : cur ≠ [] → (cur.map (·.steps)).sum + c.steps ≤ limit) :
    Gathered limit (c :: cur) := by
  rcases eq_or_ne cur [] with rfl | nonempty
  · exact .inl le_rfl
  · have := fits nonempty
    exact .inr (by rw [List.map_cons, List.sum_cons]; omega)

end

/-- Cutting leaves the columns and their order. -/
theorem packPounds_flatten (limit : Nat) : ∀ (cols cur : List Col) (used : Nat),
    (packPounds limit cols cur used).flatten = cur.reverse ++ cols
  | [], cur, _ => by
    unfold packPounds
    split
    · next none => simp [none]
    · simp
  | c :: cs, cur, used => by
    unfold packPounds
    split
    · rw [List.flatten_cons, packPounds_flatten limit cs, List.reverse_singleton, List.singleton_append]
    · rw [packPounds_flatten limit cs, List.reverse_cons, List.append_assoc, List.singleton_append]

/-- Every pound is a single column or within the limit, where what stands gathered may. -/
theorem packPounds_bounded (limit : Nat) : ∀ (cols cur : List Col) (used : Nat), used = (cur.map (·.steps)).sum →
    Gathered limit cur → ∀ p ∈ packPounds limit cols cur used, p.length = 1 ∨ (p.map (·.steps)).sum ≤ limit
  | [], cur, used, _, gathered, p, listed => by
    unfold packPounds at listed
    split at listed
    · simp at listed
    · next nonempty =>
      rw [List.mem_singleton.1 listed]
      exact gathered.pound nonempty
  | c :: cs, cur, used, total, gathered, p, listed => by
    unfold packPounds at listed
    split at listed
    · next full =>
      obtain ⟨nonempty, -⟩ := by simpa using full
      rcases List.mem_cons.1 listed with rfl | later
      · exact gathered.pound nonempty
      · exact packPounds_bounded limit cs [c] c.steps (by simp) (.inl le_rfl) p later
    · next room =>
      have fits : cur ≠ [] → (cur.map (·.steps)).sum + c.steps ≤ limit := by simpa [total] using room
      exact packPounds_bounded limit cs (c :: cur) (used + c.steps) (by simp [total, Nat.add_comm]) (.cons fits) p listed

/-! ## Merge groups (R255, R256) -/

theorem exec_mergeGroupResult_merges {s : State} {k : Nat} {g : Group} (stack : k < 16) (runs : running s = true)
    (sound : s.faults.jobFault = none)
    (ended : (stackAt s k).groups.find? (fun g =>
      dFlight g.last.bytes = 1 && g.closed && g.results.length = g.runs.length) = some g) : ∀ u,
    u = (List.range (dSlots g.last.bytes).length).foldl (fun s i => putRecord k g (groupRuns g) i s) s →
    exec (.mergeGroupResult k) s = .next (setStack u k { stackAt u k with
      groups := (stackAt u k).groups.filter (·.number != g.number) }) := by
  rintro _ rfl
  rw [exec_mergeGroupResult_meaning, execMergeGroupResult, onUnit_inside stack, whenRunning_runs runs,
    if_neg (by simp [sound]), mergeGroup]
  simp only [ended]

/-- Settles O35: a row is the pound of its flight, which stands still or runs; a lock goes on with the run; the first group
whose runs have ended is merged. -/
theorem poundsAndLocks : Obligations.PoundsAndLocks := by
  unfold Obligations.PoundsAndLocks
  refine ⟨fun s k b f c r d ds stack bank runs row busy front => ?pounds,
    fun limit cols => ⟨packPounds_flatten limit cols [] 0, packPounds_bounded limit cols [] 0 rfl (.inl (Nat.zero_le 1))⟩,
    fun s k stack runs => ⟨fun b r d ds bank busy front inPound single => ⟨_, rfl, ?lock⟩, fun b bank idle => ?noRun,
      fun b r d ds front more => afterPound_more front more, fun g sound ended => ⟨_, rfl, ?merge⟩⟩⟩
  case pounds =>
    rw [exec_pound_meaning row, onBank_runs stack bank runs]
    refine ⟨fun stands => congrArg _ (pound_idle busy front stands),
      fun s1 ps cols flight outside on single kept unlocked flushed cut next => ⟨_, _, _, _, rfl, rfl, rfl, rfl, ?_⟩⟩
    subst flight
    exact congrArg _ (pound_runs busy front outside on single kept unlocked flushed cut next _ _ _ _ rfl rfl rfl rfl)
  case lock =>
    rw [exec_lock_meaning, onBank_runs stack bank runs, lock_pound busy front inPound single]
  case noRun =>
    rw [exec_lock_meaning, onBank_runs stack bank runs, lock_noRun idle]
  case merge =>
    exact exec_mergeGroupResult_merges stack runs sound ended _ rfl

end Sys2Proof.Machine
end

section
/-!
Refresh, merge buffers, the temperature of a stack, far links (R217, R224, R225, R235, R240).
-/

namespace Sys2Proof.Machine

theorem exec_refreshDue_meaning (k b : Nat) (s : State) : exec (.refreshDue k b) s = execRefreshDue k b s := rfl

theorem exec_mergeBufferFlush_meaning (k ch : Nat) (s : State) :
    exec (.mergeBufferFlush k ch) s = execMergeBufferFlush k ch s := rfl

theorem exec_stackRowChange_meaning (k t : Nat) (s : State) :
    exec (.stackRowChange k t) s = execStackRowChange k t s := rfl

theorem exec_refreshRateChange_meaning (k t : Nat) (s : State) :
    exec (.refreshRateChange k t) s = execRefreshRateChange k t s := rfl

theorem exec_farLinkDown_meaning (p : Nat) (s : State) : exec (.farLinkDown p) s = execFarLinkDown p s := rfl

theorem exec_farLinkRetrainDone_meaning (p : Nat) (up rate6 : Bool) (s : State) :
    exec (.farLinkRetrainDone p up rate6) s = execFarLinkRetrainDone p up rate6 s := rfl

section
variable {s : State} {k : Nat}

/-! ## Stacks (R217, R224, R225, R240) -/

/-- A stack that works takes or owes the refresh that is due (R225). -/
theorem exec_refreshDue_refreshes {b : Nat} (stack : k < 16) (bank : b < 8192) (works : (stackAt s k).failed = false)
    (awake : (stackAt s k).selfRefresh = false) (trained : (stackAt s k).trained = true) :
    exec (.refreshDue k b) s = .next (setBank s k b { bankAt s k b with
      owed := if (bankAt s k b).inPound then min 4 ((bankAt s k b).owed + 1) else 0 }) := by
  rw [exec_refreshDue_meaning, execRefreshDue, if_pos bank, onUnit_inside stack, refreshDue,
    if_neg (by simp [works, awake, trained])]

theorem exec_mergeBufferFlush_flushes {ch : Nat} (stack : k < 16) (channel : ch < 32) (runs : running s = true) :
    exec (.mergeBufferFlush k ch) s =
      .next (flushWhere k (fun e => keyChannel e.line = ch && e.since + 2000 ≤ now s) s) := by
  rw [exec_mergeBufferFlush_meaning, execMergeBufferFlush, if_pos channel, onUnit_inside stack, whenRunning_runs runs]

theorem exec_stackRowChange_sets (stack : k < 16) (t : Nat) : exec (.stackRowChange k t) s =
    .next (setStack s k { stackAt s k with temp := t, rowTemp := rowFor (stackAt s k).rowTemp t }) := by
  rw [exec_stackRowChange_meaning, execStackRowChange, onUnit_inside stack]

/-- Above 85 °C a stack is hot, below 83 °C it is not, and in between it stays as it was (R224). -/
theorem hot_thresholds (t : Nat) (hot : Bool) :
    (if t > 85 then true else if t < 83 then false else hot) = (decide (t > 85) || (!decide (t < 83) && hot)) := by
  split
  · next above => simp [above]
  · next notAbove =>
    split
    · next below => simp [notAbove, below]
    · next notBelow => simp [notAbove, notBelow]

theorem exec_refreshRateChange_sets (stack : k < 16) (t : Nat) : exec (.refreshRateChange k t) s =
    .next (setStack s k { stackAt s k with
      temp := t, hot := decide (t > 85) || (!decide (t < 83) && (stackAt s k).hot) }) := by
  rw [exec_refreshRateChange_meaning, execRefreshRateChange, onUnit_inside stack, ← hot_thresholds]

/-! ## Far links (R235) -/

theorem exec_farLinkDown_retrains (link : k < 2) (up : portUp s k = true) :
    exec (.farLinkDown k) s = .next { s with far := setPortUp s.far k false true false } := by
  rw [exec_farLinkDown_meaning, execFarLinkDown, onUnit_inside link, if_pos up]

section
variable (link : k < 2) (retrains : portRetrains s k = true) (rate6 : Bool)
include link retrains

theorem exec_farLinkRetrainDone_up : exec (.farLinkRetrainDone k true rate6) s =
    .next { s with far := setPortUp s.far k true false rate6 } := by
  rw [exec_farLinkRetrainDone_meaning, execFarLinkRetrainDone, onUnit_inside link, if_neg (by simp [retrains]), if_pos rfl]

theorem exec_farLinkRetrainDone_down : exec (.farLinkRetrainDone k false rate6) s =
    .next (raise .farDown { s with far := setPortUp s.far k false false false }) := by
  rw [exec_farLinkRetrainDone_meaning, execFarLinkRetrainDone, onUnit_inside link, if_neg (by simp [retrains]),
    if_neg Bool.false_ne_true]

end

end

/-- Settles O37: each event of a stack or a far link, under its own conditions. -/
theorem stacksAndFarLinksAreKept : Obligations.StacksAndFarLinksAreKept := by
  unfold Obligations.StacksAndFarLinksAreKept
  exact fun s k b => ⟨exec_refreshDue_refreshes, exec_mergeBufferFlush_flushes,
    fun t stack => ⟨exec_stackRowChange_sets stack t, exec_refreshRateChange_sets stack t⟩, exec_farLinkDown_retrains,
    fun r link retrains => ⟨exec_farLinkRetrainDone_up link retrains r, exec_farLinkRetrainDone_down link retrains r⟩⟩

end Sys2Proof.Machine
end

section
/-!
The prefix tree's commands: PREFIX-LOOKUP, PREFIX-INSERT, LOAD-PREFIX-SET (R297-R302, R305).
-/

namespace Sys2Proof.Machine

theorem exec_prefixLookup_meaning (id : Nat) (s : State) : exec (.prefixLookup id) s = execPrefixLookup id s := rfl

theorem exec_prefixInsert_meaning (id : Nat) (s : State) : exec (.prefixInsert id) s = execPrefixInsert id s := rfl

theorem exec_loadPrefixSet_meaning (id : Nat) (s : State) : exec (.loadPrefixSet id) s = execLoadPrefixSet id s := rfl

/-! ## PREFIX-LOOKUP (R297, R305) -/

/-- How a lookup ends that attached `n` nodes and was stopped as given: `s` is the state with what it attached, `held` the
one it goes back to where it waits for a far link. -/
def Cmd.lookupEnd (c : Cmd) (n : Nat) (s held : State) : Option Balk → State
  | none | some .full => doneCmd c.id (64 * n) s
  | some .bad => finishCmd c.id [.done (64 * n), ⟨0x30, 4, 1⟩] s
  | some .dead => finishCmd c.id [.timeout (64 * n)] s
  | some .wait => held

section
variable {s0 : State} {id : Nat} {c : Cmd} (runs : Runs s0 0x040B id c) (free : stepRunHolds s0 c c.names = false)
include runs free

/-- The nodes seen, the groups of those matched and their records are read; then the matched nodes are attached in order. -/
theorem exec_prefixLookup_attaches {r : Request} {t u : PTab} {hs path seen es : List Nat} {ps groups : List (Home × Nat)}
    {s1 s2 s3 s4 : State} {root n : Nat} {stop : Option Balk} (nonzero : c.at 32 4 ≠ 0)
    (finds : Finds c (resumeCmd c.id s0) (lookupChk (resumeCmd c.id s0) c) (r, t, hs) ps)
    (hs1 : s1 = touch c ps (resumeCmd c.id s0)) (hroot : root = rootOf t.set)
    (hpath : path = matchPath c.part (poolAt s1 c.part).desc.nodes s1 hs root)
    (hseen : seen = root :: pathScanned c.part (poolAt s1 c.part).desc.nodes s1 hs root)
    (hes : es = path.flatMap fun i => groupEntries c.part (getNode c.part i s1) s1)
    (hgroups : groups = path.flatMap fun i => viewPieces c.part (getNode c.part i s1).group
      (8 * (pairs (poolAt s1 c.part).desc * (poolAt s1 c.part).desc.blockPages)) s1)
    (reads : c.Reads (nodePieces c.part seen s1 ++ groups ++ recPieces c.part (es.map entRecord) s1) s1 s2)
    (attaches : attachAll c.id path t (path.foldl (fun s i => hitNode c.part i s) (passNode c.part root s2)) =
      (n, stop, u, s3))
    (hs4 : s4 = ({ u with list := c.at 24 8, listCount := c.at 32 4 } : PTab).write s3) :
    exec (.prefixLookup id) s0 = .next (c.lookupEnd n s4 s1 stop) := by
  subst hs1 hroot hpath hseen hes hgroups hs4
  rw [exec_prefixLookup_meaning, execPrefixLookup, onCmd_freed runs free, whenZero_nonzero nonzero,
    judged_finds _ _ _ _ _ _ finds]
  refine congrArg _ ((reads_reads reads _).trans ?_)
  simp only [attaches]
  rcases stop with _ | _ | _ | _ | _ <;> rfl

theorem exec_prefixLookup_none {r : Request} {ps : List (Home × Nat)} (zero : c.at 32 4 = 0)
    (finds : Finds c (resumeCmd c.id s0) (namedChk (resumeCmd c.id s0) c 16) r ps) :
    exec (.prefixLookup id) s0 = .next (doneCmd c.id 0 (touch c ps (resumeCmd c.id s0))) := by
  rw [exec_prefixLookup_meaning, execPrefixLookup, onCmd_freed runs free, whenZero_found zero finds]

end

/-! ## PREFIX-INSERT (R298-R300) -/

section
variable {s : State} {id : Nat} {c : Cmd} (runs : Runs s 0x040C id c)
include runs

theorem exec_prefixInsert_none {r : Request} {ps : List (Home × Nat)} (zero : c.at 24 4 = 0)
    (finds : Finds c s (namedChk s c 16) r ps) :
    exec (.prefixInsert id) s = .next (doneCmd c.id 0 (touch c ps s)) :=
  (exec_prefixInsert_meaning id s).trans (onCmd_comes runs (whenZero_found zero finds _))

/-- The nodes seen, the table and its masks and scores are read; then the walk adds what is missing under the root. -/
theorem exec_prefixInsert_inserts {r : Request} {t : PTab} {hs seen : List Nat} {ps : List (Home × Nat)} {s1 s2 : State}
    {root : Nat} {z : Nat × State} (nonzero : c.at 24 4 ≠ 0) (finds : Finds c s (insertChk s c) (r, t, hs) ps)
    (hs1 : s1 = touch c ps s) (hroot : root = rootOf t.set)
    (hseen : seen = root :: pathScanned c.part (poolAt s1 c.part).desc.nodes s1 hs root)
    (reads : c.Reads (nodePieces c.part seen s1 ++ t.reads s1 ++ scanPieces t s1) s1 s2)
    (hz : z = insertFrom t hs 0 root [root] (passNode c.part root s2)) :
    exec (.prefixInsert id) s = .next (doneCmd c.id z.1 z.2) := by
  subst hs1 hroot hseen hz
  rw [exec_prefixInsert_meaning, execPrefixInsert, onCmd_runs runs, whenZero_nonzero nonzero,
    judged_finds _ _ _ _ _ _ finds]
  exact congrArg _ (reads_reads reads _)

end

/-! ## LOAD-PREFIX-SET (R301, R302) -/

/-- How a load ends on `s`, its reads done: with no page to be had it rejects (log 21), and otherwise the set replaces the
one of its number. -/
def Cmd.setEnd (c : Cmd) (x : PrefixSet) (ks : List Nat) (s : State) : State :=
  match installPages c.id c.part ks s with
  | none => rejectCmd c.id .busy s
  | some (es, s) => doneCmd c.id es.length (replaceSet c.part (c.at 16 2) { x with entries := es } s)

theorem Cmd.setEnd_noPage {c : Cmd} {ks : List Nat} {s : State} (noPage : installPages c.id c.part ks s = none)
    (x : PrefixSet) : c.setEnd x ks s = rejectCmd c.id .busy s := by
  simp only [Cmd.setEnd, noPage]

theorem Cmd.setEnd_replaces {c : Cmd} {ks es : List Nat} {s t : State}
    (installs : installPages c.id c.part ks s = some (es, t)) (x : PrefixSet) :
    c.setEnd x ks s = doneCmd c.id es.length (replaceSet c.part (c.at 16 2) { x with entries := es } t) := by
  simp only [Cmd.setEnd, installs]

section
variable {s : State} {id : Nat} {c : Cmd} {x : PrefixSet} {ks : List Nat} {ps : List (Home × Nat)} {s1 : State}
  (runs : Runs s 0x040D id c) (finds : Finds c s (setChk s c) (x, ks) ps) (hs1 : s1 = touch c ps s)
include runs finds hs1

theorem exec_loadPrefixSet_noPage (noPage : installPages c.id c.part ks s1 = none) :
    exec (.loadPrefixSet id) s = .next (rejectCmd c.id .busy s1) := by
  subst hs1
  rw [exec_loadPrefixSet_meaning, execLoadPrefixSet, onCmd_runs runs, judged_finds _ _ _ _ _ _ finds]
  simp only [noPage]

variable {y : List Nat × State} (installs : installPages c.id c.part ks s1 = some y)
include installs

theorem exec_loadPrefixSet_held (held : rowHeld (ks.map entPage) s1 = true) :
    exec (.loadPrefixSet id) s = .next s1 := by
  subst hs1
  rw [exec_loadPrefixSet_meaning, execLoadPrefixSet, onCmd_runs runs, judged_finds _ _ _ _ _ _ finds]
  simp only [installs]
  rw [if_pos held]

/-- The pages were to be had, so their digests' pages are read and the set is installed. -/
theorem exec_loadPrefixSet_installs (unheld : rowHeld (ks.map entPage) s1 = false) {s2 : State}
    (reads : c.Reads (digestPieces (poolAt s1 c.part).desc (ks.map entPage)) s1 s2) :
    exec (.loadPrefixSet id) s = .next (c.setEnd x ks s2) := by
  subst hs1
  rw [exec_loadPrefixSet_meaning, execLoadPrefixSet, onCmd_runs runs, judged_finds _ _ _ _ _ _ finds]
  simp only [installs]
  rw [if_neg (by simp [unheld])]
  exact congrArg _ (reads_reads reads _)

end

/-- Settles O41: a lookup reads what it matched and ends by what stopped its attaching; an insert walks from the request's
root; a set's pages are tried, waited for, and installed in place of those before. -/
theorem prefixesAreShared : Obligations.PrefixesAreShared := by
  unfold Obligations.PrefixesAreShared
  refine fun s id c => ⟨?lookup, ?lookupZero, fun r ps runs zero finds => exec_prefixInsert_none runs zero finds,
    fun r t hs ps s1 root seen runs nonzero finds hs1 hroot hseen s2 z reads hz =>
      exec_prefixInsert_inserts runs nonzero finds hs1 hroot hseen reads hz, ?load⟩
  case lookup =>
    rintro s0 r t hs ps s1 root path seen rfl runs free nonzero finds hs1 hroot hpath hseen es groups s2 n stop u s3 s4 hes
      hgroups reads attaches hs4
    have ends := exec_prefixLookup_attaches runs free nonzero finds hs1 hroot hpath hseen hes hgroups reads attaches hs4
    refine ⟨?_, ?_, ?_, ?_, ?_⟩ <;> (rintro rfl; exact ends)
  case lookupZero =>
    rintro s0 r ps rfl runs free zero finds
    exact exec_prefixLookup_none runs free zero finds
  case load =>
    refine fun x ks ps s1 runs finds hs1 => ⟨exec_loadPrefixSet_noPage runs finds hs1,
      fun y installs => ⟨exec_loadPrefixSet_held runs finds hs1 installs, fun s2 es s3 unheld reads => ?_⟩⟩
    have ends := exec_loadPrefixSet_installs runs finds hs1 installs unheld reads
    exact ⟨fun noPage => ends.trans (congrArg _ (Cmd.setEnd_noPage noPage x)),
      fun again => ends.trans (congrArg _ (Cmd.setEnd_replaces again x))⟩

end Sys2Proof.Machine
end

section
/-!
Customers, and the requests that open and close for them (R309, R312, R313, R319).
-/

namespace Sys2Proof.Machine

theorem exec_customerSet_meaning (id : Nat) (s : State) : exec (.customerSet id) s = execCustomerSet id s := rfl

theorem exec_requestOpen_meaning (id : Nat) (s : State) : exec (.requestOpen id) s = execRequestOpen id s := rfl

theorem exec_requestClose_meaning (id : Nat) (s : State) : exec (.requestClose id) s = execRequestClose id s := rfl

theorem exec_customerSet_sets {s : State} {id : Nat} {c : Cmd} (runs : Runs s 0x0401 id c)
    (finds : Finds c s (customerChk s c) () []) :
    exec (.customerSet id) s = .next (doneCmd c.id 0
      (setCustomer s (c.at 16 2) (setBudget c (customerAt s (c.at 16 2)) (now s)))) := by
  rw [exec_customerSet_meaning, execCustomerSet, onCmd_runs runs, judged_found finds]

/-! ## REQUEST-OPEN (R312) -/

/-- A new request's page table: the one it adopts as it stands, an empty one, or its set's (R302, R312). -/
def Cmd.openTable (c : Cmd) (t : PTab) (s : State) : State :=
  if bit (c.at 36 1) 0 then s
  else match tabFind (poolAt s c.part).sets (c.at 18 2) with
    | some x => applySet t (c.at 18 2) x s
    | none => { t with set := 0xFFFF }.write s

section
variable {c : Cmd} {t : PTab} {s : State}

theorem Cmd.openTable_adopts (adopts : bit (c.at 36 1) 0 = true) : c.openTable t s = s := if_pos adopts

theorem Cmd.openTable_noSet (fresh : bit (c.at 36 1) 0 = false) (noSet : tabFind (poolAt s c.part).sets (c.at 18 2) = none) :
    c.openTable t s = { t with set := 0xFFFF }.write s := by
  simp [Cmd.openTable, fresh, noSet]

theorem Cmd.openTable_ofSet {x : PrefixSet} (fresh : bit (c.at 36 1) 0 = false)
    (ofSet : tabFind (poolAt s c.part).sets (c.at 18 2) = some x) : c.openTable t s = applySet t (c.at 18 2) x s := by
  simp [Cmd.openTable, fresh, ofSet]

end

theorem exec_requestOpen_opens {s : State} {id : Nat} {c : Cmd} {t : PTab} {ps : List (Home × Nat)} {n : Nat} {s1 : State}
    (runs : Runs s 0x0402 id c) (finds : Finds c s (openChk s c) t ps)
    (number : n = freeRequest (touch c ps s))
    (opened : s1 = setRequest (touch c ps s) n
      { customer := c.at 16 2, adopting := bit (c.at 36 1) 0, part := c.part, job := c.job
        prefixSet := c.at 18 2, firstTarget := c.at 20 4, betweenTarget := c.at 24 4
        table := t.off }) :
    exec (.requestOpen id) s = .next (doneCmd c.id n (c.openTable t s1)) := by
  rw [exec_requestOpen_meaning, execRequestOpen, onCmd_runs runs, judged_finds _ _ _ _ _ _ finds, opened, number]
  rfl

/-! ## REQUEST-CLOSE (R313) -/

section
variable {s : State} {id : Nat} {c : Cmd} (runs : Runs s 0x0403 id c)
include runs

theorem exec_requestClose_waits (held : stepRunHolds s c [c.at 16 4] = true) :
    exec (.requestClose id) s = .next (waitCmd c.id s) :=
  (exec_requestClose_meaning id s).trans (onCmd_comes runs (afterSteps_held held _))

/-- With no step left that runs the request, its table and its records are read and it is freed. -/
theorem exec_requestClose_frees {s2 : State} (free : stepRunHolds s c [c.at 16 4] = false)
    (finds : Finds c (resumeCmd c.id s) (closeChk (resumeCmd c.id s) c) () [])
    (reads : c.Reads (closeReads (c.at 16 4) (resumeCmd c.id s)) (resumeCmd c.id s) s2) :
    exec (.requestClose id) s = .next (doneCmd c.id 0 (closeRequest (c.at 16 4) s2)) := by
  rw [exec_requestClose_meaning, execRequestClose, onCmd_runs runs, afterSteps_free free, judged_found finds,
    reads_reads reads]

end

/-- Settles O38: a customer is set; a request opens with the table it adopts, an empty one or its set's; it closes
once no step runs it. -/
theorem requestsOpenAndClose : Obligations.RequestsOpenAndClose := by
  unfold Obligations.RequestsOpenAndClose
  refine fun s id c => ⟨exec_customerSet_sets, ?opens, fun runs => ⟨exec_requestClose_waits runs, ?closes⟩⟩
  case opens =>
    intro t ps n s1 runs finds number opened
    have opens := exec_requestOpen_opens runs finds number opened
    exact ⟨fun adopts => by rw [opens, Cmd.openTable_adopts adopts],
      fun fresh noSet => by rw [opens, Cmd.openTable_noSet fresh noSet],
      fun x fresh ofSet => by rw [opens, Cmd.openTable_ofSet fresh ofSet]⟩
  case closes =>
    rintro r _ s2 free rfl finds - reads
    exact exec_requestClose_frees runs free finds reads

end Sys2Proof.Machine
end

section
/-!
Chunks, plans, steps and their settling (R314, R315, R322 to R333).
-/

namespace Sys2Proof.Machine

theorem exec_submitChunk_meaning (id : Nat) (s : State) : exec (.submitChunk id) s = execSubmitChunk id s := rfl

theorem exec_stepPlan_meaning (id : Nat) (s : State) : exec (.stepPlan id) s = execStepPlan id s := rfl

theorem exec_stepRun_meaning (id : Nat) (s : State) : exec (.stepRun id) s = execStepRun id s := rfl

theorem exec_stepRunSettle_meaning (id : Nat) (s : State) : exec (.stepRunSettle id) s = execStepRunSettle id s := rfl

/-! ## A step past its checks (R241, R282, R292, R331) -/

section
variable {s : State} {c : Cmd} {p : Program} {k : Nat} {m : Manifest}

theorem stepGo_waits (waits : stepWaits s c p m = true) : stepGo c p k m s = waitCmd c.id s := if_pos waits

variable {ts : List PTab} (clear : stepWaits s c p m = false) (tables : ts = stepTables k m (resumeCmd c.id s))
include clear tables

theorem stepGo_held (held : rowHeld (ts.flatMap (·.copies (resumeCmd c.id s))) (resumeCmd c.id s) = true) :
    stepGo c p k m s = resumeCmd c.id s := by
  subst tables
  exact (if_neg (by simp [clear])).trans (if_pos held)

/-- Its manifest and its requests' tables are read; then it reserves its positions and launches its program. -/
theorem stepGo_launches (unheld : rowHeld (ts.flatMap (·.copies (resumeCmd c.id s))) (resumeCmd c.id s) = false)
    {s3 s4 s5 : State} {m' : Manifest}
    (reaches : c.Reaches (c.pieces (resumeCmd c.id s) m.address m.span) (resumeCmd c.id s) s3)
    (reads : c.Reads (ts.flatMap (·.reads (resumeCmd c.id s))) s3 s4) (reserves : reserve c k m s4 = .ok (m', s5)) :
    stepGo c p k m s = stepLaunch c p m' s5 := by
  subst tables
  rw [stepGo, if_neg (by simp [clear])]
  refine (if_neg (by simp [unheld])).trans ?_
  rw [gate_reaches reaches, reads_reads reads]
  simp only [reserves]

end

section
variable {s : State} {id : Nat} {c : Cmd}

/-! ## SUBMIT-CHUNK (R314, R315) -/

theorem exec_submitChunk_queues {r : Request} {ps : List (Home × Nat)} (runs : Runs s 0x0404 id c)
    (finds : Finds c s (chunkChk s c) r ps) :
    exec (.submitChunk id) s = .next (doneCmd c.id 0 (if c.at 20 2 = 0 then touch c ps s else
      setRequest (touch c ps s) (c.at 16 4) (r.submit
        { positions := c.at 20 2, input := c.addr 24, submitted := c.start, turnEnd := bit (c.at 22 1) 0 }))) := by
  rw [exec_submitChunk_meaning, execSubmitChunk, onCmd_runs runs, judged_finds _ _ _ _ _ _ finds]
  exact congrArg _ (apply_ite (doneCmd c.id 0) _ _ _).symm

/-! ## STEP-PLAN (R322 to R327) -/

section
variable (runs : Runs s 0x0405 id c) (finds : Finds c s (planChk s c) () [])
include runs finds

theorem exec_stepPlan_none (zero : c.at 28 2 = 0) : exec (.stepPlan id) s = .next (doneCmd c.id 0 s) := by
  rw [exec_stepPlan_meaning, execStepPlan, onCmd_runs runs, judged_found finds, if_pos zero]

/-- The plan is made once its manifest's place is reached, and is kept as the partition's latest. -/
theorem exec_stepPlan_plans {s1 : State} {r : Manifest × State} (nonzero : c.at 28 2 ≠ 0)
    (reaches : c.Reaches (c.pieces s (c.addr 16) (64 + 32 * c.at 28 2)) s s1) (plan : r = stepPlan c s1) :
    exec (.stepPlan id) s = .next (doneCmd c.id r.1.entries.length (c.store (c.addr 16) (clean (r.1.bytes c.part))
      { r.2 with serve := { r.2.serve with manifests := tabPut r.2.serve.manifests c.part r.1 } })) := by
  subst plan
  rw [exec_stepPlan_meaning, execStepPlan, onCmd_runs runs, judged_found finds, if_neg nonzero, gate_reaches reaches]

end

/-! ## STEP-RUN (R328 to R331) -/

section
variable (runs : Runs s 0x0406 id c) (unlaunched : c.tiles = [])
include runs unlaunched

/-- A step that has taken its manifest goes on with it. -/
theorem exec_stepRun_goesOn {p : Program} {k : Nat} {m : Manifest} (taken : runOf s c.id = some (k, m))
    (loaded : programAt s (c.at 16 4) = some p) : exec (.stepRun id) s = .next (stepGo c p k m s) := by
  refine (exec_stepRun_meaning id s).trans (onCmd_comes runs ?_)
  rw [if_neg (by simp [unlaunched]), taken]
  simp only [loaded]

theorem exec_stepRun_unloaded {k : Nat} {m : Manifest} (taken : runOf s c.id = some (k, m))
    (unloaded : programAt s (c.at 16 4) = none) :
    exec (.stepRun id) s = .next (rejectCmd c.id (c.bad 16) (releaseStep k m s)) := by
  refine (exec_stepRun_meaning id s).trans (onCmd_comes runs ?_)
  rw [if_neg (by simp [unlaunched]), taken]
  simp only [unloaded]

/-- A step that has taken none takes its partition's latest manifest (R329). -/
theorem exec_stepRun_takes {p : Program} {m0 m : Manifest} (untaken : runOf s c.id = none)
    (finds : Finds c s (stepRunChk s c) (p, m0) []) (used : m = { m0 with used := true, cmd := c.id }) :
    exec (.stepRun id) s = .next (stepGo c p c.part m (setRunning c.part m { s with serve := { s.serve with
      manifests := tabPut s.serve.manifests c.part m } })) := by
  subst used
  refine (exec_stepRun_meaning id s).trans (onCmd_comes runs ?_)
  rw [if_neg (by simp [unlaunched]), untaken]
  exact judged_found finds _

end

/-! ## STEP_RUN_SETTLE (R332, R333) -/

section
variable {p : Nat} {m : Manifest} (runs : Runs s 0x0406 id c) (launched : c.tiles ≠ [])
  (finished : c.tiles.any (fun t => (tileAt s t).running) = false) (taken : runOf s c.id = some (p, m))
include runs launched finished taken

theorem exec_stepRunSettle_held (held : rowHeld (m.sealed p s) s = true) : exec (.stepRunSettle id) s = .next s := by
  refine (exec_stepRunSettle_meaning id s).trans (onCmd_comes runs ?_)
  rw [if_neg (by simp [launched, finished]), taken]
  exact if_pos held

/-- Its manifest is reached and the pages it seals are read; then the step is settled. -/
theorem exec_stepRunSettle_settles {s1 s2 : State} (unheld : rowHeld (m.sealed p s) s = false)
    (reaches : c.Reaches (c.pieces s m.address m.span) s s1)
    (reads : c.Reads (digestPieces (poolAt s1 p).desc (m.sealed p s1)) s1 s2) :
    exec (.stepRunSettle id) s = .next (settleStep c p m s2) := by
  refine (exec_stepRunSettle_meaning id s).trans (onCmd_comes runs ?_)
  rw [if_neg (by simp [launched, finished]), taken]
  refine (if_neg (by simp [unheld])).trans ?_
  rw [gate_reaches reaches, reads_reads reads]

end

end

/-- Settles O39: a chunk is queued, a plan written; a step goes on with the manifest it took, now or before, and is
settled once its tiles have finished. -/
theorem stepsAreRun : Obligations.StepsAreRun := by
  unfold Obligations.StepsAreRun
  refine fun s id c => ⟨fun r ps => exec_submitChunk_queues,
    fun runs finds => ⟨exec_stepPlan_none runs finds, fun s1 r => exec_stepPlan_plans runs finds⟩, ?steps,
    fun k m runs unlaunched => exec_stepRun_unloaded runs unlaunched, ?settles⟩
  case steps =>
    intro p k m s1 runs unlaunched comes
    have goes : exec (.stepRun id) s = .next (stepGo c p k m s1) := by
      rcases comes with ⟨taken, loaded, rfl⟩ | ⟨m0, untaken, finds, rfl, used, rfl⟩
      · exact exec_stepRun_goesOn runs unlaunched taken loaded
      · exact exec_stepRun_takes runs unlaunched untaken finds used
    refine ⟨fun waits => goes.trans (congrArg _ (stepGo_waits waits)), ?_⟩
    rintro _ ts clear rfl tables
    exact ⟨fun held => goes.trans (congrArg _ (stepGo_held clear tables held)),
      fun s3 s4 m' s5 unheld reaches reads reserves =>
        goes.trans (congrArg _ (stepGo_launches clear tables unheld reaches reads reserves))⟩
  case settles =>
    exact fun p m runs launched finished taken => ⟨exec_stepRunSettle_held runs launched finished taken,
      fun s1 s2 => exec_stepRunSettle_settles runs launched finished taken⟩

end Sys2Proof.Machine
end

section
/-!
SHIP-KV at its source and at its destination (R335 to R337; the messages of the two ends: log 41).
-/

namespace Sys2Proof.Machine

theorem exec_shipKv_meaning (id : Nat) (s : State) : exec (.shipKv id) s = execShipKv id s := rfl

theorem exec_shipKvDestComplete_meaning (e : ShipEvent) (s : State) :
    exec (.shipKvDestComplete e) s = execShipKvDestComplete e s := rfl

/-! ## What is shipped -/

section
variable {c : Cmd} {r : Request} {t : PTab} {s s2 s3 : State} {g : Shipment × State} (reads : c.Reads (t.reads s) s s2)
  (reaches : c.Reaches (pagePieces (t.allPages s2) 0 (poolAt s2 c.part).desc.pageBytes) s2 s3) (gathered : g = gather c r t s3)
include reads reaches gathered

theorem shipping_poisoned (poisoned : g.1.pages.any (·.poisoned) = true) (go : Shipment → State → State) :
    shipping c r t s go = finishCmd c.id [] g.2 := by
  subst gathered
  rw [shipping, reads_reads reads, gate_reaches reaches]
  exact if_pos poisoned

theorem shipping_sound (sound : g.1.pages.any (·.poisoned) = false) (go : Shipment → State → State) :
    shipping c r t s go = go g.1 g.2 := by
  subst gathered
  rw [shipping, reads_reads reads, gate_reaches reaches]
  exact if_neg (by simp [sound])

end

/-! ## The source -/

/-- SHIP-KV within this module, its pages gathered as `g`: by its landing the command is rejected or ends, and on `held` it
goes back to where it waits. -/
def Cmd.landEnd (c : Cmd) (held : State) (g : Shipment × State) : State :=
  match land c.part g.1 g.2 with
  | none => held
  | some l => if l.1.status = 0x11 ∨ l.1.status = 0x16 then rejectCmd c.id l.1 l.2 else finishCmd c.id [l.1] l.2

theorem Cmd.landEnd_held {c : Cmd} {g : Shipment × State} (waits : land c.part g.1 g.2 = none) (held : State) :
    c.landEnd held g = held := by
  simp only [Cmd.landEnd, waits]

theorem Cmd.landEnd_rejected {c : Cmd} {g : Shipment × State} {l : Mark × State} (lands : land c.part g.1 g.2 = some l)
    (refused : l.1.status = 0x11 ∨ l.1.status = 0x16) (held : State) : c.landEnd held g = rejectCmd c.id l.1 l.2 := by
  simp only [Cmd.landEnd, lands, if_pos refused]

theorem Cmd.landEnd_ends {c : Cmd} {g : Shipment × State} {l : Mark × State} (lands : land c.part g.1 g.2 = some l)
    (refused : ¬(l.1.status = 0x11 ∨ l.1.status = 0x16)) (held : State) : c.landEnd held g = finishCmd c.id [l.1] l.2 := by
  simp only [Cmd.landEnd, lands, if_neg refused]

section
variable {s : State} {id : Nat} {c : Cmd} (runs : Runs s 0x0410 id c)
include runs

/-- Its pages on their way, the command is not judged again (R337). -/
theorem exec_shipKv_underWay (sent : 2 ≤ c.progress) : exec (.shipKv id) s = .next s :=
  (exec_shipKv_meaning id s).trans (onCmd_comes runs (if_pos sent))

variable {r : Request} {t : PTab} {ps : List (Home × Nat)} {s1 : State} (unsent : c.progress < 2)
  (free : stepRunHolds s c c.names = false)
  (finds : Finds c (resumeCmd c.id s) (shipChk (resumeCmd c.id s) c) (r, t) ps)
  (found : s1 = touch c ps (resumeCmd c.id s))
include unsent free finds found

theorem exec_shipKv_away (other : c.at 20 2 ≠ ownNode s1) (named : c.at 20 2 ≠ 0xFFFF) :
    exec (.shipKv id) s = .next (shipAway c r t s1) := by
  subst found
  refine (exec_shipKv_meaning id s).trans (onCmd_comes runs ?_)
  rw [if_neg (Nat.not_le.2 unsent), afterSteps_free free, judged_finds _ _ _ _ _ _ finds]
  exact if_neg (by simp [other, named])

/-- Within the module, named by its node ID or by 0xFFFF, what is shipped lands at once. -/
theorem exec_shipKv_here (here : c.at 20 2 = ownNode s1 ∨ c.at 20 2 = 0xFFFF) :
    exec (.shipKv id) s = .next (shipping c r t s1 fun x s' => c.landEnd s1 (x, s')) := by
  subst found
  refine (exec_shipKv_meaning id s).trans (onCmd_comes runs ?_)
  rw [if_neg (Nat.not_le.2 unsent), afterSteps_free free, judged_finds _ _ _ _ _ _ finds]
  refine (if_pos (by simpa using here)).trans (congrArg _ (funext₂ fun x s' => ?_))
  rw [Cmd.landEnd]
  cases land c.part x s' with
  | none => rfl
  | some l => simp only [Bool.or_eq_true, decide_eq_true_eq]

end

/-! ## The destination, and its reply -/

section
variable {s : State} {x : Shipment}

theorem shipEvent_arrived_waits {p : Nat} (admitted : shipPart x s = some p) (waits : land p x s = none) :
    shipEvent (.arrived x) s = s := by
  simp only [shipEvent, admitted, waits]

theorem shipEvent_arrived_lands {p : Nat} {r : Mark × State} (admitted : shipPart x s = some p)
    (lands : land p x s = some r) : shipEvent (.arrived x) s =
      sendTow x.node (toLe 4 11 ++ toLe 8 x.cmd ++ toLe 1 r.1.status ++ toLe 1 r.1.detail) r.2 := by
  simp only [shipEvent, admitted, lands]

/-- A shipment that no partition admits is answered NOT_PERMITTED (R183). -/
theorem shipEvent_arrived_refused (refused : shipPart x s = none) : shipEvent (.arrived x) s =
    sendTow x.node (toLe 4 11 ++ toLe 8 x.cmd ++ toLe 1 Mark.notPermitted.status ++ toLe 1 Mark.notPermitted.detail) s := by
  simp only [shipEvent, refused]

theorem shipEvent_replied_ends {id : Nat} {c : Cmd} (runs : Runs s 0x0410 id c) (sent : 2 ≤ c.progress) (st dt : Nat) :
    shipEvent (.replied id st dt) s = finishCmd id [⟨st, dt, if st = 0 then c.progress - 2 else 0⟩] s := by
  obtain ⟨-, at_id, opcode, started⟩ := runs
  simp [shipEvent, at_id, opcode, started, sent]

theorem exec_shipKvDestComplete_runs {e : ShipEvent} (runs : running s = true) :
    exec (.shipKvDestComplete e) s = .next (shipEvent e s) := by
  rw [exec_shipKvDestComplete_meaning, execShipKvDestComplete, whenRunning_runs runs]

end

/-- Settles O42: within the module the gathered pages land at once; to another node they are shipped, admitted and answered
there, and the answer ends the command. -/
theorem shipmentsLand : Obligations.ShipmentsLand := by
  unfold Obligations.ShipmentsLand
  refine fun s id c => ⟨exec_shipKv_underWay, ?source, fun runs => ?destination⟩
  case source =>
    rintro s0 r t ps s1 runs unsent free rfl finds found
    refine ⟨exec_shipKv_away runs unsent free finds found, fun s2 s3 g here reads reaches gathered => ?_⟩
    have ships := exec_shipKv_here runs unsent free finds found here
    refine ⟨fun poisoned => ships.trans (congrArg _ (shipping_poisoned reads reaches gathered poisoned _)), fun sound => ?_⟩
    have ends := ships.trans (congrArg _ (shipping_sound reads reaches gathered sound _))
    exact ⟨fun waits => ends.trans (congrArg _ (Cmd.landEnd_held waits s1)), fun l lands =>
      ⟨fun refused => ends.trans (congrArg _ (Cmd.landEnd_rejected lands refused s1)),
        fun param busy => ends.trans (congrArg _ (Cmd.landEnd_ends lands (not_or.2 ⟨param, busy⟩) s1))⟩⟩
  case destination =>
    have event (e : ShipEvent) := exec_shipKvDestComplete_runs (e := e) runs
    exact ⟨fun x p admitted waits => (event _).trans (congrArg _ (shipEvent_arrived_waits admitted waits)),
      fun x p r admitted lands => (event _).trans (congrArg _ (shipEvent_arrived_lands admitted lands)),
      fun x refused => (event _).trans (congrArg _ (shipEvent_arrived_refused refused)),
      fun st dt ships sent => (event _).trans (congrArg _ (shipEvent_replied_ends ships sent st dt))⟩

end Sys2Proof.Machine
end

section
/-!
Jobs that share a partition in slices (R343 to R349).
-/

namespace Sys2Proof.Machine

theorem exec_jobOpen_meaning (id : Nat) (s : State) : exec (.jobOpen id) s = execJobOpen id s := rfl

theorem exec_jobClose_meaning (id : Nat) (s : State) : exec (.jobClose id) s = execJobClose id s := rfl

theorem exec_jobSlice_meaning (id : Nat) (s : State) : exec (.jobSlice id) s = execJobSlice id s := rfl

theorem exec_sliceEnd_meaning (p : Nat) (s : State) : exec (.sliceEnd p) s = execSliceEnd p s := rfl

theorem exec_jobSwitch_meaning (p : Nat) (s : State) : exec (.jobSwitch p) s = execJobSwitch p s := rfl

/-! ## Commands on jobs (R343 to R346) -/

theorem rejects_of_fail {α : Type} {c : Cmd} {s : State} {chk : Chk α} {m : Mark} (h : chk = fail m) :
    Rejects c s chk m [] := by
  subst h
  exact ⟨rfl, by simp [Cmd.finds, reachOf]⟩

theorem need_false {p : Bool} (h : p = false) (m : Mark) : need p m = fail m := if_neg (by simp [h])

/-- No job has the handle of one that was closed. -/
theorem closeJob_forgets (h : Nat) (s : State) : ∀ j ∈ (closeJob h s).jobs.jobs, j.handle ≠ h := by
  intro j member
  simpa using (List.mem_filter.1 member).2

section
variable {s : State} {id : Nat} {c : Cmd}

/-- A job opens with the next handle, and a slice of 2,000 us where none is named. -/
theorem exec_jobOpen_opens (runs : Runs s 0x0105 id c) (finds : Finds c s (jobOpenChk s c) () []) {n : Nat}
    (slice : n = if c.at 24 4 = 0 then 2000 else c.at 24 4) :
    exec (.jobOpen id) s = .next (doneCmd c.id s.jobs.nextJob { s with jobs := { s.jobs with
      nextJob := s.jobs.nextJob + 1
      jobs := s.jobs.jobs ++ [{ handle := s.jobs.nextJob, part := c.part, save := c.addr 16, slice := n, nextSlice := n
                                liveRange := c.at 28 1 = 1 }] } }) := by
  subst slice
  exact (exec_jobOpen_meaning id s).trans (onCmd_comes runs (judged_found finds _))

theorem exec_jobSlice_sets (runs : Runs s 0x0107 id c) (least : 500 ≤ c.at 16 4) (most : c.at 16 4 ≤ 100000) :
    exec (.jobSlice id) s = .next (doneCmd c.id 0 { s with jobs := { s.jobs with
      jobs := updWhere (·.handle == c.job) (fun j => { j with nextSlice := c.at 16 4 }) s.jobs.jobs } }) :=
  (exec_jobSlice_meaning id s).trans
    (onCmd_comes runs (judged_found (finds_of_pure (need_true (by simp [least, most]) _)) _))

theorem exec_jobSlice_rejects (runs : Runs s 0x0107 id c) (outside : c.at 16 4 < 500 ∨ 100000 < c.at 16 4) :
    exec (.jobSlice id) s = .next (rejectCmd c.id (c.bad 16) s) := by
  have refused : (decide (500 ≤ c.at 16 4) && decide (c.at 16 4 ≤ 100000)) = false := by
    rw [Bool.and_eq_false_iff, decide_eq_false_iff_not, decide_eq_false_iff_not]
    omega
  refine (exec_jobSlice_meaning id s).trans (onCmd_comes runs ?_)
  rw [judged_rejects _ _ _ _ _ _ (rejects_of_fail (need_false refused _)), touch_nil]

/-- With none of the job's other commands started, the requests of the job are read and the job ends. -/
theorem exec_jobClose_ends (runs : Runs s 0x0106 id c) (idle : jobBusy s c.job c.id = false) {u : State}
    (reads : c.Reads ((s.serve.requests.filter (·.2.job == c.job)).flatMap fun r => closeReads r.1 s)
      (resumeCmd c.id s) u) :
    exec (.jobClose id) s = .next (doneCmd c.id 0 (closeJob c.job u)) := by
  refine (exec_jobClose_meaning id s).trans (onCmd_comes runs ?_)
  rw [if_neg (by simp [idle]), reads_reads reads]

theorem exec_jobClose_waits (runs : Runs s 0x0106 id c) (busy : jobBusy s c.job c.id = true) :
    exec (.jobClose id) s = .next (waitCmd c.id s) :=
  (exec_jobClose_meaning id s).trans (onCmd_comes runs (if_pos busy))

end

/-! ## The end of a slice (R347) -/

section
variable {s : State} {p : Nat} (part : p < 4) (runs : running s = true)
include part runs

section
variable {j : Job} (active : (partAt s p).active.bind (jobAt s) = some j) (unended : (partAt s p).sliceOver = false)
  (late : (partAt s p).activatedAt + 1000 * j.slice ≤ now s)
include active unended late

/-- Once the active job's slice has run its length, it is over if another job is ready, and begins again if none is. -/
theorem exec_sliceEnd_late : exec (.sliceEnd p) s =
    .next (if (nextJob s p).isNone then setPart s p { partAt s p with activatedAt := now s }
      else setPart s p { partAt s p with sliceOver := true }) := by
  have ends : ((partAt s p).sliceOver || decide (now s < (partAt s p).activatedAt + 1000 * j.slice)) = false := by
    simp [unended, late]
  rw [exec_sliceEnd_meaning, execSliceEnd, onUnit_inside part, whenRunning_runs runs]
  simp only [sliceEnd, active, ends, Bool.false_eq_true, if_false]

theorem exec_sliceEnd_over {n : Nat} (next : nextJob s p = some n) :
    exec (.sliceEnd p) s = .next (setPart s p { partAt s p with sliceOver := true }) := by
  rw [exec_sliceEnd_late part runs active unended late, if_neg (by simp [next])]

theorem exec_sliceEnd_again (alone : nextJob s p = none) :
    exec (.sliceEnd p) s = .next (setPart s p { partAt s p with activatedAt := now s }) := by
  rw [exec_sliceEnd_late part runs active unended late, if_pos (by simp [alone])]

end

/-! ## The switch (R348, R349) -/

section
variable (opened : (partAt s p).isOpen = true)
include opened

theorem exec_jobSwitch_opened : exec (.jobSwitch p) s = .next (jobSwitch p s) := by
  rw [exec_jobSwitch_meaning, execJobSwitch, onUnit_inside part, whenRunning_runs runs, if_pos opened]

variable {j : Job} (next : (nextJob s p).bind (jobAt s) = some j)
include next

theorem exec_jobSwitch_first (idle : (partAt s p).active = none) : exec (.jobSwitch p) s = .next (activate j s) := by
  rw [exec_jobSwitch_opened part runs opened]
  simp only [jobSwitch, idle, Option.bind_none, next]

theorem exec_jobSwitch_saves {out : Job} (active : (partAt s p).active.bind (jobAt s) = some out)
    (ended : (partAt s p).sliceOver = true) (idle : jobBusy s out.handle (2 ^ 64) = false)
    (sound : badRanges s out = none) : exec (.jobSwitch p) s = .next (activate j (saveJob out s)) := by
  have goes : (!(partAt s p).sliceOver || jobBusy s out.handle (2 ^ 64)) = false := by
    rw [ended, idle]; rfl
  rw [exec_jobSwitch_opened part runs opened]
  simp only [jobSwitch, active, goes, next, sound, Bool.false_eq_true, if_false]

end

end

theorem partAt_setPart_active {x : Part} {h : Nat} (active : x.active = some h) (s : State) (p : Nat) :
    partAt (setPart s p x) p = x :=
  tabGet_tabSet_eq ({} : Part) s.parts p x fun idle => by simp [idle] at active

theorem activate_part (j : Job) (s : State) :
    (partAt (activate j s) j.part).active = some j.handle ∧ (partAt (activate j s) j.part).sliceOver = false := by
  unfold activate
  extract_lets ts emptied restored part activated
  have reads : partAt activated j.part = _ := partAt_setPart_active rfl restored j.part
  exact ⟨congrArg Part.active reads, congrArg Part.sliceOver reads⟩

/-- Settles O23: a job's command acts by its check or by what of the job still runs; a slice that has run its length is over
or begins again by whether another job is ready; the switch brings in the next job and saves the one before it. -/
theorem jobsRunInSlices : Obligations.JobsRunInSlices := by
  unfold Obligations.JobsRunInSlices
  refine ⟨fun s id c => ⟨fun runs finds n => exec_jobOpen_opens runs finds, exec_jobSlice_sets, exec_jobSlice_rejects,
    fun u runs idle reads => ⟨exec_jobClose_ends runs idle reads, closeJob_forgets c.job u⟩, exec_jobClose_waits⟩,
    fun s p part runs => ⟨fun j active unended late => ⟨fun n => ?ends, ?again⟩, fun j opened idle next => ?first,
      fun out j opened active ended idle next sound => ?saves, fun j => activate_part j s⟩⟩
  case ends => exact exec_sliceEnd_over part runs active unended late
  case again => exact exec_sliceEnd_again part runs active unended late
  case first => exact exec_jobSwitch_first part runs opened next idle
  case saves => exact exec_jobSwitch_saves part runs opened next active ended idle sound

end Sys2Proof.Machine
end

section
/-!
The clean restart and the wake from retention (R358 to R360, R411, R463, R464).
-/

namespace Sys2Proof.Machine

theorem exec_jobFault_meaning (s : State) : exec .jobFault s = execJobFault s := rfl

theorem exec_restartStopDone_meaning (s : State) : exec .restartStopDone s = execRestartStopDone s := rfl

theorem exec_restartRetainDone_meaning (s : State) : exec .restartRetainDone s = execRestartRetainDone s := rfl

theorem exec_restartResetDone_meaning (s : State) : exec .restartResetDone s = execRestartResetDone s := rfl

theorem exec_restartReport_meaning (s : State) : exec .restartReport s = execRestartReport s := rfl

theorem exec_wake_meaning (bell : Option Bell) (s : State) : exec (.wake bell) s = execWake bell s := rfl

theorem exec_wakePowerDone_meaning (s : State) : exec .wakePowerDone s = execWakePowerDone s := rfl

theorem exec_wakeMemoryDone_meaning (s : State) : exec .wakeMemoryDone s = execWakeMemoryDone s := rfl

theorem exec_wakePortsDone_meaning (lost : List Nat) (s : State) :
    exec (.wakePortsDone lost) s = execWakePortsDone lost s := rfl

theorem exec_wakeResumeDone_meaning (s : State) : exec .wakeResumeDone s = execWakeResumeDone s := rfl

/-- A job fault that was noted is recorded, and the clean restart begins (R411). -/
theorem exec_jobFault_restarts {s : State} {loc : Nat × Nat × Nat} (runs : running s = true)
    (noted : s.faults.jobFault = some loc) : exec .jobFault s = .next (beginRestart (report 11 loc s.faults.jobFaultCmd 1
      { s with faults := { s.faults with jobFault := none, jobFaultCmd := none } })) := by
  rw [exec_jobFault_meaning, execJobFault, whenRunning_runs runs]
  simp only [jobFault, noted]

section
variable {s : State} (vsb : s.boot.vsb = true) (noReset : s.boot.inReset = false)
include vsb noReset

/-! ## Phases of the restart (R359, R360) -/

/-- A phase that the restart is in ends. -/
theorem restartPhase_in {p : Restart} (phase : s.faults.restart = p) (f : State → State) :
    restartPhase p s f = .next (f s) := by
  simp [restartPhase, vsb, noReset, phase]

theorem exec_restartStopDone_stops (phase : s.faults.restart = .stop) : exec .restartStopDone s =
    .next (setRestart .retain ((List.range 512).foldl stopTile s)) := by
  rw [exec_restartStopDone_meaning, execRestartStopDone, restartPhase_in vsb noReset phase]

theorem exec_restartRetainDone_retains (phase : s.faults.restart = .retain) : exec .restartRetainDone s =
    .next (setRestart .reset (refreshSelf true s)) := by
  rw [exec_restartRetainDone_meaning, execRestartRetainDone, restartPhase_in vsb noReset phase]

theorem exec_restartResetDone_zeroes (phase : s.faults.restart = .reset) : exec .restartResetDone s =
    .next (setRestart .resume ((List.range 16).foldl clearSsq
      { s with tiles := [], store := { s.store with tile := [], tileMark := [] } })) := by
  rw [exec_restartResetDone_meaning, execRestartResetDone, restartPhase_in vsb noReset phase]

theorem exec_restartReport_replies (phase : s.faults.restart = .resume) {s1 : State}
    (discarded : s1 = discardJobs (setRestart .none (refreshSelf false s))) : exec .restartReport s =
    .next (serveAll (settleResets (raise .restart ((s1.front.cmds.filter (·.lost)).foldl (fun s c => loseCmd c s)
      (s1.front.queues.foldl (fun s q => answerDups q.1 s) s1))))) := by
  subst discarded
  rw [exec_restartReport_meaning, execRestartReport, restartPhase_in vsb noReset phase]

/-! ## The wake and its phases (R463, R464) -/

section
variable (link : s.boot.pciDown = false) (ready : s.boot.ready = true) (asleep : s.pmu.sleep = .asleep)
include link ready asleep

/-- What makes a WAKE do nothing does not hold of a sleeping module that the host reaches. -/
theorem wake_acts : ¬ (!hostUp s || !s.boot.ready || decide (s.pmu.sleep = .awake)) = true := by
  simp [hostUp, vsb, noReset, link, ready, asleep]

theorem exec_wake_written : exec (.wake none) s = .next { s with pmu := { s.pmu with sleep := .power } } :=
  (exec_wake_meaning none s).trans (congrArg _ ((if_neg (wake_acts vsb noReset link ready asleep)).trans (if_pos asleep)))

/-- A doorbell is recorded behind those before it. -/
theorem exec_wake_rung (b : Bell) : exec (.wake (some b)) s = .next { s with
    pmu := { s.pmu with sleep := .power }, front := { s.front with bells := s.front.bells ++ [b] } } :=
  (exec_wake_meaning (some b) s).trans
    (congrArg _ ((if_neg (wake_acts vsb noReset link ready asleep)).trans (if_pos asleep)))

end

/-- A phase that the wake is in ends. -/
theorem wakePhase_in {p : Sleep} (phase : s.pmu.sleep = p) (f : State → State) : wakePhase p s f = .next (f s) := by
  simp [wakePhase, vsb, noReset, phase]

theorem exec_wakePowerDone_powers (phase : s.pmu.sleep = .power) : exec .wakePowerDone s =
    .next (applyVoltage (powerVoltage (setSleep .memory s))) := by
  rw [exec_wakePowerDone_meaning, execWakePowerDone, wakePhase_in vsb noReset phase]

theorem exec_wakeMemoryDone_trains (phase : s.pmu.sleep = .memory) : exec .wakeMemoryDone s =
    .next ((List.range 16).foldl (fun s p =>
      if (portAt s p).kept then setPort s p { portAt s p with state := .training } else s)
      (setSleep .ports (serveAll (refreshSelf false s)))) := by
  rw [exec_wakeMemoryDone_meaning, execWakeMemoryDone, wakePhase_in vsb noReset phase]

theorem exec_wakePortsDone_brings (phase : s.pmu.sleep = .ports) (lost : List Nat) : exec (.wakePortsDone lost) s =
    .next (setSleep .resume ((List.range 16).foldl (portAfterWake lost) { s with far := { s.far with
      up0 := s.far.kept0 && !lost.contains 16, up1 := s.far.kept1 && !lost.contains 17
      kept0 := false, kept1 := false } })) := by
  rw [exec_wakePortsDone_meaning, execWakePortsDone, wakePhase_in vsb noReset phase]

theorem exec_wakeResumeDone_resumes (phase : s.pmu.sleep = .resume) : exec .wakeResumeDone s =
    .next (raise .woke (s.front.bells.foldl (fun s b => applyBell b s)
      (setSleep .awake { s with front := { s.front with bells := [] } }))) := by
  rw [exec_wakeResumeDone_meaning, execWakeResumeDone, wakePhase_in vsb noReset phase]

end

/-- Settles O36: a noted job fault begins the restart, a doorbell or a write of WAKE the wake; each row of the two ends the
phase that they are in. -/
theorem restartsAndWakesRun : Obligations.RestartsAndWakesRun := by
  unfold Obligations.RestartsAndWakesRun
  refine ⟨fun s loc => ⟨exec_jobFault_restarts, fun vsb noReset => ?restart⟩, fun s vsb noReset => ?wake⟩
  case restart =>
    exact ⟨exec_restartStopDone_stops vsb noReset, exec_restartRetainDone_retains vsb noReset,
      exec_restartResetDone_zeroes vsb noReset, fun phase s1 => exec_restartReport_replies vsb noReset phase⟩
  case wake =>
    exact ⟨fun b link ready asleep => ⟨exec_wake_written vsb noReset link ready asleep,
        exec_wake_rung vsb noReset link ready asleep b⟩,
      exec_wakePowerDone_powers vsb noReset, exec_wakeMemoryDone_trains vsb noReset,
      fun lost phase => exec_wakePortsDone_brings vsb noReset phase lost, exec_wakeResumeDone_resumes vsb noReset⟩

end Sys2Proof.Machine
end

section
/-!
The Fyant links: training, HAIL, silence, retrains, rekeys (R362, R365 to R368, R370, R375), and the flits that an up port
sends and receives (R363, R364, R368, R369, R371).
-/

namespace Sys2Proof.Machine

theorem exec_portTrained_meaning (p rt : Nat) (s : State) : exec (.portTrained p rt) s = execPortTrained p rt s := rfl

theorem exec_hailReceive_meaning (p : Nat) (h : Hail) (s : State) : exec (.hailReceive p h) s = execHailReceive p h s := rfl

theorem exec_portSilenceTimeout_meaning (p : Nat) (s : State) :
    exec (.portSilenceTimeout p) s = execPortSilenceTimeout p s := rfl

theorem exec_portRetrainDone_meaning (p : Nat) (back : Bool) (s : State) :
    exec (.portRetrainDone p back) s = execPortRetrainDone p back s := rfl

theorem exec_rekeyMessageReceive_meaning (p key : Nat) (s : State) :
    exec (.rekeyMessageReceive p key) s = execRekeyMessageReceive p key s := rfl

theorem exec_flitTransmit_meaning (p : Nat) (s : State) : exec (.flitTransmit p) s = execFlitTransmit p s := rfl

theorem exec_flitReceive_meaning (p : Nat) (f : List Byte) (fec : Nat) (s : State) :
    exec (.flitReceive p f fec) s = execFlitReceive p f fec s := rfl

section
variable {s : State} {p : Nat} {x : Port} (port : p < 16) (on : linksOn s = true) (present : portPresent s p = true)
  (at_p : x = portAt s p)
include port on present at_p

/-- A row of a present port acts on what is at that port. -/
theorem onPort_at (f : Port → State → State) : onPort p s f = .next (f x s) := by
  rw [onPort_present port on present, at_p]

/-! ## Training and HAIL (R362, R367, R375) -/

theorem exec_portTrained_hails (resting : x.state = .training ∨ x.state = .down) (rt : Nat) : exec (.portTrained p rt) s =
    .next (sendHail p (setPort s p { x with
      state := .hailing, roundTrip := rt, lanes := 15, heard := now s, ephemeral := Config.ephemeral p (now s) })) := by
  rw [exec_portTrained_meaning, execPortTrained, onPort_at port on present at_p, if_pos (by simpa using resting)]

section
variable {h : Hail}

theorem exec_hailReceive_verified (hailing : x.state = .hailing)
    (verified : Config.peerVerified h.chain h.ephemeral h.signature = true) :
    exec (.hailReceive p h) s = .next (linkUp p x h s) := by
  rw [exec_hailReceive_meaning, execHailReceive, onPort_at port on present at_p]
  simp only [hailing, verified, if_true]

theorem exec_hailReceive_refused (hailing : x.state = .hailing)
    (unverified : Config.peerVerified h.chain h.ephemeral h.signature = false) :
    exec (.hailReceive p h) s = .next (setPort s p { x with state := .refused }) := by
  rw [exec_hailReceive_meaning, execHailReceive, onPort_at port on present at_p]
  simp only [hailing, unverified, Bool.false_eq_true, if_false]

/-- On an up port the peer's HAIL announces its node ID. -/
theorem exec_hailReceive_announces (up : x.state = .up) (peer : h.serial = x.peerSerial)
    (verified : Config.peerVerified h.chain h.ephemeral h.signature = true) :
    exec (.hailReceive p h) s = .next (setPort s p { x with peerNode := h.node, heard := now s }) := by
  rw [exec_hailReceive_meaning, execHailReceive, onPort_at port on present at_p]
  simp only [up, verified, peer, decide_true, Bool.and_self, if_true]

end

/-! ## Silence and retrains (R362, R365, R366) -/

section
variable (listening : x.state = .up ∧ x.retraining = false ∨ x.state = .hailing)
include listening

theorem exec_portSilenceTimeout_listens : exec (.portSilenceTimeout p) s =
    .next (if x.heard + 1000000 ≤ now s then goDown p s else s) := by
  rw [exec_portSilenceTimeout_meaning, execPortSilenceTimeout, onPort_at port on present at_p]
  rcases listening with ⟨up, steady⟩ | hailing
  · simp [up, steady]
  · simp [hailing]

theorem exec_portSilenceTimeout_silent (silent : x.heard + 1000000 ≤ now s) :
    exec (.portSilenceTimeout p) s = .next (goDown p s) := by
  rw [exec_portSilenceTimeout_listens port on present at_p listening, if_pos silent]

theorem exec_portSilenceTimeout_heard (heard : now s < x.heard + 1000000) :
    exec (.portSilenceTimeout p) s = .next s := by
  rw [exec_portSilenceTimeout_listens port on present at_p listening, if_neg (Nat.not_le.2 heard)]

end

section
variable (retrains : x.retraining = true)
include retrains

theorem exec_portRetrainDone_resends : exec (.portRetrainDone p true) s =
    .next (setPort s p { x with retraining := false, heard := now s, resend := x.replay.map (·.flit) }) := by
  rw [exec_portRetrainDone_meaning, execPortRetrainDone, onPort_at port on present at_p, if_neg (by simp [retrains]),
    if_pos rfl]

theorem exec_portRetrainDone_fails : ∀ t, t = goDown p s → exec (.portRetrainDone p false) s =
    .next (setPort { t with free := t.free + 1 } p { portAt t p with lanes := Config.lanesTrained t.free }) := by
  rintro _ rfl
  rw [exec_portRetrainDone_meaning, execPortRetrainDone, onPort_at port on present at_p, if_neg (by simp [retrains]),
    if_neg Bool.false_ne_true]

end

/-! ## Rekeys (R368, R370) -/

section
variable (up : x.state = .up) {pk own : Nat} {k : LinkKey × LinkKey}
  (key : own = if x.rekeying then x.ephemeral else Config.ephemeral p (now s))
  (keys : k = newKeys own pk s.fuse.serial x.peerSerial (!x.tx.epoch) (!x.rx.epoch))
include up key keys

/-- The port had sent its own key and awaits the peer's. -/
theorem exec_rekeyMessageReceive_completes (exchanging : x.rekeying = true) (awaits : x.awaitKey = true) :
    exec (.rekeyMessageReceive p pk) s = .next (setPort s p { x with
      rekeying := true, awaitKey := false, ephemeral := own, nextTx := some k.1, nextRx := some k.2 }) := by
  subst keys key
  rw [exec_rekeyMessageReceive_meaning, execRekeyMessageReceive, onPort_at port on present at_p,
    if_neg (by simp [up, awaits])]
  exact congrArg _ (if_pos exchanging)

/-- The peer began the exchange. -/
theorem exec_rekeyMessageReceive_answers (quiet : x.rekeying = false) :
    exec (.rekeyMessageReceive p pk) s = .next (towPeer p (rekeyMsg own) (setPort s p { x with
      rekeying := true, awaitKey := false, ephemeral := own, nextTx := some k.1, nextRx := some k.2 })) := by
  subst keys key
  rw [exec_rekeyMessageReceive_meaning, execRekeyMessageReceive, onPort_at port on present at_p,
    if_neg (by simp [up, quiet])]
  exact congrArg _ (if_neg (by simp [quiet]))

end

/-! ## Flits (R363, R364, R368, R369, R371) -/

section
variable (up : x.state = .up) (steady : x.retraining = false)
include up steady

theorem exec_flitTransmit_resends {f : List Byte} {fs : List (List Byte)} (due : x.resend = f :: fs) :
    exec (.flitTransmit p) s = .next (setPort s p { x with
      resend := fs, sent := [f], crcRetry := satAdd x.crcRetry 1, resent := satAdd x.resent 1 }) := by
  rw [exec_flitTransmit_meaning, execFlitTransmit, onPort_at port on present at_p, if_neg (by simp [up, steady])]
  simp only [due]

theorem exec_flitTransmit_new (none_due : x.resend = []) (room : x.replay.length < 1024) :
    exec (.flitTransmit p) s = .next (sendNew p s) := by
  rw [exec_flitTransmit_meaning, execFlitTransmit, onPort_at port on present at_p, if_neg (by simp [up, steady])]
  simp only [none_due, room, if_true]

section
variable {f : List Byte} {fec : Nat} {y : Port} (whole : f.length = 256)
  (noted : y = { x with fecCorr := satAdd x.fecCorr fec, fecTotal := satAdd x.fecTotal fec, heard := now s })
include whole noted

/-- An up port with steady lanes takes a whole flit, having noted what FEC corrected in it and when it came. -/
theorem exec_flitReceive_takes : exec (.flitReceive p f fec) s =
    .next (if field f 248 8 ≠ crc64 (f.take 248) then setPort s p { y with nak := true }
      else if field f 0 1 / 4 % 4 = 3 then setPort s p y else goodFlit p f (setPort s p y)) := by
  subst noted
  rw [exec_flitReceive_meaning, execFlitReceive, onPort_at port on present at_p, if_neg (by simp [up, steady, whole])]

theorem exec_flitReceive_damaged (damaged : field f 248 8 ≠ crc64 (f.take 248)) :
    exec (.flitReceive p f fec) s = .next (setPort s p { y with nak := true }) := by
  rw [exec_flitReceive_takes port on present at_p up steady whole noted, if_pos damaged]

section
variable (crc : field f 248 8 = crc64 (f.take 248))
include crc

theorem exec_flitReceive_hail (hail : field f 0 1 / 4 % 4 = 3) :
    exec (.flitReceive p f fec) s = .next (setPort s p y) := by
  rw [exec_flitReceive_takes port on present at_p up steady whole noted, if_neg (not_not_intro crc), if_pos hail]

theorem exec_flitReceive_good (sealed : field f 0 1 / 4 % 4 ≠ 3) :
    exec (.flitReceive p f fec) s = .next (goodFlit p f (setPort s p y)) := by
  rw [exec_flitReceive_takes port on present at_p up steady whole noted, if_neg (not_not_intro crc), if_neg sealed]

end

end

end

end

/-- Settles O45: a present port acts by its state: it hails once trained, is up or refused by its peer's HAIL, goes down in
silence or after a failed retrain, and takes the peer's key, with its own in answer unless that has gone. -/
theorem portsComeUpAndGoDown : Obligations.PortsComeUpAndGoDown := by
  unfold Obligations.PortsComeUpAndGoDown
  exact fun s p x port on present at_p => ⟨fun rt resting => exec_portTrained_hails port on present at_p resting rt,
    fun h verified => ⟨fun hailing => exec_hailReceive_verified port on present at_p hailing verified,
      fun up peer => exec_hailReceive_announces port on present at_p up peer verified⟩,
    fun h unverified hailing => exec_hailReceive_refused port on present at_p hailing unverified,
    fun listening => ⟨exec_portSilenceTimeout_silent port on present at_p listening,
      exec_portSilenceTimeout_heard port on present at_p listening⟩,
    fun retrains => ⟨exec_portRetrainDone_resends port on present at_p retrains,
      exec_portRetrainDone_fails port on present at_p retrains⟩,
    fun pk k own up key keys => ⟨exec_rekeyMessageReceive_completes port on present at_p up key keys,
      exec_rekeyMessageReceive_answers port on present at_p up key keys⟩⟩

/-- Settles O46: an up port resends what is due before it sends a new flit; a received flit is judged by its CRC, then by
its kind. -/
theorem flitsAreExchanged : Obligations.FlitsAreExchanged := by
  unfold Obligations.FlitsAreExchanged
  exact fun s p x port on present at_p up steady =>
    ⟨fun f fs => exec_flitTransmit_resends port on present at_p up steady,
      exec_flitTransmit_new port on present at_p up steady, fun f fec y whole noted =>
      ⟨exec_flitReceive_damaged port on present at_p up steady whole noted, fun crc =>
        ⟨exec_flitReceive_hail port on present at_p up steady whole noted crc,
          exec_flitReceive_good port on present at_p up steady whole noted crc⟩⟩⟩

end Sys2Proof.Machine
end

section
/-!
A wrong tag takes its port down (R366, R369): nothing else that happens then changes what that port holds, any memory, or a
SECURITY cause that is set.
-/

namespace Sys2Proof.Machine

/-! ## What a port holds -/

theorem portAt_setPort_ne {p q : Nat} (other : p ≠ q) (s : State) (x : Port) : portAt (setPort s q x) p = portAt s p :=
  tabGet_tabSet_ne ({} : Port) s.fabric.ports q p x other

theorem portAt_setPort_eq {x : Port} (used : x ≠ {}) (s : State) (p : Nat) : portAt (setPort s p x) p = x :=
  tabGet_tabSet_eq ({} : Port) s.fabric.ports p x used

/-- A port that is up is not at its reset values. -/
theorem portAt_setPort_up {x : Port} (up : x.state = .up) (s : State) (p : Nat) : portAt (setPort s p x) p = x :=
  portAt_setPort_eq (by rintro rfl; cases up) s p

theorem satAdd_one_ne_zero (r : W32) : satAdd r 1 ≠ 0 := by
  intro zero
  have value : (satAdd r 1).toNat = 0 := by rw [zero]; rfl
  simp only [satAdd, BitVec.toNat_ofNat, Nat.min_def] at value
  split at value <;> omega

/-- A port that has counted a wrong tag is not at its reset values. -/
theorem portAt_setPort_counted {x : Port} {r : W32} (counted : x.tagFail = satAdd r 1) (s : State) (p : Nat) :
    portAt (setPort s p x) p = x :=
  portAt_setPort_eq (by rintro rfl; exact satAdd_one_ne_zero r counted.symm) s p

/-! ## Events and records leave the links and memories (R466 to R470) -/

/-- `t` has the ports and memories of `s`, and every SECURITY cause that is set in `s`. -/
structure KeepsLinks (s t : State) : Prop where
  ports : t.fabric.ports = s.fabric.ports
  store : t.store = s.store
  cause : ∀ b, s.irq.security.cause.getLsbD b = true → t.irq.security.cause.getLsbD b = true

theorem KeepsLinks.refl (s : State) : KeepsLinks s s := ⟨rfl, rfl, fun _ h => h⟩

theorem KeepsLinks.trans {s t u : State} (first : KeepsLinks s t) (second : KeepsLinks t u) : KeepsLinks s u :=
  ⟨second.ports.trans first.ports, second.store.trans first.store, fun b h => second.cause b (first.cause b h)⟩

theorem KeepsLinks.portAt {s t : State} (keeps : KeepsLinks s t) (p : Nat) : portAt t p = portAt s p :=
  congrArg (tabGet ({} : Port) · p) keeps.ports

theorem armFn_links (s : State) (n : Nat) :
    (armFn s n).fabric.ports = s.fabric.ports ∧ (armFn s n).store = s.store := by
  unfold armFn
  dsimp only
  split <;> exact ⟨rfl, rfl⟩

theorem irqSettle_links (s : State) : KeepsLinks s (irqSettle s) := by
  obtain ⟨-, -, leaves⟩ := irqSettle_leaves s
  have armed : ((List.range 5).foldl armFn s).fabric.ports = s.fabric.ports ∧
      ((List.range 5).foldl armFn s).store = s.store :=
    List.foldlRecOn _ armFn (motive := fun t => t.fabric.ports = s.fabric.ports ∧ t.store = s.store) ⟨rfl, rfl⟩
      fun t ⟨ports, store⟩ n _ => ⟨(armFn_links t n).1.trans ports, (armFn_links t n).2.trans store⟩
  have outside : (irqSettle s).fabric.ports = s.fabric.ports ∧ (irqSettle s).store = s.store := by
    unfold irqSettle
    dsimp only
    split <;> exact armed
  have security : (irqSettle s).irq.security = s.irq.security := by simpa only [groupLeaf] using leaves 6
  exact ⟨outside.1, outside.2, fun b set => security ▸ set⟩

theorem setGroupLeaf_security_ne {g : Nat} (other : g ≠ 6) (i : Irq) (l : Leaf) :
    (setGroupLeaf i g l).security = i.security := by
  fun_cases setGroupLeaf i g l
  case case6 => exact absurd rfl other
  all_goals rfl

theorem setLeafBit_links (g k b : Nat) (s : State) : KeepsLinks s (setLeafBit g k b s) := by
  unfold setLeafBit
  dsimp only
  refine .trans ?_ (irqSettle_links _)
  refine ⟨rfl, rfl, fun j set => ?_⟩
  by_cases queue : g = 0
  · simpa only [if_pos queue] using set
  by_cases security : g = 6
  · subst security
    simp [setGroupLeaf, groupLeaf, set]
  · simpa only [if_neg queue, setGroupLeaf_security_ne security] using set

theorem raise_links (c : Cause) (s : State) : KeepsLinks s (raise c s) := by
  unfold raise
  dsimp only
  split
  · exact .refl s
  · exact setLeafBit_links _ _ _ s

theorem raise_linkAuth_cause (s : State) : (raise .linkAuth s).irq.security.cause.getLsbD 0 = true := by
  have not_monitor : ¬ ((Cause.place .linkAuth).1 = 7 && s.security.lockout) = true := by simp [Cause.place]
  rw [raise, if_neg not_monitor]
  refine (irqSettle_links _).cause 0 ?_
  simp [Cause.place, setGroupLeaf]

theorem beginRestart_links (s : State) : KeepsLinks s (beginRestart s) := by
  unfold beginRestart
  split <;> exact ⟨rfl, rfl, fun _ set => set⟩

theorem KeepsLinks.ite {s t u : State} {p : Prop} [Decidable p] (yes : KeepsLinks s t) (no : KeepsLinks s u) :
    KeepsLinks s (if p then t else u) := by
  split <;> assumption

/-- A fault that is charged to no command. -/
theorem report_links (cls : Nat) (loc : Nat × Nat × Nat) (n : Nat) (s : State) :
    KeepsLinks s (report cls loc none n s) := by
  unfold report
  refine .ite (.refl s) ?_
  dsimp only
  refine .ite (.trans (.ite (.trans ?noted (raise_links _ _)) ?noted) (beginRestart_links _))
    (.ite (.trans ?noted (raise_links _ _)) ?noted)
  case noted => exact ⟨rfl, rfl, fun _ set => set⟩

/-! ## What is sent elsewhere -/

theorem countDrop_links (s : State) : KeepsLinks s (countDrop s) := ⟨rfl, rfl, fun _ set => set⟩

theorem settleRemote_links (tag : Nat) (s : State) : KeepsLinks s (settleRemote tag s) := by
  unfold settleRemote
  split
  · exact .refl s
  dsimp only
  split <;> split <;> exact ⟨rfl, rfl, fun _ set => set⟩

theorem noteJobFault_links (loc : Nat × Nat × Nat) (cmd : Option Nat) (s : State) :
    KeepsLinks s (noteJobFault loc cmd s) :=
  .ite (.refl s) ⟨rfl, rfl, fun _ set => set⟩

theorem refuseRemote_links (tag : Nat) (s : State) : KeepsLinks s (refuseRemote tag s) := by
  have settled := settleRemote_links tag s
  unfold refuseRemote
  split
  · exact .refl s
  dsimp only
  split
  · exact settled.trans (noteJobFault_links _ _ _)
  split
  · exact settled.trans ⟨rfl, rfl, fun _ set => set⟩
  · exact settled

/-- Port `p` is down for a wrong tag: that is counted and shown, and of what `x` had received whole messages are left; the
memories are `mem`. -/
structure TagFailed (p : Nat) (x : Port) (mem : Store) (t : State) : Prop where
  tagFail : (portAt t p).tagFail = satAdd x.tagFail 1
  state : (portAt t p).state = .down
  cause : t.irq.security.cause.getLsbD 0 = true
  rxq : (portAt t p).rxq = x.rxq.map fun bs => wholeMsgs bs.length bs
  store : t.store = mem

theorem tagFailed_setPort {p : Nat} {x y : Port} {s : State} (tagFail : y.tagFail = satAdd x.tagFail 1)
    (state : y.state = .down) (rxq : y.rxq = x.rxq.map fun bs => wholeMsgs bs.length bs)
    (cause : s.irq.security.cause.getLsbD 0 = true) : TagFailed p x s.store (setPort s p y) := by
  have at_p := portAt_setPort_counted tagFail s p
  exact ⟨(congrArg _ at_p).trans tagFail, (congrArg _ at_p).trans state, cause, (congrArg _ at_p).trans rxq, rfl⟩

section
variable {p : Nat} {x : Port} {mem : Store} {t : State} (failed : TagFailed p x mem t)
include failed

theorem TagFailed.of_portAt {u : State} (at_p : portAt u p = portAt t p)
    (cause : u.irq.security.cause.getLsbD 0 = true) (store : u.store = t.store) : TagFailed p x mem u :=
  ⟨at_p ▸ failed.tagFail, at_p ▸ failed.state, cause, at_p ▸ failed.rxq, store.trans failed.store⟩

theorem TagFailed.keeps {u : State} (keeps : KeepsLinks t u) : TagFailed p x mem u :=
  failed.of_portAt (keeps.portAt p) (keeps.cause 0 failed.cause) keeps.store

/-- A message is queued, on this port or another. -/
theorem TagFailed.putOut (q vc : Nat) (m : Msg) : TagFailed p x mem (putOut q vc m t) := by
  unfold Machine.putOut
  by_cases here : p = q
  · obtain ⟨tagFail, state, cause, rxq, rfl⟩ := failed
    subst here
    exact tagFailed_setPort tagFail state rxq cause
  · exact failed.of_portAt (portAt_setPort_ne here _ _) failed.cause rfl

theorem TagFailed.towOn (m : Msg) : TagFailed p x mem (towOn m t) := by
  unfold Machine.towOn
  split
  · exact failed.putOut _ _ m
  · exact failed.keeps (countDrop_links t)

theorem TagFailed.sendMsg {vc : Nat} {m : Msg} {u : State} (sent : sendMsg vc m t = some u) : TagFailed p x mem u := by
  obtain ⟨q, -, rfl⟩ := Option.map_eq_some_iff.1 sent
  exact failed.putOut q vc m

theorem TagFailed.respond (m : Msg) (kind length : Nat) (data : List PByte) :
    TagFailed p x mem (respond m kind length data t) := by
  unfold Machine.respond
  split
  next sent => exact failed.sendMsg sent
  next => exact failed.keeps (countDrop_links t)

theorem TagFailed.dropTransit (vc : Nat) (m : Msg) : TagFailed p x mem (dropTransit vc m t) := by
  have counted := failed.keeps (countDrop_links t)
  unfold Machine.dropTransit
  dsimp only
  split
  · exact counted
  · exact counted.respond m 8 0 []

theorem TagFailed.reroute (vc : Nat) (q : Queued) : TagFailed p x mem (reroute vc q t) := by
  unfold Machine.reroute
  split
  · exact failed
  split
  · exact failed
  split
  · split
    · exact failed.towOn _
    · exact failed
  split
  next sent => exact failed.sendMsg sent
  next =>
    split
    · exact failed.keeps ((countDrop_links t).trans (refuseRemote_links _ _))
    · exact failed.dropTransit vc _

end

/-! ## The port goes down -/

section
variable {p : Nat} {x y : Port} {s : State} (at_p : portAt s p = y) (up : y.state = .up) (received : y.rxq = x.rxq)
include at_p up received

/-- An up port that has just counted a wrong tag goes down. -/
theorem goDown_tagFailed {mem : Store} (counted : y.tagFail = satAdd x.tagFail 1)
    (shown : s.irq.security.cause.getLsbD 0 = true) (store : s.store = mem) : TagFailed p x mem (goDown p s) := by
  subst at_p store
  unfold goDown
  dsimp only
  rw [if_pos up]
  refine .keeps ?_ ((raise_links _ _).trans (report_links _ _ _ _))
  refine List.foldlRecOn _ _ ?_ fun t failed vc _ => List.foldlRecOn _ _ failed fun u failed q _ => failed.reroute vc q
  exact tagFailed_setPort counted rfl (congrArg (Vector.map _) received) shown

theorem tagFailure_tagFailed (tagFail : y.tagFail = x.tagFail) : TagFailed p x s.store (tagFailure p s) := by
  have recorded (t : State) : KeepsLinks (raise .linkAuth t) (report 12 (portLoc p) none 1 (raise .linkAuth t)) :=
    report_links _ _ _ _
  subst at_p
  have kept := (raise_links .linkAuth (setPort s p { portAt s p with tagFail := satAdd (portAt s p).tagFail 1 })).trans
    (recorded _)
  exact goDown_tagFailed ((kept.portAt p).trans (portAt_setPort_up (by exact up) s p)) up received
    (congrArg (satAdd · 1) tagFail) ((recorded _).cause 0 (raise_linkAuth_cause _)) kept.store

end

/-- A flit in order with a key for its epoch and another tag, or with no key. -/
theorem goodFlit_wrongTag {s : State} {p : Nat} {f : List Byte} {y : Port} (at_p : portAt s p = y)
    (inOrder : BitVec.ofNat 16 (field f 2 2) = y.rxNext) (wrong : ∀ k, rxKey y (bit (field f 0 1) 4) = some k →
      (f.drop 232).take 16 ≠ gcmTagBytes k.key k.nonce (f.take 8) ((f.drop 8).take 224)) :
    goodFlit p f s = tagFailure p s := by
  subst at_p
  rw [goodFlit, if_neg (not_not_intro inOrder)]
  split
  next => rfl
  next k key => exact if_neg (wrong k key)

/-- What an up port notes of a flit that comes at `t`, whatever its CRC. -/
def notedFlit (fec t : Nat) (x : Port) : Port :=
  { x with fecCorr := satAdd x.fecCorr fec, fecTotal := satAdd x.fecTotal fec, heard := t }

/-- Settles O47: the flit's CRC lets it through to its tag, whose failure counts, shows LINK_AUTH and takes the port
down. -/
theorem wrongTagsTakePortsDown : Obligations.WrongTagsTakePortsDown := by
  unfold Obligations.WrongTagsTakePortsDown
  intro s p fec f x port on present at_p up steady whole crc sealed inOrder wrong
  have at_noted : portAt (setPort s p (notedFlit fec (now s) x)) p = notedFlit fec (now s) x :=
    portAt_setPort_up (x := notedFlit fec (now s) x) up s p
  have received : exec (.flitReceive p f fec) s = .next (tagFailure p (setPort s p (notedFlit fec (now s) x))) := by
    rw [exec_flitReceive_good port on present at_p up steady whole (y := notedFlit fec (now s) x) rfl crc sealed,
      goodFlit_wrongTag at_noted inOrder wrong]
  obtain ⟨tagFail, state, cause, rxq, store⟩ := tagFailure_tagFailed (x := x) at_noted up rfl rfl
  exact ⟨_, received, tagFail, state, cause, rxq, store⟩

end Sys2Proof.Machine
end

section
/-!
Power lending in a pool: the tick's messages, at a member and at its coordinator, and what lapses (R388, R389, R462).
-/

namespace Sys2Proof.Machine

theorem exec_lendTick_meaning (w : Nat) (s : State) : exec (.lendTick w) s = execLendTick w s := rfl

theorem exec_slack_meaning (n t w k : Nat) (s : State) : exec (.slack n t w k) s = execSlack n t w k s := rfl

theorem exec_takeTimeout_meaning (s : State) : exec .takeTimeout s = execTakeTimeout s := rfl

theorem exec_take_meaning (t : Nat) (s : State) : exec (.take t) s = execTake t s := rfl

theorem exec_taken_meaning (n t : Nat) (s : State) : exec (.taken n t) s = execTaken n t s := rfl

theorem exec_give_meaning (t w : Nat) (s : State) : exec (.give t w) s = execGive t w s := rfl

theorem exec_renew_meaning (t : Nat) (n : Int) (s : State) : exec (.renew t n) s = execRenew t n s := rfl

theorem exec_renewTimeout_meaning (s : State) : exec .renewTimeout s = execRenewTimeout s := rfl

theorem exec_lendReceivedLapse_meaning (s : State) : exec .lendReceivedLapse s = execLendReceivedLapse s := rfl

theorem exec_lendReturn_meaning (s : State) : exec .lendReturn s = execLendReturn s := rfl

section
variable {s : State} (runs : running s = true) (pooled : s.pmu.lend.pool ≠ none)
include runs pooled

/-! ## The tick and its SLACK (R388, R462) -/

section
variable {t k : Nat} {s1 : State} (tick : t = now s / 1000000) (later : t > s.pmu.lend.tick)
  (wait : k = s.pmu.lend.barrier / 1000)
  (begun : s1 = setLend s { s.pmu.lend with
    tick := t, slacks := [], took := false, moved := false, transfer := none, barrier := 0, recent := atTick t s })
include tick later wait begun

/-- A new tick of the pool: the SLACK with the wait of the one before it goes to the coordinator. -/
theorem exec_lendTick_begins (w : Nat) : exec (.lendTick w) s =
    .next (if coordinator s1 = ownNode s1 then collectSlack (ownNode s1) t k (capInForce s1) s1
      else sendTow (coordinator s1) (lendMsg s1 1 t k (capInForce s1)) s1) := by
  subst begun wait tick
  rw [exec_lendTick_meaning, execLendTick, whenRunning_runs runs]
  exact congrArg _ (if_neg (by simpa [pooled] using later))

theorem exec_lendTick_coordinates (own : coordinator s1 = ownNode s1) (w : Nat) : exec (.lendTick w) s =
    .next (collectSlack (ownNode s1) t k (capInForce s1) s1) := by
  rw [exec_lendTick_begins runs pooled tick later wait begun, if_pos own]

theorem exec_lendTick_sends (other : coordinator s1 ≠ ownNode s1) (w : Nat) : exec (.lendTick w) s =
    .next (sendTow (coordinator s1) (lendMsg s1 1 t k (capInForce s1)) s1) := by
  rw [exec_lendTick_begins runs pooled tick later wait begun, if_neg other]

end

theorem exec_slack_collects (n t w k : Nat) : exec (.slack n t w k) s = .next (collectSlack n t w k s) := by
  rw [exec_slack_meaning, execSlack, whenRunning_runs runs, if_neg pooled]

/-! ## The coordinator (R388) -/

section
variable (own : coordinator s = ownNode s)
include own

theorem exec_takeTimeout_takes (late : 1000000 * s.pmu.lend.tick + 200000 ≤ now s) :
    exec .takeTimeout s = .next (sendTake s) := by
  rw [exec_takeTimeout_meaning, execTakeTimeout, whenRunning_runs runs, if_pos (by simp [pooled, own, late])]

theorem exec_taken_gives (took : s.pmu.lend.took = true) (unmoved : s.pmu.lend.moved = false) {n : Nat}
    (lender : s.pmu.lend.transfer.map (·.1) = some n) : exec (.taken n s.pmu.lend.tick) s = .next (sendGive s) := by
  rw [exec_taken_meaning, execTaken, whenRunning_runs runs, if_pos (by simp [pooled, own, took, unmoved, lender])]

theorem exec_renewTimeout_renews (unmoved : s.pmu.lend.moved = false)
    (late : 1000000 * s.pmu.lend.tick + 500000 ≤ now s) : exec .renewTimeout s = .next (sendRenew s) := by
  rw [exec_renewTimeout_meaning, execRenewTimeout, whenRunning_runs runs, if_pos (by simp [pooled, own, unmoved, late])]

end

/-! ## A member (R388, R389) -/

/-- A member whose cap stays at 900 W or more after it lends 10 W does so, and answers TAKEN. -/
theorem exec_take_lends {t : Nat} (current : t = s.pmu.lend.tick) (spare : 910 ≤ (s.pmu.setCap : Int) + s.pmu.lend.net) :
    exec (.take t) s = .next (sendTow (coordinator (heardCoordinator (lendWatts s)))
      (lendMsg (heardCoordinator (lendWatts s)) 3 t 0 0) (heardCoordinator (lendWatts s))) := by
  rw [exec_take_meaning, execTake, whenRunning_runs runs]
  exact congrArg _ (if_neg (by simp [pooled, current, Int.not_lt.2 spare]))

theorem exec_give_receives (w : Nat) : exec (.give s.pmu.lend.tick w) s =
    .next (heardCoordinator (setNet (s.pmu.lend.net + w) s)) := by
  rw [exec_give_meaning, execGive, whenRunning_runs runs, if_pos (by simp [pooled])]

theorem exec_renew_keeps (n : Int) : ∀ ns, ns = netsOf s.pmu.lend.members n → exec (.renew s.pmu.lend.tick n) s =
    .next (heardCoordinator (renewed (tabGet 0 ns (ownNode s)) (setLend s { s.pmu.lend with nets := ns }))) := by
  rintro _ rfl
  rw [exec_renew_meaning, execRenew, whenRunning_runs runs, if_pos (by simp [pooled])]

end

/-! ## Lapses (R389) -/

section
variable {s : State}

theorem exec_lendReceivedLapse_lapses (received : s.pmu.lend.received ≠ 0)
    (old : s.pmu.lend.lastRenew + 5000000 ≤ now s) :
    exec .lendReceivedLapse s = .next (setLend s { s.pmu.lend with received := 0 }) := by
  rw [exec_lendReceivedLapse_meaning, execLendReceivedLapse, if_pos (by simp [received, old])]

theorem exec_lendReturn_returns (lent : s.pmu.lend.lent ≠ 0)
    (old : max s.pmu.lend.lastRenew s.pmu.lend.lentAt + 10000000 ≤ now s) :
    exec .lendReturn s = .next (setLend s { s.pmu.lend with lent := 0 }) := by
  rw [exec_lendReturn_meaning, execLendReturn,
    if_pos (Bool.and_eq_true_iff.2 ⟨decide_eq_true lent, decide_eq_true old⟩)]

end

/-- Settles O53: a member of a pool that runs acts on each message of the tick, its coordinator also on what is late; what
was received or lent lapses with time. -/
theorem poolsLendPower : Obligations.PoolsLendPower := by
  unfold Obligations.PoolsLendPower
  refine fun s => ⟨fun runs pooled => ⟨fun w t k s1 tick later wait begun =>
      ⟨fun own => exec_lendTick_coordinates runs pooled tick later wait begun own w,
        fun other => exec_lendTick_sends runs pooled tick later wait begun other w⟩,
    exec_slack_collects runs pooled, exec_takeTimeout_takes runs pooled, fun t s0 s1 current spare lent heard => ?take,
    fun n took unmoved own => exec_taken_gives runs pooled own took unmoved, exec_give_receives runs pooled,
    fun n ns s1 nets kept => ?renew, exec_renewTimeout_renews runs pooled⟩,
    exec_lendReceivedLapse_lapses, exec_lendReturn_returns⟩
  case take =>
    subst lent
    have lends : s1 = heardCoordinator (lendWatts s) := heard
    rw [exec_take_lends runs pooled current spare, lends]
  case renew =>
    rw [exec_renew_keeps runs pooled n ns nets, kept]
    rfl

end Sys2Proof.Machine
end

section
/-!
Every step of the block: what it takes from the queue, what it leaves alone, and that it completes.
-/

namespace Sys2Proof.Machine

/-! ## The frame of a step -/

/-- Every command keeps the queue, the fuses and the canonical form: its row does, by the laws of the families. -/
theorem exec_frame {s0 : State} (i : Instr) (s : State) (hs : Frame s0 s) : FrameO s0 (exec i s) :=
  match i with
  | .sqTailWrite .. => execSqTailWrite_frame _ _ _ _ s hs
  | .replyHeadWrite .. => execReplyHeadWrite_frame _ _ _ s hs
  | .packetTake .. => execPacketTake_frame _ s hs
  | .commandStart .. => execCommandStart_frame _ s hs
  | .commandComplete .. => execCommandComplete_frame _ _ s hs
  | .duplicateReply .. => execDuplicateReply_frame _ _ s hs
  | .commandTimeout .. => execCommandTimeout_frame _ s hs
  | .commandRetry .. => execCommandRetry_frame _ _ s hs
  | .adminQueueEnable .. => execAdminQueueEnable_frame _ s hs
  | .adminQueueDisable .. => execAdminQueueDisable_frame _ s hs
  | .adminQueueDrained => execAdminQueueDrained_frame s hs
  | .queueCreate .. => execQueueCreate_frame _ s hs
  | .queueDelete .. => execQueueDelete_frame _ s hs
  | .partitionOpen .. => execPartitionOpen_frame _ s hs
  | .partitionClose .. => execPartitionClose_frame _ s hs
  | .jobOpen .. => execJobOpen_frame _ s hs
  | .jobClose .. => execJobClose_frame _ s hs
  | .jobSlice .. => execJobSlice_frame _ s hs
  | .memCopy .. => execMemCopy_frame _ s hs
  | .memFill .. => execMemFill_frame _ s hs
  | .copyTensor .. => execCopyTensor_frame _ s hs
  | .scrubRange .. => execScrubRange_frame _ s hs
  | .setKvBoundary .. => execSetKvBoundary_frame _ s hs
  | .checkbitWrite .. => execCheckbitWrite_frame _ s hs
  | .loadProgram .. => execLoadProgram_frame _ s hs
  | .launch .. => execLaunch_frame _ s hs
  | .unloadProgram .. => execUnloadProgram_frame _ s hs
  | .setFormatSlot .. => execSetFormatSlot_frame _ s hs
  | .customerSet .. => execCustomerSet_frame _ s hs
  | .requestOpen .. => execRequestOpen_frame _ s hs
  | .requestClose .. => execRequestClose_frame _ s hs
  | .submitChunk .. => execSubmitChunk_frame _ s hs
  | .stepPlan .. => execStepPlan_frame _ s hs
  | .stepRun .. => execStepRun_frame _ s hs
  | .stepRunSettle .. => execStepRunSettle_frame _ s hs
  | .forkSequence .. => execForkSequence_frame _ s hs
  | .editPages .. => execEditPages_frame _ s hs
  | .evict .. => execEvict_frame _ s hs
  | .compact .. => execCompact_frame _ s hs
  | .prefixLookup .. => execPrefixLookup_frame _ s hs
  | .prefixInsert .. => execPrefixInsert_frame _ s hs
  | .loadPrefixSet .. => execLoadPrefixSet_frame _ s hs
  | .promote .. => execPromote_frame _ s hs
  | .demote .. => execDemote_frame _ s hs
  | .shipKv .. => execShipKv_frame _ s hs
  | .shipKvDestComplete .. => execShipKvDestComplete_frame _ s hs
  | .adoptPages .. => execAdoptPages_frame _ s hs
  | .registerWeights .. => execRegisterWeights_frame _ s hs
  | .unregisterWeights .. => execUnregisterWeights_frame _ s hs
  | .verifyWeights .. => execVerifyWeights_frame _ s hs
  | .weightPageRepair .. => execWeightPageRepair_frame _ _ _ s hs
  | .neighbourRead .. => execNeighbourRead_frame _ s hs
  | .setNodeId .. => execSetNodeId_frame _ s hs
  | .routeWrite .. => execRouteWrite_frame _ s hs
  | .linkState .. => execLinkState_frame _ s hs
  | .linkRekey .. => execLinkRekey_frame _ s hs
  | .fabricFence .. => execFabricFence_frame _ s hs
  | .setCap .. => execSetCap_frame _ s hs
  | .setProfile .. => execSetProfile_frame _ s hs
  | .lendPool .. => execLendPool_frame _ s hs
  | .sleep .. => execSleep_frame _ s hs
  | .powerRead .. => execPowerRead_frame _ s hs
  | .attestReport .. => execAttestReport_frame _ s hs
  | .scrubStatus .. => execScrubStatus_frame _ s hs
  | .identRead .. => execIdentRead_frame _ s hs
  | .faultLog .. => execFaultLog_frame _ s hs
  | .faultResponseLoad .. => execFaultResponseLoad_frame _ s hs
  | .guardBandLoad .. => execGuardBandLoad_frame _ s hs
  | .trafficGen .. => execTrafficGen_frame _ s hs
  | .scrubLap .. => execScrubLap_frame _ s hs
  | .bundleIssue .. => execBundleIssue_frame _ s hs
  | .ccResultLand .. => execCcResultLand_frame _ s hs
  | .readCacheFill .. => execReadCacheFill_frame _ s hs
  | .aset .. => execAset_frame _ _ s hs
  | .awrap .. => execAwrap_frame _ _ s hs
  | .seed .. => execSeed_frame _ _ s hs
  | .dgset .. => execDgset_frame _ s hs
  | .mwload .. => execMwload_frame _ s hs
  | .mma .. => execMma_frame _ s hs
  | .mdrain .. => execMdrain_frame _ s hs
  | .vadd .. => execVadd_frame _ s hs
  | .vsub .. => execVsub_frame _ s hs
  | .vmul .. => execVmul_frame _ s hs
  | .vfma .. => execVfma_frame _ s hs
  | .vmax .. => execVmax_frame _ s hs
  | .vmin .. => execVmin_frame _ s hs
  | .vscale .. => execVscale_frame _ s hs
  | .vcvt .. => execVcvt_frame _ s hs
  | .vmulb .. => execVmulb_frame _ s hs
  | .vsubb .. => execVsubb_frame _ s hs
  | .vredsum .. => execVredsum_frame _ s hs
  | .vredmax .. => execVredmax_frame _ s hs
  | .sexp .. => execSexp_frame _ s hs
  | .slog .. => execSlog_frame _ s hs
  | .srsqrt .. => execSrsqrt_frame _ s hs
  | .srcp .. => execSrcp_frame _ s hs
  | .sidx .. => execSidx_frame _ s hs
  | .dcopy .. => execDcopy_frame _ s hs
  | .dlayout .. => execDlayout_frame _ s hs
  | .dflagset .. => execDflagset_frame _ s hs
  | .dflagwait .. => execDflagwait_frame _ s hs
  | .dflagwaitSatisfied .. => execDflagwaitSatisfied_frame _ s hs
  | .dfence .. => execDfence_frame _ s hs
  | .ddesc .. => execDdesc_frame _ s hs
  | .twinMatchTimeout .. => execTwinMatchTimeout_frame _ s hs
  | .engineInstructionComplete .. => execEngineInstructionComplete_frame _ _ s hs
  | .tileFinish .. => execTileFinish_frame _ s hs
  | .jobFault => execJobFault_frame s hs
  | .restartStopDone => execRestartStopDone_frame s hs
  | .restartRetainDone => execRestartRetainDone_frame s hs
  | .restartResetDone => execRestartResetDone_frame s hs
  | .restartReport => execRestartReport_frame s hs
  | .sliceEnd .. => execSliceEnd_frame _ s hs
  | .jobSwitch .. => execJobSwitch_frame _ s hs
  | .runStart .. => execRunStart_frame _ _ s hs
  | .attnScore .. => execAttnScore_frame _ _ s hs
  | .attnFull .. => execAttnFull_frame _ _ s hs
  | .scoreDecay .. => execScoreDecay_frame _ _ s hs
  | .gemv .. => execGemv_frame _ _ s hs
  | .axpy .. => execAxpy_frame _ _ s hs
  | .reduce .. => execReduce_frame _ _ s hs
  | .pageCopy .. => execPageCopy_frame _ _ s hs
  | .rowZero .. => execRowZero_frame _ _ s hs
  | .pageDigest .. => execPageDigest_frame _ _ s hs
  | .lock .. => execLock_frame _ _ s hs
  | .mergeGroupResult .. => execMergeGroupResult_frame _ s hs
  | .refreshDue .. => execRefreshDue_frame _ _ s hs
  | .mergeBufferFlush .. => execMergeBufferFlush_frame _ _ s hs
  | .stackRowChange .. => execStackRowChange_frame _ _ s hs
  | .refreshRateChange .. => execRefreshRateChange_frame _ _ s hs
  | .idleScrubLapEnd .. => execIdleScrubLapEnd_frame _ s hs
  | .unitHang .. => execUnitHang_frame _ _ s hs
  | .faultRecordExport => execFaultRecordExport_frame s hs
  | .faultRecordReceive .. => execFaultRecordReceive_frame _ s hs
  | .tenantSwitchClearDone .. => execTenantSwitchClearDone_frame _ s hs
  | .tenantSwitchMemoryDone .. => execTenantSwitchMemoryDone_frame _ s hs
  | .farLinkDown .. => execFarLinkDown_frame _ s hs
  | .farLinkRetrainDone .. => execFarLinkRetrainDone_frame _ _ _ s hs
  | .portTrained .. => execPortTrained_frame _ _ s hs
  | .hailReceive .. => execHailReceive_frame _ _ s hs
  | .flitTransmit .. => execFlitTransmit_frame _ s hs
  | .flitReceive .. => execFlitReceive_frame _ _ _ s hs
  | .portRetrainDone .. => execPortRetrainDone_frame _ _ s hs
  | .portSilenceTimeout .. => execPortSilenceTimeout_frame _ s hs
  | .rekeyMessageReceive .. => execRekeyMessageReceive_frame _ _ s hs
  | .write .. => execWrite_frame _ s hs
  | .read .. => execRead_frame _ s hs
  | .readData .. => execReadData_frame _ s hs
  | .writeAcknowledgement .. => execWriteAcknowledgement_frame _ s hs
  | .refusal .. => execRefusal_frame _ s hs
  | .admissionQuery .. => execAdmissionQuery_frame _ s hs
  | .admissionAnswer .. => execAdmissionAnswer_frame _ s hs
  | .barge .. => execBarge_frame _ s hs
  | .unroutable .. => execUnroutable_frame _ s hs
  | .messageForward .. => execMessageForward_frame _ _ s hs
  | .neighbourAdvertisementSend => execNeighbourAdvertisementSend_frame s hs
  | .neighbourAdvertisementReceive .. => execNeighbourAdvertisementReceive_frame _ _ s hs
  | .mapEntryExpire .. => execMapEntryExpire_frame _ s hs
  | .timeExchangeTick => execTimeExchangeTick_frame s hs
  | .timeRequestReceive .. => execTimeRequestReceive_frame _ _ s hs
  | .timeReplyReceive .. => execTimeReplyReceive_frame _ _ _ s hs
  | .ppsEdge => execPpsEdge_frame s hs
  | .lendTick w => execLendTick_frame w s hs
  | .slack .. => execSlack_frame _ _ _ _ s hs
  | .takeTimeout => execTakeTimeout_frame s hs
  | .take .. => execTake_frame _ s hs
  | .taken .. => execTaken_frame _ _ s hs
  | .give .. => execGive_frame _ _ s hs
  | .renew .. => execRenew_frame _ _ s hs
  | .renewTimeout => execRenewTimeout_frame s hs
  | .lendReceivedLapse => execLendReceivedLapse_frame s hs
  | .lendReturn => execLendReturn_frame s hs
  | .capLoopStep .. => execCapLoopStep_frame _ _ _ _ s hs
  | .stackRowStep .. => execStackRowStep_frame _ _ _ s hs
  | .currentLimitStep .. => execCurrentLimitStep_frame _ _ _ s hs
  | .droopTrip .. => execDroopTrip_frame _ _ s hs
  | .droopRelease .. => execDroopRelease_frame _ s hs
  | .thermalLimitStep .. => execThermalLimitStep_frame _ s hs
  | .thermalTrip .. => execThermalTrip_frame _ _ s hs
  | .thermalTripRelease .. => execThermalTripRelease_frame _ _ s hs
  | .capAlertAssert => execCapAlertAssert_frame s hs
  | .capAlertRelease => execCapAlertRelease_frame s hs
  | .wake .. => execWake_frame _ s hs
  | .wakePowerDone => execWakePowerDone_frame s hs
  | .wakeMemoryDone => execWakeMemoryDone_frame s hs
  | .wakePortsDone .. => execWakePortsDone_frame _ s hs
  | .wakeResumeDone => execWakeResumeDone_frame s hs
  | .irqHoldoffExpire .. => execIrqHoldoffExpire_frame _ s hs
  | .irqUnmask .. => execIrqUnmask_frame _ s hs
  | .irqLeafClear .. => execIrqLeafClear_frame _ _ _ _ s hs
  | .irqEoi .. => execIrqEoi_frame _ s hs
  | .kvPoolHiWrite .. => execKvPoolHiWrite_frame _ _ _ s hs
  | .kvPoolRelease .. => execKvPoolRelease_frame _ _ _ s hs
  | .farPartWrite .. => execFarPartWrite_frame _ _ _ s hs
  | .powerCfgWrite .. => execPowerCfgWrite_frame _ _ _ s hs
  | .serveCostWrite .. => execServeCostWrite_frame _ _ _ s hs
  | .bar2BaseWrite .. => execBar2BaseWrite_frame _ _ _ s hs
  | .registerWrite .. => execRegisterWrite_frame _ _ _ s hs
  | .bar2Read .. => execBar2Read_frame _ _ _ s hs
  | .bar2Write .. => execBar2Write_frame _ _ _ s hs
  | .timeNowRead .. => execTimeNowRead_frame _ s hs
  | .ppsLastRead .. => execPpsLastRead_frame _ s hs
  | .energyRead .. => execEnergyRead_frame _ s hs
  | .throttleRead .. => execThrottleRead_frame _ _ s hs
  | .tileBeatsRead .. => execTileBeatsRead_frame _ _ s hs
  | .bootLogRead .. => execBootLogRead_frame _ _ s hs
  | .stackCorrCountRead .. => execStackCorrCountRead_frame _ _ s hs
  | .stackUncorrCountRead .. => execStackUncorrCountRead_frame _ _ s hs
  | .stackRunsRead .. => execStackRunsRead_frame _ _ s hs
  | .stackLockWaitMaxRead .. => execStackLockWaitMaxRead_frame _ _ s hs
  | .farPoisonCountRead .. => execFarPoisonCountRead_frame _ s hs
  | .fyantCrcRetryRead .. => execFyantCrcRetryRead_frame _ _ s hs
  | .fyantFecCorrRead .. => execFyantFecCorrRead_frame _ _ s hs
  | .fyantRetrainsRead .. => execFyantRetrainsRead_frame _ _ s hs
  | .fyantTagFailRead .. => execFyantTagFailRead_frame _ _ s hs
  | .serveFlagFallsRead .. => execServeFlagFallsRead_frame _ s hs
  | .serveDeferralsRead .. => execServeDeferralsRead_frame _ s hs
  | .kvWalkSkipsRead .. => execKvWalkSkipsRead_frame _ _ s hs
  | .kvCowRead .. => execKvCowRead_frame _ _ s hs
  | .faultRetriesRead .. => execFaultRetriesRead_frame _ s hs
  | .faultRepairsRead .. => execFaultRepairsRead_frame _ s hs
  | .faultRepairFailsRead .. => execFaultRepairFailsRead_frame _ s hs
  | .faultPlausibilityRead .. => execFaultPlausibilityRead_frame _ s hs
  | .sluiceFailRead .. => execSluiceFailRead_frame _ _ s hs
  | .getVersion .. => execGetVersion_frame _ s hs
  | .getCapabilities .. => execGetCapabilities_frame _ s hs
  | .negotiateAlgorithms .. => execNegotiateAlgorithms_frame _ s hs
  | .getDigests .. => execGetDigests_frame _ s hs
  | .getCertificate .. => execGetCertificate_frame _ _ s hs
  | .challenge .. => execChallenge_frame _ _ _ s hs
  | .getMeasurements .. => execGetMeasurements_frame _ _ s hs
  | .keyExchange .. => execKeyExchange_frame _ _ s hs
  | .finish .. => execFinish_frame _ _ s hs
  | .keyUpdate .. => execKeyUpdate_frame _ s hs
  | .heartbeat .. => execHeartbeat_frame _ s hs
  | .heartbeatLapse .. => execHeartbeatLapse_frame _ s hs
  | .endSession .. => execEndSession_frame _ s hs
  | .sluiceBind .. => execSluiceBind_frame _ _ _ s hs
  | .vsb18Apply => execVsb18Apply_frame s hs
  | .bootStandbyDone => execBootStandbyDone_frame s hs
  | .bootFlashDone => execBootFlashDone_frame s hs
  | .vinPgRise => execVinPgRise_frame s hs
  | .vinPgTimeout => execVinPgTimeout_frame s hs
  | .bootPowerDone => execBootPowerDone_frame s hs
  | .bootStacksDone .. => execBootStacksDone_frame _ s hs
  | .bootLinksDone .. => execBootLinksDone_frame _ _ _ s hs
  | .bootScrubDone .. => execBootScrubDone_frame _ s hs
  | .modRstN .. => execModRstN_frame _ s hs
  | .vinPgFall => execVinPgFall_frame s hs
  | .perstN => execPerstN_frame s hs
  | .functionLevelReset .. => execFunctionLevelReset_frame _ s hs
  | .smbStatus => execSmbStatus_frame s hs
  | .smbPower => execSmbPower_frame s hs
  | .smbCap => execSmbCap_frame s hs
  | .smbVinCurrent => execSmbVinCurrent_frame s hs
  | .smbDieTemp => execSmbDieTemp_frame s hs
  | .smbStackTemp => execSmbStackTemp_frame s hs
  | .smbEnergy => execSmbEnergy_frame s hs
  | .smbThrottle => execSmbThrottle_frame s hs
  | .smbSerial => execSmbSerial_frame s hs
  | .smbFaults => execSmbFaults_frame s hs
  | .smbFlashAddr .. => execSmbFlashAddr_frame _ s hs
  | .smbFlashData .. => execSmbFlashData_frame _ s hs
  | .smbFlashErase .. => execSmbFlashErase_frame _ s hs
  | .smbFlashRead .. => execSmbFlashRead_frame _ s hs
  | .smbFlashStatus => execSmbFlashStatus_frame s hs
  | .flashOperationDone => execFlashOperationDone_frame s hs
  | .monCharacterReceive .. => execMonCharacterReceive_frame _ s hs
  | .monPeek => execMonPeek_frame s hs
  | .monPoke => execMonPoke_frame s hs
  | .monDump => execMonDump_frame s hs
  | .monTgen => execMonTgen_frame s hs
  | .monLap => execMonLap_frame s hs
  | .monLink => execMonLink_frame s hs
  | .monFaults => execMonFaults_frame s hs
  | .monIsland => execMonIsland_frame s hs
  | .monBoot => execMonBoot_frame s hs
  | .monQuit => execMonQuit_frame s hs
  | .monSessionTimeout => execMonSessionTimeout_frame s hs
  | .vsb18Remove => execVsb18Remove_frame s hs
  | .referenceClockEdge => execReferenceClockEdge_frame s hs
  | .ppsLockLapse => execPpsLockLapse_frame s hs
  | .modRstNRelease => execModRstNRelease_frame s hs
  | .perstNRelease => execPerstNRelease_frame s hs
  | .doeDiscovery .. => execDoeDiscovery_frame _ _ s hs
  | .queueRingTimeout .. => execQueueRingTimeout_frame _ s hs

/-- The front command is taken off the queue, and its row runs on the rest. -/
theorem step_cons {s : State} {c : Instr} {rest : List Instr} (h : s.pending = c :: rest) :
    step s = exec c { s with pending := rest } := by
  rw [step, h]

theorem step_nil {s : State} (h : s.pending = []) : step s = .next s := by
  rw [step, h]

/-- A step is framed by the state it starts from with its front command off the queue. -/
theorem step_frame {s t : State} (h : step s = .next t) : Frame { s with pending := s.pending.tail } t := by
  cases hq : s.pending with
  | nil =>
    cases h.symm.trans (step_nil hq)
    exact ⟨hq, rfl, id, id, id⟩
  | cons c rest =>
    have k := exec_frame c { s with pending := rest } (Frame.refl _)
    rwa [← step_cons hq, h] at k

/-! ## Completion -/

/-- What a command may answer: a next state, or the fault of a unit that it names and the architecture does not have. -/
def Answers (wf : Bool) (o : Out) : Prop := Completes o ∨ (o = .fault .noSuchUnit ∧ wf = false)

theorem completes_answers (wf : Bool) (t : State) : Answers wf (.next t) := .inl ⟨t, rfl⟩

theorem onCmd_answers (wf : Bool) (op id : Nat) (s : State) (f : Cmd → State → State) : Answers wf (onCmd op id s f) := by
  unfold onCmd
  split
  · split <;> exact completes_answers _ _
  · exact completes_answers _ _

/-- A row of a unit answers where a well-formed command names a unit inside its limit. -/
theorem onUnit_answers_of {wf : Bool} {limit n : Nat} (named : wf = true → n < limit) (s : State) (f : State → State) :
    Answers wf (onUnit limit n s f) := by
  unfold onUnit
  split
  · exact completes_answers _ _
  · exact .inr ⟨rfl, Bool.eq_false_iff.2 fun h => absurd (named h) ‹_›⟩

theorem onUnit_answers (limit n : Nat) (s : State) (f : State → State) :
    Answers (decide (n < limit)) (onUnit limit n s f) :=
  onUnit_answers_of of_decide_eq_true s f

theorem onUnit_answers_and (limit n : Nat) (other : Bool) (s : State) (f : State → State) :
    Answers (decide (n < limit) && other) (onUnit limit n s f) :=
  onUnit_answers_of (fun h => of_decide_eq_true (Bool.and_elim_left h)) s f

/-- A row that judges its second unit `m` before its first. -/
theorem onUnit_answers_if (limit n most m : Nat) (s : State) (f : State → State) :
    Answers (decide (n < limit) && decide (m < most)) (if m < most then onUnit limit n s f else .fault .noSuchUnit) := by
  split
  · exact onUnit_answers_and ..
  · exact .inr ⟨rfl, by simp [*]⟩

theorem hangReal_wf (u : HangUnit) : hangReal u = u.wf := by
  cases u <;> rfl

theorem execUnitHang_answers (u : HangUnit) (cmd : Option Nat) (s : State) :
    Answers u.wf (execUnitHang u cmd s) := by
  show Answers u.wf (if hangReal u = true then .next _ else .fault .noSuchUnit)
  rw [hangReal_wf]
  split
  · exact completes_answers _ _
  · exact .inr ⟨rfl, Bool.eq_false_iff.2 ‹_›⟩

/-- Every command answers a next state, or names a unit that no module has: by the shape of its row, which is a packet
command's, a unit's, a unit's behind a second number's limit, or an event's that always completes. -/
theorem exec_answers (i : Instr) (s : State) : Answers i.wf (exec i s) := by
  cases i <;> dsimp only [exec]
  case unitHang u cmd => exact execUnitHang_answers u cmd s
  case sqTailWrite | replyHeadWrite | runStart | attnScore | attnFull | scoreDecay | gemv | axpy | reduce |
    pageCopy | rowZero | pageDigest | lock | refreshDue | mergeBufferFlush | kvPoolHiWrite | kvPoolRelease |
    registerWrite | throttleRead | tileBeatsRead | bootLogRead | stackCorrCountRead | stackUncorrCountRead |
    stackRunsRead | stackLockWaitMaxRead | fyantCrcRetryRead | fyantFecCorrRead | fyantRetrainsRead |
    fyantTagFailRead | kvWalkSkipsRead | kvCowRead | sluiceFailRead => exact onUnit_answers_if ..
  case packetTake | commandStart | commandComplete | commandTimeout | commandRetry | adminQueueEnable |
    adminQueueDisable | adminQueueDrained | shipKvDestComplete | weightPageRepair | jobFault | restartStopDone |
    restartRetainDone | restartResetDone | restartReport | idleScrubLapEnd | faultRecordExport |
    faultRecordReceive | neighbourAdvertisementSend | mapEntryExpire | timeExchangeTick | timeReplyReceive |
    ppsEdge | lendTick | slack | takeTimeout | take | taken | give | renew | renewTimeout | lendReceivedLapse |
    lendReturn | capLoopStep | stackRowStep | currentLimitStep | thermalLimitStep | thermalTrip |
    thermalTripRelease | capAlertAssert | capAlertRelease | wake | wakePowerDone | wakeMemoryDone | wakePortsDone |
    wakeResumeDone | vsb18Apply | bootStandbyDone | bootFlashDone | vinPgRise | vinPgTimeout | bootPowerDone |
    bootStacksDone | bootLinksDone | bootScrubDone | modRstN | vinPgFall | perstN | smbStatus | smbPower | smbCap |
    smbVinCurrent | smbDieTemp | smbStackTemp | smbEnergy | smbThrottle | smbSerial | smbFaults | smbFlashAddr |
    smbFlashData | smbFlashErase | smbFlashRead | smbFlashStatus | flashOperationDone | monCharacterReceive |
    monPeek | monPoke | monDump | monTgen | monLap | monLink | monFaults | monIsland | monBoot | monQuit |
    monSessionTimeout | vsb18Remove | referenceClockEdge | ppsLockLapse | modRstNRelease | perstNRelease =>
    exact completes_answers _ _
  case duplicateReply | bundleIssue | ccResultLand | readCacheFill | dgset | mwload | mma | mdrain | vadd | vsub |
    vmul | vfma | vmax | vmin | vscale | vcvt | vmulb | vsubb | vredsum | vredmax | sexp | slog | srsqrt | srcp |
    sidx | dcopy | dlayout | dflagset | dflagwait | dflagwaitSatisfied | dfence | ddesc | twinMatchTimeout |
    tileFinish | sliceEnd | jobSwitch | mergeGroupResult | stackRowChange | refreshRateChange |
    tenantSwitchClearDone | tenantSwitchMemoryDone | farLinkDown | farLinkRetrainDone | portTrained | hailReceive |
    flitTransmit | flitReceive | portRetrainDone | portSilenceTimeout | rekeyMessageReceive | write | read |
    readData | writeAcknowledgement | refusal | admissionQuery | admissionAnswer | barge | unroutable |
    neighbourAdvertisementReceive | timeRequestReceive | droopTrip | droopRelease | irqHoldoffExpire | irqUnmask |
    irqEoi | timeNowRead | ppsLastRead | energyRead | farPoisonCountRead | serveFlagFallsRead | serveDeferralsRead |
    faultRetriesRead | faultRepairsRead | faultRepairFailsRead | faultPlausibilityRead | getVersion |
    getCapabilities | negotiateAlgorithms | getDigests | getCertificate | challenge | getMeasurements |
    keyExchange | finish | keyUpdate | heartbeat | heartbeatLapse | endSession | sluiceBind | functionLevelReset |
    doeDiscovery | queueRingTimeout => exact onUnit_answers ..
  case queueCreate | queueDelete | partitionOpen | partitionClose | jobOpen | jobClose | jobSlice | memCopy |
    memFill | copyTensor | scrubRange | setKvBoundary | checkbitWrite | loadProgram | launch | unloadProgram |
    setFormatSlot | customerSet | requestOpen | requestClose | submitChunk | stepPlan | stepRun | stepRunSettle |
    forkSequence | editPages | evict | compact | prefixLookup | prefixInsert | loadPrefixSet | promote | demote |
    shipKv | adoptPages | registerWeights | unregisterWeights | verifyWeights | neighbourRead | setNodeId |
    routeWrite | linkState | linkRekey | fabricFence | setCap | setProfile | lendPool | sleep | powerRead |
    attestReport | scrubStatus | identRead | faultLog | faultResponseLoad | guardBandLoad | trafficGen | scrubLap =>
    exact onCmd_answers ..
  case aset | awrap | seed | engineInstructionComplete | messageForward | farPartWrite | powerCfgWrite |
    serveCostWrite | bar2BaseWrite | bar2Read | bar2Write => exact onUnit_answers_and ..
  case irqLeafClear =>
    exact onUnit_answers_of (fun h => of_decide_eq_true (Bool.and_elim_left (Bool.and_elim_left h))) s _

/-- Settles O1: both clauses are the step's own equation, by what stands in the queue. -/
theorem stepTakesTheFrontCommand : Obligations.StepTakesTheFrontCommand :=
  ⟨fun _ _ _ h => step_cons h, fun _ h => step_nil h⟩

/-- Settles O3: at reset every memory is empty. -/
theorem resetIsCanonical : Obligations.ResetIsCanonical :=
  ⟨rfl, rfl, rfl⟩

/-- Settles O4: the frame of a step keeps the three canonical forms. -/
theorem memoriesStayCanonical : Obligations.MemoriesStayCanonical := by
  intro s t h ⟨store, flash, microcode⟩
  have k := step_frame h
  exact ⟨k.store store, k.flash flash, k.microcode microcode⟩

/-- Settles O5: the frame of a step starts from the queue without its front command. -/
theorem stepsTakeOneCommand : Obligations.StepsTakeOneCommand :=
  fun _ _ h => ⟨(step_frame h).pending, (step_frame h).fuse⟩

/-- Settles O6: a command answers a next state or the one fault, and that fault only where it is not well formed. -/
theorem wellFormedCommandsComplete : Obligations.WellFormedCommandsComplete := by
  intro i s
  obtain ⟨t, next⟩ | ⟨fault, malformed⟩ := exec_answers i s
  · exact ⟨fun _ => ⟨t, next⟩, fun f h => (nomatch next.symm.trans h),
      fun r h => (nomatch next.symm.trans h)⟩
  · exact ⟨fun wf => absurd wf (by simp [malformed]),
      fun f h => ⟨Host.Outcome.fault.inj (h.symm.trans fault), malformed⟩,
      fun r h => (nomatch fault.symm.trans h)⟩

end Sys2Proof.Machine
end

section
/-!
The interrupt tree: what an event, a clearing write and a due message leave of its leaves and functions (R466 to R472).
-/

namespace Sys2Proof.Machine

theorem exec_irqHoldoffExpire_meaning (fn : Nat) (s : State) :
    exec (.irqHoldoffExpire fn) s = execIrqHoldoffExpire fn s := rfl

theorem exec_irqUnmask_meaning (fn : Nat) (s : State) : exec (.irqUnmask fn) s = execIrqUnmask fn s := rfl

theorem exec_irqLeafClear_meaning (fn g k : Nat) (v : W32) (s : State) :
    exec (.irqLeafClear fn g k v) s = execIrqLeafClear fn g k v s := rfl

theorem exec_irqEoi_meaning (fn : Nat) (s : State) : exec (.irqEoi fn) s = execIrqEoi fn s := rfl

/-! ## Leaves -/

theorem groupLeaf_setGroupLeaf_same {g : Nat} (least : 1 ≤ g) (most : g ≤ 7) (i : Irq) (l : Leaf) :
    groupLeaf (setGroupLeaf i g l) g = l := by
  interval_cases g <;> rfl

theorem groupLeaf_setGroupLeaf_other {g h : Nat} (other : h ≠ g) (i : Irq) (l : Leaf) :
    groupLeaf (setGroupLeaf i g l) h = groupLeaf i h := by
  fun_cases setGroupLeaf i g l
  case case8 => rfl
  all_goals
    unfold groupLeaf
    split <;> first | rfl | exact absurd rfl other

theorem setGroupLeaf_queue (i : Irq) (g : Nat) (l : Leaf) : (setGroupLeaf i g l).queue = i.queue := by
  unfold setGroupLeaf
  split <;> rfl

/-- What a QUEUE leaf's change leaves of the other leaves. -/
theorem queue_setIfInBounds_getElem? (q : Vector Leaf 9) (k j : Nat) (f : Leaf → Leaf) :
    (q.setIfInBounds k (f (q[k]?.getD ⟨0, 0⟩)))[j]? = if j = k then q[j]?.map f else q[j]? := by
  by_cases here : j = k
  · subst here
    by_cases inside : j < 9 <;> simp [inside]
  · simp [here, Ne.symm here]

/-- One leaf bit set, its enable kept (R468). -/
def Leaf.withBit (b : Nat) (l : Leaf) : Leaf := { l with cause := l.cause ||| BitVec.ofNat 32 (2 ^ b) }

theorem Leaf.withBit_getLsbD {b : Nat} (inside : b < 32) (l : Leaf) : (l.withBit b).cause.getLsbD b = true := by
  rw [Leaf.withBit, BitVec.getLsbD_or, BitVec.getLsbD_ofNat, Nat.testBit_two_pow_self]
  simp [inside]

/-- The bits of a leaf that a written value keeps, its enable kept (R469). -/
def Leaf.cut (keep : W32) (l : Leaf) : Leaf := { l with cause := l.cause &&& keep }

theorem setLeafBit_queueLeaf (k b j : Nat) (s : State) :
    (setLeafBit 0 k b s).irq.queue[j]? = if j = k then s.irq.queue[j]?.map (Leaf.withBit b) else s.irq.queue[j]? := by
  rw [setLeafBit_queue, ← queue_setIfInBounds_getElem?]
  rfl

theorem setLeafBit_groupLeaf {g : Nat} (least : 1 ≤ g) (most : g ≤ 7) (k b : Nat) (s : State) :
    groupLeaf (setLeafBit g k b s).irq g = (groupLeaf s.irq g).withBit b := by
  have group : g ≠ 0 := by omega
  rw [setLeafBit, (irqSettle_leaves _).2.2, if_neg group]
  exact groupLeaf_setGroupLeaf_same least most ..

/-! ## Events (R466, R468) -/

theorem raise_sets {c : Cause} {s : State} (unlocked : c.place.1 = 7 → s.security.lockout = false) :
    raise c s = setLeafBit c.place.1 c.place.2.1 c.place.2.2 s := by
  refine if_neg fun locked => ?_
  obtain ⟨monitor, lockout⟩ := Bool.and_eq_true_iff.1 locked
  simp [unlocked (of_decide_eq_true monitor)] at lockout

theorem raise_locked {c : Cause} {s : State} (monitor : c.place.1 = 7) (lockout : s.security.lockout = true) :
    raise c s = s :=
  if_pos (by simp [monitor, lockout])

theorem place_group_le (c : Cause) : c.place.1 ≤ 7 := by
  cases c <;> simp [Cause.place]

/-! ## A clearing write (R469, R472) -/

theorem clearLeaf_front (fn g k : Nat) (v : W32) (s : State) : (clearLeaf fn g k v s).front = s.front :=
  (irqSettle_leaves _).1

theorem clearLeaf_queueLeaf (fn k j : Nat) (v : W32) (s : State) : (clearLeaf fn 0 k v s).irq.queue[j]? =
    if j = k then s.irq.queue[j]?.map (Leaf.cut (~~~ (v &&& leafMask s fn 0 k))) else s.irq.queue[j]? := by
  rw [clearLeaf, (irqSettle_leaves _).2.1, ← queue_setIfInBounds_getElem?]
  rfl

theorem clearLeaf_queue_groupLeaf (fn k : Nat) (v : W32) (s : State) (g : Nat) :
    groupLeaf (clearLeaf fn 0 k v s).irq g = groupLeaf s.irq g := by
  rw [clearLeaf, (irqSettle_leaves _).2.2]
  rfl

theorem clearLeaf_group_queue {g : Nat} (least : 1 ≤ g) (fn : Nat) (v : W32) (s : State) :
    (clearLeaf fn g 0 v s).irq.queue = s.irq.queue := by
  have group : g ≠ 0 := by omega
  rw [clearLeaf, (irqSettle_leaves _).2.1]
  simp [group, setGroupLeaf_queue]

theorem clearLeaf_groupLeaf {g : Nat} (least : 1 ≤ g) (most : g ≤ 7) (fn : Nat) (v : W32) (s : State) :
    groupLeaf (clearLeaf fn g 0 v s).irq g = (groupLeaf s.irq g).cut (~~~ (v &&& leafMask s fn g 0)) := by
  have group : g ≠ 0 := by omega
  rw [clearLeaf, (irqSettle_leaves _).2.2, if_neg group]
  exact groupLeaf_setGroupLeaf_same least most ..

theorem clearLeaf_groupLeaf_other {g h : Nat} (least : 1 ≤ g) (other : h ≠ g) (fn : Nat) (v : W32) (s : State) :
    groupLeaf (clearLeaf fn g 0 v s).irq h = groupLeaf s.irq h := by
  have group : g ≠ 0 := by omega
  rw [clearLeaf, (irqSettle_leaves _).2.2, if_neg group]
  exact groupLeaf_setGroupLeaf_other other ..

theorem leafMask_physical (s : State) (g k : Nat) : leafMask s 0 g k = 0xFFFFFFFF := rfl

/-- A virtual function sees no leaf of another group, nor leaf 8. -/
theorem leafMask_virtual {fn g k : Nat} (virtual : fn ≠ 0) (unseen : g ≠ 0 ∨ 8 ≤ k) (s : State) : leafMask s fn g k = 0 := by
  rw [leafMask, if_neg virtual, if_neg (by simp; omega)]

theorem exec_irqLeafClear_clears {s : State} {fn : Nat} (inside : fn < 5) (up : hostUp s = true) (g k : Nat) (v : W32) :
    exec (.irqLeafClear fn g k v) s = .next (clearLeaf fn g k v s) := by
  rw [exec_irqLeafClear_meaning, execIrqLeafClear, onUnit_inside inside, if_pos up]

/-! ## A due message (R470, R471) -/

theorem exec_irqHoldoffExpire_falls {s : State} {fn t : Nat} (inside : fn < 5) (due : (irqFn s fn).due = some t)
    (come : t ≤ now s) : exec (.irqHoldoffExpire fn) s = .next (fallDue fn s) := by
  rw [exec_irqHoldoffExpire_meaning, execIrqHoldoffExpire, onUnit_inside inside, holdoffExpire, due]
  exact congrArg _ (if_pos come)

/-- The function's state once its message has fallen due and it is pending: fired, its message sent or held. -/
theorem irqFn_fallDue {s : State} {fn : Nat} (inside : fn < 5) (pending : irqPending s fn = true) :
    irqFn (fallDue fn s) fn = { irqFn s fn with
      due := none, fired := true, held := (irqFn s fn).masked
      sent := if (irqFn s fn).masked then (irqFn s fn).sent else (irqFn s fn).sent + 1 } := by
  rw [fallDue, if_pos pending]
  by_cases physical : fn = 0
  · subst physical
    exact irqFn_setIrqFn _ _ _ inside
  · simpa only [if_neg physical] using irqFn_setIrqFn _ _ _ inside

theorem fallDue_queue (fn : Nat) (s : State) : (fallDue fn s).irq.queue = s.irq.queue := by
  unfold fallDue
  split
  · split <;> rfl
  · rfl

theorem fallDue_irqN {s : State} (pending : irqPending s 0 = true) : (fallDue 0 s).pins.irqN = false := by
  rw [fallDue, if_pos pending]
  rfl

theorem fallDue_pins {s : State} {fn : Nat} (virtual : fn ≠ 0) : (fallDue fn s).pins = s.pins := by
  simp only [fallDue, if_neg virtual]
  split <;> rfl

theorem exec_irqEoi_ends {s : State} {fn : Nat} (inside : fn < 5) (up : hostUp s = true) :
    exec (.irqEoi fn) s = .next (eoi fn s) := by
  rw [exec_irqEoi_meaning, execIrqEoi, onUnit_inside inside, if_pos up]

/-- Settles O19: an event not locked out is its leaf bit, set in a QUEUE leaf or in its group's leaf. -/
theorem eventsSetLeafBits : Obligations.EventsSetLeafBits := by
  refine ⟨fun s q inside => ?reply, fun s x cause => ?front, fun c s least unlocked => ?group,
    fun s lockout => ⟨raise_locked rfl lockout, raise_locked rfl lockout⟩, fun s fn => by simp [irqPending]⟩
  case reply =>
    have bit : q % 32 < 32 := Nat.mod_lt _ (by decide)
    rw [raise_sets (by simp [Cause.place])]
    show ((setLeafBit 0 (q / 32) (q % 32) s).irq.queue[q / 32]?.map _) = _
    rw [setLeafBit_queueLeaf, if_pos rfl, Option.map_map]
    congr 1
    funext l
    exact congrArg (·, l.enable) (l.withBit_getLsbD bit)
  case front =>
    have sets : raise x.1 s = setLeafBit 0 8 x.2 s := by
      simp only [List.mem_cons, List.not_mem_nil, or_false] at cause
      obtain rfl | rfl | rfl := cause <;> exact raise_sets (by simp [Cause.place])
    rw [sets, setLeafBit_queueLeaf, if_pos rfl, Option.map_map]
    rfl
  case group =>
    have bit : c.place.2.2 < 32 := by
      cases c <;> first | exact Nat.mod_lt _ (by decide) | decide
    rw [raise_sets unlocked, setLeafBit_groupLeaf least (place_group_le c)]
    exact ⟨rfl, rfl, Leaf.withBit_getLsbD bit _⟩

/-- Settles O18: a due message falls, an unmasked or ended one is the function's own change, and a clearing write is read
off leaf by leaf. -/
theorem interruptsAreDelivered : Obligations.InterruptsAreDelivered := by
  intro s fn inside
  refine ⟨fun t due come pending => ?falls, fun t due come quiet => ?quiet, ?unmask, fun up fired => ?ends,
    fun up unfired => ?stays, fun v up => ⟨fun k _ => ?queue, fun g least most => ?group, leafMask_physical s 0 8,
      fun virtual => leafMask_virtual virtual (.inr le_rfl) s⟩⟩
  case falls =>
    refine ⟨_, exec_irqHoldoffExpire_falls inside due come, ?_⟩
    rw [irqFn_fallDue inside pending, fallDue_queue]
    refine ⟨rfl, rfl, rfl, ?_, fun physical => ?_, fun virtual => fallDue_pins virtual, rfl⟩
    · cases (irqFn s fn).masked <;> rfl
    · subst physical
      exact fallDue_irqN pending
  case quiet =>
    rw [exec_irqHoldoffExpire_falls inside due come, fallDue, if_neg (by simp [quiet])]
  case unmask =>
    rw [exec_irqUnmask_meaning, execIrqUnmask, onUnit_inside inside, unmaskFn]
    split <;> rfl
  case ends => rw [exec_irqEoi_ends inside up, eoi, if_pos fired]
  case stays => rw [exec_irqEoi_ends inside up, eoi, if_neg (by simp [unfired])]
  case queue =>
    refine ⟨_, exec_irqLeafClear_clears inside up 0 k v, ?_, ?_, fun j other => ?_, clearLeaf_queue_groupLeaf fn k v s,
      clearLeaf_front fn 0 k v s⟩
    · rw [clearLeaf_queueLeaf, if_pos rfl, Option.map_map]
      rfl
    · rw [clearLeaf_queueLeaf, if_pos rfl, Option.map_map]
      rfl
    · rw [clearLeaf_queueLeaf, if_neg other]
  case group =>
    refine ⟨_, exec_irqLeafClear_clears inside up g 0 v, ?_, ?_, fun h other => clearLeaf_groupLeaf_other least other fn v s,
      clearLeaf_group_queue least fn v s, clearLeaf_front fn g 0 v s⟩
    · rw [clearLeaf_groupLeaf least most]
      by_cases physical : fn = 0
      · subst physical
        rw [if_pos rfl, leafMask_physical]
        exact congrArg (_ &&& ~~~ ·) BitVec.and_allOnes
      · rw [if_neg physical, leafMask_virtual physical (.inl (by omega))]
        exact (congrArg (_ &&& ~~~ ·) BitVec.and_zero).trans BitVec.and_allOnes
    · rw [clearLeaf_groupLeaf least most]
      rfl

end Sys2Proof.Machine
end

section
/-!
A function's mailbox as SPDM responder, its session, SLUICE-BIND and the attestation report (R428 to R431, R436, R439, R440).
-/

namespace Sys2Proof.Machine

theorem exec_doeDiscovery_meaning (fn k : Nat) (s : State) : exec (.doeDiscovery fn k) s = execDoeDiscovery fn k s := rfl

theorem exec_getVersion_meaning (fn : Nat) (s : State) : exec (.getVersion fn) s = execGetVersion fn s := rfl

theorem exec_getCapabilities_meaning (fn : Nat) (s : State) :
    exec (.getCapabilities fn) s = execGetCapabilities fn s := rfl

theorem exec_negotiateAlgorithms_meaning (fn : Nat) (s : State) :
    exec (.negotiateAlgorithms fn) s = execNegotiateAlgorithms fn s := rfl

theorem exec_getDigests_meaning (fn : Nat) (s : State) : exec (.getDigests fn) s = execGetDigests fn s := rfl

theorem exec_getCertificate_meaning (fn slot : Nat) (s : State) :
    exec (.getCertificate fn slot) s = execGetCertificate fn slot s := rfl

theorem exec_challenge_meaning (fn slot : Nat) (nonce : List Byte) (s : State) :
    exec (.challenge fn slot nonce) s = execChallenge fn slot nonce s := rfl

theorem exec_getMeasurements_meaning (fn k : Nat) (s : State) :
    exec (.getMeasurements fn k) s = execGetMeasurements fn k s := rfl

theorem exec_keyExchange_meaning (fn peer : Nat) (s : State) :
    exec (.keyExchange fn peer) s = execKeyExchange fn peer s := rfl

theorem exec_finish_meaning (fn : Nat) (v : List Byte) (s : State) : exec (.finish fn v) s = execFinish fn v s := rfl

theorem exec_keyUpdate_meaning (fn : Nat) (s : State) : exec (.keyUpdate fn) s = execKeyUpdate fn s := rfl

theorem exec_heartbeat_meaning (fn : Nat) (s : State) : exec (.heartbeat fn) s = execHeartbeat fn s := rfl

theorem exec_heartbeatLapse_meaning (fn : Nat) (s : State) : exec (.heartbeatLapse fn) s = execHeartbeatLapse fn s := rfl

theorem exec_endSession_meaning (fn : Nat) (s : State) : exec (.endSession fn) s = execEndSession fn s := rfl

theorem exec_sluiceBind_meaning (fn : Nat) (a : W64) (n : Nat) (s : State) :
    exec (.sluiceBind fn a n) s = execSluiceBind fn a n s := rfl

theorem exec_attestReport_meaning (id : Nat) (s : State) : exec (.attestReport id) s = execAttestReport id s := rfl

/-! ## What a mailbox row may change -/

/-- From `s` to `t` only the SPDM state of function `fn`, the next session number and the bounce regions change. -/
def MailOnly (fn : Nat) (s t : State) : Prop :=
  ∃ y, t = { s with security := y } ∧ y.lockout = s.security.lockout ∧ ∀ f, f ≠ fn → y.spdm[f]? = s.security.spdm[f]?

theorem MailOnly.refl (fn : Nat) (s : State) : MailOnly fn s s := ⟨s.security, rfl, rfl, fun _ _ => rfl⟩

theorem MailOnly.trans {fn : Nat} {s t u : State} (first : MailOnly fn s t) (second : MailOnly fn t u) :
    MailOnly fn s u := by
  obtain ⟨y, rfl, lockout, others⟩ := first
  obtain ⟨z, rfl, lockout', others'⟩ := second
  exact ⟨z, rfl, lockout'.trans lockout, fun f other => (others' f other).trans (others f other)⟩

theorem setSpdm_mailOnly (fn : Nat) (x : Spdm) (s : State) : MailOnly fn s (setSpdm s fn x) :=
  ⟨_, rfl, rfl, fun _ other => Vector.getElem?_setIfInBounds_ne (Ne.symm other)⟩

theorem setBounce_mailOnly (fn p : Nat) (b : Bounce) (s : State) : MailOnly fn s (setBounce s p b) :=
  ⟨_, rfl, rfl, fun _ _ => rfl⟩

theorem mailReply_mailOnly (fn : Nat) (bs : List Byte) (s : State) : MailOnly fn s (mailReply fn bs s) :=
  setSpdm_mailOnly ..

theorem spdmError_mailOnly (fn code : Nat) (s : State) : MailOnly fn s (spdmError fn code s) := mailReply_mailOnly ..

theorem MailOnly.reply {fn : Nat} {s t : State} (h : MailOnly fn s t) (code : Nat) (bs : List Byte) :
    MailOnly fn s (spdmReply fn code bs t) :=
  h.trans (mailReply_mailOnly ..)

theorem MailOnly.ite {fn : Nat} {s t u : State} {p : Prop} [Decidable p] (yes : MailOnly fn s t) (no : MailOnly fn s u) :
    MailOnly fn s (if p then t else u) := by
  split <;> assumption

theorem endSpdm_mailOnly (fn : Nat) (s : State) : MailOnly fn s (endSpdm fn s) := by
  have ended : MailOnly fn s (setSpdm s fn { spdmAt s fn with session := none, secret := 0, established := false }) :=
    setSpdm_mailOnly ..
  unfold endSpdm
  dsimp only
  split
  · exact ended.trans (setBounce_mailOnly ..)
  · exact ended

/-- A row of function `fn` completes and changes only what a mailbox row may. -/
def MailRow (fn : Nat) (s : State) (o : Out) : Prop := ∃ t, o = .next t ∧ MailOnly fn s t

section
variable {s : State} {fn : Nat} (inside : fn < 5) (up : hostUp s = true)
include inside up

theorem onMail_row {f : Spdm → State → State} (only : MailOnly fn s (f (spdmAt s fn) s)) :
    MailRow fn s (onMail fn s f) :=
  ⟨_, onMail_up inside up f, only⟩

theorem onAgreed_row {f : Spdm → State → State} (only : MailOnly fn s (f (spdmAt s fn) s)) :
    MailRow fn s (onAgreed fn s f) :=
  onMail_row inside up (.ite only (spdmError_mailOnly ..))

theorem onSession_row {f : Spdm → State → State} (only : MailOnly fn s (f (spdmAt s fn) s)) :
    MailRow fn s (onSession fn s f) :=
  onMail_row inside up (.ite only (spdmError_mailOnly ..))

/-! ## The rows -/

theorem exec_doeDiscovery_row (k : Nat) : MailRow fn s (exec (.doeDiscovery fn k) s) := by
  rw [exec_doeDiscovery_meaning]
  unfold execDoeDiscovery
  refine onMail_row inside up ?_
  exact mailReply_mailOnly ..

theorem exec_getVersion_row : MailRow fn s (exec (.getVersion fn) s) := by
  rw [exec_getVersion_meaning, execGetVersion]
  refine onMail_row inside up ?_
  exact (setSpdm_mailOnly ..).reply ..

theorem exec_getCapabilities_row : MailRow fn s (exec (.getCapabilities fn) s) := by
  rw [exec_getCapabilities_meaning, execGetCapabilities]
  refine onMail_row inside up ?_
  exact .ite ((setSpdm_mailOnly ..).reply ..) (spdmError_mailOnly ..)

theorem exec_negotiateAlgorithms_row : MailRow fn s (exec (.negotiateAlgorithms fn) s) := by
  rw [exec_negotiateAlgorithms_meaning, execNegotiateAlgorithms]
  refine onMail_row inside up ?_
  exact .ite ((setSpdm_mailOnly ..).reply ..) (spdmError_mailOnly ..)

theorem exec_finish_row (v : List Byte) : MailRow fn s (exec (.finish fn v) s) := by
  rw [exec_finish_meaning, execFinish]
  refine onMail_row inside up ?_
  exact .ite (spdmError_mailOnly ..) (.ite ((setSpdm_mailOnly ..).reply ..) (spdmError_mailOnly ..))

theorem exec_getDigests_row : MailRow fn s (exec (.getDigests fn) s) := by
  rw [exec_getDigests_meaning, execGetDigests]
  refine onAgreed_row inside up ?_
  exact (MailOnly.refl ..).reply ..

theorem exec_getCertificate_row (slot : Nat) : MailRow fn s (exec (.getCertificate fn slot) s) := by
  rw [exec_getCertificate_meaning, execGetCertificate]
  refine onAgreed_row inside up ?_
  exact .ite ((MailOnly.refl ..).reply ..) (spdmError_mailOnly ..)

theorem exec_challenge_row (slot : Nat) (nonce : List Byte) : MailRow fn s (exec (.challenge fn slot nonce) s) := by
  rw [exec_challenge_meaning, execChallenge]
  refine onAgreed_row inside up ?_
  exact .ite ((MailOnly.refl ..).reply ..) (spdmError_mailOnly ..)

theorem exec_getMeasurements_row (k : Nat) : MailRow fn s (exec (.getMeasurements fn k) s) := by
  rw [exec_getMeasurements_meaning, execGetMeasurements]
  refine onAgreed_row inside up ?_
  refine .ite ((MailOnly.refl ..).reply ..) (.ite ((MailOnly.refl ..).reply ..) ?_)
  split
  · exact (MailOnly.refl ..).reply ..
  · exact spdmError_mailOnly ..

theorem exec_keyExchange_row (peer : Nat) : MailRow fn s (exec (.keyExchange fn peer) s) := by
  rw [exec_keyExchange_meaning, execKeyExchange]
  refine onAgreed_row inside up ?_
  have counted : MailOnly fn s { s with security := { s.security with nextSession := s.security.nextSession + 1 } } :=
    ⟨_, rfl, rfl, fun _ _ => rfl⟩
  exact .ite (spdmError_mailOnly ..) ((counted.trans (setSpdm_mailOnly ..)).reply ..)

theorem exec_keyUpdate_row : MailRow fn s (exec (.keyUpdate fn) s) := by
  rw [exec_keyUpdate_meaning, execKeyUpdate]
  refine onSession_row inside up ?_
  exact (setSpdm_mailOnly ..).reply ..

theorem exec_heartbeat_row : MailRow fn s (exec (.heartbeat fn) s) := by
  rw [exec_heartbeat_meaning, execHeartbeat]
  refine onSession_row inside up ?_
  exact (setSpdm_mailOnly ..).reply ..

theorem exec_endSession_row : MailRow fn s (exec (.endSession fn) s) := by
  rw [exec_endSession_meaning, execEndSession]
  refine onSession_row inside up ?_
  exact (endSpdm_mailOnly ..).reply ..

theorem exec_sluiceBind_row (a : W64) (n : Nat) : MailRow fn s (exec (.sluiceBind fn a n) s) := by
  rw [exec_sluiceBind_meaning, execSluiceBind]
  refine onSession_row inside up ?_
  split
  · exact spdmError_mailOnly ..
  · exact .ite (spdmError_mailOnly ..) (.ite (spdmError_mailOnly ..) ((setBounce_mailOnly ..).reply ..))

omit up in
theorem exec_heartbeatLapse_row : MailRow fn s (exec (.heartbeatLapse fn) s) := by
  rw [exec_heartbeatLapse_meaning, execHeartbeatLapse, onUnit_inside inside]
  exact ⟨_, rfl, .ite (endSpdm_mailOnly ..) (.refl ..)⟩

end

/-- Settles O60: each row is a mailbox row of its function. -/
theorem mailboxRowsComplete : Obligations.MailboxRowsComplete := by
  intro s fn k slot peer frames nonce a x i inside up _ row
  suffices MailRow fn s (exec i s) by
    obtain ⟨_, next, y, rfl, kept⟩ := this
    exact ⟨y, next, kept⟩
  simp only [List.mem_cons, List.not_mem_nil, or_false] at row
  obtain always | ⟨-, rfl⟩ | ⟨-, rfl⟩ | ⟨-, agreed⟩ | ⟨-, session⟩ := row
  · obtain rfl | rfl | rfl | rfl := always
    · exact exec_doeDiscovery_row inside up k
    · exact exec_getVersion_row inside up
    · exact exec_finish_row inside up nonce
    · exact exec_heartbeatLapse_row inside
  · exact exec_getCapabilities_row inside up
  · exact exec_negotiateAlgorithms_row inside up
  · obtain rfl | rfl | rfl | rfl | rfl := agreed
    · exact exec_getDigests_row inside up
    · exact exec_getCertificate_row inside up slot
    · exact exec_challenge_row inside up slot nonce
    · exact exec_getMeasurements_row inside up k
    · exact exec_keyExchange_row inside up peer
  · obtain rfl | rfl | rfl | rfl := session
    · exact exec_keyUpdate_row inside up
    · exact exec_heartbeat_row inside up
    · exact exec_endSession_row inside up
    · exact exec_sluiceBind_row inside up a frames

/-- Settles O54: each request is served by its mailbox, and answered as the function has come so far. -/
theorem mailboxesAnswer : Obligations.MailboxesAnswer := by
  rintro s fn _ inside up rfl
  have discovered (k : Nat) := (exec_doeDiscovery_meaning fn k s).trans (onMail_up inside up _)
  refine ⟨discovered 0, discovered 1, discovered 2, ?version, fun versioned => ?capabilities, fun capable => ?algorithms, fun negotiated => ?agreed,
    fun early i row => ?early⟩
  case version => rw [exec_getVersion_meaning, execGetVersion, onMail_up inside up]
  case capabilities =>
    rw [exec_getCapabilities_meaning, execGetCapabilities, onMail_up inside up, if_pos versioned]
  case algorithms =>
    rw [exec_negotiateAlgorithms_meaning, execNegotiateAlgorithms, onMail_up inside up, if_pos capable]
  case agreed =>
    have measured (k : Nat) := (exec_getMeasurements_meaning fn k s).trans (onAgreed_up inside up negotiated _)
    exact ⟨(exec_getDigests_meaning ..).trans (onAgreed_up inside up negotiated _),
      (exec_getCertificate_meaning ..).trans (onAgreed_up inside up negotiated _),
      fun nonce => (exec_challenge_meaning ..).trans (onAgreed_up inside up negotiated _),
      measured 0, measured 1, measured 2, measured 3⟩
  case early =>
    simp only [List.mem_cons, List.not_mem_nil, or_false] at row
    obtain rfl | rfl | rfl | rfl := row
    · exact (exec_getDigests_meaning ..).trans (onAgreed_early inside up early _)
    · exact (exec_getCertificate_meaning ..).trans (onAgreed_early inside up early _)
    · exact (exec_challenge_meaning ..).trans (onAgreed_early inside up early _)
    · exact (exec_getMeasurements_meaning ..).trans (onAgreed_early inside up early _)

/-! ## Sessions -/

section
variable {s : State} {fn : Nat} (inside : fn < 5) (up : hostUp s = true)
include inside up

theorem exec_keyExchange_opens (negotiated : (spdmAt s fn).negotiated = true) (free : (spdmAt s fn).session = none) (k : Nat) :
    exec (.keyExchange fn k) s = .next (spdmReply fn 0x64 [] (setSpdm
      { s with security := { s.security with nextSession := s.security.nextSession + 1 } } fn { spdmAt s fn with
        session := some s.security.nextSession, secret := Config.sessionSecret k s.security.nextSession
        established := false, keyUpdates := 0, lastHeard := now s })) := by
  rw [exec_keyExchange_meaning, execKeyExchange, onAgreed_up inside up negotiated, if_neg (by simp [free])]
  rfl

theorem exec_keyExchange_busy (negotiated : (spdmAt s fn).negotiated = true) (taken : (spdmAt s fn).session.isSome = true)
    (k : Nat) : exec (.keyExchange fn k) s = .next (spdmError fn errBusy s) := by
  rw [exec_keyExchange_meaning, execKeyExchange, onAgreed_up inside up negotiated, if_pos taken]

/-- A FINISH of a session that is not established is judged by its verification data. -/
theorem exec_finish_judges (opened : (spdmAt s fn).session.isSome = true) (fresh : (spdmAt s fn).established = false)
    (v : List Byte) : exec (.finish fn v) s = .next (if Config.finishVerified (spdmAt s fn).secret v then
      spdmReply fn 0x65 [] (setSpdm s fn { spdmAt s fn with established := true, lastHeard := now s })
      else spdmError fn errDecrypt s) := by
  have awaited : ¬ ((spdmAt s fn).session.isNone || (spdmAt s fn).established) = true := by
    simp [fresh, Option.isSome_iff_ne_none.1 opened]
  rw [exec_finish_meaning, execFinish, onMail_up inside up, if_neg awaited]

theorem exec_sluiceBind_binds (established : (spdmAt s fn).established = true) {a : W64} {n p : Nat}
    (part : partOfFn s fn = some p) (idle : queueOf s p = false) (aligned : a.toNat % 4096 = 0) (least : 1 ≤ n)
    (most : n ≤ 16384) : exec (.sluiceBind fn a n) s = .next (spdmReply fn 0x7E [] (setBounce s p
      { address := a, frames := n, secret := (spdmAt s fn).secret, live := true, fails := (bounceAt s p).fails })) := by
  have sound : ¬ (a.toNat % 4096 ≠ 0 || n < 1 || 16384 < n) = true := by simp [aligned]; omega
  rw [exec_sluiceBind_meaning, execSluiceBind, onSession_up inside up established]
  simp only [part, idle, if_neg sound, Bool.false_eq_true, if_false]

theorem exec_sluiceBind_homeless (established : (spdmAt s fn).established = true) (homeless : partOfFn s fn = none)
    (a : W64) (n : Nat) : exec (.sluiceBind fn a n) s = .next (spdmError fn errUnexpected s) := by
  rw [exec_sluiceBind_meaning, execSluiceBind, onSession_up inside up established]
  simp only [homeless]

omit up in
theorem exec_heartbeatLapse_lapses (opened : (spdmAt s fn).session.isSome = true)
    (old : (spdmAt s fn).lastHeard + Config.heartbeatNs ≤ now s) :
    exec (.heartbeatLapse fn) s = .next (endSpdm fn s) := by
  rw [exec_heartbeatLapse_meaning, execHeartbeatLapse, onUnit_inside inside]
  exact congrArg _ (if_pos (by simp [opened, old]))

end

/-! ## The attestation report -/

section
variable {s : State} {id : Nat} {c : Cmd} (runs : Runs s 0x0801 id c)
include runs

theorem exec_attestReport_empty (none : c.at 24 4 = 0) : exec (.attestReport id) s = .next (doneCmd c.id 0 s) := by
  rw [exec_attestReport_meaning, execAttestReport, onCmd_runs runs, if_pos none]

theorem exec_attestReport_writes (some : c.at 24 4 ≠ 0) (finds : Finds c s (attestChk s c) () [])
    (admitted : c.Admitted s [(c.addr 16, c.at 24 4, true)]) {s1 : State}
    (reaches : c.Reaches (c.pieces s (c.addr 16) (c.at 24 4)) s s1) {bs : List Byte}
    (report : bs = (attestReport s1 c.part ((c.params.drop 16).take 32)).take 16384) :
    exec (.attestReport id) s = .next (doneCmd c.id bs.length (c.put (c.addr 16) (clean bs) s1)) := by
  subst report
  rw [exec_attestReport_meaning, execAttestReport, onCmd_runs runs, if_neg some, judged_found finds,
    reaching_admitted admitted reaches.1, reaches.2]

end

/-- Settles O55: a session's rows act by its state; a lapse and an end forget it; a report is written where it reaches. -/
theorem sessionsBindSluices : Obligations.SessionsBindSluices := by
  rintro s fn _ inside rfl
  refine ⟨fun up => ⟨?opens, fun k negotiated taken => exec_keyExchange_busy inside up negotiated taken k,
    fun v opened fresh => ?finish, fun established => ?session, fun ended i row => ?ended⟩,
    fun opened old => exec_heartbeatLapse_lapses inside opened old, fun id c runs none => exec_attestReport_empty runs none,
    fun id c s1 bs runs some finds admitted reaches report =>
      exec_attestReport_writes runs some finds admitted reaches report⟩
  case opens =>
    rintro k _ negotiated free rfl
    exact exec_keyExchange_opens inside up negotiated free k
  case finish =>
    rw [exec_finish_judges inside up opened fresh v]
    exact ⟨fun verified => congrArg _ (if_pos verified), fun wrong => congrArg _ (if_neg (by simp [wrong]))⟩
  case session =>
    exact ⟨(exec_keyUpdate_meaning ..).trans (onSession_up inside up established _),
      (exec_heartbeat_meaning ..).trans (onSession_up inside up established _),
      (exec_endSession_meaning ..).trans (onSession_up inside up established _),
      fun a n p part idle aligned least most => exec_sluiceBind_binds inside up established part idle aligned least most,
      fun a n homeless => exec_sluiceBind_homeless inside up established homeless a n⟩
  case ended =>
    simp only [List.mem_cons, List.not_mem_nil, or_false] at row
    obtain rfl | rfl | rfl | rfl := row
    · exact (exec_keyUpdate_meaning ..).trans (onSession_none inside up ended _)
    · exact (exec_heartbeat_meaning ..).trans (onSession_none inside up ended _)
    · exact (exec_endSession_meaning ..).trans (onSession_none inside up ended _)
    · exact (exec_sluiceBind_meaning ..).trans (onSession_none inside up ended _)

end Sys2Proof.Machine
end

section
/-!
Registered weights and their repair (R409, R411, R413, R414), and the tenant switch (R424, R441, R442, R444, R445).
-/

namespace Sys2Proof.Machine

theorem exec_registerWeights_meaning (id : Nat) (s : State) : exec (.registerWeights id) s = execRegisterWeights id s := rfl

theorem exec_unregisterWeights_meaning (id : Nat) (s : State) :
    exec (.unregisterWeights id) s = execUnregisterWeights id s := rfl

theorem exec_verifyWeights_meaning (id : Nat) (s : State) : exec (.verifyWeights id) s = execVerifyWeights id s := rfl

theorem exec_weightPageRepair_meaning (h p : Nat) (answers : Bool) (s : State) :
    exec (.weightPageRepair h p answers) s = execWeightPageRepair h p answers s := rfl

theorem exec_tenantSwitchClearDone_meaning (p : Nat) (s : State) :
    exec (.tenantSwitchClearDone p) s = execTenantSwitchClearDone p s := rfl

theorem exec_tenantSwitchMemoryDone_meaning (p : Nat) (s : State) :
    exec (.tenantSwitchMemoryDone p) s = execTenantSwitchMemoryDone p s := rfl

theorem exec_scrubStatus_meaning (id : Nat) (s : State) : exec (.scrubStatus id) s = execScrubStatus id s := rfl

/-! ## REGISTER-WEIGHTS (R409) -/

section
variable {s : State} {id : Nat} {c : Cmd} (runs : Runs s 0x0501 id c)
include runs

theorem exec_registerWeights_empty (empty : c.at 24 8 = 0) : exec (.registerWeights id) s = .next (doneCmd c.id 0 s) := by
  rw [exec_registerWeights_meaning, execRegisterWeights, onCmd_runs runs, if_pos empty]

/-- Past its checks the pages are digested against the block. -/
theorem exec_registerWeights_digests (named : c.at 24 8 ≠ 0) {block : List Byte} {ps : List (Home × Nat)} {s1 : State}
    (finds : Finds c s (registerChk s c) block ps)
    (reaches : c.Reaches (c.pieces (touch c ps s) (c.addr 16) (c.at 24 8)) (touch c ps s) s1) :
    exec (.registerWeights id) s = .next (registerWeights c block s1) := by
  rw [exec_registerWeights_meaning, execRegisterWeights, onCmd_runs runs, if_neg named, judged_finds _ _ _ _ _ _ finds,
    gate_reaches reaches]

end

section
variable {c : Cmd} {s : State} {r : List (List Byte) × State}
  (digested : r = digestPages c (c.addr 16) (c.at 24 8) (List.range (pageCount (c.at 24 8))) s)
include digested

theorem registerWeights_poisoned (poisoned : (cmdAt r.2 c.id).any (fun x => x.poisoned ≠ 0) = true) (block : List Byte) :
    registerWeights c block s = finishCmd c.id [] r.2 := by
  subst digested
  rw [registerWeights, if_pos poisoned]

theorem registerWeights_mismatch (clean : (cmdAt r.2 c.id).any (fun x => x.poisoned ≠ 0) = false) {block : List Byte}
    (wrong : block ≠ digestBytes (Config.sha384 r.1.flatten) ++ r.1.flatten) :
    registerWeights c block s = finishCmd c.id [.badParam 32] r.2 := by
  subst digested
  rw [registerWeights, if_neg (Bool.eq_false_iff.1 clean), if_pos wrong]

theorem registerWeights_registers (clean : (cmdAt r.2 c.id).any (fun x => x.poisoned ≠ 0) = false) {block : List Byte}
    (right : block = digestBytes (Config.sha384 r.1.flatten) ++ r.1.flatten) :
    registerWeights c block s = doneCmd c.id (freeHandle r.2) { r.2 with
      weights := insertBy (fun x y => x.handle < y.handle) ⟨freeHandle r.2, c.part, c.addr 16, c.at 24 8, c.addr 32,
        c.addr 40, Config.sha384 r.1.flatten⟩ r.2.weights } := by
  subst digested
  rw [registerWeights, if_neg (Bool.eq_false_iff.1 clean), if_neg (not_not_intro right)]

end

/-! ## UNREGISTER-WEIGHTS, VERIFY-WEIGHTS (R414) -/

theorem weightChk_found {s : State} {c : Cmd} {w : Registration} (found : weightAt s (c.at 16 4) = some w)
    (own : w.part = c.part) : weightChk s c = pure w := by
  simp only [weightChk, found, if_pos own]

theorem exec_unregisterWeights_forgets {s : State} {id : Nat} {c : Cmd} {w : Registration} (runs : Runs s 0x0502 id c)
    (found : weightAt s (c.at 16 4) = some w) (own : w.part = c.part) :
    exec (.unregisterWeights id) s = .next (doneCmd c.id 0 { s with
      weights := s.weights.filter (·.handle != w.handle)
      faults := { s.faults with repairing := s.faults.repairing.filter (·.1 != w.handle) } }) := by
  rw [exec_unregisterWeights_meaning, execUnregisterWeights, onCmd_runs runs,
    judged_found (finds_of_pure (weightChk_found found own))]

section
variable {s s1 s2 : State} {id : Nat} {c : Cmd} {x : Registration × List Byte} {ps : List (Home × Nat)}
  (runs : Runs s 0x0503 id c) (finds : Finds c s (verifyChk s c) x ps) (judged : s1 = touch c ps s)
  (reaches : c.Reaches (c.pieces s1 x.1.address x.1.bytes) s1 s2)
include runs finds judged reaches

theorem exec_verifyWeights_waits {b : Balk}
    (waits : verifyPages c x.1 x.2 (List.range (pageCount x.1.bytes)) s2 = .error b) :
    exec (.verifyWeights id) s = .next s1 := by
  subst judged
  rw [exec_verifyWeights_meaning, execVerifyWeights, onCmd_runs runs, judged_finds _ _ _ _ _ _ finds,
    gate_reaches reaches, waits]

theorem exec_verifyWeights_answers {miss bad : Nat} {s3 : State}
    (verified : verifyPages c x.1 x.2 (List.range (pageCount x.1.bytes)) s2 = .ok (miss, bad, s3)) :
    exec (.verifyWeights id) s = .next (finishCmd c.id
      (.done miss :: if bad = 0 then [] else [⟨0x30, if x.1.backing = 0 then 4 else 3, miss⟩]) s3) := by
  subst judged
  rw [exec_verifyWeights_meaning, execVerifyWeights, onCmd_runs runs, judged_finds _ _ _ _ _ _ finds,
    gate_reaches reaches, verified]

end

/-! ## WEIGHT_PAGE_REPAIR (R411, R413) -/

/-- The repair of page `p` of `w` with its backing copy's answer: its digest is read, then the page. -/
def pageRepair (w : Registration) (p : Nat) (s : State) : Except Balk State := do
  let (g, s) ← blockDigest w p s
  repairPage w p g s

theorem pageRepair_digest {w : Registration} {p : Nat} {s s2 : State} {g : List Byte}
    (digest : blockDigest w p s = .ok (g, s2)) : pageRepair w p s = repairPage w p g s2 := by
  rw [pageRepair, digest]
  rfl

theorem pageRepair_error {w : Registration} {p : Nat} {s : State} {b : Balk} (balks : blockDigest w p s = .error b) :
    pageRepair w p s = .error b := by
  rw [pageRepair, balks]
  rfl

/-- The commands whose re-execution waited for a page whose repair failed go on without it. -/
def dropReaders (ids : List Nat) (s : State) : State :=
  ids.foldl (fun s id => updCmd id (fun x => if x.due = some 3 then { x with due := none } else x) s) s

/-- What a repair that ended so leaves, from `s` with the repair still noted and `s1` without it: its readers run again, it
waits, or it has failed. -/
def repairEnd (ids : List Nat) (s s1 : State) : Except Balk State → State
  | .ok t => retryReaders ids t
  | .error .wait => s
  | .error _ => dropReaders ids (repairFailed s1)

theorem repairEnd_fails {b : Balk} (final : b ≠ .wait) (ids : List Nat) (s s1 : State) :
    repairEnd ids s s1 (.error b) = dropReaders ids (repairFailed s1) := by
  cases b with
  | wait => exact absurd rfl final
  | _ => rfl

section
variable {s s1 : State} {h p : Nat} {ids : List (Nat × Nat × Option Nat)} {w : Registration} (runs : running s = true)
  (mine : ids = s.faults.repairing.filter fun r => r.1 = h && r.2.1 = p) (due : ids ≠ [])
  (ended : s1 = { s with faults := { s.faults with
    repairing := s.faults.repairing.filter fun r => !(r.1 = h && r.2.1 = p) } })
  (found : weightAt s h = some w)
include runs mine due ended found

/-- A page that has a repair ends it by what its backing copy comes to. -/
theorem exec_weightPageRepair_ends (answers : Bool) : exec (.weightPageRepair h p answers) s =
    .next (repairEnd (ids.filterMap (·.2.2)) s s1 (if answers then pageRepair w p s1 else .error .bad)) := by
  subst mine ended
  rw [exec_weightPageRepair_meaning, execWeightPageRepair, whenRunning_runs runs, weightRepair]
  simp only [if_neg due, found]
  rfl

theorem exec_weightPageRepair_repairs {t : State} (repaired : pageRepair w p s1 = .ok t) :
    exec (.weightPageRepair h p true) s = .next (retryReaders (ids.filterMap (·.2.2)) t) := by
  rw [exec_weightPageRepair_ends runs mine due ended found, if_pos rfl, repaired, repairEnd]

theorem exec_weightPageRepair_waits (waits : pageRepair w p s1 = .error .wait) :
    exec (.weightPageRepair h p true) s = .next s := by
  rw [exec_weightPageRepair_ends runs mine due ended found, if_pos rfl, waits, repairEnd]

theorem exec_weightPageRepair_fails {answers : Bool}
    (fails : answers = false ∨ ∃ b, b ≠ .wait ∧ pageRepair w p s1 = .error b) :
    exec (.weightPageRepair h p answers) s = .next (dropReaders (ids.filterMap (·.2.2)) (repairFailed s1)) := by
  rw [exec_weightPageRepair_ends runs mine due ended found]
  cases answers with
  | false => rfl
  | true =>
    obtain silent | ⟨b, final, balks⟩ := fails
    · cases silent
    · rw [if_pos rfl, balks, repairEnd_fails final]

end

/-- Settles O43: each row acts by what its check finds and what it reads; a repair ends by its page. -/
theorem weightsAreRegistered : Obligations.WeightsAreRegistered := by
  intro s id c
  refine ⟨fun runs => ⟨exec_registerWeights_empty runs, ?registers⟩,
    fun w runs found own => exec_unregisterWeights_forgets runs found own, ?verifies, ?repairs⟩
  case registers =>
    rintro _ block ps s1 r rfl named finds reaches digested
    rw [exec_registerWeights_digests runs named finds reaches]
    exact ⟨fun poisoned => congrArg _ (registerWeights_poisoned digested poisoned block),
      fun clean => ⟨fun wrong => congrArg _ (registerWeights_mismatch digested clean wrong),
        fun right => congrArg _ (registerWeights_registers digested clean right)⟩⟩
  case verifies =>
    rintro w block ps s1 s2 _ runs finds judged reaches rfl
    exact ⟨fun b waits => exec_verifyWeights_waits runs finds judged reaches waits,
      fun miss bad s3 verified => exec_verifyWeights_answers runs finds judged reaches verified⟩
  case repairs =>
    intro h p ids w s1 runs mine due ended found
    refine ⟨fun g s2 digest => ⟨fun s3 repaired => ?_, fun waits => ?_⟩, fun waits => ?_, fun answers fails => ?_⟩
    · exact exec_weightPageRepair_repairs runs mine due ended found ((pageRepair_digest digest).trans repaired)
    · exact exec_weightPageRepair_waits runs mine due ended found ((pageRepair_digest digest).trans waits)
    · exact exec_weightPageRepair_waits runs mine due ended found (pageRepair_error waits)
    · exact exec_weightPageRepair_fails runs mine due ended found fails

/-! ## The tenant switch (R441, R442) -/

theorem partAt_setPart_switch {x : Part} (switching : x.switch ≠ .none) (s : State) (p : Nat) :
    partAt (setPart s p x) p = x :=
  tabGet_tabSet_eq ({} : Part) s.parts p x (by rintro rfl; exact switching rfl)

theorem exec_tenantSwitchClearDone_clears {s : State} {p : Nat} (inside : p < 4) (runs : running s = true)
    (phase : (partAt s p).switch = .clear) : exec (.tenantSwitchClearDone p) s = .next (switchCleared p s) := by
  rw [exec_tenantSwitchClearDone_meaning, execTenantSwitchClearDone, onUnit_inside inside, if_pos (by simp [runs, phase])]

theorem switchCleared_phase (s : State) (p : Nat) : (partAt (switchCleared p s) p).switch = .memory := by
  unfold switchCleared
  dsimp only
  rw [partAt_setPart_switch (by simp)]

theorem exec_tenantSwitchMemoryDone_ends {s : State} {p : Nat} (inside : p < 4) (runs : running s = true)
    (phase : (partAt s p).switch = .memory) : exec (.tenantSwitchMemoryDone p) s = .next (switchDone p s) := by
  rw [exec_tenantSwitchMemoryDone_meaning, execTenantSwitchMemoryDone, onUnit_inside inside, if_pos (by simp [runs, phase])]

theorem switchDone_zeroed {s : State} {p : Nat}
    (zeroed : ∀ k ∈ shapeStacks (partAt s p).shape (partAt s p).index, (stackAt s k).scrubLeft = 0) :
    ∀ ks, ks = shapeStacks (partAt s p).shape (partAt s p).index → switchDone p s = releaseHeld
      (if (partAt s p).closing then closeDone p (raise .scrubDone (ks.foldl zeroWhole s))
       else openDone p (raise .scrubDone (ks.foldl zeroWhole s))) := by
  rintro _ rfl
  exact if_neg (by simpa using zeroed)

theorem switchDone_waits {s : State} {p : Nat}
    (left : ∃ k ∈ shapeStacks (partAt s p).shape (partAt s p).index, (stackAt s k).scrubLeft ≠ 0) :
    switchDone p s = s :=
  if_pos (by simpa using left)

theorem exec_scrubStatus_estimates {s : State} {id : Nat} {c : Cmd} (runs : Runs s 0x0802 id c) (inside : c.at 16 1 < 4) :
    exec (.scrubStatus id) s = .next (doneCmd c.id (switchLeft (c.at 16 1) s) s) := by
  rw [exec_scrubStatus_meaning, execScrubStatus, onCmd_runs runs,
    judged_found (finds_of_pure (need_true (decide_eq_true inside) _))]

/-- Settles O24: each phase of a switch ends as its row says, the memory phase once nothing is left to zero. -/
theorem tenantSwitchesRun : Obligations.TenantSwitchesRun := by
  refine ⟨fun s p inside runs phase => ⟨exec_tenantSwitchClearDone_clears inside runs phase, switchCleared_phase s p⟩,
    fun s p ks inside runs phase shape zeroed => ?ends, fun s p inside runs phase left => ?waits,
    fun s id c runs inside => exec_scrubStatus_estimates runs inside⟩
  case ends => rw [exec_tenantSwitchMemoryDone_ends inside runs phase, switchDone_zeroed (shape ▸ zeroed) ks shape]
  case waits => rw [exec_tenantSwitchMemoryDone_ends inside runs phase, switchDone_waits left]

end Sys2Proof.Machine
end

section
/-!
What memory accesses, faults and messages leave of the module's control: power settings, SPDM state, lockout, flash, start-up
and device time.
-/

namespace Sys2Proof.Machine

/-! ## The interrupt tree alone -/

/-- From `s` to `t` only the interrupt tree and its pin change. -/
def TreeOnly (s t : State) : Prop := ∃ irq irqN, t = { s with irq := irq, pins := { s.pins with irqN := irqN } }

theorem TreeOnly.refl (s : State) : TreeOnly s s := ⟨s.irq, s.pins.irqN, rfl⟩

theorem TreeOnly.trans {s t u : State} (first : TreeOnly s t) (second : TreeOnly t u) : TreeOnly s u := by
  obtain ⟨_, _, rfl⟩ := first
  obtain ⟨irq, irqN, rfl⟩ := second
  exact ⟨irq, irqN, rfl⟩

theorem armFn_treeOnly (s : State) (n : Nat) : TreeOnly s (armFn s n) := by
  unfold armFn
  dsimp only
  split
  · exact ⟨_, s.pins.irqN, rfl⟩
  · exact .refl s

theorem irqSettle_treeOnly (s : State) : TreeOnly s (irqSettle s) := by
  have armed : TreeOnly s ((List.range 5).foldl armFn s) :=
    List.foldlRecOn _ armFn (motive := TreeOnly s) (.refl s) fun t only n _ => only.trans (armFn_treeOnly t n)
  unfold irqSettle
  dsimp only
  split
  · exact armed
  · exact armed.trans ⟨_, _, rfl⟩

theorem raise_treeOnly (c : Cause) (s : State) : TreeOnly s (raise c s) := by
  unfold raise
  dsimp only
  split
  · exact .refl s
  · refine .trans ?_ (irqSettle_treeOnly _)
    exact ⟨_, s.pins.irqN, rfl⟩

/-! ## Control -/

/-- The part of the state that no access to memory changes while the module is awake. -/
def controlOf (s : State) : Pmu × Vector Spdm 5 × Bool × Flash × Boot × Time :=
  (s.pmu, s.security.spdm, s.security.lockout, s.flash, s.boot, s.time)

theorem foldl_control {α : Type} {f : State → α → State} (keeps : ∀ s x, controlOf (f s x) = controlOf s) (l : List α)
    (s : State) : controlOf (l.foldl f s) = controlOf s :=
  List.foldlRecOn l f (motive := fun t => controlOf t = controlOf s) rfl fun t kept x _ => (keeps t x).trans kept

/-- What changes control in no state that is awake does not in a fold over them. -/
theorem foldl_control_awake {α : Type} {f : State → α → State}
    (keeps : ∀ s x, s.pmu.sleep = .awake → controlOf (f s x) = controlOf s) (l : List α) {s : State}
    (awake : s.pmu.sleep = .awake) : controlOf (l.foldl f s) = controlOf s :=
  List.foldlRecOn l f (motive := fun t => controlOf t = controlOf s) rfl fun t kept x _ =>
    (keeps t x ((congrArg (·.1.sleep) kept).trans awake)).trans kept

theorem awake_of_control {s t : State} (kept : controlOf t = controlOf s) (awake : s.pmu.sleep = .awake) :
    t.pmu.sleep = .awake :=
  (congrArg (·.1.sleep) kept).trans awake

@[simp] theorem raise_control (c : Cause) (s : State) : controlOf (raise c s) = controlOf s := by
  obtain ⟨_, _, only⟩ := raise_treeOnly c s
  rw [only]
  rfl

@[simp] theorem updCmd_control (id : Nat) (f : Cmd → Cmd) (s : State) : controlOf (updCmd id f s) = controlOf s := rfl

@[simp] theorem setStack_control (s : State) (k : Nat) (x : Stack) : controlOf (setStack s k x) = controlOf s := rfl

@[simp] theorem setBank_control (s : State) (k b : Nat) (x : Bank) : controlOf (setBank s k b x) = controlOf s := rfl

@[simp] theorem setBounce_control (s : State) (p : Nat) (b : Bounce) : controlOf (setBounce s p b) = controlOf s := rfl

@[simp] theorem setPort_control (s : State) (p : Nat) (x : Port) : controlOf (setPort s p x) = controlOf s := rfl

@[simp] theorem beginRestart_control (s : State) : controlOf (beginRestart s) = controlOf s := by
  unfold beginRestart
  split <;> rfl

/-! ### Faults (R393 to R419) -/

@[simp] theorem report_control (cls : Nat) (loc : Nat × Nat × Nat) (cmd : Option Nat) (n : Nat) (s : State) :
    controlOf (report cls loc cmd n s) = controlOf s := by
  unfold report
  split
  · rfl
  extract_lets _ s1 act c isl part fresh _ f s2 s3 s4
  have raised : controlOf s3 = controlOf s := by
    dsimp only [s3]
    split
    · exact raise_control ..
    · rfl
  have due : controlOf s4 = controlOf s := by
    dsimp only [s4]
    split
    · split
      · exact raised
      · exact raised
    · exact raised
  split
  · exact (beginRestart_control _).trans due
  · exact due

theorem noteRepairs_control (cmd : Option Nat) (keys : List Nat) (s : State) :
    controlOf (noteRepairs cmd keys s) = controlOf s := by
  unfold noteRepairs
  split
  · rfl
  refine foldl_control (fun t k => ?_) keys s
  split
  · dsimp only
    split <;> split <;> rfl
  · rfl

@[simp] theorem charge_control (cmd : Option Nat) (g : Got) (s : State) : controlOf (charge cmd g s) = controlOf s := by
  have noted : controlOf (g.notes.foldl (fun s n => report n.1 n.2.1 cmd n.2.2 s) s) = controlOf s :=
    foldl_control (fun t n => report_control ..) g.notes s
  unfold charge
  dsimp only
  split
  · split
    · exact noted
    · exact (noteRepairs_control ..).trans noted
  · exact noted

/-! ### Stacks -/

@[simp] theorem sense_control (key n : Nat) (s : State) : controlOf (sense key n s) = controlOf s := by
  unfold sense
  split <;> rfl

@[simp] theorem countStack_control (key corr bad : Nat) (s : State) :
    controlOf (countStack key corr bad s) = controlOf s := by
  unfold countStack
  split <;> rfl

theorem notePin_control (s : State) (e : Nat × Nat) : controlOf (notePin s e) = controlOf s := by
  unfold notePin
  dsimp only
  split
  · rfl
  · exact report_control ..

@[simp] theorem mergeRead_control (w : Nat) (s : State) : controlOf (mergeRead w s) = controlOf s := by
  unfold mergeRead
  dsimp only
  split
  · exact sense_control ..
  · split <;> split <;> simp [foldl_control notePin_control]

@[simp] theorem putArray_control (key : Nat) (bs : List PByte) (s : State) : controlOf (putArray key bs s) = controlOf s :=
  sense_control key bs.length s

theorem flushEntry_control (e : Merge) (s : State) : controlOf (flushEntry e s) = controlOf s := by
  unfold flushEntry
  refine foldl_control (fun t w => ?_) _ s
  dsimp only
  split
  · exact putArray_control ..
  split
  · rfl
  · exact (foldl_control (fun t p => putArray_control ..) _ _).trans (mergeRead_control ..)

@[simp] theorem flushWhere_control (k : Nat) (p : Merge → Bool) (s : State) :
    controlOf (flushWhere k p s) = controlOf s := by
  unfold flushWhere
  dsimp only
  split
  · rfl
  · exact foldl_control (fun t e => flushEntry_control e t) _ _

@[simp] theorem flushRange_control (key n : Nat) (s : State) : controlOf (flushRange key n s) = controlOf s :=
  flushWhere_control ..

@[simp] theorem narrow_control (key : Nat) (bs : List Byte) (s : State) : controlOf (narrow key bs s) = controlOf s := by
  unfold narrow
  dsimp only
  split
  · rfl
  · rw [setStack_control]
    split
    · split <;> simp
    · rfl

@[simp] theorem putPart_control (key : Nat) (bs : List PByte) (s : State) : controlOf (putPart key bs s) = controlOf s := by
  unfold putPart
  split
  · rfl
  · split <;> simp

theorem putStack_control (key : Nat) (bs : List PByte) (s : State) : controlOf (putStack key bs s) = controlOf s := by
  unfold putStack
  dsimp only
  rw [putPart_control]
  split <;> simp

theorem getStack_control (line : Bool) (key n : Nat) (s : State) : controlOf (getStack line key n s).2 = controlOf s := by
  unfold getStack
  dsimp only
  simp [foldl_control notePin_control]

/-! ### Tiles, far memory, frames -/

theorem tileMergeRead_control (s : State) (w : Nat) : controlOf (tileMergeRead s w) = controlOf s := by
  unfold tileMergeRead
  dsimp only
  split <;> split <;> simp

theorem putTile_control (key : Nat) (bs : List PByte) (s : State) : controlOf (putTile key bs s) = controlOf s := by
  unfold putTile
  split
  · rfl
  · exact foldl_control tileMergeRead_control _ s

theorem getFar_control (mfa key n : Nat) (s : State) : controlOf (getFar mfa key n s).2 = controlOf s := by
  unfold getFar
  dsimp only
  split <;> rfl

theorem putFar_control (mfa key : Nat) (bs : List PByte) (s : State) : controlOf (putFar mfa key bs s) = controlOf s := by
  unfold putFar
  extract_lets line at0 old new merged bad _ s1
  have noted : controlOf s1 = controlOf s := by
    dsimp only [s1]
    split
    · exact report_control ..
    · rfl
  exact noted

theorem sluiceFail_control (p : Nat) (s : State) : controlOf (sluiceFail p s) = controlOf s := raise_control ..

theorem getFrame_control (p f byte n : Nat) (s : State) : controlOf (getFrame p f byte n s).2 = controlOf s := by
  unfold getFrame
  split
  · rfl
  · exact sluiceFail_control p s

theorem putFrame_control (p f byte : Nat) (bs : List PByte) (s : State) :
    controlOf (putFrame p f byte bs s) = controlOf s := by
  unfold putFrame
  dsimp only
  split
  · rfl
  split
  · rfl
  · exact sluiceFail_control p s

/-! ### Pieces -/

theorem getHome_control (line : Bool) (h : Home) (n : Nat) (s : State) :
    controlOf (getHome line h n s).2 = controlOf s := by
  cases h with
  | stack key => exact getStack_control line key n s
  | tile key => rfl
  | far m key => exact getFar_control m key n s
  | host a => rfl
  | frame p f b => exact getFrame_control p f b n s

theorem putHome_control (h : Home) (bs : List PByte) (s : State) : controlOf (putHome h bs s) = controlOf s := by
  cases h with
  | stack key => exact putStack_control key bs s
  | tile key => exact putTile_control key bs s
  | far m key =>
    dsimp only [putHome]
    split
    · rfl
    · exact putFar_control m key bs s
  | host a => rfl
  | frame p f b =>
    dsimp only [putHome]
    split
    · rfl
    · exact putFrame_control p f b bs s

theorem getPieces_control (line : Bool) (ps : List (Home × Nat)) (s : State) :
    controlOf (getPieces line ps s).2 = controlOf s := by
  induction ps generalizing s with
  | nil => rfl
  | cons p ps ih => rw [getPieces, ih, getHome_control]

theorem putPieces_control (ps : List (Home × Nat)) (bs : List PByte) (s : State) :
    controlOf (putPieces ps bs s) = controlOf s := by
  induction ps generalizing bs s with
  | nil => rfl
  | cons p ps ih => rw [putPieces, ih, putHome_control]

theorem readCharged_control (line : Bool) (cmd : Option Nat) (ps : List (Home × Nat)) (s : State) :
    controlOf (readCharged line cmd ps s).2 = controlOf s := by
  rw [readCharged, charge_control, getPieces_control]

/-! ### What a function has issued, and what waits at a bank -/

theorem hostServe_control (h : Home) (write : Bool) (data : List Byte) (place n : Nat) (s : State) :
    controlOf (hostServe h write data place n s) = controlOf s := by
  unfold hostServe
  split
  · exact putHome_control h (clean data) s
  · exact readCharged_control false none [(h, n)] s

theorem hostPiece_control (fn : Nat) (h : Home) (write : Bool) (data : List Byte) (place n : Nat) (s : State) :
    controlOf (hostPiece fn h write data place n s) = controlOf s := by
  unfold hostPiece
  split
  · split
    · rfl
    · exact hostServe_control ..
  · exact hostServe_control ..

theorem hostPieces_control (fn : Nat) (write : Bool) (data : List Byte) (ps : List (Home × Nat)) (place : Nat) (s : State) :
    controlOf (hostPieces fn write data ps place s) = controlOf s := by
  induction ps generalizing place s with
  | nil => rfl
  | cons p ps ih => rw [hostPieces, ih, hostPiece_control]

theorem applyBell_control (b : Bell) (s : State) : controlOf (applyBell b s) = controlOf s := by
  unfold applyBell
  dsimp only
  split
  · rfl
  split
  · exact raise_control ..
  · rfl

theorem takePost_control {s : State} (awake : s.pmu.sleep = .awake) (fn : Nat) (p : Post) :
    controlOf (takePost fn p s) = controlOf s := by
  unfold takePost
  split
  · split
    · exact hostPieces_control ..
    · exact raise_control ..
  · split
    · exact hostPieces_control ..
    · exact raise_control .addrErr s
  · rw [takeBell, if_pos awake]
    exact applyBell_control ..

theorem drainPosts_control (fn fuel : Nat) {s : State} (awake : s.pmu.sleep = .awake) :
    controlOf (drainPosts fn fuel s) = controlOf s := by
  induction fuel generalizing s with
  | zero => rfl
  | succ fuel ih =>
    unfold drainPosts
    split
    · rfl
    split
    · rfl
    · next p ps _ =>
      have taken : controlOf (takePost fn p (setPosts fn ps s)) = controlOf s := takePost_control (s := setPosts fn ps s) awake ..
      exact (ih (awake_of_control taken awake)).trans taken

theorem drainAll_control {s : State} (awake : s.pmu.sleep = .awake) : controlOf (drainAll s) = controlOf s :=
  foldl_control_awake (fun _ fn awake => drainPosts_control fn _ awake) _ awake

theorem countWait_control (k dt : Nat) (s : State) : controlOf (countWait k dt s) = controlOf s := by
  unfold countWait
  dsimp only
  split <;> rfl

theorem serveBank_control (k b n : Nat) (s : State) : controlOf (serveBank k b n s) = controlOf s :=
  foldl_control (fun _ _ => countWait_control ..) _ _

theorem settle_control (k b fuel : Nat) (s : State) : controlOf (settle k b fuel s) = controlOf s := by
  induction fuel generalizing s with
  | zero => rfl
  | succ fuel ih =>
    unfold settle
    split
    · split
      · exact (ih _).trans (hostServe_control ..)
      · rfl
    · split
      · rfl
      · exact (ih _).trans (serveBank_control ..)

theorem pass_control (who : Agent) (key : Nat) (s : State) : controlOf (pass who key s) = controlOf s := by
  unfold pass
  dsimp only
  split
  · exact settle_control ..
  · rfl

theorem arrive_control (who : Agent) (key : Nat) (s : State) : controlOf (arrive who key s) = controlOf s := by
  unfold arrive
  dsimp only
  split
  · rfl
  split <;> rfl

theorem noteWaits_control {s : State} (awake : s.pmu.sleep = .awake) (who : Agent) (ps : List (Home × Nat)) :
    controlOf (noteWaits who ps s) = controlOf s := by
  have passed : controlOf ((bankKeys ps).foldl (fun s key => pass who key s) s) = controlOf s :=
    foldl_control (fun _ _ => pass_control ..) _ s
  unfold noteWaits
  dsimp only
  split
  · split
    · exact (drainAll_control (awake_of_control passed awake)).trans passed
    · rfl
  · split
    · exact foldl_control (fun _ _ => arrive_control ..) _ s
    · rfl

/-! ### Messages to other nodes (R382) -/

theorem settleRemote_control (tag : Nat) (s : State) : controlOf (settleRemote tag s) = controlOf s := by
  unfold settleRemote
  split
  · rfl
  · dsimp only
    split <;> split <;> rfl

theorem noteJobFault_control (loc : Nat × Nat × Nat) (cmd : Option Nat) (s : State) :
    controlOf (noteJobFault loc cmd s) = controlOf s := by
  unfold noteJobFault
  split <;> rfl

theorem refuseRemote_control (tag : Nat) (s : State) : controlOf (refuseRemote tag s) = controlOf s := by
  have settled := settleRemote_control tag s
  unfold refuseRemote
  split
  · rfl
  dsimp only
  split
  · exact (noteJobFault_control ..).trans settled
  · split <;> exact settled

theorem ask_control (w : Asker) (kind : RemoteKind) (a : W64) (n : Nat) (data : List PByte) (s : State) :
    controlOf (ask w kind a n data s) = controlOf s := by
  unfold ask
  extract_lets tag r _ s1 s2 code vc m
  have noted : controlOf s2 = controlOf s := by
    dsimp only [s2]
    split
    · split <;> rfl
    · split
      · split <;> rfl
      · rfl
  split
  · next t sent =>
    obtain ⟨p, -, rfl⟩ := Option.map_eq_some_iff.1 sent
    exact noted
  · exact (refuseRemote_control ..).trans noted

theorem remoteWrite_control (w : Asker) (fuel : Nat) (a : W64) (bs : List PByte) (s : State) :
    controlOf (remoteWrite w fuel a bs s) = controlOf s := by
  induction fuel generalizing a bs s with
  | zero => rfl
  | succ fuel ih =>
    unfold remoteWrite
    split
    · rfl
    · exact (ih ..).trans (ask_control ..)

theorem Cmd.store_control (c : Cmd) (a : W64) (bs : List PByte) (s : State) : controlOf (c.store a bs s) = controlOf s := by
  unfold Cmd.store Machine.store
  split
  · next stored =>
    split at stored
    · cases stored
    · cases stored
      exact putPieces_control ..
    · cases stored
  · rfl

theorem Cmd.put_control (c : Cmd) (a : W64) (bs : List PByte) (s : State) : controlOf (c.put a bs s) = controlOf s := by
  unfold Cmd.put
  split
  · exact remoteWrite_control ..
  · exact c.store_control ..

end Sys2Proof.Machine
end

section
/-!
Power: its commands, the pin CAP_ALERT_N, the cap loop and the limiters (R447 to R458, R461 to R463).
-/

namespace Sys2Proof.Machine

theorem exec_setCap_meaning (id : Nat) (s : State) : exec (.setCap id) s = execSetCap id s := rfl

theorem exec_setProfile_meaning (id : Nat) (s : State) : exec (.setProfile id) s = execSetProfile id s := rfl

theorem exec_lendPool_meaning (id : Nat) (s : State) : exec (.lendPool id) s = execLendPool id s := rfl

theorem exec_sleep_meaning (id : Nat) (s : State) : exec (.sleep id) s = execSleep id s := rfl

theorem exec_powerRead_meaning (id : Nat) (s : State) : exec (.powerRead id) s = execPowerRead id s := rfl

theorem exec_capAlertAssert_meaning (s : State) : exec .capAlertAssert s = execCapAlertAssert s := rfl

theorem exec_capLoopStep_meaning (co st io mo : Nat) (s : State) :
    exec (.capLoopStep co st io mo) s = execCapLoopStep co st io mo s := rfl

theorem exec_stackRowStep_meaning (avg : Nat) (t l : Bool) (s : State) :
    exec (.stackRowStep avg t l) s = execStackRowStep avg t l s := rfl

theorem exec_currentLimitStep_meaning (avg smp : Nat) (rel : Bool) (s : State) :
    exec (.currentLimitStep avg smp rel) s = execCurrentLimitStep avg smp rel s := rfl

theorem exec_droopTrip_meaning (n mv : Nat) (s : State) : exec (.droopTrip n mv) s = execDroopTrip n mv s := rfl

theorem exec_droopRelease_meaning (d : Nat) (s : State) : exec (.droopRelease d) s = execDroopRelease d s := rfl

theorem exec_thermalLimitStep_meaning (rs : List Reading) (s : State) :
    exec (.thermalLimitStep rs) s = execThermalLimitStep rs s := rfl

theorem exec_thermalTrip_meaning (k : Bool) (t : Nat) (s : State) :
    exec (.thermalTrip k t) s = execThermalTrip k t s := rfl

theorem exec_thermalTripRelease_meaning (d t : Nat) (s : State) :
    exec (.thermalTripRelease d t) s = execThermalTripRelease d t s := rfl

/-! ## Commands (R447 to R450, R461 to R463) -/

section
variable {s : State} {id : Nat} {c : Cmd}

theorem exec_setCap_sets (runs : Runs s 0x0701 id c) (finds : Finds c s (setCapChk c) () []) :
    exec (.setCap id) s = .next (doneCmd c.id 0 { s with pmu := { s.pmu with setCap := c.at 16 4 } }) := by
  rw [exec_setCap_meaning, execSetCap, onCmd_runs runs, judged_found finds]

theorem setCapChk_inRange (least : 900 ≤ c.at 16 4) (most : c.at 16 4 ≤ 1900) : setCapChk c = pure () :=
  need_true (by simp [least, most]) _

theorem exec_setProfile_sets (runs : Runs s 0x0702 id c) (finds : Finds c s (setProfileChk s c) () []) :
    exec (.setProfile id) s = .next (doneCmd c.id 0 { s with pmu := { s.pmu with profile := c.at 16 1 } }) := by
  rw [exec_setProfile_meaning, execSetProfile, onCmd_runs runs, judged_found finds]

theorem setProfileChk_idle (most : c.at 16 1 ≤ 1) (idle : anyJob s = false) : setProfileChk s c = pure () := by
  rw [setProfileChk, need_true (by simp [most]), need_true (by simp [idle])]
  rfl

theorem exec_lendPool_leaves (runs : Runs s 0x0703 id c) (leaves : c.at 20 2 = 0) :
    exec (.lendPool id) s = .next (doneCmd c.id 0 (leavePool s)) := by
  rw [exec_lendPool_meaning, execLendPool, onCmd_runs runs, if_pos leaves]

theorem exec_lendPool_joins (runs : Runs s 0x0703 id c) (joins : c.at 20 2 ≠ 0) {nodes : List Nat} {ps : List (Home × Nat)}
    (finds : Finds c s (lendChk s c) nodes ps) :
    exec (.lendPool id) s = .next (doneCmd c.id 0 (joinPool (c.at 16 4) nodes (touch c ps s))) := by
  rw [exec_lendPool_meaning, execLendPool, onCmd_runs runs, if_neg joins, judged_finds _ _ _ _ _ _ finds]

theorem exec_sleep_waits (runs : Runs s 0x0704 id c) (busy : opening s = true) :
    exec (.sleep id) s = .next (waitCmd c.id s) := by
  rw [exec_sleep_meaning, execSleep, onCmd_runs runs, if_pos busy]

theorem exec_sleep_ends (runs : Runs s 0x0704 id c) (settled : opening s = false) (noJob : anyJob s = false)
    (noSwitch : anySwitch s = false) : exec (.sleep id) s = .next (doneCmd c.id 0 (resumeCmd c.id s)) := by
  rw [exec_sleep_meaning, execSleep, onCmd_runs runs, if_neg (by simp [settled]),
    judged_found (finds_of_pure (need_true (by simp [noJob, noSwitch]) _))]

theorem exec_powerRead_writes {s1 : State} (runs : Runs s 0x0705 id c) (finds : Finds c s (powerReadChk s c) () [])
    (admitted : c.Admitted s [(c.addr 16, 128, true)]) (reaches : c.Reaches (c.pieces s (c.addr 16) 128) s s1) :
    exec (.powerRead id) s = .next (doneCmd c.id (energyUj s1) (c.put (c.addr 16) (clean (powerRecord s1)) s1)) := by
  rw [exec_powerRead_meaning, execPowerRead, onCmd_runs runs, judged_found finds, reaching_admitted admitted reaches.1,
    reaches.2]

end

/-! ## CAP_ALERT_N (R458) -/

theorem exec_capAlertAssert_lowers {s : State} (high : s.pins.capAlertN = true) :
    ∀ s1, s1 = { s with pins := { s.pins with capAlertN := false } } → exec .capAlertAssert s = .next
      (if s.boot.vsb then raise .extCap { s1 with pmu := { s1.pmu with dutyCap := s1.pmu.extDuty } } else s1) := by
  rintro _ rfl
  rw [exec_capAlertAssert_meaning, execCapAlertAssert, capAlertAssert, if_neg (by simp [high])]

/-- Settles O51: each command acts by what its check finds, and the pin by its level. -/
theorem powerIsSetAndRead : Obligations.PowerIsSetAndRead := by
  refine fun s id c => ⟨fun runs least most => exec_setCap_sets runs (finds_of_pure (setCapChk_inRange least most)),
    fun runs most idle => exec_setProfile_sets runs (finds_of_pure (setProfileChk_idle most idle)),
    fun runs => ⟨exec_lendPool_leaves runs, ?joins⟩, fun runs => ⟨exec_sleep_waits runs, exec_sleep_ends runs⟩,
    fun s1 runs finds admitted reaches => exec_powerRead_writes runs finds admitted reaches, fun high s1 lowered => ?alert,
    rfl⟩
  case joins =>
    rintro nodes ps _ _ joins finds rfl rfl
    exact exec_lendPool_joins runs joins finds
  case alert =>
    have falls := exec_capAlertAssert_lowers high s1 lowered
    exact ⟨fun on => falls.trans (congrArg _ (if_pos on)), fun off => falls.trans (congrArg _ (if_neg (by simp [off])))⟩

/-! ## The cap loop and the stack row (R448, R451 to R453) -/

theorem exec_capLoopStep_measures {s : State} (off : pmuOn s = false) (vsb : s.boot.vsb = true) (co st io mo : Nat) :
    exec (.capLoopStep co st io mo) s = .next (measure co st io mo s) := by
  rw [exec_capLoopStep_meaning, execCapLoopStep, if_neg (by simp [off]), if_pos vsb]

section
variable {s : State} (on : pmuOn s = true)
include on

theorem exec_capLoopStep_steps (co st io mo : Nat) :
    exec (.capLoopStep co st io mo) s = .next (capLoopStep co st io mo s) := by
  rw [exec_capLoopStep_meaning, execCapLoopStep, if_pos on]

theorem exec_stackRowStep_steps (avg : Nat) (t l : Bool) :
    exec (.stackRowStep avg t l) s = .next (stackRowStep avg t l s) := by
  rw [exec_stackRowStep_meaning, execStackRowStep, if_pos on]

theorem exec_currentLimitStep_steps (avg smp : Nat) (rel : Bool) :
    exec (.currentLimitStep avg smp rel) s = .next (currentLimitStep avg smp rel s) := by
  rw [exec_currentLimitStep_meaning, execCurrentLimitStep, if_pos on]

theorem exec_thermalLimitStep_steps (rs : List Reading) :
    exec (.thermalLimitStep rs) s = .next (thermalLimitStep rs s) := by
  rw [exec_thermalLimitStep_meaning, execThermalLimitStep, if_pos on]

end

section
variable {s : State} {avg share : Nat} (shared : share = capInForce s * (shares s.pmu.profile).2.1)
include shared

theorem stackRowStep_above (above : 100 * avg > share) (t l : Bool) : stackRowStep avg t l s =
    applyRow { s with pmu := { s.pmu with row := min 4 (s.pmu.row + 1), rowLow := none } } := by
  subst shared
  have notLow : ¬ 125 * avg < capInForce s * (shares s.pmu.profile).2.1 := by omega
  simp only [stackRowStep, if_pos above, if_neg notLow, Option.any_none, Bool.and_false, Bool.false_eq_true, if_false]

/-- The average has stayed below 80 % of its share for 10 ms. -/
theorem stackRowStep_falls (low : 125 * avg < share) {since : Nat} (lowSince : s.pmu.rowLow = some since)
    (long : since + 10000000 ≤ now s) : stackRowStep avg true true s =
    applyRow { s with pmu := { s.pmu with row := s.pmu.row - 1, rowLow := some (now s) } } := by
  subst shared
  have notAbove : ¬ 100 * avg > capInForce s * (shares s.pmu.profile).2.1 := by omega
  have lowIs : (if 125 * avg < capInForce s * (shares s.pmu.profile).2.1 then
      some (s.pmu.rowLow.getD (now s - 1000000)) else none) = some since := by rw [if_pos low, lowSince, Option.getD_some]
  have falls : (some since).any (fun t => decide (t + 10000000 ≤ now s)) = true :=
    Option.any_some.trans (decide_eq_true long)
  simp only [stackRowStep, if_neg notAbove, lowIs, falls, Bool.and_self, if_true]

theorem stackRowStep_between (notAbove : 100 * avg ≤ share) (notLow : share ≤ 125 * avg) (t l : Bool) :
    stackRowStep avg t l s = applyRow { s with pmu := { s.pmu with rowLow := none } } := by
  subst shared
  simp only [stackRowStep, if_neg (Nat.not_lt.2 notAbove), if_neg (Nat.not_lt.2 notLow), Option.any_none, Bool.and_false,
    Bool.false_eq_true, if_false]

end

/-! ## The current limiter (R454) -/

section
variable {s m : State} {avg smp : Nat} (measured : m = measureCurrent avg smp s)
include measured

theorem currentLimitStep_cuts (above : avg > 1100 ∨ smp > 1200) (rel : Bool) : currentLimitStep avg smp rel s =
    { m with pmu := { m.pmu with dutyCur := #v[max 1 (duty s 0 / 2), max 1 (duty s 1 / 2)] } } := by
  subst measured
  simp only [currentLimitStep, decide_eq_true above, if_true, Bool.not_true, Bool.false_and, Bool.false_eq_true, if_false]
  rfl

theorem currentLimitStep_raises (under : avg ≤ 1100) (below : smp ≤ 1200) (may : mayRelease m = true) :
    currentLimitStep avg smp true s = { m with pmu := { m.pmu with
      dutyCur := #v[min 64 (s.pmu.dutyCur[0] + 4), min 64 (s.pmu.dutyCur[1] + 4)], releasedAt := now s } } := by
  subst measured
  have notAbove : decide (avg > 1100 ∨ smp > 1200) = false := by simp; omega
  simp only [currentLimitStep, notAbove, may, Bool.not_false, Bool.true_and, Bool.false_eq_true, if_true, if_false]
  rfl

theorem currentLimitStep_holds (under : avg ≤ 1100) (below : smp ≤ 1200) (may : mayRelease m = false) (rel : Bool) :
    currentLimitStep avg smp rel s = m := by
  subst measured
  have notAbove : decide (avg > 1100 ∨ smp > 1200) = false := by simp; omega
  have duties : #v[s.pmu.dutyCur[0], s.pmu.dutyCur[1]] = s.pmu.dutyCur := by ext i hi; interval_cases i <;> rfl
  simp only [currentLimitStep, notAbove, may, Bool.and_false, Bool.false_eq_true, if_false]
  exact congrArg (fun d => { measureCurrent avg smp s with pmu := { (measureCurrent avg smp s).pmu with dutyCur := d } }) duties

end

/-! ## Droop (R455) -/

theorem exec_droopTrip_reads {s : State} {n : Nat} (inside : n < 24) (mv : Nat) :
    exec (.droopTrip n mv) s = .next (droopTrip n mv s) := by
  rw [exec_droopTrip_meaning, execDroopTrip, onUnit_inside inside]

theorem droopTrip_closes {s : State} (on : pmuOn s = true) {n mv : Nat} (low : mv + 30 ≤ (islandAt s n).setAt (now s)) :
    ∀ s1, s1 = noteSteady (n / 12) (setIsland s n { islandAt s n with mv := mv }) →
      droopTrip n mv s = { s1 with pmu := { s1.pmu with
        gateClosed := s1.pmu.gateClosed.setIfInBounds (n / 12) true
        reopenedAt := s1.pmu.reopenedAt.setIfInBounds (n / 12) none } } := by
  rintro _ rfl
  rw [droopTrip, if_neg (by simp [on])]
  exact if_neg (Nat.not_lt.2 low)

theorem exec_droopRelease_reads {s : State} {d : Nat} (inside : d < 2) :
    exec (.droopRelease d) s = .next (droopRelease d s) := by
  rw [exec_droopRelease_meaning, execDroopRelease, onUnit_inside inside]

section
variable {s : State} {d since : Nat} (closed : s.pmu.gateClosed[d]? = some true)
  (steady : s.pmu.steady[d]? = some (some since))
include closed steady

theorem droopRelease_opens (long : since + 2000 ≤ now s) : droopRelease d s = { s with pmu := { s.pmu with
    gateClosed := s.pmu.gateClosed.setIfInBounds d false
    reopenedAt := s.pmu.reopenedAt.setIfInBounds d (some (now s)) } } := by
  rw [droopRelease, closed, steady]
  exact if_neg (by simp [long])

theorem droopRelease_waits (short : now s < since + 2000) : droopRelease d s = s := by
  rw [droopRelease, closed, steady]
  exact if_pos (by simp [short])

end

/-! ## Temperature (R456, R457) -/

theorem thermalTrip_trips {s : State} {k : Bool} {t : Nat} (vsb : s.boot.vsb = true) (untripped : s.pmu.trip = false)
    (hot : t ≥ if k then 108 else 110) : thermalTrip k t s = raise .thermTrip (applyVoltage (applyRow { s with
      pmu := { s.pmu with trip := true }, pins := { s.pins with thermN := false } })) :=
  if_neg (by simpa [vsb, untripped] using hot)

theorem thermalTripRelease_releases {s : State} {d t : Nat} (tripped : s.pmu.trip = true) (die : d ≤ 105)
    (stack : t ≤ 103) : thermalTripRelease d t s = applyVoltage (applyRow { s with
      pmu := { s.pmu with trip := false }, pins := { s.pins with thermN := true } }) :=
  if_neg (by simp [tripped, die, stack])

/-- Settles O52: each limiter steps by what it reads. -/
theorem limitersHold : Obligations.LimitersHold := by
  refine fun s => ⟨fun co st io mo => ⟨rfl, rfl, fun off vsb => exec_capLoopStep_measures off vsb co st io mo⟩,
    fun on => ⟨?cap, fun avg t l share shared => ?row, fun avg smp rel m measured => ?current,
      fun n mv s1 inside low noted => ?droop, ?thermal⟩,
    fun d since inside closed steady => ?release, fun k t vsb untripped hot => ?trip,
    fun d t tripped die stack => ?cooled⟩
  case cap =>
    rintro co st io mo _ _ _ rfl rfl rfl
    exact exec_capLoopStep_steps on co st io mo
  case row =>
    exact ⟨fun above => (exec_stackRowStep_steps on avg t l).trans (congrArg _ (stackRowStep_above shared above t l)),
      fun since low lowSince long =>
        (exec_stackRowStep_steps on avg true true).trans (congrArg _ (stackRowStep_falls shared low lowSince long)),
      fun notAbove notLow =>
        (exec_stackRowStep_steps on avg t l).trans (congrArg _ (stackRowStep_between shared notAbove notLow t l))⟩
  case current =>
    have steps (rel : Bool) := exec_currentLimitStep_steps on avg smp rel
    exact ⟨fun above => (steps rel).trans (congrArg _ (currentLimitStep_cuts measured above rel)),
      fun under below may => (steps true).trans (congrArg _ (currentLimitStep_raises measured under below may)),
      fun under below may => (steps rel).trans (congrArg _ (currentLimitStep_holds measured under below may rel))⟩
  case droop => rw [exec_droopTrip_reads inside mv, droopTrip_closes on low s1 noted]
  case thermal =>
    rintro rs _ rfl
    exact exec_thermalLimitStep_steps on rs
  case release =>
    have reads := exec_droopRelease_reads (s := s) inside
    exact ⟨fun long => reads.trans (congrArg _ (droopRelease_opens closed steady long)),
      fun short => reads.trans (congrArg _ (droopRelease_waits closed steady short))⟩
  case trip =>
    rw [exec_thermalTrip_meaning, execThermalTrip, thermalTrip_trips vsb untripped hot]
  case cooled =>
    rw [exec_thermalTripRelease_meaning, execThermalTripRelease, thermalTripRelease_releases tripped die stack]

end Sys2Proof.Machine
end

section
/-!
Every row of the power family completes and changes only its own unit, pins, causes, islands, rows, command and messages.
-/

namespace Sys2Proof.Machine

/-! ## What changes only power's own part -/

/-- The parts of the state that `PowerOnly` leaves open. -/
theorem PowerOnly.units (s : State) (irq : Irq) (pins : Pins) (front : Front) (dram : Tab Stack) (fabric : Fabric)
    (pmu : Pmu) : PowerOnly s { s with
      irq := irq, pins := pins, front := front, dram := dram, fabric := fabric, pmu := pmu } :=
  ⟨rfl, rfl, rfl, rfl, rfl, rfl, rfl, rfl, rfl, rfl, rfl⟩

theorem PowerOnly.refl (s : State) : PowerOnly s s := .units s ..

theorem PowerOnly.trans {s t u : State} (first : PowerOnly s t) (second : PowerOnly t u) : PowerOnly s u where
  store := second.store.trans first.store
  tiles := second.tiles.trans first.tiles
  parts := second.parts.trans first.parts
  jobs := second.jobs.trans first.jobs
  serve := second.serve.trans first.serve
  weights := second.weights.trans first.weights
  faults := second.faults.trans first.faults
  security := second.security.trans first.security
  flash := second.flash.trans first.flash
  boot := second.boot.trans first.boot
  time := second.time.trans first.time

theorem PowerOnly.after {s t u : State} (second : PowerOnly t u) (first : PowerOnly s t) : PowerOnly s u :=
  first.trans second

theorem foldl_powerOnly {α : Type} {f : State → α → State} (keeps : ∀ s x, PowerOnly s (f s x)) (l : List α) (s : State) :
    PowerOnly s (l.foldl f s) :=
  List.foldlRecOn l f (motive := PowerOnly s) (.refl s) fun t kept x _ => kept.trans (keeps t x)

theorem raise_powerOnly (c : Cause) (s : State) : PowerOnly s (raise c s) := by
  obtain ⟨irq, irqN, only⟩ := raise_treeOnly c s
  rw [only]
  exact .units s ..

theorem raise_capAlertN (c : Cause) (s : State) : (raise c s).pins.capAlertN = s.pins.capAlertN := by
  obtain ⟨irq, irqN, only⟩ := raise_treeOnly c s
  rw [only]

theorem doneCmd_powerOnly (id result : Nat) (s : State) : PowerOnly s (doneCmd id result s) := .units s ..

/-! ### Rows of the stacks, voltages, limiters (R451 to R457) -/

theorem applyRow_powerOnly (s : State) : PowerOnly s (applyRow s) := foldl_powerOnly (fun s _ => .units s ..) _ s

theorem applyVoltage_powerOnly (s : State) : PowerOnly s (applyVoltage s) := foldl_powerOnly (fun s _ => .units s ..) _ s

theorem noteSteady_powerOnly (d : Nat) (s : State) : PowerOnly s (noteSteady d s) := .units s ..

theorem thermalDie_powerOnly (s : State) (d : Nat) : PowerOnly s (thermalDie s d) := .units s ..

theorem measure_powerOnly (co st io mo : Nat) (s : State) : PowerOnly s (measure co st io mo s) := .units s ..

theorem capLoopStep_powerOnly (co st io mo : Nat) (s : State) : PowerOnly s (capLoopStep co st io mo s) := by
  unfold capLoopStep
  have measured := measure_powerOnly co st io mo s
  generalize measure co st io mo s = m at measured ⊢
  exact (applyVoltage_powerOnly _).after (measured.trans (.units m ..))

theorem stackRowStep_powerOnly (avg : Nat) (t l : Bool) (s : State) : PowerOnly s (stackRowStep avg t l s) :=
  (applyRow_powerOnly _).after (.units s ..)

theorem currentLimitStep_powerOnly (avg smp : Nat) (rel : Bool) (s : State) :
    PowerOnly s (currentLimitStep avg smp rel s) := .units s ..

theorem droopTrip_powerOnly (n mv : Nat) (s : State) : PowerOnly s (droopTrip n mv s) := by
  have read : PowerOnly s (noteSteady (n / 12) (setIsland s n { islandAt s n with mv := mv })) :=
    (noteSteady_powerOnly ..).after (.units s ..)
  unfold droopTrip
  dsimp only
  split
  · exact .refl s
  split
  · exact read
  · exact read.trans (.units _ ..)

theorem droopRelease_powerOnly (d : Nat) (s : State) : PowerOnly s (droopRelease d s) := by
  unfold droopRelease
  split
  · exact .refl s
  · exact .units s ..

theorem thermalLimitStep_powerOnly (rs : List Reading) (s : State) : PowerOnly s (thermalLimitStep rs s) := by
  have read (s : State) (r : Reading × Nat) : PowerOnly s (if r.2 < 24 then
      setIsland s r.2 { islandAt s r.2 with mv := r.1.mv, rate := r.1.rate, temp := r.1.temp } else s) := by
    split
    · exact .units s ..
    · exact .refl s
  unfold thermalLimitStep
  exact (applyVoltage_powerOnly _).after <| (thermalDie_powerOnly ..).after <| (thermalDie_powerOnly ..).after <|
    (noteSteady_powerOnly ..).after <| (noteSteady_powerOnly ..).after (foldl_powerOnly read _ s)

theorem thermalTrip_powerOnly (k : Bool) (t : Nat) (s : State) : PowerOnly s (thermalTrip k t s) := by
  unfold thermalTrip
  generalize (if k then 108 else 110) = limit
  split
  · exact .refl s
  · exact (raise_powerOnly ..).after <| (applyVoltage_powerOnly _).after <| (applyRow_powerOnly _).after (.units s ..)

theorem thermalTripRelease_powerOnly (d t : Nat) (s : State) : PowerOnly s (thermalTripRelease d t s) := by
  unfold thermalTripRelease
  split
  · exact .refl s
  · exact (applyVoltage_powerOnly _).after <| (applyRow_powerOnly _).after (.units s ..)

/-! ### Messages and lending (R388, R389, R462) -/

theorem putOut_powerOnly (p vc : Nat) (m : Msg) (s : State) : PowerOnly s (putOut p vc m s) := .units s ..

theorem towOn_powerOnly (m : Msg) (s : State) : PowerOnly s (towOn m s) := by
  unfold towOn
  split
  · exact putOut_powerOnly ..
  · exact .units s ..

theorem towNow_powerOnly (dest : Nat) (bs : List Byte) (s : State) : PowerOnly s (towNow dest bs s) := by
  unfold towNow
  dsimp only
  split
  · exact foldl_powerOnly (fun s p => putOut_powerOnly p ..) _ s
  split
  · split
    · exact putOut_powerOnly ..
    · exact .refl s
  · exact towOn_powerOnly ..

theorem sendTow_powerOnly (dest : Nat) (bs : List Byte) (s : State) : PowerOnly s (sendTow dest bs s) := by
  unfold sendTow
  split
  · exact .units s ..
  · exact towNow_powerOnly ..

theorem setLend_powerOnly (s : State) (l : Lend) : PowerOnly s (setLend s l) := .units s ..

theorem setNet_powerOnly (net : Int) (s : State) : PowerOnly s (setNet net s) := setLend_powerOnly ..

theorem heardCoordinator_powerOnly (s : State) : PowerOnly s (heardCoordinator s) := setLend_powerOnly ..

theorem renewed_powerOnly (net : Int) (s : State) : PowerOnly s (renewed net s) :=
  (setNet_powerOnly net s).trans (setLend_powerOnly ..)

theorem lendWatts_powerOnly (s : State) : PowerOnly s (lendWatts s) := (setNet_powerOnly _ s).trans (setLend_powerOnly ..)

theorem sendRenew_powerOnly (s : State) : PowerOnly s (sendRenew s) := by
  refine (setLend_powerOnly s _).trans (foldl_powerOnly (fun t m => ?_) _ _)
  split
  · exact renewed_powerOnly ..
  · exact sendTow_powerOnly ..

theorem sendGive_powerOnly (s : State) : PowerOnly s (sendGive s) := by
  unfold sendGive
  split
  · extract_lets _ _ _ _ kept given
    have keeps : PowerOnly s kept := setLend_powerOnly s _
    have gives : PowerOnly kept given := by
      dsimp only [given]
      split
      · exact setNet_powerOnly ..
      · exact sendTow_powerOnly ..
    exact keeps.trans (gives.trans (sendRenew_powerOnly given))
  · exact .refl s

theorem sendTake_powerOnly (s : State) : PowerOnly s (sendTake s) := by
  unfold sendTake
  split
  · exact .refl s
  split
  · extract_lets _ begun
    have begins : PowerOnly s begun := setLend_powerOnly s _
    split
    · exact begins.trans ((lendWatts_powerOnly begun).trans (sendGive_powerOnly _))
    · exact begins.trans (sendTow_powerOnly ..)
  · exact setLend_powerOnly ..

theorem collectSlack_powerOnly (n t w k : Nat) (s : State) : PowerOnly s (collectSlack n t w k s) := by
  unfold collectSlack
  extract_lets l collected
  have collects : PowerOnly s collected := setLend_powerOnly s _
  split
  · exact .refl s
  · split
    · exact collects.trans (sendTake_powerOnly collected)
    · exact collects

theorem lendTick_powerOnly (s : State) : PowerOnly s (lendTick s) := by
  unfold lendTick
  extract_lets l t wait begun
  have begins : PowerOnly s begun := setLend_powerOnly s _
  split
  · exact .refl s
  · split
    · exact begins.trans (collectSlack_powerOnly ..)
    · exact begins.trans (sendTow_powerOnly ..)

theorem take_powerOnly (t : Nat) (s : State) : PowerOnly s (take t s) := by
  unfold take
  split
  · exact .refl s
  · exact (lendWatts_powerOnly s).trans <| (heardCoordinator_powerOnly _).trans (sendTow_powerOnly ..)

/-! ## The rows -/

/-- A row answers a next state in which only power's own part differs. -/
def ActsOnPower (o : Out) (s : State) : Prop := ∃ t, o = .next t ∧ PowerOnly s t

theorem ActsOnPower.row {s t : State} (only : PowerOnly s t) : ActsOnPower (.next t) s := ⟨t, rfl, only⟩

theorem ActsOnPower.ite {s t : State} (p : Prop) [Decidable p] (only : PowerOnly s t) :
    ActsOnPower (.next (if p then t else s)) s := by
  split
  · exact .row only
  · exact .row (.refl s)

theorem exec_limiter_actsOnPower {s : State} (on : pmuOn s = true) {co st io mo avg smp n mv : Nat} {b1 b2 : Bool}
    {rs : List Reading} (island : n < 24) {i : Instr}
    (row : i ∈ [Instr.capLoopStep co st io mo, .stackRowStep avg b1 b2, .currentLimitStep avg smp b1, .droopTrip n mv,
      .droopRelease (n / 12), .thermalLimitStep rs, .thermalTrip b1 avg, .thermalTripRelease avg smp]) :
    ActsOnPower (exec i s) s := by
  simp only [List.mem_cons, List.not_mem_nil, or_false] at row
  rcases row with rfl | rfl | rfl | rfl | rfl | rfl | rfl | rfl
  · rw [exec_capLoopStep_steps on]
    exact .row (capLoopStep_powerOnly ..)
  · rw [exec_stackRowStep_steps on]
    exact .row (stackRowStep_powerOnly ..)
  · rw [exec_currentLimitStep_steps on]
    exact .row (currentLimitStep_powerOnly ..)
  · rw [exec_droopTrip_reads island]
    exact .row (droopTrip_powerOnly ..)
  · rw [exec_droopRelease_reads (by omega)]
    exact .row (droopRelease_powerOnly ..)
  · rw [exec_thermalLimitStep_steps on]
    exact .row (thermalLimitStep_powerOnly ..)
  · exact .row (thermalTrip_powerOnly ..)
  · exact .row (thermalTripRelease_powerOnly ..)

theorem whenRunning_powerOnly {s : State} {f : State → State} (keeps : PowerOnly s (f s)) :
    PowerOnly s (whenRunning s f) := by
  unfold whenRunning
  split
  · exact keeps
  · exact .refl s

theorem ite_powerOnly {s t : State} (p : Prop) [Decidable p] (only : PowerOnly s t) : PowerOnly s (if p then t else s) := by
  split
  · exact only
  · exact .refl s

theorem exec_lending_actsOnPower {s : State} {n k w : Nat} {net : Int} {i : Instr} {cap : Nat}
    (row : i ∈ [Instr.lendTick w, .slack n k w cap, .takeTimeout, .take k, .taken n k, .give k w, .renew k net,
      .renewTimeout, .lendReceivedLapse, .lendReturn]) : ActsOnPower (exec i s) s := by
  simp only [List.mem_cons, List.not_mem_nil, or_false] at row
  rcases row with rfl | rfl | rfl | rfl | rfl | rfl | rfl | rfl | rfl | rfl
  · exact .row (whenRunning_powerOnly (lendTick_powerOnly s))
  · refine .row (whenRunning_powerOnly ?_)
    split
    · exact .refl s
    · exact collectSlack_powerOnly ..
  · exact .row (whenRunning_powerOnly (ite_powerOnly _ (sendTake_powerOnly s)))
  · exact .row (whenRunning_powerOnly (take_powerOnly k s))
  · exact .row (whenRunning_powerOnly (ite_powerOnly _ (sendGive_powerOnly s)))
  · exact .row (whenRunning_powerOnly (ite_powerOnly _ ((setNet_powerOnly _ s).trans (heardCoordinator_powerOnly _))))
  · exact .row (whenRunning_powerOnly (ite_powerOnly _
      ((setLend_powerOnly s _).trans <| (renewed_powerOnly ..).trans (heardCoordinator_powerOnly _))))
  · exact .row (whenRunning_powerOnly (ite_powerOnly _ (sendRenew_powerOnly s)))
  · exact .row (ite_powerOnly _ (setLend_powerOnly ..))
  · exact .row (ite_powerOnly _ (setLend_powerOnly ..))

theorem exec_capAlertAssert_actsOnPower {s : State} (high : s.pins.capAlertN = true) :
    ∃ t, exec .capAlertAssert s = .next t ∧ t.pins.capAlertN = false ∧ PowerOnly s t := by
  refine ⟨_, exec_capAlertAssert_lowers high _ rfl, ?_⟩
  split
  · exact ⟨raise_capAlertN .., (raise_powerOnly ..).after (.units s ..)⟩
  · exact ⟨rfl, .units s ..⟩

theorem awake_of_running {s : State} (runs : running s = true) : s.pmu.sleep = .awake := by
  simp only [running, Bool.and_eq_true, decide_eq_true_eq] at runs
  obtain ⟨⟨-, awake⟩, -⟩ := runs
  exact awake

/-- The record is written to memory, which changes no control. -/
theorem exec_powerRead_control {s s1 : State} {id : Nat} {c : Cmd} (runs : Runs s 0x0705 id c)
    (finds : Finds c s (powerReadChk s c) () []) (admitted : c.Admitted s [(c.addr 16, 128, true)])
    (reaches : c.Reaches (c.pieces s (c.addr 16) 128) s s1) :
    ∃ t, exec (.powerRead id) s = .next t ∧ controlOf t = controlOf s := by
  refine ⟨_, exec_powerRead_writes runs finds admitted reaches, ?_⟩
  have awake : s.pmu.sleep = .awake := awake_of_running runs.1
  have reached : controlOf s1 = controlOf s := by
    rw [reaches.2]
    exact noteWaits_control awake ..
  exact (c.put_control ..).trans reached

/-- Settles O59: what each row runs keeps all that `PowerOnly` names; a written record keeps the control. -/
theorem powerRowsComplete : Obligations.PowerRowsComplete := by
  refine ⟨fun s id c => ⟨fun runs finds => ?cap, fun runs finds => ?profile, fun runs leaves => ?leave,
    fun nodes ps runs joins finds => ?join, fun runs settled noJob noSwitch => ?sleep,
    fun s1 runs finds admitted reaches => ?read⟩,
    fun s => ⟨exec_capAlertAssert_actsOnPower, ⟨_, rfl, rfl, .units s ..⟩,
      fun on _ _ _ _ _ _ _ _ _ _ _ island _ row => exec_limiter_actsOnPower on island row,
      fun _ _ _ _ _ _ _ row => exec_lending_actsOnPower row⟩⟩
  case cap => exact ⟨_, exec_setCap_sets runs finds, rfl, .units s ..⟩
  case profile => exact ⟨_, exec_setProfile_sets runs finds, rfl, .units s ..⟩
  case leave => exact ⟨_, exec_lendPool_leaves runs leaves, rfl, rfl, .units s ..⟩
  case join => exact ⟨_, exec_lendPool_joins runs joins finds, rfl, rfl, .units (touch c ps s) ..⟩
  case sleep => exact ⟨_, exec_sleep_ends runs settled noJob noSwitch, rfl, .units s ..⟩
  case read =>
    obtain ⟨t, writes, kept⟩ := exec_powerRead_control runs finds admitted reaches
    simp only [controlOf, Prod.mk.injEq] at kept
    obtain ⟨pmu, spdm, lockout, flash, boot, time⟩ := kept
    exact ⟨t, writes, pmu, spdm, lockout, flash, boot, time⟩

end Sys2Proof.Machine
end

section
/-!
The SMBus target: telemetry, the flash commands (R494 to R496).
-/

namespace Sys2Proof.Machine

section
variable (s : State)

theorem exec_smbStatus_meaning : exec .smbStatus s = execSmbStatus s := rfl

theorem exec_smbPower_meaning : exec .smbPower s = execSmbPower s := rfl

theorem exec_smbCap_meaning : exec .smbCap s = execSmbCap s := rfl

theorem exec_smbVinCurrent_meaning : exec .smbVinCurrent s = execSmbVinCurrent s := rfl

theorem exec_smbDieTemp_meaning : exec .smbDieTemp s = execSmbDieTemp s := rfl

theorem exec_smbStackTemp_meaning : exec .smbStackTemp s = execSmbStackTemp s := rfl

theorem exec_smbEnergy_meaning : exec .smbEnergy s = execSmbEnergy s := rfl

theorem exec_smbThrottle_meaning : exec .smbThrottle s = execSmbThrottle s := rfl

theorem exec_smbSerial_meaning : exec .smbSerial s = execSmbSerial s := rfl

theorem exec_smbFaults_meaning : exec .smbFaults s = execSmbFaults s := rfl

theorem exec_smbFlashStatus_meaning : exec .smbFlashStatus s = execSmbFlashStatus s := rfl

theorem exec_smbFlashAddr_meaning (a : W32) : exec (.smbFlashAddr a) s = execSmbFlashAddr a s := rfl

theorem exec_smbFlashData_meaning (d : List Byte) : exec (.smbFlashData d) s = execSmbFlashData d s := rfl

theorem exec_smbFlashErase_meaning (n : Nat) : exec (.smbFlashErase n) s = execSmbFlashErase n s := rfl

theorem exec_smbFlashRead_meaning (n : Nat) : exec (.smbFlashRead n) s = execSmbFlashRead n s := rfl

theorem exec_flashOperationDone_meaning : exec .flashOperationDone s = execFlashOperationDone s := rfl

end

section
variable {s : State} (present : s.boot.vsb = true)
include present

theorem onSmb_serves (f : State → State) : onSmb s f = .next (f s) := by
  rw [onSmb, if_pos present]

theorem onFlash_acts (free : s.security.lockout = false) (idle : s.flash.busy = false) {ok : Bool} (may : ok = true)
    (f : State → State) : onFlash s ok f = .next (f s) := by
  rw [onFlash, onSmb_serves present, if_neg (by simp [free, idle, may])]

theorem onFlash_refuses (held : s.security.lockout = true ∨ s.flash.busy = true) (ok : Bool) (f : State → State) :
    onFlash s ok f = .next { s with flash := { s.flash with refused := true } } := by
  have refuses : (s.security.lockout || s.flash.busy || !ok) = true := by
    rcases held with locked | busy
    · simp [locked]
    · simp [busy]
  rw [onFlash, onSmb_serves present, if_pos refuses]

theorem exec_smbFlashAddr_sets (free : s.security.lockout = false) (a : W32) :
    exec (.smbFlashAddr a) s = .next { s with flash := { s.flash with address := a.toNat } } := by
  rw [exec_smbFlashAddr_meaning, execSmbFlashAddr, onSmb_serves present, if_neg (by simp [free])]

section
variable (free : s.security.lockout = false) (idle : s.flash.busy = false)
include free idle

theorem exec_smbFlashData_programs {d : List Byte} (least : 1 ≤ d.length) (most : d.length ≤ 32)
    (may : flashMay s s.flash.address d.length = true) : exec (.smbFlashData d) s = .next { s with flash := { s.flash with
      address := s.flash.address + d.length, busy := true, work := some (s.flash.address, 0, d) } } :=
  (exec_smbFlashData_meaning s d).trans (onFlash_acts present free idle (by simp [least, most, may]) _)

theorem exec_smbFlashErase_erases {n : Nat} (aligned : s.flash.address % 65536 = 0)
    (may : flashMay s s.flash.address (65536 * n) = true) : exec (.smbFlashErase n) s = .next { s with flash := { s.flash with
      busy := true, work := some (s.flash.address, n, []) } } :=
  (exec_smbFlashErase_meaning s n).trans (onFlash_acts present free idle (by simp [aligned, may]) _)

theorem exec_smbFlashRead_reads {n : Nat} (least : 1 ≤ n) (most : n ≤ 32) (may : flashMay s s.flash.address n = true) :
    exec (.smbFlashRead n) s = .next { s with flash := { s.flash with
      address := s.flash.address + n, out := flashRead s s.flash.address n } } :=
  (exec_smbFlashRead_meaning s n).trans (onFlash_acts present free idle (by simp [least, most, may]) _)

end

theorem exec_smbFlash_refuses (held : s.security.lockout = true ∨ s.flash.busy = true) {d : List Byte} {n : Nat} {i : Instr}
    (row : i ∈ [Instr.smbFlashData d, .smbFlashErase n, .smbFlashRead n]) :
    exec i s = .next { s with flash := { s.flash with refused := true } } := by
  simp only [List.mem_cons, List.not_mem_nil, or_false] at row
  rcases row with rfl | rfl | rfl
  · exact (exec_smbFlashData_meaning s d).trans (onFlash_refuses present held _ _)
  · exact (exec_smbFlashErase_meaning s n).trans (onFlash_refuses present held _ _)
  · exact (exec_smbFlashRead_meaning s n).trans (onFlash_refuses present held _ _)

theorem exec_flashOperationDone_carriesOut {a n : Nat} {d : List Byte} (work : s.flash.work = some (a, n, d)) :
    exec .flashOperationDone s = .next { s with flash := { s.flash with
      bytes := memWrite (memClear s.flash.bytes a (65536 * n)) a (d.map (· ^^^ 0xFF)), busy := false, work := none } } := by
  rw [exec_flashOperationDone_meaning, execFlashOperationDone, onSmb_serves present, flashWork, work]

end

/-- Settles O56: the target serves each command while VSB18 is present. -/
theorem smbusReadsAndPrograms : Obligations.SmbusReadsAndPrograms := by
  intro s present
  have serves (f : State → State) := onSmb_serves present f
  refine ⟨?status, ?power, ?cap, ?current, ?die, ?stack, ?energy, ?throttle, ?serial, ?faults, ?flash,
    fun d n held i row => exec_smbFlash_refuses present held row, ?flashStatus,
    fun a n d work => exec_flashOperationDone_carriesOut present work⟩
  case status => exact (exec_smbStatus_meaning s).trans (serves _)
  case power => exact (exec_smbPower_meaning s).trans (serves _)
  case cap => exact (exec_smbCap_meaning s).trans (serves _)
  case current => exact (exec_smbVinCurrent_meaning s).trans (serves _)
  case die => exact (exec_smbDieTemp_meaning s).trans (serves _)
  case stack => exact (exec_smbStackTemp_meaning s).trans (serves _)
  case energy => exact (exec_smbEnergy_meaning s).trans (serves _)
  case throttle => exact (exec_smbThrottle_meaning s).trans (serves _)
  case serial => exact (exec_smbSerial_meaning s).trans (serves _)
  case faults => exact (exec_smbFaults_meaning s).trans (serves _)
  case flash =>
    rintro _ rfl free
    exact ⟨exec_smbFlashAddr_sets present free, fun idle => ⟨fun _ least most may => exec_smbFlashData_programs present free
      idle least most may, fun _ aligned may => exec_smbFlashErase_erases present free idle aligned may,
      fun _ least most may => exec_smbFlashRead_reads present free idle least most may⟩⟩
  case flashStatus => exact (exec_smbFlashStatus_meaning s).trans (serves _)

end Sys2Proof.Machine
end

section
/-!
The Plaorn monitor: characters, lines, commands, the lockout (R497 to R501).
-/

namespace Sys2Proof.Machine

section
variable (s : State)

theorem exec_monCharacterReceive_meaning (ch : Byte) :
    exec (.monCharacterReceive ch) s = execMonCharacterReceive ch s := rfl

theorem exec_monSessionTimeout_meaning : exec .monSessionTimeout s = execMonSessionTimeout s := rfl

theorem exec_monPeek_meaning : exec .monPeek s = execMonPeek s := rfl

theorem exec_monPoke_meaning : exec .monPoke s = execMonPoke s := rfl

theorem exec_monDump_meaning : exec .monDump s = execMonDump s := rfl

theorem exec_monTgen_meaning : exec .monTgen s = execMonTgen s := rfl

theorem exec_monLap_meaning : exec .monLap s = execMonLap s := rfl

theorem exec_monLink_meaning : exec .monLink s = execMonLink s := rfl

theorem exec_monFaults_meaning : exec .monFaults s = execMonFaults s := rfl

theorem exec_monIsland_meaning : exec .monIsland s = execMonIsland s := rfl

theorem exec_monBoot_meaning : exec .monBoot s = execMonBoot s := rfl

theorem exec_monQuit_meaning : exec .monQuit s = execMonQuit s := rfl

end

/-! ## Characters and lines (R497, R500) -/

theorem monOn_of_fused {s : State} (fused : s.fuse.debugFused = true) : monOn s = false := by simp [monOn, fused]

theorem exec_monCharacterReceive_takes {s : State} (on : monOn s = true) (ch : Byte) :
    exec (.monCharacterReceive ch) s = .next (monChar ch s) := by
  rw [exec_monCharacterReceive_meaning, execMonCharacterReceive, if_pos on]

theorem exec_monCharacterReceive_off {s : State} (off : monOn s = false) (ch : Byte) :
    exec (.monCharacterReceive ch) s = .next s := by
  rw [exec_monCharacterReceive_meaning, execMonCharacterReceive, if_neg (by simp [off])]

section
variable {s s1 : State} {ch : Byte} (echoed : s1 = say [ch] s)
include echoed

theorem monChar_drops (bs : ch = 8) : monChar ch s = { s1 with mon := { s1.mon with line := s1.mon.line.dropLast } } := by
  subst echoed
  rw [monChar, if_pos bs]

theorem monChar_takesLine (ends : ch = 13 ∨ ch = 10) :
    monChar ch s = takeLine s1.mon.line { s1 with mon := { s1.mon with line := [] } } := by
  subst echoed
  have notBs : ch ≠ 8 := by rcases ends with rfl | rfl <;> decide
  rw [monChar, if_neg notBs, if_pos (by simpa using ends)]

theorem monChar_appends (notBs : ch ≠ 8) (notCr : ch ≠ 13) (notLf : ch ≠ 10) :
    monChar ch s = { s1 with mon := { s1.mon with line := s1.mon.line ++ [ch] } } := by
  subst echoed
  rw [monChar, if_neg notBs, if_neg (by simpa using ⟨notCr, notLf⟩)]

end

theorem exec_monSessionTimeout_ends {s : State} (session : s.mon.session = true)
    (silent : s.mon.lastLine + 60000000000 ≤ now s) :
    exec .monSessionTimeout s = .next { s with mon := { s.mon with session := false } } := by
  rw [exec_monSessionTimeout_meaning, execMonSessionTimeout, session, decide_eq_true silent, Bool.and_self, if_pos rfl]

theorem takeLine_refuses {s : State} {line : List Byte} (filled : line ≠ []) (locked : s.security.lockout = true) :
    takeLine line s = say (ascii "plaorn: refused: confidential mode" ++ newLine)
      { s with mon := { s.mon with lastLine := now s } } := by
  rw [takeLine, if_neg filled, if_pos locked]

/-! ## Commands -/

/-- No command of the monitor's acts under the lockout, or where it is fused off (R501). -/
theorem onMon_refuses {α : Type} {s : State} (off : s.security.lockout = true ∨ s.fuse.debugFused = true)
    (pick : MonCmd → Option α) (f : α → State → State) : onMon pick s f = .next s := by
  have refuses : (!monOn s || s.security.lockout) = true := by
    rcases off with locked | fused
    · simp [locked]
    · simp [monOn_of_fused fused]
  rw [onMon, if_pos refuses]

theorem exec_mon_refuses {s : State} (off : s.security.lockout = true ∨ s.fuse.debugFused = true) {i : Instr}
    (row : i ∈ [Instr.monPeek, .monPoke, .monDump, .monTgen, .monLap, .monLink, .monFaults, .monIsland, .monBoot, .monQuit]) :
    exec i s = .next s := by
  simp only [List.mem_cons, List.not_mem_nil, or_false] at row
  rcases row with rfl | rfl | rfl | rfl | rfl | rfl | rfl | rfl | rfl | rfl
  · exact (exec_monPeek_meaning s).trans (onMon_refuses off _ _)
  · exact (exec_monPoke_meaning s).trans (onMon_refuses off _ _)
  · exact (exec_monDump_meaning s).trans (onMon_refuses off _ _)
  · exact (exec_monTgen_meaning s).trans (onMon_refuses off _ _)
  · exact (exec_monLap_meaning s).trans (onMon_refuses off _ _)
  · exact (exec_monLink_meaning s).trans (onMon_refuses off _ _)
  · exact (exec_monFaults_meaning s).trans (onMon_refuses off _ _)
  · exact (exec_monIsland_meaning s).trans (onMon_refuses off _ _)
  · exact (exec_monBoot_meaning s).trans (onMon_refuses off _ _)
  · exact (exec_monQuit_meaning s).trans (onMon_refuses off _ _)

section
variable {s : State} {a : W64} {n : Nat} {f : Place → State → State}

theorem monAccess_misaligned (off : a.toNat % n ≠ 0) : monAccess a n s f = monDone "err addr" s := by
  rw [monAccess, if_pos off]

variable (aligned : a.toNat % n = 0)
include aligned

theorem monAccess_goes {p : Place} (reach : monReach a n s = .go p) : monAccess a n s f = f p (monAccept s) := by
  rw [monAccess, if_neg (not_not.2 aligned), reach]

theorem monAccess_waits {ps : List (Home × Nat)} (reach : monReach a n s = .wait ps) :
    monAccess a n s f = noteWaits .monitor ps s := by
  rw [monAccess, if_neg (not_not.2 aligned), reach]

theorem monAccess_fails {e : String} (reach : monReach a n s = .err e) : monAccess a n s f = monDone e s := by
  rw [monAccess, if_neg (not_not.2 aligned), reach]

end

section
variable {s : State} (on : monOn s = true) (free : s.security.lockout = false)
include on free

theorem onMon_runs {α : Type} {pick : MonCmd → Option α} {m : MonCmd} {x : α} (todo : s.mon.todo = some m)
    (f : α → State → State) (picked : pick m = some x := by rfl) : onMon pick s f = .next (f x s) := by
  have picks : s.mon.todo.bind pick = some x := by rw [todo, Option.bind_some, picked]
  rw [onMon, if_neg (by simp [on, free]), picks]

theorem exec_monPeek_accesses {a : W64} {n : Nat} (todo : s.mon.todo = some (.peek a n)) :
    exec .monPeek s = .next (monAccess a n s fun p s =>
      let r := monRead p n s
      monDone "ok" (say (ascii "0x" ++ hexText (2 * n) (leNat r.1) ++ newLine) r.2)) :=
  (exec_monPeek_meaning s).trans (onMon_runs on free todo (x := (a, n)) _)

theorem exec_monPoke_accesses {a v : W64} {n : Nat} (todo : s.mon.todo = some (.poke a v n)) :
    exec .monPoke s = .next (monAccess a n s fun p s =>
      monDone "ok" (raise .monWrite (monWrite p (toLe n v.toNat) s))) :=
  (exec_monPoke_meaning s).trans (onMon_runs on free todo (x := (a, v, n)) _)

theorem exec_monDump_prints {a : W64} {n : Nat} {p : Place} (todo : s.mon.todo = some (.dump a n)) (asked : n ≠ 0)
    (reach : monReach a n s = .go p) : exec .monDump s = .next (monDone "ok"
      (say (dumpText 4096 a.toNat (monRead p n (monAccept s)).1) (monRead p n (monAccept s)).2)) := by
  refine ((exec_monDump_meaning s).trans (onMon_runs on free todo (x := (a, n)) _)).trans (congrArg _ ?_)
  dsimp only
  rw [if_neg asked, reach]

theorem exec_monTgen_generates {k c p m v n : Nat} (todo : s.mon.todo = some (.tgen k c p m v n)) :
    exec .monTgen s = .next (monTgen k c p m n s) :=
  (exec_monTgen_meaning s).trans (onMon_runs on free todo (x := (k, c, p, m, n)) _)

theorem exec_monLap_laps (todo : s.mon.todo = some .lap) : exec .monLap s = .next (monLap s) :=
  (exec_monLap_meaning s).trans (onMon_runs on free todo _)

theorem exec_monLink_prints {p : Nat} (todo : s.mon.todo = some (.link (some p))) (here : portPresent s p = true) :
    exec .monLink s = .next (monDone "ok" (say (linkLine s p) (monAccept s))) := by
  refine ((exec_monLink_meaning s).trans (onMon_runs on free todo (x := some p) _)).trans (congrArg _ ?_)
  exact if_pos here

theorem exec_monLink_printsAll (todo : s.mon.todo = some (.link none)) : exec .monLink s =
    .next (monDone "ok" (say (((List.range 16).filter (portPresent s)).flatMap (linkLine s)) (monAccept s))) :=
  (exec_monLink_meaning s).trans (onMon_runs on free todo (x := none) _)

theorem exec_monFaults_prints {n : Nat} (todo : s.mon.todo = some (.faults n)) : exec .monFaults s = .next (monDone "ok"
    (say ((s.faults.records.drop (s.faults.records.length - n)).flatMap recordText) (monAccept s))) :=
  (exec_monFaults_meaning s).trans (onMon_runs on free todo (x := n) _)

theorem exec_monIsland_prints {n : Nat} (todo : s.mon.todo = some (.island (some n))) :
    exec .monIsland s = .next (monDone "ok" (say (islandLine s n) (monAccept s))) :=
  (exec_monIsland_meaning s).trans (onMon_runs on free todo (x := some n) _)

theorem exec_monBoot_prints (todo : s.mon.todo = some .boot) : exec .monBoot s = .next (monDone "ok"
    (say (ascii "0x" ++ hexText 8 (identValue 0x014 s) ++ newLine ++
      (List.range 7).flatMap fun k => decText (tabGet 0 s.boot.log k).toNat ++ newLine) (monAccept s))) :=
  (exec_monBoot_meaning s).trans (onMon_runs on free todo _)

theorem exec_monQuit_ends (todo : s.mon.todo = some .quit) {s1 : State} (accepted : s1 = monAccept s) :
    exec .monQuit s = .next (monDone "ok" { s1 with mon := { s1.mon with session := false } }) := by
  subst accepted
  exact (exec_monQuit_meaning s).trans (onMon_runs on free todo _)

end

/-- Settles O57: a character by what it is, a command by what its access finds. -/
theorem monitorRuns : Obligations.MonitorRuns := by
  refine ⟨fun s ch s1 on echoed => ?chars, fun s on free => ⟨?peek, ?misaligned, ?fails, ?waits, ?poke, ?dump,
    fun _ _ _ _ _ _ todo => exec_monTgen_generates on free todo, exec_monLap_laps on free,
    fun _ todo here => exec_monLink_prints on free todo here, exec_monLink_printsAll on free,
    fun _ todo => exec_monFaults_prints on free todo, fun _ todo => exec_monIsland_prints on free todo,
    exec_monBoot_prints on free, fun _ accepted todo => exec_monQuit_ends on free todo accepted⟩⟩
  case chars =>
    have takes := exec_monCharacterReceive_takes on ch
    exact ⟨fun bs => takes.trans (congrArg _ (monChar_drops echoed bs)),
      fun ends => takes.trans (congrArg _ (monChar_takesLine echoed ends)),
      fun notBs notCr notLf => takes.trans (congrArg _ (monChar_appends echoed notBs notCr notLf)),
      exec_monSessionTimeout_ends⟩
  case peek =>
    rintro a n p _ todo aligned reach rfl
    rw [exec_monPeek_accesses on free todo, monAccess_goes aligned reach]
  case misaligned =>
    intro a n todo off
    rw [exec_monPeek_accesses on free todo, monAccess_misaligned off]
  case fails =>
    intro a n e todo aligned reach
    rw [exec_monPeek_accesses on free todo, monAccess_fails aligned reach]
  case waits =>
    intro a n ps todo aligned reach
    rw [exec_monPeek_accesses on free todo, monAccess_waits aligned reach]
  case poke =>
    intro a v n p todo aligned reach
    rw [exec_monPoke_accesses on free todo, monAccess_goes aligned reach]
  case dump =>
    rintro a n p _ todo asked reach rfl
    exact exec_monDump_prints on free todo asked reach

/-- Settles O58: a line is answered with the refusal, a command is not run, a character is not taken. -/
theorem monitorIsLockedOut : Obligations.MonitorIsLockedOut := by
  refine fun s line ch => ⟨fun on locked waiting filled ends => ?line, fun off _ row => exec_mon_refuses off row,
    fun fused => exec_monCharacterReceive_off (monOn_of_fused fused) ch⟩
  have refuses := takeLine_refuses (s := { say [ch] s with mon := { (say [ch] s).mon with line := [] } }) filled locked
  rw [exec_monCharacterReceive_takes on, monChar_takesLine rfl ends, show (say [ch] s).mon.line = line from waiting, refuses]
  rfl

end Sys2Proof.Machine
end
